-- ==== Sys2Proof/Word.lean ====
section
/-! DEFINITION. The words of the TQ62: the byte of Buffer RAM and of flash, the 16-bit half that one Host Port access
moves (R166), the 32-bit word of the registers and records (R185), and the 48-bit ride clock value (R1). -/

namespace Sys2Proof

/-- One byte of Buffer RAM, of a flash page or of a sensor transfer. -/
abbrev Byte := BitVec 8

/-- One 16-bit half: what one Host Port access moves (R166). -/
abbrev Half := BitVec 16

/-- One 32-bit word: a register, or an aligned word of a Buffer RAM record (R185). -/
abbrev Word := BitVec 32

/-- A value of the 48-bit ride clock (R1), as a command carries it. -/
abbrev Stamp := BitVec 48

end Sys2Proof
end

