-- ==== Sys2Proof/Config.lean ====
section
/-! DEFINITION. What the spec leaves open and one implementation fixes: constants without a body. Nothing in Lean can
compute with them, so a statement about them holds whatever they are. -/

namespace Sys2Proof.Config

/-- Byte `i` of the 14 parity bytes that FE's code computes for a codeword (R64). The spec gives the number of parity
bytes and what they can correct, not the code. UNVERIFIED free value (log 8). -/
opaque parityByte (codeword : List Byte) (i : Nat) : Byte

/-- The byte by which the rate write names the rate for a sample period in microseconds, and which a matching read-back
returns (R14, R16). The spec gives the three rates, not their encoding. UNVERIFIED free value (log 9). -/
opaque rateSetting (period : Nat) : Byte

/-- What the status page shows at the ride clock `now` as reading `field` (0 Vin, 1 Vbat, 2 Ibat, 3 Tcell) while the latest
measurement is none (R133, R177, Table 11-8). The spec gives the page four readings and no value for none. Free value
(log 56). -/
opaque unmeasured (field now : Nat) : Int

/-- What the status page shows at the ride clock `now` as the open segment's bytes written (`field` 0) or frame count (1)
while no segment is Open (R177, Table 11-8). Free value (log 67). -/
opaque noneOpen (field now : Nat) : Nat

end Sys2Proof.Config
end

