-- ==== Sys2Proof/Syntax.lean ====
section
/-! DEFINITION. The commands of the block: one constructor of `Instr` for each row of spec/opcode_table.json, with the
operands the event brings (a ride clock value, a measurement, the bytes of a transfer, a slot index), and, where the
spec leaves the order of two deliveries open, the order taken (log 7). -/

namespace Sys2Proof

/-- One measurement of the converter (R133): Vin and Vbat in mV, Ibat in mA (positive into the battery), Tcell in
half-degrees Celsius. The converter delivers a quantity beyond its range at the nearer end of it. -/
structure Measurement where
  vin : Int
  vbat : Int
  ibat : Int
  tcell : Int
  deriving DecidableEq, Repr

/-- What a test of Starting has found (R179). -/
inductive SelfTest where
  /-- The Buffer RAM has passed its test, and the test of the internal RAM goes on. -/
  | bufferPassed
  /-- Both tests pass. -/
  | passed
  /-- A Buffer RAM word read back wrong. -/
  | bufferFailed
  /-- An internal RAM word read back wrong. -/
  | internalFailed
  deriving DecidableEq, Repr

/-- The deliveries of one charge tick (R3, R55). The spec does not order them. -/
inductive TickDelivery where
  /-- PU's release scan (R55). -/
  | releaseScan
  /-- CC's measurement arrival (R134). -/
  | charger
  /-- GA's measurement arrival (R153). -/
  | gauge
  /-- CW's scan of the request table (R112). -/
  | scan
  /-- CW's check of the commit deadline (R127). -/
  | commit
  /-- FE's idle counter (R69). -/
  | flash
  /-- HP's status page refresh (R177). -/
  | status
  deriving DecidableEq, Repr

/-- The deliveries of one accepted frame-start (R10, R26). The spec does not order them. -/
inductive FrameDelivery where
  /-- MU installs its pending parameters (R26, R33). -/
  | motion
  /-- PU opens the frame (R40). -/
  | path
  /-- CW scans the request table (R111). -/
  | writer
  deriving DecidableEq, Repr

/-- How a profile read that a command begins goes on (R170, R174, R181, log 25). -/
inductive ReadCourse where
  /-- It ends within the command; at a Run its values reach their blocks before SM goes on with the mount. -/
  | first
  /-- It ends within the command; at a Run SM goes on before the values reach their blocks. -/
  | after
  /-- It is Reading when the command has ended, and HELD_RELOAD is its end. -/
  | lasting
  deriving DecidableEq, Repr

/-- The two orders the spec leaves open at the end of a flash operation: whether the next grant is made before the
result is returned (R76), and whether GA's check is made before the grant (R162). -/
structure EndOrder where
  grantFirst : Bool
  checkFirst : Bool
  deriving DecidableEq, Repr

/-- The 13 bytes of a complete sample burst (R14). -/
structure Burst where
  bytes : Vector Byte 13
  deriving DecidableEq, Repr

/-- What FE's decoder finds for one codeword (R65). -/
inductive CodewordOutcome where
  /-- `count` bit errors found, and the corrected bytes. -/
  | corrected (count : Nat) (bytes : List Byte)
  /-- More errors than the code can correct. -/
  | uncorrectable
  deriving DecidableEq, Repr

/-- One codeword of a page as it was read: its bytes (1,024, and 1,064 for codeword 7, whose last 40 bytes are the
page record), its parity bytes, and the decoder's finding (R64, R65; the code itself is not in the spec, log 8). -/
structure CodewordRead where
  bytes : List Byte
  parity : List Byte
  outcome : CodewordOutcome
  deriving DecidableEq, Repr

/-- A whole page as it was read: its eight codewords (R65). -/
structure PageRead where
  codewords : List CodewordRead
  deriving DecidableEq, Repr

/-- The commands, one constructor a row of spec/opcode_table.json in the table's order. `t` is the ride clock value at
which the event comes; an event of a timer carries none, since its time is the timer's. -/
inductive Instr where
  | powerOnReset
  | selfTestEnd (t : Stamp) (result : SelfTest)
  | clockLoss (t : Stamp) (bufferPassed : Bool)
  | wake (vin : Int)
  | resetn (t : Stamp) (heldLow : Bool)
  | resetTransitionEnd (t : Stamp)
  | chargeTick (m : Measurement) (order : List TickDelivery)
  | sampleTick
  | frameStart (order : List FrameDelivery)
  | silenceExpiry
  | identityReadDone (t : Stamp) (response : Byte)
  | rateWriteDone (t : Stamp) (readBack : Byte)
  | sampleBurstDone (t : Stamp) (burst : Burst)
  | imuResponseTimeout (t : Stamp)
  | attemptsExhausted (t : Stamp) (response : Option Byte)
  | goodRunComplete (t : Stamp) (burst : Burst)
  | missingRunComplete (t : Stamp) (burst : Option Burst)
  | stillRunComplete (t : Stamp) (burst : Burst)
  | impactDeclared (t : Stamp) (burst : Burst)
  | settleEnd
  | resetDone (t : Stamp) (order : EndOrder)
  | readIdDone (t : Stamp) (id : Vector Byte 4) (order : EndOrder)
  | readPageDone (t : Stamp) (page : PageRead) (order : EndOrder)
  | readMarkerDone (t : Stamp) (marker : Byte) (order : EndOrder)
  | programPageDone (t : Stamp) (pass : Bool) (order : EndOrder)
  | eraseBlockDone (t : Stamp) (pass : Bool) (order : EndOrder)
  | operationTimeout (order : EndOrder)
  | idleTimeout (m : Measurement) (order : List TickDelivery)
  | media (t : Stamp) (slot : Nat)
  | start (t : Stamp) (slot : Nat)
  | stopRequest (t : Stamp) (slot : Nat)
  | split (t : Stamp) (slot : Nat)
  | protect (t : Stamp) (slot : Nat)
  | unprotect (t : Stamp) (slot : Nat)
  | fetch (t : Stamp) (slot : Nat)
  | format (t : Stamp) (slot : Nat)
  | commitDeadline (m : Measurement) (order : List TickDelivery)
  | inputQualification (m : Measurement) (order : List TickDelivery)
  | safetyTimerExpiry (m : Measurement) (order : List TickDelivery)
  | batteryOvervoltage (m : Measurement) (order : List TickDelivery)
  | termination (m : Measurement) (order : List TickDelivery)
  | recharge (m : Measurement) (order : List TickDelivery)
  | cutoff (m : Measurement) (order : List TickDelivery)
  | graceTimerExpiry (m : Measurement) (order : List TickDelivery)
  | run (t : Stamp) (course : ReadCourse)
  | mountWorkEnd (t : Stamp)
  | controlStop (t : Stamp)
  | writerClosed (t : Stamp)
  | standby (t : Stamp)
  | standbyEntry (t : Stamp)
  | reset (t : Stamp)
  | attention (t : Stamp)
  | reload (t : Stamp)
  | heldReload (t : Stamp)
  | directoryWrite (t : Stamp) (value : Word)
  | eventsClear (t : Stamp) (value : Word)
  | eventMaskWrite (t : Stamp) (value : Word)
  | registerWrite (t : Stamp) (halfAddress : Nat) (value : Half)
  | halfReadLow (t : Stamp) (registers : Bool) (word : Nat)
  | halfReadHigh (t : Stamp) (registers : Bool) (word : Nat)
  | halfWriteHigh (t : Stamp) (registers : Bool) (word : Nat) (value : Half)
  | halfWriteLow (t : Stamp) (registers : Bool) (word : Nat) (value : Half) (course : ReadCourse)
  | frameStartLineChange (t : Stamp) (high : Bool) (order : List FrameDelivery)
  | wakeDetectorReading (vin : Int)
  deriving DecidableEq, Repr

end Sys2Proof
end

