-- ==== Sys2Proof/Machine/State.lean ====
section
/-! DEFINITION. The state of the TQ62 as plain data: the part state and pins, the nine blocks, the Buffer RAM, and the
queue of commands that wait; `State.reset` is the part right after power-on reset. Each field cites the rule that gives
it. A field marked "the model's" is bookkeeping of the model for state the spec describes in words (log 10). -/

namespace Sys2Proof.Machine

/-- Raised only for a Host Port access outside the port's address space (R166: HA0..HA22). Safe: the machine stops. -/
inductive Fault where
  /-- A Host Port command names a 32-bit word that HA0..HA22 cannot address. Raised by the host access and register
  write commands; safe, since no such access exists. -/
  | noSuchAddress
  deriving DecidableEq, Repr

/-- Raised by `exec` alone, for a command without a meaning; no command of this model is without one. Safe. -/
inductive Refusal where
  /-- The command has no meaning yet. Raised by no arm now; safe. -/
  | notModelled (mnemonic : String)
  deriving DecidableEq, Repr

/-! ### Part level (Section 10) -/

/-- Part states (Table 10-1). -/
inductive PartState where
  | off | starting | idle | mounting | running | standby | halted
  deriving DecidableEq, Repr

/-- Transitions shown by STATE (R169, Table 11-1). -/
inductive Transition where
  | none | stop | standby | reset
  deriving DecidableEq, Repr

/-- Halted causes (R171, R179, R180). -/
inductive HaltedCause where
  | none | internalMemory | bufferMemory | clockLoss
  deriving DecidableEq, Repr

/-- Part state, the RESETn pin, the clock monitor and the wake detector (R163, R169, R171, R180, R184). -/
structure Part where
  state : PartState
  transition : Transition
  memoryReady : Bool
  haltedCause : HaltedCause
  /-- A loss of the reference was judged: the reset transition in progress ends in Halted (R180). -/
  haltAfter : Bool
  /-- The ride clock counts from the backup oscillator until the next power-on reset (R180). -/
  onBackup : Bool
  /-- The RESETn input is low (R184). -/
  resetnLow : Bool
  /-- RESETn began the reset transition in progress, or fell in it: it ends with the registers cleared (R178, R184). -/
  byResetn : Bool
  /-- The wake detector's count, 0..4 (R163). -/
  wakeCount : Nat
  deriving DecidableEq, Repr

/-! ### Ride Clock (Section 1) -/

/-- Frame filter states (R7). -/
inductive FilterState where
  | off | low | qualifying | high
  deriving DecidableEq, Repr

/-- The next frame number, or Exhausted (R10). -/
inductive FrameNumber where
  | number (n : Nat)
  | exhausted
  deriving DecidableEq, Repr

/-- Ride Clock state (Table 1-1). -/
structure Rck where
  clock : Nat
  nextChargeTick : Nat
  /-- The sample timer: Stopped (none), or Armed with the time of the next sample tick. -/
  sampleTimer : Option Nat
  activePeriod : Nat
  pendingPeriod : Option Nat
  filter : FilterState
  filterRun : Nat
  filterLength : Nat
  pendingFilterLength : Option Nat
  minInterval : Nat
  pendingMinInterval : Option Nat
  lastAccepted : Option Nat
  lastInterval : Option Nat
  nextFrame : FrameNumber
  glitches : Nat
  /-- The silence timer: disarmed (none), or its expiry time. -/
  silence : Option Nat
  /-- The level of the FSTART pin (Table 9-2): high is true. -/
  line : Bool
  deriving DecidableEq, Repr

/-! ### Motion Unit (Section 2) -/

/-- IMU link states (Table 2-2). -/
inductive LinkState where
  | off | starting | tracking | lost | absent
  deriving DecidableEq, Repr

/-- Phases of Starting (Table 2-1). -/
inductive LinkPhase where
  | identify | configure | sampling
  deriving DecidableEq, Repr

/-- Impact detector states (R30). -/
inductive Detector where
  | disabled | armed | counting | declared | holdOff
  deriving DecidableEq, Repr

/-- One signed value for each of the axes yaw, pitch and roll. -/
structure Axes where
  yaw : Int
  pitch : Int
  roll : Int
  deriving DecidableEq, Repr

/-- The six words of a sample (R14). -/
structure Sample where
  gyro : Axes
  accelX : Int
  accelY : Int
  accelZ : Int
  deriving DecidableEq, Repr

/-- An impact mark: time of the first exceeding sample, and the peak in 1/16 g (R31). -/
structure ImpactMark where
  time : Nat
  peak : Nat
  deriving DecidableEq, Repr

/-- The IMU transaction in flight (R14). -/
inductive Transaction where
  /-- An identity read (R15). -/
  | identity
  /-- A rate write of the Configure phase, for the period it was begun with (R16, R22). -/
  | configure (period : Nat)
  /-- A rate write in front of the burst of the sample tick `tick` (R22). -/
  | rateThenBurst (period : Nat) (tick : Nat)
  /-- The sample burst of the sample tick `tick`. -/
  | burst (tick : Nat)
  deriving DecidableEq, Repr

/-- The motion parameters that MU installs (R26, R33). -/
structure MuParams where
  biasEnable : Bool
  stillThreshold : Nat
  window : Nat
  /-- 1/16 g, or 0xFFFF for detection disabled. -/
  impactThreshold : Nat
  persistence : Nat
  /-- ms -/
  holdOff : Nat
  deriving DecidableEq, Repr

/-- Motion Unit state (Table 2-1). -/
structure Mu where
  link : LinkState
  phase : LinkPhase
  attempts : Nat
  goodRun : Nat
  missingRun : Nat
  lastCounter : Option Byte
  lastGood : Option Sample
  rateDue : Bool
  missed : List Nat
  bias : Axes
  stillRun : Nat
  stillSums : Axes
  acc : Axes
  lastTime : Option Nat
  detector : Detector
  impactRun : Nat
  impactFirst : Nat
  impactPeak : Nat
  holdOffEnd : Nat
  marks : List ImpactMark
  impacts : Nat
  merged : Nat
  params : MuParams
  pending : Option MuParams
  /-- The transaction in flight on the link, if any (R14). -/
  txn : Option Transaction
  /-- The transaction's result is to be discarded (R18). -/
  discard : Bool
  /-- The part left Running or Mounting with a transaction in flight: the link enters Off when it ends (R18, R23). -/
  leaving : Bool
  /-- A reset came with a transaction in flight: R36 takes effect when it ends. -/
  resetDue : Bool
  deriving DecidableEq, Repr

/-! ### Path Unit (Section 3) -/

/-- Frame record states (Table 3-2). -/
inductive RecordState where
  | free | captured | measured | final
  deriving DecidableEq, Repr

/-- Tracking obligations (R43). -/
inductive Obligation where
  | needed | tracked | notNeeded
  deriving DecidableEq, Repr

/-- An entry shadow (Section 3, the list under Table 3-1). -/
structure Shadow where
  state : RecordState
  frame : Nat
  /-- The shadow still describes a recycled tenant (R38). -/
  held : Bool
  capture : Nat
  reference : Int
  theta : Axes
  path : Option Nat
  flags : BitVec 16
  samples : Nat
  x16 : Int
  y16 : Int
  roll : Int
  segment : Option Nat
  obligation : Obligation
  released : Bool
  deriving DecidableEq, Repr

/-- Path parameters (R59). -/
structure PuParams where
  lookAhead : Nat
  exposure : Int
  pixelsPerDegree : Nat
  marginX : Nat
  marginY : Nat
  rollMax : Nat
  deriving DecidableEq, Repr

/-- Path Unit state (Table 3-1). The capacity C is the number of entry shadows. -/
structure Pu where
  table : Option Nat
  shadows : List Shadow
  pathNumber : Nat
  params : PuParams
  pending : Option PuParams
  overruns : Nat
  unreleased : Nat
  gaps : Nat
  clamps : Nat
  /-- The number of the frame most recently opened (R61). -/
  newest : Option Nat
  deriving DecidableEq, Repr

/-! ### Flash Engine (Section 4) -/

/-- Flash rail states (Table 4-3). -/
inductive RailState where
  | off | starting | ready | busy | failed
  deriving DecidableEq, Repr

/-- Identity results (Table 4-1). -/
inductive IdentityResult where
  | unchecked | isMatch | mismatch
  deriving DecidableEq, Repr

/-- The five requesters (Table 4-5). -/
inductive Requester where
  | tableWriter | writer | eraser | fetcher | mountReader
  deriving DecidableEq, Repr

/-- The operations a requester can ask for (Table 4-4). -/
inductive FlashOp where
  | readId
  | readPage (block page : Nat)
  | readMarker (block : Nat)
  | programPage (block page : Nat) (data record : List Byte)
  | eraseBlock (block : Nat)
  deriving DecidableEq, Repr

/-- A request, with its arrival time (Table 4-1). -/
structure FlashRequest where
  requester : Requester
  op : FlashOp
  arrival : Nat
  deriving DecidableEq, Repr

/-- The operation being executed (Table 4-1). `request` is none for the Reset that begins a power-up (R67); `resetting`
says that the Reset is what is on the link, of a power-up or in front of a granted operation (R68). -/
structure InFlight where
  request : Option FlashRequest
  resetting : Bool
  deadline : Nat
  /-- The bytes FE drives to the device: the 8,640 bytes of a Program Page (R64), else none. -/
  image : List Byte
  deriving DecidableEq, Repr

/-- Flash Engine state (Table 4-1). -/
structure Fe where
  rail : RailState
  settleEnd : Option Nat
  restored : Bool
  idle : Nat
  /-- Requests not yet granted, in order of arrival. -/
  waiting : List FlashRequest
  /-- Requests of a requester that already has one outstanding (R75). -/
  heldBack : List FlashRequest
  inFlight : Option InFlight
  timeouts : Nat
  identity : IdentityResult
  absent : Bool
  worn : Bool
  bad : List Nat
  pool : List Nat
  /-- The table-area map: bit i set when block i is Good. -/
  tableMap : BitVec 16
  /-- Installed settle time, ms. -/
  settleMs : Nat
  /-- Installed idle load, charge ticks. -/
  idleLoad : Nat
  deriving DecidableEq, Repr

/-! ### Segment Manager (Section 5) -/

/-- Table states (Table 5-1). -/
inductive TableState where
  | unmounted | mounting | mounted | unformatted | absent | failed | formatting
  deriving DecidableEq, Repr

/-- Segment states (Table 5-2). -/
inductive SegState where
  | free | erasing | opened | closed | retired
  deriving DecidableEq, Repr

/-- Protection causes (R86). -/
inductive ProtCause where
  | impact | host
  deriving DecidableEq, Repr

/-- A segment's protection: a cause with a time (R86). -/
structure Protection where
  cause : ProtCause
  time : Nat
  deriving DecidableEq, Repr

/-- A segment table entry (R86); its index is its position in the table. -/
structure Segment where
  state : SegState
  sequence : Word
  clip : Word
  part : Nat
  startTime : Nat
  endTime : Nat
  firstFrame : Nat
  frameCount : Nat
  bytesWritten : Nat
  blocks : List Nat
  protection : Option Protection
  recovered : Bool
  damaged : Bool
  weak : Bool
  deriving DecidableEq, Repr

/-- The one segment erase in progress: its segment and block position (Table 5-1). -/
structure EraseJob where
  segment : Nat
  position : Nat
  deriving DecidableEq, Repr

/-- Storage values SM installs (R108): bps, pre-roll in s, impact-protection limit. -/
structure SmParams where
  bps : Nat
  preRoll : Nat
  limit : Nat
  deriving DecidableEq, Repr

/-- The Clip Writer's segment request in progress (R99); a close is answered in the step that asks for it. -/
inductive SegRequest where
  | start | switch
  deriving DecidableEq, Repr

/-- A snapshot being written (R103, R104): its pages, the index of the page asked for, whether the table block is being
erased first. Its generation is the snapshot generation. -/
structure SnapWrite where
  pages : List (List Byte)
  index : Nat
  erasing : Bool
  deriving DecidableEq, Repr

/-- A snapshot page the mount reader has read (R105). -/
structure SnapPage where
  block : Nat
  page : Nat
  generation : Word
  index : Nat
  count : Nat
  completion : Bool
  uncorrectable : Bool
  data : List Byte
  deriving DecidableEq, Repr

/-- A progress mark (R125, Table 11-11). -/
structure ProgressMark where
  damaged : Bool
  segment : Nat
  clip : Word
  page : Nat
  lastSequence : Option Word
  lastTracked : Option Nat
  time : Nat
  streamBytes : Nat
  deriving DecidableEq, Repr

/-- Progress of a mount (R105, R106). -/
inductive MountPhase where
  /-- The operation in flight ends, and a due snapshot is finished (R105, R181). -/
  | finishing
  /-- The Read ID. -/
  | readId
  /-- Reading the table area: the next page, the snapshot pages read, and for each block done the page read as erased. -/
  | tableArea (block page : Nat) (pages : List SnapPage) (ends : List (Nat × Nat))
  /-- Recovery step 1: the Erasing entries still to erase, the one being erased first. -/
  | reErase (segments : List Nat)
  /-- Recovery step 2: the scan of the Open entry. -/
  | scan (segment page : Nat) (last : Option ProgressMark) (damaged : Bool)
  /-- The snapshot that ends the recovery. -/
  | finalSnapshot
  deriving DecidableEq, Repr

/-- Progress of a Format (R91 to R93). -/
inductive FormatPhase where
  | survey (block : Nat)
  | eraseTable (blocks : List Nat)
  | eraseSegments (segment : Nat)
  | firstSnapshot
  deriving DecidableEq, Repr

/-- Segment Manager state (Table 5-1). -/
structure Sm where
  table : TableState
  /-- bps of the table in force (R86). -/
  bps : Nat
  segments : List Segment
  sequence : Word
  clip : Word
  openFill : Nat
  change : Option SegRequest
  eraser : Option EraseJob
  /-- The Closed segment of highest sequence; none once it has been taken for erasure (R100, the model's, log 54). -/
  lastClosed : Option Nat
  impactCount : Nat
  hostCount : Nat
  params : SmParams
  pending : Option SmParams
  generation : Word
  snapshotDue : Bool
  writeBlock : Nat
  writePage : Nat
  /-- Snapshot writing: Abandoned (true) or Enabled (R104). -/
  abandoned : Bool
  snapshot : Option SnapWrite
  /-- A FlashFailed ended the snapshots until the next mount (R104). -/
  snapshotsEnded : Bool
  /-- The generation of the newest complete snapshot of the table in force: the segment view gives it (Section 11.5). -/
  completeGeneration : Word
  /-- The segment view's offset, from the directory (R107). -/
  view : Option Nat
  mount : Option MountPhase
  format : Option FormatPhase
  deriving DecidableEq, Repr

/-! ### Clip Writer (Section 6) -/

/-- Writer states (Table 6-1). -/
inductive WriterState where
  | unmounted | stopped | recording | closing | formatting | faulted
  deriving DecidableEq, Repr

/-- Stop causes (Table 6-1). -/
inductive StopCause where
  | hostStop | controlStop | reserve | cutoff | noSpace | flashFault | unformatted
  deriving DecidableEq, Repr

/-- Result codes (Table 11-12). -/
inductive ResultCode where
  | ok | badSequence | badKind | badLength | badBuffer | notRecording | alreadyRecording | noSpace | lowPower | busy
  | noSuchSegment | protectLimit | isProtected | unformatted | flashFailed | flashWorn | uncorrectable
  deriving DecidableEq, Repr

/-- A taken-request copy: the fields of a slot (Table 11-5). -/
structure Request where
  sequence : Word
  kind : Nat
  frameCount : Nat
  segment : Nat
  length : Nat
  buffer : Nat
  firstFrame : Nat
  byteOffset : Nat
  deriving DecidableEq, Repr

/-- The result a request will carry at its publication (R115, Table 6-4). -/
structure RequestResult where
  code : ResultCode
  segment : Nat
  byteOffset : Nat
  detail : Nat
  deriving DecidableEq, Repr

/-- An entry of the publication queue: the held slot, the taken copy, the result once ready, and for a Media request
where its chunk item starts, where its pair ends and how many track entries are Missing (R115, R125). -/
structure QueueEntry where
  slot : Nat
  request : Request
  result : Option RequestResult
  segment : Nat
  chunkAt : Nat
  pairEnd : Option Nat
  missing : Nat
  deriving DecidableEq, Repr

/-- Why a segment switch is asked for (R119, R124, R130). A Split carries the new clip id. -/
inductive SwitchFor where
  | media
  | split (clip : Word)
  | reappend
  deriving DecidableEq, Repr

/-- The values a Close or Switch carries (R126, R130). -/
structure CloseValues where
  endTime : Nat
  frameCount : Nat
  bytesWritten : Nat
  deriving DecidableEq, Repr

/-- The request in hand's progress (Table 6-1): what CW's copying is at. -/
inductive Job where
  | idle
  /-- Copying the chunk item of the Media with this sequence, from this offset of the item. -/
  | chunk (sequence : Word) (offset : Nat)
  /-- Copying the rest of its track item. -/
  | track (sequence : Word) (rest : List Byte)
  /-- Pad and program the tail, then switch. -/
  | pad (why : SwitchFor)
  /-- A Switch was asked for, with these values of the segment it closes. -/
  | switching (why : SwitchFor) (values : CloseValues)
  /-- A Start allocation was asked for. -/
  | starting
  /-- A Fetch: the page being read, the worst count and first bad stream offset so far (R121). -/
  | fetch (page worst : Nat) (bad : Option Nat)
  | formatting
  deriving DecidableEq, Repr

/-- Steps of a relocation attempt (R129). -/
inductive RelocStep where
  | erase
  | read (page : Nat)
  | copy (page : Nat) (data record : List Byte)
  | last
  deriving DecidableEq, Repr

/-- Relocation context (Table 6-1). -/
structure Relocation where
  page : Nat
  position : Nat
  attempt : Nat
  failed : Nat
  replacement : Nat
  step : RelocStep
  /-- The ride clock value of the ProgramFailed that began it: the deadline is frozen since then (R127). -/
  since : Nat
  /-- The record of the page copied before, for R129's rebuilt records. -/
  previous : Option (List Byte)
  deriving DecidableEq, Repr

/-- Clip Writer state (Table 6-1). The held slots and the taken copies are those of the publication queue. -/
structure Cw where
  writer : WriterState
  cause : StopCause
  table : Option Nat
  slotCount : Nat
  expected : Word
  /-- The sequence of the request in hand. -/
  inHand : Option Word
  queue : List QueueEntry
  assembly : List Byte
  /-- The assembly buffer is Programming (true) or Filling. -/
  programming : Bool
  streamPos : Nat
  lastSequence : Option Word
  lastTracked : Option Nat
  blockEnd : Option ProgressMark
  deadline : Option Nat
  commitMs : Nat
  pendingCommitMs : Option Nat
  reloc : Option Relocation
  clipFirst : Nat
  job : Job
  /-- The mark of the page that is Programming. -/
  pageMark : Option ProgressMark
  /-- The Media requests still to be re-appended (R130). -/
  reappend : List Word
  /-- What R130 interrupted, resumed after the last re-appended pair. -/
  resume : Option SwitchFor
  /-- A stop event that waits for a request in hand or a relocation (R123, R128). -/
  stopDue : Option StopCause
  deriving DecidableEq, Repr

/-! ### Charge Controller (Section 7) -/

/-- Charge states (Table 7-2). -/
inductive ChargeState where
  | noInput | inhibited | qualify | precharge | fast | taper | done | suspended | fault
  deriving DecidableEq, Repr

/-- Fault causes (Table 7-1). -/
inductive FaultCause where
  | none | prechargeTimer | fastTimer | batteryOvervoltage
  deriving DecidableEq, Repr

/-- Thermal zones (R140). -/
inductive Zone where
  | cold | cool | normal | warm | hot
  deriving DecidableEq, Repr

/-- Power profile values CC uses (Table 7-3). -/
structure CcParams where
  enable : Bool
  faultClear : Bool
  inputMax : Nat
  floor : Nat
  fast : Nat
  target : Nat
  termination : Nat
  cameraLoad : Nat
  flashLoad : Nat
  deriving DecidableEq, Repr

/-- Charge Controller state (Table 7-1). -/
structure Cc where
  charge : ChargeState
  present : Bool
  qualifyCount : Nat
  overvoltage : Bool
  latest : Option Measurement
  noThermistor : Bool
  zone : Zone
  inputLimit : Nat
  budget : Nat
  setpoint : Nat
  taper : Nat
  prechargeTimer : Nat
  fastTimer : Nat
  terminationCount : Nat
  rechargeCount : Nat
  overvoltageCount : Nat
  cause : FaultCause
  params : CcParams
  pending : Option CcParams
  deriving DecidableEq, Repr

/-! ### Gauge (Section 8) -/

/-- Gauge levels (Table 8-3). -/
inductive GaugeLevel where
  | normal | low | reserve | cutoff
  deriving DecidableEq, Repr

/-- Gauge values of the power profile (R164): mAh, mAh, mV. -/
structure GaParams where
  capacity : Nat
  reserve : Nat
  cutoff : Nat
  deriving DecidableEq, Repr

/-- Gauge state (Table 8-1). -/
structure Ga where
  q : Nat
  estimated : Bool
  hold : Nat
  present : Bool
  level : GaugeLevel
  cutoffCount : Nat
  /-- The grace timer: Stopped (none), or the charge ticks left. -/
  grace : Option Nat
  /-- SYSEN: asserted (true) or released. -/
  sysen : Bool
  params : GaParams
  pending : Option GaParams
  deriving DecidableEq, Repr

/-! ### Host Port (Section 9) -/

/-- The causes of EVENTS (Table 11-2), in the order of their bits. -/
inductive Cause where
  | requestDone | requestFailed | writerState | segmentClosed | impact | frameOverrun | imuState | chargerState
  | chargerFault | gaugeLevel | flashFault | parameterClamped | commandRefused | mountDone | halted | inputChange
  deriving DecidableEq, Repr

/-- The clamp record (Table 9-1). -/
structure ClampRecord where
  motion : Bool
  storage : Bool
  power : Bool
  deriving DecidableEq, Repr

/-- The motion profile's values. -/
structure MotionProfile where
  period : Nat
  filterLength : Nat
  minInterval : Nat
  mu : MuParams
  bias : Axes
  pu : PuParams
  deriving DecidableEq, Repr

/-- The storage profile's values. -/
structure StorageProfile where
  sm : SmParams
  commitMs : Nat
  settleMs : Nat
  idleLoad : Nat
  deriving DecidableEq, Repr

/-- The power profile's values. -/
structure PowerProfile where
  cc : CcParams
  ga : GaParams
  deriving DecidableEq, Repr

/-- What a profile read gives: the three profiles' values and the clamp record. -/
structure Profiles where
  motion : MotionProfile
  storage : StorageProfile
  power : PowerProfile
  clamped : ClampRecord
  deriving DecidableEq, Repr

/-- A profile read in progress: the values it has read, and whether it was made at a Run or for a reload (R174). -/
structure ProfileRead where
  values : Profiles
  atRun : Bool
  deriving DecidableEq, Repr

/-- Host Port state (Table 9-1). -/
structure Hp where
  latch : Half
  directory : Word
  inForce : Option Nat
  events : BitVec 16
  mask : BitVec 16
  /-- The profile read: Idle (none), or Reading, with the values that its end hands to the blocks (R170, R174). -/
  reading : Option ProfileRead
  reloadHeld : Bool
  clamped : ClampRecord
  status : Option Nat
  statusGeneration : Word
  /-- The data pins HD0..HD15 as the latest read drove them (Table 9-2). -/
  data : Half
  deriving DecidableEq, Repr

/-! ### The whole part -/

/-- The machine: part, blocks, Buffer RAM and the queue of waiting commands (the model's, log 4). -/
structure State where
  part : Part
  rck : Rck
  mu : Mu
  pu : Pu
  fe : Fe
  sm : Sm
  cw : Cw
  cc : Cc
  ga : Ga
  hp : Hp
  /-- The Buffer RAM: the bytes that differ from what an unlisted byte reads as, addresses rising (log 1). -/
  mem : List Host.Cell
  pending : List Instr
  deriving DecidableEq, Repr

/-! ### Reset values -/

/-- No angle on any axis. -/
def Axes.zero : Axes := ⟨0, 0, 0⟩

/-- R179: Starting, memory-ready clear. -/
def Part.reset : Part where
  state := .starting
  transition := .none
  memoryReady := false
  haltedCause := .none
  haltAfter := false
  onBackup := false
  resetnLow := false
  byResetn := false
  wakeCount := 0

/-- R13, column "After POR". -/
def Rck.reset : Rck where
  clock := 0
  nextChargeTick := 10000
  sampleTimer := none
  activePeriod := 1000
  pendingPeriod := none
  filter := .off
  filterRun := 0
  filterLength := 2
  pendingFilterLength := none
  minInterval := 8000
  pendingMinInterval := none
  lastAccepted := none
  lastInterval := none
  nextFrame := .number 0
  glitches := 0
  silence := none
  line := false

/-- The defaults of Table 9-5 for MU. -/
def MuParams.default : MuParams where
  biasEnable := true
  stillThreshold := 16
  window := 2048
  impactThreshold := 64
  persistence := 3
  holdOff := 2000

/-- R36. -/
def Mu.reset : Mu where
  link := .off
  phase := .identify
  attempts := 0
  goodRun := 0
  missingRun := 0
  lastCounter := none
  lastGood := none
  rateDue := false
  missed := []
  bias := Axes.zero
  stillRun := 0
  stillSums := Axes.zero
  acc := Axes.zero
  lastTime := none
  detector := .disabled
  impactRun := 0
  impactFirst := 0
  impactPeak := 0
  holdOffEnd := 0
  marks := []
  impacts := 0
  merged := 0
  params := MuParams.default
  pending := none
  txn := none
  discard := false
  leaving := false
  resetDue := false

/-- An entry shadow with no tenant (R37, R62). -/
def Shadow.empty : Shadow where
  state := .free
  frame := 0
  held := false
  capture := 0
  reference := 0
  theta := Axes.zero
  path := none
  flags := 0
  samples := 0
  x16 := 0
  y16 := 0
  roll := 0
  segment := none
  obligation := .notNeeded
  released := false

/-- The defaults of Table 9-5 for PU. -/
def PuParams.default : PuParams where
  lookAhead := 6
  exposure := 0
  pixelsPerDegree := 7680
  marginX := 192
  marginY := 108
  rollMax := 500

/-- R62. -/
def Pu.reset : Pu where
  table := none
  shadows := List.replicate 32 Shadow.empty
  pathNumber := 0
  params := PuParams.default
  pending := none
  overruns := 0
  unreleased := 0
  gaps := 0
  clamps := 0
  newest := none

/-- R85, column "After POR". -/
def Fe.reset : Fe where
  rail := .off
  settleEnd := none
  restored := false
  idle := 0
  waiting := []
  heldBack := []
  inFlight := none
  timeouts := 0
  identity := .unchecked
  absent := false
  worn := false
  bad := []
  pool := []
  tableMap := 0xFFFF
  settleMs := 5
  idleLoad := 50

/-- The defaults of Table 9-5 for SM. -/
def SmParams.default : SmParams where
  bps := 64
  preRoll := 10
  limit := 16

/-- R109. -/
def Sm.reset : Sm where
  table := .unmounted
  bps := 64
  segments := []
  sequence := 1
  clip := 1
  openFill := 0
  change := none
  eraser := none
  lastClosed := none
  impactCount := 0
  hostCount := 0
  params := SmParams.default
  pending := none
  generation := 0
  snapshotDue := false
  writeBlock := 0
  writePage := 0
  abandoned := false
  snapshot := none
  snapshotsEnded := false
  completeGeneration := 0
  view := none
  mount := none
  format := none

/-- R132. -/
def Cw.reset : Cw where
  writer := .unmounted
  cause := .hostStop
  table := none
  slotCount := 32
  expected := 0
  inHand := none
  queue := []
  assembly := []
  programming := false
  streamPos := 0
  lastSequence := none
  lastTracked := none
  blockEnd := none
  deadline := none
  commitMs := 1000
  pendingCommitMs := none
  reloc := none
  clipFirst := 0
  job := .idle
  pageMark := none
  reappend := []
  resume := none
  stopDue := none

/-- The defaults of Table 7-3. -/
def CcParams.default : CcParams where
  enable := true
  faultClear := false
  inputMax := 1500
  floor := 4500
  fast := 1000
  target := 4200
  termination := 50
  cameraLoad := 2600
  flashLoad := 400

/-- R152. -/
def Cc.reset : Cc where
  charge := .noInput
  present := false
  qualifyCount := 0
  overvoltage := false
  latest := none
  noThermistor := false
  zone := .normal
  inputLimit := 1500
  budget := 0
  setpoint := 0
  taper := 0
  prechargeTimer := 0
  fastTimer := 0
  terminationCount := 0
  rechargeCount := 0
  overvoltageCount := 0
  cause := .none
  params := CcParams.default
  pending := none

/-- The defaults of R164. -/
def GaParams.default : GaParams where
  capacity := 1720
  reserve := 40
  cutoff := 3300

/-- R165. -/
def Ga.reset : Ga where
  q := 0
  estimated := false
  hold := 0
  present := false
  level := .normal
  cutoffCount := 0
  grace := none
  sysen := true
  params := GaParams.default
  pending := none

/-- A clamp record with no flag set. -/
def ClampRecord.clear : ClampRecord := ⟨false, false, false⟩

/-- R178, column "After POR". -/
def Hp.reset : Hp where
  latch := 0
  directory := 0
  inForce := none
  events := 0
  mask := 0
  reading := none
  reloadHeld := false
  clamped := ClampRecord.clear
  status := none
  statusGeneration := 0
  data := 0

/-- The part right after power-on reset (R179), with no command waiting. -/
def State.reset : State where
  part := Part.reset
  rck := Rck.reset
  mu := Mu.reset
  pu := Pu.reset
  fe := Fe.reset
  sm := Sm.reset
  cw := Cw.reset
  cc := Cc.reset
  ga := Ga.reset
  hp := Hp.reset
  mem := []
  pending := []

end Sys2Proof.Machine
end

