-- ==== Sys2Proof/Machine/Bytes.lean ====
section
/-! DEFINITION. Byte order (R185: little-endian), two's complement fields, and the arithmetic conventions of Section 0.5:
"rounded" with ties away from zero, saturating 32-bit counts, 32-bit sequence differences. -/

namespace Sys2Proof.Machine

/-- The `n` bytes of `v`, low byte first (Section 0.5, R185). -/
def leBytes : Nat → Nat → List Byte
  | 0, _ => []
  | n + 1, v => BitVec.ofNat 8 v :: leBytes n (v / 256)

/-- The number that bytes, low byte first, spell. -/
def leNat : List Byte → Nat
  | [] => 0
  | b :: rest => b.toNat + 256 * leNat rest

/-- The `n` bytes of a signed value in two's complement. -/
def leInt (n : Nat) (i : Int) : List Byte :=
  leBytes n (i % (2 ^ (8 * n) : Nat)).toNat

/-- A number of `bits` bits read as signed. -/
def signedOf (bits v : Nat) : Int :=
  if v < 2 ^ (bits - 1) then (v : Int) else (v : Int) - (2 ^ bits : Nat)

/-- "Rounded": to the nearest integer, ties away from zero (Section 0.5). -/
def roundDiv (n : Int) (d : Nat) : Int :=
  if 0 ≤ n then (2 * n + d) / (2 * d) else -((2 * (-n) + d) / (2 * d))

/-- The value held to `lo..hi`, taken at the nearer end. -/
def clampInt (lo hi v : Int) : Int := max lo (min hi v)

/-- The value held to `lo..hi`, taken at the nearer end. -/
def clampNat (lo hi v : Nat) : Nat := max lo (min hi v)

/-- A count that saturates at 2^32 − 1. -/
def satInc (n : Nat) : Nat := min (n + 1) (2 ^ 32 - 1)

/-- Bits `k, k−1, …, 0` of the integer square root of `n`, on top of `r`. -/
def isqrtFrom (n : Nat) : Nat → Nat → Nat
  | 0, r => if (r + 1) * (r + 1) ≤ n then r + 1 else r
  | k + 1, r =>
    let c := r + 2 ^ (k + 1)
    isqrtFrom n k (if c * c ≤ n then c else r)

/-- The largest integer whose square does not exceed `n`, for `n` below 2^34 (R31). -/
def isqrt (n : Nat) : Nat := isqrtFrom n 16 0

/-- The 32-bit difference of two sequence numbers, taken as signed (R112). -/
def seqDiff (a b : Word) : Int := (a - b).toInt

/-- The counter value after this one: 2^32 − 1 is followed by 1 (R88). -/
def nextCounter (w : Word) : Word := if w = 0xFFFFFFFF then 1 else w + 1

/-- Replace the element at `i`, if there is one. -/
def modifyAt {α : Type} (f : α → α) : Nat → List α → List α
  | _, [] => []
  | 0, a :: rest => f a :: rest
  | i + 1, a :: rest => a :: modifyAt f i rest

/-- Take the element at `i` out of the list. -/
def removeAt {α : Type} : Nat → List α → List α
  | _, [] => []
  | 0, _ :: rest => rest
  | i + 1, a :: rest => a :: removeAt i rest

/-- Insert a number in its ascending place, unless it is there (R77, R79). -/
def insertAsc (n : Nat) : List Nat → List Nat
  | [] => [n]
  | m :: rest => if n < m then n :: m :: rest else if n = m then m :: rest else m :: insertAsc n rest

/-- The indices of the elements that satisfy a test, ascending. -/
def indicesWhere {α : Type} (p : α → Bool) (l : List α) : List Nat :=
  (l.zipIdx.filter fun x => p x.1).map fun x => x.2

/-- Cut a list into pieces of `n`, at most `fuel` of them. -/
def chunksOf {α : Type} (n : Nat) : Nat → List α → List (List α)
  | 0, _ => []
  | _ + 1, [] => []
  | fuel + 1, a :: rest => (a :: rest).take n :: chunksOf n fuel ((a :: rest).drop n)

/-- Insert an element before the first that `key` puts after it. -/
def insertBy {α : Type} (key : α → Nat) (a : α) : List α → List α
  | [] => [a]
  | b :: rest => if key a ≤ key b then a :: b :: rest else b :: insertBy key a rest

/-- The elements by ascending key. -/
def sortBy {α : Type} (key : α → Nat) (l : List α) : List α := l.foldr (insertBy key) []

end Sys2Proof.Machine
end

