-- ==== Sys2Proof/Machine/Ops.lean ====
section
/-! DEFINITION. The shared operations: the Buffer RAM, raising a cause (R175), the interrupt line (R176), and the ride
clock's advance to the time of an event (R1). -/

namespace Sys2Proof.Machine

/-! ### Buffer RAM -/

/-- The Buffer RAM holds 16 MiB (Section 0.1). -/
def ramBytes : Nat := 16777216

/-- What a byte that nothing has written reads as. The spec leaves the contents after Starting undefined (R179); the
model takes 0. DESIGN CHOICE, unsafe (log 1). -/
def unwritten : Byte := 0

/-- The byte at an address. -/
def readCell : List Host.Cell → Nat → Byte
  | [], _ => unwritten
  | (k, v) :: rest, a => if k = a then v else readCell rest a

/-- Write one byte, keeping the canonical form: addresses rising, no entry equal to `unwritten`. -/
def writeCell : List Host.Cell → Nat → Byte → List Host.Cell
  | [], a, v => if v = unwritten then [] else [(a, v)]
  | (k, w) :: rest, a, v =>
    if a < k then (if v = unwritten then (k, w) :: rest else (a, v) :: (k, w) :: rest)
    else if a = k then (if v = unwritten then rest else (a, v) :: rest)
    else (k, w) :: writeCell rest a v

/-- Write bytes from an address up; a byte beyond the Buffer RAM is not written. -/
def writeCells (m : List Host.Cell) (a : Nat) : List Byte → List Host.Cell
  | [] => m
  | v :: rest => writeCells (if a < ramBytes then writeCell m a v else m) (a + 1) rest

/-- The `n` bytes from an address up. -/
def readCells (m : List Host.Cell) (a : Nat) : Nat → List Byte
  | 0 => []
  | n + 1 => readCell m a :: readCells m (a + 1) n

/-- The canonical form: addresses strictly rising and inside the Buffer RAM, no entry equal to what an unlisted byte
reads as. -/
def memoryWf : List Host.Cell → Bool
  | [] => true
  | [(k, v)] => decide (k < ramBytes) && decide (v ≠ unwritten)
  | (k, v) :: (k', v') :: rest =>
    decide (k < k') && decide (k < ramBytes) && decide (v ≠ unwritten) && memoryWf ((k', v') :: rest)

/-- The `n`-byte little-endian field at an address. -/
def State.readField (s : State) (a n : Nat) : Nat := leNat (readCells s.mem a n)

/-- Write bytes to the Buffer RAM. -/
def State.store (s : State) (a : Nat) (bytes : List Byte) : State := { s with mem := writeCells s.mem a bytes }

/-! ### Events -/

/-- The bit position of a cause (Table 11-2). -/
def causeBit : Cause → Nat
  | .requestDone => 0 | .requestFailed => 1 | .writerState => 2 | .segmentClosed => 3
  | .impact => 4 | .frameOverrun => 5 | .imuState => 6 | .chargerState => 7
  | .chargerFault => 8 | .gaugeLevel => 9 | .flashFault => 10 | .parameterClamped => 11
  | .commandRefused => 12 | .mountDone => 13 | .halted => 14 | .inputChange => 15

/-- Raise a cause: its flag is set (R175). While the RESETn input is held low the registers are kept clear (R184). -/
def State.raise (s : State) (c : Cause) : State :=
  if s.part.resetnLow then s
  else { s with hp.events := s.hp.events ||| (1 <<< causeBit c) }

/-- Raise a cause if a condition holds. -/
def State.raiseIf (s : State) (b : Bool) (c : Cause) : State := if b then s.raise c else s

/-- The flag of a cause is set in EVENTS. -/
def State.caused (s : State) (c : Cause) : Bool := s.hp.events.getLsbD (causeBit c)

/-- INTn is driven low (asserted) while a cause is set and enabled (R176). -/
def State.interrupt (s : State) : Bool := s.hp.events &&& s.hp.mask != 0

/-! ### Time -/

/-- The largest ride clock value (R1). -/
def lastClock : Nat := 2 ^ 48 - 1

/-- The ride clock comes to the time of an event; it never decreases, and the value at which it would wrap is not
passed (R1, log 3). While the filter is Qualifying the line is high, and every microsecond that passes counts in the
run (R7). -/
def State.advance (s : State) (t : Nat) : State :=
  let now := max s.rck.clock (min t lastClock)
  { s with
    rck.filterRun :=
      if s.rck.filter = .qualifying then min 8 (s.rck.filterRun + (now - s.rck.clock)) else s.rck.filterRun
    rck.clock := now }

/-- The ride clock value now. -/
def State.now (s : State) : Nat := s.rck.clock

/-- A reset transition is in progress: CW, SM and PU take no action and FE grants nothing (R184). -/
def State.resetting (s : State) : Bool := s.part.transition = .reset

end Sys2Proof.Machine
end

