-- ==== Sys2Proof/Machine/Flags.lean ====
section
/-! DEFINITION. Flags and code values: frame flags (Table 11-7), the STATE register (Table 11-1), and the codes of the
records (Table 11-12). -/

namespace Sys2Proof.Machine

/-- Frame record flags (Table 3-3), in the order of their bits. -/
inductive FrameFlag where
  | clampedX | clampedY | clampedRoll | gap | saturated | unstabilized | impact | pathEdge | reclaimed | provisional
  deriving DecidableEq, Repr

/-- The bit of a frame flag (Table 11-7). -/
def flagBit : FrameFlag → Nat
  | .clampedX => 0 | .clampedY => 1 | .clampedRoll => 2 | .gap => 3 | .saturated => 4
  | .unstabilized => 5 | .impact => 6 | .pathEdge => 7 | .reclaimed => 8 | .provisional => 9

/-- Set a frame flag. -/
def setFlag (f : BitVec 16) (b : FrameFlag) : BitVec 16 := f ||| (1 <<< flagBit b)

/-- Set a frame flag if a condition holds. -/
def setFlagIf (f : BitVec 16) (c : Bool) (b : FrameFlag) : BitVec 16 := if c then setFlag f b else f

/-- A frame flag is set. -/
def hasFlag (f : BitVec 16) (b : FrameFlag) : Bool := f.getLsbD (flagBit b)

/-- Codes of the part state (Table 11-1). The port is unpowered in Off. -/
def partCode : PartState → Nat
  | .off => 0 | .starting => 0 | .idle => 1 | .mounting => 2 | .running => 3 | .standby => 4 | .halted => 5

/-- Codes of the transition indication (Table 11-1). -/
def transitionCode : Transition → Nat
  | .none => 0 | .stop => 1 | .standby => 2 | .reset => 3

/-- Codes of the Halted cause (Table 11-1). -/
def haltedCode : HaltedCause → Nat
  | .none => 0 | .internalMemory => 1 | .bufferMemory => 2 | .clockLoss => 3

/-- The STATE register (R171, Table 11-1). -/
def stateWord (p : Part) : Word :=
  BitVec.ofNat 32
    (partCode p.state + 16 * transitionCode p.transition + (if p.memoryReady then 256 else 0)
      + 4096 * haltedCode p.haltedCause)

/-- Codes of the frame record state (Table 11-6). -/
def recordCode : RecordState → Nat
  | .free => 1 | .captured => 2 | .measured => 3 | .final => 4

/-- Codes of the writer state (Table 11-12). -/
def writerCode : WriterState → Nat
  | .unmounted => 0 | .stopped => 1 | .recording => 2 | .closing => 3 | .formatting => 4 | .faulted => 5

/-- Codes of the stop cause (Table 11-12). -/
def stopCode : StopCause → Nat
  | .hostStop => 0 | .controlStop => 1 | .reserve => 2 | .cutoff => 3 | .noSpace => 4 | .flashFault => 5
  | .unformatted => 6

/-- Result codes (Table 11-12). -/
def resultCode : ResultCode → Nat
  | .ok => 0 | .badSequence => 1 | .badKind => 2 | .badLength => 3 | .badBuffer => 4 | .notRecording => 5
  | .alreadyRecording => 6 | .noSpace => 7 | .lowPower => 8 | .busy => 9 | .noSuchSegment => 10
  | .protectLimit => 11 | .isProtected => 12 | .unformatted => 13 | .flashFailed => 14 | .flashWorn => 15
  | .uncorrectable => 16

/-- Codes of the IMU link state (Table 11-12). -/
def linkCode : LinkState → Nat
  | .off => 0 | .starting => 1 | .tracking => 2 | .lost => 3 | .absent => 4

/-- Codes of the segment state (Table 11-12). -/
def segCode : SegState → Nat
  | .free => 0 | .erasing => 1 | .opened => 2 | .closed => 3 | .retired => 4

/-- The segment state of a code; codes 5 to 7 name none. -/
def segOfCode : Nat → Option SegState
  | 0 => some .free | 1 => some .erasing | 2 => some .opened | 3 => some .closed | 4 => some .retired
  | _ => none

/-- Codes of the charge state (Table 11-12). -/
def chargeCode : ChargeState → Nat
  | .noInput => 0 | .inhibited => 1 | .qualify => 2 | .precharge => 3 | .fast => 4 | .taper => 5 | .done => 6
  | .suspended => 7 | .fault => 8

/-- Codes of the fault cause (Table 11-12). -/
def faultCode : FaultCause → Nat
  | .none => 0 | .prechargeTimer => 1 | .fastTimer => 2 | .batteryOvervoltage => 3

/-- Codes of the thermal zone (Table 11-12). -/
def zoneCode : Zone → Nat
  | .cold => 0 | .cool => 1 | .normal => 2 | .warm => 3 | .hot => 4

/-- Codes of the gauge level (Table 11-12). -/
def levelCode : GaugeLevel → Nat
  | .normal => 0 | .low => 1 | .reserve => 2 | .cutoff => 3

/-- Codes of the flash rail state (Table 11-12). -/
def railCode : RailState → Nat
  | .off => 0 | .starting => 1 | .ready => 2 | .busy => 3 | .failed => 4

/-- Codes of the protection cause, 0 for absent (Table 11-9). -/
def protCode : Option Protection → Nat
  | none => 0
  | some p => match p.cause with | .impact => 1 | .host => 2

/-- A flag as the weight of its bit. -/
def bit (b : Bool) (k : Nat) : Nat := if b then 2 ^ k else 0

/-- The state byte of a segment (Table 11-9, byte 1; also in the snapshot image). -/
def segByte (e : Segment) : Nat :=
  segCode e.state + 8 * protCode e.protection + bit e.recovered 5 + bit e.damaged 6 + bit e.weak 7

end Sys2Proof.Machine
end

