-- ==== Sys2Proof/Machine/Operands.lean ====
section
/-! DEFINITION. The operand forms of the commands: a sample burst's words (R14), a measurement at the converter's
range (R133), the order of deliveries (R3, R10), the record of a slot (R110, Table 11-5), a page as FE's decoder
delivers it (R65, R66). -/

namespace Sys2Proof.Machine

/-! ### IMU -/

/-- The signed word whose low byte is at `i` (R14: low byte first). -/
def burstWord (b : Burst) (i : Nat) : Int :=
  signedOf 16 ((b.bytes.toList.getD i 0).toNat + 256 * (b.bytes.toList.getD (i + 1) 0).toNat)

/-- The six words of a burst (R14): yaw, pitch, roll, then accelerometer x, y, z. -/
def burstSample (b : Burst) : Sample where
  gyro := ⟨burstWord b 0, burstWord b 2, burstWord b 4⟩
  accelX := burstWord b 6
  accelY := burstWord b 8
  accelZ := burstWord b 10

/-- The IMU's own sample counter, the last byte of a burst (R14). -/
def burstCounter (b : Burst) : Byte := b.bytes.toList.getD 12 0

/-- A word of −32,768 is taken as −32,767 before squaring (R30). -/
def accelSquare (w : Int) : Nat := (max w (-32767)).natAbs ^ 2

/-- m², the sum of the squares of the three accelerometer words (R30). -/
def sampleSquare (x : Sample) : Nat := accelSquare x.accelX + accelSquare x.accelY + accelSquare x.accelZ

/-! ### Measurement -/

/-- The measurement as the converter delivers it: each quantity at the nearer end of its range (R133). -/
def delivered (m : Measurement) : Measurement where
  vin := clampInt 0 15000 m.vin
  vbat := clampInt 0 5000 m.vbat
  ibat := clampInt (-5000) 3000 m.ibat
  tcell := clampInt (-128) 255 m.tcell

/-- A Vin reading is in range (R135; R163 for the wake detector). -/
def vinInRange (v : Int) : Bool := decide (4200 ≤ v) && decide (v ≤ 6500)

/-! ### Orders -/

/-- Each delivery once, in the order first named, those not named last: every delivery is made, whatever the list. -/
def completeOrder {α : Type} [DecidableEq α] (all named : List α) : List α :=
  named.eraseDups ++ all.filter fun d => !named.contains d

/-- The deliveries of a charge tick in the order taken (R3). -/
def tickOrder (named : List TickDelivery) : List TickDelivery :=
  completeOrder [.releaseScan, .charger, .gauge, .scan, .commit, .flash, .status] named

/-- The deliveries of an accepted frame-start in the order taken (R10). -/
def frameOrder (named : List FrameDelivery) : List FrameDelivery :=
  completeOrder [.motion, .path, .writer] named

/-! ### Request slots -/

/-- The byte offset of a slot. -/
def slotOffset (table slot : Nat) : Nat := table + 32 * slot

/-- The slot's state field (R186). -/
def slotState (s : State) (table slot : Nat) : Nat := s.readField (slotOffset table slot) 2

/-- The slot's sequence. -/
def slotSequence (s : State) (table slot : Nat) : Word :=
  BitVec.ofNat 32 (s.readField (slotOffset table slot + 4) 4)

/-- Every field of a slot, as a taking copies them (R112, Table 11-5). -/
def slotRequest (s : State) (table slot : Nat) : Request :=
  let a := slotOffset table slot
  { sequence := slotSequence s table slot
    kind := s.readField (a + 8) 1
    frameCount := s.readField (a + 9) 1
    segment := s.readField (a + 10) 2
    length := s.readField (a + 12) 4
    buffer := s.readField (a + 16) 4
    firstFrame := s.readField (a + 20) 4
    byteOffset := s.readField (a + 24) 4 }

/-- The eight kinds (Table 11-12). -/
inductive Kind where
  | media | start | stop | split | protect | unprotect | fetch | format
  deriving DecidableEq, Repr

/-- The kind a slot's kind byte names; any other value is refused BadKind (R114, R186). -/
def kindOf : Nat → Option Kind
  | 1 => some .media | 2 => some .start | 3 => some .stop | 4 => some .split
  | 5 => some .protect | 6 => some .unprotect | 7 => some .fetch | 8 => some .format
  | _ => none

/-! ### Flash pages -/

/-- The erase state of a page, its data and record, and the correction report (R65, R66). -/
structure PageResult where
  data : List Byte
  record : List Byte
  /-- Per codeword: the correction count, or none for uncorrectable. -/
  counts : List (Option Nat)
  worst : Nat
  /-- The uncorrectable-codeword list. -/
  bad : List Nat
  erased : Bool
  deriving DecidableEq, Repr

/-- The outcomes of a correction report (R65). -/
inductive PageOutcome where
  | clean | corrected | uncorrectable
  deriving DecidableEq, Repr

/-- The zero bits of a byte. -/
def zeroBits (b : Byte) : Nat := ((List.range 8).filter fun i => !b.getLsbD i).length

/-- The zero bits of a codeword together with its parity bytes (R66). -/
def codewordZeros (c : CodewordRead) : Nat := (c.bytes ++ c.parity).foldl (fun n b => n + zeroBits b) 0

/-- The bytes of a codeword as delivered: corrected, or as read (R65). -/
def codewordBytes (c : CodewordRead) : List Byte :=
  match c.outcome with
  | .corrected _ bytes => bytes
  | .uncorrectable => c.bytes

/-- The result of a codeword: its count, or none (R65). -/
def codewordCount (c : CodewordRead) : Option Nat :=
  match c.outcome with
  | .corrected n _ => some n
  | .uncorrectable => none

/-- A page all of whose codewords hold at most 8 zero bits is erased (R66). -/
def pageErased (p : PageRead) : Bool := p.codewords.all fun c => decide (codewordZeros c ≤ 8)

/-- A page as FE delivers it (R65, R66). -/
def pageResult (p : PageRead) : PageResult :=
  if pageErased p then
    { data := List.replicate 8192 0xFF, record := List.replicate 40 0xFF, counts := List.replicate 8 (some 0),
      worst := 0, bad := [], erased := true }
  else
    let all := (p.codewords.map codewordBytes).flatten
    let counts := p.codewords.map codewordCount
    { data := all.take 8192, record := (all.drop 8192).take 40, counts := counts,
      worst := counts.foldl (fun w c => max w (c.getD 0)) 0,
      bad := indicesWhere (fun c => c.isNone) counts, erased := false }

/-- The outcome of a correction report (R65). -/
def pageOutcome (r : PageResult) : PageOutcome :=
  if r.bad ≠ [] then .uncorrectable
  else if r.counts.any fun c => decide (0 < c.getD 0) then .corrected
  else .clean

/-- The page record can be trusted: codeword 7 is not uncorrectable (R65). -/
def recordTrusted (r : PageResult) : Bool := !r.bad.contains 7

/-- The result a requester receives (Table 4-4). -/
inductive FlashResult where
  | identity (isMatch : Bool)
  | page (r : PageResult)
  | marker (v : Byte)
  | programmed (pass : Bool)
  | erased (pass : Bool)
  | timeout
  deriving DecidableEq, Repr

end Sys2Proof.Machine
end

