-- ==== Sys2Proof/Machine/PageImage.lean ====
section
/-! DEFINITION. What FE drives to the device for a Program Page (R64, Section 11.7), and the 40-byte page records
(Table 11-11). -/

namespace Sys2Proof.Machine

/-- Codeword `i` of a page: 1,024 data bytes, and for codeword 7 the page record after them (R64). -/
def codeword (data record : List Byte) (i : Nat) : List Byte :=
  (data.drop (1024 * i)).take 1024 ++ (if i = 7 then record else [])

/-- The 14 parity bytes of a codeword (R64; the code is Config's). -/
def parityBytes (cw : List Byte) : List Byte := (List.range 14).map (Config.parityByte cw)

/-- The 448 spare bytes: block marker, page record, parity of codewords 0..7, fill (Table 4-2, Section 11.7). -/
def spareArea (data record : List Byte) : List Byte :=
  [0xFF] ++ record ++ ((List.range 8).map fun i => parityBytes (codeword data record i)).flatten
    ++ List.replicate 295 0xFF

/-- The page as FE programs it: data and spare together (R64). -/
def pageImage (data record : List Byte) : List Byte := data ++ spareArea data record

/-- A field that holds a number, or 0xFFFFFFFF for none (R125, R187). -/
def optField (v : Option Nat) : List Byte := leBytes 4 (v.getD 0xFFFFFFFF)

/-- The number in such a field. -/
def optOf (v : Nat) : Option Nat := if v = 0xFFFFFFFF then none else some v

/-- The 40 bytes of a progress mark (Table 11-11). -/
def markBytes (m : ProgressMark) : List Byte :=
  [1, if m.damaged then 1 else 0] ++ leBytes 2 m.segment ++ leBytes 4 m.clip.toNat ++ leBytes 4 m.page
    ++ optField (m.lastSequence.map (·.toNat)) ++ optField m.lastTracked ++ leBytes 4 0 ++ leBytes 8 m.time
    ++ leBytes 4 m.streamBytes ++ leBytes 4 0

/-- The field of `n` bytes at offset `o` of a record or image. -/
def fieldOf (bytes : List Byte) (o n : Nat) : Nat := leNat ((bytes.drop o).take n)

/-- The type byte of a page record: 1 for a progress mark, 2 for a snapshot page record (R187). -/
def recordType (record : List Byte) : Nat := fieldOf record 0 1

/-- A progress mark read back from its 40 bytes (Table 11-11). -/
def markOf (record : List Byte) : ProgressMark where
  damaged := decide (fieldOf record 1 1 = 1)
  segment := fieldOf record 2 2
  clip := BitVec.ofNat 32 (fieldOf record 4 4)
  page := fieldOf record 8 4
  lastSequence := (optOf (fieldOf record 12 4)).map (BitVec.ofNat 32)
  lastTracked := optOf (fieldOf record 16 4)
  time := fieldOf record 24 8
  streamBytes := fieldOf record 32 4

/-- The 40 bytes of a snapshot page record (Table 11-11). -/
def snapshotRecord (generation : Word) (index count : Nat) : List Byte :=
  [2, if index + 1 = count then 1 else 0] ++ leBytes 2 index ++ leBytes 2 count ++ leBytes 2 0
    ++ leBytes 4 generation.toNat ++ List.replicate 28 0

/-- A record with its damaged indication set (R129). -/
def withDamaged (record : List Byte) : List Byte := record.set 1 1

end Sys2Proof.Machine
end

