-- ==== Sys2Proof/Machine/Path.lean ====
section
/-! DEFINITION. The Path Unit (Section 3): the frame record table in Buffer RAM and its shadows, opening and reclaim
(R40 to R42), obligations (R43), measurement (R44 to R47), paths (R48, R49), finalization and the crop record (R50 to
R54), release and recycling (R55, R56), the Clip Writer's queries (R57, R58), Stop (R60). -/

namespace Sys2Proof.Machine

/-! ### Shadows and their records -/

/-- The capacity C (R37). -/
def Pu.capacity (p : Pu) : Nat := p.shadows.length

/-- The shadow of an entry. -/
def Pu.shadow (p : Pu) (i : Nat) : Shadow := p.shadows.getD i Shadow.empty

/-- The entry of frame `n` (R37). -/
def Pu.entryOf (p : Pu) (n : Nat) : Nat := n % p.capacity

/-- The shadow describes a tenant, live or Held (R38). -/
def Shadow.present (h : Shadow) : Bool := decide (h.state ≠ .free) || h.held

/-- The shadow holds frame `n`, live or Held. -/
def Shadow.holds (h : Shadow) (n : Nat) : Bool := h.present && decide (h.frame = n)

/-- The tenant's frame has been measured (R49): a Held tenant was Final. -/
def Shadow.isMeasured (h : Shadow) : Bool :=
  decide (h.state = .measured) || decide (h.state = .final) || h.held

/-- Change the shadow of one entry. -/
def puModify (i : Nat) (f : Shadow → Shadow) (s : State) : State :=
  { s with pu.shadows := modifyAt f i s.pu.shadows }

/-- The state word of a frame record: state and flags (Table 11-6). -/
def recordWord (h : Shadow) : List Byte := leBytes 2 (recordCode h.state) ++ leBytes 2 h.flags.toNat

/-- Timestamps field group (offsets 8 and 16). -/
def recordTimes (h : Shadow) : List Byte := leBytes 8 h.capture ++ leInt 8 h.reference

/-- θ field group (offset 24). -/
def recordTheta (h : Shadow) : List Byte := leInt 8 h.theta.yaw ++ leInt 8 h.theta.pitch ++ leInt 8 h.theta.roll

/-- The word of the offsets (offset 48). -/
def recordOffsets (h : Shadow) : List Byte := leInt 2 h.x16 ++ leInt 2 h.y16

/-- The word of the roll and the sample count (offset 52). -/
def recordRoll (h : Shadow) : List Byte := leInt 2 h.roll ++ leBytes 2 h.samples

/-- The word of the segment index (offset 56). -/
def recordSegment (h : Shadow) : List Byte := leBytes 2 (h.segment.getD 0xFFFF) ++ leBytes 2 0

/-- The Buffer RAM offset of an entry's record, when the table has a location (R37). -/
def recordAt (s : State) (i : Nat) : Option Nat := s.pu.table.map fun base => base + 64 * i

/-- Write fields of an entry's record, each group at its offset, and then the state word (R39). -/
def puStore (i : Nat) (groups : List (Nat × List Byte)) (s : State) : State :=
  match recordAt s i with
  | none => s
  | some a =>
    (groups.foldl (fun s g => s.store (a + g.1) g.2) s).store a (recordWord (s.pu.shadow i))

/-- Write fields only of a live entry: a recycled record is left as it was (R56, R57). -/
def puStoreLive (i : Nat) (groups : List (Nat × List Byte)) (s : State) : State :=
  if (s.pu.shadow i).state = .free then s else puStore i groups s

/-- The indices of the entries that satisfy a test, by ascending frame number (R44, R48, R50). -/
def entriesByFrame (p : Pu) (test : Shadow → Bool) : List Nat :=
  sortBy (fun i => (p.shadow i).frame) (indicesWhere test p.shadows)

/-! ### The crop record (R49, R51 to R54) -/

/-- The window of a stabilized frame: the shadows present, measured on its path within L frames of it (R49). -/
def windowOf (p : Pu) (n path : Nat) : List Shadow :=
  p.shadows.filter fun h =>
    h.present && h.isMeasured && decide (h.path = some path)
      && decide (((h.frame : Int) - (n : Int)).natAbs ≤ p.params.lookAhead)

/-- The sum of one axis over the window. -/
def axisSum (w : List Shadow) (axis : Axes → Int) : Int := w.foldl (fun a h => a + axis h.theta) 0

/-- The correction c = P − θn on one axis, P the rounded mean over the window (R51). -/
def correction (w : List Shadow) (theta : Axes) (axis : Axes → Int) : Int :=
  roundDiv (axisSum w axis) w.length - axis theta

/-- A value limited in magnitude, with its sign (R53). -/
def limited (limit : Nat) (v : Int) : Int := clampInt (-(limit : Int)) limit v

/-- A value exceeds its limit in magnitude (R53). -/
def exceeds (limit : Nat) (v : Int) : Bool := decide (limit < v.natAbs)

/-- Offsets, roll and their clamp flags (R53). -/
structure Crop where
  x16 : Int
  y16 : Int
  roll : Int
  clampX : Bool
  clampY : Bool
  clampRoll : Bool
  deriving DecidableEq, Repr

/-- A crop record of zeros (R45, R54). -/
def zeroCrop : Crop := ⟨0, 0, 0, false, false, false⟩

/-- The crop record of a window, limited to the margins (R51 to R53). -/
def cropOf (p : PuParams) (w : List Shadow) (theta : Axes) : Crop :=
  let x := roundDiv (correction w theta Axes.yaw * p.pixelsPerDegree) 256000000
  let y := roundDiv (correction w theta Axes.pitch * p.pixelsPerDegree) 256000000
  let r := roundDiv (correction w theta Axes.roll) 160000
  { x16 := limited (16 * p.marginX) x, y16 := limited (16 * p.marginY) y, roll := limited p.rollMax r,
    clampX := exceeds (16 * p.marginX) x, clampY := exceeds (16 * p.marginY) y,
    clampRoll := exceeds p.rollMax r }

/-- The crop record of a shadow as its window stands; zeros for an Unstabilized or unmeasured frame (R45, R54). -/
def shadowCrop (p : Pu) (h : Shadow) : Crop :=
  match h.path with
  | none => zeroCrop
  | some path => cropOf p.params (windowOf p h.frame path) h.theta

/-- The clamp flags of a crop record on top of other flags (R53). -/
def cropFlags (f : BitVec 16) (c : Crop) : BitVec 16 :=
  setFlagIf (setFlagIf (setFlagIf f c.clampX .clampedX) c.clampY .clampedY) c.clampRoll .clampedRoll

/-- The frame's window holds fewer than 2L + 1 frames (R54). -/
def windowShort (p : Pu) (h : Shadow) : Bool :=
  match h.path with
  | none => false
  | some path => decide ((windowOf p h.frame path).length < 2 * p.params.lookAhead + 1)

/-! ### Recycling (R55, R56) -/

/-- The host's release word of an entry reads nonzero, or there is no table (R37, R55). -/
def releaseWordSet (s : State) (i : Nat) : Bool :=
  match recordAt s i with
  | none => true
  | some a => decide (s.readField (a + 60) 4 ≠ 0)

/-- The release scan of one entry whose tenant is Final and settled, and its recycling (R55, R56): the state word Free
is written and the shadow is Held. -/
def puScanEntry (i : Nat) (s : State) : State :=
  let h := s.pu.shadow i
  if h.state = .final ∧ h.obligation ≠ .needed then
    if h.released || releaseWordSet s i then
      puStore i [] (puModify i (fun h => { h with state := .free, held := true, released := true }) s)
    else s
  else s

/-- The release scan of every entry, at each charge tick (R55). -/
def puReleaseScan (s : State) : State :=
  (List.range s.pu.capacity).foldl (fun s i => puScanEntry i s) s

/-! ### Finalization (R50, R54) -/

/-- The shadow of a frame made Final: its crop record, clamp flags and PathEdge (R50 to R54). -/
def finalShadow (p : Pu) (edge : Bool) (h : Shadow) : Shadow :=
  let c := shadowCrop p h
  { h with
    state := .final, x16 := c.x16, y16 := c.y16, roll := c.roll,
    flags := setFlagIf (cropFlags h.flags c) (edge || windowShort p h) .pathEdge }

/-- At least one clamp flag is set (R50). -/
def isClamped (f : BitVec 16) : Bool := hasFlag f .clampedX || hasFlag f .clampedY || hasFlag f .clampedRoll

/-- Make an entry's tenant Final in its shadow, counting clamps and gaps (R46, R50). -/
def puFinalShadow (i : Nat) (edge : Bool) (s : State) : State :=
  let h := finalShadow s.pu edge (s.pu.shadow i)
  puModify i (fun _ => h)
    { s with
      pu.clamps := if isClamped h.flags then satInc s.pu.clamps else s.pu.clamps
      pu.gaps := if hasFlag h.flags .gap then satInc s.pu.gaps else s.pu.gaps }

/-- Make an entry's tenant Final, write its record and check it for recycling (R50). -/
def puFinalize (i : Nat) (edge : Bool) (s : State) : State :=
  let s := puFinalShadow i edge s
  let h := s.pu.shadow i
  puScanEntry i (puStore i [(24, recordTheta h), (48, recordOffsets h), (52, recordRoll h)] s)

/-- Make every Measured frame Final, by ascending frame number (R48). -/
def puFinalizeMeasured (s : State) : State :=
  (entriesByFrame s.pu fun h => decide (h.state = .measured)).foldl (fun s i => puFinalize i false s) s

/-- A path break (R48): the Measured frames become Final and the path number counts on, up to 2^32 − 1 (log 47). -/
def puBreak (s : State) : State :=
  let s := puFinalizeMeasured s
  { s with pu.pathNumber := satInc s.pu.pathNumber }

/-! ### Measurement (R44 to R47) -/

/-- What kind of sample MU delivers (R29). -/
inductive SampleKind where
  | good | hold | missing
  deriving DecidableEq, Repr

/-- One delivery of MU to PU (R29): timestamp, link state, accumulators where it carries them, kind, Saturated. -/
structure Delivery where
  time : Nat
  link : LinkState
  acc : Option Axes
  kind : SampleKind
  saturated : Bool
  deriving DecidableEq, Repr

/-- A Captured frame's shadow once measured by a delivery (R44, R45). -/
def measuredShadow (p : Pu) (d : Delivery) (h : Shadow) : Shadow :=
  match d.link, d.acc with
  | .tracking, some acc => { h with state := .measured, theta := acc, path := some p.pathNumber }
  | _, _ => { h with state := .measured, theta := Axes.zero, path := none, flags := setFlag h.flags .unstabilized }

/-- Measure one entry and write its record (R44, R46). -/
def puMeasureEntry (d : Delivery) (i : Nat) (s : State) : State :=
  let s := puModify i (measuredShadow s.pu d) s
  let h := s.pu.shadow i
  puStore i [(24, recordTheta h), (52, recordRoll h)] s

/-- The entry whose frame's interval contains a time: the newest frame captured at or before it (R46). -/
def intervalEntry (p : Pu) (t : Nat) : Option Nat :=
  (entriesByFrame p fun h => h.present && decide (h.capture ≤ t)).getLast?

/-- Attribute a sample delivered in Tracking to the interval that contains it (R46). -/
def puAttribute (d : Delivery) (s : State) : State :=
  if d.link = .tracking then
    match intervalEntry s.pu d.time with
    | none => s
    | some i =>
      let h := s.pu.shadow i
      let gap := decide (d.kind = .hold)
      let count := if d.kind = .missing then h.samples else min (h.samples + 1) 65535
      let late := gap && !hasFlag h.flags .gap && (decide (h.state = .final) || h.held)
      let flags := setFlagIf (setFlagIf h.flags gap .gap) d.saturated .saturated
      puModify i (fun h => { h with samples := count, flags := flags })
        { s with pu.gaps := if late then satInc s.pu.gaps else s.pu.gaps }
  else s

/-- A Measured frame is eligible for Final: frame n + L has been measured (R50). -/
def eligible (p : Pu) (h : Shadow) : Bool :=
  decide (h.state = .measured) &&
    (let m := h.frame + p.params.lookAhead
     let g := p.shadow (p.entryOf m)
     g.holds m && g.isMeasured)

/-- The measurement pass of one delivery (R44): measure, attribute, finalize. -/
def puPass (d : Delivery) (s : State) : State :=
  let due := entriesByFrame s.pu fun h => decide (h.state = .captured) && decide (h.reference ≤ (d.time : Int))
  let s := due.foldl (fun s i => puMeasureEntry d i s) s
  let s := puAttribute d s
  (entriesByFrame s.pu (eligible s.pu)).foldl (fun s i => puFinalize i false s) s

/-- The Impact flag of a finished impact run (R47). -/
def puImpact (t : Nat) (s : State) : State :=
  match intervalEntry s.pu t with
  | none => s
  | some i => puStoreLive i [] (puModify i (fun h => { h with flags := setFlag h.flags .impact }) s)

/-! ### Opening records (R40 to R43) -/

/-- Install pending path parameters (R59): a change of L or of the exposure offset first makes a path break. -/
def puInstallPending (s : State) : State :=
  match s.pu.pending with
  | none => s
  | some q =>
    let s := if q.lookAhead ≠ s.pu.params.lookAhead ∨ q.exposure ≠ s.pu.params.exposure then puBreak s else s
    { s with pu.params := q, pu.pending := none }

/-- Reclaim the tenant of an entry that is not Free (R42, Table 3-4): counted, and finalized in the shadow only if it
was Captured or Measured. -/
def puReclaim (i : Nat) (s : State) : State :=
  let h := s.pu.shadow i
  let s := if h.state = .captured then
      puModify i (fun h => { h with path := none, flags := setFlag h.flags .unstabilized }) s else s
  let s := if h.state = .final then s else puFinalShadow i true s
  State.raise
    { s with
      pu.overruns := satInc s.pu.overruns
      pu.unreleased := if h.released then s.pu.unreleased else satInc s.pu.unreleased }
    .frameOverrun

/-- The obligation of a frame at its opening (R43). -/
def openingObligation (s : State) (n : Nat) : Obligation :=
  if s.cw.writer = .recording ∧ s.cw.clipFirst ≤ n then .needed else .notNeeded

/-- The shadow of frame `n` at its opening (R41). -/
def openedShadow (s : State) (n t : Nat) (reclaimed : Bool) : Shadow :=
  { Shadow.empty with
    state := .captured, frame := n, capture := t, reference := (t : Int) + s.pu.params.exposure,
    flags := setFlagIf 0 reclaimed .reclaimed, obligation := openingObligation s n,
    released := s.pu.table.isNone }

/-- Close the interval of frame `n`, if its entry still holds it live (R41, R46). -/
def puCloseInterval (n : Nat) (s : State) : State :=
  let i := s.pu.entryOf n
  if (s.pu.shadow i).holds n then puStoreLive i [(52, recordRoll (s.pu.shadow i))] s else s

/-- Open frame `n` in its entry and write the record Captured (R41). -/
def puOpen (n t : Nat) (reclaimed : Bool) (s : State) : State :=
  let i := s.pu.entryOf n
  let s := if n = 0 then s else puCloseInterval (n - 1) s
  let h := openedShadow s n t reclaimed
  puStore i
    [(4, leBytes 4 n), (8, recordTimes h), (24, recordTheta h), (48, recordOffsets h), (52, recordRoll h),
     (56, recordSegment h), (60, leBytes 4 0)]
    { puModify i (fun _ => h) s with pu.newest := some n }

/-- PU's four steps at an accepted frame-start (R40). -/
def puFrameStart (n t : Nat) (s : State) : State :=
  let s := puInstallPending s
  let i := s.pu.entryOf n
  let s := puScanEntry i s
  if (s.pu.shadow i).state = .free then puOpen n t false s
  else puOpen n t true (puReclaim i s)

/-- The Clip Writer entered Recording by Start with a clip's first frame (R43). -/
def puClipStart (first : Nat) (s : State) : State :=
  { s with
    pu.shadows := s.pu.shadows.map fun h =>
      if h.state ≠ .free ∧ first ≤ h.frame ∧ h.obligation = .notNeeded then { h with obligation := .needed } else h }

/-- Set NotNeeded every Needed obligation that satisfies a test, and check each such entry (R43, R58). -/
def puSetNotNeeded (test : Shadow → Bool) (s : State) : State :=
  (indicesWhere (fun h => decide (h.obligation = .needed) && test h) s.pu.shadows).foldl
    (fun s i => puScanEntry i (puModify i (fun h => { h with obligation := .notNeeded }) s)) s

/-- The writer entered Stopped, Faulted or Unmounted (R43). -/
def puWriterDone (s : State) : State := puSetNotNeeded (fun _ => true) s

/-- The Clip Writer took a Media request with this first frame (R58). -/
def puSkipBelow (first : Nat) (s : State) : State :=
  puSetNotNeeded (fun h => h.present && decide (h.frame < first)) s

/-! ### Queries (R57) -/

/-- Statuses of a track entry (Table 11-10). -/
inductive TrackStatus where
  | final | provisional | missing
  deriving DecidableEq, Repr

/-- PU's answer to a query (R57), Missing with zeros. -/
structure FrameAnswer where
  status : TrackStatus
  x16 : Int
  y16 : Int
  roll : Int
  flags : BitVec 16
  samples : Nat
  capture : Nat
  reference : Int
  deriving DecidableEq, Repr

/-- The answer Missing (R57, R187). -/
def missingAnswer : FrameAnswer := ⟨.missing, 0, 0, 0, 0, 0, 0, 0⟩

/-- The answer for a shadow that holds the frame (R57). The flags of a Measured frame's answer carry the Provisional bit that
this query sets, as those of a Captured one do (log 68). -/
def answerOf (p : Pu) (h : Shadow) : FrameAnswer :=
  if h.state = .final ∨ h.state = .free then
    ⟨.final, h.x16, h.y16, h.roll, h.flags, h.samples, h.capture, h.reference⟩
  else
    let c := if h.state = .measured then shadowCrop p h else zeroCrop
    ⟨.provisional, c.x16, c.y16, c.roll, setFlag (cropFlags h.flags c) .provisional, h.samples, h.capture,
      h.reference⟩

/-- The Clip Writer asks for frame `m` with a segment index (R57): the answer, and the frame Tracked. -/
def puQuery (m segment : Nat) (s : State) : FrameAnswer × State :=
  let i := s.pu.entryOf m
  let h := s.pu.shadow i
  if h.holds m then
    let a := answerOf s.pu h
    let s := puModify i (fun h =>
      { h with obligation := .tracked, segment := some segment,
               flags := setFlagIf h.flags (decide (a.status = .provisional)) .provisional }) s
    (a, puScanEntry i (puStoreLive i [(56, recordSegment (s.pu.shadow i))] s))
  else (missingAnswer, s)

/-! ### Run, Stop (R37, R60) -/

/-- A path break, the finalization of the frames still open, and the end of the newest frame's interval, at the Stop
command (R41, R60). -/
def puStop (s : State) : State :=
  let s := puBreak s
  let s := (entriesByFrame s.pu fun h => decide (h.state = .captured)).foldl
    (fun s i => puFinalize i true
      (puModify i (fun h => { h with path := none, flags := setFlag h.flags .unstabilized }) s)) s
  match s.pu.newest with
  | none => s
  | some n => puCloseInterval n s

/-- The table at a Run (R37): location and capacity from the directory, every entry Free with a release word of 0, the
four frame counters 0 (R61). -/
def puRun (table : Option Nat) (capacity : Nat) (s : State) : State :=
  let s := { s with
    pu.table := table, pu.shadows := List.replicate capacity Shadow.empty, pu.pathNumber := 0,
    pu.overruns := 0, pu.unreleased := 0, pu.gaps := 0, pu.clamps := 0 }
  (List.range capacity).foldl (fun s i => puStore i [(60, leBytes 4 0)] s) s

end Sys2Proof.Machine
end

