-- ==== Sys2Proof/Machine/Flash.lean ====
section
/-! DEFINITION. The Flash Engine (Section 4): requests, the rail, the arbiter (R67, R68, R75), the end of an operation's
effect on FE's own state (R69, R73, R76, R84), and the block records (R77 to R82). What the requesters do with results
is in FlashEnd.lean. -/

namespace Sys2Proof.Machine

/-! ### Arbiter -/

/-- Arbiter classes (Table 4-5). -/
def requesterClass : Requester → Nat
  | .tableWriter => 1 | .writer => 2 | .eraser => 3 | .fetcher => 4 | .mountReader => 4

/-- Deadlines in microseconds, from the issue (Table 4-4). -/
def opDeadline : FlashOp → Nat
  | .readId => 1000 | .readPage _ _ => 1000 | .readMarker _ => 1000
  | .programPage _ _ _ _ => 5000 | .eraseBlock _ => 20000

/-- The deadline of a Reset (Table 4-4). -/
def resetDeadline : Nat := 1000

/-- What FE drives to the device for an operation beyond its command: a Program Page's page (R64). -/
def opImage : FlashOp → List Byte
  | .programPage _ _ data record => pageImage data record
  | _ => []

/-- The request that goes next: the lowest class, and within a class the first to arrive (R75). -/
def nextRequest : List FlashRequest → Option FlashRequest
  | [] => none
  | w :: rest =>
    match nextRequest rest with
    | none => some w
    | some v => if requesterClass v.requester < requesterClass w.requester then some v else some w

/-- No grant is made in a Standby or Reset transition or in Standby (R84, R184). -/
def grantAllowed (s : State) : Bool :=
  decide (s.part.state ≠ .standby) && decide (s.part.transition ≠ .standby) && decide (s.part.transition ≠ .reset)

/-- Issue the granted operation itself to the device; its deadline runs from here (R68, R71). -/
def feIssueOp (w : FlashRequest) (s : State) : State :=
  { s with
    fe.rail := .busy
    fe.inFlight := some ⟨some w, false, s.now + opDeadline w.op, opImage w.op⟩ }

/-- Grant a request: it leaves the waiting requests and is issued, after a Reset while the flash restored flag is clear
(R68, R75). -/
def feGrantRequest (w : FlashRequest) (s : State) : State :=
  let s := { s with fe.waiting := s.fe.waiting.erase w }
  if s.fe.restored then feIssueOp w s
  else { s with fe.rail := .busy, fe.inFlight := some ⟨some w, true, s.now + resetDeadline, []⟩ }

/-- Grant the next request, if the rail is Ready with nothing in flight (R75). -/
def feGrant (s : State) : State :=
  if s.fe.rail = .ready ∧ s.fe.inFlight = none ∧ grantAllowed s then
    match nextRequest s.fe.waiting with
    | none => s
    | some w => feGrantRequest w s
  else s

/-! ### Rail -/

/-- The rail is on (R139): Starting, Ready or Busy. -/
def railOn (r : RailState) : Bool := decide (r = .starting) || decide (r = .ready) || decide (r = .busy)

/-- Switch the rail on: Starting, with a settle end (R67). -/
def feSwitchOn (s : State) : State :=
  { s with fe.rail := .starting, fe.restored := false, fe.settleEnd := some (s.now + 1000 * s.fe.settleMs) }

/-- Switch the rail off (R69, R84); a settle end is none from then on (log 49). -/
def feSwitchOff (s : State) : State :=
  { s with fe.rail := .off, fe.restored := false, fe.settleEnd := none }

/-- Issue the Reset that begins a power-up; FE stays in Starting (R67), and the settle end has passed (log 49). -/
def feStartupReset (s : State) : State :=
  { s with fe.settleEnd := none, fe.inFlight := some ⟨none, true, s.now + resetDeadline, []⟩ }

/-! ### Requests -/

/-- The requester has a request waiting or in flight (Section 4.5). -/
def outstanding (f : Fe) (r : Requester) : Bool :=
  (f.waiting.any fun w => decide (w.requester = r)) ||
    (match f.inFlight with
     | none => false
     | some o => match o.request with
       | none => false
       | some w => decide (w.requester = r))

/-- A request is refused with FlashFailed at its arrival: the rail is Failed, or the identity result is not Match and
it is not a Read ID (R72, R74). -/
def refusedAtArrival (f : Fe) (op : FlashOp) : Bool :=
  decide (f.rail = .failed) || (decide (f.identity ≠ .isMatch) && decide (op ≠ .readId))

/-- A request joins the waiting requests, starts the rail from Off, and is granted where the arbiter can (R67, R75). -/
def feJoin (w : FlashRequest) (s : State) : State :=
  let s := { s with fe.waiting := s.fe.waiting ++ [w] }
  if s.fe.rail = .off ∧ grantAllowed s then feSwitchOn s else feGrant s

/-- A request arrives (R67, R72, R74, R75): whether it is refused, and the state after. -/
def feArrive (r : Requester) (op : FlashOp) (s : State) : Bool × State :=
  if refusedAtArrival s.fe op then (true, s)
  else
    let w : FlashRequest := ⟨r, op, s.now⟩
    if outstanding s.fe r then (false, { s with fe.heldBack := s.fe.heldBack ++ [w] })
    else (false, feJoin w s)

/-- The first result of a requester has been returned: its held-back request joins the waiting ones (R75). -/
def feUnhold (r : Requester) (s : State) : State :=
  { s with
    fe.waiting := s.fe.waiting ++ s.fe.heldBack.filter (fun w => decide (w.requester = r))
    fe.heldBack := s.fe.heldBack.filter (fun w => decide (w.requester ≠ r)) }

/-! ### The end of an operation -/

/-- The rail after an operation that did not bring the third timeout: Ready, or Off in a Standby transition (R76,
R84). -/
def feRailAfter (s : State) : State :=
  if s.part.transition = .standby then feSwitchOff s else { s with fe.rail := .ready }

/-- An operation ends without a timeout: the timeout count is cleared, the idle counter loaded, the rail returns to
Ready (R69, R73, R76). -/
def feEndDone (s : State) : State :=
  feRailAfter { s with fe.inFlight := none, fe.timeouts := 0, fe.idle := s.fe.idleLoad }

/-- Entry to Failed: the rail is switched off and FlashFault raised (R74); the waiting requests are answered by the
caller. -/
def feEnterFailed (s : State) : State :=
  State.raise { s with fe.rail := .failed, fe.restored := false, fe.settleEnd := none } .flashFault

/-- An operation ends by its deadline (R73): the flash restored flag is cleared, the idle counter loaded, the timeout
counted; at three in a row FE enters Failed (R74). -/
def feEndTimeout (s : State) : State :=
  let s := { s with
    fe.inFlight := none, fe.restored := false, fe.idle := s.fe.idleLoad, fe.timeouts := s.fe.timeouts + 1 }
  if 3 ≤ s.fe.timeouts then feEnterFailed s else feRailAfter s

/-- The start-up Reset completes (R67): the flag is set, the timeout count cleared, the rail Ready, and the next
request granted. -/
def feStartupDone (s : State) : State :=
  feRailAfter { s with fe.inFlight := none, fe.timeouts := 0, fe.restored := true }

/-- The start-up Reset times out (R67, R73): counted, and issued again at once unless it was the third. It is issued again
neither in a Standby transition, in which the rail goes off (R84), nor in a reset transition (log 49). -/
def feStartupTimeout (s : State) : State :=
  let s := { s with
    fe.inFlight := none, fe.restored := false, fe.idle := s.fe.idleLoad, fe.timeouts := s.fe.timeouts + 1 }
  if 3 ≤ s.fe.timeouts then feEnterFailed s
  else if s.part.transition = .standby then feSwitchOff s
  else if s.part.transition = .reset then s
  else feStartupReset s

/-- The Reset in front of a granted operation completes (R68): the flag is set and the operation issued. -/
def feFrontDone (w : FlashRequest) (s : State) : State :=
  feIssueOp w { s with fe.restored := true, fe.timeouts := 0 }

/-- FE's part of a charge tick: the idle counter and the idle timeout (R69). -/
def feTick (s : State) : State :=
  if s.fe.rail = .ready ∧ s.fe.waiting = [] then
    let n := s.fe.idle - 1
    if n ≠ 0 then { s with fe.idle := n }
    else if s.cw.assembly = [] then { feSwitchOff s with fe.idle := 0 }
    else { s with fe.idle := s.fe.idleLoad }
  else s

/-! ### Block records -/

/-- The number of Good flags of the table-area map (R78). -/
def goodCount (m : BitVec 16) : Nat := ((List.range 16).filter fun i => m.getLsbD i).length

/-- A table-area block is Good (R78). -/
def tableGood (s : State) (b : Nat) : Bool := s.fe.tableMap.getLsbD b

/-- Set the Worn flag; FlashFault is raised if it was clear (R82). -/
def feSetWorn (s : State) : State :=
  if s.fe.worn then s else State.raise { s with fe.worn := true } .flashFault

/-- Mark a table-area block Bad; below 2 Good flags the Worn flag is set (R78). -/
def feMarkBad (b : Nat) (s : State) : State :=
  let s := { s with fe.tableMap := s.fe.tableMap &&& ~~~((1 : BitVec 16) <<< b) }
  if goodCount s.fe.tableMap < 2 then feSetWorn s else s

/-- Retire a block (R77): whether it is accepted, and the state after. -/
def feRetire (b : Nat) (s : State) : Bool × State :=
  if b < 16 then (true, feMarkBad b s)
  else if s.fe.bad.contains b then (true, { s with fe.pool := s.fe.pool.erase b })
  else if s.fe.bad.length < 512 then
    (true, { s with fe.bad := insertAsc b s.fe.bad, fe.pool := s.fe.pool.erase b })
  else (false, feSetWorn s)

/-- Take the lowest-numbered block of the spare pool (R79). -/
def feTake (s : State) : Option Nat × State :=
  match s.fe.pool with
  | [] => (none, s)
  | b :: rest => (some b, { s with fe.pool := rest })

/-- Return a block to the spare pool (R79). -/
def feReturn (b : Nat) (s : State) : State :=
  if s.fe.bad.contains b then s else { s with fe.pool := insertAsc b s.fe.pool }

/-- The Worn flag after a load of the records (R80). -/
def feJudgeWorn (s : State) : State :=
  if s.fe.bad.length = 512 ∨ goodCount s.fe.tableMap < 2 then feSetWorn s else { s with fe.worn := false }

/-- The records at the start of a Format (R80). -/
def feClearRecords (s : State) : State :=
  { s with fe.bad := [], fe.pool := [], fe.tableMap := 0xFFFF, fe.worn := false }

/-- The records loaded from a snapshot (R80). -/
def feLoadRecords (bad pool : List Nat) (map : BitVec 16) (s : State) : State :=
  feJudgeWorn { s with fe.bad := bad, fe.pool := pool, fe.tableMap := map }

/-- FE after soft reset, RESETn or entry to Halted (R85). -/
def feAfterReset (f : Fe) : Fe :=
  if f.rail = .failed then { Fe.reset with rail := .failed, timeouts := 3 } else Fe.reset

end Sys2Proof.Machine
end

