-- ==== Sys2Proof/Machine/Publish.lean ====
section
/-! DEFINITION. The Clip Writer's publication (R115), its entries to Stopped and Faulted (R116, R117), the Segment
Manager's closing of an entry (R89), the segment view (R107), GA's release check (R162), and what a FlashFailed answer
does (R74, R93, R95, R104, R105, R117). -/

namespace Sys2Proof.Machine

/-! ### Release of the system rail -/

/-- The writer is closed (R162). -/
def writerClosed (c : Cw) : Bool :=
  decide (c.writer = .stopped) || decide (c.writer = .faulted) || decide (c.writer = .unmounted)

/-- GA's check during the cutoff sequence: SYSEN is released when the writer is closed and no flash operation is in
flight (R162). -/
def gaCheck (s : State) : State :=
  if s.ga.grace.isSome && writerClosed s.cw && s.fe.inFlight.isNone then { s with ga.sysen := false } else s

/-! ### Publication -/

/-- Write the published fields and then the state word of a slot (R115, R185): segment index with the kind and frame
count of the taken copy, byte offset, detail, then state and result code. -/
def publishSlot (e : QueueEntry) (r : RequestResult) (s : State) : State :=
  match s.cw.table with
  | none => s
  | some table =>
    let a := slotOffset table e.slot
    let s := s.store (a + 8)
      (leBytes 1 e.request.kind ++ leBytes 1 e.request.frameCount ++ leBytes 2 r.segment)
    let s := s.store (a + 24) (leBytes 4 r.byteOffset)
    let s := s.store (a + 28) (leBytes 4 r.detail)
    s.store a (leBytes 2 (if r.code = .ok then 3 else 4) ++ leBytes 2 (resultCode r.code))

/-- Publish the ready entries at the front of a queue, oldest first, and keep the rest (R115). -/
def publishFrom : List QueueEntry → State → State
  | [], s => { s with cw.queue := [] }
  | e :: rest, s =>
    match e.result with
    | none => { s with cw.queue := e :: rest }
    | some r =>
      publishFrom rest
        ((publishSlot e r s).raise (if r.code = .ok then .requestDone else .requestFailed))

/-- CW publishes the oldest entry whenever it is ready (R115). -/
def cwPublish (s : State) : State := publishFrom s.cw.queue s

/-- The result of a refusal: the fields as posted and a detail of 0 (Table 6-4); the same for a request that fails after it
was taken (log 64). -/
def failure (q : Request) (c : ResultCode) : RequestResult := ⟨c, q.segment, q.byteOffset, 0⟩

/-- Give the entries that satisfy a test and have no result yet theirs. -/
def cwReady (test : QueueEntry → Bool) (result : QueueEntry → RequestResult) (s : State) : State :=
  { s with
    cw.queue := s.cw.queue.map fun e =>
      if e.result.isNone && test e then { e with result := some (result e) } else e }

/-- The entry is the one with this sequence. -/
def entryIs (q : Word) (e : QueueEntry) : Bool := decide (e.request.sequence = q)

/-- The request in hand gets its result and is handed off (R113, R115). -/
def cwFinish (result : QueueEntry → RequestResult) (s : State) : State :=
  match s.cw.inHand with
  | none => s
  | some q => { cwReady (entryIs q) result s with cw.inHand := none }

/-! ### Segment view and close -/

/-- The 48 bytes of a segment view entry (Table 11-9). -/
def viewEntry (i : Nat) (e : Segment) : List Byte :=
  leBytes 1 i ++ leBytes 1 (segByte e) ++ leBytes 2 (min e.part 65535)
    ++ leBytes 4 (e.bytesWritten / 8192 + 131072 * e.blocks.length)
    ++ leBytes 4 e.sequence.toNat ++ leBytes 4 e.clip.toNat ++ leBytes 8 e.startTime ++ leBytes 8 e.endTime
    ++ leBytes 8 ((e.protection.map (·.time)).getD 0) ++ leBytes 4 e.firstFrame ++ leBytes 4 e.frameCount

/-- Rewrite the segment view between two increments of its generation word, which is read back from the Buffer RAM
(R107, log 16). -/
def smWriteView (s : State) : State :=
  match s.sm.view with
  | none => s
  | some a =>
    let g := s.readField a 4
    let s := s.store a (leBytes 4 (g + 1))
    let s := s.store (a + 4) (leBytes 4 s.sm.segments.length
      ++ leBytes 4 (if s.sm.segments = [] then 0 else s.sm.completeGeneration.toNat) ++ leBytes 4 s.sm.bps)
    let s := s.store (a + 16) ((s.sm.segments.zipIdx.map fun x => viewEntry x.2 x.1).flatten)
    s.store a (leBytes 4 (g + 2))

/-- The view written once with N = 0, in Unformatted, Absent and Failed (R107). -/
def smEmptyView (s : State) : State := smWriteView { s with sm.segments := [] }

/-- A segment of the table. -/
def Sm.segment (m : Sm) (i : Nat) : Option Segment := m.segments[i]?

/-- Change a segment of the table. -/
def smModify (i : Nat) (f : Segment → Segment) (s : State) : State :=
  { s with sm.segments := modifyAt f i s.sm.segments }

/-- The Open segment's index (R88). -/
def openIndex (m : Sm) : Option Nat := (indicesWhere (fun e => decide (e.state = .opened)) m.segments)[0]?

/-- The Open segment. -/
def openSegment (m : Sm) : Option Segment := (openIndex m).bind m.segment

/-- The frame count of the open segment's stream so far (R126), modulo 2^32 where the last tracked frame lies below the
first (log 51). -/
def liveFrameCount (s : State) : Nat :=
  match s.cw.lastTracked, openSegment s.sm with
  | some n, some e => (n + 1 + 2 ^ 32 - e.firstFrame) % 2 ^ 32
  | _, _ => 0

/-- The values a Close or Switch carries (R126), or those of a segment cut short (R130). -/
def closeValues (s : State) : CloseValues :=
  match s.cw.job with
  | .switching .reappend v => v
  | _ => ⟨s.now, liveFrameCount s, 8192 * s.sm.openFill⟩

/-- SM sets the Open segment Closed with the supplied values, marks a snapshot due and raises SegmentClosed (R89). It is
then the Closed segment of highest sequence (R100). -/
def smCloseOpen (v : CloseValues) (s : State) : State :=
  match openIndex s.sm with
  | none => s
  | some i =>
    (smModify i (fun e =>
      { e with state := .closed, endTime := v.endTime, frameCount := v.frameCount, bytesWritten := v.bytesWritten })
      { s with sm.lastClosed := some i, sm.snapshotDue := true }).raise .segmentClosed

/-- While snapshot writing is Abandoned, the view is rewritten after a change of the table (R104, R107). -/
def smRewriteAbandoned (s : State) : State :=
  if s.sm.abandoned ∧ s.sm.snapshotDue ∧ s.sm.table = .mounted then smWriteView { s with sm.snapshotDue := false } else s

/-! ### Writer states -/

/-- A change of the writer state, raising WriterState (R116). -/
def cwSetWriter (w : WriterState) (s : State) : State :=
  if s.cw.writer = w then s else State.raise { s with cw.writer := w } .writerState

/-! ### Stop events -/

/-- The entry to Closing with its cause (R123). -/
def cwEnterClosing (cause : StopCause) (s : State) : State := cwSetWriter .closing { s with cw.cause := cause }

/-- The job serves a Start or a Split (R123). -/
def jobDefers : Job → Bool
  | .starting => true
  | .pad (.split _) => true
  | .switching (.split _) _ => true
  | _ => false

/-- A stop event waits: a Start or Split is in hand (R123), or a relocation is in progress, for which snapshot writing
Abandoned does not wait (R128). -/
def stopWaits (cause : StopCause) (c : Cw) : Bool :=
  jobDefers c.job || c.resume.isSome || (c.reloc.isSome && decide (cause ≠ .flashFault))

/-- A stop event takes effect by the writer state it finds (R123, R131). -/
def cwApplyStop (cause : StopCause) (s : State) : State :=
  if s.cw.writer = .recording then cwEnterClosing cause s
  else if s.cw.writer = .closing ∧ cause = .cutoff then { s with cw.cause := .cutoff }
  else s

/-- Of a waiting event and a later one, the one kept: the first, but for a Cutoff (R123, R131). -/
def laterStop (old : Option StopCause) (new : StopCause) : StopCause :=
  if new = .cutoff then .cutoff else old.getD new

/-- A stop event arrives (R123, R128, R131). -/
def cwStopEvent (cause : StopCause) (s : State) : State :=
  if stopWaits cause s.cw then { s with cw.stopDue := some (laterStop s.cw.stopDue cause) } else cwApplyStop cause s

/-- The stop event that waited and waits no longer. -/
def stopReady (c : Cw) : Option StopCause := c.stopDue.filter fun cause => !stopWaits cause c

/-! ### Stopped and Faulted -/

/-- On entry to Stopped or Faulted: PU is told (R43), and the writer reports itself closed to the Gauge (R116, R162). -/
def cwReportClosed (s : State) : State := gaCheck (puWriterDone s)

/-- Entry to Stopped with a cause (R116). -/
def cwEnterStopped (cause : StopCause) (s : State) : State :=
  cwReportClosed (cwPublish (cwSetWriter .stopped { s with cw.cause := cause, cw.stopDue := none }))

/-- The assembly, the commit deadline, the relocation, the segment change and the request in hand end (R117). -/
def cwDropWork (s : State) : State :=
  { s with
    cw.assembly := [], cw.programming := false, cw.deadline := none, cw.reloc := none, cw.inHand := none,
    cw.job := .idle, cw.pageMark := none, cw.reappend := [], cw.resume := none, cw.stopDue := none,
    sm.change := none }

/-- Every taken request that is not ready fails with FlashFailed (R117). -/
def cwFailUnready (s : State) : State := cwReady (fun _ => true) (fun e => failure e.request .flashFailed) s

/-- Entry to Faulted (R117): an Open segment is set Closed in the table (R89), with the view rewritten while snapshot
writing is Abandoned (R107), the work ends, what is not ready fails, and the queue is published. While giving up waits for
its Switch the segment takes the values of R130, with the end time of this moment (log 53). -/
def cwGoFaulted (s : State) : State :=
  cwReportClosed (cwPublish (cwSetWriter .faulted (cwFailUnready (cwDropWork
    (smRewriteAbandoned (smCloseOpen { closeValues s with endTime := s.now } s))))))

/-- A FlashFailed puts the writer in Faulted from any state but Unmounted (R117). -/
def cwEnterFaulted (s : State) : State :=
  if s.cw.writer = .unmounted ∨ s.cw.writer = .faulted then s else cwGoFaulted s

/-! ### FlashFailed -/

/-- A mount ends without a table: Absent or Failed, the writer Faulted, the view written with N = 0 (R105, R107). -/
def smMountFails (t : TableState) (s : State) : State :=
  cwGoFaulted (smEmptyView { s with sm.table := t, sm.mount := none, sm.eraser := none, sm.snapshot := none })

/-- A Format ends in the state Unformatted (R91). -/
def smFormatFails (s : State) : State :=
  smEmptyView { s with
    sm.table := .unformatted, sm.format := none, sm.eraser := none, sm.snapshot := none, sm.snapshotDue := false }

/-- What ends with the requester itself: the snapshot (R104); the erase, and an allocation that waited for it (R94,
R95). -/
def smRequesterFailed (r : Requester) (s : State) : State :=
  match r with
  | .tableWriter => { s with sm.snapshot := none }
  | .eraser => { s with sm.eraser := none, sm.change := none }
  | _ => s

/-- A mount or a Format that is under way ends by a FlashFailed (R93, R105, R106). -/
def smWorkFails (s : State) : State :=
  if s.sm.format.isSome then smFormatFails s
  else match s.sm.mount with
    | none => s
    | some .finishing => s
    | some _ => smMountFails .failed s

/-- What FlashFailed does to SM when it comes to one of SM's requesters (R93, R95, R104, R105, R106). -/
def smFlashFailed (r : Requester) (s : State) : State := smWorkFails (smRequesterFailed r s)

/-- SM writes no further snapshot until the next mount, since the flash takes no further writes (R104). -/
def smEndSnapshots (s : State) : State := { s with sm.snapshotsEnded := true }

/-- FlashFailed is returned to a requester (R72, R74, R104, R117). -/
def flashFailed (r : Requester) (s : State) : State :=
  let s := smEndSnapshots s
  match r with
  | .writer => cwEnterFaulted s
  | .fetcher => cwEnterFaulted s
  | .tableWriter => cwEnterFaulted (smFlashFailed r s)
  | .eraser => cwEnterFaulted (smFlashFailed r s)
  | .mountReader => cwEnterFaulted (smFlashFailed r s)

/-- A requester asks FE for an operation; a refusal at arrival is a FlashFailed (R72, R74). -/
def flashAsk (r : Requester) (op : FlashOp) (s : State) : State :=
  let a := feArrive r op s
  if a.1 then flashFailed r a.2 else a.2

/-- The requests waiting at the entry to Failed are each answered FlashFailed (R74); in a reset transition no block acts
on the answer (R85, R184). -/
def feFailWaiting (s : State) : State :=
  let all := s.fe.waiting ++ s.fe.heldBack
  let s := { s with fe.waiting := [], fe.heldBack := [] }
  if s.resetting then s else all.foldl (fun s w => flashFailed w.requester s) s

end Sys2Proof.Machine
end

