-- ==== Sys2Proof/Machine/SegTable.lean ====
section
/-! DEFINITION. The segment table without flash work (Section 5): order by sequence (R88), protection by impact and by
the host (R100 to R102), the snapshot image and its checks (R103, R105, Section 11.7), the partition of Format (R92). -/

namespace Sys2Proof.Machine

/-! ### Entries -/

/-- The fields of a segment in Free, Erasing and Retired (R86): all 0, no protection; the block list stays. -/
def blankSegment (st : SegState) (blocks : List Nat) : Segment where
  state := st
  sequence := 0
  clip := 0
  part := 0
  startTime := 0
  endTime := 0
  firstFrame := 0
  frameCount := 0
  bytesWritten := 0
  blocks := blocks
  protection := none
  recovered := false
  damaged := false
  weak := false

/-- A segment blanked into a state, keeping its block list and its flags, which an opening clears (R86). -/
def blankInto (st : SegState) (e : Segment) : Segment :=
  { blankSegment st e.blocks with recovered := e.recovered, damaged := e.damaged, weak := e.weak }

/-- A segment's capacity in pages (R86). -/
def capacityPages (e : Segment) : Nat := 256 * e.blocks.length

/-- The flash block and page of a segment's page `p` (R86). -/
def pageAddress (e : Segment) (p : Nat) : Nat × Nat := (e.blocks.getD (p / 256) 0, p % 256)

/-- How far a sequence lies behind the sequence counter (R88): the oldest segment lies farthest. -/
def sequenceAge (m : Sm) (e : Segment) : Nat := (m.sequence - e.sequence).toNat

/-- Of the segments that satisfy a test, the one lying farthest behind the counter: the lowest sequence (R88). -/
def oldestWhere (m : Sm) (test : Segment → Bool) : Option Nat :=
  (sortBy (fun i => 2 ^ 32 - sequenceAge m (m.segments.getD i (blankSegment .free [])))
    (indicesWhere test m.segments))[0]?

/-- Of the segments that satisfy a test, the one of highest sequence (R88). -/
def newestWhere (m : Sm) (test : Segment → Bool) : Option Nat :=
  (sortBy (fun i => sequenceAge m (m.segments.getD i (blankSegment .free []))) (indicesWhere test m.segments))[0]?

/-- A Closed segment that carries no protection (R94). -/
def erasable (e : Segment) : Bool := decide (e.state = .closed) && e.protection.isNone

/-- The lowest-index Free segment (R94). -/
def lowestFree (m : Sm) : Option Nat := (indicesWhere (fun e => decide (e.state = .free)) m.segments)[0]?

/-! ### Protection -/

/-- The segment is protected by this cause. -/
def protectedBy (c : ProtCause) (e : Segment) : Bool := decide (e.protection.map (·.cause) = some c)

/-- Set a segment's protection, or remove it. -/
def setProtection (i : Nat) (p : Option Protection) (s : State) : State :=
  smModify i (fun e => { e with protection := p }) s

/-- Release the impact-protected segment of lowest sequence until the count equals the limit; at most `fuel` times
(R101). -/
def releaseOver : Nat → State → State
  | 0, s => s
  | fuel + 1, s =>
    if s.sm.impactCount ≤ s.sm.params.limit then s
    else match oldestWhere s.sm (protectedBy .impact) with
      | none => s
      | some i =>
        releaseOver fuel (setProtection i none
          { s with sm.impactCount := s.sm.impactCount - 1, sm.snapshotDue := true })

/-- The limit on impact protection takes hold (R101): there are at most 256 segments to release. -/
def enforceLimit (s : State) : State := releaseOver 256 s

/-- The segment is Open or Closed: only such a segment can carry protection (R86, R100, R102). -/
def holdsData (e : Segment) : Bool := decide (e.state = .opened) || decide (e.state = .closed)

/-- Protect a target by an impact at time `t`, if it carries no protection; in Erasing, Free or Retired it cannot be
(R100). -/
def protectTarget (t : Nat) (i : Nat) (s : State) : State :=
  match s.sm.segment i with
  | none => s
  | some e =>
    if holdsData e ∧ e.protection.isNone then
      setProtection i (some ⟨.impact, t⟩)
        { s with sm.impactCount := s.sm.impactCount + 1, sm.snapshotDue := true }
    else s

/-- `t` minus a time is less than the installed pre-roll; a negative difference is (R100). -/
def withinPreRoll (m : Sm) (t since : Nat) : Bool :=
  decide ((t : Int) - (since : Int) < (1000000 * m.params.preRoll : Nat))

/-- The targets of a mark (R100). Where the writer does not record, no other segment takes the place of a newest Closed
one that has been taken for erasure (log 54). -/
def markTargets (s : State) (t : Nat) : List Nat :=
  let closed := fun e : Segment => decide (e.state = .closed)
  if s.cw.writer = .recording then
    match openIndex s.sm with
    | none => []
    | some i =>
      let since := ((s.sm.segment i).map (·.startTime)).getD 0
      i :: (if withinPreRoll s.sm t since then (newestWhere s.sm closed).toList else [])
  else
    match s.sm.lastClosed with
    | none => []
    | some i =>
      let since := ((s.sm.segment i).map (·.endTime)).getD 0
      if withinPreRoll s.sm t since then [i] else []

/-- SM acts on a mark (R100, R101). -/
def actOnMark (k : ImpactMark) (s : State) : State :=
  enforceLimit ((markTargets s k.time).foldl (fun s i => protectTarget k.time i s) s)

/-- The segments that are not Retired (R102). -/
def usableCount (m : Sm) : Nat := (m.segments.filter fun e => decide (e.state ≠ .retired)).length

/-- The host's Protect (R102). -/
def smProtect (i : Nat) (s : State) : ResultCode × State :=
  match s.sm.segment i with
  | none => (.noSuchSegment, s)
  | some e =>
    if e.state ≠ .opened ∧ e.state ≠ .closed then (.noSuchSegment, s)
    else if protectedBy .host e then (.ok, s)
    else if usableCount s.sm ≤ s.sm.hostCount + 1 + 2 then (.protectLimit, s)
    else
      (.ok, setProtection i (some ⟨.host, s.now⟩)
        { s with
          sm.hostCount := s.sm.hostCount + 1
          sm.impactCount := if protectedBy .impact e then s.sm.impactCount - 1 else s.sm.impactCount
          sm.snapshotDue := true })

/-- The host's Unprotect (R102). -/
def smUnprotect (i : Nat) (s : State) : ResultCode × State :=
  match s.sm.segment i with
  | none => (.noSuchSegment, s)
  | some e =>
    if e.state ≠ .opened ∧ e.state ≠ .closed then (.noSuchSegment, s)
    else if e.protection.isNone then (.ok, s)
    else
      (.ok, setProtection i none
        { s with
          sm.hostCount := if protectedBy .host e then s.sm.hostCount - 1 else s.sm.hostCount
          sm.impactCount := if protectedBy .impact e then s.sm.impactCount - 1 else s.sm.impactCount
          sm.snapshotDue := true })

/-- The counts recounted from the table (R106). -/
def recount (s : State) : State :=
  { s with
    sm.impactCount := (s.sm.segments.filter (protectedBy .impact)).length
    sm.hostCount := (s.sm.segments.filter (protectedBy .host)).length }

/-- Install pending storage values (R108); a lower limit releases protections (R101). -/
def smInstallPending (s : State) : State :=
  match s.sm.pending with
  | none => s
  | some q => enforceLimit { s with sm.params := q, sm.pending := none }

/-- Install pending storage values at the start of a Format (R90, R108): the table is unmounted from that moment, and
the Format sets the counts to 0 (R92). -/
def smInstallForFormat (s : State) : State :=
  match s.sm.pending with
  | none => s
  | some q => { s with sm.params := q, sm.pending := none }

/-- Open the allocated segment (R88). -/
def smOpen (i : Nat) (clip : Word) (part first : Nat) (s : State) : State :=
  let s := smInstallPending s
  smModify i (fun e =>
    { e with
      state := .opened, sequence := s.sm.sequence, clip := clip, part := part, startTime := s.now, endTime := 0,
      firstFrame := first, frameCount := 0, bytesWritten := 0, protection := none,
      recovered := false, damaged := false, weak := false })
    { s with sm.sequence := nextCounter s.sm.sequence, sm.openFill := 0, sm.snapshotDue := true }

/-- A new clip id (R88). -/
def smTakeClip (s : State) : Word × State := (s.sm.clip, { s with sm.clip := nextCounter s.sm.clip, sm.snapshotDue := true })

/-! ### The snapshot image (R103, Section 11.7) -/

/-- The 64-byte header. -/
def imageHeader (s : State) : List Byte :=
  leBytes 4 s.sm.generation.toNat ++ leBytes 2 s.sm.segments.length ++ leBytes 2 s.sm.bps
    ++ leBytes 4 s.sm.clip.toNat ++ leBytes 4 s.sm.sequence.toNat ++ leBytes 2 s.fe.pool.length
    ++ leBytes 2 s.fe.bad.length ++ leBytes 2 s.fe.tableMap.toNat ++ List.replicate 42 0

/-- Block numbers, 2 bytes each. -/
def imageBlocks (l : List Nat) : List Byte := (l.map (leBytes 2)).flatten

/-- An entry of the image: 64 bytes and 2 bytes a block. -/
def imageEntry (i : Nat) (e : Segment) : List Byte :=
  leBytes 2 i ++ leBytes 1 (segByte e) ++ leBytes 1 0 ++ leBytes 2 e.blocks.length ++ leBytes 2 0
    ++ leBytes 4 e.sequence.toNat ++ leBytes 4 e.clip.toNat ++ leBytes 4 e.part ++ leBytes 4 e.bytesWritten
    ++ leBytes 8 e.startTime ++ leBytes 8 e.endTime ++ leBytes 8 ((e.protection.map (·.time)).getD 0)
    ++ leBytes 4 e.firstFrame ++ leBytes 4 e.frameCount ++ leBytes 8 0 ++ imageBlocks e.blocks

/-- The image of the table at this moment. -/
def tableImage (s : State) : List Byte :=
  imageHeader s ++ imageBlocks s.fe.bad ++ imageBlocks s.fe.pool
    ++ (s.sm.segments.zipIdx.map fun x => imageEntry x.2 x.1).flatten

/-- A page's data filled to 8,192 bytes with 0xFF. -/
def fillPage (d : List Byte) : List Byte := d ++ List.replicate (8192 - d.length) 0xFF

/-- The image cut into pages of 8,192 bytes, the last one filled with 0xFF. -/
def imagePages (image : List Byte) : List (List Byte) := (chunksOf 8192 64 image).map fillPage

/-- The 2-byte numbers at an offset of an image. -/
def blocksAt (image : List Byte) (o n : Nat) : List Nat := (List.range n).map fun k => fieldOf image (o + 2 * k) 2

/-- The protection that an entry's state byte and time give; the code 3, which names none, reads as none (log 63). -/
def protOf (code time : Nat) : Option Protection :=
  match code with
  | 1 => some ⟨.impact, time⟩
  | 2 => some ⟨.host, time⟩
  | _ => none

/-- An entry read from an image at an offset: none if its state code names no state (log 63). -/
def entryAt (image : List Byte) (o : Nat) : Option Segment :=
  let b := fieldOf image (o + 2) 1
  (segOfCode (b % 8)).map fun st =>
    { state := st
      sequence := BitVec.ofNat 32 (fieldOf image (o + 8) 4)
      clip := BitVec.ofNat 32 (fieldOf image (o + 12) 4)
      part := fieldOf image (o + 16) 4
      startTime := fieldOf image (o + 24) 8
      endTime := fieldOf image (o + 32) 8
      firstFrame := fieldOf image (o + 48) 4
      frameCount := fieldOf image (o + 52) 4
      bytesWritten := fieldOf image (o + 20) 4
      blocks := blocksAt image (o + 64) (fieldOf image (o + 4) 2)
      protection := protOf (b / 8 % 4) (fieldOf image (o + 40) 8)
      recovered := b.testBit 5
      damaged := b.testBit 6
      weak := b.testBit 7 }

/-- `n` entries read from an offset on. -/
def entriesAt (image : List Byte) : Nat → Nat → Option (List Segment)
  | 0, _ => some []
  | n + 1, o =>
    match entryAt image o with
    | none => none
    | some e => (entriesAt image n (o + 64 + 2 * e.blocks.length)).map fun rest => e :: rest

/-- What a mount takes from a snapshot's image. -/
structure TableLoad where
  generation : Word
  bps : Nat
  clip : Word
  sequence : Word
  bad : List Nat
  pool : List Nat
  map : BitVec 16
  segments : List Segment
  deriving DecidableEq, Repr

/-- An image's content. -/
def imageContent (image : List Byte) : Option TableLoad :=
  let pool := fieldOf image 16 2
  let bad := fieldOf image 18 2
  (entriesAt image (fieldOf image 4 2) (64 + 2 * bad + 2 * pool)).map fun es =>
    { generation := BitVec.ofNat 32 (fieldOf image 0 4)
      bps := fieldOf image 6 2
      clip := BitVec.ofNat 32 (fieldOf image 8 4)
      sequence := BitVec.ofNat 32 (fieldOf image 12 4)
      bad := blocksAt image 64 bad
      pool := blocksAt image (64 + 2 * bad) pool
      map := BitVec.ofNat 16 (fieldOf image 20 2)
      segments := es }

/-- A list of block numbers is ascending without repetition. -/
def ascending : List Nat → Bool
  | [] => true
  | [_] => true
  | a :: b :: rest => decide (a < b) && ascending (b :: rest)

/-- Every segment-space block appears exactly once (R87, R105). -/
def blocksPartition (t : TableLoad) : Bool :=
  decide (sortBy id (t.bad ++ t.pool ++ (t.segments.map (·.blocks)).flatten) = List.range' 16 16368)

/-- The checks of an image (R105). -/
def imageValid (t : TableLoad) : Bool :=
  decide (t.segments.length ≤ 256) && decide (16 ≤ t.bps) && decide (t.bps ≤ 256)
    && ascending t.bad && ascending t.pool && decide (t.bad.length ≤ 512) && blocksPartition t
    && (t.segments.all fun e => decide (e.blocks.length ≤ t.bps))
    && decide ((t.segments.filter fun e => decide (e.state = .opened)).length ≤ 1)

/-- The pages of one generation, one for each index from 0; of two with the same index the one read first (log 50). -/
def snapshotPages (pages : List SnapPage) (g : Word) (count : Nat) : Option (List SnapPage) :=
  (List.range count).mapM fun k => pages.find? fun p => decide (p.generation = g) && decide (p.index = k)

/-- The content of a generation's snapshot, if it is complete (R105). -/
def completeSnapshot (pages : List SnapPage) (g : Word) : Option TableLoad :=
  match pages.find? fun p => decide (p.generation = g) with
  | none => none
  | some p =>
    match snapshotPages pages g p.count with
    | none => none
    | some ps =>
      if ps ≠ [] ∧ (ps.all fun q => !q.uncorrectable) = true ∧ (ps.getLast?.map (·.completion)) = some true then
        match imageContent ((ps.map (·.data)).flatten) with
        | none => none
        | some t => if imageValid t then some t else none
      else none

/-- The higher of two generations by their 32-bit difference (R103). -/
def laterGeneration (a b : Word) : Word := if 0 < seqDiff b a then b else a

/-- The highest generation in any snapshot page record read (R105). -/
def highestGeneration : List SnapPage → Option Word
  | [] => none
  | p :: rest =>
    some (match highestGeneration rest with
      | none => p.generation
      | some g => laterGeneration p.generation g)

/-- The complete snapshot of highest generation, with the block that holds it (R105). -/
def newestSnapshot (pages : List SnapPage) : Option (TableLoad × Nat) :=
  pages.foldl (fun best p =>
    match completeSnapshot pages p.generation with
    | none => best
    | some t =>
      match best with
      | none => some (t, p.block)
      | some (u, b) => if 0 < seqDiff t.generation u.generation then some (t, p.block) else some (u, b)) none

/-! ### Format (R92) -/

/-- The good blocks of the segment space, ascending (R92). -/
def goodBlocks (bad : List Nat) : List Nat := (List.range' 16 16368).filter fun b => !bad.contains b

/-- The blocks below the 320 set aside (R92, step 1). -/
def groupable (good : List Nat) : List Nat := good.take (good.length - 320)

/-- The segments' block lists: whole groups of bps, at most 256 (R92, step 2). -/
def formatGroups (bps : Nat) (good : List Nat) : List (List Nat) :=
  ((chunksOf bps 256 (groupable good)).filter fun g => decide (g.length = bps))

/-- The blocks in no segment join the pool (R92, step 3). -/
def formatPool (bps : Nat) (good : List Nat) : List Nat := good.drop (bps * (formatGroups bps good).length)

end Sys2Proof.Machine
end

