-- ==== Sys2Proof/Machine/Segments.lean ====
section
/-! DEFINITION. The Segment Manager's flash work outside mount and Format: the table writer's snapshots (R103, R104),
the eraser (R95, R97), erase-ahead (R96), allocation (R94), mark intake (R99), and the Clip Writer's page reports,
replacements and flags (R86, R88, R98). -/

namespace Sys2Proof.Machine

/-! ### Snapshots -/

/-- The next Good table block after `b` in ascending order, wrapping from 15 to 0; `b` itself is none (R104). -/
def nextTableBlock (m : BitVec 16) (b : Nat) : Option Nat :=
  ((List.range' (b + 1) (15 - b)) ++ List.range b).find? fun k => m.getLsbD k

/-- Snapshots may be written now: the table is Mounted, or a Format has ended its segment erases, or a mount finishes a
due snapshot or writes the one that ends its recovery (R103, R105, R106); none after a FlashFailed (R104), and none in
a reset transition (R184). -/
def snapshotsOpen (s : State) : Bool :=
  !s.resetting && !s.sm.snapshotsEnded &&
    (match s.sm.mount, s.sm.format with
     | some .finishing, _ => decide (s.sm.table = .mounted)
     | some .finalSnapshot, _ => true
     | some _, _ => false
     | none, some .firstSnapshot => true
     | none, some _ => false
     | none, none => decide (s.sm.table = .mounted))

/-- The table writer asks for the program of the snapshot page at hand, at the write position (R104). -/
def smAskPage (s : State) : State :=
  match s.sm.snapshot with
  | none => s
  | some w =>
    flashAsk .tableWriter
      (.programPage s.sm.writeBlock s.sm.writePage (w.pages.getD w.index [])
        (snapshotRecord s.sm.generation w.index w.pages.length)) s

/-- The table writer asks for the erase of the block it has moved into (R104). -/
def smAskTableErase (s : State) : State := flashAsk .tableWriter (.eraseBlock s.sm.writeBlock) s

/-- Snapshot writing becomes Abandoned and the Clip Writer stops with the cause FlashFault (R104, R123). -/
def smAbandon (s : State) : State :=
  cwStopEvent .flashFault { s with sm.abandoned := true, sm.snapshot := none, sm.snapshotDue := true }

/-- Move to the next Good table block, erase it and write the whole snapshot from its page 0; with no such block,
snapshot writing is Abandoned (R104). -/
def smMoveBlock (pages : List (List Byte)) (s : State) : State :=
  match nextTableBlock s.fe.tableMap s.sm.writeBlock with
  | none => smAbandon s
  | some b =>
    smAskTableErase { s with sm.writeBlock := b, sm.writePage := 0, sm.snapshot := some ⟨pages, 0, true⟩ }

/-- The Open entry takes the bytes of its programmed pages and its frame count so far, which the image and the view
then carry as of this snapshot (R86, R103, R107, log 43). -/
def smRecordFill (s : State) : State :=
  match openIndex s.sm with
  | none => s
  | some i => smModify i (fun e => { e with bytesWritten := 8192 * s.sm.openFill, frameCount := liveFrameCount s }) s

/-- A new generation, its image at this moment, and its pages (R103). -/
def smNewSnapshot (s : State) : List (List Byte) × State :=
  let s := smRecordFill { s with sm.generation := s.sm.generation + 1, sm.snapshotDue := false }
  (imagePages (tableImage s), s)

/-- No Good table block other than the current one remains, once the writer is in the one that is left (R104, log 22). -/
def lastTableBlock (s : State) : Bool := decide (goodCount s.fe.tableMap < 2)

/-- Begin a snapshot at the write position, or in the next block where it does not fit (R103, R104). -/
def smBegin (s : State) : State :=
  let n := smNewSnapshot s
  if lastTableBlock s then smAbandon s
  else if tableGood s s.sm.writeBlock ∧ s.sm.writePage + n.1.length ≤ 256 then
    smAskPage { n.2 with sm.snapshot := some ⟨n.1, 0, false⟩ }
  else smMoveBlock n.1 n.2

/-- Begin the snapshot again in the next Good block, after its erase (R104). -/
def smRestart (s : State) : State :=
  let n := smNewSnapshot s
  if lastTableBlock s then smAbandon s else smMoveBlock n.1 n.2

/-- Write one snapshot if one is due and none is being written; while Abandoned, rewrite the view instead (R103,
R104). -/
def smFlush (s : State) : State :=
  if s.resetting then s
  else smRewriteAbandoned
    (if snapshotsOpen s ∧ s.sm.snapshotDue ∧ s.sm.snapshot = none ∧ !s.sm.abandoned then smBegin s else s)

/-- A change of the table, the flags or the header's counters marks a snapshot due (R103). -/
def smDue (s : State) : State := { s with sm.snapshotDue := true }

/-- A snapshot is complete: the view is rewritten, and a further snapshot follows if one is due (R103, R107). In a
recovery and in a Format the view follows at the end. -/
def smSnapshotComplete (s : State) : State :=
  let s := { s with sm.snapshot := none, sm.completeGeneration := s.sm.generation }
  if s.sm.table = .mounted then smWriteView s else s

/-- A snapshot page is Done (R103, R104). -/
def smPageDone (w : SnapWrite) (s : State) : State :=
  let s := { s with sm.writePage := s.sm.writePage + 1 }
  if w.index + 1 < w.pages.length then smAskPage { s with sm.snapshot := some { w with index := w.index + 1 } }
  else smFlush (smSnapshotComplete s)

/-- The table writer's result while a snapshot is written (R104). -/
def smSnapshotResult (w : SnapWrite) (r : FlashResult) (s : State) : State :=
  if w.erasing then
    match r with
    | .erased true => smAskPage { s with sm.snapshot := some { w with erasing := false } }
    | .erased false => smFlush (smRestart (feMarkBad s.sm.writeBlock s))
    | _ => smAskTableErase s
  else
    match r with
    | .programmed true => smPageDone w s
    | .programmed false => smFlush (smRestart (feMarkBad s.sm.writeBlock s))
    | _ => smFlush (smBegin { s with sm.writePage := s.sm.writePage + 1 })

/-! ### Eraser -/

/-- Return blocks to the spare pool (R79). -/
def feReturnAll (bs : List Nat) (s : State) : State := bs.foldl (fun s b => feReturn b s) s

/-- Segment `i` becomes Retired: its blocks go to the pool, but for those kept (R97). A block whose retirement R98 was
refused before goes to the pool with the rest (log 57). -/
def smRetireSegment (i : Nat) (kept : List Nat) (s : State) : State :=
  let blocks := ((s.sm.segment i).map (·.blocks)).getD []
  smDue (smModify i (fun e => { blankInto .retired e with blocks := kept })
    (feReturnAll (blocks.filter fun b => !kept.contains b) { s with sm.eraser := none }))

/-- A segment's list holds fewer than bps/2 blocks (R97). -/
def tooShort (s : State) (i : Nat) : Bool :=
  decide (2 * (((s.sm.segment i).map (·.blocks.length)).getD 0) < s.sm.bps)

/-- The eraser asks for the erase of the block at its position, or, past the list's end, the segment is Free, or Retired
where its list is too short (R95, R97, log 55), and a snapshot is due, which the caller writes at the end of the step
(log 42). A mount lets the operation in flight end and asks for no further block (R105). -/
def smEraseNext (s : State) : State :=
  match s.sm.eraser with
  | none => s
  | some j =>
    match s.sm.segment j.segment with
    | none => { s with sm.eraser := none }
    | some e =>
      match e.blocks[j.position]? with
      | some b =>
        if s.sm.mount = some .finishing then { s with sm.eraser := none } else flashAsk .eraser (.eraseBlock b) s
      | none =>
        if tooShort s j.segment then smRetireSegment j.segment [] s
        else smDue (smModify j.segment (blankInto .free) { s with sm.eraser := none })

/-- The Closed segment of highest sequence, once segment `i` has been taken for erasure: no other takes its place
(R100). -/
def lastClosedBut (m : Sm) (i : Nat) : Option Nat := if m.lastClosed = some i then none else m.lastClosed

/-- Erase segment `i` (R95). -/
def smStartErase (i : Nat) (s : State) : State :=
  smFlush (smEraseNext (smFlush (smDue (smModify i (blankInto .erasing)
    { s with sm.eraser := some ⟨i, 0⟩, sm.lastClosed := lastClosedBut s.sm i }))))

/-- Put a block at a place of a segment's list (R97, R98). -/
def smPutBlock (i k b : Nat) (s : State) : State :=
  smDue (smModify i (fun e => { e with blocks := e.blocks.set k b }) s)

/-- Take the block at a place out of a segment's list (R97, R98). -/
def smDropBlock (i k : Nat) (s : State) : State :=
  smDue (smModify i (fun e => { e with blocks := removeAt k e.blocks }) s)

/-- The eraser's list has changed: its segment is Retired where the list is too short, and otherwise the erase goes on
(R97, log 55). -/
def smListChanged (j : EraseJob) (s : State) : State :=
  if tooShort s j.segment then smRetireSegment j.segment [] s else smEraseNext (smFlush s)

/-- An EraseFailed of block `b` at the eraser's place (R97). -/
def smEraseFailed (j : EraseJob) (b : Nat) (s : State) : State :=
  let a := feRetire b s
  if a.1 then
    match feTake a.2 with
    | (some r, s) => smListChanged j (smPutBlock j.segment j.position r s)
    | (none, s) => smListChanged j (smDropBlock j.segment j.position s)
  else smRetireSegment j.segment [b] a.2

/-- The block at a place of a segment's list. -/
def listedBlock (s : State) (i k : Nat) : Option Nat := ((s.sm.segment i).map (·.blocks)).bind fun l => l[k]?

/-- The eraser's result for the block it had asked for, which is the one at its place (R95, R97). -/
def smEraserResult (r : FlashResult) (s : State) : State :=
  match s.sm.eraser with
  | none => s
  | some j =>
    match r with
    | .erased true => smEraseNext { s with sm.eraser := some { j with position := j.position + 1 } }
    | .erased false =>
      match listedBlock s j.segment j.position with
      | none => smEraseNext s
      | some b => smEraseFailed j b s
    | _ => smEraseNext s

/-! ### Erase-ahead and allocation -/

/-- The table serves requests: Mounted, and no mount or Format going on. -/
def tableServes (m : Sm) : Bool := decide (m.table = .mounted) && m.mount.isNone && m.format.isNone

/-- The open segment is at least half full (R96). -/
def halfFull (m : Sm) : Bool :=
  match openSegment m with
  | none => false
  | some e => decide (capacityPages e ≤ 2 * m.openFill)

/-- Erase-ahead (R96). -/
def smEraseAhead (s : State) : State :=
  if tableServes s.sm ∧ halfFull s.sm ∧ lowestFree s.sm = none ∧ s.sm.eraser = none ∧ !s.resetting then
    match oldestWhere s.sm erasable with
    | none => s
    | some i => smStartErase i s
  else s

/-- The snapshot and the erase-ahead check that follow a change of the table (R96, R103). -/
def smSettle (s : State) : State := smEraseAhead (smFlush s)

/-- The answers of an allocation (R94). -/
inductive AllocAnswer where
  | segment (i : Nat)
  | noSpace
  deriving DecidableEq, Repr

/-- Allocate a segment, or wait for an erase: the answer, if there is one now (R94). -/
def smAllocate (s : State) : Option AllocAnswer × State :=
  match lowestFree s.sm with
  | some i => (some (.segment i), s)
  | none =>
    if s.sm.eraser.isSome then (none, s)
    else
      match oldestWhere s.sm erasable with
      | some i => (none, smStartErase i s)
      | none => (some .noSpace, s)

/-! ### Intake -/

/-- Intake is open (R99). -/
def intakeOpen (s : State) : Bool := tableServes s.sm && s.sm.change.isNone && !s.resetting

/-- Take the marks that wait, the oldest first, and act on each while intake is open (R35, R99). -/
def smIntakeAll : List ImpactMark → State → State
  | [], s => s
  | k :: rest, s =>
    if intakeOpen s then smIntakeAll rest (smSettle (actOnMark k { s with mu.marks := rest })) else s

/-- SM's intake (R99). -/
def smIntake (s : State) : State := smIntakeAll s.mu.marks s

/-! ### The Clip Writer's requests -/

/-- A programmed page is reported: the open fill, and the check of erase-ahead (R88, R96). -/
def smPageReport (s : State) : State := smEraseAhead { s with sm.openFill := s.sm.openFill + 1 }

/-- The Clip Writer asks to replace block `b`, at position `k` of the Open segment `i` (R98): the replacement, if any. -/
def smReplaceBlock (i k b : Nat) (s : State) : Option Nat × State :=
  let a := feRetire b s
  if a.1 then
    match feTake a.2 with
    | (some r, s) => (some r, smFlush (smPutBlock i k r s))
    | (none, s) => (none, smFlush (smDropBlock i k s))
  else (none, a.2)

/-- The Clip Writer asks to replace the block at position `k` of the Open segment (R98): the replacement, if any. -/
def smReplace (k : Nat) (s : State) : Option Nat × State :=
  match openIndex s.sm with
  | none => (none, s)
  | some i =>
    match listedBlock s i k with
    | none => (none, s)
    | some b => smReplaceBlock i k b s

/-- Set the Damaged flag of a segment; a flag already set changes nothing (R86, R103). -/
def smSetDamaged (i : Nat) (s : State) : State :=
  match s.sm.segment i with
  | none => s
  | some e => if e.damaged then s else smFlush (smDue (smModify i (fun e => { e with damaged := true }) s))

/-- Set the Weak flag of a segment; a flag already set changes nothing (R86, R103). -/
def smSetWeak (i : Nat) (s : State) : State :=
  match s.sm.segment i with
  | none => s
  | some e => if e.weak then s else smFlush (smDue (smModify i (fun e => { e with weak := true }) s))

end Sys2Proof.Machine
end

