-- ==== Sys2Proof/Machine/Mount.lean ====
section
/-! DEFINITION. The Segment Manager's mount and recovery (R105, R106) and Format (R90 to R93), and how they end for the
Clip Writer (R116, R122, Table 6-5). -/

namespace Sys2Proof.Machine

/-! ### Mount -/

/-- SM has no request waiting or in flight (R105). -/
def smQuiet (s : State) : Bool :=
  !outstanding s.fe .tableWriter && !outstanding s.fe .eraser && !outstanding s.fe .mountReader

/-- A due snapshot that can still be written (R103, R104). -/
def snapshotWanted (s : State) : Bool :=
  s.sm.snapshot.isSome || (snapshotsOpen s && s.sm.snapshotDue && !s.sm.abandoned)

/-- SM drops its table and asks for a Read ID (R105). -/
def smMountBegin (s : State) : State :=
  flashAsk .mountReader .readId
    { s with
      sm := { Sm.reset with
        table := .mounting, params := s.sm.params, pending := s.sm.pending, view := s.sm.view,
        mount := some .readId } }

/-- A mount that finds no complete snapshot: Unformatted, the block records empty, the writer Stopped with the cause
Unformatted (R80, R105, Table 6-5). -/
def smMountUnformatted (pages : List SnapPage) (s : State) : State :=
  cwEnterStopped .unformatted (smEmptyView (feClearRecords
    { s with
      sm.table := .unformatted, sm.mount := none,
      sm.generation := (highestGeneration pages).getD s.sm.generation }))

/-- The frame count that a last tracked frame gives (R106, R126). -/
def framesUpTo (first : Nat) (last : Option Nat) : Nat :=
  match last with
  | none => 0
  | some n => (n + 1 + 2 ^ 32 - first) % 2 ^ 32

/-- The end of the recovery, with nothing left to erase: counts, limit, and the snapshot that ends it (R106, step 3). -/
def smRecoveryEnd (s : State) : State :=
  smFlush (smDue (enforceLimit (recount
    { s with
      sm.mount := some .finalSnapshot
      sm.eraser := none
      sm.lastClosed := newestWhere s.sm fun e => decide (e.state = .closed) })))

/-- The Open entry as the scan leaves it (R106, step 2). -/
def recoveredSegment (last : Option ProgressMark) (damaged : Bool) (e : Segment) : Segment :=
  let e := { e with state := .closed, recovered := true, damaged := e.damaged || damaged }
  match last with
  | none => { e with endTime := e.startTime }
  | some m =>
    { e with
      endTime := m.time, bytesWritten := m.streamBytes, frameCount := framesUpTo e.firstFrame m.lastTracked }

/-- The scan of the Open entry ends (R106, step 2). -/
def smScanEnd (i : Nat) (last : Option ProgressMark) (damaged : Bool) (s : State) : State :=
  smRecoveryEnd (smModify i (recoveredSegment last damaged) s)

/-- Page 0 read as erased: the segment holds no data and becomes Free (R106, step 2). -/
def smScanEmpty (i : Nat) (s : State) : State := smRecoveryEnd (smModify i (blankInto .free) s)

/-- Read page `p` of the Open entry, or end the scan after its last page (R106, step 2). -/
def smScanRead (i p : Nat) (last : Option ProgressMark) (damaged : Bool) (s : State) : State :=
  let e := s.sm.segments.getD i (blankSegment .free [])
  if p < capacityPages e then
    let a := pageAddress e p
    flashAsk .mountReader (.readPage a.1 a.2) { s with sm.mount := some (.scan i p last damaged) }
  else smScanEnd i last damaged s

/-- Step 2 of the recovery begins: at the last recorded page (R106). -/
def smScanBegin (s : State) : State :=
  match openIndex s.sm with
  | none => smRecoveryEnd s
  | some i =>
    let bytes := ((s.sm.segment i).map (·.bytesWritten)).getD 0
    smScanRead i (bytes / 8192 - 1) none false s

/-- Step 1 of the recovery goes on with the first Erasing entry of the list (R106). -/
def smReErase (left : List Nat) (s : State) : State :=
  match left with
  | [] => smScanBegin s
  | i :: _ => smStartErase i { s with sm.mount := some (.reErase left) }

/-- An entry as it is loaded: in Free, Erasing and Retired it has no protection (R86), whatever the image says (log 63). -/
def loadedSegment (e : Segment) : Segment := if holdsData e then e else { e with protection := none }

/-- The chosen snapshot is loaded: the table and counters, FE's records, the generation and the write position, with no
erase going on (R80, R105, R106). -/
def smLoad (t : TableLoad) (block : Nat) (pages : List SnapPage) (ends : List (Nat × Nat)) (s : State) : State :=
  feLoadRecords t.bad t.pool t.map
    { s with
      sm.bps := t.bps, sm.segments := t.segments.map loadedSegment, sm.eraser := none, sm.sequence := t.sequence, sm.clip := t.clip,
      sm.generation := (highestGeneration pages).getD t.generation,
      sm.completeGeneration := t.generation, sm.writeBlock := block,
      sm.writePage := ((ends.find? fun e => decide (e.1 = block)).map (·.2)).getD 256 }

/-- The table area has been read (R105). -/
def smTableRead (pages : List SnapPage) (ends : List (Nat × Nat)) (s : State) : State :=
  match newestSnapshot pages with
  | none => smMountUnformatted pages s
  | some (t, block) =>
    let s := smLoad t block pages ends s
    smReErase (indicesWhere (fun e => decide (e.state = .erasing)) s.sm.segments) s

/-- Ask for the page of the table area at hand, or end its reading after block 15 (R105). -/
def smAskTablePage (b p : Nat) (pages : List SnapPage) (ends : List (Nat × Nat)) (s : State) : State :=
  if b < 16 then
    flashAsk .mountReader (.readPage b p) { s with sm.mount := some (.tableArea b p pages ends) }
  else smTableRead pages ends s

/-- The snapshot page that a read page is, if its record says so and can be trusted (R105, R187). -/
def snapPageOf (b p : Nat) (r : PageResult) : List SnapPage :=
  if recordTrusted r ∧ recordType r.record = 2 then
    [{ block := b, page := p, generation := BitVec.ofNat 32 (fieldOf r.record 8 4), index := fieldOf r.record 2 2,
       count := fieldOf r.record 4 2, completion := decide (fieldOf r.record 1 1 = 1),
       uncorrectable := decide (r.bad ≠ []), data := r.data }]
  else []

/-- A page of the table area was read (R105). -/
def smTablePage (b p : Nat) (pages : List SnapPage) (ends : List (Nat × Nat)) (r : PageResult) (s : State) : State :=
  if r.erased then smAskTablePage (b + 1) 0 pages (ends ++ [(b, p)]) s
  else
    let pages := pages ++ snapPageOf b p r
    if p < 255 then smAskTablePage b (p + 1) pages ends s else smAskTablePage (b + 1) 0 pages ends s

/-- A trusted record belongs to the Open entry: a progress mark that names this segment and its clip (R106, R187). -/
def namesSegment (s : State) (i : Nat) (record : List Byte) : Bool :=
  let m := markOf record
  decide (recordType record = 1) && decide (m.segment = i) && decide (some m.clip = (s.sm.segment i).map (·.clip))

/-- A page of the Open entry was read (R106, step 2). -/
def smScanPage (i p : Nat) (last : Option ProgressMark) (damaged : Bool) (r : PageResult) (s : State) : State :=
  if r.erased then (if p = 0 then smScanEmpty i s else smScanEnd i last damaged s)
  else if recordTrusted r then
    if namesSegment s i r.record then
      smScanRead i (p + 1) (some (markOf r.record)) (damaged || decide (r.bad ≠ [])) s
    else smScanEnd i last damaged s
  else smScanRead i (p + 1) last true s

/-- The mount reader's result during a mount; a Timeout leads to the same operation again (R105, R106, log 21). -/
def smMountResult (op : FlashOp) (r : FlashResult) (s : State) : State :=
  match s.sm.mount, r with
  | some .readId, .identity true => smAskTablePage 0 0 [] [] s
  | some .readId, .identity false => smMountFails .absent s
  | some (.tableArea b p pages ends), .page x => smTablePage b p pages ends x s
  | some (.scan i p last damaged), .page x => smScanPage i p last damaged x s
  | some _, .timeout => flashAsk .mountReader op s
  | _, _ => s

/-! ### Format -/

/-- SM has ended a Format OK: Mounted, the view, and the answer with N (R93, R122). -/
def smFormatOk (s : State) : State :=
  let s := smWriteView { s with sm.table := .mounted, sm.format := none }
  let s := cwFinish (fun e => ⟨.ok, e.request.segment, e.request.byteOffset, s.sm.segments.length⟩) s
  cwEnterStopped .hostStop { s with cw.job := .idle }

/-- A Format ends with FlashWorn (R91, R92, R93, R122). -/
def smFormatWorn (s : State) : State :=
  let s := cwFinish (fun e => failure e.request .flashWorn) (smFormatFails s)
  cwEnterStopped .unformatted { s with cw.job := .idle }

/-- The first snapshot, from page 0 of the lowest Good table block (R93). -/
def smFirstSnapshot (s : State) : State :=
  smFlush (smDue
    { s with
      sm.format := some .firstSnapshot, sm.writePage := 0,
      sm.writeBlock := ((List.range 16).find? fun i => s.fe.tableMap.getLsbD i).getD 0 })

/-- The segment erases, in ascending index (R93). -/
def smFormatErase (i : Nat) (s : State) : State :=
  if i < s.sm.segments.length then smStartErase i { s with sm.format := some (.eraseSegments i) }
  else smFirstSnapshot s

/-- The table-area erases, in ascending order (R93). -/
def smFormatTable (blocks : List Nat) (s : State) : State :=
  match blocks with
  | [] => smFormatErase 0 s
  | b :: _ => flashAsk .tableWriter (.eraseBlock b) { s with sm.format := some (.eraseTable blocks) }

/-- The partition (R92). -/
def smPartition (s : State) : State :=
  let good := goodBlocks s.fe.bad
  let groups := formatGroups s.sm.params.bps good
  if groups.length < 2 then smFormatWorn s
  else
    smFormatTable ((List.range 16).filter fun i => s.fe.tableMap.getLsbD i)
      { s with
        sm.bps := s.sm.params.bps, sm.segments := groups.map (blankSegment .erasing), sm.sequence := 1, sm.clip := 1,
        sm.impactCount := 0, sm.hostCount := 0, sm.generation := 0, fe.pool := formatPool s.sm.params.bps good }

/-- The survey goes on with block `b`, or ends after the last (R91). -/
def smSurvey (b : Nat) (s : State) : State :=
  if b < 16384 then flashAsk .mountReader (.readMarker b) { s with sm.format := some (.survey b) }
  else if goodCount s.fe.tableMap < 2 then smFormatWorn s
  else smPartition s

/-- A marker was read (R91). -/
def smMarker (b : Nat) (v : Byte) (s : State) : State :=
  if v = 0xFF then smSurvey (b + 1) s
  else
    let a := feRetire b s
    if a.1 then smSurvey (b + 1) a.2 else smFormatWorn a.2

/-- The mount reader's result during a Format; a Timeout leads to the same read again (R91). -/
def smSurveyResult (op : FlashOp) (r : FlashResult) (s : State) : State :=
  match s.sm.format, r with
  | some (.survey b), .marker v => smMarker b v s
  | some _, .timeout => flashAsk .mountReader op s
  | _, _ => s

/-- The table writer's result during the table-area erases (R93, R95). -/
def smFormatTableResult (r : FlashResult) (s : State) : State :=
  match s.sm.format with
  | some (.eraseTable (b :: rest)) =>
    match r with
    | .erased true => smFormatTable rest s
    | .erased false =>
      let s := feMarkBad b s
      if goodCount s.fe.tableMap < 2 then smFormatWorn s else smFormatTable rest s
    | _ => smFormatTable (b :: rest) s
  | _ => s

/-- A Format is refused: some segment of a mounted table carries protection (R90). -/
def formatProtected (m : Sm) : Bool := decide (m.table = .mounted) && m.segments.any fun e => e.protection.isSome

/-- SM enters Formatting and begins the survey (R90, R91). -/
def smFormatBegin (s : State) : State :=
  smSurvey 0 (feClearRecords (smInstallForFormat
    { s with
      sm.table := .formatting, sm.segments := [], sm.eraser := none, sm.lastClosed := none, sm.snapshotDue := false,
      sm.abandoned := false, sm.snapshot := none }))

/-! ### Going on -/

/-- A segment's erase has ended during a mount or a Format: the next step (R93, R106). -/
def smEraseEnded (s : State) : State :=
  match s.sm.mount, s.sm.format with
  | some (.reErase (_ :: rest)), _ => smReErase rest s
  | none, some (.eraseSegments i) => smFormatErase (i + 1) s
  | _, _ => s

/-- A mount is complete: Mounted, the view, the writer Stopped with the cause HostStop (R106, R107, Table 6-5). -/
def smMountOk (s : State) : State :=
  cwEnterStopped .hostStop (smWriteView { s with sm.table := .mounted, sm.mount := none })

/-- A mount or a Format that waits for its snapshot, or for SM's operation in flight, goes on (R93, R105, R106,
log 22): a snapshot that is due is written first, and the mount begins once the profile read of the Run has handed its
values (R181, log 25). A mount whose last snapshot is Abandoned is complete all the same (log 58). -/
def smGoOn (s : State) : State :=
  if s.resetting then s
  else match s.sm.mount, s.sm.format with
    | some .finishing, _ =>
      let s := smFlush s
      if smQuiet s && !snapshotWanted s && s.hp.reading.isNone then smMountBegin s else s
    | some .finalSnapshot, _ => if snapshotWanted s then s else smMountOk s
    | none, some .firstSnapshot =>
      if snapshotWanted s then s else if s.sm.abandoned then smFormatWorn s else smFormatOk s
    | _, _ => s

end Sys2Proof.Machine
end

