-- ==== Sys2Proof/Machine/Writer.lean ====
section
/-! DEFINITION. The Clip Writer (Section 6): stream items (R124 to R126, R187), the page assembly (R125, R127),
switches and Closing (R119, R123, R124), taking and judging requests (R111 to R114, R118 to R122), relocation (R128 to
R130), and the stop events (R123, R131). -/

namespace Sys2Proof.Machine

/-! ### Stream items (R187, Table 11-10) -/

/-- The length of a chunk item. -/
def chunkItemLength (r : Request) : Nat := 16 + (r.length + 15) / 16 * 16

/-- The length of a track item. -/
def trackItemLength (r : Request) : Nat := 16 + 32 * r.frameCount

/-- The first word of an item: kind and item length (R187). -/
def itemWord (kind len : Nat) : List Byte := leBytes 4 (kind + 256 * len)

/-- The header of a chunk item. -/
def chunkHeader (r : Request) : List Byte :=
  itemWord 1 (chunkItemLength r) ++ leBytes 4 r.sequence.toNat ++ leBytes 4 (r.length + 2 ^ 24 * r.frameCount)
    ++ leBytes 4 r.firstFrame

/-- The header of a track item. -/
def trackHeader (r : Request) : List Byte :=
  itemWord 2 (trackItemLength r) ++ leBytes 4 r.sequence.toNat ++ leBytes 4 r.frameCount ++ leBytes 4 r.firstFrame

/-- A pad item of `n` bytes. -/
def padItem (n : Nat) : List Byte := itemWord 3 n ++ List.replicate (n - 4) 0xFF

/-- The codes of a track entry's status (Table 11-10). -/
def trackCode : TrackStatus → Nat
  | .final => 0 | .provisional => 1 | .missing => 2

/-- A track entry (Table 11-10). -/
def trackEntry (m : Nat) (a : FrameAnswer) : List Byte :=
  leBytes 4 m ++ leBytes 1 (trackCode a.status) ++ leBytes 1 0 ++ leBytes 2 a.flags.toNat
    ++ leInt 2 a.x16 ++ leInt 2 a.y16 ++ leInt 2 a.roll ++ leBytes 2 a.samples
    ++ leBytes 8 a.capture ++ leInt 8 a.reference

/-- `n` bytes of a chunk item from an offset: header, the chunk bytes from the host buffer, zero fill (R125). -/
def chunkSlice (s : State) (r : Request) (offset n : Nat) : List Byte :=
  let head := ((chunkHeader r).drop offset).take n
  let from_ := offset - 16
  let body := n - head.length
  let data := min body (r.length - from_)
  head ++ readCells s.mem (r.buffer + from_) data ++ List.replicate (body - data) 0

/-- The frames a request covers (R126); a number past 2^32 − 1 goes on from 0 (log 51). -/
def coveredFrames (r : Request) : List Nat :=
  (List.range r.frameCount).map fun k => (r.firstFrame + k) % 2 ^ 32

/-- The track entries of frames, each asked of the Path Unit with the open segment's index: the bytes, and the number
of Missing entries (R126). -/
def trackEntries (segment : Nat) : List Nat → State → List Byte × Nat × State
  | [], s => ([], 0, s)
  | m :: rest, s =>
    let a := puQuery m segment s
    let more := trackEntries segment rest a.2
    (trackEntry m a.1 ++ more.1, (if a.1.status = .missing then 1 else 0) + more.2.1, more.2.2)

/-! ### The page assembly -/

/-- The entry of a taken request. -/
def queueEntry (s : State) (q : Word) : Option QueueEntry := s.cw.queue.find? (entryIs q)

/-- Change the entry of a taken request. -/
def cwModifyEntry (q : Word) (f : QueueEntry → QueueEntry) (s : State) : State :=
  { s with cw.queue := s.cw.queue.map fun e => if entryIs q e then f e else e }

/-- The taken copy of the request in hand. -/
def handRequest (s : State) : Option Request := (s.cw.inHand.bind (queueEntry s)).map (·.request)

/-- Set the commit deadline at the first byte of an empty buffer, installing a pending commit period (R127). -/
def cwSetDeadline (s : State) : State :=
  let ms := s.cw.pendingCommitMs.getD s.cw.commitMs
  { s with cw.commitMs := ms, cw.pendingCommitMs := none, cw.deadline := some (s.now + 1000 * ms) }

/-- Copy bytes into the assembly buffer (R125, R127). -/
def cwAppend (bytes : List Byte) (s : State) : State :=
  if bytes = [] then s
  else
    let s := if s.cw.assembly = [] then cwSetDeadline s else s
    { s with cw.assembly := s.cw.assembly ++ bytes, cw.streamPos := s.cw.streamPos + bytes.length }

/-- The bytes the buffer can still take. -/
def cwRoom (s : State) : Nat := 8192 - s.cw.assembly.length

/-- Append a pad item reaching to the end of the page (R127). -/
def cwPad (s : State) : State := cwAppend (padItem (cwRoom s)) s

/-- The number within the segment of the page in the assembly: the pages before it are programmed. -/
def cwPage (s : State) : Nat := s.sm.openFill

/-- The progress mark of the page in the assembly (R125). -/
def cwMark (s : State) (i : Nat) (e : Segment) : ProgressMark where
  damaged := false
  segment := i
  clip := e.clip
  page := cwPage s
  lastSequence := s.cw.lastSequence
  lastTracked := s.cw.lastTracked
  time := s.now
  streamBytes := 8192 * (cwPage s + 1)

/-- Ask for a Program Page of the page in the assembly with its mark (R125). -/
def cwAskProgram (e : Segment) (m : ProgressMark) (s : State) : State :=
  let a := pageAddress e m.page
  flashAsk .writer (.programPage a.1 a.2 s.cw.assembly (markBytes m)) s

/-- The buffer is full: it becomes Programming (R125). -/
def cwProgram (s : State) : State :=
  match openIndex s.sm with
  | none => s
  | some i =>
    match s.sm.segment i with
    | none => s
    | some e =>
      let m := cwMark s i e
      cwAskProgram e m { s with cw.programming := true, cw.pageMark := some m }

/-- The same Program Page again (R128). -/
def cwReprogram (s : State) : State :=
  match openSegment s.sm, s.cw.pageMark with
  | some e, some m => cwAskProgram e m s
  | _, _ => s

/-! ### Pairs -/

/-- Begin writing the pair of a Media request at the stream position (R124). -/
def cwStartPair (q : Word) (s : State) : State :=
  cwModifyEntry q
    (fun e =>
      { e with segment := (openIndex s.sm).getD 0, chunkAt := s.cw.streamPos, pairEnd := none, missing := 0 })
    { s with cw.job := .chunk q 0 }

/-- The last byte of a chunk item is in the buffer: build the track item (R126). -/
def cwBuildTrack (q : Word) (r : Request) (s : State) : State :=
  let t := trackEntries ((openIndex s.sm).getD 0) (coveredFrames r) s
  cwModifyEntry q (fun e => { e with missing := t.2.1 })
    { t.2.2 with cw.job := .track q (trackHeader r ++ t.1) }

/-- Copy what fits of a chunk item (R125). -/
def cwCopyChunk (q : Word) (r : Request) (offset : Nat) (s : State) : State :=
  let n := min (cwRoom s) (chunkItemLength r - offset)
  let s := cwAppend (chunkSlice s r offset n) s
  if offset + n < chunkItemLength r then { s with cw.job := .chunk q (offset + n) } else cwBuildTrack q r s

/-- The highest frame number a request covers on top of the last tracked frame (R126). -/
def raisedFrame (last : Option Nat) (r : Request) : Option Nat :=
  (coveredFrames r).foldl (fun n m => some (max (n.getD 0) m)) last

/-- The last byte of a track item is in the buffer: the Media is handed off (R113, R125, R126). -/
def cwPairDone (q : Word) (r : Request) (s : State) : State :=
  let s := cwModifyEntry q (fun e => { e with pairEnd := some s.cw.streamPos }) s
  { s with
    cw.job := .idle
    cw.lastSequence := some q
    cw.lastTracked := raisedFrame s.cw.lastTracked r
    cw.reappend := s.cw.reappend.erase q
    cw.inHand := if s.cw.inHand = some q then none else s.cw.inHand }

/-- Copy what fits of a track item (R125). -/
def cwCopyTrack (q : Word) (r : Request) (rest : List Byte) (s : State) : State :=
  let n := cwRoom s
  let s := cwAppend (rest.take n) s
  if rest.length ≤ n then cwPairDone q r s else { s with cw.job := .track q (rest.drop n) }

/-! ### Close and switch -/

/-- A Stop in hand is ready when the writer has entered Stopped (R113, R115). -/
def cwFinishStop (s : State) : State :=
  match handRequest s with
  | none => s
  | some r =>
    if kindOf r.kind = some .stop then cwFinish (fun e => ⟨.ok, e.request.segment, e.request.byteOffset, 0⟩) s
    else s

/-- A Close with the segment's values and the entry to Stopped, in one step (R89, R123); then SM's snapshot and the
marks that waited (R99, R103). The Gauge's check comes before the snapshot is asked for (log 65). -/
def cwClose (cause : StopCause) (s : State) : State :=
  let s := smCloseOpen (closeValues s) s
  let s := cwFinishStop { s with cw.job := .idle, cw.reappend := [], cw.resume := none }
  smIntake (smSettle (cwEnterStopped cause s))

/-- The Media requests that are not yet ready (R130). -/
def unreadyMedia (s : State) : List Word :=
  (s.cw.queue.filter fun e => decide (kindOf e.request.kind = some .media) && e.result.isNone).map
    (·.request.sequence)

/-- The first frame that a switch opens its segment with (R119, R124, R130). -/
def switchFirst (why : SwitchFor) (s : State) : Nat :=
  let q := match why with
    | .reappend => s.cw.reappend[0]?
    | _ => s.cw.inHand
  match q.bind (queueEntry s) with
  | none => s.cw.clipFirst
  | some e => e.request.firstFrame

/-- The clip id and part number that a switch opens its segment with (R119, R124, R130). -/
def switchClip (why : SwitchFor) (s : State) : Word × Nat :=
  match why with
  | .split clip => (clip, 1)
  | _ => ((((openSegment s.sm).map (·.clip)).getD 0), ((openSegment s.sm).map (·.part)).getD 0 + 1)

/-- What follows a switch (R119, R124, R130). -/
def cwSwitched (why : SwitchFor) (i : Nat) (clip : Word) (first : Nat) (s : State) : State :=
  match why with
  | .media =>
    match s.cw.inHand with
    | none => { s with cw.job := .idle }
    | some q => cwStartPair q s
  | .reappend => { s with cw.job := .idle }
  | .split _ =>
    cwFinish (fun _ => ⟨.ok, i, 0, clip.toNat⟩) { s with cw.job := .idle, cw.clipFirst := first }

/-- A switch's allocation succeeded: the segment is closed and the next one opened in one step (R89). -/
def cwSwitchOpen (why : SwitchFor) (values : CloseValues) (i : Nat) (s : State) : State :=
  let c := switchClip why s
  let first := switchFirst why s
  let s := smOpen i c.1 c.2 first (smCloseOpen values s)
  cwSwitched why i c.1 first
    { s with cw.streamPos := 0, cw.lastSequence := none, cw.lastTracked := none }

/-- The request in hand fails with NoSpace. -/
def cwHandNoSpace (s : State) : State := cwFinish (fun e => failure e.request .noSpace) { s with cw.job := .idle }

/-- A Media's switch was answered NoSpace: in Closing the cause is set, in Recording the segment is closed (R123,
R124). -/
def cwMediaNoSpace (s : State) : State :=
  if s.cw.writer = .closing then { s with cw.cause := .noSpace } else cwClose .noSpace s

/-- The pairs still to append again fail with NoSpace (R130). -/
def cwFailReappend (s : State) : State :=
  cwReady (fun e => s.cw.reappend.contains e.request.sequence) (fun e => failure e.request .noSpace) s

/-- So does the Split that giving up interrupted (R130, log 52). -/
def cwFailResumed (s : State) : State :=
  match s.cw.resume with
  | none => s
  | some _ => cwFinish (fun e => failure e.request .noSpace) s

/-- A Media that has failed so is in hand no longer (R113). -/
def cwFreeHand (s : State) : State :=
  if (s.cw.inHand.map s.cw.reappend.contains) = some true then { s with cw.inHand := none } else s

/-- A switch was answered NoSpace (R119, R123, R124, R130). -/
def cwSwitchNoSpace (why : SwitchFor) (s : State) : State :=
  match why with
  | .media => cwMediaNoSpace (cwHandNoSpace s)
  | .split _ => cwClose .noSpace (cwHandNoSpace s)
  | .reappend => cwClose .noSpace (cwFreeHand (cwFailResumed (cwFailReappend s)))

/-- A Start's allocation succeeded: a new clip in segment `i` (R118). -/
def cwStartOpen (i : Nat) (s : State) : State :=
  let first := ((handRequest s).map (·.firstFrame)).getD 0
  let c := smTakeClip s
  let s := smOpen i c.1 1 first { c.2 with cw.clipFirst := first }
  let s := { s with
    cw.streamPos := 0, cw.lastSequence := none, cw.lastTracked := none, cw.blockEnd := none, cw.job := .idle }
  cwFinish (fun _ => ⟨.ok, i, 0, c.1.toNat⟩) (puClipStart first (cwSetWriter .recording s))

/-- The answer of an allocation reaches the Clip Writer: the segment change ends (R94, R99, R118, R119). -/
def cwOnAlloc (a : AllocAnswer) (s : State) : State :=
  let s := { s with sm.change := none }
  match s.cw.job, a with
  | .starting, .segment i => smIntake (smSettle (cwStartOpen i s))
  | .starting, .noSpace => smIntake (cwFinish (fun e => failure e.request .noSpace) { s with cw.job := .idle })
  | .switching why v, .segment i => smIntake (smSettle (cwSwitchOpen why v i s))
  | .switching why _, .noSpace => smIntake (cwSwitchNoSpace why s)
  | _, _ => s

/-- Ask SM for a segment, or ask again when an erase has ended (R94). -/
def cwAllocate (s : State) : State :=
  let a := smAllocate s
  match a.1 with
  | none => a.2
  | some x => cwOnAlloc x a.2

/-- Ask for a Switch with the segment's values (R89, R119, R124); the new clip id that a Split takes (R119, log 62) and the
switch, when it is answered at once, are one change of the table (log 42). -/
def cwAskSwitch (why : SwitchFor) (s : State) : State :=
  let v := closeValues s
  match why with
  | .split _ =>
    let c := smTakeClip s
    smFlush (cwAllocate { c.2 with cw.job := .switching (.split c.1) v, sm.change := some .switch })
  | w => cwAllocate { s with cw.job := .switching w v, sm.change := some .switch }

/-! ### The writer's own steps -/

/-- A step with no request to work on: the next pair to append again, what giving up interrupted, or Closing (R123,
R130). -/
def cwIdleStep (s : State) : Option State :=
  match s.cw.reappend, s.cw.resume with
  | q :: _, _ => some (cwStartPair q s)
  | [], some why => some { s with cw.job := .pad why, cw.resume := none }
  | [], none =>
    if s.cw.writer = .closing then some (if s.cw.assembly = [] then cwClose s.cw.cause s else cwPad s) else none

/-- The assembly holds a whole page (R125). -/
def assemblyFull (c : Cw) : Bool := decide (8192 ≤ c.assembly.length)

/-- One step of the job at hand, if it can go on now. -/
def cwJobStep (s : State) : Option State :=
  match s.cw.job with
  | .idle => cwIdleStep s
  | .chunk q offset => (queueEntry s q).map fun e => cwCopyChunk q e.request offset s
  | .track q rest => (queueEntry s q).map fun e => cwCopyTrack q e.request rest s
  | .pad why => some (if s.cw.assembly = [] then cwAskSwitch why s else cwPad s)
  | _ => none

/-- One step of the writer's work, if it can go on now: a stop event that waited takes effect, a full page is
programmed, or the job at hand goes on (R123, R125, R128). -/
def cwStep (s : State) : Option State :=
  match stopReady s.cw with
  | some c => some (cwApplyStop c { s with cw.stopDue := none })
  | none =>
    if s.cw.reloc.isSome ∨ s.cw.programming ∨ s.sm.change.isSome then none
    else if assemblyFull s.cw then some (cwProgram s)
    else cwJobStep s

/-- The steps of the writer's work, at most `fuel` of them. -/
def cwSteps : Nat → State → State
  | 0, s => s
  | fuel + 1, s =>
    match cwStep s with
    | none => s
    | some t => cwSteps fuel t

/-- The writer goes on as far as it can and publishes what is ready. A table of 64 slots bounds the steps between two
flash operations: each is a page's end, or the beginning, chunk or track of one of at most 64 pairs. In a reset
transition it takes no action (R184). -/
def cwRun (s : State) : State := if s.resetting then s else cwPublish (cwSteps 512 s)

/-! ### Judging a taken request -/

/-- Low energy: the Gauge at Reserve or Cutoff with the input absent (R114). -/
def lowEnergy (g : Ga) : Bool := (decide (g.level = .reserve) || decide (g.level = .cutoff)) && !g.present

/-- A refusal at taking; the request is handed off at once (R113, R114). -/
def cwRefuse (c : ResultCode) (s : State) : Bool × State :=
  (true, cwPublish (cwFinish (fun e => failure e.request c) s))

/-- A Start in Stopped (R118). -/
def judgeStart (s : State) : Bool × State :=
  if lowEnergy s.ga then cwRefuse .lowPower s
  else if s.fe.worn then cwRefuse .flashWorn s
  else (false, cwAllocate { s with cw.job := .starting, sm.change := some .start })

/-- A Media in Stopped (Table 6-3). -/
def judgeMediaStopped (s : State) : Bool × State :=
  cwRefuse (if lowEnergy s.ga then .lowPower else .notRecording) s

/-- The open segment's capacity in bytes. -/
def openCapacity (s : State) : Nat := 8192 * ((openSegment s.sm).map capacityPages).getD 0

/-- A Media in Recording (R124); under low energy the writer takes none for writing (R131, log 59). -/
def judgeMedia (r : Request) (s : State) : Bool × State :=
  if lowEnergy s.ga then cwRefuse .lowPower s
  else if r.length = 0 ∨ 1048576 < r.length ∨ 32 < r.frameCount then cwRefuse .badLength s
  else if ramBytes < r.buffer + r.length then cwRefuse .badBuffer s
  else
    let s := puSkipBelow r.firstFrame s
    if openCapacity s - s.cw.streamPos < chunkItemLength r + trackItemLength r then
      (false, { s with cw.job := .pad .media })
    else (false, cwStartPair r.sequence s)

/-- A Stop in Recording (R116, R123). -/
def judgeStop (s : State) : Bool × State := (false, cwEnterClosing .hostStop s)

/-- A Split in Recording (R119). -/
def judgeSplit (s : State) : Bool × State := (false, { s with cw.job := .pad (.split 0) })

/-- SM's answer to a Protect or Unprotect (R120): the result, the snapshot and the erase-ahead check. -/
def cwAnswered (a : ResultCode × State) : Bool × State :=
  (true, smSettle (cwPublish (cwFinish (fun e => ⟨a.1, e.request.segment, e.request.byteOffset, 0⟩) a.2)))

/-- A Protect (R102, R120). -/
def judgeProtect (r : Request) (s : State) : Bool × State := cwAnswered (smProtect r.segment s)

/-- An Unprotect (R102, R120). -/
def judgeUnprotect (r : Request) (s : State) : Bool × State := cwAnswered (smUnprotect r.segment s)

/-- Ask for page `p` of a fetched segment (R121). -/
def cwAskFetch (e : Segment) (p : Nat) (s : State) : State :=
  let a := pageAddress e p
  flashAsk .fetcher (.readPage a.1 a.2) s

/-- A Fetch in Stopped (R121). -/
def judgeFetch (r : Request) (s : State) : Bool × State :=
  match s.sm.segment r.segment with
  | none => cwRefuse .noSuchSegment s
  | some e =>
    if e.state ≠ .closed then cwRefuse .noSuchSegment s
    else if r.length = 0 ∨ 1048576 < r.length ∨ e.bytesWritten < r.byteOffset + r.length then cwRefuse .badLength s
    else if ramBytes < r.buffer + r.length then cwRefuse .badBuffer s
    else (false, cwAskFetch e (r.byteOffset / 8192) { s with cw.job := .fetch (r.byteOffset / 8192) 0 none })

/-- A Format in Stopped (R90, R122). -/
def judgeFormat (s : State) : Bool × State :=
  if s.fe.worn ∧ s.cw.cause ≠ .unformatted then cwRefuse .flashWorn s
  else
    let cause := s.cw.cause
    let s := cwSetWriter .formatting s
    if formatProtected s.sm then
      (false, cwEnterStopped cause (cwFinish (fun e => failure e.request .isProtected) s))
    else (false, smFormatBegin { s with cw.job := .formatting })

/-- Table 6-3, column Stopped. -/
def judgeStopped (k : Kind) (r : Request) (s : State) : Bool × State :=
  if s.cw.cause = .unformatted ∧ k ≠ .format then cwRefuse .unformatted s
  else match k with
    | .start => judgeStart s
    | .stop => cwRefuse .notRecording s
    | .split => cwRefuse .notRecording s
    | .media => judgeMediaStopped s
    | .protect => judgeProtect r s
    | .unprotect => judgeUnprotect r s
    | .fetch => judgeFetch r s
    | .format => judgeFormat s

/-- Table 6-3, column Recording. -/
def judgeRecording (k : Kind) (r : Request) (s : State) : Bool × State :=
  match k with
  | .start => cwRefuse .alreadyRecording s
  | .stop => judgeStop s
  | .split => judgeSplit s
  | .media => judgeMedia r s
  | .protect => judgeProtect r s
  | .unprotect => judgeUnprotect r s
  | .fetch => cwRefuse .busy s
  | .format => cwRefuse .busy s

/-- The request in hand is judged at its taking (R114): whether it is handed off at once, and the state after. -/
def cwJudge (r : Request) (s : State) : Bool × State :=
  match kindOf r.kind with
  | none => cwRefuse .badKind s
  | some k =>
    match s.cw.writer with
    | .stopped => judgeStopped k r s
    | .recording => judgeRecording k r s
    | .faulted => cwRefuse .flashFailed s
    | _ => (false, s)

/-! ### Service points and scans -/

/-- A slot is held (R110). -/
def slotHeld (c : Cw) (i : Nat) : Bool := c.queue.any fun e => decide (e.slot = i)

/-- A Posted slot that is not held (R112). -/
def slotOffered (s : State) (table i : Nat) : Bool := decide (slotState s table i = 1) && !slotHeld s.cw i

/-- The writer states in which requests are taken (R111, R114). -/
def writerTakes (w : WriterState) : Bool :=
  decide (w = .stopped) || decide (w = .recording) || decide (w = .faulted)

/-- A service point is acted on (R111); while the part is leaving Running no request is looked at (R123). -/
def servicePoint (s : State) : Bool :=
  decide (s.part.state = .running) && decide (s.part.transition = .none)
    && writerTakes s.cw.writer
    && s.sm.change.isNone && s.cw.reloc.isNone && s.cw.table.isSome

/-- Fail a stale slot with BadSequence (R112, step 1). -/
def cwFailStale (table i : Nat) (s : State) : State :=
  if slotOffered s table i ∧ seqDiff (slotSequence s table i) s.cw.expected < 0 then
    let a := slotOffset table i
    ((s.store (a + 28) (leBytes 4 0)).store a (leBytes 2 4 ++ leBytes 2 (resultCode .badSequence))).raise
      .requestFailed
  else s

/-- Take slot `i` and judge its request (R112, step 2). -/
def cwTake (table i : Nat) (s : State) : Bool × State :=
  let r := slotRequest s table i
  let s := s.store (slotOffset table i) (leBytes 2 2 ++ leBytes 2 0)
  cwJudge r
    { s with
      cw.queue := s.cw.queue ++ [⟨i, r, none, 0, 0, none, 0⟩], cw.expected := s.cw.expected + 1,
      cw.inHand := some r.sequence }

/-- The lowest slot that holds the expected sequence (R112). -/
def expectedSlot (s : State) (table : Nat) : Option Nat :=
  (List.range s.cw.slotCount).find? fun i =>
    slotOffered s table i && decide (slotSequence s table i = s.cw.expected)

/-- Step 2 may take a request: none is in hand, and the writer is not at work on one (R112, R113, R130). -/
def handFree (c : Cw) : Bool :=
  c.inHand.isNone && decide (c.job = .idle) && decide (c.reappend = []) && c.resume.isNone

/-- Step 2 of a scan, again after each request handed off at once, until the writer takes no more; at most `fuel` takings
(R112, R123). -/
def cwTakeAll (table : Nat) : Nat → State → State
  | 0, s => s
  | fuel + 1, s =>
    if handFree s.cw && writerTakes s.cw.writer then
      match expectedSlot s table with
      | none => s
      | some i =>
        let a := cwTake table i s
        if a.1 then cwTakeAll table fuel a.2 else a.2
    else s

/-- A scan of the request table (R112); there are at most 64 slots to take. -/
def cwScanTable (table : Nat) (s : State) : State :=
  cwTakeAll table 64 ((List.range s.cw.slotCount).foldl (fun s i => cwFailStale table i s) s)

/-- A service point: a scan if it is acted on, and then the writer's work (R111, R112). -/
def cwService (s : State) : State :=
  if servicePoint s then
    match s.cw.table with
    | none => s
    | some table => cwRun (cwScanTable table s)
  else s

/-! ### The commit deadline -/

/-- The check of the commit deadline finds a tail to program (R127). -/
def commitDue (s : State) : Bool :=
  match s.cw.deadline with
  | none => false
  | some d =>
    decide (d ≤ s.now) && decide (s.cw.assembly ≠ []) && !s.cw.programming && decide (s.cw.job = .idle)
      && s.cw.reloc.isNone && !s.resetting

/-- The check of the commit deadline at a charge tick (R127). -/
def cwCommit (s : State) : State := if commitDue s then cwRun (cwPad s) else s

/-! ### Flash results: the writer -/

/-- The page in the assembly is programmed (R125, R127): it leaves the buffer, SM is told, and every Media request
whose track item ends within it is ready. Where this brings about several requests for a free FE (a snapshot's page, an
erase, the next page), their order is that of this body, which the spec leaves open (R75, log 48). -/
def cwPageDone (s : State) : State :=
  let bytes := 8192 * (cwPage s + 1)
  let s := smPageReport
    { s with
      cw.assembly := [], cw.programming := false, cw.deadline := none, cw.pageMark := none
      cw.blockEnd := if cwPage s % 256 = 255 then s.cw.pageMark else s.cw.blockEnd }
  cwReady (fun e => match e.pairEnd with | none => false | some n => decide (n ≤ bytes))
    (fun e => ⟨.ok, e.segment, e.chunkAt, e.missing⟩) s

/-- What a relocation that gives up interrupts: a Split goes on after the pairs are appended again (R130). -/
def interrupted (c : Cw) : Option SwitchFor :=
  match c.job with
  | .pad (.split q) => some (.split q)
  | _ => c.resume

/-- The values of a segment cut short at the start of block position `k` (R130). -/
def cutValues (k : Nat) (s : State) : CloseValues :=
  match openSegment s.sm with
  | none => ⟨s.now, 0, 0⟩
  | some e =>
    if k = 0 then ⟨e.startTime, 0, 0⟩
    else match s.cw.blockEnd with
      | none => ⟨e.startTime, 0, k * 256 * 8192⟩
      | some m => ⟨m.time, framesUpTo e.firstFrame m.lastTracked, k * 256 * 8192⟩

/-- The writer gives up a relocation (R130). -/
def cwGiveUp (k : Nat) (s : State) : State :=
  let s := match openIndex s.sm with
    | none => s
    | some i => smSetDamaged i s
  let v := cutValues k s
  cwAllocate
    { s with
      cw.resume := interrupted s.cw, cw.reappend := unreadyMedia s, cw.assembly := [], cw.programming := false,
      cw.deadline := none, cw.pageMark := none, cw.reloc := none, cw.job := .switching .reappend v,
      sm.change := some .switch }

/-- The block of the open segment at a position. -/
def openBlock (s : State) (k : Nat) : Nat := (((openSegment s.sm).map (·.blocks)).getD []).getD k 0

/-- SM's answer to a replacement begins an attempt, or the writer gives up (R129). -/
def cwReplacement (c : Relocation) (s : State) : State :=
  match smReplace c.position s with
  | (none, s) => cwGiveUp c.position s
  | (some r, s) =>
    flashAsk .writer (.eraseBlock r)
      { s with cw.reloc := some { c with replacement := r, step := .erase, previous := none } }

/-- A ProgramFailed of a data page begins a relocation (R128). -/
def cwBeginReloc (s : State) : State :=
  let p := cwPage s
  cwReplacement
    { page := p, position := p / 256, attempt := 1, failed := openBlock s (p / 256), replacement := 0,
      step := .erase, since := s.now, previous := none } s

/-- An attempt has ended without success (R129). -/
def cwAttemptFailed (c : Relocation) (s : State) : State :=
  if 3 ≤ c.attempt then cwGiveUp c.position s else cwReplacement { c with attempt := c.attempt + 1 } s

/-- Step 3: program the failed page, which the assembly still holds (R129). -/
def cwRelocLast (c : Relocation) (s : State) : State :=
  let m := (s.cw.pageMark.map markBytes).getD []
  flashAsk .writer (.programPage c.replacement (c.page % 256) s.cw.assembly m)
    { s with cw.reloc := some { c with step := .last } }

/-- Step 2: copy page `q` of the failed block, or go on to step 3 (R129). -/
def cwRelocRead (c : Relocation) (q : Nat) (s : State) : State :=
  if q < c.page % 256 then
    flashAsk .writer (.readPage c.failed q) { s with cw.reloc := some { c with step := .read q } }
  else cwRelocLast c s

/-- The mark of the page before page `q` of the block being copied (R129). -/
def precedingMark (c : Relocation) (q : Nat) (s : State) : Option ProgressMark :=
  if q = 0 then (if c.position = 0 then none else s.cw.blockEnd) else c.previous.map markOf

/-- The record rebuilt for a page whose own cannot be trusted (R129). -/
def rebuiltRecord (c : Relocation) (q : Nat) (s : State) : List Byte :=
  let e := (openSegment s.sm).getD (blankSegment .free [])
  let page := 256 * c.position + q
  let before := precedingMark c q s
  markBytes
    { damaged := true, segment := (openIndex s.sm).getD 0, clip := e.clip, page := page,
      lastSequence := before.bind (·.lastSequence), lastTracked := before.bind (·.lastTracked),
      time := (before.map (·.time)).getD e.startTime, streamBytes := 8192 * (page + 1) }

/-- The record that a copy is programmed with (R129). -/
def copyRecord (c : Relocation) (q : Nat) (r : PageResult) (s : State) : List Byte :=
  if r.bad = [] then r.record
  else if recordTrusted r then withDamaged r.record
  else rebuiltRecord c q s

/-- A page of the failed block was read: its copy is programmed (R129). -/
def cwRelocCopy (c : Relocation) (q : Nat) (r : PageResult) (s : State) : State :=
  let record := copyRecord c q r s
  let s := match openIndex s.sm with
    | none => s
    | some i => if r.bad = [] then s else smSetDamaged i s
  flashAsk .writer (.programPage c.replacement q r.data record)
    { s with cw.reloc := some { c with step := .copy q r.data record } }

/-- A result during a relocation; a Timeout repeats the same operation (R129). -/
def cwRelocResult (c : Relocation) (op : FlashOp) (r : FlashResult) (s : State) : State :=
  match r with
  | .timeout => flashAsk .writer op s
  | .erased true => cwRelocRead c 0 s
  | .erased false => cwAttemptFailed c s
  | .page x =>
    match c.step with
    | .read q => cwRelocCopy c q x s
    | _ => s
  | .programmed false => cwAttemptFailed c s
  | .programmed true =>
    match c.step with
    | .copy q _ record => cwRelocRead { c with previous := some record } (q + 1) s
    | _ => cwPageDone { s with cw.reloc := none }
  | _ => s

/-- A data page's result (R128). -/
def cwPageResult (r : FlashResult) (s : State) : State :=
  if s.cw.programming then
    match r with
    | .programmed true => cwPageDone s
    | .programmed false => cwBeginReloc s
    | .timeout => cwReprogram s
    | _ => s
  else s

/-- The writer's result (R128, R129). -/
def cwWriterResult (op : FlashOp) (r : FlashResult) (s : State) : State :=
  match s.cw.reloc with
  | some c => cwRelocResult c op r s
  | none => cwPageResult r s

/-! ### Flash results: the fetcher -/

/-- The bytes of a range that lie in page `p`, copied into the buffer (R121, R188). -/
def cwCopyFetch (r : Request) (p : Nat) (data : List Byte) (s : State) : State :=
  let lo := max r.byteOffset (8192 * p)
  let hi := min (r.byteOffset + r.length) (8192 * (p + 1))
  s.store (r.buffer + (lo - r.byteOffset)) ((data.drop (lo - 8192 * p)).take (hi - lo))

/-- The lowest stream offset of a byte of the range in an uncorrectable codeword of page `p` (R121). -/
def firstBad (r : Request) (p : Nat) (bad : List Nat) : Option Nat :=
  (bad.filterMap fun c =>
    let lo := max r.byteOffset (8192 * p + 1024 * c)
    let hi := min (r.byteOffset + r.length) (8192 * p + 1024 * (c + 1))
    if lo < hi then some lo else none)[0]?

/-- A Fetch has read and copied its last page (R121). -/
def cwFetchDone (worst : Nat) (bad : Option Nat) (r : Request) (s : State) : State :=
  let s := if 6 ≤ worst then smSetWeak r.segment s else s
  cwFinish
    (fun e => match bad with
      | none => ⟨.ok, e.request.segment, e.request.byteOffset, worst⟩
      | some o => ⟨.uncorrectable, e.request.segment, e.request.byteOffset, o⟩)
    { s with cw.job := .idle }

/-- A page of a Fetch was read (R121). -/
def cwFetchPage (r : Request) (p worst : Nat) (bad : Option Nat) (x : PageResult) (s : State) : State :=
  let s := cwCopyFetch r p x.data s
  let worst := max worst x.worst
  let bad := match bad with | some o => some o | none => firstBad r p x.bad
  if 8192 * (p + 1) < r.byteOffset + r.length then
    match s.sm.segment r.segment with
    | none => s
    | some e => cwAskFetch e (p + 1) { s with cw.job := .fetch (p + 1) worst bad }
  else cwFetchDone worst bad r s

/-- The fetcher's result; a Timeout repeats the same read (R121). -/
def cwFetchResult (op : FlashOp) (r : FlashResult) (s : State) : State :=
  match s.cw.job, handRequest s with
  | .fetch p worst bad, some q =>
    match r with
    | .page x => cwFetchPage q p worst bad x s
    | .timeout => flashAsk .fetcher op s
    | _ => s
  | _, _ => s

/-! ### Writer steps -/

/-- The request with this sequence has no result yet. -/
def unready (c : Cw) (q : Word) : Bool := c.queue.any fun e => entryIs q e && e.result.isNone

/-- A completion ended a writer step: it completed a hand-off, made a request ready, or ended Closing, a relocation, a
Fetch or a Format (R111). -/
def writerStepEnded (before after : Cw) : Bool :=
  (before.inHand.isSome && decide (after.inHand ≠ before.inHand))
    || (before.queue.any fun e => e.result.isNone && !unready after e.request.sequence)
    || (decide (before.writer = .closing) && decide (after.writer ≠ .closing))
    || (before.reloc.isSome && after.reloc.isNone)
    || (decide (before.writer = .formatting) && decide (after.writer ≠ .formatting))

/-- A ProgramFailed of a data page whose relocation ended in the same completion, no replacement being given (R111, R128,
R129). -/
def relocEndedAtOnce (r : FlashResult) (before after : Cw) : Bool :=
  decide (r = .programmed false) && before.programming && before.reloc.isNone && after.reloc.isNone

end Sys2Proof.Machine
end

