-- ==== Sys2Proof/Machine/FlashEnd.lean ====
section
/-! DEFINITION. The end of a flash operation: its result to its requester, FE's own end, the next grant and GA's check
in the order taken (R73, R76, R162), and what each requester does with its result. -/

namespace Sys2Proof.Machine

/-! ### Results to requesters -/

/-- A result for CW's writer or fetcher, the writer's work, and the service point of a completion that ends a writer
step (R76, R111). -/
def cwResult (r : FlashResult) (act : State → State) (s : State) : State :=
  let t := cwRun (act s)
  if writerStepEnded s.cw t.cw || relocEndedAtOnce r s.cw t.cw then cwService t else t

/-- SM's work after one of its results: the mount or Format goes on, and the end of a Format is a service point (R111,
log 40). -/
def smResult (act : State → State) (s : State) : State :=
  let t := smGoOn (act s)
  if s.cw.writer = .formatting ∧ t.cw.writer ≠ .formatting then cwService t else t

/-- The table writer's result (R93, R104). -/
def tableWriterResult (r : FlashResult) (s : State) : State :=
  match s.sm.snapshot with
  | some w => smSnapshotResult w r s
  | none => smFormatTableResult r s

/-- The eraser's result (R95); when the segment's erase has ended, a mount or a Format goes on, an allocation that
waited begins again, erase-ahead is evaluated, and then the snapshot that is due is begun (R94, R96, R103, log 42). -/
def eraserResult (op : FlashOp) (r : FlashResult) (s : State) : State :=
  match op with
  | .eraseBlock _ =>
    let t := smEraserResult r s
    if s.sm.eraser.isSome ∧ t.sm.eraser = none then
      let t := smEraseEnded t
      smFlush (smEraseAhead (if t.sm.change.isSome then cwAllocate t else t))
    else t
  | _ => s

/-- The mount reader's result (R91, R105, R106). -/
def mountReaderResult (op : FlashOp) (r : FlashResult) (s : State) : State :=
  if s.sm.format.isSome then smSurveyResult op r s else smMountResult op r s

/-- A result is returned to its requester; in a reset transition it is not acted on (R76, R184). -/
def returnResult (w : FlashRequest) (r : FlashResult) (s : State) : State :=
  if s.resetting then s
  else match w.requester with
    | .tableWriter => smResult (tableWriterResult r) s
    | .writer => cwResult r (cwWriterResult w.op r) s
    | .eraser => cwRun (smResult (eraserResult w.op r) s)
    | .fetcher => cwResult r (cwFetchResult w.op r) s
    | .mountReader => smResult (mountReaderResult w.op r) s

/-! ### The end of an operation -/

/-- FE's next grant and GA's check, in the order taken (R76, R162). -/
def grantAndCheck (o : EndOrder) (s : State) : State :=
  if o.checkFirst then feGrant (gaCheck s) else gaCheck (feGrant s)

/-- The requests that wait at an entry to Failed are answered (R74). -/
def answerFailed (s : State) : State := if s.fe.rail = .failed then feFailWaiting s else s

/-- The end of an operation that returns a result: the result, FE's end, the grant and the check (R73, R76). An entry
to Failed comes after the result (R74). -/
def endOperation (o : EndOrder) (w : FlashRequest) (r : FlashResult) (fe : State → State) (s : State) : State :=
  if o.grantFirst ∧ (fe s).fe.rail ≠ .failed then
    returnResult w r (grantAndCheck o (feUnhold w.requester (fe s)))
  else
    grantAndCheck o (answerFailed (feUnhold w.requester (fe (returnResult w r s))))

/-- A completion of the operation in flight, if it is one that `fits`; any other completion is ignored (R73). -/
def completion (t : Stamp) (o : EndOrder) (fits : FlashOp → Bool) (result : FlashOp → FlashResult)
    (before : State → State) (s : State) : State :=
  let s := s.advance t.toNat
  match s.fe.inFlight with
  | none => s
  | some f =>
    match f.request with
    | none => s
    | some w =>
      if fits w.op ∧ !f.resetting then endOperation o w (result w.op) feEndDone (before s) else s

/-- The four identity bytes of the supported flash (R72). -/
def flashIdentity : List Byte := [0x6B, 0x3D, 0x51, 0x0E]

/-- FE takes the four identity bytes (R72). -/
def feIdentify (id : List Byte) (s : State) : State :=
  if id = flashIdentity then { s with fe.identity := .isMatch, fe.absent := false }
  else State.raise { s with fe.identity := .mismatch, fe.absent := true } .flashFault

/-- A Read ID completes (R72). -/
def bodyReadIdDone (t : Stamp) (id : Vector Byte 4) (o : EndOrder) (s : State) : State :=
  completion t o (fun op => decide (op = .readId)) (fun _ => .identity (decide (id.toList = flashIdentity)))
    (feIdentify id.toList) s

/-- The operation is a Read Page. -/
def isReadPage : FlashOp → Bool
  | .readPage _ _ => true
  | _ => false

/-- The operation is a Read Marker. -/
def isReadMarker : FlashOp → Bool
  | .readMarker _ => true
  | _ => false

/-- The operation is a Program Page. -/
def isProgramPage : FlashOp → Bool
  | .programPage _ _ _ _ => true
  | _ => false

/-- The operation is an Erase Block. -/
def isEraseBlock : FlashOp → Bool
  | .eraseBlock _ => true
  | _ => false

/-- A Read Page completes (R65, R66). -/
def bodyReadPageDone (t : Stamp) (page : PageRead) (o : EndOrder) (s : State) : State :=
  completion t o isReadPage (fun _ => .page (pageResult page)) id s

/-- A Read Marker completes (R76). -/
def bodyReadMarkerDone (t : Stamp) (marker : Byte) (o : EndOrder) (s : State) : State :=
  completion t o isReadMarker (fun _ => .marker marker) id s

/-- A Program Page completes with the device's pass or fail status (R71). -/
def bodyProgramPageDone (t : Stamp) (pass : Bool) (o : EndOrder) (s : State) : State :=
  completion t o isProgramPage (fun _ => .programmed pass) id s

/-- An Erase Block completes with the device's pass or fail status (R71). -/
def bodyEraseBlockDone (t : Stamp) (pass : Bool) (o : EndOrder) (s : State) : State :=
  completion t o isEraseBlock (fun _ => .erased pass) id s

/-- A Reset completes (R67, R68). -/
def bodyResetDone (t : Stamp) (o : EndOrder) (s : State) : State :=
  let s := s.advance t.toNat
  match s.fe.inFlight with
  | none => s
  | some f =>
    if f.resetting then
      match f.request with
      | none => grantAndCheck o (feStartupDone s)
      | some w => feFrontDone w s
    else s

/-- GA's check at the end of a start-up Reset that FE issues again (R67, R162). -/
def checkBetween (o : EndOrder) (s : State) : State :=
  if o.checkFirst then { s with ga := (gaCheck { s with fe.inFlight := none }).ga } else s

/-- The deadline of the operation in flight is reached (R73): a start-up Reset, or a requester's operation. -/
def bodyOperationTimeout (o : EndOrder) (s : State) : State :=
  match s.fe.inFlight with
  | none => s
  | some f =>
    let s := s.advance f.deadline
    match f.request with
    | none => gaCheck (answerFailed (feStartupTimeout (checkBetween o s)))
    | some w => endOperation o w .timeout feEndTimeout s

/-- The settle time ends: FE issues the Reset of the power-up (R67), but in a reset transition (log 49). -/
def bodySettleEnd (s : State) : State :=
  match s.fe.settleEnd with
  | none => s
  | some e => if s.fe.rail = .starting ∧ !s.resetting then feStartupReset (s.advance e) else s

end Sys2Proof.Machine
end

