-- ==== Sys2Proof/Machine/Motion.lean ====
section
/-! DEFINITION. The Motion Unit (Section 2): transactions (R14 to R18, R22), the link (R16, R19 to R21), bias tracking
(R24 to R26), integration (R27, R28), delivery (R29), impact detection and marks (R30 to R35), entry to Starting and to
Off (R15, R23). -/

namespace Sys2Proof.Machine

/-! ### Marks (R31, R34) -/

/-- The detector's threshold value for detection disabled (R30). -/
def noThreshold : Nat := 0xFFFF

/-- Merge a mark into the newest of the queue (R34). -/
def mergeNewest (k : ImpactMark) : List ImpactMark → List ImpactMark
  | [] => [k]
  | [q] => [⟨max q.time k.time, max q.peak k.peak⟩]
  | q :: rest => q :: mergeNewest k rest

/-- Post a mark: the Impact event, the count, and the queue (R31, R34); then SM's intake if it is open (R99). -/
def muPost (k : ImpactMark) (s : State) : State :=
  let s := State.raise { s with mu.impacts := satInc s.mu.impacts } .impact
  if tableServes s.sm then
    if s.mu.marks.length < 8 then smIntake { s with mu.marks := s.mu.marks ++ [k] }
    else smIntake { s with mu.marks := mergeNewest k s.mu.marks, mu.merged := satInc s.mu.merged }
  else s

/-- A Declared run ends at a time: its mark is posted, the impact time handed to PU, and the detector enters HoldOff
(R31, R32). The post and the hand-off are not ordered; here the post comes first (log 46). -/
def muEndRun (endTime : Nat) (s : State) : State :=
  let first := s.mu.impactFirst
  let k : ImpactMark := ⟨first, isqrt s.mu.impactPeak / 128⟩
  puImpact first (muPost k
    { s with
      mu.detector := .holdOff, mu.holdOffEnd := endTime + 1000 * s.mu.params.holdOff, mu.impactRun := 0,
      mu.impactPeak := 0 })

/-! ### Sample steps (R27) -/

/-- What a tick ended in: a good sample, or none. -/
inductive SampleResult where
  | good (x : Sample)
  | missing
  deriving DecidableEq, Repr

/-- Entry to Lost (R16, R20): a Declared run ends at the ride clock value of this event (R31). -/
def muEnterLost (s : State) : State :=
  let s := State.raise
    { s with
      mu.link := .lost, mu.missingRun := 0, mu.goodRun := 0, mu.stillRun := 0, mu.stillSums := Axes.zero } .imuState
  if s.mu.detector = .declared then muEndRun s.now s else s

/-- Entry to Tracking from Starting (R16). -/
def muEnterTracking (s : State) : State :=
  State.raise { s with mu.link := .tracking, mu.goodRun := 0 } .imuState

/-- Recovery from Lost (R21, steps 1 to 3). -/
def muRecover (s : State) : State :=
  State.raise
    (puBreak
      { s with
        mu.link := .tracking, mu.goodRun := 0, mu.missingRun := 0, mu.acc := Axes.zero, mu.lastTime := none })
    .imuState

/-- A good sample brings the link state up to date (R16, R20, R21). -/
def muLinkGood (s : State) : State :=
  match s.mu.link with
  | .starting =>
    let s := { s with mu.goodRun := s.mu.goodRun + 1, mu.missingRun := 0 }
    if 4 ≤ s.mu.goodRun then muEnterTracking s else s
  | .tracking => { s with mu.missingRun := 0 }
  | .lost =>
    let s := { s with mu.goodRun := s.mu.goodRun + 1 }
    if 4 ≤ s.mu.goodRun then muRecover s else s
  | _ => s

/-- A missing sample brings the link state up to date (R16, R20). -/
def muLinkMissing (s : State) : State :=
  match s.mu.link with
  | .starting =>
    let s := { s with mu.goodRun := 0, mu.missingRun := s.mu.missingRun + 1 }
    if 8 ≤ s.mu.missingRun then muEnterLost s else s
  | .tracking =>
    let s := { s with mu.missingRun := s.mu.missingRun + 1 }
    if 8 ≤ s.mu.missingRun then muEnterLost s else s
  | .lost => { s with mu.goodRun := 0 }
  | _ => s

/-- The accumulators' limit (R28). -/
def accLimit : Int := 2 ^ 47 - 1

/-- One axis after an integration step, at its limit if it would pass it (R28). -/
def integrated (a r b : Int) (T : Nat) : Int := clampInt (-accLimit) accLimit (a + (r - b) * T)

/-- The step would carry the accumulator past a limit (R28). -/
def passesLimit (a r b : Int) (T : Nat) : Bool := decide (integrated a r b T ≠ a + (r - b) * T)

/-- The integration interval of a sample (R27). -/
def interval (s : State) (t : Nat) : Nat :=
  match s.mu.lastTime with
  | none => s.rck.activePeriod
  | some l => t - l

/-- Integrate the words of a sample (R27, R28): whether it is marked Saturated, and the state after. -/
def muIntegrate (t : Nat) (g : Axes) (s : State) : Bool × State :=
  let T := interval s t
  let a := s.mu.acc
  let b := s.mu.bias
  (passesLimit a.yaw g.yaw b.yaw T || passesLimit a.pitch g.pitch b.pitch T || passesLimit a.roll g.roll b.roll T,
    { s with
      mu.acc := ⟨integrated a.yaw g.yaw b.yaw T, integrated a.pitch g.pitch b.pitch T, integrated a.roll g.roll b.roll T⟩
      mu.lastTime := some t })

/-- A word lies within the still threshold of its axis's bias (R24). -/
def axisStill (m : Mu) (r b : Int) : Bool := decide ((r - b).natAbs ≤ m.params.stillThreshold)

/-- The sample is still (R24). -/
def isStill (m : Mu) (g : Axes) : Bool :=
  axisStill m g.yaw m.bias.yaw && axisStill m g.pitch m.bias.pitch && axisStill m g.roll m.bias.roll

/-- The still sums with a sample's deviations added (R24). -/
def addedSums (m : Mu) (g : Axes) : Axes :=
  ⟨m.stillSums.yaw + (g.yaw - m.bias.yaw), m.stillSums.pitch + (g.pitch - m.bias.pitch),
    m.stillSums.roll + (g.roll - m.bias.roll)⟩

/-- An axis's new bias (R25). -/
def newBias (b sum : Int) (window : Nat) : Int := clampInt (-320) 320 (b + roundDiv sum window)

/-- The bias update of a completed still run (R25). -/
def muUpdateBias (sums : Axes) (s : State) : State :=
  let w := s.mu.params.window
  { s with
    mu.bias := ⟨newBias s.mu.bias.yaw sums.yaw w, newBias s.mu.bias.pitch sums.pitch w, newBias s.mu.bias.roll sums.roll w⟩
    mu.stillRun := 0, mu.stillSums := Axes.zero }

/-- A good sample of Tracking is judged for stillness (R24, R25). -/
def muJudgeStill (g : Axes) (s : State) : State :=
  if s.mu.params.biasEnable ∧ s.mu.link = .tracking then
    if isStill s.mu g then
      let sums := addedSums s.mu g
      if s.mu.params.window ≤ s.mu.stillRun + 1 then muUpdateBias sums s
      else { s with mu.stillRun := s.mu.stillRun + 1, mu.stillSums := sums }
    else { s with mu.stillRun := 0, mu.stillSums := Axes.zero }
  else s

/-- The sample exceeds the threshold (R30). -/
def muExceeds (m : Mu) (m2 : Nat) : Bool := decide ((m.params.impactThreshold * 128) ^ 2 < m2)

/-- A good sample judged in Armed (R30). -/
def muJudgeArmed (t m2 : Nat) (s : State) : State :=
  if muExceeds s.mu m2 then
    { s with
      mu.impactRun := 1, mu.impactFirst := t, mu.impactPeak := m2
      mu.detector := if s.mu.params.persistence ≤ 1 then .declared else .counting }
  else { s with mu.detector := .armed }

/-- A good sample judged in Counting (R30). -/
def muJudgeCounting (m2 : Nat) (s : State) : State :=
  if muExceeds s.mu m2 then
    { s with
      mu.impactRun := s.mu.impactRun + 1, mu.impactPeak := max s.mu.impactPeak m2
      mu.detector := if s.mu.params.persistence ≤ s.mu.impactRun + 1 then .declared else .counting }
  else { s with mu.detector := .armed, mu.impactRun := 0 }

/-- The impact detector judges a good sample (R30 to R32). -/
def muJudgeImpact (t : Nat) (x : Sample) (s : State) : State :=
  let m2 := sampleSquare x
  match s.mu.detector with
  | .disabled => s
  | .armed => muJudgeArmed t m2 s
  | .counting => muJudgeCounting m2 s
  | .declared =>
    if muExceeds s.mu m2 then { s with mu.impactPeak := max s.mu.impactPeak m2 } else muEndRun t s
  | .holdOff => if t < s.mu.holdOffEnd then s else muJudgeArmed t m2 s

/-- A good sample (R27). -/
def muGood (t : Nat) (x : Sample) (s : State) : State :=
  let s := muLinkGood { s with mu.lastGood := some x }
  let i := if s.mu.link = .tracking then muIntegrate t x.gyro s else (false, s)
  let s := muJudgeImpact t x (muJudgeStill x.gyro i.2)
  puPass ⟨t, s.mu.link, some s.mu.acc, .good, i.1⟩ s

/-- A missing sample: a hold in Tracking (R19, R27). -/
def muMissing (t : Nat) (s : State) : State :=
  let s := muLinkMissing s
  match s.mu.link, s.mu.lastGood with
  | .tracking, some x =>
    let i := muIntegrate t x.gyro s
    puPass ⟨t, .tracking, some i.2.mu.acc, .hold, i.1⟩ i.2
  | l, _ => puPass ⟨t, l, some s.mu.acc, .missing, false⟩ s

/-- Process a sample (R27). -/
def muSample (t : Nat) (r : SampleResult) (s : State) : State :=
  match r with
  | .good x => muGood t x s
  | .missing => muMissing t s

/-! ### Transactions -/

/-- Begin a transaction of Identify or Configure, if none is in flight (R15, R16). -/
def muBegin (s : State) : State :=
  if s.mu.txn = none ∧ s.mu.link = .starting then
    match s.mu.phase with
    | .identify => { s with mu.txn := some .identity }
    | .configure => { s with mu.txn := some (.configure s.rck.activePeriod) }
    | .sampling => s
  else s

/-- The Run's profile read has values still to hand over (R15, R174, R181). -/
def runReading (s : State) : Bool :=
  match s.hp.reading with
  | none => false
  | some r => r.atRun

/-- The first identity read of a Run, once the profile's values are installed (R15, log 25). -/
def muIdentify (s : State) : State := if runReading s then s else muBegin s

/-- The link enters Off (R23). -/
def muGoOff (s : State) : State :=
  { s with mu.link := .off, mu.leaving := false, mu.discard := false, mu.missed := [], mu.detector := .disabled }

/-- The part leaves Mounting or Running: Off, after a transaction in flight has finished (R18, R23). -/
def muLeave (s : State) : State :=
  if s.mu.link = .off then s
  else if s.mu.txn = none then muGoOff s else { s with mu.leaving := true }

/-- The Stop command takes the part out of Mounting or Running: a Declared run ends and its mark is posted, a Counting
run is abandoned (R23, R31). -/
def muStop (s : State) : State :=
  let s := if s.mu.detector = .declared then muEndRun s.now s else s
  muLeave { s with mu.detector := .disabled, mu.impactRun := 0 }

/-- The reset of MU, after a transaction in flight has finished (R36). -/
def muReset (s : State) : State :=
  if s.mu.txn = none then { s with mu := Mu.reset } else { s with mu.resetDue := true }

/-- The missed ticks, oldest first, each as a missing sample; the list is emptied (R18). -/
def muMissed (s : State) : State :=
  s.mu.missed.foldl (fun s t => muMissing t s) { s with mu.missed := [] }

/-- A transaction ends: a result to be discarded is, and otherwise its sample and the missed ticks are processed (R18,
R23, R36). -/
def muTxnEnd (act : State → State) (s : State) : State :=
  let s := { s with mu.txn := none }
  if s.mu.resetDue then { s with mu := Mu.reset }
  else if s.mu.leaving then muGoOff s
  else if s.mu.discard then muIdentify { s with mu.discard := false, mu.missed := [] }
  else muBegin (muMissed (act s))

/-- The link enters Absent (R15). -/
def muAbsent (s : State) : State :=
  State.raise { s with mu.link := .absent, mu.detector := .disabled } .imuState

/-- A failed attempt of Identify or Configure (R15, R16). -/
def muAttempt (s : State) : State :=
  let s := { s with mu.attempts := s.mu.attempts + 1 }
  if 3 ≤ s.mu.attempts then muAbsent s else s

/-- A failed rate write of Configure; a further write is for the same period (R16, R22). -/
def muConfigureFailed (period : Nat) (s : State) : State :=
  let s := muAttempt s
  if s.mu.link = .absent then s else { s with mu.txn := some (.configure period) }

/-- The identity response ends the Identify phase (R15). -/
def muIdentified (s : State) : State := { s with mu.phase := .configure, mu.attempts := 0 }

/-- The rate write ends the Configure phase (R16, R30). The rate configuration is then Current, as it has been since the
Run, unless R22 has marked it Due in this phase (log 33). -/
def muConfigured (s : State) : State :=
  { s with
    mu.phase := .sampling
    mu.detector := if s.mu.params.impactThreshold = noThreshold then .disabled else .armed }

/-- The identity value of the supported IMU (R15). -/
def imuIdentity : Byte := 0x9E

/-- An identity read ends with a response (R15). -/
def muIdentityDone (response : Byte) (s : State) : State :=
  match s.mu.txn with
  | some .identity => muTxnEnd (if response = imuIdentity then muIdentified else muAttempt) s
  | _ => s

/-- A rate write ends with a read-back (R16, R22). The outcome of a transaction whose result is discarded leaves the rate
configuration as it is (R18). -/
def muRateDone (readBack : Byte) (s : State) : State :=
  match s.mu.txn with
  | some (.configure p) =>
    muTxnEnd (if readBack = Config.rateSetting p then muConfigured else muConfigureFailed p) s
  | some (.rateThenBurst p t) =>
    if readBack = Config.rateSetting p then
      { s with
        mu.txn := some (.burst t)
        mu.rateDue :=
          if s.mu.discard ∨ s.mu.leaving ∨ s.mu.resetDue then s.mu.rateDue else decide (s.rck.activePeriod ≠ p) }
    else muTxnEnd (muMissing t) s
  | _ => s

/-- What a complete burst yields (R17). -/
def burstResult (m : Mu) (b : Burst) : SampleResult :=
  if m.lastCounter = some (burstCounter b) then .missing else .good (burstSample b)

/-- A complete sample burst ends (R17, R18). -/
def muBurstDone (b : Burst) (s : State) : State :=
  match s.mu.txn with
  | some (.burst t) =>
    muTxnEnd (fun s => muSample t (burstResult s.mu b) { s with mu.lastCounter := some (burstCounter b) }) s
  | _ => s

/-- The transaction in flight gets no response (R14). -/
def muNoResponse (s : State) : State :=
  match s.mu.txn with
  | none => s
  | some .identity => muTxnEnd muAttempt s
  | some (.configure p) => muTxnEnd (muConfigureFailed p) s
  | some (.rateThenBurst _ t) => muTxnEnd (muMissing t) s
  | some (.burst t) => muTxnEnd (muMissing t) s

/-! ### Ticks and parameters -/

/-- The link takes samples: the Sampling phase of Starting, Tracking or Lost (R14). -/
def muSamples (m : Mu) : Bool :=
  (decide (m.link = .starting) && decide (m.phase = .sampling)) || decide (m.link = .tracking)
    || decide (m.link = .lost)

/-- A sample period was installed at this tick (R22). -/
def muPeriodInstalled (s : State) : State :=
  if muSamples s.mu ∨ (s.mu.link = .starting ∧ s.mu.phase = .configure) then { s with mu.rateDue := true } else s

/-- A sample tick (R14 to R16, R18, R22, R29). -/
def muTick (t : Nat) (s : State) : State :=
  if s.mu.leaving ∨ s.mu.link = .off then s
  else if muSamples s.mu then
    if s.mu.txn.isSome then { s with mu.missed := s.mu.missed ++ [t] }
    else if s.mu.rateDue then { s with mu.txn := some (.rateThenBurst s.rck.activePeriod t) }
    else { s with mu.txn := some (.burst t) }
  else puPass ⟨t, s.mu.link, none, .missing, false⟩ s

/-- Entry to Starting at a Run (R15); a transaction still in flight is discarded when it ends (R18), and a reset that
waits for it takes effect now (R36). The identity reads begin once the profile's values are installed (`muInstallRun`,
log 25). -/
def muEnterStarting (s : State) : State :=
  let m := if s.mu.resetDue then { Mu.reset with txn := s.mu.txn } else s.mu
  { s with
    mu := { m with
      link := .starting, phase := .identify, attempts := 0, goodRun := 0, missingRun := 0, lastCounter := none,
      lastGood := none, rateDue := false, missed := [], stillRun := 0, stillSums := Axes.zero, acc := Axes.zero,
      lastTime := none, detector := .disabled, marks := [], impacts := 0, merged := 0, leaving := false,
      discard := m.txn.isSome } }

/-- The detector at an installation (R33). -/
def muInstallThreshold (s : State) : State :=
  if s.mu.params.impactThreshold = noThreshold then
    let s := if s.mu.detector = .declared then muEndRun s.now s else s
    { s with mu.detector := .disabled, mu.impactRun := 0 }
  else if s.mu.detector = .disabled ∧ muSamples s.mu then { s with mu.detector := .armed }
  else s

/-- The profile values of a Run are installed, and the identity reads begin (R15, R26, R33, log 25). -/
def muInstallRun (p : MuParams) (bias : Axes) (s : State) : State :=
  muIdentify (muInstallThreshold
    { s with mu.params := p, mu.bias := bias, mu.pending := none, mu.stillRun := 0, mu.stillSums := Axes.zero })

/-- Install the pending motion parameters at an accepted frame-start (R26, R33). -/
def muInstallPending (s : State) : State :=
  match s.mu.pending with
  | none => s
  | some p =>
    muInstallThreshold
      { s with mu.params := p, mu.pending := none, mu.stillRun := 0, mu.stillSums := Axes.zero }

/-! ### Commands -/

/-- An identity read ends (R15). -/
def bodyIdentityReadDone (t : Stamp) (response : Byte) (s : State) : State :=
  muIdentityDone response (s.advance t.toNat)

/-- A rate write ends (R16, R22). -/
def bodyRateWriteDone (t : Stamp) (readBack : Byte) (s : State) : State := muRateDone readBack (s.advance t.toNat)

/-- A sample burst ends (R18). -/
def bodySampleBurstDone (t : Stamp) (b : Burst) (s : State) : State := muBurstDone b (s.advance t.toNat)

/-- A transaction misses its response limit (R14). -/
def bodyImuResponseTimeout (t : Stamp) (s : State) : State := muNoResponse (s.advance t.toNat)

/-- An identity read or a rate write ends, with a response or none (R15, R16). -/
def bodyAttempt (t : Stamp) (response : Option Byte) (s : State) : State :=
  match response with
  | none => bodyImuResponseTimeout t s
  | some b =>
    match s.mu.txn with
    | some .identity => bodyIdentityReadDone t b s
    | _ => bodyRateWriteDone t b s

/-- A burst ends, complete or with no response (R17). -/
def bodyBurst (t : Stamp) (burst : Option Burst) (s : State) : State :=
  match burst with
  | none => bodyImuResponseTimeout t s
  | some b => bodySampleBurstDone t b s

/-- The transaction in flight belongs to Identify or Configure. -/
def attemptInFlight (m : Mu) : Bool :=
  match m.txn with
  | some .identity => true
  | some (.configure _) => true
  | _ => false

/-- This burst's sample completes the still run (R24, R25). -/
def stillCompletes (m : Mu) (b : Burst) : Bool :=
  (match m.txn with | some (.burst _) => true | _ => false)
    && !m.leaving && !m.discard && !m.resetDue && decide (m.link = .tracking) && m.params.biasEnable
    && decide (m.lastCounter ≠ some (burstCounter b)) && isStill m (burstSample b).gyro
    && decide (m.params.window ≤ m.stillRun + 1)

end Sys2Proof.Machine
end

