-- ==== Sys2Proof/Machine/Clock.lean ====
section
/-! DEFINITION. The Ride Clock (Section 1): the sample timer (R4, R5), the frame filter (R7, R8), glitches and accepted
frame-starts (R9 to R11), the silence timer (R12). -/

namespace Sys2Proof.Machine

/-! ### Sample timer -/

/-- Arm the sample timer at a Run (R4). -/
def rckArm (s : State) : State :=
  let p := s.rck.pendingPeriod.getD s.rck.activePeriod
  { s with rck.activePeriod := p, rck.pendingPeriod := none, rck.sampleTimer := some (s.now + p) }

/-- The part leaves Running or Mounting: the sample timer stops and the filter goes Off (R4, R8, R12). -/
def rckStop (s : State) : State :=
  { s with rck.sampleTimer := none, rck.filter := .off, rck.filterRun := 0, rck.silence := none }

/-- A sample tick (R5). -/
def bodySampleTick (s : State) : State :=
  match s.rck.sampleTimer with
  | none => s
  | some t =>
    let s := s.advance t
    let installed := s.rck.pendingPeriod.isSome
    let p := s.rck.pendingPeriod.getD s.rck.activePeriod
    let s := { s with rck.activePeriod := p, rck.pendingPeriod := none, rck.sampleTimer := some (t + p) }
    muTick t (if installed then muPeriodInstalled s else s)

/-! ### Frame filter -/

/-- The filter opens at the entry to Running (R8). -/
def rckOpenFilter (s : State) : State :=
  { s with
    rck.filter := if s.rck.line then .high else .low
    rck.filterRun := 0, rck.nextFrame := .number 0, rck.lastAccepted := none, rck.lastInterval := none,
    rck.glitches := 0, rck.silence := none }

/-- A qualified edge is a glitch (R9), or no number is left (R10). -/
def isGlitch (r : Rck) (t : Nat) : Bool :=
  decide (r.nextFrame = .exhausted) ||
    (match r.lastAccepted with
     | none => false
     | some l => decide (t - l < r.minInterval))

/-- The frame number after `n` (R10). -/
def followingFrame (n : Nat) : FrameNumber := if n + 1 < 2 ^ 32 then .number (n + 1) else .exhausted

/-- The frame interval of an edge accepted at `t` (R10). -/
def frameInterval (r : Rck) (t : Nat) : Option Nat :=
  if r.silence.isSome then r.lastAccepted.map fun l => t - l else none

/-- RCK's six steps for an accepted frame-start (R10 to R12). -/
def rckAccept (n t : Nat) (s : State) : State :=
  let i := frameInterval s.rck t
  { s with
    rck.lastInterval := i
    rck.lastAccepted := some t
    rck.silence := some (t + 4 * i.getD 100000)
    rck.nextFrame := followingFrame n
    rck.filterLength := s.rck.pendingFilterLength.getD s.rck.filterLength
    rck.pendingFilterLength := none
    rck.minInterval := s.rck.pendingMinInterval.getD s.rck.minInterval
    rck.pendingMinInterval := none }

/-- One delivery of an accepted frame-start (R10, R26, R40, R111). -/
def frameDelivery (n t : Nat) (d : FrameDelivery) (s : State) : State :=
  match d with
  | .motion => muInstallPending s
  | .path => puFrameStart n t s
  | .writer => cwService s

/-- A qualified edge: a glitch, or an accepted frame-start and its deliveries (R9, R10). -/
def rckQualified (order : List FrameDelivery) (s : State) : State :=
  let t := s.now
  let s := { s with rck.filter := .high, rck.filterRun := 0 }
  if isGlitch s.rck t then { s with rck.glitches := satInc s.rck.glitches }
  else
    match s.rck.nextFrame with
    | .exhausted => s
    | .number n => (frameOrder order).foldl (fun s d => frameDelivery n t d s) (rckAccept n t s)

/-- The line has stayed high until the run reaches F (R7). -/
def bodyFrameStart (order : List FrameDelivery) (s : State) : State :=
  if s.rck.filter = .qualifying then
    rckQualified order (s.advance (s.now + (s.rck.filterLength - s.rck.filterRun)))
  else s

/-- The line's new level reaches the filter (R7). -/
def rckSample (high : Bool) (order : List FrameDelivery) (s : State) : State :=
  match s.rck.filter, high with
  | .low, true =>
    if s.rck.filterLength = 0 then rckQualified order s
    else { s with rck.filter := .qualifying, rck.filterRun := 0 }
  | .qualifying, false => { s with rck.filter := .low, rck.filterRun := 0 }
  | .high, false => { s with rck.filter := .low }
  | _, _ => s

/-- The frame-start line changes level (R7); each command is one sample of the line, be it in the same microsecond as the
one before (log 45). -/
def bodyLineChange (t : Stamp) (high : Bool) (order : List FrameDelivery) (s : State) : State :=
  let s := s.advance t.toNat
  rckSample high order { s with rck.line := high }

/-! ### Silence -/

/-- The silence timer expires (R12). -/
def bodySilenceExpiry (s : State) : State :=
  match s.rck.silence with
  | none => s
  | some e =>
    let s := s.advance e
    puBreak { s with rck.lastInterval := none, rck.silence := none }

end Sys2Proof.Machine
end

