-- ==== Sys2Proof/Machine/Gauge.lean ====
section
/-! DEFINITION. The Gauge (Section 8): the charge count (R154, R155, R158), reported values (R156), levels (R159,
R160), cutoff and the release of the system rail (R161, R162), and its arrival (R153). -/

namespace Sys2Proof.Machine

/-- mA·ticks in one mAh (R156). -/
def ticksPerMah : Nat := 360000

/-- Qcap (Table 8-1). -/
def gaQcap (p : GaParams) : Nat := p.capacity * ticksPerMah

/-- The remaining capacity in mAh (R156). -/
def gaRemaining (g : Ga) : Nat := g.q / ticksPerMah

/-- The state of charge in percent (R156). -/
def gaSoc (g : Ga) : Nat := g.q * 100 / gaQcap g.params

/-- Table 8-2: voltage in mV, charge in percent. -/
def voltageTable : List (Nat × Nat) :=
  [(3300, 0), (3450, 5), (3600, 10), (3700, 25), (3750, 40), (3800, 50), (3850, 60), (3950, 75), (4050, 85),
    (4150, 95), (4200, 100)]

/-- The count that the fraction of capacity between two points of Table 8-2 gives, floored once (R155): the percentage
p0 + (p1 − p0)(V − V0)/(V1 − V0) of Qcap. -/
def chargeBetween (cap v v0 p0 v1 p1 : Nat) : Nat :=
  cap * (p0 * (v1 - v0) + (p1 - p0) * (v - v0)) / ((v1 - v0) * 100)

/-- The count by the first pair of neighbouring points that holds `v` (R155). -/
def chargeFrom (cap v : Nat) : List (Nat × Nat) → Nat
  | (v0, p0) :: (v1, p1) :: rest =>
    if v < v1 then chargeBetween cap v v0 p0 v1 p1 else chargeFrom cap v ((v1, p1) :: rest)
  | _ => cap

/-- The power-up estimate of Q from Vbat (R155). -/
def chargeEstimate (cap : Nat) (v : Int) : Nat :=
  if v ≤ 3300 then 0 else if 4200 ≤ v then cap else chargeFrom cap v.toNat voltageTable

/-- Integrate a reading (R154). -/
def chargeAfter (cap q : Nat) (ibat : Int) : Nat := (clampInt 0 cap ((q : Int) + ibat)).toNat

/-- The hold has ended (R161). -/
def holdEnded (g : Ga) : Bool := decide (4 ≤ g.hold)

/-- The level by the conditions of R159, in order. -/
def gaLevel (g : Ga) : GaugeLevel :=
  if g.level = .cutoff then .cutoff
  else if holdEnded g ∧ !g.present ∧ g.cutoffCount = 4 then .cutoff
  else if holdEnded g ∧ !g.present ∧ g.q ≤ g.params.reserve * ticksPerMah then .reserve
  else if g.level = .reserve ∧ !g.present ∧ g.q ≤ (g.params.reserve + 10) * ticksPerMah then .reserve
  else if gaSoc g ≤ 15 then .low
  else .normal

/-- A stop event handed to the Clip Writer, and the writer's work (R131). -/
def cwSignal (cause : StopCause) (s : State) : State :=
  if s.resetting then s else cwRun (cwStopEvent cause s)

/-- The cutoff sequence begins (R161); the writer's close, and the snapshot that follows it, come before the check
(log 65). -/
def gaCutoff (s : State) : State :=
  let s := cwSignal .cutoff { s with ga.q := 0 }
  gaCheck { s with ga.grace := some 200 }

/-- Find the level; a change raises GaugeLevel, an entry to Reserve is handed to the Clip Writer, and an entry to
Cutoff begins the cutoff sequence (R159 to R161). -/
def gaFindLevel (s : State) : State :=
  let l := gaLevel s.ga
  if l = s.ga.level then s
  else
    let s := State.raise { s with ga.level := l } .gaugeLevel
    match l with
    | .reserve => cwSignal .reserve s
    | .cutoff => gaCutoff s
    | _ => s

/-- The Charge Controller hands over a change of the input qualification (R157). -/
def gaQualification (present : Bool) (s : State) : State :=
  gaFindLevel
    { s with ga.present := present, ga.cutoffCount := if present then 0 else s.ga.cutoffCount }

/-- The Charge Controller tells of an entry to Done (R158). -/
def gaFull (s : State) : State := gaFindLevel { s with ga.q := gaQcap s.ga.params }

/-- Install the pending gauge values, and find the level (R159, R164). -/
def gaInstall (s : State) : State :=
  match s.ga.pending with
  | none => s
  | some p =>
    gaFindLevel
      { s with
        ga.q := s.ga.q * p.capacity / s.ga.params.capacity, ga.params := p, ga.pending := none }

/-- Estimate or integrate (R153, step 2). -/
def gaCount (m : Measurement) (s : State) : State :=
  if s.ga.estimated then { s with ga.q := chargeAfter (gaQcap s.ga.params) s.ga.q m.ibat }
  else { s with ga.q := chargeEstimate (gaQcap s.ga.params) m.vbat, ga.estimated := true }

/-- Advance the start-up hold and then the cutoff count (R153, step 3; R161). -/
def gaAdvance (m : Measurement) (s : State) : State :=
  let hold := min 4 (s.ga.hold + 1)
  let low := decide (hold = 4) && !s.ga.present && decide (m.vbat ≤ s.ga.params.cutoff)
  { s with ga.hold := hold, ga.cutoffCount := if low then min 4 (s.ga.cutoffCount + 1) else 0 }

/-- The grace timer's tick and the check, in a sequence that ran before this arrival (R153, step 5; R162). -/
def gaGraceTick (s : State) : State :=
  match s.ga.grace with
  | none => s
  | some g =>
    let s := { s with ga.grace := some (g - 1) }
    if g ≤ 1 then { s with ga.sysen := false } else gaCheck s

/-- The Gauge's measurement arrival (R153). -/
def gaArrival (m : Measurement) (s : State) : State :=
  let running := s.ga.grace.isSome
  let s := gaFindLevel (gaAdvance m (gaCount m (gaInstall s)))
  if running then gaGraceTick s else s

end Sys2Proof.Machine
end

