-- ==== Sys2Proof/Machine/Charge.lean ====
section
/-! DEFINITION. The Charge Controller's measurement arrival (R134): installation (R151), qualification (R135 to R137),
zone (R140, R141), droop regulation (R138), budget (R139), safety timers (R147), the state machine (R142 to R146,
R148), the setpoint (R149). -/

namespace Sys2Proof.Machine

/-! ### Step 1 -/

/-- Install the pending power values (R151): whether a fault clear is among them, and the state after. -/
def ccInstall (s : State) : Bool × State :=
  match s.cc.pending with
  | none => (false, s)
  | some p =>
    (p.faultClear, { s with cc.params := p, cc.pending := none, cc.inputLimit := min s.cc.inputLimit p.inputMax })

/-! ### Step 2 -/

/-- An input above 6,500 mV (R136). -/
def overInput (m : Measurement) : Bool := decide (6500 < m.vin)

/-- The InputOvervoltage flag (R136). -/
def ccOvervoltageFlag (m : Measurement) (s : State) : State :=
  if overInput m ∧ !s.cc.overvoltage then State.raise { s with cc.overvoltage := true } .inputChange else s

/-- The qualification becomes Absent (R137). -/
def ccLoss (s : State) : State :=
  gaQualification false (State.raise
    { s with
      cc.present := false, cc.qualifyCount := 0, cc.inputLimit := s.cc.params.inputMax, cc.prechargeTimer := 0,
      cc.fastTimer := 0, cc.terminationCount := 0, cc.rechargeCount := 0, cc.overvoltageCount := 0, cc.cause := .none,
      cc.taper := 0 } .inputChange)

/-- The qualification becomes Present (R137); the adjustment begins from the input maximum (R138). -/
def ccQualified (s : State) : State :=
  gaQualification true (State.raise
    { s with
      cc.present := true, cc.qualifyCount := 0, cc.overvoltage := false, cc.inputLimit := s.cc.params.inputMax }
    .inputChange)

/-- Judge the Vin reading against the qualification (R135). -/
def ccQualify (m : Measurement) (s : State) : State :=
  if vinInRange m.vin = s.cc.present then { s with cc.qualifyCount := 0 }
  else if s.cc.qualifyCount + 1 < 4 then { s with cc.qualifyCount := s.cc.qualifyCount + 1 }
  else if s.cc.present then ccLoss s
  else ccQualified s

/-! ### Step 3 -/

/-- The new zone (R140). -/
def zoneAfter (z : Zone) (t : Int) : Zone :=
  if t > 110 ∨ (z = .hot ∧ t > 106) then .hot
  else if t > 90 ∨ ((z = .warm ∨ z = .hot) ∧ t > 86) then .warm
  else if t < 0 ∨ (z = .cold ∧ t < 4) then .cold
  else if t < 20 ∨ ((z = .cool ∨ z = .cold) ∧ t < 24) then .cool
  else .normal

/-- The thermistor and the zone (R140). -/
def ccZone (m : Measurement) (s : State) : State :=
  if m.tcell < -80 ∨ 200 < m.tcell then { s with cc.noThermistor := true }
  else { s with cc.noThermistor := false, cc.zone := zoneAfter s.cc.zone m.tcell }

/-- Charging is held off by temperature (R142, R143). -/
def thermalStop (c : Cc) : Bool := c.noThermistor || decide (c.zone = .cold) || decide (c.zone = .hot)

/-- The zone limit (R141). -/
def zoneLimit (c : Cc) : Nat :=
  if thermalStop c then 0 else if c.zone = .cool then c.params.fast / 2 else c.params.fast

/-- The zone-adjusted fast current (R145). -/
def zoneFast (c : Cc) : Nat := if c.zone = .cool then c.params.fast / 2 else c.params.fast

/-- The effective target (R141). -/
def effectiveTarget (c : Cc) : Int := if c.zone = .warm then (c.params.target : Int) - 150 else c.params.target

/-! ### Steps 4 and 5 -/

/-- Droop regulation (R138); the arrival that makes the qualification Absent finds it so. -/
def ccDroop (m : Measurement) (s : State) : State :=
  if s.cc.present then
    if m.vin < s.cc.params.floor then { s with cc.inputLimit := max 100 (s.cc.inputLimit - 50) }
    else if (s.cc.params.floor : Int) + 100 ≤ m.vin then
      { s with cc.inputLimit := min s.cc.params.inputMax (s.cc.inputLimit + 25) }
    else s
  else s

/-- The system power (R139). -/
def systemPower (s : State) : Nat := s.cc.params.cameraLoad + (if railOn s.fe.rail then s.cc.params.flashLoad else 0)

/-- The budget (R139). -/
def budgetOf (m : Measurement) (s : State) : Nat :=
  let pin := m.vin.toNat * s.cc.inputLimit / 1000
  let pchg := pin * 9 / 10 - systemPower s
  if s.cc.present ∧ !overInput m then pchg * 1000 / max m.vbat.toNat 2500 else 0

/-- The budget of this arrival (R139). -/
def ccBudget (m : Measurement) (s : State) : State := { s with cc.budget := budgetOf m s }

/-! ### Step 6 -/

/-- The precharge timer's limit (R147). -/
def prechargeLimit : Nat := 180000

/-- The fast timer's limit (R147). -/
def fastLimit : Nat := 1800000

/-- The safety timers count charging ticks (R147). -/
def ccTimers (s : State) : State :=
  if s.cc.setpoint = 0 then s
  else match s.cc.charge with
    | .precharge => { s with cc.prechargeTimer := min prechargeLimit (s.cc.prechargeTimer + 1) }
    | .fast => { s with cc.fastTimer := min fastLimit (s.cc.fastTimer + 1) }
    | .taper => { s with cc.fastTimer := min fastLimit (s.cc.fastTimer + 1) }
    | _ => s

/-! ### Step 7 -/

/-- Overvoltage of the battery is judged in this state (R148). -/
def judgesOvervoltage : ChargeState → Bool
  | .qualify => true | .precharge => true | .fast => true | .taper => true | .done => true | .suspended => true
  | _ => false

/-- The overvoltage count (R148); an arrival that finds the input Absent leaves it cleared (R137, log 19). -/
def ccOvervoltageCount (m : Measurement) (s : State) : State :=
  let isOver := s.cc.present && judgesOvervoltage s.cc.charge && decide ((s.cc.params.target : Int) + 150 < m.vbat)
  { s with cc.overvoltageCount := if isOver then min 4 (s.cc.overvoltageCount + 1) else 0 }

/-- A change of the charge state raises ChargerState (R142). -/
def ccEnter (st : ChargeState) (s : State) : State := State.raise { s with cc.charge := st } .chargerState

/-- Entry to Fault (R148). -/
def ccFault (cause : FaultCause) (s : State) : State :=
  State.raise (ccEnter .fault { s with cc.cause := cause }) .chargerFault

/-- Inhibited or Qualify, by the charge enable (R142). -/
def ccBegin (s : State) : State := ccEnter (if s.cc.params.enable then .qualify else .inhibited) s

/-- A fault clear (R142, step 3). -/
def ccFaultClear (s : State) : State :=
  ccBegin { s with cc.cause := .none, cc.prechargeTimer := 0, cc.fastTimer := 0, cc.overvoltageCount := 0 }

/-- Entry to Taper (R144, R146): the level is the setpoint in force. -/
def ccEnterTaper (s : State) : State :=
  ccEnter .taper { s with cc.taper := s.cc.setpoint, cc.terminationCount := 0, cc.rechargeCount := 0 }

/-- Entry to Done (R146); the Gauge is told (R158). -/
def ccEnterDone (s : State) : State :=
  gaFull (ccEnter .done
    { s with
      cc.prechargeTimer := 0, cc.fastTimer := 0, cc.terminationCount := 0, cc.rechargeCount := 0, cc.taper := 0 })

/-- The taper level after its adjustment (R145). -/
def taperAfter (c : Cc) (m : Measurement) : Nat :=
  if effectiveTarget c < m.vbat then c.taper - 25
  else if m.vbat < effectiveTarget c - 10 then min (c.taper + 25) (zoneFast c)
  else c.taper

/-- The termination count after a tick (R146). -/
def terminationAfter (c : Cc) (m : Measurement) (level : Nat) : Nat :=
  if (c.params.termination : Int) < m.ibat then 0
  else if level ≤ c.budget then c.terminationCount + 1
  else c.terminationCount

/-- An arrival in Taper: the level, then termination (R145, R146). -/
def ccTaper (m : Measurement) (s : State) : State :=
  let level := taperAfter s.cc m
  let n := terminationAfter s.cc m level
  if 16 ≤ n then ccEnterDone s else { s with cc.taper := level, cc.terminationCount := n }

/-- An arrival in Done: recharge (R146). -/
def ccDone (m : Measurement) (s : State) : State :=
  if m.vbat < effectiveTarget s.cc - 100 then
    if 4 ≤ s.cc.rechargeCount + 1 then
      ccEnter (if thermalStop s.cc then .suspended else .fast) { s with cc.rechargeCount := 0 }
    else { s with cc.rechargeCount := s.cc.rechargeCount + 1 }
  else { s with cc.rechargeCount := 0 }

/-- The exit of the current state (R142, step 9; R143 to R146). -/
def ccExit (m : Measurement) (s : State) : State :=
  match s.cc.charge with
  | .qualify =>
    if thermalStop s.cc then ccEnter .suspended s
    else if m.vbat < 3000 then ccEnter .precharge s else ccEnter .fast s
  | .precharge => if 3000 ≤ m.vbat then ccEnter .fast s else s
  | .fast => if effectiveTarget s.cc ≤ m.vbat then ccEnterTaper s else s
  | .taper => ccTaper m s
  | .done => ccDone m s
  | .suspended => if thermalStop s.cc then s else ccEnter .qualify s
  | _ => s

/-- Charge current flows in this state (R142, step 8). -/
def isCharging : ChargeState → Bool
  | .precharge => true | .fast => true | .taper => true
  | _ => false

/-- The state has a charge enable to obey (R142, step 4). -/
def obeysEnable : ChargeState → Bool
  | .noInput => false | .inhibited => false | .fault => false
  | _ => true

/-- The one transition of an arrival, the first that applies (R142). Its step 7 names no state: a timer that reached its limit
at the arrival that made the state Inhibited makes it Fault at a later one (log 71). -/
def ccTransition (clear : Bool) (m : Measurement) (s : State) : State :=
  if !s.cc.present ∧ s.cc.charge ≠ .noInput then ccEnter .noInput s
  else if s.cc.present ∧ s.cc.charge = .noInput then ccBegin s
  else if s.cc.charge = .fault then (if clear then ccFaultClear s else s)
  else if obeysEnable s.cc.charge ∧ !s.cc.params.enable then ccEnter .inhibited s
  else if s.cc.charge = .inhibited ∧ s.cc.params.enable then ccEnter .qualify s
  else if s.cc.overvoltageCount = 4 then ccFault .batteryOvervoltage s
  else if s.cc.prechargeTimer = prechargeLimit then ccFault .prechargeTimer s
  else if s.cc.fastTimer = fastLimit then ccFault .fastTimer s
  else if isCharging s.cc.charge ∧ thermalStop s.cc then ccEnter .suspended s
  else ccExit m s

/-! ### Step 8 -/

/-- The state limit (Table 7-2). -/
def stateLimit (c : Cc) : Nat :=
  match c.charge with
  | .precharge => 100
  | .fast => c.params.fast
  | .taper => c.taper
  | _ => 0

/-- The setpoint of an arrival (R149). -/
def setpointOf (c : Cc) : Nat := min c.budget (min (stateLimit c) (zoneLimit c))

/-- The new setpoint (R149). -/
def ccSetpoint (s : State) : State := { s with cc.setpoint := setpointOf s.cc }

/-- The Charge Controller's measurement arrival, in the eight steps of R134. -/
def ccArrival (m : Measurement) (s : State) : State :=
  let i := ccInstall { s with cc.latest := some m }
  let s := ccQualify m (ccOvervoltageFlag m i.2)
  let s := ccTimers (ccBudget m (ccDroop m (ccZone m s)))
  ccSetpoint (ccTransition i.1 m (ccOvervoltageCount m s))

end Sys2Proof.Machine
end

