-- ==== Sys2Proof/Machine/Profile.lean ====
section
/-! DEFINITION. The directory and the profiles (R173, R174, Section 11.3): how HP reads them, clamps each field against
Table 9-5, keeps the clamp record, and hands the values to the blocks at Run and at a reload (Table 9-6). -/

namespace Sys2Proof.Machine

/-! ### Extents -/

/-- An offset with its low 4 bits taken as 0 (R173, R186). -/
def alignedOffset (v : Nat) : Nat := v / 16 * 16

/-- The record at an offset: none when the offset is 0 or the record would pass the end of the Buffer RAM (R173). -/
def placed (offset size : Nat) : Option Nat :=
  if alignedOffset offset = 0 ∨ ramBytes < alignedOffset offset + size then none else some (alignedOffset offset)

/-- The record would pass the end of the Buffer RAM (R173). -/
def misplaced (offset size : Nat) : Bool :=
  decide (alignedOffset offset ≠ 0) && decide (ramBytes < alignedOffset offset + size)

/-- A 32-bit directory field (Table 11-3). -/
def dirField (s : State) (directory field : Nat) : Nat := s.readField (directory + field) 4

/-! ### Profile fields -/

/-- A field read with its range: the value after its clamp, and whether it was clamped (R174). -/
def ranged (lo hi v : Int) : Int × Bool := (clampInt lo hi v, decide (clampInt lo hi v ≠ v))

/-- A 16-bit unsigned field against its range. -/
def fieldU (s : State) (a : Nat) (lo hi : Int) : Nat × Bool :=
  let r := ranged lo hi (s.readField a 2)
  (r.1.toNat, r.2)

/-- A 16-bit signed field against its range. -/
def fieldS (s : State) (a : Nat) (lo hi : Int) : Int × Bool := ranged lo hi (signedOf 16 (s.readField a 2))

/-- A 32-bit unsigned field against its range. -/
def fieldW (s : State) (a : Nat) (lo hi : Int) : Nat × Bool :=
  let r := ranged lo hi (s.readField a 4)
  (r.1.toNat, r.2)

/-- A flag field: 1 when nonzero, never a clamp (R174). -/
def fieldF (s : State) (a : Nat) : Bool := decide (s.readField a 2 ≠ 0)

/-- The impact threshold: 0xFFFF is kept (R30, R174). -/
def fieldThreshold (s : State) (a : Nat) : Nat × Bool :=
  if s.readField a 2 = noThreshold then (noThreshold, false) else fieldU s a 16 255

/-- The sample period of a code (R6). -/
def periodOf (code : Nat) : Nat := if code = 0 then 500 else if code = 1 then 1000 else 2000

/-- The defaults of Table 9-5. -/
def MotionProfile.default : MotionProfile := ⟨1000, 2, 8000, MuParams.default, Axes.zero, PuParams.default⟩

/-- The defaults of Table 9-5. -/
def StorageProfile.default : StorageProfile := ⟨SmParams.default, 1000, 5, 50⟩

/-- The defaults of Table 9-5. -/
def PowerProfile.default : PowerProfile := ⟨CcParams.default, GaParams.default⟩

/-- Read the motion profile at an offset (Table 11-4): its values, and whether a field was clamped. -/
def readMotion (s : State) (a : Nat) : MotionProfile × Bool :=
  let code := fieldU s a 0 2
  let f := fieldU s (a + 2) 0 8
  let mi := fieldW s (a + 4) 4000 100000
  let still := fieldU s (a + 10) 1 255
  let by_ := fieldS s (a + 12) (-320) 320
  let bp := fieldS s (a + 14) (-320) 320
  let br := fieldS s (a + 16) (-320) 320
  let w := fieldU s (a + 18) 256 8192
  let thr := fieldThreshold s (a + 20)
  let p := fieldU s (a + 22) 1 8
  let ho := fieldU s (a + 24) 0 10000
  let l := fieldU s (a + 26) 0 15
  let e := fieldS s (a + 28) (-32768) 32767
  let k := fieldU s (a + 30) 256 32767
  let mx := fieldU s (a + 32) 0 1023
  let my := fieldU s (a + 34) 0 1023
  let rm := fieldU s (a + 36) 0 1500
  ({ period := periodOf code.1, filterLength := f.1, minInterval := mi.1,
     mu := { biasEnable := fieldF s (a + 8), stillThreshold := still.1, window := w.1, impactThreshold := thr.1,
             persistence := p.1, holdOff := ho.1 },
     bias := ⟨by_.1, bp.1, br.1⟩,
     pu := { lookAhead := l.1, exposure := e.1, pixelsPerDegree := k.1, marginX := mx.1, marginY := my.1,
             rollMax := rm.1 } },
    code.2 || f.2 || mi.2 || still.2 || by_.2 || bp.2 || br.2 || w.2 || thr.2 || p.2 || ho.2 || l.2 || e.2 || k.2
      || mx.2 || my.2 || rm.2)

/-- Read the storage profile at an offset (Table 11-4). -/
def readStorage (s : State) (a : Nat) : StorageProfile × Bool :=
  let bps := fieldU s a 16 256
  let pre := fieldU s (a + 2) 0 60
  let lim := fieldU s (a + 4) 1 64
  let cm := fieldU s (a + 6) 250 5000
  let st := fieldU s (a + 8) 1 50
  let il := fieldU s (a + 10) 0 255
  ({ sm := ⟨bps.1, pre.1, lim.1⟩, commitMs := cm.1, settleMs := st.1, idleLoad := il.1 },
    bps.2 || pre.2 || lim.2 || cm.2 || st.2 || il.2)

/-- Read the power profile at an offset (Table 11-4). -/
def readPower (s : State) (a : Nat) : PowerProfile × Bool :=
  let im := fieldU s (a + 4) 500 3000
  let df := fieldU s (a + 6) 4300 5500
  let fc := fieldU s (a + 8) 100 2000
  let ct := fieldU s (a + 10) 4000 4400
  let tc := fieldU s (a + 12) 10 200
  let cl := fieldU s (a + 14) 0 10000
  let fl := fieldU s (a + 16) 0 2000
  let cap := fieldU s (a + 18) 500 5000
  let rs := fieldU s (a + 20) 0 200
  let cv := fieldU s (a + 22) 3000 3500
  ({ cc := { enable := fieldF s a, faultClear := fieldF s (a + 2), inputMax := im.1, floor := df.1, fast := fc.1,
             target := ct.1, termination := tc.1, cameraLoad := cl.1, flashLoad := fl.1 },
     ga := ⟨cap.1, rs.1, cv.1⟩ },
    im.2 || df.2 || fc.2 || ct.2 || tc.2 || cl.2 || fl.2 || cap.2 || rs.2 || cv.2)

/-- One profile: the values at its place, or the defaults; the flag for a clamp or a region out of range (R173,
R174). -/
def readProfile {α : Type} (s : State) (offset size : Nat) (dflt : α) (read : State → Nat → α × Bool) : α × Bool :=
  match placed offset size with
  | none => (dflt, misplaced offset size)
  | some a => read s a

/-- The offsets of the three profiles, as a directory gives them (Table 9-4). -/
structure ProfileOffsets where
  motion : Nat
  storage : Nat
  power : Nat
  deriving DecidableEq, Repr

/-- The profile offsets of a directory (R173). -/
def profileOffsets (s : State) (directory : Nat) : ProfileOffsets :=
  ⟨dirField s directory 4, dirField s directory 8, dirField s directory 12⟩

/-- The profile read at the offsets of a directory (R174). -/
def readProfiles (s : State) (o : ProfileOffsets) : Profiles :=
  let m := readProfile s o.motion 40 MotionProfile.default readMotion
  let st := readProfile s o.storage 16 StorageProfile.default readStorage
  let p := readProfile s o.power 24 PowerProfile.default readPower
  ⟨m.1, st.1, p.1, ⟨m.2, st.2, p.2⟩⟩

/-! ### Hand-off -/

/-- L clamped by PU to C/4 (R59). -/
def puClampL (p : PuParams) (capacity : Nat) : PuParams := { p with lookAhead := min p.lookAhead (capacity / 4) }

/-- PU's clamp of L is reported in the clamp record and as ParameterClamped (R59, log 29). -/
def puReportClamp (p : PuParams) (s : State) : State :=
  if s.pu.capacity / 4 < p.lookAhead then State.raise { s with hp.clamped.motion := true } .parameterClamped else s

/-- The values of a profile read at Run (Table 9-6, its note): each installed at once, the sample period at the next
sample tick and the power and gauge values at the next arrival. -/
def handRun (v : Profiles) (s : State) : State :=
  let s := puReportClamp v.motion.pu s
  let s := muInstallRun v.motion.mu v.motion.bias s
  { s with
    rck.pendingPeriod := some v.motion.period
    rck.filterLength := v.motion.filterLength
    rck.minInterval := v.motion.minInterval
    rck.pendingFilterLength := none
    rck.pendingMinInterval := none
    pu.params := puClampL v.motion.pu s.pu.capacity
    pu.pending := none
    sm.params := v.storage.sm
    sm.pending := none
    cw.commitMs := v.storage.commitMs
    cw.pendingCommitMs := none
    fe.settleMs := v.storage.settleMs
    fe.idleLoad := v.storage.idleLoad
    cc.pending := some v.power.cc
    ga.pending := some v.power.ga }

/-- The values of a reload (Table 9-6): each waits for its application point, but FE's. -/
def handReload (v : Profiles) (s : State) : State :=
  let s := puReportClamp v.motion.pu s
  { s with
    rck.pendingPeriod := some v.motion.period
    rck.pendingFilterLength := some v.motion.filterLength
    rck.pendingMinInterval := some v.motion.minInterval
    mu.pending := some v.motion.mu
    pu.pending := some (puClampL v.motion.pu s.pu.capacity)
    sm.pending := some v.storage.sm
    cw.pendingCommitMs := some v.storage.commitMs
    fe.settleMs := v.storage.settleMs
    fe.idleLoad := v.storage.idleLoad
    cc.pending := some v.power.cc
    ga.pending := some v.power.ga }

/-- The values of a read reach their blocks, marked as read at Run or as a reload (R174, Table 9-6). -/
def handValues (r : ProfileRead) (s : State) : State :=
  if r.atRun then handRun r.values s else handReload r.values s

/-- A profile read begins: its values are read and checked, the clamp record is replaced, and ParameterClamped is raised
once if a flag is set (R174). It is Reading, and a reset from here on ends it with nothing handed. -/
def hpBeginRead (o : ProfileOffsets) (atRun : Bool) (s : State) : State :=
  let v := readProfiles s o
  State.raiseIf { s with hp.clamped := v.clamped, hp.reading := some ⟨v, atRun⟩ }
    (v.clamped.motion || v.clamped.storage || v.clamped.power) .parameterClamped

/-- The profile read in progress ends: it hands its values, and is Idle (R174). -/
def hpEndRead (s : State) : State :=
  match s.hp.reading with
  | none => s
  | some r => handValues r { s with hp.reading := none }

/-- A profile read that ends within its command (R174). -/
def hpProfileRead (o : ProfileOffsets) (atRun : Bool) (s : State) : State := hpEndRead (hpBeginRead o atRun s)

/-- The directory a reload reads: the one in force, or DIRECTORY before the first Run after a reset (R172). -/
def reloadDirectory (h : Hp) : Nat := h.inForce.getD h.directory.toNat

/-- A reload's profile read; a held reload is no longer held (R170). It ends within the command or goes on (log 25). -/
def hpReload (course : ReadCourse) (s : State) : State :=
  let s := { s with hp.reloadHeld := false }
  let o := profileOffsets s (reloadDirectory s.hp)
  if course = .lasting then hpBeginRead o false s else hpProfileRead o false s

/-! ### The directory at a Run -/

/-- A count of the directory after its user's clamp: 0 selects 32 (R37, R110). -/
def countOf (lo hi v : Nat) : Nat := if v = 0 then 32 else clampNat lo hi v

/-- The user's clamp changed the count (R37, R110). -/
def countClamped (lo hi v : Nat) : Bool := decide (v ≠ 0) && decide (clampNat lo hi v ≠ v)

/-- The Clip Writer at a Run (R110, R116). -/
def cwAtRun (table : Option Nat) (slots : Nat) (first : Word) (s : State) : State :=
  let s := cwSetWriter .unmounted s
  puWriterDone
    { s with
      cw.table := table, cw.slotCount := slots, cw.expected := first, cw.inHand := none, cw.queue := [],
      cw.assembly := [], cw.programming := false, cw.deadline := none, cw.reloc := none, cw.job := .idle,
      cw.pageMark := none, cw.reappend := [], cw.resume := none, cw.stopDue := none, sm.change := none }

/-- The directory read at the entry to Mounting, each field handed to its user (R173). -/
def hpDirectoryRead (d : Nat) (s : State) : State :=
  let slots := countOf 8 64 (dirField s d 20)
  let frames := countOf 16 64 (dirField s d 28)
  let bad := misplaced (dirField s d 16) (32 * slots) || misplaced (dirField s d 24) (64 * frames)
    || misplaced (dirField s d 32) 96 || misplaced (dirField s d 36) 12304
    || countClamped 8 64 (dirField s d 20) || countClamped 16 64 (dirField s d 28)
  let first := BitVec.ofNat 32 (dirField s d 0)
  let requests := placed (dirField s d 16) (32 * slots)
  let table := placed (dirField s d 24) (64 * frames)
  let s := s.raiseIf bad .parameterClamped
  let s := { s with hp.status := placed (dirField s d 32) 96, sm.view := placed (dirField s d 36) 12304 }
  puRun table frames (cwAtRun requests slots first s)

end Sys2Proof.Machine
end

