-- ==== Sys2Proof/Machine/PartStates.lean ====
section
/-! DEFINITION. The part states (Section 10): Starting (R179), Halted and the loss of the reference (R180), Run,
Mounting and Running (R181), Stop (R182), Standby (R183), the reset transitions (R184), Off and the wake (R162,
R163). -/

namespace Sys2Proof.Machine

/-! ### Off and power-on reset -/

/-- Entry to Off: every block ends, the wake detector's count is 0 (R162, R163). The level of the FSTART pin is taken as
low, until a change of the line after the wake (log 44). The commands that wait stay in the queue (log 4). -/
def enterOff (s : State) : State :=
  { State.reset with
    part := { Part.reset with state := .off }
    ga := { Ga.reset with sysen := false }
    pending := s.pending }

/-- Power-on reset (R179): every block at its reset values. The FSTART pin keeps its level (log 2), and the commands
that wait stay in the queue (log 4). -/
def powerOn (s : State) : State :=
  { State.reset with rck := { Rck.reset with line := s.rck.line }, pending := s.pending }

/-- What follows every command: mounts, Formats and the writer go on where they can, marks that wait are taken, and a
released SYSEN takes the part to Off (R94, R99, R105, R162). -/
def finish (s : State) : State :=
  if s.part.state = .off then s
  else
    let s := smIntake (cwRun (smGoOn s))
    if s.ga.sysen then s else enterOff s

/-- A command in every part state but Off, in which nothing but the wake detector runs (R163, log 35). -/
def live (f : State → State) (s : State) : State := if s.part.state = .off then s else finish (f s)

/-- The same for a command that reaches nothing a mount, a Format, the writer or the Gauge waits for. -/
def powered (f : State → State) (s : State) : State := if s.part.state = .off then s else f s

/-- A reading of the wake detector (R163). -/
def wakeCountAfter (n : Nat) (vin : Int) : Nat := if vinInRange vin then n + 1 else 0

/-- The wake detector judges the input voltage (R163). -/
def wakeReading (vin : Int) (s : State) : State :=
  if s.part.state = .off then
    if 4 ≤ wakeCountAfter s.part.wakeCount vin then powerOn s
    else { s with part.wakeCount := wakeCountAfter s.part.wakeCount vin }
  else s

/-! ### Starting and Halted -/

/-- Entry to Halted with a cause (R180). -/
def enterHalted (cause : HaltedCause) (s : State) : State :=
  State.raise
    { s with part.state := .halted, part.transition := .none, part.haltedCause := cause, part.haltAfter := false }
    .halted

/-- A test of Starting ends (R179). -/
def bodySelfTestEnd (t : Stamp) (r : SelfTest) (s : State) : State :=
  let s := s.advance t.toNat
  if s.part.state = .starting then
    match r with
    | .bufferPassed => { s with part.memoryReady := true }
    | .passed => { s with part.state := .idle, part.memoryReady := true }
    | .bufferFailed => enterHalted .bufferMemory s
    | .internalFailed => enterHalted .internalMemory { s with part.memoryReady := true }
  else s

/-! ### Reset transitions (R184) -/

/-- HP at the end of a reset: RESETn leaves the registers clear, and a soft reset keeps them (R178, R184). -/
def hpAfterReset (resetn : Bool) (h : Hp) : Hp :=
  if resetn then { Hp.reset with data := h.data }
  else { Hp.reset with directory := h.directory, events := h.events, mask := h.mask, data := h.data }

/-- The blocks outside the always-on domain take their reset values (R36, R62, R85, R109, R132, R178, R184). -/
def resetBlocks (resetn : Bool) (s : State) : State :=
  muReset { s with
    pu := Pu.reset, fe := feAfterReset s.fe, sm := Sm.reset, cw := Cw.reset, hp := hpAfterReset resetn s.hp }

/-- A reset transition begins: the part leaves Running or Mounting (R4, R8, R18, R184). -/
def beginReset (s : State) : State :=
  muLeave (rckStop { s with part.state := .idle, part.transition := .reset, hp.reading := none })

/-- A reset transition ends: the blocks are reset and the part is Idle, or Halted after a loss of the reference (R180,
R184); the Clip Writer, now Unmounted, is closed for the Gauge's check (R162, R165). -/
def endReset (s : State) : State :=
  let s := gaCheck { resetBlocks s.part.byResetn s with part.byResetn := false }
  if s.part.haltAfter then enterHalted .clockLoss s else { s with part.transition := .none }

/-- The wait of a reset transition is over, and RESETn has returned high (R184). -/
def bodyResetTransitionEnd (t : Stamp) (s : State) : State :=
  let s := s.advance t.toNat
  if s.resetting then (if s.fe.inFlight = none then endReset { s with part.resetnLow := false } else s)
  else { s with part.resetnLow := false }

/-- RESETn clears the Host Port registers (R178, R184). -/
def clearRegisters (s : State) : State := { s with hp.directory := 0, hp.events := 0, hp.mask := 0 }

/-- A falling edge of RESETn (R184). -/
def bodyResetn (t : Stamp) (heldLow : Bool) (s : State) : State :=
  let s := clearRegisters (s.advance t.toNat)
  let s := { s with part.resetnLow := heldLow }
  match s.part.state with
  | .starting => { s with hp := { Hp.reset with data := s.hp.data } }
  | .halted => { s with hp := { Hp.reset with data := s.hp.data } }
  | _ =>
    let s := { s with part.byResetn := true }
    if s.resetting then s else beginReset s

/-- The reference oscillator is lost (R180). -/
def bodyClockLoss (t : Stamp) (bufferPassed : Bool) (s : State) : State :=
  let s := s.advance t.toNat
  if s.part.onBackup then s
  else
    let s := { s with part.onBackup := true }
    match s.part.state with
    | .starting => enterHalted .clockLoss { s with part.memoryReady := s.part.memoryReady || bufferPassed }
    | .standby => enterHalted .clockLoss (resetBlocks false s)
    | .halted => s
    | .off => s
    | _ =>
      let s := { s with part.haltAfter := true }
      if s.resetting then s else beginReset s

/-! ### Run and the end of the mount work (R181) -/

/-- A Run is taken (R172, R173, R181), in Idle, where no Format is under way (R182): DIRECTORY is taken, the part enters Mounting, the directory is read once, the
profiles are read at its offsets, after the frame table has been written Free (log 60), and SM begins its mount before or
after the values reach FE (log 7), or, in a read that goes on, at its end. A read for a reload ends first (log 25). -/
def takeRun (course : ReadCourse) (s : State) : State :=
  let s := hpEndRead s
  let d := s.hp.directory.toNat
  let at_ := profileOffsets s d
  let s := { s with hp.inForce := some d, part.state := .mounting }
  let s := hpDirectoryRead d (muEnterStarting (rckArm s))
  let s := { s with sm.mount := some .finishing, sm.format := none }
  match course with
  | .first => smGoOn (hpProfileRead at_ true s)
  | .after => hpProfileRead at_ true (smGoOn s)
  | .lasting => smGoOn (hpBeginRead at_ true s)

/-- The mount work has ended (R181, R182): the profile read has handed its values, and SM's mount is over. -/
def bodyMountWorkEnd (t : Stamp) (s : State) : State :=
  let s := s.advance t.toNat
  if s.part.state = .mounting ∧ s.sm.mount = none ∧ s.hp.reading = none then
    if s.part.transition = .stop then
      State.raise (muStop (rckStop { s with part.state := .idle, part.transition := .none })) .mountDone
    else State.raise (rckOpenFilter { s with part.state := .running }) .mountDone
  else s

/-! ### Stop (R182) -/

/-- A Stop is taken (R182); in Running the Clip Writer is told. -/
def takeStop (s : State) : State :=
  let s := { s with part.transition := .stop }
  if s.part.state = .running then cwStopEvent .controlStop s else s

/-- The Clip Writer has done all that R182 asks before it reports closed. -/
def writerDone (c : Cw) : Bool :=
  writerClosed c && c.inHand.isNone && decide (c.queue = []) && decide (c.job = .idle)

/-- The writer reports closed in a Stop transition: the part leaves Running for Idle (R182). MU ends a Declared run, with
the impact time handed to PU, before PU makes its Stop break (log 61). -/
def bodyWriterClosed (t : Stamp) (s : State) : State :=
  let s := s.advance t.toNat
  if s.part.state = .running ∧ s.part.transition = .stop ∧ writerDone s.cw then
    puStop (muStop (rckStop { s with part.state := .idle, part.transition := .none }))
  else s

/-! ### Standby (R183) -/

/-- A Standby is taken (R84, R183): the rail goes off, after the operation in flight. -/
def takeStandby (s : State) : State :=
  let s := { s with part.transition := .standby }
  if s.fe.inFlight = none ∧ s.fe.rail ≠ .failed then feSwitchOff s else s

/-- The rail is off and nothing is in flight. -/
def railIsOff (f : Fe) : Bool := !railOn f.rail && f.inFlight.isNone

/-- The rail is Off: the part enters Standby (R183). -/
def bodyStandbyEntry (t : Stamp) (s : State) : State :=
  let s := s.advance t.toNat
  if s.part.transition = .standby ∧ railIsOff s.fe then
    { s with part.state := .standby, part.transition := .none }
  else s

/-- A port access wakes the part from Standby (R84, R168, R183): the rail is switched on again for the requests that
waited. -/
def wakeStandby (s : State) : State :=
  let s := { s with part.state := .idle }
  if s.fe.rail = .off ∧ s.fe.waiting ≠ [] then feSwitchOn s else s

end Sys2Proof.Machine
end

