-- ==== Sys2Proof/Machine/HostPort.lean ====
section
/-! DEFINITION. The Host Port (Section 9): CONTROL (R169, R170), the registers (R171, R172, R175, R176), the access latch
and the half accesses (R166 to R168), the status page (R177). -/

namespace Sys2Proof.Machine

/-! ### CONTROL -/

/-- A command or reload is refused (R169, R170). -/
def refuse (s : State) : State := s.raise .commandRefused

/-- A command code is judged by the part state (R169, Table 9-3): whether it was a Run that was taken, and the state
after. -/
def judgeCommand (code : Nat) (course : ReadCourse) (s : State) : Bool × State :=
  match code with
  | 0 => (false, s)
  | 1 =>
    if s.part.state = .idle ∧ s.part.transition = .none then (true, takeRun course s) else (false, refuse s)
  | 2 =>
    (false, if (s.part.state = .running ∨ s.part.state = .mounting) ∧ s.part.transition = .none then takeStop s
      else refuse s)
  | 3 => (false, if s.part.state = .idle ∧ s.part.transition = .none then takeStandby s else refuse s)
  | 4 =>
    (false, if (s.part.state = .idle ∨ s.part.state = .mounting ∨ s.part.state = .running) ∧ !s.resetting then
        beginReset s
      else refuse s)
  | _ => (false, refuse s)

/-- A Reload in Idle or Running: the read begins, or, with the profile read Reading, the reload is held (R170). -/
def beginReload (course : ReadCourse) (s : State) : State :=
  if s.hp.reading = none then hpReload course s else { s with hp.reloadHeld := true }

/-- A Reload is judged (R170). -/
def judgeReload (course : ReadCourse) (s : State) : State :=
  if s.resetting then refuse s
  else match s.part.state with
    | .idle => beginReload course s
    | .running => beginReload course s
    | .mounting => { s with hp.reloadHeld := true }
    | _ => refuse s

/-- A write of CONTROL (R169, R170): the command, then the Reload bit, then the Attention bit, each judged by the part state
that the one before it has left (log 72). -/
def controlWrite (value : Word) (course : ReadCourse) (s : State) : State :=
  let c := judgeCommand (value.toNat % 8) course s
  let s := if value.getLsbD 9 ∧ !c.1 then judgeReload course c.2 else c.2
  if value.getLsbD 8 then cwService s else s

/-- The profile read in progress, if any, ends; a held reload falls due then, or with Idle or Running entered (R170,
log 25). -/
def bodyHeldReload (t : Stamp) (s : State) : State :=
  let s := hpEndRead (s.advance t.toNat)
  if s.hp.reloadHeld ∧ !s.resetting ∧ (s.part.state = .idle ∨ s.part.state = .running) then hpReload .first s else s

/-! ### Registers -/

/-- DIRECTORY as a write stores it (R172). -/
def directoryValue (v : Word) : Word := v &&& 0x00FFFF00

/-- A write of DIRECTORY (R172); while RESETn is held low the registers are kept clear (R184). -/
def directoryWrite (v : Word) (s : State) : State :=
  if s.part.resetnLow then s else { s with hp.directory := directoryValue v }

/-- A write of EVENTS clears every cause written 1 (R175). -/
def eventsClear (v : Word) (s : State) : State :=
  { s with hp.events := s.hp.events &&& ~~~(v.truncate 16) }

/-- A write of EVENT_MASK (R176); while RESETn is held low the registers are kept clear (R184). -/
def eventMaskWrite (v : Word) (s : State) : State :=
  if s.part.resetnLow then s else { s with hp.mask := v.truncate 16 }

/-- A read of word `i` of the register window (R166, Table 11-1). -/
def registerRead (s : State) (i : Nat) : Word :=
  match i with
  | 1 => stateWord s.part
  | 2 => s.hp.directory
  | 3 => s.hp.events.zeroExtend 32
  | 4 => s.hp.mask.zeroExtend 32
  | _ => 0

/-- A write of word `i` of the register window, at its low half (R166 to R172, R175, R176). -/
def registerWrite (i : Nat) (v : Word) (course : ReadCourse) (s : State) : State :=
  match i with
  | 0 => controlWrite v course s
  | 2 => directoryWrite v s
  | 3 => eventsClear v s
  | 4 => eventMaskWrite v s
  | _ => s

/-! ### Half accesses -/

/-- The Buffer RAM is served (R168). -/
def ramServed (p : Part) : Bool :=
  match p.state with
  | .idle => true
  | .mounting => true
  | .running => true
  | .halted => p.memoryReady
  | _ => false

/-- The 32-bit word that an access names, as a read returns it (R166, R168). -/
def portWord (s : State) (registers : Bool) (word : Nat) : Word :=
  if registers then registerRead s word
  else if ramServed s.part then BitVec.ofNat 32 (s.readField (4 * word) 4)
  else 0

/-- A 32-bit write at its low half (R167, R168). -/
def portWrite (registers : Bool) (word : Nat) (v : Word) (course : ReadCourse) (s : State) : State :=
  if registers then registerWrite word v course s
  else if ramServed s.part then s.store (4 * word) (leBytes 4 v.toNat)
  else s

/-- The start of an access: it wakes the part from Standby, but for a read of STATE (R168). -/
def portAccess (t : Stamp) (stateRead : Bool) (s : State) : State :=
  let s := s.advance t.toNat
  if s.part.state = .standby ∧ !stateRead then wakeStandby s else s

/-- A read of STATE. -/
def isStateRead (registers : Bool) (word : Nat) : Bool := registers && decide (word = 1)

/-- A read of a low half (R167). -/
def bodyHalfReadLow (t : Stamp) (registers : Bool) (word : Nat) (s : State) : State :=
  let s := portAccess t (isStateRead registers word) s
  let v := portWord s registers word
  { s with hp.data := v.truncate 16, hp.latch := (v >>> 16).truncate 16 }

/-- A read of a high half (R167): of a reserved word and of a Buffer RAM that is not served too, it returns the latch and
leaves it (log 70). -/
def bodyHalfReadHigh (t : Stamp) (registers : Bool) (word : Nat) (s : State) : State :=
  let s := portAccess t (isStateRead registers word) s
  { s with hp.data := s.hp.latch }

/-- A write of a high half (R167). -/
def bodyHalfWriteHigh (t : Stamp) (value : Half) (s : State) : State :=
  let s := portAccess t false s
  { s with hp.latch := value }

/-- A write of a low half (R167). -/
def bodyHalfWriteLow (t : Stamp) (registers : Bool) (word : Nat) (value : Half) (course : ReadCourse) (s : State) :
    State :=
  let s := portAccess t false s
  portWrite registers word (s.hp.latch ++ value) course s

/-- A write of the whole 32-bit register `i`, at its low half (R166, R167). The latch has no part in it (log 66). -/
def bodyRegister (t : Stamp) (i : Nat) (v : Word) (course : ReadCourse) (s : State) : State :=
  registerWrite i v course (portAccess t false s)

/-- A write of half `h` of the register window: an even one is a low half, an odd one a high half (R166, R167). -/
def bodyRegisterHalf (t : Stamp) (h : Nat) (value : Half) (s : State) : State :=
  if h % 2 = 0 then bodyHalfWriteLow t true (h / 2) value .first s else bodyHalfWriteHigh t value s

/-! ### Status page -/

/-- The status page is refreshed in this state (R177). -/
def refreshes (p : Part) : Bool :=
  (decide (p.state = .idle) || decide (p.state = .mounting) || decide (p.state = .running))
    && decide (p.transition ≠ .reset)

/-- Offsets 4 to 27: part, writer and open segment (Table 11-8); with no segment Open its bytes written and frame count
are open values (log 67). -/
def statusWriter (s : State) : List Byte :=
  leBytes 1 (partCode s.part.state) ++ leBytes 1 (writerCode s.cw.writer) ++ leBytes 1 (stopCode s.cw.cause)
    ++ leBytes 1 (linkCode s.mu.link) ++ leBytes 2 ((openIndex s.sm).getD 0xFFFF)
    ++ leBytes 1 (chargeCode s.cc.charge) ++ leBytes 1 (faultCode s.cc.cause)
    ++ leBytes 4 (((openSegment s.sm).map (·.clip.toNat)).getD 0)
    ++ leBytes 4 (if (openIndex s.sm).isSome then 8192 * s.sm.openFill else Config.noneOpen 0 s.now)
    ++ leBytes 4 (if (openIndex s.sm).isSome then liveFrameCount s else Config.noneOpen 1 s.now)
    ++ leBytes 4 s.cw.expected.toNat

/-- Offsets 28 to 59: the newest frame and the counters (Table 11-8). -/
def statusFrames (s : State) : List Byte :=
  optField s.pu.newest ++ leBytes 4 s.pu.overruns ++ leBytes 4 s.pu.unreleased ++ leBytes 4 s.pu.gaps
    ++ leBytes 4 s.rck.glitches ++ leBytes 4 s.pu.clamps ++ leBytes 4 s.mu.impacts ++ leBytes 4 s.mu.merged

/-- The four readings that the status page shows (Table 11-8): those of the latest measurement, and open values before
there is one (R133, log 56). -/
def shownReadings (s : State) : Measurement :=
  s.cc.latest.getD ⟨Config.unmeasured 0 s.now, Config.unmeasured 1 s.now, Config.unmeasured 2 s.now,
    Config.unmeasured 3 s.now⟩

/-- Offsets 60 to 77: the power path (Table 11-8), which has no place for the safety timers of R148 (log 69). -/
def statusPower (s : State) : List Byte :=
  let m := shownReadings s
  leBytes 1 (zoneCode s.cc.zone)
    ++ leBytes 1 (bit s.cc.noThermistor 0 + bit s.cc.present 1 + bit s.cc.overvoltage 2)
    ++ leBytes 1 (levelCode s.ga.level) ++ leBytes 1 (gaSoc s.ga)
    ++ leInt 2 m.vin ++ leInt 2 m.vbat ++ leInt 2 m.ibat ++ leInt 2 m.tcell
    ++ leBytes 2 s.cc.inputLimit ++ leBytes 2 s.cc.setpoint ++ leBytes 2 (gaRemaining s.ga)

/-- Offsets 78 to 95: the flash, the clamp record and the ride clock (Table 11-8). -/
def statusFlash (s : State) : List Byte :=
  leBytes 1 (railCode s.fe.rail)
    ++ leBytes 1 (bit s.fe.worn 0 + bit s.fe.absent 1 + bit (decide (s.sm.table = .unformatted)) 2)
    ++ leBytes 2 s.fe.bad.length ++ leBytes 2 s.fe.pool.length
    ++ leBytes 1 (bit s.hp.clamped.motion 0 + bit s.hp.clamped.storage 1 + bit s.hp.clamped.power 2)
    ++ leBytes 3 0 ++ leBytes 8 s.now

/-- Refresh the status page between two increments of its generation (R177). -/
def hpRefresh (s : State) : State :=
  match s.hp.status with
  | none => s
  | some a =>
    let g := s.hp.statusGeneration
    let s := s.store a (leBytes 4 (g + 1).toNat)
    let s := s.store (a + 4) (statusWriter s ++ statusFrames s ++ statusPower s ++ statusFlash s)
    let s := s.store a (leBytes 4 (g + 2).toNat)
    { s with hp.statusGeneration := g + 2 }

/-- HP's part of a charge tick (R177). -/
def hpTick (s : State) : State := if refreshes s.part then hpRefresh s else s

end Sys2Proof.Machine
end

