-- ==== Sys2Proof/Machine/CmdPart.lean ====
section
/-! DEFINITION. The commands of the part and its states: resets, the self-test, the clock monitor, the wake detector,
and the ends of mounting, of a Stop and of a Standby transition (Section 10, R163). -/

namespace Sys2Proof.Machine

/-- What a command answers: always a next state, but for an access outside the port (R166). -/
abbrev Answer := Host.Outcome State Fault Refusal

/-- POWER_ON_RESET (R179). -/
def execPowerOnReset (s : State) : Answer := .next (powerOn s)

/-- SELF_TEST_END (R179). -/
def execSelfTestEnd (t : Stamp) (r : SelfTest) (s : State) : Answer := .next (live (bodySelfTestEnd t r) s)

/-- CLOCK_LOSS (R180). -/
def execClockLoss (t : Stamp) (bufferPassed : Bool) (s : State) : Answer :=
  .next (live (bodyClockLoss t bufferPassed) s)

/-- WAKE (R163): the reading that brings the count to 4. -/
def execWake (vin : Int) (s : State) : Answer :=
  .next (if s.part.state = .off ∧ 4 ≤ wakeCountAfter s.part.wakeCount vin then powerOn s else s)

/-- RESETN (R184). -/
def execResetn (t : Stamp) (heldLow : Bool) (s : State) : Answer := .next (live (bodyResetn t heldLow) s)

/-- RESET_TRANSITION_END (R184). -/
def execResetTransitionEnd (t : Stamp) (s : State) : Answer := .next (live (bodyResetTransitionEnd t) s)

/-- MOUNT_WORK_END (R181). -/
def execMountWorkEnd (t : Stamp) (s : State) : Answer := .next (live (bodyMountWorkEnd t) s)

/-- WRITER_CLOSED (R182). -/
def execWriterClosed (t : Stamp) (s : State) : Answer := .next (live (bodyWriterClosed t) s)

/-- STANDBY_ENTRY (R183). -/
def execStandbyEntry (t : Stamp) (s : State) : Answer := .next (live (bodyStandbyEntry t) s)

/-- WAKE_DETECTOR_READING (R163). -/
def execWakeDetectorReading (vin : Int) (s : State) : Answer := .next (wakeReading vin s)

end Sys2Proof.Machine
end

