-- ==== Sys2Proof/Machine/CmdTick.lean ====
section
/-! DEFINITION. The commands of the Ride Clock (Section 1): the charge tick with its deliveries (R3), the events that
name what a charge tick brings about (Sections 4, 6, 7 and 8), sample ticks, frame-starts and the frame silence. -/

namespace Sys2Proof.Machine

/-- The Path Unit makes its release scan at this tick (R55): while the Buffer RAM is served and no reset waits. -/
def scansReleases (p : Part) : Bool := refreshes p

/-- One delivery of a charge tick (R3, R55). -/
def tickDelivery (m : Measurement) (d : TickDelivery) (s : State) : State :=
  match d with
  | .releaseScan => if scansReleases s.part then puReleaseScan s else s
  | .charger => ccArrival m s
  | .gauge => gaArrival m s
  | .scan => cwService s
  | .commit => cwCommit s
  | .flash => feTick s
  | .status => hpTick s

/-- The ride clock reaches the next charge tick (R3). -/
def tickTime (s : State) : State :=
  { s.advance s.rck.nextChargeTick with rck.nextChargeTick := s.rck.nextChargeTick + 10000 }

/-- A charge tick: every delivery once, in the order taken (R3, log 7). -/
def bodyChargeTick (m : Measurement) (order : List TickDelivery) (s : State) : State :=
  (tickOrder order).foldl (fun s d => tickDelivery (delivered m) d s) (tickTime s)

/-- CHARGE_TICK (R3). -/
def execChargeTick (m : Measurement) (order : List TickDelivery) (s : State) : Answer :=
  .next (live (bodyChargeTick m order) s)

/-- An event that names what another event brings about: that event, taken only where the named thing comes about, and
otherwise nothing (log 5). -/
def derived (body : State → State) (came : State → State → Bool) (s : State) : State :=
  if s.part.state = .off then s else if came s (body s) then finish (body s) else s

/-- The state in which FE takes the tick: the deliveries before it have been made (R3, R69). -/
def beforeFlashTick (m : Measurement) (order : List TickDelivery) (s : State) : State :=
  ((tickOrder order).takeWhile fun d => decide (d ≠ .flash)).foldl (fun s d => tickDelivery (delivered m) d s) (tickTime s)

/-- FE switches the rail Off at the tick, whatever a later delivery asks of it (R69). -/
def cameIdleTimeout (m : Measurement) (order : List TickDelivery) (s _ : State) : Bool :=
  let b := beforeFlashTick m order s
  decide (b.fe.rail = .ready) && decide ((feTick b).fe.rail = .off)

/-- IDLE_TIMEOUT (R69). -/
def execIdleTimeout (m : Measurement) (order : List TickDelivery) (s : State) : Answer :=
  .next (derived (bodyChargeTick m order) (cameIdleTimeout m order) s)

/-- The commit deadline has been reached at this tick, with a tail to program (R127). -/
def cameCommit (s _ : State) : Bool := commitDue (tickTime s)

/-- COMMIT_DEADLINE (R127): the tick with the commit check taken first. -/
def execCommitDeadline (m : Measurement) (order : List TickDelivery) (s : State) : Answer :=
  .next (derived (bodyChargeTick m (.commit :: order)) cameCommit s)

/-- The qualification changed (R135). -/
def cameQualification (s t : State) : Bool := decide (s.cc.present ≠ t.cc.present)

/-- INPUT_QUALIFICATION (R135). -/
def execInputQualification (m : Measurement) (order : List TickDelivery) (s : State) : Answer :=
  .next (derived (bodyChargeTick m order) cameQualification s)

/-- Fault was entered for a reason that satisfies a test (R147, R148). -/
def cameFault (test : FaultCause → Bool) (s t : State) : Bool :=
  decide (s.cc.charge ≠ .fault) && decide (t.cc.charge = .fault) && test t.cc.cause

/-- SAFETY_TIMER_EXPIRY (R147). -/
def execSafetyTimerExpiry (m : Measurement) (order : List TickDelivery) (s : State) : Answer :=
  .next (derived (bodyChargeTick m order)
    (cameFault fun c => decide (c = .prechargeTimer) || decide (c = .fastTimer)) s)

/-- BATTERY_OVERVOLTAGE (R148). -/
def execBatteryOvervoltage (m : Measurement) (order : List TickDelivery) (s : State) : Answer :=
  .next (derived (bodyChargeTick m order) (cameFault fun c => decide (c = .batteryOvervoltage)) s)

/-- Taper ended in Done (R146). -/
def cameTermination (s t : State) : Bool := decide (s.cc.charge = .taper) && decide (t.cc.charge = .done)

/-- TERMINATION (R146). -/
def execTermination (m : Measurement) (order : List TickDelivery) (s : State) : Answer :=
  .next (derived (bodyChargeTick m order) cameTermination s)

/-- Done ended in Fast or Suspended (R146). -/
def cameRecharge (s t : State) : Bool :=
  decide (s.cc.charge = .done) && (decide (t.cc.charge = .fast) || decide (t.cc.charge = .suspended))

/-- RECHARGE (R146). -/
def execRecharge (m : Measurement) (order : List TickDelivery) (s : State) : Answer :=
  .next (derived (bodyChargeTick m order) cameRecharge s)

/-- The level became Cutoff (R161). -/
def cameCutoff (s t : State) : Bool := decide (s.ga.level ≠ .cutoff) && decide (t.ga.level = .cutoff)

/-- CUTOFF (R161). -/
def execCutoff (m : Measurement) (order : List TickDelivery) (s : State) : Answer :=
  .next (derived (bodyChargeTick m order) cameCutoff s)

/-- The grace timer ran out (R162). -/
def cameGrace (s t : State) : Bool := decide (s.ga.grace = some 1) && decide (t.ga.grace = some 0)

/-- GRACE_TIMER_EXPIRY (R162). -/
def execGraceTimerExpiry (m : Measurement) (order : List TickDelivery) (s : State) : Answer :=
  .next (derived (bodyChargeTick m order) cameGrace s)

/-- SAMPLE_TICK (R5). -/
def execSampleTick (s : State) : Answer := .next (live bodySampleTick s)

/-- FRAME_START (R10). -/
def execFrameStart (order : List FrameDelivery) (s : State) : Answer := .next (live (bodyFrameStart order) s)

/-- SILENCE_EXPIRY (R12). -/
def execSilenceExpiry (s : State) : Answer := .next (live bodySilenceExpiry s)

/-- FRAME_START_LINE_CHANGE (R7). -/
def execFrameStartLineChange (t : Stamp) (high : Bool) (order : List FrameDelivery) (s : State) : Answer :=
  .next (live (bodyLineChange t high order) s)

end Sys2Proof.Machine
end

