-- ==== Sys2Proof/Machine/CmdMotion.lean ====
section
/-! DEFINITION. The commands of the Motion Unit (Section 2): the ends of its transactions, and the events that name what
such an end brings about. -/

namespace Sys2Proof.Machine

/-- IDENTITY_READ_DONE (R15). -/
def execIdentityReadDone (t : Stamp) (response : Byte) (s : State) : Answer :=
  .next (live (bodyIdentityReadDone t response) s)

/-- RATE_WRITE_DONE (R16, R22). -/
def execRateWriteDone (t : Stamp) (readBack : Byte) (s : State) : Answer :=
  .next (live (bodyRateWriteDone t readBack) s)

/-- SAMPLE_BURST_DONE (R18). -/
def execSampleBurstDone (t : Stamp) (burst : Burst) (s : State) : Answer :=
  .next (live (bodySampleBurstDone t burst) s)

/-- IMU_RESPONSE_TIMEOUT (R14). -/
def execImuResponseTimeout (t : Stamp) (s : State) : Answer := .next (live (bodyImuResponseTimeout t) s)

/-- The link became Absent (R15). -/
def cameAbsent (s t : State) : Bool := decide (s.mu.link ≠ .absent) && decide (t.mu.link = .absent)

/-- ATTEMPTS_EXHAUSTED (R15, R16). -/
def execAttemptsExhausted (t : Stamp) (response : Option Byte) (s : State) : Answer :=
  .next (derived (bodyAttempt t response) cameAbsent s)

/-- The link became Tracking (R16, R21). -/
def cameTracking (s t : State) : Bool := decide (s.mu.link ≠ .tracking) && decide (t.mu.link = .tracking)

/-- GOOD_RUN_COMPLETE (R16, R21). -/
def execGoodRunComplete (t : Stamp) (burst : Burst) (s : State) : Answer :=
  .next (derived (bodySampleBurstDone t burst) cameTracking s)

/-- The link became Lost (R16, R20). -/
def cameLost (s t : State) : Bool := decide (s.mu.link ≠ .lost) && decide (t.mu.link = .lost)

/-- MISSING_RUN_COMPLETE (R20). -/
def execMissingRunComplete (t : Stamp) (burst : Option Burst) (s : State) : Answer :=
  .next (derived (bodyBurst t burst) cameLost s)

/-- STILL_RUN_COMPLETE (R25). -/
def execStillRunComplete (t : Stamp) (burst : Burst) (s : State) : Answer :=
  .next (derived (bodySampleBurstDone t burst) (fun s _ => stillCompletes s.mu burst) s)

/-- The detector entered Declared (R30). -/
def cameDeclared (s t : State) : Bool := decide (s.mu.detector ≠ .declared) && decide (t.mu.detector = .declared)

/-- IMPACT_DECLARED (R30). -/
def execImpactDeclared (t : Stamp) (burst : Burst) (s : State) : Answer :=
  .next (derived (bodySampleBurstDone t burst) cameDeclared s)

end Sys2Proof.Machine
end

