-- ==== Sys2Proof/Machine/CmdFlash.lean ====
section
/-! DEFINITION. The commands of the Flash Engine (Section 4): the settle end, the completions of the device, and the
deadline of the operation in flight. -/

namespace Sys2Proof.Machine

/-- SETTLE_END (R67). -/
def execSettleEnd (s : State) : Answer := .next (live bodySettleEnd s)

/-- RESET_DONE (R67, R68). -/
def execResetDone (t : Stamp) (order : EndOrder) (s : State) : Answer := .next (live (bodyResetDone t order) s)

/-- READ_ID_DONE (R72). -/
def execReadIdDone (t : Stamp) (id : Vector Byte 4) (order : EndOrder) (s : State) : Answer :=
  .next (live (bodyReadIdDone t id order) s)

/-- READ_PAGE_DONE (R65, R66). -/
def execReadPageDone (t : Stamp) (page : PageRead) (order : EndOrder) (s : State) : Answer :=
  .next (live (bodyReadPageDone t page order) s)

/-- READ_MARKER_DONE (R76). -/
def execReadMarkerDone (t : Stamp) (marker : Byte) (order : EndOrder) (s : State) : Answer :=
  .next (live (bodyReadMarkerDone t marker order) s)

/-- PROGRAM_PAGE_DONE (R76). -/
def execProgramPageDone (t : Stamp) (pass : Bool) (order : EndOrder) (s : State) : Answer :=
  .next (live (bodyProgramPageDone t pass order) s)

/-- ERASE_BLOCK_DONE (R76). -/
def execEraseBlockDone (t : Stamp) (pass : Bool) (order : EndOrder) (s : State) : Answer :=
  .next (live (bodyEraseBlockDone t pass order) s)

/-- OPERATION_TIMEOUT (R73). -/
def execOperationTimeout (order : EndOrder) (s : State) : Answer := .next (live (bodyOperationTimeout order) s)

end Sys2Proof.Machine
end

