-- ==== Sys2Proof/Machine/CmdRequest.lean ====
section
/-! DEFINITION. The requests of the request table (Section 6), each the taking of a slot that holds it: the slot a scan
would take next (R112), judged (R114) and worked on (log 13). -/

namespace Sys2Proof.Machine

/-- Slot `i` is the one that a scan acted on now would take, and its request is of this kind (R111, R112). -/
def takesSlot (k : Kind) (i : Nat) (s : State) : Bool :=
  servicePoint s && handFree s.cw &&
    (match s.cw.table with
     | none => false
     | some table =>
       decide (expectedSlot s table = some i) && decide (kindOf (slotRequest s table i).kind = some k))

/-- Take slot `i` if it is the next to take, and go on as far as the writer can (R112 to R115). -/
def bodyTake (k : Kind) (t : Stamp) (i : Nat) (s : State) : State :=
  let s := s.advance t.toNat
  match s.cw.table with
  | none => s
  | some table => if takesSlot k i s then cwRun (cwTake table i s).2 else s

/-- MEDIA (R124). -/
def execMedia (t : Stamp) (slot : Nat) (s : State) : Answer := .next (live (bodyTake .media t slot) s)

/-- START (R118). -/
def execStart (t : Stamp) (slot : Nat) (s : State) : Answer := .next (live (bodyTake .start t slot) s)

/-- STOP_REQUEST (R123). -/
def execStopRequest (t : Stamp) (slot : Nat) (s : State) : Answer := .next (live (bodyTake .stop t slot) s)

/-- SPLIT (R119). -/
def execSplit (t : Stamp) (slot : Nat) (s : State) : Answer := .next (live (bodyTake .split t slot) s)

/-- PROTECT (R102, R120). -/
def execProtect (t : Stamp) (slot : Nat) (s : State) : Answer := .next (live (bodyTake .protect t slot) s)

/-- UNPROTECT (R102, R120). -/
def execUnprotect (t : Stamp) (slot : Nat) (s : State) : Answer := .next (live (bodyTake .unprotect t slot) s)

/-- FETCH (R121). -/
def execFetch (t : Stamp) (slot : Nat) (s : State) : Answer := .next (live (bodyTake .fetch t slot) s)

/-- FORMAT (R90, R122). -/
def execFormat (t : Stamp) (slot : Nat) (s : State) : Answer := .next (live (bodyTake .format t slot) s)

end Sys2Proof.Machine
end

