-- ==== Sys2Proof/WellFormed.lean ====
section
/-! DEFINITION. Which commands can come: an address that the port has (R166), a slot that a table can hold (R110), a page
of eight codewords of the sizes R64 gives with at most 8 bit errors corrected in each (R65), orders that name no delivery
twice (log 7). A command that is not well-formed is still given a meaning, or faults by name (log 34). -/

namespace Sys2Proof

/-- The words of the Buffer RAM address space that HA0..HA22 reach with halves (R166). -/
def addressWords : Nat := 4194304

/-- A 32-bit word that HA0..HA22 can address (R166). -/
def wordExists (word : Nat) : Bool := decide (word < addressWords)

/-- A half that HA0..HA22 can address (R166). -/
def halfExists (half : Nat) : Bool := decide (half < 2 * addressWords)

/-- A slot of the largest request table (R110). -/
def slotExists (slot : Nat) : Bool := decide (slot < 64)

/-- An order names no delivery twice. -/
def orderNames {α : Type} [DecidableEq α] (order : List α) : Bool := decide order.Nodup

/-- The bytes of codeword `i` (R64): 1,024, and the page record's 40 more in codeword 7. -/
def codewordLength (i : Nat) : Nat := if i = 7 then 1064 else 1024

/-- The decoder's finding for a codeword of `n` bytes: at most 8 errors, and as many bytes as were read (R65). -/
def outcomeFits (n : Nat) : CodewordOutcome → Bool
  | .corrected count bytes => decide (count ≤ 8) && decide (bytes.length = n)
  | .uncorrectable => true

/-- Codeword `i` of a page has its sizes (R64, R65). -/
def codewordFits (i : Nat) (c : CodewordRead) : Bool :=
  decide (c.bytes.length = codewordLength i) && decide (c.parity.length = 14) && outcomeFits (codewordLength i) c.outcome

/-- A page of eight codewords (R65). -/
def pageFits (p : PageRead) : Bool :=
  decide (p.codewords.length = 8) && p.codewords.zipIdx.all fun x => codewordFits x.2 x.1

/-- The command can come (R64, R65, R110, R166). -/
def Instr.wellFormed : Instr → Bool
  | .chargeTick _ order => orderNames order
  | .frameStart order => orderNames order
  | .readPageDone _ page _ => pageFits page
  | .idleTimeout _ order => orderNames order
  | .media _ slot => slotExists slot
  | .start _ slot => slotExists slot
  | .stopRequest _ slot => slotExists slot
  | .split _ slot => slotExists slot
  | .protect _ slot => slotExists slot
  | .unprotect _ slot => slotExists slot
  | .fetch _ slot => slotExists slot
  | .format _ slot => slotExists slot
  | .commitDeadline _ order => orderNames order
  | .inputQualification _ order => orderNames order
  | .safetyTimerExpiry _ order => orderNames order
  | .batteryOvervoltage _ order => orderNames order
  | .termination _ order => orderNames order
  | .recharge _ order => orderNames order
  | .cutoff _ order => orderNames order
  | .graceTimerExpiry _ order => orderNames order
  | .registerWrite _ half _ => halfExists half
  | .halfReadLow _ _ word => wordExists word
  | .halfReadHigh _ _ word => wordExists word
  | .halfWriteHigh _ _ word _ => wordExists word
  | .halfWriteLow _ _ word _ _ => wordExists word
  | .frameStartLineChange _ _ order => orderNames order
  | .powerOnReset => true
  | .selfTestEnd _ _ => true
  | .clockLoss _ _ => true
  | .wake _ => true
  | .resetn _ _ => true
  | .resetTransitionEnd _ => true
  | .sampleTick => true
  | .silenceExpiry => true
  | .identityReadDone _ _ => true
  | .rateWriteDone _ _ => true
  | .sampleBurstDone _ _ => true
  | .imuResponseTimeout _ => true
  | .attemptsExhausted _ _ => true
  | .goodRunComplete _ _ => true
  | .missingRunComplete _ _ => true
  | .stillRunComplete _ _ => true
  | .impactDeclared _ _ => true
  | .settleEnd => true
  | .resetDone _ _ => true
  | .readIdDone _ _ _ => true
  | .readMarkerDone _ _ _ => true
  | .programPageDone _ _ _ => true
  | .eraseBlockDone _ _ _ => true
  | .operationTimeout _ => true
  | .run _ _ => true
  | .mountWorkEnd _ => true
  | .controlStop _ => true
  | .writerClosed _ => true
  | .standby _ => true
  | .standbyEntry _ => true
  | .reset _ => true
  | .attention _ => true
  | .reload _ => true
  | .heldReload _ => true
  | .directoryWrite _ _ => true
  | .eventsClear _ _ => true
  | .eventMaskWrite _ _ => true
  | .wakeDetectorReading _ => true

end Sys2Proof
end

