-- ==== Sys2Proof/Machine/CmdHost.lean ====
section
/-! DEFINITION. The commands of the Host Port (Section 9): CONTROL's commands and bits, the register writes, and the half
accesses. -/

namespace Sys2Proof.Machine

/-- CONTROL Run (R169, R181). -/
def execRun (t : Stamp) (course : ReadCourse) (s : State) : Answer :=
  .next (live (bodyRegister t 0 1 course) s)

/-- CONTROL Stop (R169, R182). -/
def execControlStop (t : Stamp) (s : State) : Answer := .next (live (bodyRegister t 0 2 .first) s)

/-- CONTROL Standby (R169, R183). -/
def execStandby (t : Stamp) (s : State) : Answer := .next (live (bodyRegister t 0 3 .first) s)

/-- CONTROL Reset (R169, R184). -/
def execReset (t : Stamp) (s : State) : Answer := .next (live (bodyRegister t 0 4 .first) s)

/-- CONTROL Attention (R170). -/
def execAttention (t : Stamp) (s : State) : Answer := .next (live (bodyRegister t 0 0x100 .first) s)

/-- CONTROL Reload (R170); its read ends within the command (log 25). -/
def execReload (t : Stamp) (s : State) : Answer := .next (live (bodyRegister t 0 0x200 .first) s)

/-- HELD_RELOAD (R170). -/
def execHeldReload (t : Stamp) (s : State) : Answer := .next (live (bodyHeldReload t) s)

/-- DIRECTORY_WRITE (R172). -/
def execDirectoryWrite (t : Stamp) (value : Word) (s : State) : Answer :=
  .next (powered (bodyRegister t 2 value .first) s)

/-- EVENTS_CLEAR (R175). -/
def execEventsClear (t : Stamp) (value : Word) (s : State) : Answer :=
  .next (powered (bodyRegister t 3 value .first) s)

/-- EVENT_MASK_WRITE (R176). -/
def execEventMaskWrite (t : Stamp) (value : Word) (s : State) : Answer :=
  .next (powered (bodyRegister t 4 value .first) s)

/-- An access that HA0..HA22 can address, or a fault (R166, log 34). A write of CONTROL can set the part going
(`acts`); no other access can. -/
def addressed (inside acts : Bool) (f : State → State) (s : State) : Answer :=
  if inside then .next (if acts then live f s else powered f s) else .fault .noSuchAddress

/-- REGISTER_WRITE (R166): a half of the register window. -/
def execRegisterWrite (t : Stamp) (halfAddress : Nat) (value : Half) (s : State) : Answer :=
  addressed (halfExists halfAddress) (decide (halfAddress = 0)) (bodyRegisterHalf t halfAddress value) s

/-- HALF_READ_LOW (R167). -/
def execHalfReadLow (t : Stamp) (registers : Bool) (word : Nat) (s : State) : Answer :=
  addressed (wordExists word) false (bodyHalfReadLow t registers word) s

/-- HALF_READ_HIGH (R167). -/
def execHalfReadHigh (t : Stamp) (registers : Bool) (word : Nat) (s : State) : Answer :=
  addressed (wordExists word) false (bodyHalfReadHigh t registers word) s

/-- HALF_WRITE_HIGH (R167). -/
def execHalfWriteHigh (t : Stamp) (_registers : Bool) (word : Nat) (value : Half) (s : State) : Answer :=
  addressed (wordExists word) false (bodyHalfWriteHigh t value) s

/-- HALF_WRITE_LOW (R167). -/
def execHalfWriteLow (t : Stamp) (registers : Bool) (word : Nat) (value : Half) (course : ReadCourse) (s : State) :
    Answer :=
  addressed (wordExists word) (registers && decide (word = 0))
    (bodyHalfWriteLow t registers word value course) s

end Sys2Proof.Machine
end

