-- ==== Sys2Proof/Machine/Dispatch.lean ====
section
/-! DEFINITION. Every command's meaning: one arm per constructor of `Instr`. -/

namespace Sys2Proof.Machine

/-- The effect of a command on everything but the queue. -/
def exec (i : Instr) (s : State) : Host.Outcome State Fault Refusal :=
  match i with
  | .powerOnReset => Sys2Proof.Machine.execPowerOnReset s
  | .selfTestEnd t result => Sys2Proof.Machine.execSelfTestEnd t result s
  | .clockLoss t bufferPassed => Sys2Proof.Machine.execClockLoss t bufferPassed s
  | .wake vin => Sys2Proof.Machine.execWake vin s
  | .resetn t heldLow => Sys2Proof.Machine.execResetn t heldLow s
  | .resetTransitionEnd t => Sys2Proof.Machine.execResetTransitionEnd t s
  | .chargeTick m order => Sys2Proof.Machine.execChargeTick m order s
  | .sampleTick => Sys2Proof.Machine.execSampleTick s
  | .frameStart order => Sys2Proof.Machine.execFrameStart order s
  | .silenceExpiry => Sys2Proof.Machine.execSilenceExpiry s
  | .identityReadDone t response => Sys2Proof.Machine.execIdentityReadDone t response s
  | .rateWriteDone t readBack => Sys2Proof.Machine.execRateWriteDone t readBack s
  | .sampleBurstDone t burst => Sys2Proof.Machine.execSampleBurstDone t burst s
  | .imuResponseTimeout t => Sys2Proof.Machine.execImuResponseTimeout t s
  | .attemptsExhausted t response => Sys2Proof.Machine.execAttemptsExhausted t response s
  | .goodRunComplete t burst => Sys2Proof.Machine.execGoodRunComplete t burst s
  | .missingRunComplete t burst => Sys2Proof.Machine.execMissingRunComplete t burst s
  | .stillRunComplete t burst => Sys2Proof.Machine.execStillRunComplete t burst s
  | .impactDeclared t burst => Sys2Proof.Machine.execImpactDeclared t burst s
  | .settleEnd => Sys2Proof.Machine.execSettleEnd s
  | .resetDone t order => Sys2Proof.Machine.execResetDone t order s
  | .readIdDone t id order => Sys2Proof.Machine.execReadIdDone t id order s
  | .readPageDone t page order => Sys2Proof.Machine.execReadPageDone t page order s
  | .readMarkerDone t marker order => Sys2Proof.Machine.execReadMarkerDone t marker order s
  | .programPageDone t pass order => Sys2Proof.Machine.execProgramPageDone t pass order s
  | .eraseBlockDone t pass order => Sys2Proof.Machine.execEraseBlockDone t pass order s
  | .operationTimeout order => Sys2Proof.Machine.execOperationTimeout order s
  | .idleTimeout m order => Sys2Proof.Machine.execIdleTimeout m order s
  | .media t slot => Sys2Proof.Machine.execMedia t slot s
  | .start t slot => Sys2Proof.Machine.execStart t slot s
  | .stopRequest t slot => Sys2Proof.Machine.execStopRequest t slot s
  | .split t slot => Sys2Proof.Machine.execSplit t slot s
  | .protect t slot => Sys2Proof.Machine.execProtect t slot s
  | .unprotect t slot => Sys2Proof.Machine.execUnprotect t slot s
  | .fetch t slot => Sys2Proof.Machine.execFetch t slot s
  | .format t slot => Sys2Proof.Machine.execFormat t slot s
  | .commitDeadline m order => Sys2Proof.Machine.execCommitDeadline m order s
  | .inputQualification m order => Sys2Proof.Machine.execInputQualification m order s
  | .safetyTimerExpiry m order => Sys2Proof.Machine.execSafetyTimerExpiry m order s
  | .batteryOvervoltage m order => Sys2Proof.Machine.execBatteryOvervoltage m order s
  | .termination m order => Sys2Proof.Machine.execTermination m order s
  | .recharge m order => Sys2Proof.Machine.execRecharge m order s
  | .cutoff m order => Sys2Proof.Machine.execCutoff m order s
  | .graceTimerExpiry m order => Sys2Proof.Machine.execGraceTimerExpiry m order s
  | .run t course => Sys2Proof.Machine.execRun t course s
  | .mountWorkEnd t => Sys2Proof.Machine.execMountWorkEnd t s
  | .controlStop t => Sys2Proof.Machine.execControlStop t s
  | .writerClosed t => Sys2Proof.Machine.execWriterClosed t s
  | .standby t => Sys2Proof.Machine.execStandby t s
  | .standbyEntry t => Sys2Proof.Machine.execStandbyEntry t s
  | .reset t => Sys2Proof.Machine.execReset t s
  | .attention t => Sys2Proof.Machine.execAttention t s
  | .reload t => Sys2Proof.Machine.execReload t s
  | .heldReload t => Sys2Proof.Machine.execHeldReload t s
  | .directoryWrite t value => Sys2Proof.Machine.execDirectoryWrite t value s
  | .eventsClear t value => Sys2Proof.Machine.execEventsClear t value s
  | .eventMaskWrite t value => Sys2Proof.Machine.execEventMaskWrite t value s
  | .registerWrite t halfAddress value => Sys2Proof.Machine.execRegisterWrite t halfAddress value s
  | .halfReadLow t registers word => Sys2Proof.Machine.execHalfReadLow t registers word s
  | .halfReadHigh t registers word => Sys2Proof.Machine.execHalfReadHigh t registers word s
  | .halfWriteHigh t registers word value => Sys2Proof.Machine.execHalfWriteHigh t registers word value s
  | .halfWriteLow t registers word value course => Sys2Proof.Machine.execHalfWriteLow t registers word value course s
  | .frameStartLineChange t high order => Sys2Proof.Machine.execFrameStartLineChange t high order s
  | .wakeDetectorReading vin => Sys2Proof.Machine.execWakeDetectorReading vin s

end Sys2Proof.Machine
end

