-- ==== Sys2Proof/Safety.lean ====
section
/-! DEFINITION. What the statements speak of: a state in which nothing waits to go on, the laws that the spec gives the
machine's state, and what the recording blocks may change. -/

namespace Sys2Proof.Machine

/-! ### Nothing waits -/

/-- The part is powered, the Clip Writer holds no request and no work, and no impact mark waits. A mount or a Format may be
under way (R99, R113, R162). -/
structure Still (s : State) : Prop where
  powered : s.part.state ≠ .off
  asserted : s.ga.sysen = true
  noRequest : s.cw.queue = []
  noJob : s.cw.job = .idle
  noReappend : s.cw.reappend = []
  noResume : s.cw.resume = none
  noStopDue : s.cw.stopDue = none
  notFull : s.cw.assembly.length < 8192
  notClosing : s.cw.writer ≠ .closing
  noMarks : s.mu.marks = []

/-- Nothing waits to go on: no mount and no Format is under way either. A command then ends with its own effect (R94,
R105). -/
structure Calm (s : State) : Prop extends Still s where
  noMount : s.sm.mount = none
  noFormat : s.sm.format = none

/-- Like `Calm`, but requests may wait in the queue for their pages, the oldest of them not ready (R115), a page may be at
its program (R125), and a writer that is Closing may wait for it (R123). -/
structure Resting (s : State) : Prop where
  powered : s.part.state ≠ .off
  asserted : s.ga.sysen = true
  oldestUnready : ∀ e, s.cw.queue.head? = some e → e.result = none
  noJob : s.cw.job = .idle
  noReappend : s.cw.reappend = []
  noResume : s.cw.resume = none
  noStopDue : s.cw.stopDue = none
  notFull : s.cw.assembly.length < 8192 ∨ s.cw.programming = true
  notClosing : s.cw.writer ≠ .closing ∨ s.cw.programming = true
  noMarks : s.mu.marks = []
  noMount : s.sm.mount = none
  noFormat : s.sm.format = none

/-- No slot of the request table is Posted, so that a scan takes nothing (R112). -/
def noneOffered (s : State) : Prop :=
  ∀ table, s.cw.table = some table → ∀ i, i < s.cw.slotCount → slotState s table i ≠ 1

/-- The scan of a charge tick finds nothing to take: there is no request table, or no slot of it is Posted, and no other
delivery of the tick writes to the Buffer RAM (R55, R112, R177). -/
def scanIdle (s : State) : Prop :=
  s.cw.table = none ∨ (noneOffered s ∧ s.hp.status = none ∧ s.pu.table = none)

/-- No frame owes a track entry (R43). -/
def noneOwed (s : State) : Prop := ∀ h ∈ s.pu.shadows, h.obligation ≠ .needed

/-- The part is powered, no cutoff sequence runs, and the next reading can begin none (R161, R162). -/
structure Lasting (s : State) : Prop where
  powered : s.part.state ≠ .off
  asserted : s.ga.sysen = true
  noGrace : s.ga.grace = none
  notCutoff : s.ga.level ≠ .cutoff
  notDue : s.ga.cutoffCount < 3

/-- No entry of the frame record table has a tenant, live or Held (R38). -/
def Untracked (s : State) : Prop := ∀ h ∈ s.pu.shadows, h.state = .free ∧ h.held = false

/-! ### What the resets leave -/

/-- The Ride Clock after the part has left Mounting or Running (R4, R8, R12, R13). -/
def leftClock (r : Rck) : Rck := { r with sampleTimer := none, filter := .off, filterRun := 0, silence := none }

/-- The Motion Unit after the part has left Mounting or Running (R18, R23): the link is Off, or will be when the
transaction in flight ends. -/
def leftMotion (m : Mu) : Mu :=
  if m.link = .off then m
  else if m.txn = none then
    { m with link := .off, leaving := false, discard := false, missed := [], detector := .disabled }
  else { m with leaving := true }

/-- The Motion Unit after a reset transition (R36): a transaction in flight ends first. -/
def resetMotion (m : Mu) : Mu := if m.txn = none then Mu.reset else { m with resetDue := true }

/-- The Flash Engine after a reset transition (R74, R85): only a Failed rail stays. -/
def resetFlash (f : Fe) : Fe :=
  if f.rail = .failed then { Fe.reset with rail := .failed, timeouts := 3 } else Fe.reset

/-- The Host Port after a reset (R178): RESETn leaves the registers clear, and a soft reset keeps them. The data pins keep
what the latest read drove (log 2). -/
def resetHost (resetn : Bool) (h : Hp) : Hp :=
  { Hp.reset with
    directory := if resetn then 0 else h.directory, events := if resetn then 0 else h.events
    mask := if resetn then 0 else h.mask, data := h.data }

/-! ### Samples -/

/-- The limits of the accumulators (R28). -/
def atLimit (v : Int) : Int := max (-(2 ^ 47 - 1)) (min (2 ^ 47 - 1) v)

/-- The accumulators after the integration of the words `g` over `T` microseconds, each axis less its bias (R27, R28). -/
def integratedBy (m : Mu) (g : Axes) (T : Nat) : Axes :=
  ⟨atLimit (m.acc.yaw + (g.yaw - m.bias.yaw) * T), atLimit (m.acc.pitch + (g.pitch - m.bias.pitch) * T),
    atLimit (m.acc.roll + (g.roll - m.bias.roll) * T)⟩

/-- The transaction in flight is a sample burst whose result will be taken, with no missed tick behind it (R18). -/
def takesBurst (m : Mu) (tk : Nat) : Prop :=
  m.txn = some (.burst tk) ∧ m.resetDue = false ∧ m.leaving = false ∧ m.discard = false ∧ m.missed = []

/-- The Motion Unit after a good sample taken in Tracking, before it is judged still or for impact (R18, R20, R27). -/
def tracked (s : State) (b : Burst) (tk : Nat) : Mu :=
  { s.mu with
    txn := none, lastCounter := some (burstCounter b), lastGood := some (burstSample b), missingRun := 0
    acc := integratedBy s.mu (burstSample b).gyro
      (match s.mu.lastTime with | none => s.rck.activePeriod | some l => tk - l)
    lastTime := some tk }

/-- The sample is judged no impact: detection is disabled, or the detector is Armed and the sample does not exceed the
threshold (R30). -/
def noImpact (m : Mu) (b : Burst) : Prop :=
  m.detector = .disabled
    ∨ (m.detector = .armed ∧ sampleSquare (burstSample b) ≤ (m.params.impactThreshold * 128) ^ 2)

/-- The segments that a mark with the impact time `t` concerns (R100): the Open one, and within the pre-roll the newest
Closed one before it; in any other writer state the Closed one of highest sequence (log 54). -/
def Targeted (s : State) (t k : Nat) : Prop :=
  if s.cw.writer = .recording then
    openIndex s.sm = some k
      ∨ (newestWhere s.sm (fun e => decide (e.state = .closed)) = some k
        ∧ ∃ i e, openIndex s.sm = some i ∧ s.sm.segments[i]? = some e ∧ t < e.startTime + 1000000 * s.sm.params.preRoll)
  else s.sm.lastClosed = some k
    ∧ ∃ e, s.sm.segments[k]? = some e ∧ holdsData e = true ∧ t < e.endTime + 1000000 * s.sm.params.preRoll

/-! ### Frame records -/

/-- The state with another shadow for one entry. -/
def State.withShadow (s : State) (i : Nat) (h : Shadow) : State := { s with pu.shadows := s.pu.shadows.set i h }

/-- The shadow of a frame once measured outside Tracking (R45): angles of 0, no path, and the Unstabilized flag. -/
def unstabilizedShadow (h : Shadow) : Shadow :=
  { h with state := .measured, theta := ⟨0, 0, 0⟩, path := none, flags := setFlag h.flags .unstabilized }

/-! ### Requests -/

/-- The queue entry of a request just taken (R113, R115). -/
def takenEntry (i : Nat) (r : Request) : QueueEntry := ⟨i, r, none, 0, 0, none, 0⟩

/-- The state once slot `i` of the table at `base` has been taken with its request (R112): the slot reads Taken, the
request is in hand and joins the queue, and the expected sequence counts on. -/
def takenSlot (s : State) (base i : Nat) (r : Request) : State :=
  { s.store (base + 32 * i) [2, 0, 0, 0] with
    cw.queue := [takenEntry i r], cw.expected := s.cw.expected + 1, cw.inHand := some r.sequence }

/-- A taken request after its publication with a result (R115): the slot holds the result, the request is in hand no
longer, and its cause is raised. -/
def publishedSlot (i : Nat) (r : Request) (res : RequestResult) (s : State) : State :=
  State.raise
    { s with mem := (publishSlot (takenEntry i r) res s).mem, cw.queue := [], cw.inHand := none }
    (if res.code = .ok then .requestDone else .requestFailed)

/-- A snapshot is being written, so that a change of the table waits for its end (R103). -/
def snapshotGoing (s : State) : Prop := s.sm.snapshot ≠ none ∧ s.sm.abandoned = false

/-- The rail is Off with nothing asked of it, whatever is known of the flash device (R67). -/
def railUnasked (s : State) : Prop :=
  s.fe.rail = .off ∧ s.fe.waiting = [] ∧ s.fe.heldBack = [] ∧ s.fe.inFlight = none

/-- The rail is Off with nothing asked of it, and the flash device is known (R67, R72). -/
def railAsleep (s : State) : Prop :=
  s.fe.rail = .off ∧ s.fe.waiting = [] ∧ s.fe.heldBack = [] ∧ s.fe.inFlight = none ∧ s.fe.identity = .isMatch

/-- The Flash Engine once a requester has asked it, asleep, for an operation: the rail starts (R67). -/
def awakened (f : Fe) (r : Requester) (op : FlashOp) (now : Nat) : Fe :=
  { f with
    waiting := [⟨r, op, now⟩], rail := .starting, restored := false, settleEnd := some (now + 1000 * f.settleMs) }

/-- The state once the `n` bytes left of the page in the assembly buffer have been filled with a pad item (R127, Table 11-10)
and, the flash asleep, its program has been asked for in segment `j`, with the progress mark of this moment (R125). -/
def paddedPage (s : State) (n j : Nat) (e : Segment) : State :=
  let mark : ProgressMark :=
    ⟨false, j, e.clip, s.sm.openFill, s.cw.lastSequence, s.cw.lastTracked, s.rck.clock, 8192 * (s.sm.openFill + 1)⟩
  let bytes := s.cw.assembly ++ leBytes 4 (3 + 256 * n) ++ List.replicate (n - 4) 0xFF
  { s with
    cw.assembly := bytes, cw.streamPos := s.cw.streamPos + n, cw.programming := true, cw.pageMark := some mark
    fe := awakened s.fe .writer
      (.programPage (e.blocks.getD (s.sm.openFill / 256) 0) (s.sm.openFill % 256) bytes (markBytes mark)) s.rck.clock }

/-- The table once its Open segment `j` has been set Closed with the time now, its frame count and its programmed bytes
(R89, R126), with the snapshot that is due then (R103) and the model's field lastClosed (log 54). -/
def closedTable (s : State) (j : Nat) (e : Segment) : Sm :=
  { s.sm with
    segments := s.sm.segments.set j
      { e with
        state := .closed, endTime := s.rck.clock, frameCount := liveFrameCount s, bytesWritten := 8192 * s.sm.openFill }
    lastClosed := some j, snapshotDue := true }

/-- Byte `n` of the stream lies in the range of a Fetch and in one of these uncorrectable codewords of page `p` (R121). -/
def badByte (r : Request) (p : Nat) (codewords : List Nat) (n : Nat) : Prop :=
  r.byteOffset ≤ n ∧ n < r.byteOffset + r.length
    ∧ ∃ c ∈ codewords, 8192 * p + 1024 * c ≤ n ∧ n < 8192 * p + 1024 * (c + 1)

/-- The lowest such byte, if there is one (R121). -/
def LowestBad (r : Request) (p : Nat) (codewords : List Nat) : Option Nat → Prop
  | none => ∀ n, ¬ badByte r p codewords n
  | some n => badByte r p codewords n ∧ ∀ m, badByte r p codewords m → n ≤ m

/-! ### The directory -/

/-- A count of the directory after its user's clamp: 0 selects 32 (R37, R110). -/
def clampedCount (lo hi v : Nat) : Nat := if v = 0 then 32 else max lo (min hi v)

/-- Where the record of an offset field lies: absent at the offset 0, and where it would pass the end of the Buffer RAM
(R173). -/
def recordPlace (offset size : Nat) : Option Nat :=
  if offset / 16 * 16 = 0 ∨ 2 ^ 24 < offset / 16 * 16 + size then none else some (offset / 16 * 16)

/-! ### The status page -/

/-- The 96 bytes of the status page with the generation `g`, field by field (Table 11-8); its four readings are open values
before the first measurement (log 56), and the bytes written and frame count are while no segment is Open (log 67). -/
def statusImage (g : Word) (s : State) : List Byte :=
  let m := shownReadings s
  leBytes 4 g.toNat
    ++ [BitVec.ofNat 8 (partCode s.part.state), BitVec.ofNat 8 (writerCode s.cw.writer),
        BitVec.ofNat 8 (stopCode s.cw.cause), BitVec.ofNat 8 (linkCode s.mu.link)]
    ++ leBytes 2 ((openIndex s.sm).getD 0xFFFF)
    ++ [BitVec.ofNat 8 (chargeCode s.cc.charge), BitVec.ofNat 8 (faultCode s.cc.cause)]
    ++ leBytes 4 (match openSegment s.sm with | none => 0 | some e => e.clip.toNat)
    ++ leBytes 4 (match openIndex s.sm with | none => Config.noneOpen 0 s.rck.clock | some _ => 8192 * s.sm.openFill)
    ++ leBytes 4 (match openIndex s.sm with | none => Config.noneOpen 1 s.rck.clock | some _ => liveFrameCount s)
    ++ leBytes 4 s.cw.expected.toNat ++ leBytes 4 (s.pu.newest.getD 0xFFFFFFFF)
    ++ leBytes 4 s.pu.overruns ++ leBytes 4 s.pu.unreleased ++ leBytes 4 s.pu.gaps ++ leBytes 4 s.rck.glitches
    ++ leBytes 4 s.pu.clamps ++ leBytes 4 s.mu.impacts ++ leBytes 4 s.mu.merged
    ++ [BitVec.ofNat 8 (zoneCode s.cc.zone),
        BitVec.ofNat 8 ((if s.cc.noThermistor then 1 else 0) + (if s.cc.present then 2 else 0)
          + (if s.cc.overvoltage then 4 else 0)),
        BitVec.ofNat 8 (levelCode s.ga.level), BitVec.ofNat 8 (s.ga.q * 100 / (s.ga.params.capacity * 360000))]
    ++ leInt 2 m.vin ++ leInt 2 m.vbat ++ leInt 2 m.ibat ++ leInt 2 m.tcell
    ++ leBytes 2 s.cc.inputLimit ++ leBytes 2 s.cc.setpoint ++ leBytes 2 (s.ga.q / 360000)
    ++ [BitVec.ofNat 8 (railCode s.fe.rail),
        BitVec.ofNat 8 ((if s.fe.worn then 1 else 0) + (if s.fe.absent then 2 else 0)
          + (if s.sm.table = .unformatted then 4 else 0))]
    ++ leBytes 2 s.fe.bad.length ++ leBytes 2 s.fe.pool.length
    ++ [BitVec.ofNat 8 ((if s.hp.clamped.motion then 1 else 0) + (if s.hp.clamped.storage then 2 else 0)
          + (if s.hp.clamped.power then 4 else 0)), 0, 0, 0]
    ++ leBytes 8 s.rck.clock

/-! ### Laws of the state -/

/-- Every block of the segment space is in exactly one of the bad block list, the spare pool and the block list of one
segment (R87). -/
def PlacedOnce (bad pool : List Nat) (lists : List (List Nat)) : Prop :=
  ∀ b, 16 ≤ b → b < 16384 → (bad ++ pool ++ lists.flatten).count b = 1

/-- The law of R87 of a table. -/
def BlocksPlaced (s : State) : Prop := PlacedOnce s.fe.bad s.fe.pool (s.sm.segments.map (·.blocks))

/-- The next frame number: 2^32 once they are exhausted (R10). -/
def nextNumber (r : Rck) : Nat := match r.nextFrame with | .number n => n | .exhausted => 2 ^ 32

/-- The two laws of the frame record table (R38, R42): each entry that is not Free holds a frame of its own residue, so
that no two hold the same frame, and one of the C most recent frame numbers assigned. -/
def FramesPlaced (s : State) : Prop :=
  ∀ i h, s.pu.shadows[i]? = some h → h.state ≠ .free →
    h.frame % s.pu.shadows.length = i ∧ h.frame < nextNumber s.rck ∧ nextNumber s.rck ≤ h.frame + s.pu.shadows.length

/-- The law of impact protection (R101): the count is that of the table and does not exceed the limit in force. -/
def ImpactsLimited (s : State) : Prop :=
  s.sm.impactCount = (s.sm.segments.filter (protectedBy .impact)).length ∧ s.sm.impactCount ≤ s.sm.params.limit

/-- The block lists of a mount are those of the snapshot it has loaded (R105, R106). -/
def MountPhase.recovers : MountPhase → Bool
  | .finishing => false
  | .readId => false
  | .tableArea _ _ _ _ => false
  | .reErase _ => true
  | .scan _ _ _ _ => true
  | .finalSnapshot => true

/-- The block lists of a Format are those of its partition (R92, R93). -/
def FormatPhase.erases : FormatPhase → Bool
  | .survey _ => false
  | .eraseTable _ => true
  | .eraseSegments _ => true
  | .firstSnapshot => true

/-- The segment table stands: it is mounted, or a mount has loaded it, or a Format has made its partition. -/
def standing (m : Sm) : Bool :=
  decide (m.table = .mounted) || m.mount.any MountPhase.recovers || m.format.any FormatPhase.erases

/-- The count of impact protection is in force: the table is mounted with no mount under way, or a mount has counted (R106). -/
def counted (m : Sm) : Bool := (decide (m.table = .mounted) && m.mount.isNone) || decide (m.mount = some .finalSnapshot)

/-- The laws of the segment table. Those of R87 and R101 are the spec's, and so are R86 for the segments without data and R95 for
the eraser. The rest is what the model needs for them: at most 256 segments (R92, R105), no protection yet while a Format
erases (R92), a mount and a Format never at once, no Format of a table in force, no mount while the part is Running (R181),
and the values of a Run handed before its mount goes on (log 25). -/
structure TableLaws (s : State) : Prop where
  few : s.sm.segments.length ≤ 256
  unprotected : ∀ e ∈ s.sm.segments, holdsData e = false → e.protection = none
  erasing : ∀ (j : EraseJob) (e : Segment), s.sm.eraser = some j → s.sm.segments[j.segment]? = some e → e.state = .erasing
  placed : standing s.sm = true → BlocksPlaced s
  limited : counted s.sm = true → ImpactsLimited s
  fresh : s.sm.format.any FormatPhase.erases = true →
    s.sm.impactCount = 0 ∧ ∀ e ∈ s.sm.segments, protectedBy .impact e = false
  single : s.sm.mount = none ∨ s.sm.format = none
  formatting : s.sm.format ≠ none → s.sm.table ≠ .mounted
  mounting : s.sm.mount ≠ none → s.part.state ≠ .running
  reading : ∀ r, s.hp.reading = some r → r.atRun = true → s.sm.mount = some .finishing

/-- The laws of the frame record table. That of the entries is the spec's (R38, R42). The rest is what the model needs for it:
frame numbers are of 32 bits (R10), the filter is open in Running alone (R8), Mounting begins with every entry Free (R37) and
opens none, and a Standby or reset transition has the part in Idle (R183, R184). -/
structure FrameLaws (s : State) : Prop where
  placed : FramesPlaced s
  number : ∀ n, s.rck.nextFrame = .number n → n < 2 ^ 32
  filter : s.rck.filter ≠ .off → s.part.state = .running
  mounting : s.part.state = .mounting → ∀ h ∈ s.pu.shadows, h.state = .free
  leaving : s.part.transition = .standby ∨ s.part.transition = .reset → s.part.state = .idle

/-- The ride clock never passes its last value (R1). -/
def ClockInRange (s : State) : Prop := s.rck.clock ≤ lastClock

/-- The gauge count lies within 0..Qcap (R154). -/
def GaugeInRange (s : State) : Prop := s.ga.q ≤ gaQcap s.ga.params

/-- The setpoint never exceeds the budget, the state limit and the zone limit, and is the smallest of them (R149). -/
def SetpointLaw (s : State) : Prop :=
  s.cc.setpoint
    = min s.cc.budget
        (min (match s.cc.charge with | .precharge => 100 | .fast => s.cc.params.fast | .taper => s.cc.taper | _ => 0)
          (if s.cc.noThermistor = true ∨ s.cc.zone = .cold ∨ s.cc.zone = .hot then 0
            else if s.cc.zone = .cool then s.cc.params.fast / 2 else s.cc.params.fast))

/-- DIRECTORY holds a multiple of 256 below 2^24 (R172). -/
def DirectoryAligned (s : State) : Prop := directoryValue s.hp.directory = s.hp.directory

/-- The bad block list is ascending without duplicates and holds at most 512 blocks (R77). -/
def BadListLaw (s : State) : Prop := ascending s.fe.bad = true ∧ s.fe.bad.length ≤ 512

/-- The laws that every step keeps, with the canonical form of the Buffer RAM (log 1). -/
structure Lawful (s : State) : Prop where
  memory : memoryWf s.mem = true
  clock : ClockInRange s
  gauge : GaugeInRange s
  setpoint : SetpointLaw s
  directory : DirectoryAligned s
  badList : BadListLaw s
  tables : TableLaws s
  frames : FrameLaws s

/-! ### What the recording blocks may change -/

/-- Each entry that is not Free afterwards held the same frame before, in a table of the same size: no entry was opened. -/
def Settles (a b : List Shadow) : Prop :=
  ∀ (i : Nat) (h : Shadow), b[i]? = some h → h.state ≠ .free →
    b.length = a.length ∧ ∃ g, a[i]? = some g ∧ g.state ≠ .free ∧ g.frame = h.frame

/-- `t` differs from `s` only in what PU, FE, SM and CW may change at work: their own state, the marks they take, the
causes they raise, the release of SYSEN in a cutoff sequence (R162), and the Buffer RAM. The part state, the ride clock,
the Charge Controller, the Gauge's count and level, the host's registers and the queue of commands are as they were. -/
structure Carried (s t : State) : Prop where
  part : t.part = s.part
  rck : t.rck = s.rck
  cc : t.cc = s.cc
  pending : t.pending = s.pending
  ga : { t.ga with sysen := s.ga.sysen } = s.ga
  released : s.ga.grace = none → t.ga.sysen = s.ga.sysen
  held : s.ga.sysen = false → t.ga.sysen = false
  hp : { t.hp with events := s.hp.events } = s.hp
  mu : { t.mu with marks := s.mu.marks } = s.mu
  causes : ∀ c, s.caused c = true → t.caused c = true
  memory : memoryWf s.mem = true → memoryWf t.mem = true
  badList : BadListLaw s → BadListLaw t
  settles : Settles s.pu.shadows t.pu.shadows

/-- The same, with the laws of the segment table. -/
structure Recording (s t : State) : Prop extends Carried s t where
  tables : BadListLaw s → TableLaws s → TableLaws t

/-! ### What any block may change -/

/-- What every change keeps that is no reset: the queue, the causes set (R175), the ride clock's course (R1), and the
laws but those that one part of a command may leave open until another has come: that of the frame record table, which an
accepted frame-start gives anew with its delivery to PU (R40), and that of the setpoint, which a measurement arrival gives
anew at its end (R149). -/
structure Forward (s t : State) : Prop where
  pending : t.pending = s.pending
  causes : ∀ c, s.caused c = true → t.caused c = true
  clock : s.rck.clock ≤ t.rck.clock
  clockInRange : ClockInRange s → ClockInRange t
  memory : memoryWf s.mem = true → memoryWf t.mem = true
  gauge : GaugeInRange s → GaugeInRange t
  directory : DirectoryAligned s → DirectoryAligned t
  badList : BadListLaw s → BadListLaw t
  tables : BadListLaw s → TableLaws s → TableLaws t

/-- The same, with the laws of the frame record table. -/
structure Onward (s t : State) : Prop extends Forward s t where
  frames : FrameLaws s → FrameLaws t

/-- The same, with the law of the setpoint. -/
structure Regular (s t : State) : Prop extends Onward s t where
  setpoint : SetpointLaw s → SetpointLaw t

end Sys2Proof.Machine
end

