-- ==== Sys2Proof/Certificates/Slice0/Obligations.lean ====
section
/-! DEFINITION. The statements for the provers, in the order of the blocks: the step and the part states, the Host Port, the
Ride Clock, the Motion Unit, the Flash Engine, the Path Unit, the Clip Writer and the Segment Manager, the charge tick, the
status page, the snapshot image, and the laws that every step keeps. -/

section

open Sys2Proof Sys2Proof.Machine

/-! ### The step, the resets and the part states (Section 10) -/

/-- One step carries out the command at the front of the queue with the queue's rest, and idles on an empty queue (the
model's queue, log 4). -/
def Obligations.StepTakesFront : Prop :=
  (∀ (c : Instr) (rest : List Instr) (s : State), s.pending = c :: rest → step s = exec c { s with pending := rest })
  ∧ ∀ s : State, s.pending = [] → step s = .next s

/-- POWER_ON_RESET gives every block its power-on values (R179), whatever went before: the ride clock at 0, the part
Starting with memory-ready clear, SYSEN asserted, nothing in the Buffer RAM, the registers of the host clear. The level
of the FSTART pin is an input and stays (log 2), and the commands that wait stay in the queue (log 4). The values for
which the spec gives none are the model's (log 2). -/
def Obligations.PowerOnReset : Prop :=
  ∀ s : State, ∃ t, exec .powerOnReset s = .next t
    ∧ t = { State.reset with rck := { State.reset.rck with line := s.rck.line }, pending := s.pending }
    ∧ t.part.state = .starting ∧ t.part.transition = .none ∧ t.part.memoryReady = false ∧ t.part.haltedCause = .none
    ∧ t.rck.clock = 0 ∧ t.rck.nextChargeTick = 10000 ∧ t.rck.sampleTimer = none ∧ t.rck.activePeriod = 1000
    ∧ t.rck.pendingPeriod = none ∧ t.rck.filter = .off ∧ t.rck.filterLength = 2 ∧ t.rck.minInterval = 8000
    ∧ t.rck.lastAccepted = none ∧ t.rck.nextFrame = .number 0 ∧ t.rck.glitches = 0 ∧ t.rck.silence = none
    ∧ t.fe.rail = .off ∧ t.fe.identity = .unchecked ∧ t.fe.bad = [] ∧ t.fe.pool = [] ∧ t.fe.tableMap = 0xFFFF
    ∧ t.fe.worn = false ∧ t.fe.absent = false ∧ t.sm.table = .unmounted ∧ t.cw.writer = .unmounted
    ∧ t.cc.charge = .noInput ∧ t.cc.present = false ∧ t.cc.setpoint = 0 ∧ t.ga.q = 0 ∧ t.ga.estimated = false
    ∧ t.ga.level = .normal ∧ t.ga.sysen = true ∧ t.hp.directory = 0 ∧ t.hp.events = 0 ∧ t.hp.mask = 0

/-- In Off the wake detector counts readings of 4,200 to 6,500 mV, any other reading clears the count, and the fourth in
a row makes a power-on reset (R163). In every other part state the detector does not run. WAKE stands for the reading
that makes the reset (log 5); the values for which the spec gives none are the model's (log 2). -/
def Obligations.WakeDetector : Prop :=
  ∀ (vin : Int) (s : State),
    (s.part.state ≠ .off → exec (.wakeDetectorReading vin) s = .next s ∧ exec (.wake vin) s = .next s)
    ∧ (s.part.state = .off → ¬(4200 ≤ vin ∧ vin ≤ 6500) →
        exec (.wakeDetectorReading vin) s = .next { s with part.wakeCount := 0 } ∧ exec (.wake vin) s = .next s)
    ∧ (s.part.state = .off → 4200 ≤ vin → vin ≤ 6500 → s.part.wakeCount + 1 < 4 →
        exec (.wakeDetectorReading vin) s = .next { s with part.wakeCount := s.part.wakeCount + 1 }
        ∧ exec (.wake vin) s = .next s)
    ∧ (s.part.state = .off → 4200 ≤ vin → vin ≤ 6500 → 4 ≤ s.part.wakeCount + 1 →
        ∃ t, exec (.wakeDetectorReading vin) s = .next t ∧ exec (.wake vin) s = .next t
          ∧ t = { State.reset with rck := { State.reset.rck with line := s.rck.line }, pending := s.pending })

/-- In Off nothing else runs (R163): every other command leaves the whole state as it is, or faults by its address. That
such a command changes nothing at all, not the clock either, is the model's choice (log 35). -/
def Obligations.OffIgnoresTheRest : Prop :=
  ∀ (c : Instr) (s t : State), s.part.state = .off → exec c s = .next t →
    c = .powerOnReset ∨ (∃ v, c = .wake v) ∨ (∃ v, c = .wakeDetectorReading v) ∨ t = s

/-- SELF_TEST_END in Starting (R171, R179): as soon as the Buffer RAM has passed, memory-ready is set and the part stays
in Starting; with both tests passed the part is Idle with memory-ready set; a failed Buffer RAM leads to Halted with
memory-ready as it was, which is clear since the power-on reset; a failed internal RAM leads to Halted with it set; each
failure raises Halted. That the command names which test ended is the model's (log 12), and so is it that in any other part
state only the clock moves (log 6). -/
def Obligations.SelfTestEnds : Prop :=
  ∀ (t : Stamp) (r : SelfTest) (s : State), Calm s →
    (s.part.state ≠ .starting → exec (.selfTestEnd t r) s = .next (s.advance t.toNat))
    ∧ (s.part.state = .starting →
        exec (.selfTestEnd t .bufferPassed) s = .next { s.advance t.toNat with part.memoryReady := true }
        ∧ exec (.selfTestEnd t .passed) s
          = .next { s.advance t.toNat with part.state := .idle, part.memoryReady := true }
        ∧ exec (.selfTestEnd t .bufferFailed) s
          = .next (State.raise
              { s.advance t.toNat with
                part.state := .halted, part.transition := .none, part.haltedCause := .bufferMemory
                part.haltAfter := false } .halted)
        ∧ exec (.selfTestEnd t .internalFailed) s
          = .next (State.raise
              { s.advance t.toNat with
                part.state := .halted, part.transition := .none, part.haltedCause := .internalMemory
                part.haltAfter := false, part.memoryReady := true } .halted))

/-- CLOCK_LOSS (R180): from Starting and from Standby the part enters Halted with the cause ClockLoss; from Idle,
Mounting and Running a reset transition begins that will end in Halted, the sample timer stopped, the filter Off and the
IMU link left; the clock goes on from the backup oscillator. In Starting memory-ready is set where an operand says that the
Buffer RAM had passed its test, and else stays as it was (log 12). That a loss already judged, and one in Halted, moves
only the clock, but for the mark of the loss, is the model's (log 6). -/
def Obligations.ClockLossHalts : Prop :=
  ∀ (t : Stamp) (passed : Bool) (s : State),
    (Calm s → s.part.onBackup = true → exec (.clockLoss t passed) s = .next (s.advance t.toNat))
    ∧ (Calm s → s.part.onBackup = false → s.part.state = .halted →
        exec (.clockLoss t passed) s = .next { s.advance t.toNat with part.onBackup := true })
    ∧ (Calm s → s.part.onBackup = false → s.part.state = .starting →
        exec (.clockLoss t passed) s
          = .next (State.raise
              { s.advance t.toNat with
                part.state := .halted, part.transition := .none, part.haltedCause := .clockLoss
                part.haltAfter := false, part.onBackup := true
                part.memoryReady := s.part.memoryReady || passed } .halted))
    ∧ (s.ga.sysen = true → s.part.onBackup = false → s.part.state = .standby →
        exec (.clockLoss t passed) s
          = .next (State.raise
              { s.advance t.toNat with
                part.state := .halted, part.transition := .none, part.haltedCause := .clockLoss
                part.haltAfter := false, part.onBackup := true
                mu := resetMotion s.mu, pu := Pu.reset, sm := Sm.reset, cw := Cw.reset, fe := resetFlash s.fe
                hp := resetHost false s.hp } .halted))
    ∧ (s.ga.sysen = true → s.part.onBackup = false →
        (s.part.state = .idle ∨ s.part.state = .mounting ∨ s.part.state = .running) →
        s.part.transition ≠ .reset →
        exec (.clockLoss t passed) s
          = .next { s.advance t.toNat with
              part.state := .idle, part.transition := .reset, part.onBackup := true, part.haltAfter := true
              rck := leftClock (s.advance t.toNat).rck, mu := leftMotion s.mu, hp.reading := none })

/-- How a reset begins (R36, R178, R184). A falling edge of RESETn clears DIRECTORY, EVENTS and EVENT_MASK; in Idle,
Mounting, Running and Standby, and during a Stop or Standby transition, a reset transition begins, in which STATE shows
Idle; in Starting and Halted only the Host Port is reset; in a reset transition only the registers are cleared. The
Reset command begins the same transition in Idle, Mounting and Running and keeps the registers. The sample timer stops,
the filter goes Off, the IMU link is left; the ride clock, the Charge Controller and the Gauge go on as they were. Whether
RESETn stays low is an operand, the model's (log 11); a profile read in progress ends with nothing handed (R174); a RESETn in a
reset transition joins it, which will end with the registers cleared; that it begins no second one is the model's
choice (log 37). -/
def Obligations.ResetsBegin : Prop :=
  ∀ (t : Stamp) (low : Bool) (s : State),
    (Calm s → (s.part.state = .starting ∨ s.part.state = .halted) →
        exec (.resetn t low) s
          = .next { s.advance t.toNat with part.resetnLow := low, hp := { Hp.reset with data := s.hp.data } })
    ∧ (s.ga.sysen = true →
        (s.part.state = .idle ∨ s.part.state = .mounting ∨ s.part.state = .running ∨ s.part.state = .standby) →
        s.part.transition ≠ .reset →
        exec (.resetn t low) s
          = .next { s.advance t.toNat with
              part.state := .idle, part.transition := .reset, part.resetnLow := low, part.byResetn := true
              rck := leftClock (s.advance t.toNat).rck, mu := leftMotion s.mu
              hp.directory := 0, hp.events := 0, hp.mask := 0, hp.reading := none })
    ∧ (s.ga.sysen = true → s.part.state = .idle → s.part.transition = .reset →
        exec (.resetn t low) s
          = .next { s.advance t.toNat with
              part.resetnLow := low, part.byResetn := true, hp.directory := 0, hp.events := 0, hp.mask := 0 })
    ∧ (s.ga.sysen = true → (s.part.state = .idle ∨ s.part.state = .mounting ∨ s.part.state = .running) →
        s.part.transition ≠ .reset →
        exec (.reset t) s
          = .next { s.advance t.toNat with
              part.state := .idle, part.transition := .reset
              rck := leftClock (s.advance t.toNat).rck, mu := leftMotion s.mu, hp.reading := none })

/-- RESET_TRANSITION_END, with no flash operation in flight (R36, R62, R85, R109, R132, R178, R184): RESETn reads high
again (the model's, log 11), the Motion Unit,
the Path Unit, the Flash Engine (but a Failed rail), the Segment Manager and the Clip Writer take their reset values,
the Host Port keeps DIRECTORY, EVENTS and EVENT_MASK after a soft reset and has them cleared where RESETn began the
transition or joined it, the always-on domain goes on, and the part is Idle, or Halted with
the cause ClockLoss after a loss of the reference (R180); here with no cutoff sequence in progress, whose end would
release SYSEN. That with an operation in flight only the clock moves is the model's (log 6). The values for which the spec
gives none are the model's (log 2). -/
def Obligations.ResetTransitionEnds : Prop :=
  ∀ (t : Stamp) (s : State), s.ga.sysen = true → s.part.transition = .reset → s.part.state = .idle →
    (s.fe.inFlight ≠ none → exec (.resetTransitionEnd t) s = .next (s.advance t.toNat))
    ∧ (s.fe.inFlight = none → s.ga.grace = none →
        ∃ u : State,
          u = { s.advance t.toNat with
                  part.transition := .none, part.resetnLow := false, part.byResetn := false
                  mu := resetMotion s.mu, pu := Pu.reset, sm := Sm.reset, cw := Cw.reset, fe := resetFlash s.fe
                  hp := resetHost s.part.byResetn s.hp }
          ∧ (s.part.haltAfter = false → exec (.resetTransitionEnd t) s = .next u)
          ∧ (s.part.haltAfter = true →
              exec (.resetTransitionEnd t) s
                = .next (State.raise
                    { u with part.state := .halted, part.haltedCause := .clockLoss, part.haltAfter := false } .halted)))

/-! ### The Host Port (Section 9) -/

/-- The half reads (R166, R167, R168). A read of a low half drives the low half of the 32-bit word onto the data pins
and loads the latch with its high half; a read of a high half drives the latch. A Buffer RAM word is read where the
Buffer RAM is served (Idle, Mounting, Running, and Halted with memory-ready set) and as 0 elsewhere; the register window
gives STATE, DIRECTORY, EVENTS and EVENT_MASK at words 1 to 4 and 0 elsewhere. In Standby the part is woken first, but
by a read of STATE. Nothing else changes: no byte of the Buffer RAM, no register. That a read of a high half drives the latch
for a reserved word, and where the Buffer RAM is not served, is the model's (log 70). -/
def Obligations.HalfReads : Prop :=
  ∀ (t : Stamp) (registers : Bool) (word : Nat) (s : State), word < 4194304 → s.part.state ≠ .off →
    ∃ (a : State) (v : Word),
      a = (if s.part.state = .standby ∧ ¬(registers = true ∧ word = 1) then wakeStandby (s.advance t.toNat)
            else s.advance t.toNat)
      ∧ (registers = true → v =
          if word = 1 then stateWord a.part else if word = 2 then a.hp.directory
          else if word = 3 then a.hp.events.zeroExtend 32 else if word = 4 then a.hp.mask.zeroExtend 32 else 0)
      ∧ (registers = false → v =
          if a.part.state = .idle ∨ a.part.state = .mounting ∨ a.part.state = .running
              ∨ (a.part.state = .halted ∧ a.part.memoryReady = true) then
            readCell a.mem (4 * word + 3) ++ readCell a.mem (4 * word + 2) ++ readCell a.mem (4 * word + 1)
              ++ readCell a.mem (4 * word)
          else 0)
      ∧ exec (.halfReadLow t registers word) s
          = .next { a with hp.data := v.extractLsb' 0 16, hp.latch := v.extractLsb' 16 16 }
      ∧ exec (.halfReadHigh t registers word) s = .next { a with hp.data := a.hp.latch }

/-- The half writes to the Buffer RAM (R167, R168). A write of a high half, to the Buffer RAM or to the register window,
loads the latch and changes nothing else. A write of a low half stores the written value and the latch as one 32-bit
word where the Buffer RAM is served, is dropped elsewhere, and leaves the latch; every byte outside the word is
unchanged. -/
def Obligations.HalfWrites : Prop :=
  ∀ (t : Stamp) (word : Nat) (value : Half) (s : State), word < 4194304 → s.part.state ≠ .off →
    ∃ a : State,
      a = (if s.part.state = .standby then wakeStandby (s.advance t.toNat) else s.advance t.toNat)
      ∧ (∀ registers, exec (.halfWriteHigh t registers word value) s = .next { a with hp.latch := value })
      ∧ (¬(a.part.state = .idle ∨ a.part.state = .mounting ∨ a.part.state = .running
            ∨ (a.part.state = .halted ∧ a.part.memoryReady = true)) →
          ∀ course, exec (.halfWriteLow t false word value course) s = .next a)
      ∧ (memoryWf s.mem = true → (a.part.state = .idle ∨ a.part.state = .mounting ∨ a.part.state = .running
            ∨ (a.part.state = .halted ∧ a.part.memoryReady = true)) →
          ∃ m, (∀ course, exec (.halfWriteLow t false word value course) s = .next { a with mem := m })
            ∧ readCell m (4 * word) = value.extractLsb' 0 8 ∧ readCell m (4 * word + 1) = value.extractLsb' 8 8
            ∧ readCell m (4 * word + 2) = a.hp.latch.extractLsb' 0 8
            ∧ readCell m (4 * word + 3) = a.hp.latch.extractLsb' 8 8
            ∧ ∀ b, b < 4 * word ∨ 4 * word + 4 ≤ b → readCell m b = readCell a.mem b)

/-- An access to a word that HA0..HA22 cannot address does not exist (R166, log 34): the model stops by name; and every
command that can come answers a next state. -/
def Obligations.OnlyAddressesFault : Prop :=
  (∀ (t : Stamp) (registers : Bool) (word : Nat) (v : Half) (course : ReadCourse) (s : State), 4194304 ≤ word →
    exec (.halfReadLow t registers word) s = .fault .noSuchAddress
    ∧ exec (.halfReadHigh t registers word) s = .fault .noSuchAddress
    ∧ exec (.halfWriteHigh t registers word v) s = .fault .noSuchAddress
    ∧ exec (.halfWriteLow t registers word v course) s = .fault .noSuchAddress)
  ∧ (∀ (t : Stamp) (half : Nat) (v : Half) (s : State), 8388608 ≤ half →
      exec (.registerWrite t half v) s = .fault .noSuchAddress)
  ∧ ∀ (c : Instr) (s : State), c.wellFormed = true → ∃ t, exec c s = .next t

/-- The register writes (R171, R172, R175, R176), in every part state but Off; in Standby the part is woken first
(R168). DIRECTORY takes the value with its low 8 bits and the bits above 23 forced to 0; EVENTS loses each cause written
1; EVENT_MASK takes the value; while RESETn is held low DIRECTORY and EVENT_MASK stay clear (R184, log 11). A write of a
low half acts with the latch as the high half; STATE and the rest of the window ignore writes; an odd half only loads
the latch. A write of CONTROL's low half (R169, R170) is the command its code names, 1 Run, 2 Stop, 3 Standby, 4 Reset, or,
with the code None, Attention for bit 8 and Reload for bit 9, and nothing with neither. The command is judged first, then
the Reload bit, then the Attention bit: a Run that is taken serves the Reload too; after a Run that Mounting refuses the
Reload is held; a Reload with a Reset that is taken is refused; and an Attention with a Stop in Mounting comes to nothing.
In these last the part is at rest. The Reload here is one whose read ends within the command (log 25). That DIRECTORY_WRITE,
EVENTS_CLEAR and EVENT_MASK_WRITE carry the whole word and leave the latch is the model's (log 66), and so is it that a bit
is judged by the state which the command of its write has left (log 72). -/
def Obligations.RegisterWrites : Prop :=
  ∀ (t : Stamp) (v : Word) (s a : State), s.part.state ≠ .off →
    a = (if s.part.state = .standby then wakeStandby (s.advance t.toNat) else s.advance t.toNat) →
    (exec (.directoryWrite t v) s
      = .next (if s.part.resetnLow then a else { a with hp.directory := v &&& 0x00FFFF00 }))
    ∧ (exec (.eventsClear t v) s = .next { a with hp.events := s.hp.events &&& ~~~(v.extractLsb' 0 16) })
    ∧ (exec (.eventMaskWrite t v) s
      = .next (if s.part.resetnLow then a else { a with hp.mask := v.extractLsb' 0 16 }))
    ∧ (∀ (value : Half) (course : ReadCourse), v = s.hp.latch ++ value →
        exec (.halfWriteLow t true 2 value course) s = exec (.directoryWrite t v) s
        ∧ exec (.halfWriteLow t true 3 value course) s = exec (.eventsClear t v) s
        ∧ exec (.halfWriteLow t true 4 value course) s = exec (.eventMaskWrite t v) s
        ∧ exec (.registerWrite t 4 value) s = exec (.directoryWrite t v) s
        ∧ exec (.registerWrite t 6 value) s = exec (.eventsClear t v) s
        ∧ exec (.registerWrite t 8 value) s = exec (.eventMaskWrite t v) s)
    ∧ (∀ (half : Nat) (value : Half), half < 8388608 → half % 2 = 1 →
        exec (.registerWrite t half value) s = .next { a with hp.latch := value })
    ∧ (∀ (word : Nat) (value : Half) (course : ReadCourse), word < 4194304 → (word = 1 ∨ 5 ≤ word) →
        exec (.halfWriteLow t true word value course) s = .next a
        ∧ exec (.registerWrite t (2 * word) value) s = .next a)
    ∧ ∀ (value : Half) (course : ReadCourse) (c : Instr),
        (c = .halfWriteLow t true 0 value course ∨ (c = .registerWrite t 0 value ∧ course = .first)) →
        (value.getLsbD 8 = false → value.getLsbD 9 = false →
          (value.toNat % 8 = 1 → exec c s = exec (.run t course) s)
          ∧ (value.toNat % 8 = 2 → exec c s = exec (.controlStop t) s)
          ∧ (value.toNat % 8 = 3 → exec c s = exec (.standby t) s)
          ∧ (value.toNat % 8 = 4 → exec c s = exec (.reset t) s)
          ∧ (value.toNat % 8 = 0 → Calm a → exec c s = .next a))
        ∧ (value.toNat % 8 = 0 → value.getLsbD 8 = true → value.getLsbD 9 = false → exec c s = exec (.attention t) s)
        ∧ (value.toNat % 8 = 0 → value.getLsbD 8 = false → value.getLsbD 9 = true → course ≠ .lasting →
          exec c s = exec (.reload t) s)
        ∧ (value.toNat % 8 = 1 → value.getLsbD 8 = false → value.getLsbD 9 = true →
          (a.part.state = .idle → a.part.transition = .none → exec c s = exec (.run t course) s)
          ∧ (a.part.state = .mounting → a.part.transition = .none → Calm a →
            exec c s = .next (State.raise { a with hp.reloadHeld := true } .commandRefused)))
        ∧ (value.toNat % 8 = 4 → value.getLsbD 8 = false → value.getLsbD 9 = true → s.ga.sysen = true →
          (a.part.state = .idle ∨ a.part.state = .mounting ∨ a.part.state = .running) → a.part.transition ≠ .reset →
          ∃ u, exec (.reset t) s = .next u ∧ exec c s = .next (u.raise .commandRefused))
        ∧ (value.toNat % 8 = 2 → value.getLsbD 8 = true → value.getLsbD 9 = false → s.part.state = .mounting →
          s.part.transition = .none → Calm s → exec c s = .next { a with part.transition := .stop })

/-- EVENT_MASK and INTn (R176): a write stores one enable for each cause; the line is asserted exactly while some cause
is set in EVENTS with its enable set in EVENT_MASK, so clearing the last of them releases it; and EVENT_MASK is 0 after
power-on reset and after RESETn. -/
def Obligations.InterruptLine : Prop :=
  (∀ s : State, s.interrupt = true ↔ ∃ c : Cause, s.caused c = true ∧ s.hp.mask.getLsbD (causeBit c) = true)
  ∧ (∀ (t : Stamp) (v : Word) (s : State), s.part.state ≠ .off → s.part.resetnLow = false →
      ∃ u, exec (.eventMaskWrite t v) s = .next u ∧ u.hp.mask = v.extractLsb' 0 16 ∧ u.hp.events = s.hp.events)
  ∧ (∀ s : State, ∃ u, exec .powerOnReset s = .next u ∧ u.hp.mask = 0 ∧ u.interrupt = false)
  ∧ (∀ (t : Stamp) (low : Bool) (s : State), s.part.state ≠ .off → s.ga.sysen = true →
      ∃ u, exec (.resetn t low) s = .next u ∧ u.hp.mask = 0 ∧ u.interrupt = false)

/-- A CONTROL command not taken is ignored and CommandRefused is raised (R169, Table 9-3): Run outside Idle, Stop
outside Running and Mounting, Standby outside Idle, Reset in Starting and Halted, and every command but Reset during a
transition. The part state is unchanged. A Reload in Starting and Halted is refused too (R170). -/
def Obligations.CommandsRefused : Prop :=
  ∀ (t : Stamp) (course : ReadCourse) (s u : State), Calm s → s.part.state ≠ .standby →
    u = (s.advance t.toNat).raise .commandRefused →
    (¬(s.part.state = .idle ∧ s.part.transition = .none) →
        exec (.run t course) s = .next u ∧ exec (.standby t) s = .next u)
    ∧ (¬((s.part.state = .running ∨ s.part.state = .mounting) ∧ s.part.transition = .none) →
        exec (.controlStop t) s = .next u)
    ∧ (s.part.state = .starting ∨ s.part.state = .halted ∨ s.part.transition = .reset →
        exec (.reset t) s = .next u ∧ exec (.reload t) s = .next u)
    ∧ (∀ half : Half, half.toNat % 8 ≥ 5 → half.getLsbD 8 = false → half.getLsbD 9 = false →
        exec (.registerWrite t 0 half) s = .next u)

/-- A Standby taken in Idle (R84, R183): with no operation in flight the rail is switched off at once and STANDBY_ENTRY
takes the part to Standby; with one in flight the rail stays until it ends, and STANDBY_ENTRY waits: that only the clock
moves then is the model's (log 6). An access in Standby wakes the part to Idle and switches the rail on again for requests
that waited. -/
def Obligations.StandbyTaken : Prop :=
  ∀ (t : Stamp) (s : State), Calm s →
    (s.part.state = .idle → s.part.transition = .none →
        exec (.standby t) s
          = .next (if s.fe.inFlight = none ∧ s.fe.rail ≠ .failed then
              { s.advance t.toNat with
                part.transition := .standby, fe.rail := .off, fe.restored := false, fe.settleEnd := none }
            else { s.advance t.toNat with part.transition := .standby }))
    ∧ (s.part.transition = .standby → s.fe.inFlight = none → (s.fe.rail = .off ∨ s.fe.rail = .failed) →
        exec (.standbyEntry t) s
          = .next { s.advance t.toNat with part.state := .standby, part.transition := .none })
    ∧ (s.part.transition = .standby → (s.fe.inFlight ≠ none ∨ s.fe.rail = .starting ∨ s.fe.rail = .ready
            ∨ s.fe.rail = .busy) →
        exec (.standbyEntry t) s = .next (s.advance t.toNat))
    ∧ (s.part.state = .standby →
        wakeStandby s
          = if s.fe.rail = .off ∧ s.fe.waiting ≠ [] then
              { s with
                part.state := .idle, fe.rail := .starting, fe.restored := false
                fe.settleEnd := some (s.rck.clock + 1000 * s.fe.settleMs) }
            else { s with part.state := .idle })

/-- Stop (R4, R8, R18, R60, R89, R116, R123, R125, R127, R182). It is taken in Mounting and in Running with no transition
in progress: the part stays where it is with the indication Stop; in Running the Clip Writer is told. A writer that is
Stopped or Faulted stays so. One that records goes to Closing with the cause ControlStop: a page at its program is left to
end; a partial page in the assembly buffer is filled with a pad item and its program is asked for with the progress mark of
this moment; with nothing in the buffer the open segment is closed with the time now, its frame count and its programmed
bytes, no segment is Open, and the writer is Stopped in the same step, here with no frame owed a track entry and a snapshot
being written. The writer reports closed (WRITER_CLOSED) when it is Stopped or Faulted with no request in hand and an empty queue: the part
leaves Running for Idle, the sample timer stops, the filter goes Off, the link is left and a path break is made, here with
no frame record to make Final and no impact run declared. That before that report nothing but the clock moves is the
model's (log 6); so are the field lastClosed (log 54) and the path number's stop at 2^32 − 1 (log 47). -/
def Obligations.StopTaken : Prop :=
  ∀ (t : Stamp) (s : State),
    (s.part.transition = .none → s.part.state = .mounting → Still s → s.sm.format = none →
        (s.sm.mount = none ∨ s.sm.mount = some .readId) →
        exec (.controlStop t) s = .next { s.advance t.toNat with part.transition := .stop })
    ∧ (s.part.transition = .none → s.part.state = .running → Calm s →
        (s.cw.writer = .stopped ∨ s.cw.writer = .faulted) →
        s.cw.reloc = none →
        exec (.controlStop t) s = .next { s.advance t.toNat with part.transition := .stop })
    ∧ (s.part.transition = .none → s.part.state = .running → Resting s → s.cw.writer = .recording →
        s.cw.reloc = none → s.cw.programming = true →
        exec (.controlStop t) s
          = .next (State.raise
              { s.advance t.toNat with
                part.transition := .stop, cw.writer := .closing, cw.cause := .controlStop } .writerState))
    ∧ (∀ j d n, s.part.transition = .none → s.part.state = .running → Resting s → s.cw.writer = .recording →
        s.cw.reloc = none → s.sm.change = none → s.cw.programming = false → s.cw.assembly ≠ [] →
        n = 8192 - s.cw.assembly.length → 16 ≤ n → openIndex s.sm = some j → s.sm.segments[j]? = some d → railAsleep s →
        exec (.controlStop t) s
          = .next (State.raise
              { paddedPage (s.advance t.toNat) n j d with
                part.transition := .stop, cw.writer := .closing, cw.cause := .controlStop } .writerState))
    ∧ (∀ j d, s.part.transition = .none → s.part.state = .running → Calm s → s.cw.writer = .recording →
        s.cw.reloc = none → s.sm.change = none → s.cw.programming = false → s.cw.assembly = [] → s.ga.grace = none →
        openIndex s.sm = some j → s.sm.segments[j]? = some d →
        (∀ k g, s.sm.segments[k]? = some g → g.state = .opened → k = j) → noneOwed s → snapshotGoing s →
        exec (.controlStop t) s
          = .next (State.raise (State.raise
              { s.advance t.toNat with
                part.transition := .stop, cw.writer := .stopped, cw.cause := .controlStop
                sm := closedTable (s.advance t.toNat) j d } .segmentClosed) .writerState)
        ∧ openIndex (closedTable (s.advance t.toNat) j d) = none)
    ∧ (Calm s → s.part.state = .running → s.part.transition = .stop →
        (s.cw.writer = .stopped ∨ s.cw.writer = .faulted) → s.cw.inHand = none →
        Untracked s → s.mu.detector ≠ .declared →
        exec (.writerClosed t) s
          = .next { s.advance t.toNat with
              part.state := .idle, part.transition := .none
              rck := leftClock (s.advance t.toNat).rck
              mu := leftMotion { s.mu with detector := .disabled, impactRun := 0 }
              pu.pathNumber := satInc s.pu.pathNumber })
    ∧ (Calm s → s.part.state = .running → s.part.transition ≠ .stop ∨ s.cw.writer = .recording ∨ s.cw.inHand ≠ none →
        exec (.writerClosed t) s = .next (s.advance t.toNat))

/-! ### The Ride Clock (Section 1) -/

/-- The timers of the Ride Clock (R4, R5, R12, R14, R18, R22, R29, R48). SAMPLE_TICK: with the timer Stopped no tick
occurs. With the link Off, and, where there is no frame record to measure, with the link Absent or still being
identified, only the schedule moves on: a pending period is installed and the following tick is one active period later.
While the link takes samples the Motion Unit also begins a sample burst for this tick, behind a rate write where one is
due; with a transaction still in flight the tick is missed and waits in the list. SILENCE_EXPIRY: the last interval
becomes none, the timer is disarmed, and the Path Unit makes a path break; with no frame record to make Final only its
path number moves; with the timer disarmed nothing happens. A timer's row advances the clock to the time it was due (log
3); that the path number stays at 2^32 − 1 is the model's (log 47). -/
def Obligations.TimersExpire : Prop :=
  (∀ s : State, Calm s → s.rck.sampleTimer = none → exec .sampleTick s = .next s)
  ∧ (∀ (tk P : Nat) (s : State), Calm s → s.rck.sampleTimer = some tk →
    P = s.rck.pendingPeriod.getD s.rck.activePeriod →
    (s.mu.link = .off ∨ (s.mu.link = .absent ∧ Untracked s)
      ∨ (s.mu.link = .starting ∧ s.mu.phase = .identify ∧ Untracked s)) →
    exec .sampleTick s
      = .next { s.advance tk with
          rck.activePeriod := P, rck.pendingPeriod := none, rck.sampleTimer := some (tk + P) })
  ∧ (∀ (tk : Nat) (s : State), Calm s → s.rck.sampleTimer = some tk → s.mu.leaving = false → muSamples s.mu = true →
    ∃ (P : Nat) (due : Bool),
      P = s.rck.pendingPeriod.getD s.rck.activePeriod ∧ due = (s.mu.rateDue || s.rck.pendingPeriod.isSome)
      ∧ exec .sampleTick s
        = .next { s.advance tk with
            rck.activePeriod := P, rck.pendingPeriod := none, rck.sampleTimer := some (tk + P)
            mu.rateDue := due
            mu.missed := if s.mu.txn.isSome then s.mu.missed ++ [tk] else s.mu.missed
            mu.txn := if s.mu.txn.isSome then s.mu.txn
              else if due then some (.rateThenBurst P tk) else some (.burst tk) })
  ∧ (∀ s : State, Calm s → s.rck.silence = none → exec .silenceExpiry s = .next s)
  ∧ ∀ (e : Nat) (s : State), Calm s → s.rck.silence = some e → Untracked s →
    exec .silenceExpiry s
      = .next { s.advance e with
          rck.lastInterval := none, rck.silence := none, pu.pathNumber := min (s.pu.pathNumber + 1) (2 ^ 32 - 1) }

/-- The frame filter (R7, R9, R10). An edge in Low enters Qualifying with a run of 0 when the filter length is not 0,
and is qualified at once when it is; a low line in Qualifying rejects the edge and in High enters Low; no other change
of the line moves the filter. FRAME_START is the edge qualified when its run reaches the filter length; one closer to
the last accepted frame-start than the minimum interval, or with no frame number left, is a glitch: it is counted, and
nothing else but the filter and the clock moves. Outside Qualifying FRAME_START does nothing. FRAME_START comes at the
microsecond at which the run is complete (log 28). -/
def Obligations.FrameFilter : Prop :=
  (∀ (t : Stamp) (high : Bool) (o : List FrameDelivery) (s : State), Calm s →
    ((s.rck.filter = .off ∨ (s.rck.filter = .low ∧ high = false) ∨ (s.rck.filter = .high ∧ high = true)) →
        exec (.frameStartLineChange t high o) s = .next { s.advance t.toNat with rck.line := high })
    ∧ (s.rck.filter = .qualifying → high = false →
        exec (.frameStartLineChange t high o) s
          = .next { s.advance t.toNat with rck.line := false, rck.filter := .low, rck.filterRun := 0 })
    ∧ (s.rck.filter = .high → high = false →
        exec (.frameStartLineChange t high o) s
          = .next { s.advance t.toNat with rck.line := false, rck.filter := .low })
    ∧ (s.rck.filter = .low → high = true → s.rck.filterLength ≠ 0 →
        exec (.frameStartLineChange t high o) s
          = .next { s.advance t.toNat with rck.line := true, rck.filter := .qualifying, rck.filterRun := 0 })
    ∧ (s.rck.filter = .low → high = true → s.rck.filterLength = 0 →
        exec (.frameStartLineChange t high o) s
          = exec (.frameStart o)
              { s.advance t.toNat with rck.line := true, rck.filter := .qualifying, rck.filterRun := 0 }))
  ∧ (∀ (o : List FrameDelivery) (s : State), Calm s → s.rck.filter ≠ .qualifying → exec (.frameStart o) s = .next s)
  ∧ ∀ (o : List FrameDelivery) (s : State) (e : Nat), Calm s → s.rck.filter = .qualifying →
    e = s.rck.clock + (s.rck.filterLength - s.rck.filterRun) → e ≤ lastClock →
    (s.rck.nextFrame = .exhausted ∨ ∃ l, s.rck.lastAccepted = some l ∧ e - l < s.rck.minInterval) →
    exec (.frameStart o) s
      = .next { s with
          rck := { s.rck with
            clock := e, filter := .high, filterRun := 0, glitches := min (s.rck.glitches + 1) (2 ^ 32 - 1) } }

/-- FRAME_START: an edge that is no glitch is an accepted frame-start (R10, R11, R12, R41, R43). It takes the next frame
number, the interval and the silence expiry follow from the last accepted one, pending filter values are installed, and
the Path Unit opens the frame's entry as Captured, here with no table in the Buffer RAM (R37) and a Free entry. Whatever
the entry holds, every accepted frame-start keeps the laws of the table (R38, R42): no two entries that are not Free hold the
same frame, and each holds one of the C most recent frame numbers assigned; here with no request table. FRAME_START comes at
the microsecond at which the run is complete (log 28). -/
def Obligations.FrameStartAccepted : Prop :=
  (∀ (o : List FrameDelivery) (s : State) (n e i : Nat) (interval : Option Nat), Calm s → s.rck.filter = .qualifying →
    e = s.rck.clock + (s.rck.filterLength - s.rck.filterRun) → e ≤ lastClock →
    s.rck.nextFrame = .number n → (∀ l, s.rck.lastAccepted = some l → s.rck.minInterval ≤ e - l) →
    interval = (if s.rck.silence.isSome then s.rck.lastAccepted.map fun l => e - l else none) →
    s.mu.pending = none → s.pu.pending = none → s.pu.table = none → s.cw.table = none →
    i = n % s.pu.shadows.length → (s.pu.shadow i).state = .free →
    exec (.frameStart o) s
      = .next { s with
          rck := { s.rck with
            clock := e, filter := .high, filterRun := 0, lastInterval := interval, lastAccepted := some e
            silence := some (e + 4 * interval.getD 100000)
            nextFrame := if n + 1 < 2 ^ 32 then .number (n + 1) else .exhausted
            filterLength := s.rck.pendingFilterLength.getD s.rck.filterLength, pendingFilterLength := none
            minInterval := s.rck.pendingMinInterval.getD s.rck.minInterval, pendingMinInterval := none }
          pu.newest := some n
          pu.shadows := s.pu.shadows.set i
            { state := .captured, frame := n, held := false, capture := e, reference := (e : Int) + s.pu.params.exposure
              theta := ⟨0, 0, 0⟩, path := none, flags := 0, samples := 0, x16 := 0, y16 := 0, roll := 0, segment := none
              obligation := if s.cw.writer = .recording ∧ s.cw.clipFirst ≤ n then .needed else .notNeeded
              released := true } })
  ∧ ∀ (o : List FrameDelivery) (s : State) (n e : Nat), Calm s → s.rck.filter = .qualifying →
    e = s.rck.clock + (s.rck.filterLength - s.rck.filterRun) → e ≤ lastClock → s.rck.nextFrame = .number n →
    n < 2 ^ 32 → (∀ l, s.rck.lastAccepted = some l → s.rck.minInterval ≤ e - l) → s.cw.table = none →
    s.pu.shadows ≠ [] → FramesPlaced s →
    ∃ u, exec (.frameStart o) s = .next u ∧ FramesPlaced u ∧ u.pu.newest = some n
      ∧ (u.pu.shadow (n % s.pu.shadows.length)).frame = n
      ∧ (u.pu.shadow (n % s.pu.shadows.length)).state = .captured

/-! ### The Motion Unit (Section 2) -/

/-- The Identify phase, and a missing response (R14, R15, R16). The value 0x9E ends the phase and the rate write of
Configure begins; any other value, and no response to an identity read or to a rate write of Configure, is a failed
attempt, the third of which makes the link Absent, with ImuState raised (ATTEMPTS_EXHAUSTED), and any earlier one begins
the transaction again. That with no transaction in flight IMU_RESPONSE_TIMEOUT moves only the clock is the model's (log 6).
The row of the threshold event stands for the command that brings it about (log 5). -/
def Obligations.ImuAttempts : Prop :=
  ∀ (t : Stamp) (r : Byte) (s : State), Calm s → s.mu.resetDue = false → s.mu.leaving = false → s.mu.discard = false →
    s.mu.missed = [] →
    (s.mu.txn = some .identity → s.mu.link = .starting → s.mu.phase = .identify →
      (r = 0x9E → exec (.identityReadDone t r) s
        = .next { s.advance t.toNat with
            mu.phase := .configure, mu.attempts := 0, mu.txn := some (.configure s.rck.activePeriod) })
    ∧ (r ≠ 0x9E → s.mu.attempts + 1 < 3 →
        exec (.identityReadDone t r) s = .next { s.advance t.toNat with mu.attempts := s.mu.attempts + 1 })
    ∧ (r ≠ 0x9E → 3 ≤ s.mu.attempts + 1 →
        ∃ u, u = State.raise
            { s.advance t.toNat with
              mu.attempts := s.mu.attempts + 1, mu.txn := none, mu.link := .absent, mu.detector := .disabled } .imuState
          ∧ exec (.identityReadDone t r) s = .next u ∧ exec (.attemptsExhausted t (some r)) s = .next u))
    ∧ (s.mu.txn = none → exec (.imuResponseTimeout t) s = .next (s.advance t.toNat))
    ∧ (s.mu.link = .starting →
        ((s.mu.txn = some .identity ∧ s.mu.phase = .identify)
          ∨ (∃ p, s.mu.txn = some (.configure p) ∧ s.mu.phase = .configure)) →
        (s.mu.attempts + 1 < 3 →
          exec (.imuResponseTimeout t) s = .next { s.advance t.toNat with mu.attempts := s.mu.attempts + 1 })
        ∧ (3 ≤ s.mu.attempts + 1 →
          ∃ u, u = State.raise
              { s.advance t.toNat with
                mu.attempts := s.mu.attempts + 1, mu.txn := none, mu.link := .absent, mu.detector := .disabled } .imuState
            ∧ exec (.imuResponseTimeout t) s = .next u ∧ exec (.attemptsExhausted t none) s = .next u))

/-- RATE_WRITE_DONE (R16, R22, R30): in Configure a matching read-back begins Sampling, with the detector Armed unless
the threshold disables it, and any other is a failed attempt; in front of a sample burst a matching one lets the burst
begin, and the rate stays due only if the active period has changed meanwhile. The byte of a rate is the device's, an
open value (log 9); the row of the threshold event stands for the command that brings it about (log 5). A rate that
changed meanwhile stays due (log 33). -/
def Obligations.RateWriteEnds : Prop :=
  ∀ (t : Stamp) (r : Byte) (p : Nat) (s : State), Calm s → s.mu.resetDue = false → s.mu.leaving = false →
    s.mu.discard = false → s.mu.missed = [] →
    (s.mu.txn = some (.configure p) → s.mu.link = .starting → s.mu.phase = .configure → r = Config.rateSetting p →
        exec (.rateWriteDone t r) s
          = .next { s.advance t.toNat with
              mu.phase := .sampling, mu.txn := none
              mu.detector := if s.mu.params.impactThreshold = 0xFFFF then .disabled else .armed })
    ∧ (s.mu.txn = some (.configure p) → s.mu.link = .starting → s.mu.phase = .configure → r ≠ Config.rateSetting p →
        s.mu.attempts + 1 < 3 →
        exec (.rateWriteDone t r) s = .next { s.advance t.toNat with mu.attempts := s.mu.attempts + 1 })
    ∧ (s.mu.txn = some (.configure p) → s.mu.link = .starting → s.mu.phase = .configure → r ≠ Config.rateSetting p →
        3 ≤ s.mu.attempts + 1 →
        ∃ u, u = State.raise
            { s.advance t.toNat with
              mu.attempts := s.mu.attempts + 1, mu.txn := none, mu.link := .absent, mu.detector := .disabled } .imuState
          ∧ exec (.rateWriteDone t r) s = .next u ∧ exec (.attemptsExhausted t (some r)) s = .next u)
    ∧ (∀ tk, s.mu.txn = some (.rateThenBurst p tk) → r = Config.rateSetting p →
        exec (.rateWriteDone t r) s
          = .next { s.advance t.toNat with
              mu.txn := some (.burst tk), mu.rateDue := decide (s.rck.activePeriod ≠ p) })

/-- A good sample in Tracking (R17, R18, R20, R24, R25, R27, R28, R30): its words less the bias are integrated over the
time since the last one, its counter and words are kept, the missing run ends; one that exceeds no threshold leaves the
detector. A sample that is not still ends the still run; a still one adds its deviations to the still sums, and the one
that makes the run as long as the window moves each bias by the rounded mean deviation, held to −320..320, and the run
begins anew (STILL_RUN_COMPLETE). The row of the threshold event stands for the command that brings it about (log 5). -/
def Obligations.GoodSampleTracked : Prop :=
  (∀ (t : Stamp) (b : Burst) (tk : Nat) (s : State), Calm s → Untracked s → s.mu.link = .tracking → takesBurst s.mu tk →
    s.mu.lastCounter ≠ some (burstCounter b) → noImpact s.mu b →
    (s.mu.params.biasEnable = false →
        exec (.sampleBurstDone t b) s = .next { s.advance t.toNat with mu := tracked s b tk })
    ∧ (s.mu.params.biasEnable = true → isStill s.mu (burstSample b).gyro = false →
        exec (.sampleBurstDone t b) s
          = .next { s.advance t.toNat with mu := { tracked s b tk with stillRun := 0, stillSums := ⟨0, 0, 0⟩ } }))
  ∧ ∀ (t : Stamp) (b : Burst) (tk : Nat) (s : State) (g sums : Axes), Calm s → Untracked s → s.mu.link = .tracking →
    takesBurst s.mu tk → s.mu.lastCounter ≠ some (burstCounter b) → noImpact s.mu b → s.mu.params.biasEnable = true →
    g = (burstSample b).gyro →
    ((g.yaw - s.mu.bias.yaw).natAbs ≤ s.mu.params.stillThreshold
      ∧ (g.pitch - s.mu.bias.pitch).natAbs ≤ s.mu.params.stillThreshold
      ∧ (g.roll - s.mu.bias.roll).natAbs ≤ s.mu.params.stillThreshold) →
    sums = ⟨s.mu.stillSums.yaw + (g.yaw - s.mu.bias.yaw), s.mu.stillSums.pitch + (g.pitch - s.mu.bias.pitch),
      s.mu.stillSums.roll + (g.roll - s.mu.bias.roll)⟩ →
    (s.mu.stillRun + 1 < s.mu.params.window →
        exec (.sampleBurstDone t b) s
          = .next { s.advance t.toNat with
              mu := { tracked s b tk with stillRun := s.mu.stillRun + 1, stillSums := sums } })
    ∧ (s.mu.params.window ≤ s.mu.stillRun + 1 →
        ∃ u, u = { s.advance t.toNat with
              mu := { tracked s b tk with
                bias := ⟨clampInt (-320) 320 (s.mu.bias.yaw + roundDiv sums.yaw s.mu.params.window),
                  clampInt (-320) 320 (s.mu.bias.pitch + roundDiv sums.pitch s.mu.params.window),
                  clampInt (-320) 320 (s.mu.bias.roll + roundDiv sums.roll s.mu.params.window)⟩
                stillRun := 0, stillSums := ⟨0, 0, 0⟩ } }
          ∧ exec (.sampleBurstDone t b) s = .next u ∧ exec (.stillRunComplete t b) s = .next u)

/-- A missing sample in Tracking (R17, R19, R20): a burst that repeats the counter, or none, holds the last good words,
which are integrated again; the eighth in a row makes the link Lost, with ImuState raised and the still run ended
(MISSING_RUN_COMPLETE). The row of the threshold event stands for the command that brings it about (log 5). -/
def Obligations.MissingSampleHeld : Prop :=
  ∀ (t : Stamp) (b : Burst) (tk : Nat) (x : Sample) (s : State), Calm s → Untracked s → s.mu.link = .tracking →
    takesBurst s.mu tk → s.mu.lastGood = some x → s.mu.detector ≠ .declared →
    s.mu.lastCounter = some (burstCounter b) →
    (s.mu.missingRun + 1 < 8 →
        ∃ u, u = { s.advance t.toNat with
              mu := { s.mu with
                txn := none, missingRun := s.mu.missingRun + 1, lastTime := some tk
                acc := integratedBy s.mu x.gyro
                  (match s.mu.lastTime with | none => s.rck.activePeriod | some l => tk - l) } }
          ∧ exec (.sampleBurstDone t b) s = .next u ∧ exec (.imuResponseTimeout t) s = .next u)
    ∧ (8 ≤ s.mu.missingRun + 1 →
        ∃ u, u = State.raise
            { s.advance t.toNat with
              mu := { s.mu with
                txn := none, link := .lost, missingRun := 0, goodRun := 0, stillRun := 0, stillSums := ⟨0, 0, 0⟩ } }
            .imuState
          ∧ exec (.sampleBurstDone t b) s = .next u ∧ exec (.imuResponseTimeout t) s = .next u
          ∧ exec (.missingRunComplete t (some b)) s = .next u ∧ exec (.missingRunComplete t none) s = .next u)

/-- The fourth good sample in a row (R16, R21, GOOD_RUN_COMPLETE) takes the link from Starting to Tracking, where that
sample is integrated; from Lost the accumulators begin anew at 0 and the Path Unit makes a path break. ImuState is
raised. The row of the threshold event stands for the command that brings it about (log 5); that the path number stays at 2^32 − 1 is the
model's (log 47). -/
def Obligations.GoodRunTracks : Prop :=
  ∀ (t : Stamp) (b : Burst) (tk : Nat) (s : State), Calm s → Untracked s → takesBurst s.mu tk →
    s.mu.lastCounter ≠ some (burstCounter b) → noImpact s.mu b → s.mu.params.biasEnable = false → s.mu.goodRun = 3 →
    (s.mu.link = .starting → s.mu.phase = .sampling →
        ∃ u, u = State.raise
            { s.advance t.toNat with mu := { tracked s b tk with link := .tracking, goodRun := 0 } } .imuState
          ∧ exec (.sampleBurstDone t b) s = .next u ∧ exec (.goodRunComplete t b) s = .next u)
    ∧ (s.mu.link = .lost →
        ∃ u, u = State.raise
            { s.advance t.toNat with
              mu := { tracked { s with mu.acc := ⟨0, 0, 0⟩, mu.lastTime := none } b tk with
                link := .tracking, goodRun := 0 }
              pu.pathNumber := min (s.pu.pathNumber + 1) (2 ^ 32 - 1) } .imuState
          ∧ exec (.sampleBurstDone t b) s = .next u ∧ exec (.goodRunComplete t b) s = .next u)

/-- Impact detection (R30, R31, R32, R34): a sample of Armed that exceeds the threshold begins a run, and with a persistence of
1 declares it at once, while any other leaves the detector Armed; in Counting an exceeding sample counts on and raises the peak,
and the one that makes the run as long as the persistence declares it (IMPACT_DECLARED), while any other abandons the run; in
Declared an exceeding sample raises the peak, and the first that no longer exceeds ends the run: the impact is counted, Impact is
raised, and the detector holds off. A sample before the hold-off end is not judged, and the first at or after it is judged as in
Armed. With no table mounted the mark goes nowhere; with one
mounted, and a snapshot being written, the Segment Manager acts on it (R99, R100): a segment that the mark concerns and that
carries no protection takes the cause Impact with the time of the mark, for which a snapshot is due; a protection that it
carries stays, and the law of impact protection is kept (R101): the count is that of the table and does not exceed the limit in
force, for which an Impact protection alone is removed. Nothing else of a segment changes. The row of the threshold event stands for the
command that brings it about (log 5). -/
def Obligations.ImpactRun : Prop :=
  ∀ (t : Stamp) (b : Burst) (tk m2 : Nat) (s : State), Calm s → Untracked s → s.mu.link = .tracking →
    takesBurst s.mu tk → s.mu.lastCounter ≠ some (burstCounter b) → s.mu.params.biasEnable = false →
    m2 = sampleSquare (burstSample b) →
    ((s.mu.detector = .armed ∨ (s.mu.detector = .holdOff ∧ s.mu.holdOffEnd ≤ tk)) →
        ((s.mu.params.impactThreshold * 128) ^ 2 < m2 → 1 < s.mu.params.persistence →
          exec (.sampleBurstDone t b) s
            = .next { s.advance t.toNat with
                mu := { tracked s b tk with detector := .counting, impactRun := 1, impactFirst := tk, impactPeak := m2 } })
        ∧ ((s.mu.params.impactThreshold * 128) ^ 2 < m2 → s.mu.params.persistence ≤ 1 →
          ∃ u, u = { s.advance t.toNat with
                mu := { tracked s b tk with detector := .declared, impactRun := 1, impactFirst := tk, impactPeak := m2 } }
            ∧ exec (.sampleBurstDone t b) s = .next u ∧ exec (.impactDeclared t b) s = .next u)
        ∧ (m2 ≤ (s.mu.params.impactThreshold * 128) ^ 2 →
          exec (.sampleBurstDone t b) s
            = .next { s.advance t.toNat with mu := { tracked s b tk with detector := .armed } }))
    ∧ (s.mu.detector = .holdOff → tk < s.mu.holdOffEnd →
        exec (.sampleBurstDone t b) s = .next { s.advance t.toNat with mu := tracked s b tk })
    ∧ (s.mu.detector = .counting → (s.mu.params.impactThreshold * 128) ^ 2 < m2 →
        s.mu.impactRun + 1 < s.mu.params.persistence →
        exec (.sampleBurstDone t b) s
          = .next { s.advance t.toNat with
              mu := { tracked s b tk with impactRun := s.mu.impactRun + 1, impactPeak := max s.mu.impactPeak m2 } })
    ∧ (s.mu.detector = .declared → (s.mu.params.impactThreshold * 128) ^ 2 < m2 →
        exec (.sampleBurstDone t b) s
          = .next { s.advance t.toNat with mu := { tracked s b tk with impactPeak := max s.mu.impactPeak m2 } })
    ∧ (s.mu.detector = .counting → (s.mu.params.impactThreshold * 128) ^ 2 < m2 →
        s.mu.params.persistence ≤ s.mu.impactRun + 1 →
        ∃ u, u = { s.advance t.toNat with
              mu := { tracked s b tk with
                detector := .declared, impactRun := s.mu.impactRun + 1, impactPeak := max s.mu.impactPeak m2 } }
          ∧ exec (.sampleBurstDone t b) s = .next u ∧ exec (.impactDeclared t b) s = .next u)
    ∧ (s.mu.detector = .counting → m2 ≤ (s.mu.params.impactThreshold * 128) ^ 2 →
        exec (.sampleBurstDone t b) s
          = .next { s.advance t.toNat with mu := { tracked s b tk with detector := .armed, impactRun := 0 } })
    ∧ (s.mu.detector = .declared → m2 ≤ (s.mu.params.impactThreshold * 128) ^ 2 → s.sm.table ≠ .mounted →
        exec (.sampleBurstDone t b) s
          = .next (State.raise
              { s.advance t.toNat with
                mu := { tracked s b tk with
                  detector := .holdOff, holdOffEnd := tk + 1000 * s.mu.params.holdOff, impactRun := 0, impactPeak := 0
                  impacts := min (s.mu.impacts + 1) (2 ^ 32 - 1) } } .impact))
    ∧ (s.mu.detector = .declared → m2 ≤ (s.mu.params.impactThreshold * 128) ^ 2 → s.sm.table = .mounted →
        s.sm.change = none → s.part.transition ≠ .reset → snapshotGoing s → lowestFree s.sm ≠ none → ImpactsLimited s →
        ∃ u, exec (.sampleBurstDone t b) s = .next u ∧ ImpactsLimited u ∧ u.mu.marks = []
          ∧ u.sm.segments.map (fun e => { e with protection := none })
            = s.sm.segments.map (fun e => { e with protection := none })
          ∧ (∀ (k : Nat) (e g : Segment), s.sm.segments[k]? = some e → u.sm.segments[k]? = some g →
              g.protection = e.protection ∨ (protectedBy .impact e = true ∧ g.protection = none)
                ∨ (Targeted s s.mu.impactFirst k ∧ e.protection = none
                  ∧ g.protection = some ⟨.impact, s.mu.impactFirst⟩))
          ∧ (s.sm.impactCount + 2 ≤ s.sm.params.limit →
              ∀ (k : Nat) (e g : Segment), s.sm.segments[k]? = some e → u.sm.segments[k]? = some g →
                (Targeted s s.mu.impactFirst k →
                  g.protection = some (e.protection.getD ⟨.impact, s.mu.impactFirst⟩)
                    ∧ (e.protection = none → u.sm.snapshotDue = true))
                ∧ (¬ Targeted s s.mu.impactFirst k → g = e)))

/-! ### The Flash Engine (Section 4) -/

/-- Power-up and Reset (R67, R68, R71, R75). SETTLE_END issues the start-up Reset to the device, with its deadline 1,000
µs away, and FE stays in Starting; in any other rail state, and in a reset transition, nothing happens. RESET_DONE of
the start-up Reset leaves the rail Ready and the flag set, and the next waiting request is granted at once; the Reset in
front of a granted operation is followed by that operation, whose deadline runs from here: 1,000 µs for reads, 5,000 for
a program, 20,000 for an erase. SETTLE_END comes at the end of the settle time (log 3). That it does nothing in any other
rail state is the model's (log 6), and so are the reset transition's and the end of the settle time (log 49) and that the
Done of a start-up Reset leaves the idle counter (log 36). A start-up Reset with nothing waiting is a case of no run. -/
def Obligations.ResetGrants : Prop :=
  (∀ s : State, Calm s →
    (∀ e, s.fe.settleEnd = some e → s.fe.rail = .starting → s.part.transition ≠ .reset →
        exec .settleEnd s
          = .next { s.advance e with
              fe.settleEnd := none, fe.inFlight := some ⟨none, true, (s.advance e).rck.clock + 1000, []⟩ })
    ∧ (s.fe.settleEnd = none ∨ s.fe.rail ≠ .starting ∨ s.part.transition = .reset → exec .settleEnd s = .next s))
  ∧ ∀ (t : Stamp) (o : EndOrder) (d : Nat) (img : List Byte) (s : State), Calm s → s.ga.grace = none →
    (s.part.transition = .none ∨ s.part.transition = .stop) → s.part.state ≠ .standby →
    (s.fe.inFlight = some ⟨none, true, d, img⟩ → s.fe.waiting = [] →
        exec (.resetDone t o) s
          = .next { s.advance t.toNat with
              fe.inFlight := none, fe.timeouts := 0, fe.restored := true, fe.rail := .ready })
    ∧ ∀ (w : FlashRequest) (limit : Nat),
        limit = (match w.op with
          | .programPage _ _ _ _ => 5000 | .eraseBlock _ => 20000
          | .readId => 1000 | .readPage _ _ => 1000 | .readMarker _ => 1000) →
        (s.fe.inFlight = some ⟨none, true, d, img⟩ → nextRequest s.fe.waiting = some w →
            exec (.resetDone t o) s
              = .next { s.advance t.toNat with
                  fe.rail := .busy, fe.restored := true, fe.timeouts := 0, fe.waiting := s.fe.waiting.erase w
                  fe.inFlight := some ⟨some w, false, (s.advance t.toNat).rck.clock + limit, opImage w.op⟩ })
        ∧ (s.fe.inFlight = some ⟨some w, true, d, img⟩ →
            exec (.resetDone t o) s
              = .next { s.advance t.toNat with
                  fe.rail := .busy, fe.restored := true, fe.timeouts := 0
                  fe.inFlight := some ⟨some w, false, (s.advance t.toNat).rck.clock + limit, opImage w.op⟩ })

/-- The reads of a mount (R66, R72, R105, R107, R116, R117). READ_ID_DONE: the bytes 0x6B, 0x3D, 0x51, 0x0E set the
identity result to Match and clear Absent, and the mount goes on with the first page of the table area, whichever of the
grant and the result is taken first. Any other bytes set Mismatch and Absent and raise FlashFault; the mount ends with the
table Absent, the rail is Ready again, the writer enters Faulted with WriterState raised, and the segment view, if it has a
place, is written with N = 0; here with no frame owed a track entry. READ_PAGE_DONE in the table area: a page read as erased
ends its block, and the reading goes on with page 0 of the next block, under the deadline of a read. The order of the grant
and the result is an operand (log 7), and so is what the code makes of a page (log 8). -/
def Obligations.MountReads : Prop :=
  (∀ (t : Stamp) (id : Vector Byte 4) (o : EndOrder) (arrival d : Nat) (img : List Byte) (s : State), Still s →
    s.sm.format = none → s.sm.mount = some .readId →
    s.fe.inFlight = some ⟨some ⟨.mountReader, .readId, arrival⟩, false, d, img⟩ → s.fe.waiting = [] →
    s.fe.heldBack = [] → s.fe.rail = .busy → s.ga.grace = none → s.part.transition = .none → s.part.state ≠ .standby →
    (id.toList = [0x6B, 0x3D, 0x51, 0x0E] → s.fe.restored = true →
        exec (.readIdDone t id o) s
          = .next { s.advance t.toNat with
              fe.identity := .isMatch, fe.absent := false, fe.timeouts := 0, fe.idle := s.fe.idleLoad, fe.rail := .busy
              fe.inFlight := some ⟨some ⟨.mountReader, .readPage 0 0, (s.advance t.toNat).rck.clock⟩, false,
                (s.advance t.toNat).rck.clock + 1000, []⟩
              sm.mount := some (.tableArea 0 0 [] []) })
    ∧ (id.toList ≠ [0x6B, 0x3D, 0x51, 0x0E] → s.sm.segments = [] → s.cw.writer = .unmounted → noneOwed s →
        s.sm.abandoned = false →
        ∃ m,
          exec (.readIdDone t id o) s
            = .next (State.raise (State.raise
                { s.advance t.toNat with
                  mem := m
                  fe.identity := .mismatch, fe.absent := true, fe.inFlight := none, fe.timeouts := 0
                  fe.idle := s.fe.idleLoad, fe.rail := .ready
                  sm := { s.sm with table := .absent, mount := none, eraser := none, snapshot := none, change := none }
                  cw := { s.cw with
                    writer := .faulted, assembly := [], programming := false, deadline := none, reloc := none
                    inHand := none, pageMark := none } } .flashFault) .writerState)
          ∧ (s.sm.view = none → m = s.mem)
          ∧ ∀ a, s.sm.view = some a → a + 12304 ≤ ramBytes → memoryWf s.mem = true →
              readCells m (a + 4) 4 = [0, 0, 0, 0]
              ∧ ∀ x, x < a ∨ a + 16 ≤ x → readCell m x = readCell s.mem x))
  ∧ ∀ (t : Stamp) (page : PageRead) (o : EndOrder) (b p arrival d : Nat) (img : List Byte) (pages : List SnapPage)
    (ends : List (Nat × Nat)) (s : State), Still s → s.sm.format = none →
    s.sm.mount = some (.tableArea b p pages ends) → b + 1 < 16 →
    s.fe.inFlight = some ⟨some ⟨.mountReader, .readPage b p, arrival⟩, false, d, img⟩ → s.fe.waiting = [] →
    s.fe.heldBack = [] → s.fe.identity = .isMatch → s.fe.restored = true →
    s.fe.rail = .busy → s.ga.grace = none →
    s.part.transition = .none → s.part.state ≠ .standby → pageErased page = true →
    exec (.readPageDone t page o) s
      = .next { s.advance t.toNat with
          fe.timeouts := 0, fe.idle := s.fe.idleLoad, fe.rail := .busy
          fe.inFlight := some ⟨some ⟨.mountReader, .readPage (b + 1) 0, (s.advance t.toNat).rck.clock⟩, false,
            (s.advance t.toNat).rck.clock + 1000, []⟩
          sm.mount := some (.tableArea (b + 1) 0 pages (ends ++ [(b, p)])) }

/-- A page that reads as erased (R66): when every codeword together with its parity holds at most 8 zero bits, FE
delivers 8,192 bytes of 0xFF and a record of 40 bytes of 0xFF, all counts 0, no uncorrectable codeword, the outcome
Clean and the erased indication; with more zero bits in any codeword the indication is clear, the bytes are those
decoded, and the report gives the counts, the largest of them, the uncorrectable codewords in ascending order and the
outcome (R65). The eight codewords as read, each with what the code makes of it, come from the device (log 8). -/
def Obligations.ErasedPage : Prop :=
  ∀ p : PageRead,
    ((∀ c ∈ p.codewords, (c.bytes ++ c.parity).foldl (fun n b => n + zeroBits b) 0 ≤ 8) →
      pageResult p = { data := List.replicate 8192 0xFF, record := List.replicate 40 0xFF,
                       counts := List.replicate 8 (some 0), worst := 0, bad := [], erased := true }
      ∧ pageOutcome (pageResult p) = .clean)
    ∧ ((∃ c ∈ p.codewords, 8 < (c.bytes ++ c.parity).foldl (fun n b => n + zeroBits b) 0) →
      ∃ r, r = pageResult p
        ∧ r.erased = false ∧ r.data = (p.codewords.map codewordBytes).flatten.take 8192
        ∧ r.record = ((p.codewords.map codewordBytes).flatten.drop 8192).take 40
        ∧ r.counts = p.codewords.map codewordCount
        ∧ (∀ n, some n ∈ r.counts → n ≤ r.worst) ∧ (r.worst = 0 ∨ some r.worst ∈ r.counts)
        ∧ (∀ k, k ∈ r.bad ↔ r.counts[k]? = some none) ∧ r.bad.Pairwise (· < ·)
        ∧ (pageOutcome r = .uncorrectable ↔ r.bad ≠ [])
        ∧ (pageOutcome r = .corrected ↔ r.bad = [] ∧ ∃ n, some n ∈ r.counts ∧ 0 < n))

/-- READ_MARKER_DONE in the survey of a Format (R77, R78, R82, R91, R115, R116, R122): a marker of 0xFF leaves the block
good, any other value retires it. A block of the segment space joins the bad block list, or stays in it, and leaves the
spare pool; a block of the table area becomes Bad in the map, and with fewer than 2 left Good the Worn flag is set, raising
FlashFault if it was clear. The survey goes on with the next block. A 513th bad block of the segment space is refused: the
Worn flag is set, the Format ends Unformatted, its request is published Failed with FlashWorn, and the writer is Stopped
with the cause Unformatted; here with no segment view, no frame owed a track entry and no slot Posted. That its slot keeps
the fields as posted, with the detail 0, is the model's (log 64). -/
def Obligations.MarkerSurveyed : Prop :=
  ∀ (t : Stamp) (v : Byte) (o : EndOrder) (b arrival d : Nat) (img : List Byte) (e : QueueEntry) (s : State),
    s.part.state ≠ .off → s.ga.sysen = true → s.sm.mount = none → s.sm.format = some (.survey b) →
    s.cw.writer = .formatting → s.cw.job = .formatting → s.cw.queue = [e] → e.result = none → s.cw.stopDue = none →
    s.cw.assembly = [] → b + 1 < 16384 →
    s.fe.inFlight = some ⟨some ⟨.mountReader, .readMarker b, arrival⟩, false, d, img⟩ → s.fe.waiting = [] →
    s.fe.heldBack = [] → s.fe.identity = .isMatch → s.fe.restored = true →
    s.fe.rail = .busy → s.ga.grace = none →
    s.part.transition = .none → s.part.state ≠ .standby →
    (∃ u : State,
      u = { s.advance t.toNat with
            fe.timeouts := 0, fe.idle := s.fe.idleLoad, fe.rail := .busy
            fe.inFlight := some ⟨some ⟨.mountReader, .readMarker (b + 1), (s.advance t.toNat).rck.clock⟩, false,
              (s.advance t.toNat).rck.clock + 1000, []⟩
            sm.format := some (.survey (b + 1)) }
      ∧ (v = 0xFF → exec (.readMarkerDone t v o) s = .next u)
      ∧ (v ≠ 0xFF → 16 ≤ b → b ∉ s.fe.bad → s.fe.bad.length < 512 →
          exec (.readMarkerDone t v o) s
            = .next { u with fe.bad := insertAsc b s.fe.bad, fe.pool := s.fe.pool.erase b })
      ∧ (v ≠ 0xFF → 16 ≤ b → b ∈ s.fe.bad →
          exec (.readMarkerDone t v o) s = .next { u with fe.pool := s.fe.pool.erase b })
      ∧ ∀ map, v ≠ 0xFF → b < 16 → map = s.fe.tableMap &&& ~~~((1 : BitVec 16) <<< b) →
          exec (.readMarkerDone t v o) s
            = .next (if 2 ≤ goodCount map ∨ s.fe.worn = true then { u with fe.tableMap := map }
                else State.raise { u with fe.tableMap := map, fe.worn := true } .flashFault))
    ∧ (v ≠ 0xFF → 16 ≤ b → b ∉ s.fe.bad → 512 ≤ s.fe.bad.length → s.cw.inHand = some e.request.sequence →
        s.mu.marks = [] → s.cw.reappend = [] → s.cw.resume = none → s.sm.view = none → noneOwed s → s.cw.reloc = none →
        ∀ r x : State,
          r = { s.advance t.toNat with
                fe.inFlight := none, fe.timeouts := 0, fe.idle := s.fe.idleLoad, fe.rail := .ready, fe.worn := true
                sm := { s.sm with
                  table := .unformatted, format := none, eraser := none, snapshot := none, snapshotDue := false }
                cw := { s.cw with writer := .stopped, cause := .unformatted, job := .idle } } →
          x = publishedSlot e.slot e.request ⟨.flashWorn, e.request.segment, e.request.byteOffset, 0⟩
                (State.raise (if s.fe.worn then r else r.raise .flashFault) .writerState) →
          noneOffered x → exec (.readMarkerDone t v o) s = .next x)

/-- The retirement of a block (R77, R78, R82): a block of the segment space already listed is accepted and the list is
unchanged; with fewer than 512 listed it is inserted in its ascending place; with 512 it is refused, not recorded, and
the Worn flag is set; an accepted block is taken out of the spare pool; a block of the table area becomes Bad in the map
and is always accepted. -/
def Obligations.BlockRetired : Prop :=
  ∀ (b : Nat) (s : State),
    (16 ≤ b → b ∈ s.fe.bad → feRetire b s = (true, { s with fe.pool := s.fe.pool.erase b }))
    ∧ (16 ≤ b → b ∉ s.fe.bad → s.fe.bad.length < 512 →
        ∃ l, feRetire b s = (true, { s with fe.bad := l, fe.pool := s.fe.pool.erase b })
          ∧ (∀ k, k ∈ l ↔ k = b ∨ k ∈ s.fe.bad) ∧ l.length = s.fe.bad.length + 1
          ∧ (ascending s.fe.bad = true → ascending l = true))
    ∧ (16 ≤ b → b ∉ s.fe.bad → 512 ≤ s.fe.bad.length →
        feRetire b s
          = (false, if s.fe.worn then s else State.raise { s with fe.worn := true } .flashFault))
    ∧ (b < 16 → (feRetire b s).1 = true ∧ (feRetire b s).2.fe.bad = s.fe.bad
        ∧ (feRetire b s).2.fe.pool = s.fe.pool
        ∧ (feRetire b s).2.fe.tableMap = s.fe.tableMap &&& ~~~((1 : BitVec 16) <<< b)
        ∧ ((feRetire b s).2.fe.worn = true ↔
            s.fe.worn = true ∨ goodCount (s.fe.tableMap &&& ~~~((1 : BitVec 16) <<< b)) < 2))

/-- PROGRAM_PAGE_DONE for a page of the open segment while the writer records (R76, R88, R111, R115, R125, R126, R127, R128,
R129, R130). With the status pass the page leaves the assembly buffer, the open fill counts it, the commit deadline ends, and the
rail is Ready. The Media whose track item ends in the page, here the only request in the queue, is published Ok with its
segment, the place of its chunk and the number of Missing entries; a service point follows, which here finds no slot
Posted. With a second half of the segment to fill, or a Free segment at hand, no erase-ahead follows. With the status fail
the block is retired, and the lowest block of the spare pool takes its place in the list and is to be erased as the next
attempt of the relocation, the first after a page of the stream and up to the third within it; the page stays in the
assembly. Where the third attempt fails, or the pool has no block for the first one, the writer gives up: the segment is Closed
with the Damaged flag, cut short at the start of the failed block, the next Free segment is opened as the next part of the
clip, and the pair of the one Media that waits is written again there, here within one page. In both a snapshot is being
written, whose page goes to the flash next, and the page that the image gives that operation is the model's (log 8). -/
def Obligations.PageProgrammed : Prop :=
  (∀ (t : Stamp) (o : EndOrder) (w : FlashRequest) (d n : Nat) (img : List Byte) (e : QueueEntry) (s r x : State),
    Resting s → s.cw.writer = .recording → s.cw.programming = true → s.cw.assembly.length = 8192 → s.cw.queue = [e] →
    e.pairEnd = some n → n ≤ 8192 * (s.sm.openFill + 1) → s.cw.reloc = none → s.cw.inHand = none → s.sm.change = none →
    s.fe.inFlight = some ⟨some w, false, d, img⟩ → isProgramPage w.op = true → w.requester = .writer →
    s.fe.waiting = [] → s.fe.heldBack = [] → s.ga.grace = none → s.part.transition ≠ .reset →
    s.part.transition ≠ .standby →
    (lowestFree s.sm ≠ none ∨ ∀ g, openSegment s.sm = some g → 2 * (s.sm.openFill + 1) < 256 * g.blocks.length) →
    r = { s.advance t.toNat with
          fe.inFlight := none, fe.timeouts := 0, fe.idle := s.fe.idleLoad, fe.rail := .ready
          sm.openFill := s.sm.openFill + 1
          cw.assembly := [], cw.programming := false, cw.deadline := none, cw.pageMark := none
          cw.blockEnd := if s.sm.openFill % 256 = 255 then s.cw.pageMark else s.cw.blockEnd } →
    x = publishedSlot e.slot e.request ⟨.ok, e.segment, e.chunkAt, e.missing⟩ r →
    noneOffered x →
    exec (.programPageDone t true o) s = .next x)
  ∧ ∀ (t : Stamp) (o : EndOrder) (w v : FlashRequest) (d j k b : Nat) (img : List Byte) (g : Segment) (c : Relocation)
      (s r : State), Resting s → s.cw.writer = .recording → s.cw.programming = true → s.cw.inHand = none →
    s.sm.change = none → openIndex s.sm = some j → s.sm.segments[j]? = some g → g.blocks[k]? = some b →
    s.fe.inFlight = some ⟨some w, false, d, img⟩ → isProgramPage w.op = true → w.requester = .writer →
    s.fe.waiting = [v] → v.requester = .tableWriter → isProgramPage v.op = true → s.fe.heldBack = [] →
    s.fe.restored = true → s.fe.rail ≠ .failed → s.fe.identity = .isMatch → s.ga.grace = none →
    s.part.transition = .none → s.part.state ≠ .standby → snapshotGoing s →
    r = { s.advance t.toNat with
          fe.inFlight := some ⟨some v, false, (s.advance t.toNat).rck.clock + 5000, opImage v.op⟩
          fe.waiting := [], fe.timeouts := 0, fe.idle := s.fe.idleLoad, fe.rail := .busy } →
    (∀ (spare : Nat) (rest : List Nat),
      (s.cw.reloc = none ∧ k = s.sm.openFill / 256
          ∧ c = ⟨s.sm.openFill, k, 1, b, spare, .erase, (s.advance t.toNat).rck.clock, none⟩
        ∨ ∃ c₀, s.cw.reloc = some c₀ ∧ k = c₀.position ∧ c₀.attempt < 3
          ∧ c = { c₀ with attempt := c₀.attempt + 1, replacement := spare, step := .erase, previous := none }) →
      16 ≤ b → b ∉ s.fe.bad → s.fe.bad.length < 512 → s.fe.pool.erase b = spare :: rest →
      exec (.programPageDone t false o) s
        = .next { r with
            fe.waiting := [⟨.writer, .eraseBlock spare, (s.advance t.toNat).rck.clock⟩]
            fe.bad := insertAsc b s.fe.bad, fe.pool := rest
            sm.segments := s.sm.segments.set j { g with blocks := g.blocks.set k spare }
            sm.snapshotDue := true, cw.reloc := some c })
    ∧ ∀ (f pad : Nat) (h : Segment) (e : QueueEntry) (bad blocks : List Nat) (x y : State) (tr : List Byte × Nat × State)
        (cut : CloseValues),
      (s.cw.reloc = some c ∧ 3 ≤ c.attempt ∧ k = c.position ∧ bad = s.fe.bad ∧ blocks = g.blocks
        ∨ s.cw.reloc = none ∧ k = s.sm.openFill / 256 ∧ 16 ≤ b ∧ b ∉ s.fe.bad ∧ s.fe.bad.length < 512
          ∧ s.fe.pool = [] ∧ bad = insertAsc b s.fe.bad ∧ blocks = g.blocks.take k ++ g.blocks.drop (k + 1)) →
      (k = 0 → cut = ⟨g.startTime, 0, 0⟩) →
      (k ≠ 0 → ∃ m, s.cw.blockEnd = some m ∧ cut = ⟨m.time, framesUpTo g.firstFrame m.lastTracked, k * 256 * 8192⟩) →
      s.cw.queue = [e] → kindOf e.request.kind = some .media → lowestFree s.sm = some f →
      s.sm.segments[f]? = some h → h.blocks ≠ [] → s.sm.pending = none →
      pad = (e.request.length + 15) / 16 * 16 - e.request.length → 0 < e.request.length →
      (16 + e.request.length + pad) + (16 + 32 * e.request.frameCount) < 8192 →
      x = State.raise
          { r with
            fe.bad := bad
            sm := { s.sm with
              segments := (s.sm.segments.set j
                { g with
                  state := .closed, endTime := cut.endTime, frameCount := cut.frameCount
                  bytesWritten := cut.bytesWritten, blocks := blocks, damaged := true }).set f
                { h with
                  state := .opened, sequence := s.sm.sequence, clip := g.clip, part := g.part + 1
                  startTime := (s.advance t.toNat).rck.clock, endTime := 0, firstFrame := e.request.firstFrame
                  frameCount := 0, bytesWritten := 0, protection := none, recovered := false, damaged := false
                  weak := false }
              lastClosed := some j, sequence := nextCounter s.sm.sequence, openFill := 0, snapshotDue := true } }
          .segmentClosed →
      tr = trackEntries f (coveredFrames e.request) x →
      y = { x with
            mem := tr.2.2.mem, pu := tr.2.2.pu
            cw := { s.cw with
              programming := false, pageMark := none, reloc := none, inHand := none
              commitMs := s.cw.pendingCommitMs.getD s.cw.commitMs, pendingCommitMs := none
              deadline := some ((s.advance t.toNat).rck.clock + 1000 * s.cw.pendingCommitMs.getD s.cw.commitMs)
              assembly := (chunkHeader e.request ++ readCells s.mem e.request.buffer e.request.length
                ++ List.replicate pad 0) ++ (trackHeader e.request ++ tr.1)
              streamPos := (16 + e.request.length + pad) + (16 + 32 * e.request.frameCount)
              lastSequence := some e.request.sequence, lastTracked := raisedFrame none e.request
              queue := [{ e with
                segment := f, chunkAt := 0, missing := tr.2.1
                pairEnd := some ((16 + e.request.length + pad) + (16 + 32 * e.request.frameCount)) }] } } →
      noneOffered y → exec (.programPageDone t false o) s = .next y

/-- ERASE_BLOCK_DONE (R75, R77, R79, R82, R94, R95, R97, R103, R104). With the status pass the eraser asks for the next block of its
segment, under the deadline of 20,000 µs; after the last block the segment, whose list holds at least bps/2 blocks, is Free,
its fields 0, and a snapshot is due. With the status fail the block is retired: with a spare block the lowest takes its place
in the list and is erased next; with none the list shrinks, and the erase goes on with the next block or ends in Free, or, with
fewer than bps/2 blocks left, the segment is Retired and its blocks are spare; where the retirement is refused, the segment is
Retired with that block alone in its list, the others are spare, and FlashFault is raised if the Worn flag was clear. Each such
change makes a snapshot due. While a snapshot is being written, whose request waits, that request is granted first,
as the table writer's, and the new snapshot waits; with none being written the snapshot due is begun at once with the next
generation, here at the write position. Every movement of a block keeps each block of the segment space in exactly one of
the bad block list, the spare pool and one segment's list (R87): an EraseFailed with its replacement, the shrinking of the
list or the retirement of the segment, and a replacement that the Clip Writer asks for (R98); Format's partition establishes
it (R92). -/
def Obligations.SegmentErased : Prop :=
  (∀ (t : Stamp) (o : EndOrder) (i k b arrival d now : Nat) (img : List Byte) (e : Segment) (s u : State), Calm s →
    s.sm.eraser = some ⟨i, k⟩ → s.sm.segments[i]? = some e → s.cw.reloc = none → s.cw.programming = false →
    s.cw.inHand = none → s.sm.change = none → s.cw.writer ≠ .formatting →
    s.fe.inFlight = some ⟨some ⟨.eraser, .eraseBlock b, arrival⟩, false, d, img⟩ →
    s.fe.heldBack = [] → s.fe.identity = .isMatch → s.fe.restored = true →
    s.fe.rail = .busy → s.ga.grace = none →
    s.part.transition = .none → s.part.state ≠ .standby → s.sm.abandoned = false → now = (s.advance t.toNat).rck.clock →
    u = { s.advance t.toNat with fe.timeouts := 0, fe.idle := s.fe.idleLoad, fe.rail := .busy } →
    (∀ w op at_, s.sm.snapshot ≠ none → w = ⟨.tableWriter, op, at_⟩ → s.fe.waiting = [w] → isProgramPage op = true →
        (∀ next, e.blocks[k + 1]? = some next →
          exec (.eraseBlockDone t true o) s
            = .next { u with
                fe.inFlight := some ⟨some w, false, now + 5000, opImage op⟩
                fe.waiting := [⟨.eraser, .eraseBlock next, now⟩]
                sm.eraser := some ⟨i, k + 1⟩ })
        ∧ (e.blocks[k + 1]? = none → s.sm.bps ≤ 2 * e.blocks.length →
          exec (.eraseBlockDone t true o) s
            = .next { u with
                fe.inFlight := some ⟨some w, false, now + 5000, opImage op⟩, fe.waiting := []
                sm.eraser := none, sm.snapshotDue := true
                sm.segments := s.sm.segments.set i (blankInto .free e) })
        ∧ (∀ (y : State) (ask : Nat → FlashRequest), e.blocks[k]? = some b → 16 ≤ b → b ∉ s.fe.bad → b ∉ s.fe.pool →
          y = { u with
                fe.inFlight := some ⟨some w, false, now + 5000, opImage op⟩, fe.waiting := [], sm.snapshotDue := true } →
          ask = (fun c => ⟨.eraser, .eraseBlock c, now⟩) →
          (s.fe.bad.length < 512 →
            (∀ r rest, s.fe.pool = r :: rest → s.sm.bps ≤ 2 * e.blocks.length →
              exec (.eraseBlockDone t false o) s
                = .next { y with
                    fe.bad := insertAsc b s.fe.bad, fe.pool := rest, fe.waiting := [ask r]
                    sm.segments := s.sm.segments.set i { e with blocks := e.blocks.set k r } })
            ∧ (s.fe.pool = [] → s.sm.bps ≤ 2 * (e.blocks.length - 1) →
              (∀ next, e.blocks[k + 1]? = some next →
                exec (.eraseBlockDone t false o) s
                  = .next { y with
                      fe.bad := insertAsc b s.fe.bad, fe.waiting := [ask next]
                      sm.segments := s.sm.segments.set i { e with blocks := e.blocks.eraseIdx k } })
              ∧ (e.blocks[k + 1]? = none →
                exec (.eraseBlockDone t false o) s
                  = .next { y with
                      fe.bad := insertAsc b s.fe.bad, sm.eraser := none
                      sm.segments := s.sm.segments.set i { blankInto .free e with blocks := e.blocks.eraseIdx k } }))
            ∧ (s.fe.pool = [] → 2 * (e.blocks.length - 1) < s.sm.bps → openIndex s.sm = none →
              (∀ c ∈ e.blocks.eraseIdx k, c ≠ b ∧ c ∉ s.fe.bad) →
              exec (.eraseBlockDone t false o) s
                = .next { y with
                    fe.bad := insertAsc b s.fe.bad, sm.eraser := none
                    fe.pool := (e.blocks.eraseIdx k).foldl (fun p c => insertAsc c p) []
                    sm.segments := s.sm.segments.set i { blankInto .retired e with blocks := [] } }))
          ∧ (∀ x, 512 ≤ s.fe.bad.length → openIndex s.sm = none → (∀ c ∈ e.blocks, c ∉ s.fe.bad) →
              x = { y with
                    sm.eraser := none
                    fe.pool := (e.blocks.filter (fun c => c != b)).foldl (fun p c => insertAsc c p) s.fe.pool
                    sm.segments := s.sm.segments.set i { blankInto .retired e with blocks := [b] } } →
              exec (.eraseBlockDone t false o) s
                = .next (if s.fe.worn then x else State.raise { x with fe.worn := true } .flashFault))))
    ∧ (s.sm.snapshot = none → s.sm.snapshotDue = false → s.fe.waiting = [] →
        (∀ next, e.blocks[k + 1]? = some next →
          exec (.eraseBlockDone t true o) s
            = .next { u with
                fe.inFlight := some ⟨some ⟨.eraser, .eraseBlock next, now⟩, false, now + 20000, []⟩
                sm.eraser := some ⟨i, k + 1⟩ })
        ∧ (∀ (v : State) pages page, s.sm.table = .mounted →
          s.sm.snapshotsEnded = false → 2 ≤ goodCount s.fe.tableMap → tableGood s s.sm.writeBlock = true →
          openIndex s.sm = none → s.sm.bps ≤ 2 * e.blocks.length →
          pages = imagePages (tableImage v) → s.sm.writePage + pages.length ≤ 256 →
          page = FlashOp.programPage s.sm.writeBlock s.sm.writePage (pages.getD 0 [])
            (snapshotRecord (s.sm.generation + 1) 0 pages.length) →
          (e.blocks[k + 1]? = none →
            v = { u with
                  sm.eraser := none, sm.generation := s.sm.generation + 1
                  sm.segments := s.sm.segments.set i (blankInto .free e) } →
            exec (.eraseBlockDone t true o) s
              = .next { v with
                  sm.snapshot := some ⟨pages, 0, false⟩
                  fe.inFlight := some ⟨some ⟨.tableWriter, page, now⟩, false, now + 5000, opImage page⟩ })
          ∧ (∀ r rest, e.blocks[k]? = some b → 16 ≤ b → b ∉ s.fe.bad → b ∉ s.fe.pool → s.fe.bad.length < 512 →
            s.fe.pool = r :: rest →
            v = { u with
                  fe.bad := insertAsc b s.fe.bad, fe.pool := rest, sm.generation := s.sm.generation + 1
                  sm.segments := s.sm.segments.set i { e with blocks := e.blocks.set k r } } →
            exec (.eraseBlockDone t false o) s
              = .next { v with
                  sm.snapshot := some ⟨pages, 0, false⟩
                  fe.inFlight := some ⟨some ⟨.tableWriter, page, now⟩, false, now + 5000, opImage page⟩
                  fe.waiting := [⟨.eraser, .eraseBlock r, now⟩] }))))
  ∧ (∀ (j : EraseJob) (k b i : Nat) (e : Segment) (s : State), BlocksPlaced s → snapshotGoing s →
      (s.sm.segments[j.segment]? = some e → e.blocks[j.position]? = some b → BlocksPlaced (smEraseFailed j b s))
      ∧ (openIndex s.sm = some i → s.sm.segments[i]? = some e → k < e.blocks.length → BlocksPlaced (smReplace k s).2))
  ∧ ∀ (bps : Nat) (bad : List Nat), 0 < bps → ascending bad = true → (∀ b ∈ bad, 16 ≤ b ∧ b < 16384) →
      PlacedOnce bad (formatPool bps (goodBlocks bad)) (formatGroups bps (goodBlocks bad))

/-- OPERATION_TIMEOUT (R67, R68, R73, R74, R104, R117, R121): at the deadline the operation is abandoned, the flash restored flag
cleared and the timeout counted. Its requester, here the fetcher of a Fetch in hand, asks for the same operation again, which
is granted behind a Reset. At the third in a row the rail is Failed with FlashFault raised, and the request asked again is
answered FlashFailed: the writer enters Faulted, no snapshot follows until the next mount, and the Fetch is published Failed with FlashFailed; here with no frame owed a
track entry. A start-up Reset is issued again, the requests that woke the rail waiting on; the settle end is none then (log
49). That the slot of the Fetch keeps the fields as posted, with the detail 0, is the model's (log 64), and so is it that with
no operation in flight nothing happens (log 6). The row comes at the operation's deadline (log 3). -/
def Obligations.OperationTimesOut : Prop :=
  (∀ (o : EndOrder) (s : State), Resting s → s.fe.inFlight = none → exec (.operationTimeout o) s = .next s)
  ∧ (∀ (o : EndOrder) (d arrival p worst : Nat) (bad : Option Nat) (op : FlashOp) (front : Bool) (img : List Byte)
      (e : QueueEntry) (s : State),
    s.part.state ≠ .off → s.ga.sysen = true → s.mu.marks = [] → s.sm.mount = none → s.sm.format = none →
    s.cw.writer = .stopped → s.cw.job = .fetch p worst bad → s.cw.queue = [e] → e.result = none →
    s.cw.inHand = some e.request.sequence → s.cw.stopDue = none → s.cw.assembly = [] → s.cw.reloc = none →
    s.cw.programming = false → s.cw.reappend = [] → s.cw.resume = none → s.sm.change = none → s.ga.grace = none →
    s.part.transition = .none → s.part.state ≠ .standby → s.fe.waiting = [] → s.fe.heldBack = [] →
    s.fe.rail = .busy → s.fe.identity = .isMatch → isReadPage op = true →
    s.fe.inFlight = some ⟨some ⟨.fetcher, op, arrival⟩, front, d, img⟩ →
    (s.fe.timeouts + 1 < 3 →
      exec (.operationTimeout o) s
        = .next { s.advance d with
            fe.inFlight := some ⟨some ⟨.fetcher, op, (s.advance d).rck.clock⟩, true, (s.advance d).rck.clock + 1000, []⟩
            fe.restored := false, fe.idle := s.fe.idleLoad, fe.timeouts := s.fe.timeouts + 1, fe.rail := .busy })
    ∧ (3 ≤ s.fe.timeouts + 1 → openIndex s.sm = none → s.sm.abandoned = false → noneOwed s →
      exec (.operationTimeout o) s
        = .next (publishedSlot e.slot e.request ⟨.flashFailed, e.request.segment, e.request.byteOffset, 0⟩
            (State.raise (State.raise
              { s.advance d with
                fe.inFlight := none, fe.restored := false, fe.idle := s.fe.idleLoad
                fe.timeouts := s.fe.timeouts + 1, fe.rail := .failed, fe.settleEnd := none
                sm.snapshotsEnded := true
                cw.writer := .faulted, cw.job := .idle, cw.deadline := none, cw.pageMark := none } .flashFault)
              .writerState))))
  ∧ ∀ (o : EndOrder) (d : Nat) (img : List Byte) (s : State), Resting s → s.ga.grace = none → s.fe.waiting ≠ [] →
    s.fe.inFlight = some ⟨none, true, d, img⟩ → s.fe.rail = .starting → s.fe.timeouts + 1 < 3 →
    s.part.transition = .none →
    exec (.operationTimeout o) s
      = .next { s.advance d with
          fe.restored := false, fe.idle := s.fe.idleLoad, fe.timeouts := s.fe.timeouts + 1, fe.settleEnd := none
          fe.inFlight := some ⟨none, true, (s.advance d).rck.clock + 1000, []⟩ }

/-! ### The Path Unit (Section 3) -/

/-- The crop record is limited to its margins (R50, R53): an offset or roll beyond its limit is set to the limit with its
sign and its clamp flag is set, a value at or within the limit is kept; so every record made Final has |x16| ≤ 16 × Mx,
|y16| ≤ 16 × My and |roll| ≤ Rmax for the values installed then, an Unstabilized frame's being zeros. Each frame that a path
break by the silence of the frames (SILENCE_EXPIRY, R48) or a good sample in Tracking (SAMPLE_BURST_DONE, R50) makes Final
obeys the law, be its entry recycled in the same step (R55, R56) or not. -/
def Obligations.CropWithinMargins : Prop :=
  (∀ (q : PuParams) (w : List Shadow) (theta : Axes) (x y r : Int),
    x = roundDiv ((roundDiv (axisSum w Axes.yaw) w.length - theta.yaw) * q.pixelsPerDegree) 256000000 →
    y = roundDiv ((roundDiv (axisSum w Axes.pitch) w.length - theta.pitch) * q.pixelsPerDegree) 256000000 →
    r = roundDiv (roundDiv (axisSum w Axes.roll) w.length - theta.roll) 160000 →
    ∃ c, c = cropOf q w theta
      ∧ c.x16 = (if 16 * q.marginX < x.natAbs then x.sign * (16 * q.marginX : Nat) else x)
      ∧ c.y16 = (if 16 * q.marginY < y.natAbs then y.sign * (16 * q.marginY : Nat) else y)
      ∧ c.roll = (if q.rollMax < r.natAbs then r.sign * (q.rollMax : Nat) else r)
      ∧ c.clampX = decide (16 * q.marginX < x.natAbs) ∧ c.clampY = decide (16 * q.marginY < y.natAbs)
      ∧ c.clampRoll = decide (q.rollMax < r.natAbs))
  ∧ (∀ (p : Pu) (edge : Bool) (h : Shadow) (path : Nat) (c : Crop), h.path = some path →
    c = cropOf p.params (windowOf p h.frame path) h.theta →
    (finalShadow p edge h).x16 = c.x16 ∧ (finalShadow p edge h).y16 = c.y16 ∧ (finalShadow p edge h).roll = c.roll
    ∧ hasFlag (finalShadow p edge h).flags .clampedX = (hasFlag h.flags .clampedX || c.clampX)
    ∧ hasFlag (finalShadow p edge h).flags .clampedY = (hasFlag h.flags .clampedY || c.clampY)
    ∧ hasFlag (finalShadow p edge h).flags .clampedRoll = (hasFlag h.flags .clampedRoll || c.clampRoll))
  ∧ (∀ (p : Pu) (edge : Bool) (h : Shadow),
    (finalShadow p edge h).x16.natAbs ≤ 16 * p.params.marginX ∧ (finalShadow p edge h).y16.natAbs ≤ 16 * p.params.marginY
    ∧ (finalShadow p edge h).roll.natAbs ≤ p.params.rollMax
    ∧ (h.path = none → (finalShadow p edge h).x16 = 0 ∧ (finalShadow p edge h).y16 = 0 ∧ (finalShadow p edge h).roll = 0))
  ∧ ∀ (c : Instr) (t : Stamp) (b : Burst) (tk i : Nat) (h g : Shadow) (s u : State), Calm s →
    (c = .silenceExpiry ∨ (c = .sampleBurstDone t b ∧ s.mu.link = .tracking ∧ takesBurst s.mu tk ∧
      s.mu.lastCounter ≠ some (burstCounter b) ∧ noImpact s.mu b ∧ s.mu.params.biasEnable = false)) →
    s.pu.shadows[i]? = some h → (h.state = .captured ∨ h.state = .measured) → h.held = false → exec c s = .next u →
    u.pu.shadows[i]? = some g → (g.state = .final ∨ g.held = true) →
    g.x16.natAbs ≤ 16 * s.pu.params.marginX ∧ g.y16.natAbs ≤ 16 * s.pu.params.marginY
    ∧ g.roll.natAbs ≤ s.pu.params.rollMax

/-- A frame is measured at the first sample at or after its reference time (R44, R45, R46). In Tracking its shadow takes the
accumulators of that good sample and the path number in force; a sample before the reference time leaves the frame Captured;
and each good sample from the capture time on is counted for it. Outside Tracking, at a good sample of the Sampling phase or of
Lost, or at a tick in Absent or before the Sampling phase, the frame is Unstabilized: it is measured with angles of 0 and no
path, and no sample is counted for it. Here the one frame open, with look-ahead, with no table in the Buffer RAM. -/
def Obligations.FrameMeasured : Prop :=
  ∀ (t : Stamp) (b : Burst) (tk i : Nat) (h : Shadow) (s : State), Calm s → i < s.pu.shadows.length → s.pu.shadow i = h →
    (∀ j, j ≠ i → (s.pu.shadow j).state = .free ∧ (s.pu.shadow j).held = false) →
    h.state = .captured → s.pu.table = none → 0 < s.pu.params.lookAhead →
    (s.mu.link = .tracking → takesBurst s.mu tk → s.mu.lastCounter ≠ some (burstCounter b) → noImpact s.mu b →
      s.mu.params.biasEnable = false →
      (passesLimit s.mu.acc.yaw (burstSample b).gyro.yaw s.mu.bias.yaw (interval s tk) = false
        ∧ passesLimit s.mu.acc.pitch (burstSample b).gyro.pitch s.mu.bias.pitch (interval s tk) = false
        ∧ passesLimit s.mu.acc.roll (burstSample b).gyro.roll s.mu.bias.roll (interval s tk) = false) →
      ∀ count, count = (if h.capture ≤ tk then min (h.samples + 1) 65535 else h.samples) →
      (h.reference ≤ (tk : Int) →
        exec (.sampleBurstDone t b) s
          = .next { s.advance t.toNat with
              mu := tracked s b tk
              pu.shadows := s.pu.shadows.set i
                { h with
                  state := .measured, theta := (tracked s b tk).acc, path := some s.pu.pathNumber, samples := count } })
      ∧ ((tk : Int) < h.reference →
        exec (.sampleBurstDone t b) s
          = .next { s.advance t.toNat with
              mu := tracked s b tk, pu.shadows := s.pu.shadows.set i { h with samples := count } }))
    ∧ ((s.mu.link = .starting ∧ s.mu.phase = .sampling) ∨ s.mu.link = .lost → s.mu.goodRun + 1 < 4 →
        takesBurst s.mu tk → s.mu.lastCounter ≠ some (burstCounter b) → noImpact s.mu b → h.reference ≤ (tk : Int) →
        exec (.sampleBurstDone t b) s
          = .next { s.advance t.toNat with
              mu := { s.mu with
                txn := none, lastCounter := some (burstCounter b), lastGood := some (burstSample b)
                goodRun := s.mu.goodRun + 1, missingRun := if s.mu.link = .starting then 0 else s.mu.missingRun }
              pu.shadows := s.pu.shadows.set i (unstabilizedShadow h) })
    ∧ (s.mu.link = .absent ∨ (s.mu.link = .starting ∧ s.mu.phase ≠ .sampling) → s.mu.leaving = false →
        s.rck.sampleTimer = some tk → s.rck.pendingPeriod = none → h.reference ≤ (tk : Int) →
        exec .sampleTick s
          = .next { s.advance tk with
              rck := { (s.advance tk).rck with sampleTimer := some (tk + s.rck.activePeriod) }
              pu.shadows := s.pu.shadows.set i (unstabilizedShadow h) })

/-- FRAME_START writes the frame's record (R39, R41, Table 11-6): its 64 bytes read Captured with no flag, the frame
number, the capture and reference times, angles, offsets and roll of 0, no segment, and a release word of 0; no other
byte of the Buffer RAM changes. Here for a Free entry, with the frame before no longer held. FRAME_START comes at the
microsecond at which the run is complete (log 28). -/
def Obligations.FrameRecordWritten : Prop :=
  ∀ (o : List FrameDelivery) (s : State) (n e i base : Nat), Calm s → s.rck.filter = .qualifying →
    e = s.rck.clock + (s.rck.filterLength - s.rck.filterRun) → e ≤ lastClock →
    s.rck.nextFrame = .number n → (∀ l, s.rck.lastAccepted = some l → s.rck.minInterval ≤ e - l) →
    s.mu.pending = none → s.pu.pending = none → s.pu.table = some base → s.cw.table = none →
    base + 64 * s.pu.shadows.length ≤ ramBytes → memoryWf s.mem = true → i = n % s.pu.shadows.length →
    s.pu.shadows ≠ [] → (s.pu.shadow i).state = .free →
    (n = 0 ∨ (s.pu.shadow ((n - 1) % s.pu.shadows.length)).holds (n - 1) = false) →
    ∃ u, exec (.frameStart o) s = .next u
      ∧ readCells u.mem (base + 64 * i) 64
        = leBytes 2 2 ++ leBytes 2 0 ++ leBytes 4 n ++ leBytes 8 e ++ leInt 8 ((e : Int) + s.pu.params.exposure)
          ++ List.replicate 24 0 ++ List.replicate 4 0 ++ List.replicate 4 0 ++ [0xFF, 0xFF, 0, 0] ++ List.replicate 4 0
      ∧ ∀ a, a < base + 64 * i ∨ base + 64 * i + 64 ≤ a → readCell u.mem a = readCell s.mem a

/-! ### The Clip Writer and the Segment Manager (Sections 5 and 6) -/

/-- START in Stopped, with energy and an unworn flash (R88, R112, R118): a new clip begins in the lowest Free segment,
opened as its part 1 with the next sequence and clip id; the writer is Recording, WriterState is raised, frames from the
clip's first on are Needed (R43), and the request is published Ok with the segment and the clip id. That segment alone is
Open then (R88). A snapshot is due, and waits for the one being written. The row stands for the taking of its slot at a service point (log 13). -/
def Obligations.StartOpensClip : Prop :=
  ∀ (t : Stamp) (i base k : Nat) (r : Request) (e : Segment) (s a : State), Calm s → takesSlot .start i s = true →
    s.cw.table = some base → r = slotRequest s base i → s.cw.writer = .stopped → s.cw.cause ≠ .unformatted →
    lowEnergy s.ga = false → s.fe.worn = false → lowestFree s.sm = some k → s.sm.segments[k]? = some e → e.blocks ≠ [] →
    openIndex s.sm = none → s.sm.pending = none → snapshotGoing s → a = takenSlot (s.advance t.toNat) base i r →
    exec (.start t i) s
      = .next (publishedSlot i r ⟨.ok, k, 0, s.sm.clip.toNat⟩ (State.raise
          { a with
            cw := { a.cw with
              writer := .recording, clipFirst := r.firstFrame, streamPos := 0, lastSequence := none, lastTracked := none
              blockEnd := none }
            sm := { s.sm with
              segments := s.sm.segments.set k
                { e with
                  state := .opened, sequence := s.sm.sequence, clip := s.sm.clip, part := 1
                  startTime := (s.advance t.toNat).rck.clock, endTime := 0, firstFrame := r.firstFrame, frameCount := 0
                  bytesWritten := 0, protection := none, recovered := false, damaged := false, weak := false }
              sequence := nextCounter s.sm.sequence, clip := nextCounter s.sm.clip, openFill := 0, snapshotDue := true }
            pu.shadows := s.pu.shadows.map fun h =>
              if h.state ≠ .free ∧ r.firstFrame ≤ h.frame ∧ h.obligation = .notNeeded then
                { h with obligation := .needed } else h } .writerState))
    ∧ ∃ u, exec (.start t i) s = .next u ∧ u.cw.writer = .recording
        ∧ ∀ j g, u.sm.segments[j]? = some g → (g.state = .opened ↔ j = k)

/-- SPLIT in Recording with an empty assembly (R89, R112, R119): the open segment is closed with the time now, its frame
count and its programmed bytes, SegmentClosed is raised, and the lowest Free segment is opened as part 1 of a new clip;
the request is published Ok with the new segment and clip id. The row stands for the taking of its slot at a service
point (log 13). That the clip id is a new one, as R119 has it and R88 has not, is the model's (log 62), and so is the field
lastClosed (log 54). -/
def Obligations.SplitOpensClip : Prop :=
  ∀ (t : Stamp) (i base j k : Nat) (r : Request) (d e : Segment) (s a : State), Calm s → takesSlot .split i s = true →
    s.cw.table = some base → r = slotRequest s base i → s.cw.writer = .recording → s.cw.assembly = [] →
    s.cw.programming = false → openIndex s.sm = some j → s.sm.segments[j]? = some d → lowestFree s.sm = some k →
    s.sm.segments[k]? = some e → e.blocks ≠ [] → s.sm.pending = none → snapshotGoing s →
    a = takenSlot (s.advance t.toNat) base i r →
    exec (.split t i) s
      = .next (publishedSlot i r ⟨.ok, k, 0, s.sm.clip.toNat⟩ (State.raise
          { a with
            cw := { a.cw with clipFirst := r.firstFrame, streamPos := 0, lastSequence := none, lastTracked := none }
            sm := { s.sm with
              segments := (s.sm.segments.set j
                { d with
                  state := .closed, endTime := (s.advance t.toNat).rck.clock, frameCount := liveFrameCount s
                  bytesWritten := 8192 * s.sm.openFill }).set k
                { e with
                  state := .opened, sequence := s.sm.sequence, clip := s.sm.clip, part := 1
                  startTime := (s.advance t.toNat).rck.clock, endTime := 0, firstFrame := r.firstFrame, frameCount := 0
                  bytesWritten := 0, protection := none, recovered := false, damaged := false, weak := false }
              lastClosed := some j, sequence := nextCounter s.sm.sequence, clip := nextCounter s.sm.clip, openFill := 0
              snapshotDue := true } }
          .segmentClosed))

/-- MEDIA in Recording, with room in its segment and its page (R58, R112, R124, R125, R126, R127): its chunk item and
its track item are appended to the page assembly, the track entries asked of the Path Unit frame by frame; an empty
buffer gets the commit deadline; the request leaves the hand and waits in the queue for the page to be programmed. Under low
energy none is taken for writing (R131): the request is refused with LowPower, in Stopped (R114) and, which is the model's (log
59), in Recording; outside it Stopped refuses it with NotRecording. The row stands for the taking of its slot at a service
point (log 13). The copying takes no time between page programs (log 14). A covered number past 2^32 - 1 goes on from 0 (log
51), and the flags in a track entry are those of log 68. -/
def Obligations.MediaAppended : Prop :=
  (∀ (t : Stamp) (i base j pad : Nat) (r : Request) (s a b c : State) (tr : List Byte × Nat × State), Calm s →
    takesSlot .media i s = true → s.cw.table = some base → r = slotRequest s base i → s.cw.writer = .recording →
    lowEnergy s.ga = false → s.cw.programming = false → 0 < r.length → r.length ≤ 1048576 → r.frameCount ≤ 32 →
    r.buffer + r.length ≤ ramBytes → openIndex s.sm = some j →
    pad = (r.length + 15) / 16 * 16 - r.length →
    16 + r.length + pad + (16 + 32 * r.frameCount) ≤ openCapacity s - s.cw.streamPos →
    s.cw.assembly.length + (16 + r.length + pad) + (16 + 32 * r.frameCount) < 8192 →
    a = takenSlot (s.advance t.toNat) base i r → b = puSkipBelow r.firstFrame a →
    tr = trackEntries j (coveredFrames r) b → c = (if s.cw.assembly = [] then cwSetDeadline b else b) →
    exec (.media t i) s
      = .next { c with
          mem := tr.2.2.mem, pu := tr.2.2.pu
          cw := { c.cw with
            assembly := s.cw.assembly ++ (chunkHeader r ++ readCells b.mem r.buffer r.length ++ List.replicate pad 0)
              ++ (trackHeader r ++ tr.1)
            streamPos := s.cw.streamPos + (16 + r.length + pad) + (16 + 32 * r.frameCount)
            lastSequence := some r.sequence, lastTracked := raisedFrame s.cw.lastTracked r, inHand := none
            queue := [⟨i, r, none, j, s.cw.streamPos,
              some (s.cw.streamPos + (16 + r.length + pad) + (16 + 32 * r.frameCount)), tr.2.1⟩] } })
  ∧ ∀ (t : Stamp) (i base : Nat) (r : Request) (s a : State), Calm s → takesSlot .media i s = true →
    s.cw.table = some base → r = slotRequest s base i → a = takenSlot (s.advance t.toNat) base i r →
    (s.cw.writer = .recording → lowEnergy s.ga = true →
      exec (.media t i) s = .next (publishedSlot i r ⟨.lowPower, r.segment, r.byteOffset, 0⟩ a))
    ∧ (s.cw.writer = .stopped → s.cw.cause ≠ .unformatted →
      exec (.media t i) s
        = .next (publishedSlot i r
            ⟨if lowEnergy s.ga then .lowPower else .notRecording, r.segment, r.byteOffset, 0⟩ a))

/-- PROTECT and UNPROTECT (R102, R112, R120), each published in the step that takes it. A segment that is Open or Closed
takes the host's protection with the time now, if the host does not hold too many; an impact's protection becomes the
host's. Unprotect removes any protection. A segment that does not exist, or is neither Open nor Closed, is refused with
NoSuchSegment, and one too many with ProtectLimit. The row stands for the taking of its slot at a service point (log
13). -/
def Obligations.ProtectionSet : Prop :=
  ∀ (t : Stamp) (i base k : Nat) (r : Request) (s a : State), Calm s → s.cw.table = some base → r = slotRequest s base i →
    k = r.segment → (s.cw.writer = .recording ∨ (s.cw.writer = .stopped ∧ s.cw.cause ≠ .unformatted)) →
    lowestFree s.sm ≠ none → snapshotGoing s → a = takenSlot (s.advance t.toNat) base i r →
    (∀ e, takesSlot .protect i s = true → s.sm.segments[k]? = some e → (e.state = .opened ∨ e.state = .closed) →
        protectedBy .host e = false → s.sm.hostCount + 3 < usableCount s.sm →
        exec (.protect t i) s
          = .next (publishedSlot i r ⟨.ok, k, r.byteOffset, 0⟩
              { a with
                sm := { s.sm with
                  segments := s.sm.segments.set k
                    { e with protection := some ⟨.host, (s.advance t.toNat).rck.clock⟩ }
                  hostCount := s.sm.hostCount + 1
                  impactCount := if protectedBy .impact e then s.sm.impactCount - 1 else s.sm.impactCount
                  snapshotDue := true } }))
    ∧ (∀ e, takesSlot .protect i s = true → s.sm.segments[k]? = some e → (e.state = .opened ∨ e.state = .closed) →
        protectedBy .host e = false → usableCount s.sm ≤ s.sm.hostCount + 3 →
        exec (.protect t i) s = .next (publishedSlot i r ⟨.protectLimit, k, r.byteOffset, 0⟩ a))
    ∧ (∀ e p, takesSlot .unprotect i s = true → s.sm.segments[k]? = some e → (e.state = .opened ∨ e.state = .closed) →
        e.protection = some p →
        exec (.unprotect t i) s
          = .next (publishedSlot i r ⟨.ok, k, r.byteOffset, 0⟩
              { a with
                sm := { s.sm with
                  segments := s.sm.segments.set k { e with protection := none }
                  hostCount := if p.cause = .host then s.sm.hostCount - 1 else s.sm.hostCount
                  impactCount := if p.cause = .impact then s.sm.impactCount - 1 else s.sm.impactCount
                  snapshotDue := true } }))
    ∧ ((∀ e, s.sm.segments[k]? = some e → e.state ≠ .opened ∧ e.state ≠ .closed) →
        (takesSlot .protect i s = true →
          exec (.protect t i) s = .next (publishedSlot i r ⟨.noSuchSegment, k, r.byteOffset, 0⟩ a))
        ∧ (takesSlot .unprotect i s = true →
          exec (.unprotect t i) s = .next (publishedSlot i r ⟨.noSuchSegment, k, r.byteOffset, 0⟩ a)))

/-- FETCH in Stopped, of bytes that a Closed segment holds (R112, R121): the page that holds the first of them is asked
of the flash, whose rail starts. READ_PAGE_DONE of a page of a Fetch in hand copies the bytes of the range that lie in the page
into the host buffer, each word as a host write of it (R188), and notes the largest worst count and the first bad stream
offset; the next page of the range is asked for, and after the last one the request is published, Ok with the worst count, or
Uncorrectable with the first bad stream offset. A worst count of 6 or more sets the segment's Weak flag, whatever the result;
here with a snapshot being written, whose page goes to the flash next, and with no slot Posted. The row FETCH stands for the
taking of its slot at a service point (log 13). -/
def Obligations.FetchReads : Prop :=
  (∀ (t : Stamp) (i base p : Nat) (r : Request) (e : Segment) (s a : State), Calm s → takesSlot .fetch i s = true →
    s.cw.table = some base → r = slotRequest s base i → s.cw.writer = .stopped → s.cw.cause ≠ .unformatted →
    s.sm.segments[r.segment]? = some e → e.state = .closed → 0 < r.length → r.length ≤ 1048576 →
    r.byteOffset + r.length ≤ e.bytesWritten → r.buffer + r.length ≤ ramBytes → railAsleep s →
    p = r.byteOffset / 8192 → a = takenSlot (s.advance t.toNat) base i r →
    exec (.fetch t i) s
      = .next { a with
          cw.job := .fetch p 0 none
          fe := awakened s.fe .fetcher (.readPage (e.blocks.getD (p / 256) 0) (p % 256))
            (s.advance t.toNat).rck.clock })
  ∧ ∀ (t : Stamp) (o : EndOrder) (page : PageRead) (p worst d arrival lo hi : Nat) (old bad : Option Nat) (op : FlashOp)
      (img : List Byte) (e : QueueEntry) (r : Request) (x : PageResult) (s u : State),
    s.part.state ≠ .off → s.ga.sysen = true → s.mu.marks = [] → s.sm.mount = none → s.sm.format = none →
    s.cw.writer = .stopped → s.cw.job = .fetch p worst old → s.cw.queue = [e] → e.result = none →
    s.cw.inHand = some e.request.sequence → s.cw.stopDue = none → s.cw.assembly = [] → s.cw.reloc = none →
    s.cw.programming = false → s.cw.reappend = [] → s.cw.resume = none → s.sm.change = none → s.ga.grace = none →
    s.part.transition = .none → s.part.state ≠ .standby → s.fe.heldBack = [] → s.fe.restored = true →
    s.fe.rail ≠ .failed → s.fe.identity = .isMatch → isReadPage op = true → s.fe.inFlight = some ⟨some ⟨.fetcher, op, arrival⟩, false, d, img⟩ →
    r = e.request → x = pageResult page → r.byteOffset < 8192 * (p + 1) → 8192 * p < r.byteOffset + r.length →
    lo = max r.byteOffset (8192 * p) → hi = min (r.byteOffset + r.length) (8192 * (p + 1)) →
    (∀ n, old = some n → bad = some n) → (old = none → LowestBad r p x.bad bad) →
    u = { s.advance t.toNat with
          fe.inFlight := none, fe.timeouts := 0, fe.idle := s.fe.idleLoad, fe.rail := .ready
          mem := writeCells s.mem (r.buffer + (lo - r.byteOffset)) ((x.data.drop (lo - 8192 * p)).take (hi - lo)) } →
    (∀ g, s.fe.waiting = [] → 8192 * (p + 1) < r.byteOffset + r.length → s.sm.segments[r.segment]? = some g →
        exec (.readPageDone t page o) s
          = .next { u with
              cw.job := .fetch (p + 1) (max worst x.worst) bad, fe.rail := .busy
              fe.inFlight := some ⟨some ⟨.fetcher,
                .readPage (g.blocks.getD ((p + 1) / 256) 0) ((p + 1) % 256), (s.advance t.toNat).rck.clock⟩, false,
                (s.advance t.toNat).rck.clock + 1000, []⟩ })
    ∧ ∀ (res : RequestResult) (g : Segment) (v : FlashRequest) (y : State),
        r.byteOffset + r.length ≤ 8192 * (p + 1) →
        res = (match bad with
          | none => ⟨.ok, r.segment, r.byteOffset, max worst x.worst⟩
          | some n => ⟨.uncorrectable, r.segment, r.byteOffset, n⟩) →
        (s.fe.waiting = [] → max worst x.worst < 6 → y = publishedSlot e.slot r res { u with cw.job := .idle } →
          noneOffered y → exec (.readPageDone t page o) s = .next y)
        ∧ (s.fe.waiting = [v] → v.requester = .tableWriter → isProgramPage v.op = true → snapshotGoing s →
          6 ≤ max worst x.worst → s.sm.segments[r.segment]? = some g → g.weak = false →
          y = publishedSlot e.slot r res
              { u with
                cw.job := .idle, fe.waiting := [], fe.rail := .busy
                fe.inFlight := some ⟨some v, false, (s.advance t.toNat).rck.clock + 5000, opImage v.op⟩
                sm.segments := s.sm.segments.set r.segment { g with weak := true }, sm.snapshotDue := true } →
          noneOffered y → exec (.readPageDone t page o) s = .next y)

/-- FORMAT in Stopped with no segment protected (R80, R90, R91, R112, R122): the writer is Formatting, the table and the
block records are dropped, and the survey begins with the marker of block 0. With a protected segment of a mounted table
the request is refused with IsProtected and the table stays, its slot with the fields as posted and the detail 0 (log 64). The
row stands for the taking of its slot at a service point (log 13). That the table is dropped whole, and a snapshot in progress with it, is the model's (log 10), and so is the field
lastClosed (log 54). -/
def Obligations.FormatBegins : Prop :=
  ∀ (t : Stamp) (i base : Nat) (r : Request) (s a : State), Calm s → takesSlot .format i s = true →
    s.cw.table = some base → r = slotRequest s base i → s.cw.writer = .stopped →
    (s.fe.worn = false ∨ s.cw.cause = .unformatted) → a = takenSlot (s.advance t.toNat) base i r →
    ((∀ e ∈ s.sm.segments, e.protection = none) → s.sm.pending = none → railAsleep s →
        exec (.format t i) s
          = .next (State.raise
              { a with
                cw.writer := .formatting, cw.job := .formatting
                sm := { s.sm with
                  table := .formatting, segments := [], eraser := none, snapshotDue := false, abandoned := false
                  snapshot := none, lastClosed := none, format := some (.survey 0) }
                fe := awakened { s.fe with bad := [], pool := [], tableMap := 0xFFFF, worn := false } .mountReader
                  (.readMarker 0) (s.advance t.toNat).rck.clock } .writerState))
    ∧ ((∃ e ∈ s.sm.segments, e.protection ≠ none) → s.sm.table = .mounted → s.ga.grace = none → Untracked s →
        exec (.format t i) s
          = .next (State.raise (publishedSlot i r ⟨.isProtected, r.segment, r.byteOffset, 0⟩ a) .writerState))

/-- Service points and STOP_REQUEST (R89, R111, R112, R115, R116, R123, R125, R127, R170). A Stop taken in Recording puts
the writer in Closing with the cause HostStop, and WriterState is raised. A page at its program is left to end, and the
request waits in the queue; a partial page in the assembly buffer is filled with a pad item and its program is asked for
with the progress mark of this moment; with nothing in the buffer the open segment is closed with the time now, its frame
count and its programmed bytes, the writer is Stopped in the same step, and the request is published Ok, here with no frame
owed a track entry and a snapshot being written. CONTROL Attention makes a service point in Running: with no stale slot the
scan takes the slot with the expected sequence, here that Stop; a Posted slot whose sequence lies behind the expected one,
here the only one Posted, is failed with BadSequence, its detail 0 and its other fields kept, and RequestFailed is raised;
where no service point is acted on, nothing but the clock moves. The row stands for the taking of its slot at a service
point (log 13); the field lastClosed is the model's (log 54). -/
def Obligations.StopAndAttention : Prop :=
  (∀ (t : Stamp) (i base : Nat) (r : Request) (s a : State), Resting s → takesSlot .stop i s = true →
    s.cw.table = some base → r = slotRequest s base i → s.cw.writer = .recording →
    a = { takenSlot (s.advance t.toNat) base i r with cw.queue := s.cw.queue ++ [takenEntry i r] } →
    (s.cw.programming = true →
      exec (.stopRequest t i) s
        = .next (State.raise { a with cw.writer := .closing, cw.cause := .hostStop } .writerState))
    ∧ (∀ j d n, s.cw.programming = false → s.cw.assembly ≠ [] → n = 8192 - s.cw.assembly.length → 16 ≤ n →
        openIndex s.sm = some j → s.sm.segments[j]? = some d → railAsleep s →
        exec (.stopRequest t i) s
          = .next (State.raise
              { paddedPage a n j d with cw.writer := .closing, cw.cause := .hostStop } .writerState))
    ∧ (∀ j d, s.cw.programming = false → s.cw.assembly = [] → s.cw.queue = [] → s.ga.grace = none →
        openIndex s.sm = some j → s.sm.segments[j]? = some d →
        (∀ k g, s.sm.segments[k]? = some g → g.state = .opened → k = j) → noneOwed s → snapshotGoing s →
        exec (.stopRequest t i) s
          = .next (publishedSlot i r ⟨.ok, r.segment, r.byteOffset, 0⟩ (State.raise (State.raise
              { a with
                cw.writer := .stopped, cw.cause := .hostStop
                sm := closedTable (s.advance t.toNat) j d } .segmentClosed) .writerState))))
  ∧ ∀ (t : Stamp) (i base : Nat) (s : State), s.part.state ≠ .standby →
    (Calm s → takesSlot .stop i s = true → s.cw.table = some base → s.cw.writer = .recording →
        (∀ j, j < s.cw.slotCount → slotState s base j = 1 → 0 ≤ seqDiff (slotSequence s base j) s.cw.expected) →
        exec (.attention t) s = exec (.stopRequest t i) s ∧ ∃ u, exec (.attention t) s = .next u ∧ u.cw.cause = .hostStop)
    ∧ (Calm s → servicePoint s = true → s.cw.table = some base → i < s.cw.slotCount → memoryWf s.mem = true →
        base + 32 * s.cw.slotCount ≤ ramBytes → slotState s base i = 1 →
        seqDiff (slotSequence s base i) s.cw.expected < 0 →
        (∀ j, j < s.cw.slotCount → j ≠ i → slotState s base j ≠ 1) →
        exec (.attention t) s
          = .next (State.raise
              (((s.advance t.toNat).store (base + 32 * i + 28) [0, 0, 0, 0]).store (base + 32 * i) [4, 0, 1, 0])
              .requestFailed))
    ∧ (Resting s → servicePoint s = false → exec (.attention t) s = .next (s.advance t.toNat))

/-- A publication (R115, R185, Table 6-4, Table 11-5): the slot's segment, byte offset and detail take the result's values,
the kind and the frame count, bytes 8 and 9, which share a word with the segment, are those of the copy taken, and then its
state word reads Done or Failed with the result code; every other byte of the slot and of the Buffer RAM is unchanged. The
queue is published from its oldest entry on: a ready one is published, with RequestDone or RequestFailed, and leaves the
queue, and the next is looked at; a ready entry behind one that is not ready waits. The order of the words written is the
model's (log 15). -/
def Obligations.SlotPublished : Prop :=
  (∀ (base : Nat) (e : QueueEntry) (res : RequestResult) (s : State) (a : Nat), s.cw.table = some base →
    a = base + 32 * e.slot → a + 32 ≤ ramBytes → memoryWf s.mem = true →
    ∃ m, publishSlot e res s = { s with mem := m }
      ∧ readCells m a 4 = leBytes 2 (if res.code = .ok then 3 else 4) ++ leBytes 2 (resultCode res.code)
      ∧ readCells m (a + 8) 2 = leBytes 1 e.request.kind ++ leBytes 1 e.request.frameCount
      ∧ readCells m (a + 10) 2 = leBytes 2 res.segment ∧ readCells m (a + 24) 4 = leBytes 4 res.byteOffset
      ∧ readCells m (a + 28) 4 = leBytes 4 res.detail
      ∧ (∀ x, x < a ∨ (a + 4 ≤ x ∧ x < a + 8) ∨ (a + 12 ≤ x ∧ x < a + 24) ∨ a + 32 ≤ x →
          readCell m x = readCell s.mem x))
  ∧ ∀ (e : QueueEntry) (rest : List QueueEntry) (s : State), s.cw.queue = e :: rest →
    (e.result = none → cwPublish s = s)
    ∧ (∀ res, e.result = some res →
        cwPublish s
          = cwPublish
              (State.raise
                { s with
                  mem := (publishSlot e res s).mem
                  cw.queue := rest } (if res.code = .ok then .requestDone else .requestFailed)))

/-- MOUNT_WORK_END (R8, R181, R182): with the mount work done, the profile read's hand-off too, the part is Running, the frame filter opens by the level
of the line with its counters cleared, and MountDone is raised; after a Stop it leaves for Idle instead. That before the
mount work is done only the clock moves is the model's (log 6), and that a held reload is left to HELD_RELOAD (log 25). -/
def Obligations.MountWorkEnds : Prop :=
  ∀ (t : Stamp) (s : State), Still s → s.sm.format = none → s.part.state = .mounting →
    (s.sm.mount = none → s.hp.reading = none → s.part.transition = .none →
        exec (.mountWorkEnd t) s
          = .next (State.raise
              { s.advance t.toNat with
                part.state := .running
                rck := { (s.advance t.toNat).rck with
                  filter := if s.rck.line then .high else .low, filterRun := 0, nextFrame := .number 0
                  lastAccepted := none, lastInterval := none, glitches := 0, silence := none } } .mountDone))
    ∧ (s.sm.mount = none → s.hp.reading = none → s.part.transition = .stop → s.mu.detector ≠ .declared →
        exec (.mountWorkEnd t) s
          = .next (State.raise
              { s.advance t.toNat with
                part.state := .idle, part.transition := .none, rck := leftClock (s.advance t.toNat).rck
                mu := leftMotion { s.mu with detector := .disabled, impactRun := 0 } } .mountDone))
    ∧ ((s.sm.mount = some .readId ∨ (s.sm.mount = none ∧ s.hp.reading ≠ none)) →
        exec (.mountWorkEnd t) s = .next (s.advance t.toNat))

/-! ### Runs and profiles (Sections 9 and 10) -/

/-- A Run taken in Idle (R4, R15, R110, R116, R172, R174, R181): the part is Mounting with DIRECTORY as the directory in
force, the sample timer is armed with the active period, the link is Starting in its Identify phase with the detector Disabled, and
the first identity read begins when the motion values are installed (log 25); the Clip Writer is Unmounted with
an empty queue and the directory's first sequence, and the Segment Manager, with nothing due, has asked for the flash's
identity, whatever is known of it, for which the rail starts. Each field of the directory is handed to its user (R173): the request table and its slot
count (R110), the frame record table and its capacity, every entry of it Free with a release word of 0 (R37), the status page
(R177) and the segment view (R107); an offset of 0 and a record past the end of the Buffer RAM make it absent, and a count out
of its range or such a record raises ParameterClamped, unless RESETn is low (R184). The profiles are read at the directory's
offsets, in the Buffer RAM as the frame record table has left it (log 60), and each value is installed at once, but that the
sample period waits for the next sample tick and the power and gauge values for the next arrival (Table 9-6); the clamp record
is that of this read, with the clamp of the look-ahead to a quarter of the frame table (R59, log 29). Where the profile read
goes on past the command nothing is handed yet and the mount waits; HELD_RELOAD, the row of the read's end (log 25), then hands
the values, a transaction still in flight goes on in place of the identity read, and the mount begins. A reload's read in
progress at a Run ends first (log 25). -/
def Obligations.RunTaken : Prop :=
  (∀ (t : Stamp) (course : ReadCourse) (s : State), Calm s → s.part.state = .idle → s.part.transition = .none →
    s.mu.txn = none → s.mu.resetDue = false → railUnasked s → s.sm.snapshot = none → s.sm.snapshotDue = false →
    s.ga.grace = none → s.hp.reading = none →
    ∀ (field : Nat → Nat) (slots frames : Nat), field = (fun o => s.readField (s.hp.directory.toNat + o) 4) →
    slots = clampedCount 8 64 (field 20) → frames = clampedCount 16 64 (field 28) →
    ∃ u, exec (.run t course) s = .next u
      ∧ u.part = { s.part with state := .mounting } ∧ u.hp.inForce = some s.hp.directory.toNat
      ∧ u.hp.directory = s.hp.directory
      ∧ u.rck.activePeriod = s.rck.pendingPeriod.getD s.rck.activePeriod
      ∧ u.rck.sampleTimer = some ((s.advance t.toNat).rck.clock + s.rck.pendingPeriod.getD s.rck.activePeriod)
      ∧ u.mu.link = .starting ∧ u.mu.phase = .identify ∧ u.mu.attempts = 0 ∧ u.mu.detector = .disabled
      ∧ u.mu.marks = [] ∧ u.mu.impacts = 0
      ∧ u.cw.writer = .unmounted ∧ u.cw.queue = []
      ∧ u.cw.expected = BitVec.ofNat 32 (field 0) ∧ u.cw.slotCount = slots
      ∧ u.cw.table = recordPlace (field 16) (32 * slots)
      ∧ u.pu.table = recordPlace (field 24) (64 * frames) ∧ u.pu.shadows = List.replicate frames Shadow.empty
      ∧ (memoryWf s.mem = true → ∀ a, u.pu.table = some a → ∀ i, i < frames →
          readCells u.mem (a + 64 * i) 4 = leBytes 4 1 ∧ readCells u.mem (a + 64 * i + 60) 4 = leBytes 4 0)
      ∧ u.hp.status = recordPlace (field 32) 96 ∧ u.sm.view = recordPlace (field 36) 12304
      ∧ ((field 20 ≠ 0 ∧ field 20 ≠ slots) ∨ (field 28 ≠ 0 ∧ field 28 ≠ frames)
          ∨ (16 ≤ field 16 ∧ u.cw.table = none) ∨ (16 ≤ field 24 ∧ u.pu.table = none)
          ∨ (16 ≤ field 32 ∧ u.hp.status = none) ∨ (16 ≤ field 36 ∧ u.sm.view = none) → s.part.resetnLow = false →
          u.caused .parameterClamped = true)
      ∧ u.pu.pathNumber = 0 ∧ u.pu.overruns = 0 ∧ u.pu.newest = s.pu.newest
      ∧ (course ≠ .lasting → u.hp.reading = none ∧ u.mu.txn = some .identity
        ∧ u.sm.table = .mounting ∧ u.sm.mount = some .readId ∧ u.fe.rail = .starting
        ∧ u.fe.waiting = [⟨.mountReader, .readId, (s.advance t.toNat).rck.clock⟩]
        ∧ ∃ v : Profiles, v = readProfiles u (profileOffsets s s.hp.directory.toNat)
          ∧ u.rck.pendingPeriod = some v.motion.period ∧ u.rck.filterLength = v.motion.filterLength
          ∧ u.rck.pendingFilterLength = none ∧ u.rck.minInterval = v.motion.minInterval
          ∧ u.rck.pendingMinInterval = none ∧ u.mu.params = v.motion.mu ∧ u.mu.bias = v.motion.bias ∧ u.mu.pending = none
          ∧ u.pu.params = { v.motion.pu with lookAhead := min v.motion.pu.lookAhead (frames / 4) } ∧ u.pu.pending = none
          ∧ u.sm.params = v.storage.sm ∧ u.sm.pending = none ∧ u.cw.commitMs = v.storage.commitMs
          ∧ u.cw.pendingCommitMs = none ∧ u.fe.settleMs = v.storage.settleMs ∧ u.fe.idleLoad = v.storage.idleLoad
          ∧ u.cc.pending = some v.power.cc ∧ u.ga.pending = some v.power.ga
          ∧ u.hp.clamped = { v.clamped with motion := v.clamped.motion || decide (frames / 4 < v.motion.pu.lookAhead) }
          ∧ (u.hp.clamped.motion = true ∨ u.hp.clamped.storage = true ∨ u.hp.clamped.power = true →
              s.part.resetnLow = false → u.caused .parameterClamped = true))
      ∧ (course = .lasting → (∃ v, v = readProfiles u (profileOffsets s s.hp.directory.toNat)
          ∧ u.hp.reading = some ⟨v, true⟩ ∧ u.hp.clamped = v.clamped)
        ∧ u.mu.txn = none ∧ u.mu.params = s.mu.params ∧ u.mu.bias = s.mu.bias
        ∧ u.cc = s.cc ∧ u.ga = s.ga ∧ u.rck.pendingPeriod = none ∧ u.rck.filterLength = s.rck.filterLength
        ∧ u.sm.params = s.sm.params ∧ u.sm.table = s.sm.table ∧ u.sm.mount = some .finishing ∧ u.fe = s.fe))
  ∧ (∀ (t : Stamp) (v : Profiles) (s : State), Still s → s.part.state = .mounting → s.part.transition = .none →
    s.sm.mount = some .finishing → s.sm.format = none → s.hp.reading = some ⟨v, true⟩ → railUnasked s →
    s.sm.snapshot = none → s.sm.snapshotDue = false →
    s.mu.link = .starting → s.mu.phase = .identify → s.mu.detector = .disabled →
    ∃ u, exec (.heldReload t) s = .next u ∧ u.mu.txn = some (s.mu.txn.getD .identity) ∧ u.mu.detector = .disabled
      ∧ u.part = s.part ∧ u.hp.reading = none ∧ u.hp.reloadHeld = s.hp.reloadHeld
      ∧ u.rck.pendingPeriod = some v.motion.period ∧ u.rck.filterLength = v.motion.filterLength
      ∧ u.rck.minInterval = v.motion.minInterval ∧ u.mu.params = v.motion.mu ∧ u.mu.bias = v.motion.bias
      ∧ u.pu.params = { v.motion.pu with lookAhead := min v.motion.pu.lookAhead (s.pu.shadows.length / 4) }
      ∧ u.sm.params = v.storage.sm ∧ u.cw.commitMs = v.storage.commitMs ∧ u.fe.settleMs = v.storage.settleMs
      ∧ u.fe.idleLoad = v.storage.idleLoad ∧ u.cc.pending = some v.power.cc ∧ u.ga.pending = some v.power.ga
      ∧ u.sm.table = .mounting ∧ u.sm.mount = some .readId ∧ u.fe.rail = .starting
      ∧ u.fe.waiting = [⟨.mountReader, .readId, (s.advance t.toNat).rck.clock⟩])
  ∧ ∀ (t : Stamp) (course : ReadCourse) (s : State), s.part.state = .idle → s.part.transition = .none →
    s.hp.reading ≠ none → exec (.run t course) s = exec (.run t course) (hpEndRead s)

/-- A Reload in Idle or Running, and a held reload when Idle or Running is entered (R170, R172, R174, Table 9-6): the
profiles are read at the directory in force, or at DIRECTORY before the first Run, and each value waits for its
application point, but the Flash Engine's, which are installed at once. A Reload in Mounting, or while the read of another
one goes on, is held. A read can go on past the write of CONTROL's Reload bit: its values are checked and nothing is handed,
and HELD_RELOAD is the row of its end (log 25), where the values are handed. Each field is held to its range in Table 9-5 and
read at its place in Table 11-4; a profile at offset 0
has the defaults and no clamp, one that passes the end of the Buffer RAM the defaults and its flag (R173). The clamp record
takes one flag a profile, the motion one also for a look-ahead above a quarter of the frame table (R59, log 29), and
ParameterClamped is raised if one is set. -/
def Obligations.ReloadTaken : Prop :=
  (∀ (t : Stamp) (v : Profiles) (s a : State), Calm s → a = s.advance t.toNat →
    (s.part.state = .mounting → s.part.transition ≠ .reset →
        exec (.reload t) s = .next { a with hp.reloadHeld := true })
    ∧ ((s.part.state = .idle ∨ s.part.state = .running) → s.part.transition ≠ .reset →
        s.hp.reading ≠ none → exec (.reload t) s = .next { a with hp.reloadHeld := true })
    ∧ (s.hp.reloadHeld = false → s.hp.reading = none → exec (.heldReload t) s = .next a)
    ∧ ((s.part.state = .idle ∨ s.part.state = .running) → s.part.transition ≠ .reset → s.hp.reading = none →
        v = readProfiles s (profileOffsets s (s.hp.inForce.getD s.hp.directory.toNat)) →
        (∃ (motion : Bool) (w u : State),
          motion = (v.clamped.motion || decide (s.pu.shadows.length / 4 < v.motion.pu.lookAhead))
          ∧ w = { a with
              hp.reloadHeld := false, hp.clamped := { v.clamped with motion := motion }
              rck.pendingPeriod := some v.motion.period, rck.pendingFilterLength := some v.motion.filterLength
              rck.pendingMinInterval := some v.motion.minInterval, mu.pending := some v.motion.mu
              pu.pending := some { v.motion.pu with lookAhead := min v.motion.pu.lookAhead (s.pu.shadows.length / 4) }
              sm.pending := some v.storage.sm
              cw.pendingCommitMs := some v.storage.commitMs, fe.settleMs := v.storage.settleMs
              fe.idleLoad := v.storage.idleLoad, cc.pending := some v.power.cc, ga.pending := some v.power.ga }
          ∧ u = (if motion = true ∨ v.clamped.storage = true ∨ v.clamped.power = true then w.raise .parameterClamped else w)
          ∧ exec (.reload t) s = .next u
          ∧ (s.hp.reloadHeld = true → exec (.heldReload t) s = .next u))
        ∧ (∀ value : Half, value.toNat % 8 = 0 → value.getLsbD 8 = false → value.getLsbD 9 = true →
          ∃ w : State, w = { a with
              hp.reloadHeld := false, hp.clamped := v.clamped, hp.reading := some ⟨v, false⟩ }
            ∧ exec (.halfWriteLow t true 0 value .lasting) s
              = .next (if v.clamped.motion = true ∨ v.clamped.storage = true ∨ v.clamped.power = true then
                  w.raise .parameterClamped else w)))
    ∧ (s.hp.reading = some ⟨v, false⟩ → s.hp.reloadHeld = false →
        ∃ w : State, w = { a with
            hp.reading := none
            hp.clamped.motion := s.hp.clamped.motion || decide (s.pu.shadows.length / 4 < v.motion.pu.lookAhead)
            rck.pendingPeriod := some v.motion.period, rck.pendingFilterLength := some v.motion.filterLength
            rck.pendingMinInterval := some v.motion.minInterval, mu.pending := some v.motion.mu
            pu.pending := some { v.motion.pu with lookAhead := min v.motion.pu.lookAhead (s.pu.shadows.length / 4) }
            sm.pending := some v.storage.sm
            cw.pendingCommitMs := some v.storage.commitMs, fe.settleMs := v.storage.settleMs
            fe.idleLoad := v.storage.idleLoad, cc.pending := some v.power.cc, ga.pending := some v.power.ga }
          ∧ exec (.heldReload t) s
            = .next (if s.pu.shadows.length / 4 < v.motion.pu.lookAhead then w.raise .parameterClamped else w)))
  ∧ ∀ (o : ProfileOffsets) (v : Profiles) (s : State), v = readProfiles s o →
    (∀ (a : Nat) (f : Nat → Nat), a = o.motion / 16 * 16 → f = (fun k => s.readField (a + k) 2) →
      (a = 0 ∨ ramBytes < a + 40 →
        v.motion = ⟨1000, 2, 8000, ⟨true, 16, 2048, 64, 3, 2000⟩, ⟨0, 0, 0⟩, ⟨6, 0, 7680, 192, 108, 500⟩⟩
        ∧ v.clamped.motion = decide (a ≠ 0))
      ∧ (a ≠ 0 → a + 40 ≤ ramBytes →
        v.motion.period = (if f 0 = 0 then 500 else if f 0 = 1 then 1000 else 2000)
        ∧ v.motion.filterLength = min 8 (f 2)
        ∧ v.motion.minInterval = max 4000 (min 100000 (s.readField (a + 4) 4))
        ∧ v.motion.mu = ⟨decide (f 8 ≠ 0), max 1 (min 255 (f 10)), max 256 (min 8192 (f 18)),
            if f 20 = 0xFFFF then 0xFFFF else max 16 (min 255 (f 20)), max 1 (min 8 (f 22)), min 10000 (f 24)⟩
        ∧ v.motion.bias = ⟨max (-320) (min 320 (signedOf 16 (f 12))), max (-320) (min 320 (signedOf 16 (f 14))),
            max (-320) (min 320 (signedOf 16 (f 16)))⟩
        ∧ v.motion.pu = ⟨min 15 (f 26), signedOf 16 (f 28), max 256 (min 32767 (f 30)), min 1023 (f 32), min 1023 (f 34),
            min 1500 (f 36)⟩
        ∧ (v.clamped.motion = false ↔
            f 0 ≤ 2 ∧ f 2 ≤ 8 ∧ (4000 ≤ s.readField (a + 4) 4 ∧ s.readField (a + 4) 4 ≤ 100000)
            ∧ (1 ≤ f 10 ∧ f 10 ≤ 255) ∧ (signedOf 16 (f 12)).natAbs ≤ 320 ∧ (signedOf 16 (f 14)).natAbs ≤ 320
            ∧ (signedOf 16 (f 16)).natAbs ≤ 320 ∧ (256 ≤ f 18 ∧ f 18 ≤ 8192)
            ∧ (f 20 = 0xFFFF ∨ (16 ≤ f 20 ∧ f 20 ≤ 255)) ∧ (1 ≤ f 22 ∧ f 22 ≤ 8) ∧ f 24 ≤ 10000 ∧ f 26 ≤ 15
            ∧ (256 ≤ f 30 ∧ f 30 ≤ 32767) ∧ f 32 ≤ 1023 ∧ f 34 ≤ 1023 ∧ f 36 ≤ 1500)))
    ∧ (∀ (a : Nat) (f : Nat → Nat), a = o.storage / 16 * 16 → f = (fun k => s.readField (a + k) 2) →
      (a = 0 ∨ ramBytes < a + 16 → v.storage = ⟨⟨64, 10, 16⟩, 1000, 5, 50⟩ ∧ v.clamped.storage = decide (a ≠ 0))
      ∧ (a ≠ 0 → a + 16 ≤ ramBytes →
        v.storage = ⟨⟨max 16 (min 256 (f 0)), min 60 (f 2), max 1 (min 64 (f 4))⟩, max 250 (min 5000 (f 6)),
          max 1 (min 50 (f 8)), min 255 (f 10)⟩
        ∧ (v.clamped.storage = false ↔
            (16 ≤ f 0 ∧ f 0 ≤ 256) ∧ f 2 ≤ 60 ∧ (1 ≤ f 4 ∧ f 4 ≤ 64) ∧ (250 ≤ f 6 ∧ f 6 ≤ 5000) ∧ (1 ≤ f 8 ∧ f 8 ≤ 50)
            ∧ f 10 ≤ 255)))
    ∧ ∀ (a : Nat) (f : Nat → Nat), a = o.power / 16 * 16 → f = (fun k => s.readField (a + k) 2) →
      (a = 0 ∨ ramBytes < a + 24 →
        v.power = ⟨⟨true, false, 1500, 4500, 1000, 4200, 50, 2600, 400⟩, ⟨1720, 40, 3300⟩⟩
        ∧ v.clamped.power = decide (a ≠ 0))
      ∧ (a ≠ 0 → a + 24 ≤ ramBytes →
        v.power = ⟨⟨decide (f 0 ≠ 0), decide (f 2 ≠ 0), max 500 (min 3000 (f 4)), max 4300 (min 5500 (f 6)),
            max 100 (min 2000 (f 8)), max 4000 (min 4400 (f 10)), max 10 (min 200 (f 12)), min 10000 (f 14),
            min 2000 (f 16)⟩, ⟨max 500 (min 5000 (f 18)), min 200 (f 20), max 3000 (min 3500 (f 22))⟩⟩
        ∧ (v.clamped.power = false ↔
            (500 ≤ f 4 ∧ f 4 ≤ 3000) ∧ (4300 ≤ f 6 ∧ f 6 ≤ 5500) ∧ (100 ≤ f 8 ∧ f 8 ≤ 2000)
            ∧ (4000 ≤ f 10 ∧ f 10 ≤ 4400) ∧ (10 ≤ f 12 ∧ f 12 ≤ 200) ∧ f 14 ≤ 10000 ∧ f 16 ≤ 2000
            ∧ (500 ≤ f 18 ∧ f 18 ≤ 5000) ∧ f 20 ≤ 200 ∧ (3000 ≤ f 22 ∧ f 22 ≤ 3500)))

/-! ### The charge tick (Sections 1, 7 and 8) -/

/-- CHARGE_TICK (R3, R133, R138, R139, R140, R154, R155, R159, R160, R161), in any order of its deliveries: the clock reaches
the tick and the next one is 10,000 µs later; the part state and the queue stay. The Charge Controller keeps the reading, each
quantity at the nearer end of its range; it finds the zone; while the input stays Present it steps the input limit by the
droop floor and computes the budget, counting the flash's load by the rail it finds, which is the rail before the tick where
it comes first; while the input stays Absent the limit stays and the budget is 0. The Gauge estimates its first reading by
Table 8-2 and integrates any other, between 0 and Qcap, its hold counts on, and it finds the level, raising GaugeLevel if it
changes. An entry to Reserve is handed to the writer: one that records, here with a page at its program and nothing to scan,
goes to Closing with the cause Reserve. Here where no cutoff is due, no gauge values wait and the state is not a Taper
that may end in Done at this tick. The order of the deliveries is an operand (log 7). -/
def Obligations.ChargeTickDelivers : Prop :=
  ∀ (m : Measurement) (o : List TickDelivery) (s : State), Lasting s → s.ga.pending = none →
    (s.cc.charge = .taper → s.cc.terminationCount < 15) →
    ∃ u, exec (.chargeTick m o) s = .next u
      ∧ u.rck = { (s.advance s.rck.nextChargeTick).rck with nextChargeTick := s.rck.nextChargeTick + 10000 }
      ∧ u.part = s.part ∧ u.pending = s.pending
      ∧ u.cc.latest = some ⟨max 0 (min 15000 m.vin), max 0 (min 5000 m.vbat), max (-5000) (min 3000 m.ibat),
          max (-128) (min 255 m.tcell)⟩
      ∧ u.ga.sysen = true ∧ u.ga.estimated = true ∧ u.ga.hold = min 4 (s.ga.hold + 1)
      ∧ (s.ga.estimated = true →
          (u.ga.q : Int) = max 0 (min ((s.ga.params.capacity * 360000 : Nat) : Int)
            ((s.ga.q : Int) + max (-5000) (min 3000 m.ibat))))
      ∧ (s.ga.estimated = false →
          (m.vbat ≤ 3300 → u.ga.q = 0) ∧ (4200 ≤ m.vbat → u.ga.q = s.ga.params.capacity * 360000)
          ∧ ∀ (v v0 p0 v1 p1 : Nat), m.vbat = v → v0 ≤ v → v < v1 →
              (v0, p0, v1, p1) ∈ [(3300, 0, 3450, 5), (3450, 5, 3600, 10), (3600, 10, 3700, 25), (3700, 25, 3750, 40),
                (3750, 40, 3800, 50), (3800, 50, 3850, 60), (3850, 60, 3950, 75), (3950, 75, 4050, 85),
                (4050, 85, 4150, 95), (4150, 95, 4200, 100)] →
              u.ga.q = s.ga.params.capacity * 360000 * (p0 * (v1 - v0) + (p1 - p0) * (v - v0)) / ((v1 - v0) * 100))
      ∧ ((m.tcell < -80 ∨ 200 < m.tcell) → u.cc.noThermistor = true ∧ u.cc.zone = s.cc.zone)
      ∧ (∀ x z, x = m.tcell → z = s.cc.zone → -80 ≤ x → x ≤ 200 →
          u.cc.noThermistor = false
          ∧ u.cc.zone
            = (if 110 < x ∨ (z = .hot ∧ 106 < x) then .hot
               else if 90 < x ∨ ((z = .warm ∨ z = .hot) ∧ 86 < x) then .warm
               else if x < 0 ∨ (z = .cold ∧ x < 4) then .cold
               else if x < 20 ∨ ((z = .cool ∨ z = .cold) ∧ x < 24) then .cool else .normal))
      ∧ (s.cc.pending = none → s.cc.present = false → (s.cc.qualifyCount < 3 ∨ m.vin < 4200 ∨ 6500 < m.vin) →
          u.cc.present = false ∧ u.cc.inputLimit = s.cc.inputLimit ∧ u.cc.budget = 0)
      ∧ (s.cc.pending = none → s.cc.present = true → (s.cc.qualifyCount < 3 ∨ (4200 ≤ m.vin ∧ m.vin ≤ 6500)) →
          0 ≤ m.vin → m.vin ≤ 15000 → 0 ≤ m.vbat → m.vbat ≤ 5000 →
          u.cc.present = true
          ∧ u.cc.inputLimit
            = (if m.vin < s.cc.params.floor then max 100 (s.cc.inputLimit - 50)
               else if (s.cc.params.floor : Int) + 100 ≤ m.vin then min s.cc.params.inputMax (s.cc.inputLimit + 25)
               else s.cc.inputLimit)
          ∧ ∃ flashOn : Bool,
              ((tickOrder o).head? = some .charger →
                (flashOn = true ↔ s.fe.rail = .starting ∨ s.fe.rail = .ready ∨ s.fe.rail = .busy))
              ∧ u.cc.budget
                = (if 6500 < m.vin then 0
                   else (m.vin.toNat * u.cc.inputLimit / 1000 * 9 / 10
                       - (s.cc.params.cameraLoad + if flashOn then s.cc.params.flashLoad else 0)) * 1000
                     / max m.vbat.toNat 2500))
      ∧ (s.cc.pending = none → s.cc.qualifyCount < 3 →
          u.ga.present = s.ga.present
          ∧ u.ga.level
            = (if u.ga.hold = 4 ∧ s.ga.present = false ∧ u.ga.q ≤ s.ga.params.reserve * 360000 then .reserve
               else if s.ga.level = .reserve ∧ s.ga.present = false
                   ∧ u.ga.q ≤ (s.ga.params.reserve + 10) * 360000 then .reserve
               else if u.ga.q * 100 / (s.ga.params.capacity * 360000) ≤ 15 then .low else .normal)
          ∧ (u.ga.level ≠ s.ga.level → s.part.resetnLow = false → u.caused .gaugeLevel = true)
          ∧ (u.ga.level = .reserve → s.ga.level ≠ .reserve → Resting s → scanIdle s → s.cw.writer = .recording →
              s.cw.programming = true → s.cw.reloc = none → s.part.transition ≠ .reset →
              u.cw.writer = .closing ∧ u.cw.cause = .reserve
                ∧ (s.part.resetnLow = false → u.caused .writerState = true)))
      ∧ ∀ c, s.caused c = true → u.caused c = true

/-- INPUT_QUALIFICATION (R135, R136, R137, R138, R142, R147): the fourth reading in a row that disagrees changes the
qualification and raises InputChange, but while RESETn keeps the causes clear. From Absent, a reading of 4,200 to 6,500 mV
makes it Present, clears the InputOvervoltage flag and leaves NoInput for Qualify or Inhibited; the limit starts from the
input maximum and is stepped down where the input droops. From Present, any other reading makes it Absent: the limit returns
to the input maximum, the timers, the counts, the cause and the taper level are cleared, and the state is NoInput with a
setpoint of 0. A timer so cleared counts the interval that ends at this arrival, if charge current was commanded over it, as
step 6 comes after step 2 (log 19). A shorter run changes nothing. The row of the threshold event stands for the command
that brings it about (log 5). -/
def Obligations.QualificationChanges : Prop :=
  ∀ (m : Measurement) (o : List TickDelivery) (s : State), Lasting s → s.cc.pending = none →
    (s.cc.qualifyCount < 3 → exec (.inputQualification m o) s = .next s)
    ∧ (s.cc.qualifyCount = 3 → s.cc.present = false → s.cc.charge = .noInput → 4200 ≤ m.vin → m.vin ≤ 6500 →
        ∃ u, exec (.inputQualification m o) s = .next u ∧ exec (.chargeTick m o) s = .next u
          ∧ u.cc.present = true ∧ u.cc.qualifyCount = 0 ∧ u.cc.overvoltage = false ∧ u.cc.setpoint = 0
          ∧ u.cc.charge = (if s.cc.params.enable then .qualify else .inhibited)
          ∧ u.cc.inputLimit
            = (if m.vin < s.cc.params.floor then max 100 (s.cc.params.inputMax - 50) else s.cc.params.inputMax)
          ∧ (s.part.resetnLow = false → u.caused .inputChange = true))
    ∧ (s.cc.qualifyCount = 3 → s.cc.present = true → (m.vin < 4200 ∨ 6500 < m.vin) →
        ∃ u, exec (.inputQualification m o) s = .next u ∧ exec (.chargeTick m o) s = .next u
          ∧ u.cc.present = false ∧ u.cc.qualifyCount = 0 ∧ u.cc.charge = .noInput ∧ u.cc.setpoint = 0
          ∧ u.cc.inputLimit = s.cc.params.inputMax ∧ u.cc.budget = 0 ∧ u.cc.taper = 0 ∧ u.cc.cause = .none
          ∧ u.cc.terminationCount = 0 ∧ u.cc.rechargeCount = 0 ∧ u.cc.overvoltageCount = 0
          ∧ u.cc.prechargeTimer = (if s.cc.charge = .precharge ∧ s.cc.setpoint ≠ 0 then 1 else 0)
          ∧ u.cc.fastTimer = (if (s.cc.charge = .fast ∨ s.cc.charge = .taper) ∧ s.cc.setpoint ≠ 0 then 1 else 0)
          ∧ (s.part.resetnLow = false → u.caused .inputChange = true))

/-- Entry to Fault (R142, R147, R148): SAFETY_TIMER_EXPIRY where the precharge timer reaches 180,000 charging ticks or
the fast timer 1,800,000, and BATTERY_OVERVOLTAGE at the fourth reading in a row above the target by more than 150 mV.
The cause is recorded and the setpoint is 0. Here with the input believed and the charge enable 1. The row of the
threshold event stands for the command that brings it about (log 5). -/
def Obligations.ChargeFaults : Prop :=
  ∀ (m : Measurement) (o : List TickDelivery) (s : State), Lasting s → s.cc.pending = none → s.cc.present = true →
    s.cc.qualifyCount < 3 → s.cc.params.enable = true →
    (s.cc.charge = .precharge → s.cc.setpoint ≠ 0 → s.cc.prechargeTimer = 179999 → m.vbat ≤ s.cc.params.target + 150 →
        ∃ u, exec (.safetyTimerExpiry m o) s = .next u ∧ exec (.chargeTick m o) s = .next u
          ∧ u.cc.charge = .fault ∧ u.cc.cause = .prechargeTimer ∧ u.cc.prechargeTimer = 180000 ∧ u.cc.setpoint = 0)
    ∧ (s.cc.charge = .fast ∨ s.cc.charge = .taper → s.cc.setpoint ≠ 0 → s.cc.fastTimer = 1799999 →
        s.cc.prechargeTimer < 180000 → m.vbat ≤ s.cc.params.target + 150 →
        ∃ u, exec (.safetyTimerExpiry m o) s = .next u ∧ exec (.chargeTick m o) s = .next u
          ∧ u.cc.charge = .fault ∧ u.cc.cause = .fastTimer ∧ u.cc.fastTimer = 1800000 ∧ u.cc.setpoint = 0)
    ∧ ((s.cc.charge = .qualify ∨ s.cc.charge = .precharge ∨ s.cc.charge = .fast ∨ s.cc.charge = .taper
          ∨ s.cc.charge = .done ∨ s.cc.charge = .suspended) →
        s.cc.overvoltageCount = 3 → (s.cc.params.target : Int) + 150 < m.vbat → s.cc.params.target ≤ 4400 →
        ∃ u, exec (.batteryOvervoltage m o) s = .next u ∧ exec (.chargeTick m o) s = .next u
          ∧ u.cc.charge = .fault ∧ u.cc.cause = .batteryOvervoltage ∧ u.cc.overvoltageCount = 4 ∧ u.cc.setpoint = 0)

/-- The transitions of a charge, its end and its return (R140 to R149). CHARGE_TICK, with the input believed: an enable of 0
makes every state that charges or may charge Inhibited, and 1 takes Inhibited to Qualify; a fault clear among the values
installed at this arrival takes Fault to Qualify, or with the enable 0 to Inhibited, with the cause, the timers and the
overvoltage count cleared, and nothing else takes it from Fault. With no fault due, Qualify goes to Suspended where the
thermistor reads open or shorted or the zone is then Hot or Cold, and else to Precharge below 3,000 mV and to Fast from
there on; Precharge, Fast and Taper go to Suspended on the same condition; Precharge goes to Fast at 3,000 mV; Fast goes to
Taper at the effective target, with the setpoint as its level and the counts cleared; Taper sets its level by the voltage
and counts, clears or keeps its termination count, which ends it at 16; Done counts its readings; Suspended goes to Qualify
when the condition is over. The timers count the ticks on which current was commanded. Each change of the charge state
raises ChargerState; the setpoint is the smallest of the budget, the state limit and the zone limit. TERMINATION: in Taper
the sixteenth reading in a row at or below the termination current, the taper level within the budget, makes the state Done,
clears the timers and counts, and sets the taper level and the setpoint to 0. RECHARGE: in Done the fourth reading in a row
more than 100 mV below the effective target makes it Fast, or Suspended on the same condition; an earlier one counts. In
these two the input is believed, the enable is 1, no fault is due, and, for the termination, the zone is Normal and the
limits are held: the voltage at the target, the input between the floor and 100 mV above it, a budget that covers the level
with the flash rail on. The row of the threshold event stands for the command that brings it about (log 5); a timer at its
limit in Inhibited is left out (log 71). -/
def Obligations.ChargeEndsAndReturns : Prop :=
  (∀ (m : Measurement) (o : List TickDelivery) (s : State), Lasting s →
    ∃ u, exec (.chargeTick m o) s = .next u ∧
      ∀ (hold : Bool) (v i target : Int) (fast : Nat),
      hold = (u.cc.noThermistor || decide (u.cc.zone = .cold) || decide (u.cc.zone = .hot)) →
      v = max 0 (min 5000 m.vbat) → i = max (-5000) (min 3000 m.ibat) →
      target = (u.cc.params.target : Int) - (if u.cc.zone = .warm then 150 else 0) →
      fast = (if u.cc.zone = .cool then u.cc.params.fast / 2 else u.cc.params.fast) →
      u.cc.setpoint
        = min u.cc.budget
            (min (match u.cc.charge with | .precharge => 100 | .fast => u.cc.params.fast | .taper => u.cc.taper | _ => 0)
              (if hold then 0 else fast))
      ∧ (u.cc.charge ≠ s.cc.charge → s.part.resetnLow = false → u.caused .chargerState = true)
      ∧ (s.cc.present = true → s.cc.qualifyCount < 3 →
          (∀ p : CcParams, s.cc.pending = some p → s.cc.charge = .fault → u.cc.params = p
            ∧ (p.faultClear = true → u.cc.charge = (if p.enable then .qualify else .inhibited) ∧ u.cc.cause = .none
              ∧ u.cc.prechargeTimer = 0 ∧ u.cc.fastTimer = 0 ∧ u.cc.overvoltageCount = 0)
            ∧ (p.faultClear = false → u.cc.charge = .fault ∧ u.cc.cause = s.cc.cause
              ∧ u.cc.prechargeTimer = s.cc.prechargeTimer ∧ u.cc.fastTimer = s.cc.fastTimer))
          ∧ (s.cc.pending = none → u.cc.params = s.cc.params
            ∧ (s.cc.charge = .fault → u.cc.charge = .fault ∧ u.cc.cause = s.cc.cause)
            ∧ (s.cc.params.enable = false → s.cc.charge = .qualify ∨ s.cc.charge = .precharge ∨ s.cc.charge = .fast
                ∨ s.cc.charge = .taper ∨ s.cc.charge = .done ∨ s.cc.charge = .suspended → u.cc.charge = .inhibited)
            ∧ (s.cc.charge = .inhibited → u.cc.prechargeTimer = s.cc.prechargeTimer ∧ u.cc.fastTimer = s.cc.fastTimer
              ∧ (s.cc.params.enable = true → u.cc.charge = .qualify)
              ∧ (s.cc.params.enable = false → s.cc.prechargeTimer < 180000 → s.cc.fastTimer < 1800000 →
                  u.cc.charge = .inhibited))
            ∧ (s.cc.params.enable = true → (s.cc.overvoltageCount < 3 ∨ v ≤ s.cc.params.target + 150) →
                s.cc.prechargeTimer < 179999 → s.cc.fastTimer < 1799999 →
                (s.cc.charge = .qualify →
                  u.cc.charge = (if hold then .suspended else if v < 3000 then .precharge else .fast))
                ∧ (s.cc.charge = .precharge →
                  u.cc.charge = (if hold then .suspended else if 3000 ≤ v then .fast else .precharge)
                  ∧ u.cc.prechargeTimer = s.cc.prechargeTimer + (if s.cc.setpoint = 0 then 0 else 1)
                  ∧ u.cc.fastTimer = s.cc.fastTimer)
                ∧ (s.cc.charge = .fast →
                  u.cc.charge = (if hold then .suspended else if target ≤ v then .taper else .fast)
                  ∧ (u.cc.charge = .taper →
                    u.cc.taper = s.cc.setpoint ∧ u.cc.terminationCount = 0 ∧ u.cc.rechargeCount = 0)
                  ∧ u.cc.prechargeTimer = s.cc.prechargeTimer
                  ∧ u.cc.fastTimer = s.cc.fastTimer + (if s.cc.setpoint = 0 then 0 else 1))
                ∧ (s.cc.charge = .taper → ∀ level n : Nat,
                  level = (if target < v then s.cc.taper - 25 else if v < target - 10 then min (s.cc.taper + 25) fast
                    else s.cc.taper) →
                  n = (if s.cc.params.termination < i then 0 else if level ≤ u.cc.budget then s.cc.terminationCount + 1
                    else s.cc.terminationCount) →
                  u.cc.charge = (if hold then .suspended else if 16 ≤ n then .done else .taper)
                  ∧ (u.cc.charge = .taper → u.cc.taper = level ∧ u.cc.terminationCount = n)
                  ∧ (u.cc.charge = .done → u.cc.taper = 0 ∧ u.cc.prechargeTimer = 0 ∧ u.cc.fastTimer = 0
                    ∧ u.cc.terminationCount = 0 ∧ u.cc.rechargeCount = 0)
                  ∧ (u.cc.charge ≠ .done → u.cc.prechargeTimer = s.cc.prechargeTimer
                    ∧ u.cc.fastTimer = s.cc.fastTimer + (if s.cc.setpoint = 0 then 0 else 1)))
                ∧ (s.cc.charge = .done → s.cc.rechargeCount < 3 →
                  u.cc.charge = .done ∧ u.cc.rechargeCount = (if v < target - 100 then s.cc.rechargeCount + 1 else 0))
                ∧ (s.cc.charge = .suspended → u.cc.charge = (if hold then .suspended else .qualify)
                  ∧ u.cc.prechargeTimer = s.cc.prechargeTimer ∧ u.cc.fastTimer = s.cc.fastTimer)))))
  ∧ ∀ (m : Measurement) (o : List TickDelivery) (s : State), Lasting s → s.cc.pending = none → s.cc.present = true →
    s.cc.qualifyCount < 3 → s.cc.params.enable = true → s.cc.params.target ≤ 4400 → s.cc.prechargeTimer < 180000 →
    s.cc.fastTimer < 1799999 →
    (s.cc.charge = .taper → s.cc.terminationCount = 15 → m.vbat = s.cc.params.target →
        20 ≤ m.tcell → m.tcell ≤ 86 → (s.cc.zone = .normal ∨ 24 ≤ m.tcell) →
        m.ibat ≤ s.cc.params.termination → s.cc.params.floor ≤ m.vin →
        m.vin < s.cc.params.floor + 100 → m.vin ≤ 6500 →
        s.cc.taper ≤ (m.vin.toNat * s.cc.inputLimit / 1000 * 9 / 10
            - (s.cc.params.cameraLoad + s.cc.params.flashLoad)) * 1000 / max s.cc.params.target 2500 →
        ∃ u, exec (.termination m o) s = .next u ∧ exec (.chargeTick m o) s = .next u
          ∧ u.cc.charge = .done ∧ u.cc.taper = 0 ∧ u.cc.prechargeTimer = 0 ∧ u.cc.fastTimer = 0
          ∧ u.cc.terminationCount = 0 ∧ u.cc.rechargeCount = 0 ∧ u.cc.setpoint = 0)
    ∧ (s.cc.charge = .done → s.cc.rechargeCount = 3 → 20 ≤ m.tcell → m.tcell ≤ 86 →
        (s.cc.zone = .normal ∨ 24 ≤ m.tcell) → m.vbat < (s.cc.params.target : Int) - 100 → 100 < s.cc.params.target →
        ∃ u, exec (.recharge m o) s = .next u ∧ exec (.chargeTick m o) s = .next u
          ∧ u.cc.charge = .fast ∧ u.cc.rechargeCount = 0)
    ∧ (s.cc.charge = .done → s.cc.rechargeCount = 3 → 250 < s.cc.params.target →
        m.vbat < (s.cc.params.target : Int)
          - (if s.cc.zone = .warm ∧ (m.tcell < -80 ∨ 200 < m.tcell) then 150 else 0) - 100 →
        (m.tcell < 0 ∨ 110 < m.tcell ∨ (s.cc.zone = .hot ∧ 106 < m.tcell) ∨ (s.cc.zone = .cold ∧ m.tcell < 4)) →
        ∃ u, exec (.recharge m o) s = .next u ∧ exec (.chargeTick m o) s = .next u
          ∧ u.cc.charge = .suspended ∧ u.cc.rechargeCount = 0 ∧ u.cc.setpoint = 0)
    ∧ (s.cc.charge = .done → s.cc.rechargeCount < 3 → exec (.recharge m o) s = .next s)

/-- CUTOFF and GRACE_TIMER_EXPIRY (R116, R159, R161, R162, R163). The fourth reading in a row at or below the cutoff voltage,
with the input Absent and the start-up hold over, makes the level Cutoff; with the writer closed and no flash operation
in flight SYSEN is released at once and the part is Off, everything but the queue (log 4) at its reset values. With a flash
operation in flight, or with a writer that is Recording or Closing, here with a page at its program and nothing to scan, the
cutoff sequence begins: Q is 0, the grace timer holds 200 ticks, GaugeLevel is raised, SYSEN stays asserted, and that writer is
Closing with the cause Cutoff, while a closed one keeps its state. The 200th tick of a cutoff sequence releases SYSEN whatever
is still going on. The row of the threshold event stands for the command that brings it about (log 5). The values for which the
spec gives none are the model's (log 2). -/
def Obligations.CutoffEndsInOff : Prop :=
  ∀ (m : Measurement) (o : List TickDelivery) (s off : State), s.part.state ≠ .off →
    off = { State.reset with
      part := { State.reset.part with state := .off }, ga := { State.reset.ga with sysen := false }
      pending := s.pending } →
    (s.ga.grace = none → s.ga.level ≠ .cutoff → s.ga.cutoffCount = 3 → 3 ≤ s.ga.hold → s.ga.pending = none →
        s.ga.present = false → s.cc.present = false → s.cc.charge = .noInput → m.vin < 4200 → m.vbat ≤ s.ga.params.cutoff →
        s.cw.reloc = none →
        (Calm s → s.cw.table = none → s.cw.assembly = [] → s.fe.inFlight = none →
          (s.cw.writer = .stopped ∨ s.cw.writer = .faulted ∨ s.cw.writer = .unmounted) →
          exec (.cutoff m o) s = .next off ∧ exec (.chargeTick m o) s = .next off)
        ∧ (Calm s → s.cw.table = none → s.cw.assembly = [] → s.fe.inFlight ≠ none → s.part.transition ≠ .reset →
          (s.cw.writer = .stopped ∨ s.cw.writer = .faulted ∨ s.cw.writer = .unmounted) →
          ∃ u, exec (.cutoff m o) s = .next u ∧ exec (.chargeTick m o) s = .next u
            ∧ u.part = s.part ∧ u.cw = s.cw ∧ u.ga.level = .cutoff ∧ u.ga.q = 0 ∧ u.ga.grace = some 200
            ∧ u.ga.sysen = true ∧ (s.part.resetnLow = false → u.caused .gaugeLevel = true))
        ∧ (Resting s → scanIdle s → s.cw.programming = true → s.part.transition ≠ .reset →
          (s.cw.writer = .recording ∨ s.cw.writer = .closing) →
          ∃ u, exec (.cutoff m o) s = .next u ∧ exec (.chargeTick m o) s = .next u
            ∧ u.part = s.part ∧ u.cw = { s.cw with writer := .closing, cause := .cutoff } ∧ u.ga.level = .cutoff
            ∧ u.ga.q = 0 ∧ u.ga.grace = some 200 ∧ u.ga.sysen = true
            ∧ (s.part.resetnLow = false → u.caused .gaugeLevel = true)))
    ∧ (s.ga.level = .cutoff → s.ga.grace = some 1 →
        exec (.graceTimerExpiry m o) s = .next off ∧ exec (.chargeTick m o) s = .next off)
    ∧ (s.ga.grace ≠ some 1 → exec (.graceTimerExpiry m o) s = .next s)

/-- The flash at a charge tick (R69, R125, R127). IDLE_TIMEOUT: with the rail Ready and nothing asked, the last tick of the
idle counter switches the rail Off where the assembly buffer is empty; with bytes in it the counter is loaded again, and a
tick before the last only counts, so that neither is an idle timeout. COMMIT_DEADLINE: with the deadline reached, the tail
in the assembly buffer is filled to a page with a pad item, and its Program Page is asked for with the progress mark of this
moment. Here where the tick's scan finds nothing to take, and no stop of the writer is due. The row of the threshold event
stands for the command that brings it about (log 5). -/
def Obligations.FlashAtTick : Prop :=
  ∀ (m : Measurement) (o : List TickDelivery) (s : State), Lasting s → Resting s → scanIdle s →
    (s.fe.rail = .ready → s.fe.waiting = [] → s.fe.idle = 1 → s.cw.assembly = [] →
        s.cw.reloc = none → (s.cw.writer = .stopped ∨ s.cw.writer = .faulted ∨ s.cw.writer = .unmounted) →
        ∃ u, exec (.idleTimeout m o) s = .next u ∧ exec (.chargeTick m o) s = .next u
          ∧ u.fe = { s.fe with rail := .off, restored := false, settleEnd := none, idle := 0 } ∧ u.cw = s.cw)
    ∧ (s.fe.rail ≠ .ready → exec (.idleTimeout m o) s = .next s)
    ∧ (∀ d, s.fe.rail = .ready → s.fe.waiting = [] → s.fe.idle = 1 → s.cw.assembly ≠ [] → s.cw.deadline = some d →
        s.rck.nextChargeTick < d → s.rck.nextChargeTick ≤ lastClock → s.rck.clock ≤ s.rck.nextChargeTick →
        s.ga.present = true → s.cc.present = true → s.cc.qualifyCount < 3 →
        exec (.idleTimeout m o) s = .next s
        ∧ ∃ u, exec (.chargeTick m o) s = .next u ∧ u.fe = { s.fe with idle := s.fe.idleLoad } ∧ u.cw = s.cw)
    ∧ (∀ n, s.fe.rail = .ready → s.fe.waiting = [] → s.fe.idle = n + 2 → s.cw.assembly = [] → s.cw.reloc = none →
        (s.cw.writer = .stopped ∨ s.cw.writer = .faulted ∨ s.cw.writer = .unmounted) →
        exec (.idleTimeout m o) s = .next s
        ∧ ∃ u, exec (.chargeTick m o) s = .next u ∧ u.fe = { s.fe with idle := n + 1 } ∧ u.cw = s.cw)
    ∧ (∀ d n j e, s.cw.deadline = some d → d ≤ s.rck.nextChargeTick → s.rck.nextChargeTick ≤ lastClock →
        s.rck.clock ≤ s.rck.nextChargeTick → s.cw.reloc = none →
        s.cw.programming = false → s.part.state ≠ .standby → (s.part.transition = .none ∨ s.part.transition = .stop) →
        s.sm.change = none → s.ga.present = true → s.cc.present = true → s.cc.qualifyCount < 3 →
        n = 8192 - s.cw.assembly.length → s.cw.assembly ≠ [] → 16 ≤ n → openIndex s.sm = some j →
        s.sm.segments[j]? = some e → railAsleep s →
        ∃ u, exec (.commitDeadline m o) s = .next u
          ∧ u.cw = (paddedPage (s.advance s.rck.nextChargeTick) n j e).cw
          ∧ u.fe = (paddedPage (s.advance s.rck.nextChargeTick) n j e).fe)
    ∧ (s.cw.deadline = none → exec (.commitDeadline m o) s = .next s)

/-! ### The status page (Section 9) -/

/-- The refresh of the status page at a charge tick (R3, R177, Table 11-8, Table 11-12): in Idle, Mounting and Running,
outside a reset transition, with the page's offset known, the generation counts two on and the page's 96 bytes hold it and
the state of the blocks at the refresh, field by field; no other byte changes. What the page shows as readings before the first measurement (log 56) and as bytes
written and frame count with no segment Open (log 67) is open, and no
byte of it shows a safety timer (log 69). Elsewhere no page is written. A charge tick
whose deliveries end with the refresh leaves the page of the state it ends in; here in a part where nothing waits, with no
request table, no writer that records and no cutoff due. -/
def Obligations.StatusRefreshed : Prop :=
  (∀ s : State,
    (¬((s.part.state = .idle ∨ s.part.state = .mounting ∨ s.part.state = .running) ∧ s.part.transition ≠ .reset)
        ∨ s.hp.status = none → hpTick s = s)
    ∧ ∀ a g, (s.part.state = .idle ∨ s.part.state = .mounting ∨ s.part.state = .running) → s.part.transition ≠ .reset →
        s.hp.status = some a → a + 96 ≤ ramBytes → memoryWf s.mem = true → g = s.hp.statusGeneration + 2 →
        ∃ m, hpTick s = { s with mem := m, hp.statusGeneration := g }
          ∧ readCells m a 96 = statusImage g s
          ∧ ∀ x, x < a ∨ a + 96 ≤ x → readCell m x = readCell s.mem x)
  ∧ ∀ (m : Measurement) (o : List TickDelivery) (s : State) (a : Nat), Calm s → Lasting s → s.cw.table = none →
      s.cw.writer ≠ .recording → s.cw.deadline = none → (tickOrder o).getLast? = some .status →
      (s.part.state = .idle ∨ s.part.state = .mounting ∨ s.part.state = .running) → s.part.transition ≠ .reset →
      s.hp.status = some a → a + 96 ≤ ramBytes → memoryWf s.mem = true →
      ∃ u, exec (.chargeTick m o) s = .next u ∧ u.hp.statusGeneration = s.hp.statusGeneration + 2
        ∧ readCells u.mem a 96 = statusImage u.hp.statusGeneration u

/-! ### The snapshot image (Sections 5 and 11.7) -/

/-- The snapshot image holds the table (R86, R103, R105): what a mount reads back from the image of a table is that
table, entry by entry with its block list, and the header's counters and block records, for every table whose values fit
their fields. -/
def Obligations.ImageHoldsTable : Prop :=
  ∀ s : State, s.sm.segments.length < 65536 → s.sm.bps < 65536 → s.fe.bad.length < 65536 → s.fe.pool.length < 65536 →
    (∀ b ∈ s.fe.bad, b < 65536) → (∀ b ∈ s.fe.pool, b < 65536) →
    (∀ e ∈ s.sm.segments,
      e.part < 2 ^ 32 ∧ e.startTime < 2 ^ 64 ∧ e.endTime < 2 ^ 64 ∧ e.firstFrame < 2 ^ 32 ∧ e.frameCount < 2 ^ 32
        ∧ e.bytesWritten < 2 ^ 32 ∧ e.blocks.length < 65536 ∧ (∀ b ∈ e.blocks, b < 65536)
        ∧ ∀ p, e.protection = some p → p.time < 2 ^ 64) →
    imageContent (tableImage s)
      = some { generation := s.sm.generation, bps := s.sm.bps, clip := s.sm.clip, sequence := s.sm.sequence
               bad := s.fe.bad, pool := s.fe.pool, map := s.fe.tableMap, segments := s.sm.segments }

/-! ### Laws that every step keeps -/

/-- A lawful state has a canonical Buffer RAM, the ride clock at most 2^48 − 1, the gauge count within 0..Qcap, the
setpoint the smallest of the budget, the state limit and the zone limit, DIRECTORY a multiple of 256 below 2^24, an
ascending bad block list of at most 512, and the laws of its two tables; every step from it leads to one (R1, R77, R149,
R154, R172; the memory's form is the model's, log 1). The laws of the segment table: each block numbered 16 or above is in
exactly one of the bad block list, the spare pool and one segment's list while the table is mounted (R87), and as soon as a
mount has loaded it or a Format has made its partition (R92, R105); while the count of impact protection is in force it is
that of the table and does not exceed the limit (R101), a mount that has yet to count apart (R106); a segment without data
carries no protection, and the segment that the eraser works at is Erasing, so that no protected segment is erased (R95).
Those of the frame record table: each entry that is not Free holds a frame of its own residue, so that no two hold the same
one, and one of the C most recent frame numbers (R42). The other clauses of the two tables are the invariants of the model
that these need. -/
def Obligations.StepKeepsLaws : Prop :=
  ∀ s t : State, Lawful s → step s = .next t → Lawful t

/-- The reset state obeys those laws, those of its two tables among them: it has no segment, no mount, no Format and no
frame (R62, R109, R178). -/
def Obligations.ResetLawful : Prop := Lawful State.reset

/-- The gauge count (R154): a reading is added to Q and the sum clamped to 0..Qcap, so that one arrival moves Q by at
most 5,000; and Q always lies within 0..Qcap, through every command in every state. -/
def Obligations.GaugeCountLaw : Prop :=
  (∀ (m : Measurement) (s : State), s.ga.estimated = true →
    (((gaCount m s).ga.q : Nat) : Int)
      = (if (s.ga.q : Int) + m.ibat < 0 then 0
         else if ((s.ga.params.capacity * 360000 : Nat) : Int) < (s.ga.q : Int) + m.ibat then
           ((s.ga.params.capacity * 360000 : Nat) : Int)
         else (s.ga.q : Int) + m.ibat)
    ∧ (GaugeInRange s → -5000 ≤ m.ibat → m.ibat ≤ 3000 →
        ((((gaCount m s).ga.q : Nat) : Int) - (s.ga.q : Int)).natAbs ≤ 5000))
  ∧ ∀ s t : State, GaugeInRange s → step s = .next t → GaugeInRange t

/-- What no command but a clear or a reset does (R1, R175): the ride clock never decreases, and a cause once set in
EVENTS stays set, through every command but a write to the Host Port's registers, RESETn, the end of a reset transition
that RESETn began or joined, and a power-on reset, until the part is Off. -/
def Obligations.EventsPersist : Prop :=
  ∀ (c : Instr) (s t : State), exec c s = .next t → t.part.state ≠ .off →
    (match c with
      | .powerOnReset => False | .wake _ => False | .wakeDetectorReading _ => False | .resetn _ _ => False
      | .eventsClear _ _ => False | .registerWrite _ _ _ => False | .halfWriteLow _ _ _ _ _ => False
      | _ => True) →
    s.rck.clock ≤ t.rck.clock
      ∧ (((∃ r, c = .resetTransitionEnd r) → s.part.byResetn = false) → ∀ d, s.caused d = true → t.caused d = true)

/-- The flash device's completions reach the recording blocks only (R73, R76): whatever the device answers, the part
state, the ride clock but for its time, the Charge Controller, the Gauge, the host's registers but for the causes
raised, the IMU link and the queue stay as they were, where no cutoff sequence waits for the operation (R162). -/
def Obligations.FlashContained : Prop :=
  ∀ (t : Stamp) (o : EndOrder) (id : Vector Byte 4) (page : PageRead) (v : Byte) (pass : Bool) (c : Instr) (s u : State),
    s.part.state ≠ .off → s.ga.sysen = true → s.ga.grace = none →
    (c = .resetDone t o ∨ c = .readIdDone t id o ∨ c = .readPageDone t page o ∨ c = .readMarkerDone t v o
      ∨ c = .programPageDone t pass o ∨ c = .eraseBlockDone t pass o) →
    exec c s = .next u →
    u.part = s.part ∧ u.rck = (s.advance t.toNat).rck ∧ u.cc = s.cc ∧ u.ga = s.ga
      ∧ u.hp = { s.hp with events := u.hp.events } ∧ u.mu = { s.mu with marks := u.mu.marks } ∧ u.pending = s.pending

end
end

