-- ==== Sys2Proof/Laws/Lists.lean ====
section
/-! SUPPORT. The list functions of Bytes.lean: what each holds afterwards, in members, in places and in counts. -/

namespace Sys2Proof.Machine

/-! ### Ascending lists -/

/-- An ascending list, seen from its head. -/
theorem ascending_cons (a : Nat) (l : List Nat) :
    ascending (a :: l) = true ↔ ascending l = true ∧ ∀ b ∈ l, a < b := by
  induction l generalizing a with
  | nil => simp [ascending]
  | cons b l ih =>
    simp only [ascending, Bool.and_eq_true, decide_eq_true_eq, List.mem_cons, forall_eq_or_imp]
    constructor
    · rintro ⟨hab, hl⟩
      exact ⟨hl, hab, fun c hc => lt_trans hab (((ih b).1 hl).2 c hc)⟩
    · rintro ⟨hl, hab, _⟩
      exact ⟨hab, hl⟩

/-- An ascending list holds nothing twice. -/
theorem ascending_nodup {l : List Nat} (h : ascending l = true) : l.Nodup := by
  induction l with
  | nil => exact List.nodup_nil
  | cons a l ih =>
    obtain ⟨hl, ha⟩ := (ascending_cons a l).1 h
    exact List.nodup_cons.2 ⟨fun hm => lt_irrefl a (ha a hm), ih hl⟩

/-- The numbers of a list after an insertion. -/
theorem mem_insertAsc (n m : Nat) (l : List Nat) : m ∈ insertAsc n l ↔ m = n ∨ m ∈ l := by
  induction l with
  | nil => simp [insertAsc]
  | cons a l ih =>
    simp only [insertAsc]
    split
    · simp
    · split
      · subst n; simp
      · simp only [List.mem_cons, ih]; tauto

/-- An insertion keeps a list ascending without duplicates (R77). -/
theorem insertAsc_ascending (n : Nat) {l : List Nat} (h : ascending l = true) : ascending (insertAsc n l) = true := by
  induction l with
  | nil => rfl
  | cons a l ih =>
    obtain ⟨hl, ha⟩ := (ascending_cons a l).1 h
    simp only [insertAsc]
    split
    · refine (ascending_cons n _).2 ⟨h, fun b hb => ?_⟩
      rcases List.mem_cons.1 hb with rfl | hb
      · assumption
      · exact lt_trans ‹n < a› (ha b hb)
    · split
      · exact h
      · refine (ascending_cons a _).2 ⟨ih hl, fun b hb => ?_⟩
        rcases (mem_insertAsc n b l).1 hb with rfl | hb
        · omega
        · exact ha b hb

/-- An insertion makes a list longer by at most one. -/
theorem insertAsc_length (n : Nat) (l : List Nat) : (insertAsc n l).length ≤ l.length + 1 := by
  induction l with
  | nil => simp [insertAsc]
  | cons a l ih =>
    simp only [insertAsc]
    split
    · simp
    · split <;> simp [ih]

/-- An insertion of a number that is not there adds one of it, and changes the count of no other. -/
theorem count_insertAsc (n x : Nat) {l : List Nat} (h : n ∉ l) :
    (insertAsc n l).count x = l.count x + if n = x then 1 else 0 := by
  induction l with
  | nil => simp [insertAsc, List.count_cons]
  | cons a l ih =>
    simp only [List.mem_cons, not_or] at h
    simp only [insertAsc, if_neg h.1]
    split
    · simp [List.count_cons]
    · simp only [List.count_cons, ih h.2]; omega

/-- An insertion changes the count of no other number. -/
theorem count_insertAsc_ne {n x : Nat} (h : n ≠ x) (l : List Nat) : (insertAsc n l).count x = l.count x := by
  induction l with
  | nil => simp [insertAsc, h]
  | cons a l ih =>
    simp only [insertAsc]
    split
    · simp [List.count_cons, h]
    · split
      · rfl
      · simp [List.count_cons, ih]

/-! ### Places of a list -/

/-- The element at a place after a change at another or the same. -/
theorem modifyAt_get {α : Type} (f : α → α) (i j : Nat) (l : List α) :
    (modifyAt f i l)[j]? = if i = j then l[j]?.map f else l[j]? := by
  induction l generalizing i j with
  | nil => simp [modifyAt]
  | cons a l ih => cases i <;> cases j <;> simp [modifyAt, ih]

@[simp] theorem modifyAt_length {α : Type} (f : α → α) (i : Nat) (l : List α) : (modifyAt f i l).length = l.length := by
  induction l generalizing i with
  | nil => simp [modifyAt]
  | cons a l ih => cases i <;> simp [modifyAt, ih]

/-- The elements after a change at a place. -/
theorem mem_modifyAt {α : Type} {f : α → α} {i : Nat} {l : List α} {b : α} (h : b ∈ modifyAt f i l) :
    b ∈ l ∨ ∃ a, l[i]? = some a ∧ b = f a := by
  obtain ⟨j, hj⟩ := List.mem_iff_getElem?.1 h
  rw [modifyAt_get] at hj
  split at hj
  · subst i
    obtain ⟨a, ha, rfl⟩ := Option.map_eq_some_iff.1 hj
    exact .inr ⟨a, ha, rfl⟩
  · exact .inl (List.mem_iff_getElem?.2 ⟨j, hj⟩)

/-- A change that keeps a function of the element there keeps the function's list. -/
theorem map_modifyAt {α β : Type} {f : α → α} {g : α → β} {i : Nat} {l : List α}
    (h : ∀ a, l[i]? = some a → g (f a) = g a) : (modifyAt f i l).map g = l.map g := by
  induction l generalizing i with
  | nil => simp [modifyAt]
  | cons a l ih =>
    cases i with
    | zero => simp [modifyAt, h a rfl]
    | succ i => simp only [modifyAt, List.map_cons]; rw [ih fun a ha => h a (by simpa using ha)]

/-- A change at a place where there is nothing. -/
theorem modifyAt_none {α : Type} {f : α → α} {i : Nat} {l : List α} (h : l[i]? = none) : modifyAt f i l = l := by
  refine List.ext_getElem? fun j => ?_
  rw [modifyAt_get]
  split
  · subst i; simp [h]
  · rfl

/-- The number of elements that satisfy a test, after a change at a place. -/
theorem countP_modifyAt {α : Type} (p : α → Bool) {f : α → α} {i : Nat} {l : List α} {a : α} (h : l[i]? = some a) :
    (modifyAt f i l).countP p + (if p a then 1 else 0) = l.countP p + (if p (f a) then 1 else 0) := by
  induction l generalizing i with
  | nil => cases h
  | cons b l ih =>
    cases i with
    | zero =>
      obtain rfl : b = a := by simpa using h
      simp only [modifyAt, List.countP_cons]; omega
    | succ i =>
      have := ih (i := i) (by simpa using h)
      simp only [modifyAt, List.countP_cons]; omega

/-- A change that keeps the test of the element there keeps the number of elements that satisfy it. -/
theorem filter_length_modifyAt {α : Type} {p : α → Bool} {f : α → α} {i : Nat} {l : List α}
    (h : ∀ a, l[i]? = some a → p (f a) = p a) : ((modifyAt f i l).filter p).length = (l.filter p).length := by
  rw [← List.countP_eq_length_filter, ← List.countP_eq_length_filter]
  cases hl : l[i]? with
  | none => rw [modifyAt_none hl]
  | some a =>
    have := countP_modifyAt p (f := f) hl
    rw [h a hl] at this
    omega

/-- The count in the joined lists, after a change of the list at a place. -/
theorem count_flatten_modifyAt {α : Type} {g : α → List Nat} {f : α → α} {i : Nat} {l : List α} {a : α}
    (h : l[i]? = some a) (x : Nat) :
    ((modifyAt f i l).map g).flatten.count x + (g a).count x = (l.map g).flatten.count x + (g (f a)).count x := by
  induction l generalizing i with
  | nil => cases h
  | cons b l ih =>
    cases i with
    | zero =>
      obtain rfl : b = a := by simpa using h
      simp only [modifyAt, List.map_cons, List.flatten_cons, List.count_append]; omega
    | succ i =>
      have := ih (i := i) (by simpa using h)
      simp only [modifyAt, List.map_cons, List.flatten_cons, List.count_append]; omega

/-- What a list at a place holds, the joined lists hold. -/
theorem count_le_flatten {α : Type} {g : α → List Nat} {i : Nat} {l : List α} {a : α} (h : l[i]? = some a) (x : Nat) :
    (g a).count x ≤ (l.map g).flatten.count x := by
  have := count_flatten_modifyAt (g := g) (f := id) h x
  induction l generalizing i with
  | nil => cases h
  | cons b l ih =>
    cases i with
    | zero =>
      obtain rfl : b = a := by simpa using h
      simp only [List.map_cons, List.flatten_cons, List.count_append]; omega
    | succ i =>
      have := ih (i := i) (by simpa using h) (count_flatten_modifyAt (by simpa using h) x)
      simp only [List.map_cons, List.flatten_cons, List.count_append]; omega

/-- The counts of a list after another number has been put at a place. -/
theorem count_set {l : List Nat} {k a : Nat} (h : l[k]? = some a) (b x : Nat) :
    (l.set k b).count x + (if a = x then 1 else 0) = l.count x + (if b = x then 1 else 0) := by
  induction l generalizing k with
  | nil => cases h
  | cons c l ih =>
    cases k with
    | zero =>
      obtain rfl : c = a := by simpa using h
      simp only [List.set_cons_zero, List.count_cons, beq_iff_eq]; omega
    | succ k =>
      have := ih (k := k) (by simpa using h)
      simp only [List.set_cons_succ, List.count_cons, beq_iff_eq]; omega

/-- The counts of a list after the number at a place has been taken out. -/
theorem count_removeAt {l : List Nat} {k a : Nat} (h : l[k]? = some a) (x : Nat) :
    (removeAt k l).count x + (if a = x then 1 else 0) = l.count x := by
  induction l generalizing k with
  | nil => cases h
  | cons c l ih =>
    cases k with
    | zero =>
      obtain rfl : c = a := by simpa using h
      simp only [removeAt, List.count_cons, beq_iff_eq]
    | succ k =>
      have := ih (k := k) (by simpa using h)
      simp only [removeAt, List.count_cons, beq_iff_eq]; omega

/-! ### Sorted lists -/

theorem insertBy_perm {α : Type} (key : α → Nat) (a : α) (l : List α) : (insertBy key a l).Perm (a :: l) := by
  induction l with
  | nil => exact List.Perm.refl _
  | cons b l ih =>
    simp only [insertBy]
    split
    · exact List.Perm.refl _
    · exact (ih.cons b).trans (List.Perm.swap a b l)

/-- A sort rearranges its list. -/
theorem sortBy_perm {α : Type} (key : α → Nat) (l : List α) : (sortBy key l).Perm l := by
  induction l with
  | nil => exact List.Perm.refl _
  | cons a l ih => exact (insertBy_perm key a _).trans (ih.cons a)

/-! ### Indices -/

/-- An index found holds an element that satisfies the test. -/
theorem mem_indicesWhere {α : Type} {p : α → Bool} {l : List α} {i : Nat} (h : i ∈ indicesWhere p l) :
    ∃ a, l[i]? = some a ∧ p a = true := by
  obtain ⟨⟨a, j⟩, hm, rfl⟩ := List.mem_map.1 h
  obtain ⟨hm, hp⟩ := List.mem_filter.1 hm
  exact ⟨a, List.mem_zipIdx_iff_getElem?.1 hm, hp⟩

/-- The index of an element that satisfies the test is found. -/
theorem indicesWhere_mem {α : Type} {p : α → Bool} {l : List α} {i : Nat} {a : α} (h : l[i]? = some a) (hp : p a = true) :
    i ∈ indicesWhere p l :=
  List.mem_map.2 ⟨(a, i), List.mem_filter.2 ⟨List.mem_zipIdx_iff_getElem?.2 h, hp⟩, rfl⟩

/-- No index is found twice. -/
theorem indicesWhere_nodup {α : Type} (p : α → Bool) (l : List α) : (indicesWhere p l).Nodup := by
  have e : (l.zipIdx.map fun x => x.2) = List.range' 0 l.length := List.zipIdx_map_snd 0 l
  have hn : (l.zipIdx.map fun x => x.2).Nodup := e ▸ List.nodup_range'
  exact hn.sublist (List.filter_sublist.map _)

/-! ### Pieces -/

/-- At most so many pieces are cut. -/
theorem chunksOf_length {α : Type} (n fuel : Nat) (l : List α) : (chunksOf n fuel l).length ≤ fuel := by
  induction fuel generalizing l with
  | zero => simp [chunksOf]
  | succ m ih =>
    cases l with
    | nil => simp [chunksOf]
    | cons a l => simp only [chunksOf, List.length_cons]; have := ih ((a :: l).drop n); omega

/-- The whole pieces are the front of the list. -/
theorem chunksOf_whole {α : Type} (n fuel : Nat) (l : List α) :
    ((chunksOf n fuel l).filter fun g => decide (g.length = n)).flatten
      = l.take (n * ((chunksOf n fuel l).filter fun g => decide (g.length = n)).length) := by
  induction fuel generalizing l with
  | zero => simp [chunksOf]
  | succ m ih =>
    cases l with
    | nil => simp [chunksOf]
    | cons a l =>
      simp only [chunksOf]
      generalize hx : a :: l = x
      by_cases hn : n ≤ x.length
      · rw [List.filter_cons_of_pos (by simp [hn])]
        simp only [List.flatten_cons, List.length_cons, ih (x.drop n), Nat.mul_add, Nat.mul_one]
        rw [Nat.add_comm, List.take_add]
      · have hd : x.drop n = [] := List.drop_eq_nil_of_le (by omega)
        have hc : chunksOf n m (x.drop n) = [] := by rw [hd]; cases m <;> rfl
        rw [List.filter_cons_of_neg (by simp; omega), hc]
        simp

end Sys2Proof.Machine
end

