-- ==== Sys2Proof/Laws/Tables.lean ====
section
/-! SUPPORT. The laws of the segment table (R86, R87, R95, R101): what keeps them, stated of the fields they speak of. -/

namespace Sys2Proof.Machine

variable {s t : State}

/-! ### What the laws speak of -/

/-- The fields that the laws of the segment table speak of. -/
abbrev tableKey (p : Part) (fe : Fe) (sm : Sm) (hp : Hp) :=
  (p.state, fe.bad, fe.pool, sm.segments, sm.table, sm.mount, sm.format, sm.eraser, sm.impactCount, sm.params,
    hp.reading)

/-- The number of segments that an impact protects (R101). -/
def impactProtected (l : List Segment) : Nat := (l.filter (protectedBy .impact)).length

/-- The laws of the segment table, but that of the limit only its count (R101). -/
structure TableCounts (s : State) : Prop where
  few : s.sm.segments.length ≤ 256
  unprotected : ∀ e ∈ s.sm.segments, holdsData e = false → e.protection = none
  erasing : ∀ (j : EraseJob) (e : Segment), s.sm.eraser = some j → s.sm.segments[j.segment]? = some e → e.state = .erasing
  placed : standing s.sm = true → BlocksPlaced s
  count : counted s.sm = true → s.sm.impactCount = impactProtected s.sm.segments
  fresh : s.sm.format.any FormatPhase.erases = true →
    s.sm.impactCount = 0 ∧ ∀ e ∈ s.sm.segments, protectedBy .impact e = false
  single : s.sm.mount = none ∨ s.sm.format = none
  formatting : s.sm.format ≠ none → s.sm.table ≠ .mounted
  mounting : s.sm.mount ≠ none → s.part.state ≠ .running
  reading : ∀ r, s.hp.reading = some r → r.atRun = true → s.sm.mount = some .finishing

theorem TableLaws.counts (l : TableLaws s) : TableCounts s where
  few := l.few
  unprotected := l.unprotected
  erasing := l.erasing
  placed := l.placed
  count := fun h => (l.limited h).1
  fresh := l.fresh
  single := l.single
  formatting := l.formatting
  mounting := l.mounting
  reading := l.reading

/-- With the limit the laws are whole (R101). -/
theorem TableCounts.laws (l : TableCounts s) (h : counted s.sm = true → s.sm.impactCount ≤ s.sm.params.limit) :
    TableLaws s where
  few := l.few
  unprotected := l.unprotected
  erasing := l.erasing
  placed := l.placed
  limited := fun c => ⟨l.count c, h c⟩
  fresh := l.fresh
  single := l.single
  formatting := l.formatting
  mounting := l.mounting
  reading := l.reading

/-- The laws hold of any state with the same fields. -/
theorem TableCounts.congr (h : tableKey t.part t.fe t.sm t.hp = tableKey s.part s.fe s.sm s.hp) (l : TableCounts s) :
    TableCounts t := by
  simp only [Prod.mk.injEq] at h
  obtain ⟨h1, h2, h3, h4, h5, h6, h7, h8, h9, h10, h11⟩ := h
  exact {
    few := by rw [h4]; exact l.few
    unprotected := by rw [h4]; exact l.unprotected
    erasing := by rw [h4, h8]; exact l.erasing
    placed := by unfold standing BlocksPlaced; rw [h2, h3, h4, h5, h6, h7]; exact l.placed
    count := by unfold counted; rw [h4, h5, h6, h9]; exact l.count
    fresh := by rw [h4, h7, h9]; exact l.fresh
    single := by rw [h6, h7]; exact l.single
    formatting := by rw [h5, h7]; exact l.formatting
    mounting := by rw [h1, h6]; exact l.mounting
    reading := by rw [h6, h11]; exact l.reading }

/-- The laws hold of any state with the same fields. -/
theorem TableLaws.congr (l : TableLaws s) (h : tableKey t.part t.fe t.sm t.hp = tableKey s.part s.fe s.sm s.hp) :
    TableLaws t := by
  refine (l.counts.congr h).laws ?_
  simp only [Prod.mk.injEq] at h
  obtain ⟨-, -, -, -, h5, h6, -, -, h9, h10, -⟩ := h
  unfold counted
  rw [h5, h6, h9, h10]
  exact fun c => (l.limited c).2

/-- A protection by impact is a protection. -/
theorem protectedBy_none {c : ProtCause} {e : Segment} (h : e.protection = none) : protectedBy c e = false := by
  simp [protectedBy, h]

/-- What a list that holds a protected segment counts. -/
theorem impactProtected_modifyAt {f : Segment → Segment} {i : Nat} {l : List Segment} {e : Segment} (h : l[i]? = some e) :
    impactProtected (modifyAt f i l) + (if protectedBy .impact e then 1 else 0)
      = impactProtected l + (if protectedBy .impact (f e) then 1 else 0) := by
  have := countP_modifyAt (protectedBy .impact) (f := f) h
  simp only [List.countP_eq_length_filter] at this
  exact this

/-! ### A segment changes -/

/-- The laws after a change of the segment at a place, with new block records and a new count. -/
theorem TableCounts.modify (l : TableCounts s) {i : Nat} {e : Segment} {f : Segment → Segment} {bad pool : List Nat}
    {c : Nat} (he : s.sm.segments[i]? = some e)
    (hp : standing s.sm = true → PlacedOnce bad pool ((modifyAt f i s.sm.segments).map (·.blocks)))
    (hu : holdsData (f e) = false → (f e).protection = none)
    (hj : ∀ j, s.sm.eraser = some j → j.segment = i → (f e).state = .erasing)
    (hc : counted s.sm = true →
      c + (if protectedBy .impact e then 1 else 0) = s.sm.impactCount + (if protectedBy .impact (f e) then 1 else 0))
    (hf : s.sm.format.any FormatPhase.erases = true → c = 0 ∧ protectedBy .impact (f e) = false) :
    TableCounts { s with
      fe.bad := bad, fe.pool := pool, sm.segments := modifyAt f i s.sm.segments, sm.impactCount := c } where
  few := by simpa using l.few
  unprotected := by
    intro a ha hd
    rcases mem_modifyAt ha with ha | ⟨b, hb, rfl⟩
    · exact l.unprotected a ha hd
    · obtain rfl : e = b := by simpa using he.symm.trans hb
      exact hu hd
  erasing := by
    intro j a hj' ha
    rw [modifyAt_get] at ha
    split at ha
    · subst i
      rw [he] at ha
      obtain rfl := Option.some.inj ha
      exact hj j hj' rfl
    · exact l.erasing j a hj' ha
  placed := hp
  count := fun h => by
    have h1 := impactProtected_modifyAt (f := f) he
    have h2 := hc h
    have h3 := l.count h
    simp only
    omega
  fresh := fun h => by
    refine ⟨(hf h).1, fun a ha => ?_⟩
    rcases mem_modifyAt ha with ha | ⟨b, hb, rfl⟩
    · exact (l.fresh h).2 a ha
    · obtain rfl : e = b := by simpa using he.symm.trans hb
      exact (hf h).2
  single := l.single
  formatting := l.formatting
  mounting := l.mounting
  reading := l.reading

/-- A change that keeps the block lists keeps the law of R87. -/
theorem PlacedOnce.same {bad pool : List Nat} {i : Nat} {l : List Segment} {f : Segment → Segment}
    (h : PlacedOnce bad pool (l.map (·.blocks))) (hb : ∀ e, l[i]? = some e → (f e).blocks = e.blocks) :
    PlacedOnce bad pool ((modifyAt f i l).map (·.blocks)) := by
  rw [map_modifyAt hb]; exact h

/-- A change of a segment that keeps its blocks keeps the laws, if it keeps whether an impact protects it. -/
theorem TableLaws.modify (l : TableLaws s) {i : Nat} {f : Segment → Segment}
    (hb : ∀ e, s.sm.segments[i]? = some e → (f e).blocks = e.blocks)
    (hu : ∀ e, s.sm.segments[i]? = some e → holdsData (f e) = false → (f e).protection = none)
    (hj : ∀ e j, s.sm.segments[i]? = some e → s.sm.eraser = some j → j.segment = i → (f e).state = .erasing)
    (hc : (counted s.sm = true ∨ s.sm.format.any FormatPhase.erases = true) →
      ∀ e, s.sm.segments[i]? = some e → protectedBy .impact (f e) = protectedBy .impact e) :
    TableLaws (smModify i f s) := by
  cases he : s.sm.segments[i]? with
  | none => exact l.congr (by simp [smModify, modifyAt_none he])
  | some e =>
    have m : TableCounts (smModify i f s) := l.counts.modify (c := s.sm.impactCount) he
      (fun h => (l.placed h).same hb) (hu e he) (fun j => hj e j he) (fun h => by rw [hc (.inl h) e he])
      (fun h => ⟨(l.fresh h).1, by rw [hc (.inr h) e he]; exact (l.fresh h).2 e (List.mem_of_getElem? he)⟩)
    exact m.laws fun h => (l.limited h).2

/-- The same for a change of a segment's values alone. -/
theorem TableLaws.values (l : TableLaws s) {i : Nat} {f : Segment → Segment} (hb : ∀ e, (f e).blocks = e.blocks)
    (hs : ∀ e, (f e).state = e.state) (hp : ∀ e, (f e).protection = e.protection) : TableLaws (smModify i f s) := by
  refine l.modify (fun e _ => hb e) (fun e he hd => ?_) (fun e j he hj hi => ?_) (fun _ e _ => by simp [protectedBy, hp])
  · rw [hp]
    exact l.unprotected e (List.mem_of_getElem? he) (by simpa [holdsData, hs] using hd)
  · subst i
    rw [hs]
    exact l.erasing j e hj he

/-- The eraser's job ends. -/
theorem TableLaws.noEraser (l : TableLaws s) : TableLaws { s with sm.eraser := none } :=
  TableCounts.laws
    { few := l.few, unprotected := l.unprotected, erasing := fun _ _ h => (by cases h), placed := l.placed
      count := l.counts.count, fresh := l.fresh, single := l.single, formatting := l.formatting
      mounting := l.mounting, reading := l.reading } fun h => (l.limited h).2

/-- A new job of the eraser, on a segment that is Erasing (R95). -/
theorem TableLaws.newEraser (l : TableLaws s) {j : EraseJob}
    (h : ∀ e, s.sm.segments[j.segment]? = some e → e.state = .erasing) : TableLaws { s with sm.eraser := some j } :=
  TableCounts.laws
    { few := l.few, unprotected := l.unprotected
      erasing := fun k e hk he => by obtain rfl := Option.some.inj hk; exact h e he
      placed := l.placed, count := l.counts.count, fresh := l.fresh, single := l.single, formatting := l.formatting
      mounting := l.mounting, reading := l.reading } fun h => (l.limited h).2

/-- A segment becomes Free, Erasing or Retired with its block list (R86), no erase going on. -/
theorem TableLaws.blank (l : TableLaws s) {i : Nat} {st : SegState} (hs : s.sm.eraser = none)
    (h : counted s.sm = true → ∀ e, s.sm.segments[i]? = some e → protectedBy .impact e = false) :
    TableLaws (smModify i (blankInto st) s) := by
  refine l.modify (fun _ _ => rfl) (fun _ _ _ => rfl) (fun e j _ hj => by rw [hs] at hj; cases hj) fun hc e he => ?_
  rcases hc with hc | hc
  · rw [h hc e he]; rfl
  · rw [(l.fresh hc).2 e (List.mem_of_getElem? he)]; rfl

/-- The segment at the eraser carries no protection (R86, R95). -/
theorem TableLaws.eraserUnprotected (l : TableLaws s) {j : EraseJob} {e : Segment} (hj : s.sm.eraser = some j)
    (he : s.sm.segments[j.segment]? = some e) : protectedBy .impact e = false :=
  protectedBy_none (l.unprotected e (List.mem_of_getElem? he) (by simp [holdsData, l.erasing j e hj he]))

/-! ### The limit on impact protection -/

/-- The segment found by its sequence satisfies the test. -/
theorem oldestWhere_some {m : Sm} {test : Segment → Bool} {i : Nat} (h : oldestWhere m test = some i) :
    ∃ e, m.segments[i]? = some e ∧ test e = true := by
  unfold oldestWhere at h
  exact mem_indicesWhere ((sortBy_perm _ _).mem_iff.1 (List.mem_of_getElem? h))

/-- No segment is found only where none satisfies the test. -/
theorem oldestWhere_none {m : Sm} {test : Segment → Bool} (h : oldestWhere m test = none) :
    ∀ e ∈ m.segments, test e = false := by
  intro e he
  by_contra ht
  obtain ⟨i, hi⟩ := List.mem_iff_getElem?.1 he
  have hm := (sortBy_perm (fun i => 2 ^ 32 - sequenceAge m (m.segments.getD i (blankSegment .free []))) _).mem_iff.2
    (indicesWhere_mem hi (by simpa using ht))
  unfold oldestWhere at h
  rw [List.getElem?_eq_none_iff] at h
  have := List.length_pos_of_mem hm
  omega

/-- The lowest Free segment is Free. -/
theorem lowestFree_some {m : Sm} {i : Nat} (h : lowestFree m = some i) :
    ∃ e, m.segments[i]? = some e ∧ e.state = .free := by
  obtain ⟨e, he, hf⟩ := mem_indicesWhere (List.mem_of_getElem? h)
  exact ⟨e, he, by simpa using hf⟩

/-- The Open segment is Open. -/
theorem openIndex_some {m : Sm} {i : Nat} (h : openIndex m = some i) :
    ∃ e, m.segments[i]? = some e ∧ e.state = .opened := by
  obtain ⟨e, he, hf⟩ := mem_indicesWhere (List.mem_of_getElem? h)
  exact ⟨e, he, by simpa using hf⟩

/-- One release (R101). -/
theorem TableCounts.release (l : TableCounts s) {i : Nat} {e : Segment} (he : s.sm.segments[i]? = some e)
    (hp : protectedBy .impact e = true) :
    TableCounts (setProtection i none { s with sm.impactCount := s.sm.impactCount - 1, sm.snapshotDue := true }) := by
  have hm := List.mem_of_getElem? he
  refine TableCounts.congr (s := { s with
      fe.bad := s.fe.bad, fe.pool := s.fe.pool
      sm.segments := modifyAt (fun e => { e with protection := none }) i s.sm.segments
      sm.impactCount := s.sm.impactCount - 1 }) rfl ?_
  refine l.modify he (fun h => (l.placed h).same fun _ _ => rfl) (fun _ => rfl) (fun j hj hi => ?_) (fun h => ?_)
    (fun h => ⟨by have := (l.fresh h).1; omega, rfl⟩)
  · subst i; exact l.erasing j e hj he
  · have hc := l.count h
    have : 0 < impactProtected s.sm.segments := List.length_pos_of_mem (List.mem_filter.2 ⟨hm, hp⟩)
    have hn : protectedBy .impact { e with protection := none } = false := rfl
    simp only [hp, hn, if_true, if_false, Bool.false_eq_true]
    omega

/-- Releases keep the laws but the limit. -/
theorem releaseOver_counts (l : TableCounts s) (fuel : Nat) : TableCounts (releaseOver fuel s) := by
  induction fuel generalizing s with
  | zero => exact l
  | succ n ih =>
    unfold releaseOver
    split
    · exact l
    · split
      · exact l
      · rename_i i hi
        obtain ⟨e, he, hp⟩ := oldestWhere_some hi
        exact ih (l.release he hp)

/-- The control fields and the limit that releases leave as they were. -/
theorem releaseOver_control (fuel : Nat) (s : State) :
    (releaseOver fuel s).sm.table = s.sm.table ∧ (releaseOver fuel s).sm.mount = s.sm.mount
      ∧ (releaseOver fuel s).sm.format = s.sm.format ∧ (releaseOver fuel s).sm.eraser = s.sm.eraser
      ∧ (releaseOver fuel s).sm.params = s.sm.params := by
  induction fuel generalizing s with
  | zero => exact ⟨rfl, rfl, rfl, rfl, rfl⟩
  | succ n ih =>
    unfold releaseOver
    split
    · exact ⟨rfl, rfl, rfl, rfl, rfl⟩
    · split
      · exact ⟨rfl, rfl, rfl, rfl, rfl⟩
      · exact ih _

/-- Releases keep the state of every segment. -/
theorem releaseOver_states (fuel : Nat) (s : State) :
    (releaseOver fuel s).sm.segments.map (·.state) = s.sm.segments.map (·.state) := by
  induction fuel generalizing s with
  | zero => rfl
  | succ n ih =>
    unfold releaseOver
    split
    · rfl
    · split
      · rfl
      · rw [ih]
        exact map_modifyAt fun _ _ => rfl

/-- As many releases as there are protections bring the count to the limit (R101). -/
theorem releaseOver_limit (l : TableCounts s) {fuel : Nat} (hc : counted s.sm = true)
    (hf : impactProtected s.sm.segments ≤ fuel + s.sm.params.limit) :
    (releaseOver fuel s).sm.impactCount ≤ s.sm.params.limit := by
  induction fuel generalizing s with
  | zero => rw [← l.count hc, Nat.zero_add] at hf; exact hf
  | succ n ih =>
    unfold releaseOver
    split
    · assumption
    · rename_i hover
      split
      · rename_i hn
        refine absurd ?_ hover
        have : impactProtected s.sm.segments = 0 := by
          unfold impactProtected
          rw [List.length_eq_zero_iff, List.filter_eq_nil_iff]
          exact fun e he => by simp [oldestWhere_none hn e he]
        rw [l.count hc, this]
        exact Nat.zero_le _
      · rename_i i hi
        obtain ⟨e, he, hp⟩ := oldestWhere_some hi
        have hr := l.release he hp
        refine ih hr hc ?_
        have h1 := impactProtected_modifyAt (f := fun e => { e with protection := none }) he
        have hn : protectedBy .impact { e with protection := none } = false := rfl
        simp only [hp, hn, if_true, if_false, Bool.false_eq_true] at h1
        show impactProtected (modifyAt (fun e => { e with protection := none }) i s.sm.segments) ≤ n + s.sm.params.limit
        omega

/-- The limit in force gives the laws whole (R101). -/
theorem TableCounts.enforced (l : TableCounts s) : TableLaws (enforceLimit s) := by
  have hk := releaseOver_control 256 s
  refine (releaseOver_counts l 256).laws fun hc => ?_
  have hc' : counted s.sm = true := by
    unfold counted at *
    rw [hk.1, hk.2.1] at hc
    exact hc
  rw [hk.2.2.2.2]
  refine releaseOver_limit l hc' ?_
  have : impactProtected s.sm.segments ≤ s.sm.segments.length := List.length_filter_le _ _
  have := l.few
  omega

/-- Protection of a target (R100). -/
theorem TableCounts.protect (l : TableCounts s) (hf : s.sm.format = none) (t i : Nat) :
    TableCounts (protectTarget t i s) := by
  unfold protectTarget
  split
  · exact l
  · rename_i e he
    split
    · rename_i hd
      have hp : protectedBy .impact e = false := protectedBy_none (by simpa using hd.2)
      refine TableCounts.congr (s := { s with
          fe.bad := s.fe.bad, fe.pool := s.fe.pool
          sm.segments := modifyAt (fun e => { e with protection := some ⟨.impact, t⟩ }) i s.sm.segments
          sm.impactCount := s.sm.impactCount + 1 }) rfl ?_
      refine l.modify he (fun h => (l.placed h).same fun _ _ => rfl) (fun h => ?_) (fun j hj hi => ?_) (fun h => ?_)
        (fun h => by simp [hf] at h)
      · exact absurd hd.1 (by simpa [holdsData] using h)
      · subst i
        exact l.erasing j e hj he
      · have hn : protectedBy .impact { e with protection := some ⟨.impact, t⟩ } = true := rfl
        simp [hp, hn]
    · exact l

/-- A protection leaves the control fields as they were. -/
theorem protectTarget_format (t i : Nat) (s : State) : (protectTarget t i s).sm.format = s.sm.format := by
  unfold protectTarget
  split
  · rfl
  · split <;> rfl

/-- A mark acted on keeps the laws (R100, R101). -/
theorem TableLaws.marked (l : TableLaws s) (hf : s.sm.format = none) (k : ImpactMark) : TableLaws (actOnMark k s) := by
  refine TableCounts.enforced ?_
  have c := l.counts
  revert c hf
  generalize markTargets s k.time = targets
  clear l
  induction targets generalizing s with
  | nil => exact fun hf c => c
  | cons i rest ih => exact fun hf c => ih (by rw [protectTarget_format]; exact hf) (c.protect hf _ _)

/-- The host's Protect keeps the laws (R102). -/
theorem TableLaws.hostProtect (l : TableLaws s) (i : Nat) : TableLaws (smProtect i s).2 := by
  unfold smProtect
  split
  · exact l
  · rename_i e he
    split
    · exact l
    · rename_i hst
      split
      · exact l
      · split
        · exact l
        · have hd : holdsData e = true := by
            simp only [not_and_or, ne_eq, not_not] at hst
            simpa [holdsData] using hst
          have hm : TableCounts { s with
              fe.bad := s.fe.bad, fe.pool := s.fe.pool
              sm.segments := modifyAt (fun e => { e with protection := some ⟨.host, s.now⟩ }) i s.sm.segments
              sm.impactCount := if protectedBy .impact e then s.sm.impactCount - 1 else s.sm.impactCount } := by
            have hn : protectedBy .impact { e with protection := some ⟨.host, s.now⟩ } = false := rfl
            refine l.counts.modify he (fun h => (l.placed h).same fun _ _ => rfl) (fun h => ?_) (fun j hj hi => ?_)
              (fun h => ?_) (fun h => ⟨?_, rfl⟩)
            · exact absurd hd (by simpa [holdsData] using h)
            · subst i; exact l.erasing j e hj he
            · have hc := (l.limited h).1
              rw [hn]
              by_cases hp : protectedBy .impact e = true
              · have : 0 < s.sm.impactCount := by
                  rw [hc]
                  exact List.length_pos_of_mem (List.mem_filter.2 ⟨List.mem_of_getElem? he, hp⟩)
                simp only [hp, if_true, if_false, Bool.false_eq_true]
                omega
              · simp [hp]
            · simp [(l.fresh h).1]
          refine TableLaws.congr (s := { s with
              fe.bad := s.fe.bad, fe.pool := s.fe.pool
              sm.segments := modifyAt (fun e => { e with protection := some ⟨.host, s.now⟩ }) i s.sm.segments
              sm.impactCount := if protectedBy .impact e then s.sm.impactCount - 1 else s.sm.impactCount })
            (hm.laws fun h => ?_) rfl
          have := (l.limited h).2
          simp only
          split <;> omega

/-- The host's Unprotect keeps the laws (R102). -/
theorem TableLaws.hostUnprotect (l : TableLaws s) (i : Nat) : TableLaws (smUnprotect i s).2 := by
  unfold smUnprotect
  split
  · exact l
  · rename_i e he
    split
    · exact l
    · split
      · exact l
      · have hm : TableCounts { s with
            fe.bad := s.fe.bad, fe.pool := s.fe.pool
            sm.segments := modifyAt (fun e => { e with protection := none }) i s.sm.segments
            sm.impactCount := if protectedBy .impact e then s.sm.impactCount - 1 else s.sm.impactCount } := by
          have hn : protectedBy .impact { e with protection := none } = false := rfl
          refine l.counts.modify he (fun h => (l.placed h).same fun _ _ => rfl) (fun _ => rfl) (fun j hj hi => ?_)
            (fun h => ?_) (fun h => ⟨?_, rfl⟩)
          · subst i; exact l.erasing j e hj he
          · have hc := (l.limited h).1
            rw [hn]
            by_cases hp : protectedBy .impact e = true
            · have : 0 < s.sm.impactCount := by
                rw [hc]
                exact List.length_pos_of_mem (List.mem_filter.2 ⟨List.mem_of_getElem? he, hp⟩)
              simp only [hp, if_true, if_false, Bool.false_eq_true]
              omega
            · simp [hp]
          · simp [(l.fresh h).1]
        refine TableLaws.congr (s := { s with
            fe.bad := s.fe.bad, fe.pool := s.fe.pool
            sm.segments := modifyAt (fun e => { e with protection := none }) i s.sm.segments
            sm.impactCount := if protectedBy .impact e then s.sm.impactCount - 1 else s.sm.impactCount })
          (hm.laws fun h => ?_) rfl
        have := (l.limited h).2
        simp only
        split <;> omega

end Sys2Proof.Machine
end

