-- ==== Sys2Proof/Laws/Blocks.lean ====
section
/-! SUPPORT. The law of R87: every block of the segment space keeps one place when a block is retired, replaced, taken out
or returned (R77, R79, R97, R98), in a partition (R92) and in a snapshot that passes its checks (R105). -/

namespace Sys2Proof.Machine

variable {s t : State}

/-! ### The block records -/

/-- The Worn flag leaves the other blocks' state and the records as they were (R82). -/
theorem feSetWorn_others (s : State) :
    (feSetWorn s).part = s.part ∧ (feSetWorn s).sm = s.sm ∧ (feSetWorn s).hp.reading = s.hp.reading
      ∧ (feSetWorn s).fe.bad = s.fe.bad ∧ (feSetWorn s).fe.pool = s.fe.pool := by
  unfold feSetWorn
  split
  · exact ⟨rfl, rfl, rfl, rfl, rfl⟩
  · unfold State.raise
    split <;> exact ⟨rfl, rfl, rfl, rfl, rfl⟩

/-- A table-area block marked Bad leaves them too (R78). -/
theorem feMarkBad_others (b : Nat) (s : State) :
    (feMarkBad b s).part = s.part ∧ (feMarkBad b s).sm = s.sm ∧ (feMarkBad b s).hp.reading = s.hp.reading
      ∧ (feMarkBad b s).fe.bad = s.fe.bad ∧ (feMarkBad b s).fe.pool = s.fe.pool := by
  unfold feMarkBad
  dsimp only
  split
  · exact feSetWorn_others _
  · exact ⟨rfl, rfl, rfl, rfl, rfl⟩

/-- FE's answer to a retirement leaves the other blocks' state as it was. -/
theorem feRetire_others (b : Nat) (s : State) :
    (feRetire b s).2.part = s.part ∧ (feRetire b s).2.sm = s.sm ∧ (feRetire b s).2.hp.reading = s.hp.reading := by
  unfold feRetire
  split
  · have h := feMarkBad_others b s
    exact ⟨h.1, h.2.1, h.2.2.1⟩
  · split
    · exact ⟨rfl, rfl, rfl⟩
    · split
      · exact ⟨rfl, rfl, rfl⟩
      · have h := feSetWorn_others s
        exact ⟨h.1, h.2.1, h.2.2.1⟩

/-- A refused retirement leaves the records (R77). -/
theorem feRetire_refused {b : Nat} (h : (feRetire b s).1 = false) :
    (feRetire b s).2.fe.bad = s.fe.bad ∧ (feRetire b s).2.fe.pool = s.fe.pool := by
  unfold feRetire at *
  split at h
  · cases h
  · split at h
    · cases h
    · split at h
      · cases h
      · rename_i h1 h2 h3
        rw [if_neg h1, if_neg h2, if_neg h3]
        exact (feSetWorn_others s).2.2.2

/-- An accepted retirement of a block of the segment space that is in neither list adds it once (R77). -/
theorem feRetire_counts {b x : Nat} (h : (feRetire b s).1 = true) (hx : 16 ≤ x ∧ x < 16384)
    (hb : 16 ≤ b ∧ b < 16384 → b ∉ s.fe.bad ∧ b ∉ s.fe.pool) :
    (feRetire b s).2.fe.bad.count x + (feRetire b s).2.fe.pool.count x
      = s.fe.bad.count x + s.fe.pool.count x + if b = x then 1 else 0 := by
  unfold feRetire at *
  split at h
  · rename_i hl
    have hne : b ≠ x := by omega
    have hm := (feMarkBad_others b s).2.2.2
    simp only [if_pos hl, if_neg hne, hm.1, hm.2, Nat.add_zero]
  · rename_i hl
    simp only [if_neg hl]
    have he : ∀ l : List Nat, b ∉ l ∨ b ≠ x → (l.erase b).count x = l.count x := by
      intro l hl
      rcases hl with hl | hl
      · rw [List.erase_of_not_mem hl]
      · exact List.count_erase_of_ne (Ne.symm hl)
    split
    · rename_i hc
      have hm : b ∈ s.fe.bad := by simpa using hc
      have hne : b ≠ x := by
        rintro rfl
        exact (hb hx).1 hm
      simp only [he _ (.inr hne), if_neg hne, Nat.add_zero]
    · rename_i hc
      have hm : b ∉ s.fe.bad := by simpa using hc
      split
      · simp only [count_insertAsc b x hm]
        by_cases hne : b = x
        · subst hne
          rw [he _ (.inl (hb hx).2)]
          omega
        · rw [he _ (.inr hne)]
          omega
      · rename_i h3
        rw [if_neg hc, if_neg h3] at h
        cases h

/-- Blocks returned to the pool join it, each once (R79). -/
theorem feReturnAll_counts (bs : List Nat) (s : State)
    (hb : ∀ x, 16 ≤ x → x < 16384 → s.fe.bad.count x + s.fe.pool.count x + bs.count x ≤ 1) {x : Nat} (h1 : 16 ≤ x)
    (h2 : x < 16384) : (feReturnAll bs s).fe.pool.count x = s.fe.pool.count x + bs.count x := by
  induction bs generalizing s with
  | nil => simp [feReturnAll]
  | cons b bs ih =>
    have step : ∀ y, 16 ≤ y → y < 16384 →
        (feReturn b s).fe.pool.count y = s.fe.pool.count y + if b = y then 1 else 0 := by
      intro y y1 y2
      have hy := hb y y1 y2
      simp only [List.count_cons, beq_iff_eq] at hy
      unfold feReturn
      split
      · rename_i hc
        have hm : b ∈ s.fe.bad := by simpa using hc
        have hne : b ≠ y := by
          rintro rfl
          have := List.count_pos_iff.2 hm
          simp only [if_true] at hy
          omega
        simp [hne]
      · by_cases hne : b = y
        · subst hne
          simp only [if_true] at hy
          rw [count_insertAsc b b (List.count_eq_zero.1 (by omega))]
        · rw [count_insertAsc_ne hne]
          simp [hne]
    have hbad : (feReturn b s).fe.bad = s.fe.bad := by
      unfold feReturn
      split <;> rfl
    show (feReturnAll bs (feReturn b s)).fe.pool.count x = _
    rw [ih (feReturn b s) fun y y1 y2 => ?_]
    · rw [step x h1 h2]
      simp only [List.count_cons, beq_iff_eq]
      omega
    · rw [hbad, step y y1 y2]
      have := hb y y1 y2
      simp only [List.count_cons, beq_iff_eq] at this
      omega

/-- Returned blocks leave everything else as it was. -/
theorem feReturnAll_others (bs : List Nat) (s : State) :
    (feReturnAll bs s).part = s.part ∧ (feReturnAll bs s).sm = s.sm ∧ (feReturnAll bs s).hp = s.hp
      ∧ (feReturnAll bs s).fe.bad = s.fe.bad := by
  induction bs generalizing s with
  | nil => exact ⟨rfl, rfl, rfl, rfl⟩
  | cons b bs ih =>
    have : (feReturn b s).part = s.part ∧ (feReturn b s).sm = s.sm ∧ (feReturn b s).hp = s.hp
        ∧ (feReturn b s).fe.bad = s.fe.bad := by
      unfold feReturn
      split <;> exact ⟨rfl, rfl, rfl, rfl⟩
    obtain ⟨h1, h2, h3, h4⟩ := ih (feReturn b s)
    exact ⟨h1.trans this.1, h2.trans this.2.1, h3.trans this.2.2.1, h4.trans this.2.2.2⟩

/-! ### A block of a segment fails -/

/-- A block of a segment is in neither list (R87). -/
theorem placed_apart {bad pool : List Nat} {l : List Segment} {i k b : Nat} {e : Segment}
    (h : PlacedOnce bad pool (l.map (·.blocks))) (he : l[i]? = some e) (hk : e.blocks[k]? = some b)
    (hb : 16 ≤ b ∧ b < 16384) : b ∉ bad ∧ b ∉ pool := by
  have h1 := h b hb.1 hb.2
  have h2 := count_le_flatten (g := fun e => e.blocks) he b
  have h3 := List.count_pos_iff.2 (List.mem_of_getElem? hk)
  simp only [List.count_append] at h1
  constructor
  · intro hm
    have := List.count_pos_iff.2 hm
    omega
  · intro hm
    have := List.count_pos_iff.2 hm
    omega

/-- The failed block at a place of a segment's list is retired, and another of the pool takes its place, or the list
closes up (R97, R98). -/
theorem TableLaws.replaced (l : TableLaws s) {i k b : Nat} {e : Segment} (he : s.sm.segments[i]? = some e)
    (hk : e.blocks[k]? = some b) (ha : (feRetire b s).1 = true) :
    (∀ r u, feTake (feRetire b s).2 = (some r, u) → TableLaws (smPutBlock i k r u))
      ∧ ∀ u, feTake (feRetire b s).2 = (none, u) → TableLaws (smDropBlock i k u) := by
  obtain ⟨hpart, hsm, hread⟩ := feRetire_others b s
  have hcount := fun (hp : standing s.sm = true) (x : Nat) (h1 : 16 ≤ x) (h2 : x < 16384) =>
    feRetire_counts (s := s) ha ⟨h1, h2⟩ (placed_apart (l.placed hp) he hk)
  generalize (feRetire b s).2 = a at hpart hsm hread hcount
  have key : ∀ (pool : List Nat) (f : Segment → Segment),
      (standing s.sm = true → PlacedOnce a.fe.bad pool ((modifyAt f i s.sm.segments).map (·.blocks))) →
      (f e).state = e.state → (f e).protection = e.protection →
      ∀ u : State, tableKey u.part u.fe u.sm u.hp = tableKey s.part { s.fe with bad := a.fe.bad, pool := pool }
        { s.sm with segments := modifyAt f i s.sm.segments } s.hp → TableLaws u := by
    intro pool f hp hst hpr u hu
    refine TableLaws.congr (s := { s with
      fe.bad := a.fe.bad, fe.pool := pool, sm.segments := modifyAt f i s.sm.segments
      sm.impactCount := s.sm.impactCount }) ?_ hu
    have hsame : protectedBy .impact (f e) = protectedBy .impact e := by simp [protectedBy, hpr]
    refine (l.counts.modify he hp (fun hd => ?_) (fun j hj hi => ?_) (fun _ => by rw [hsame]) fun h => ?_).laws
      fun h => (l.limited h).2
    · rw [hpr]
      exact l.unprotected e (List.mem_of_getElem? he) (by simpa [holdsData, hst] using hd)
    · subst i
      rw [hst]
      exact l.erasing j e hj he
    · rw [hsame]
      exact ⟨(l.fresh h).1, (l.fresh h).2 e (List.mem_of_getElem? he)⟩
  unfold feTake
  constructor
  · intro r u hu
    split at hu
    · cases hu
    · rename_i c rest hpool
      simp only [Prod.mk.injEq, Option.some.injEq] at hu
      obtain ⟨rfl, rfl⟩ := hu
      refine key rest (fun e => { e with blocks := e.blocks.set k c }) (fun hp x h1 h2 => ?_) rfl rfl _ ?_
      · have e1 := hcount hp x h1 h2
        have e2 := l.placed hp x h1 h2
        have e3 := count_flatten_modifyAt (g := fun e => e.blocks) (f := fun e => { e with blocks := e.blocks.set k c }) he x
        have e4 := count_set hk c x
        rw [hpool] at e1
        simp only [List.count_append, List.count_cons, beq_iff_eq] at *
        omega
      · simp [smPutBlock, smDue, smModify, hpart, hsm, hread]
  · intro u hu
    split at hu
    · rename_i hpool
      simp only [Prod.mk.injEq, true_and] at hu
      subst hu
      refine key a.fe.pool (fun e => { e with blocks := removeAt k e.blocks }) (fun hp x h1 h2 => ?_) rfl rfl _ ?_
      · have e1 := hcount hp x h1 h2
        have e2 := l.placed hp x h1 h2
        have e3 := count_flatten_modifyAt (g := fun e => e.blocks) (f := fun e => { e with blocks := removeAt k e.blocks }) he x
        have e4 := count_removeAt hk x
        simp only [List.count_append] at *
        omega
      · simp [smDropBlock, smDue, smModify, hpart, hsm, hread]
    · simp at hu

/-- A refused retirement keeps the laws (R77). -/
theorem TableLaws.refused (l : TableLaws s) {b : Nat} (h : (feRetire b s).1 = false) : TableLaws (feRetire b s).2 := by
  obtain ⟨h1, h2, h3⟩ := feRetire_others b s
  obtain ⟨h4, h5⟩ := feRetire_refused h
  exact l.congr (by simp [h1, h2, h3, h4, h5])

/-- A segment that no impact protects is Retired: the blocks not kept go to the pool (R97). -/
theorem TableLaws.retired (l : TableLaws s) {i : Nat} {kept : List Nat}
    (hi : ∀ e, s.sm.segments[i]? = some e → protectedBy .impact e = false)
    (hk : ∀ e, s.sm.segments[i]? = some e → standing s.sm = true → ∀ x, 16 ≤ x → x < 16384 →
      kept.count x + (e.blocks.filter fun b => !kept.contains b).count x = e.blocks.count x) :
    TableLaws (smRetireSegment i kept s) := by
  unfold smRetireSegment
  dsimp only [Sm.segment]
  cases he : s.sm.segments[i]? with
  | none =>
    exact l.noEraser.congr (by simp [smDue, smModify, feReturnAll, modifyAt_none he])
  | some e =>
    simp only [Option.map_some, Option.getD_some]
    obtain ⟨h1, h2, h3, h4⟩ := feReturnAll_others (e.blocks.filter fun b => !kept.contains b) { s with sm.eraser := none }
    have hc := fun (hp : standing s.sm = true) (x : Nat) (x1 : 16 ≤ x) (x2 : x < 16384) =>
      feReturnAll_counts (e.blocks.filter fun b => !kept.contains b) { s with sm.eraser := none }
        (fun y y1 y2 => by
          have e2 := l.placed hp y y1 y2
          have e3 := count_le_flatten (g := fun e => e.blocks) he y
          have e4 := hk e he hp y y1 y2
          simp only [List.count_append] at *
          omega) x1 x2
    generalize feReturnAll (e.blocks.filter fun b => !kept.contains b) { s with sm.eraser := none } = a at h1 h2 h3 h4 hc
    refine TableLaws.congr (s := { s with
      fe.bad := s.fe.bad, fe.pool := a.fe.pool, sm.eraser := none
      sm.segments := modifyAt (fun e => { blankInto .retired e with blocks := kept }) i s.sm.segments
      sm.impactCount := s.sm.impactCount }) ?_ ?_
    rotate_left
    · simp [smDue, smModify, h1, h2, h3, h4]
    · have m := l.noEraser.counts.modify (f := fun e => { blankInto .retired e with blocks := kept }) (bad := s.fe.bad)
        (pool := a.fe.pool) (c := s.sm.impactCount) he (fun hp x x1 x2 => ?_) (fun _ => rfl) (fun j hj => by cases hj)
        (fun _ => ?_) (fun h => ⟨(l.fresh h).1, rfl⟩)
      · exact m.laws fun h => (l.limited h).2
      · have e1 := hc hp x x1 x2
        have e2 := l.placed hp x x1 x2
        have e3 := count_flatten_modifyAt (g := fun e => e.blocks) (f := fun e => { blankInto .retired e with blocks := kept })
          he x
        have e4 := hk e he hp x x1 x2
        simp only [List.count_append] at *
        omega
      · have hn : protectedBy .impact { blankInto .retired e with blocks := kept } = false := rfl
        rw [hi e he, hn]

/-- A segment of the eraser is Retired with none of its blocks (R97). -/
theorem TableLaws.retiredWhole (l : TableLaws s) {i : Nat}
    (hi : ∀ e, s.sm.segments[i]? = some e → protectedBy .impact e = false) : TableLaws (smRetireSegment i [] s) :=
  l.retired hi fun e _ _ x _ _ => by simp

/-- A segment of the eraser is Retired with the block whose retirement was refused (R97). -/
theorem TableLaws.retiredBut (l : TableLaws s) {i k b : Nat} {e : Segment} (he : s.sm.segments[i]? = some e)
    (hk : e.blocks[k]? = some b) (hi : protectedBy .impact e = false) : TableLaws (smRetireSegment i [b] s) := by
  refine l.retired (fun a ha => by obtain rfl : e = a := by simpa using he.symm.trans ha
                                   exact hi) fun a ha hp x x1 x2 => ?_
  obtain rfl : e = a := by simpa using he.symm.trans ha
  have e2 := l.placed hp x x1 x2
  have e3 := count_le_flatten (g := fun e => e.blocks) he x
  simp only [List.count_append] at e2
  by_cases hx : b = x
  · subst hx
    have h1 := List.count_pos_iff.2 (List.mem_of_getElem? hk)
    have h2 : (e.blocks.filter fun c => !([b] : List Nat).contains c).count b = 0 := by
      rw [List.count_eq_zero]
      intro hm
      simp at hm
    rw [h2]
    simp only [List.count_singleton_self]
    omega
  · rw [List.count_filter (by simpa using fun h : x = b => hx h.symm), List.count_singleton]
    simp [hx]

/-! ### A whole table -/

/-- A snapshot that passes its checks places every block once (R87, R105). -/
theorem imageValid_placed {v : TableLoad} (h : imageValid v = true) :
    PlacedOnce v.bad v.pool (v.segments.map (·.blocks)) := by
  have hv : sortBy id (v.bad ++ v.pool ++ (v.segments.map (·.blocks)).flatten) = List.range' 16 16368 := by
    unfold imageValid blocksPartition at h
    simp only [Bool.and_eq_true, decide_eq_true_eq] at h
    exact h.1.1.2
  intro x x1 x2
  rw [← (sortBy_perm id _).count_eq, hv]
  exact List.count_eq_one_of_mem List.nodup_range' (List.mem_range'_1.2 (by omega))

/-- A partition places every block once (R87, R92). -/
theorem partition_placed {bad : List Nat} (h : bad.Nodup) (bps : Nat) :
    PlacedOnce bad (formatPool bps (goodBlocks bad)) (formatGroups bps (goodBlocks bad)) := by
  intro x x1 x2
  have hg : (formatGroups bps (goodBlocks bad)).flatten
      = (goodBlocks bad).take (min (bps * (formatGroups bps (goodBlocks bad)).length) ((goodBlocks bad).length - 320)) := by
    have := chunksOf_whole bps 256 (groupable (goodBlocks bad))
    unfold formatGroups
    rw [this]
    unfold groupable
    rw [List.take_take]
  have hl : bps * (formatGroups bps (goodBlocks bad)).length ≤ (goodBlocks bad).length - 320 := by
    have h1 : (formatGroups bps (goodBlocks bad)).flatten.length = bps * (formatGroups bps (goodBlocks bad)).length := by
      rw [List.length_flatten]
      have : ∀ g ∈ (formatGroups bps (goodBlocks bad)), g.length = bps := fun g hg => by
        simpa using (List.mem_filter.1 hg).2
      rw [List.map_congr_left this, List.map_const', List.sum_replicate]
      simp [Nat.mul_comm]
    rw [hg, List.length_take] at h1
    omega
  rw [Nat.min_eq_left hl] at hg
  have hsplit : (formatGroups bps (goodBlocks bad)).flatten.count x + (formatPool bps (goodBlocks bad)).count x
      = (goodBlocks bad).count x := by
    rw [hg]
    unfold formatPool
    rw [← List.count_append, List.take_append_drop]
  have hr : (List.range' 16 16368).Nodup := List.nodup_range'
  have hxr : x ∈ List.range' 16 16368 := List.mem_range'_1.2 (by omega)
  have hgn : (goodBlocks bad).Nodup := hr.sublist List.filter_sublist
  have hsum : bad.count x + (goodBlocks bad).count x = 1 := by
    by_cases hb : x ∈ bad
    · rw [List.count_eq_one_of_mem h hb]
      have : x ∉ goodBlocks bad := fun hm => by
        have := (List.mem_filter.1 hm).2
        simp [hb] at this
      rw [List.count_eq_zero.2 this]
    · rw [List.count_eq_zero.2 hb]
      have hm : x ∈ goodBlocks bad := List.mem_filter.2 ⟨hxr, by simpa using hb⟩
      rw [List.count_eq_one_of_mem hgn hm]
  simp only [List.count_append]
  omega

end Sys2Proof.Machine
end

