-- ==== Sys2Proof/Laws/State.lean ====
section
/-! SUPPORT. The fields of a state after each named update: one lemma a field, so that no proof unfolds a record update. -/

namespace Sys2Proof.Machine

/-! ### Buffer RAM -/

@[simp] theorem store_part (s : State) (a : Nat) (bytes : List Byte) : (s.store a bytes).part = s.part := rfl

@[simp] theorem store_rck (s : State) (a : Nat) (bytes : List Byte) : (s.store a bytes).rck = s.rck := rfl

@[simp] theorem store_mu (s : State) (a : Nat) (bytes : List Byte) : (s.store a bytes).mu = s.mu := rfl

@[simp] theorem store_pu (s : State) (a : Nat) (bytes : List Byte) : (s.store a bytes).pu = s.pu := rfl

@[simp] theorem store_fe (s : State) (a : Nat) (bytes : List Byte) : (s.store a bytes).fe = s.fe := rfl

@[simp] theorem store_sm (s : State) (a : Nat) (bytes : List Byte) : (s.store a bytes).sm = s.sm := rfl

@[simp] theorem store_cw (s : State) (a : Nat) (bytes : List Byte) : (s.store a bytes).cw = s.cw := rfl

@[simp] theorem store_cc (s : State) (a : Nat) (bytes : List Byte) : (s.store a bytes).cc = s.cc := rfl

@[simp] theorem store_ga (s : State) (a : Nat) (bytes : List Byte) : (s.store a bytes).ga = s.ga := rfl

@[simp] theorem store_hp (s : State) (a : Nat) (bytes : List Byte) : (s.store a bytes).hp = s.hp := rfl

@[simp] theorem store_pending (s : State) (a : Nat) (bytes : List Byte) : (s.store a bytes).pending = s.pending := rfl

@[simp] theorem store_mem (s : State) (a : Nat) (bytes : List Byte) :
    (s.store a bytes).mem = writeCells s.mem a bytes := rfl

/-! ### Time -/

@[simp] theorem advance_part (s : State) (t : Nat) : (s.advance t).part = s.part := rfl

@[simp] theorem advance_mu (s : State) (t : Nat) : (s.advance t).mu = s.mu := rfl

@[simp] theorem advance_pu (s : State) (t : Nat) : (s.advance t).pu = s.pu := rfl

@[simp] theorem advance_fe (s : State) (t : Nat) : (s.advance t).fe = s.fe := rfl

@[simp] theorem advance_sm (s : State) (t : Nat) : (s.advance t).sm = s.sm := rfl

@[simp] theorem advance_cw (s : State) (t : Nat) : (s.advance t).cw = s.cw := rfl

@[simp] theorem advance_cc (s : State) (t : Nat) : (s.advance t).cc = s.cc := rfl

@[simp] theorem advance_ga (s : State) (t : Nat) : (s.advance t).ga = s.ga := rfl

@[simp] theorem advance_hp (s : State) (t : Nat) : (s.advance t).hp = s.hp := rfl

@[simp] theorem advance_mem (s : State) (t : Nat) : (s.advance t).mem = s.mem := rfl

@[simp] theorem advance_pending (s : State) (t : Nat) : (s.advance t).pending = s.pending := rfl

@[simp] theorem advance_rck_nextChargeTick (s : State) (t : Nat) :
    (s.advance t).rck.nextChargeTick = s.rck.nextChargeTick := rfl

@[simp] theorem advance_rck_sampleTimer (s : State) (t : Nat) :
    (s.advance t).rck.sampleTimer = s.rck.sampleTimer := rfl

@[simp] theorem advance_rck_activePeriod (s : State) (t : Nat) :
    (s.advance t).rck.activePeriod = s.rck.activePeriod := rfl

@[simp] theorem advance_rck_pendingPeriod (s : State) (t : Nat) :
    (s.advance t).rck.pendingPeriod = s.rck.pendingPeriod := rfl

@[simp] theorem advance_rck_filter (s : State) (t : Nat) : (s.advance t).rck.filter = s.rck.filter := rfl

@[simp] theorem advance_rck_filterLength (s : State) (t : Nat) :
    (s.advance t).rck.filterLength = s.rck.filterLength := rfl

@[simp] theorem advance_rck_pendingFilterLength (s : State) (t : Nat) :
    (s.advance t).rck.pendingFilterLength = s.rck.pendingFilterLength := rfl

@[simp] theorem advance_rck_minInterval (s : State) (t : Nat) :
    (s.advance t).rck.minInterval = s.rck.minInterval := rfl

@[simp] theorem advance_rck_pendingMinInterval (s : State) (t : Nat) :
    (s.advance t).rck.pendingMinInterval = s.rck.pendingMinInterval := rfl

@[simp] theorem advance_rck_lastAccepted (s : State) (t : Nat) :
    (s.advance t).rck.lastAccepted = s.rck.lastAccepted := rfl

@[simp] theorem advance_rck_lastInterval (s : State) (t : Nat) :
    (s.advance t).rck.lastInterval = s.rck.lastInterval := rfl

@[simp] theorem advance_rck_nextFrame (s : State) (t : Nat) : (s.advance t).rck.nextFrame = s.rck.nextFrame := rfl

@[simp] theorem advance_rck_glitches (s : State) (t : Nat) : (s.advance t).rck.glitches = s.rck.glitches := rfl

@[simp] theorem advance_rck_silence (s : State) (t : Nat) : (s.advance t).rck.silence = s.rck.silence := rfl

@[simp] theorem advance_rck_line (s : State) (t : Nat) : (s.advance t).rck.line = s.rck.line := rfl

@[simp] theorem advance_rck_clock (s : State) (t : Nat) :
    (s.advance t).rck.clock = max s.rck.clock (min t lastClock) := rfl

/-! ### Causes -/

@[simp] theorem raise_part (s : State) (c : Cause) : (s.raise c).part = s.part := by
  unfold State.raise; split <;> rfl

@[simp] theorem raise_rck (s : State) (c : Cause) : (s.raise c).rck = s.rck := by
  unfold State.raise; split <;> rfl

@[simp] theorem raise_mu (s : State) (c : Cause) : (s.raise c).mu = s.mu := by
  unfold State.raise; split <;> rfl

@[simp] theorem raise_pu (s : State) (c : Cause) : (s.raise c).pu = s.pu := by
  unfold State.raise; split <;> rfl

@[simp] theorem raise_fe (s : State) (c : Cause) : (s.raise c).fe = s.fe := by
  unfold State.raise; split <;> rfl

@[simp] theorem raise_sm (s : State) (c : Cause) : (s.raise c).sm = s.sm := by
  unfold State.raise; split <;> rfl

@[simp] theorem raise_cw (s : State) (c : Cause) : (s.raise c).cw = s.cw := by
  unfold State.raise; split <;> rfl

@[simp] theorem raise_cc (s : State) (c : Cause) : (s.raise c).cc = s.cc := by
  unfold State.raise; split <;> rfl

@[simp] theorem raise_ga (s : State) (c : Cause) : (s.raise c).ga = s.ga := by
  unfold State.raise; split <;> rfl

@[simp] theorem raise_mem (s : State) (c : Cause) : (s.raise c).mem = s.mem := by
  unfold State.raise; split <;> rfl

@[simp] theorem raise_pending (s : State) (c : Cause) : (s.raise c).pending = s.pending := by
  unfold State.raise; split <;> rfl

@[simp] theorem raise_hp_latch (s : State) (c : Cause) : (s.raise c).hp.latch = s.hp.latch := by
  unfold State.raise; split <;> rfl

@[simp] theorem raise_hp_directory (s : State) (c : Cause) : (s.raise c).hp.directory = s.hp.directory := by
  unfold State.raise; split <;> rfl

@[simp] theorem raise_hp_inForce (s : State) (c : Cause) : (s.raise c).hp.inForce = s.hp.inForce := by
  unfold State.raise; split <;> rfl

@[simp] theorem raise_hp_mask (s : State) (c : Cause) : (s.raise c).hp.mask = s.hp.mask := by
  unfold State.raise; split <;> rfl

@[simp] theorem raise_hp_reading (s : State) (c : Cause) : (s.raise c).hp.reading = s.hp.reading := by
  unfold State.raise; split <;> rfl

@[simp] theorem raise_hp_reloadHeld (s : State) (c : Cause) : (s.raise c).hp.reloadHeld = s.hp.reloadHeld := by
  unfold State.raise; split <;> rfl

@[simp] theorem raise_hp_clamped (s : State) (c : Cause) : (s.raise c).hp.clamped = s.hp.clamped := by
  unfold State.raise; split <;> rfl

@[simp] theorem raise_hp_status (s : State) (c : Cause) : (s.raise c).hp.status = s.hp.status := by
  unfold State.raise; split <;> rfl

@[simp] theorem raise_hp_statusGeneration (s : State) (c : Cause) :
    (s.raise c).hp.statusGeneration = s.hp.statusGeneration := by
  unfold State.raise; split <;> rfl

@[simp] theorem raise_hp_data (s : State) (c : Cause) : (s.raise c).hp.data = s.hp.data := by
  unfold State.raise; split <;> rfl

/-! ### One entry of a table -/

@[simp] theorem puModify_part (s : State) (i : Nat) (f : Shadow → Shadow) : (puModify i f s).part = s.part := rfl

@[simp] theorem puModify_rck (s : State) (i : Nat) (f : Shadow → Shadow) : (puModify i f s).rck = s.rck := rfl

@[simp] theorem puModify_mu (s : State) (i : Nat) (f : Shadow → Shadow) : (puModify i f s).mu = s.mu := rfl

@[simp] theorem puModify_fe (s : State) (i : Nat) (f : Shadow → Shadow) : (puModify i f s).fe = s.fe := rfl

@[simp] theorem puModify_sm (s : State) (i : Nat) (f : Shadow → Shadow) : (puModify i f s).sm = s.sm := rfl

@[simp] theorem puModify_cw (s : State) (i : Nat) (f : Shadow → Shadow) : (puModify i f s).cw = s.cw := rfl

@[simp] theorem puModify_cc (s : State) (i : Nat) (f : Shadow → Shadow) : (puModify i f s).cc = s.cc := rfl

@[simp] theorem puModify_ga (s : State) (i : Nat) (f : Shadow → Shadow) : (puModify i f s).ga = s.ga := rfl

@[simp] theorem puModify_hp (s : State) (i : Nat) (f : Shadow → Shadow) : (puModify i f s).hp = s.hp := rfl

@[simp] theorem puModify_mem (s : State) (i : Nat) (f : Shadow → Shadow) : (puModify i f s).mem = s.mem := rfl

@[simp] theorem puModify_pending (s : State) (i : Nat) (f : Shadow → Shadow) :
    (puModify i f s).pending = s.pending := rfl

@[simp] theorem puModify_pu_table (s : State) (i : Nat) (f : Shadow → Shadow) :
    (puModify i f s).pu.table = s.pu.table := rfl

@[simp] theorem puModify_pu_pathNumber (s : State) (i : Nat) (f : Shadow → Shadow) :
    (puModify i f s).pu.pathNumber = s.pu.pathNumber := rfl

@[simp] theorem puModify_pu_params (s : State) (i : Nat) (f : Shadow → Shadow) :
    (puModify i f s).pu.params = s.pu.params := rfl

@[simp] theorem puModify_pu_pending (s : State) (i : Nat) (f : Shadow → Shadow) :
    (puModify i f s).pu.pending = s.pu.pending := rfl

@[simp] theorem puModify_pu_overruns (s : State) (i : Nat) (f : Shadow → Shadow) :
    (puModify i f s).pu.overruns = s.pu.overruns := rfl

@[simp] theorem puModify_pu_unreleased (s : State) (i : Nat) (f : Shadow → Shadow) :
    (puModify i f s).pu.unreleased = s.pu.unreleased := rfl

@[simp] theorem puModify_pu_gaps (s : State) (i : Nat) (f : Shadow → Shadow) :
    (puModify i f s).pu.gaps = s.pu.gaps := rfl

@[simp] theorem puModify_pu_clamps (s : State) (i : Nat) (f : Shadow → Shadow) :
    (puModify i f s).pu.clamps = s.pu.clamps := rfl

@[simp] theorem puModify_pu_newest (s : State) (i : Nat) (f : Shadow → Shadow) :
    (puModify i f s).pu.newest = s.pu.newest := rfl

/-! ### One segment -/

@[simp] theorem smModify_part (s : State) (i : Nat) (f : Segment → Segment) : (smModify i f s).part = s.part := rfl

@[simp] theorem smModify_rck (s : State) (i : Nat) (f : Segment → Segment) : (smModify i f s).rck = s.rck := rfl

@[simp] theorem smModify_mu (s : State) (i : Nat) (f : Segment → Segment) : (smModify i f s).mu = s.mu := rfl

@[simp] theorem smModify_pu (s : State) (i : Nat) (f : Segment → Segment) : (smModify i f s).pu = s.pu := rfl

@[simp] theorem smModify_fe (s : State) (i : Nat) (f : Segment → Segment) : (smModify i f s).fe = s.fe := rfl

@[simp] theorem smModify_cw (s : State) (i : Nat) (f : Segment → Segment) : (smModify i f s).cw = s.cw := rfl

@[simp] theorem smModify_cc (s : State) (i : Nat) (f : Segment → Segment) : (smModify i f s).cc = s.cc := rfl

@[simp] theorem smModify_ga (s : State) (i : Nat) (f : Segment → Segment) : (smModify i f s).ga = s.ga := rfl

@[simp] theorem smModify_hp (s : State) (i : Nat) (f : Segment → Segment) : (smModify i f s).hp = s.hp := rfl

@[simp] theorem smModify_mem (s : State) (i : Nat) (f : Segment → Segment) : (smModify i f s).mem = s.mem := rfl

@[simp] theorem smModify_pending (s : State) (i : Nat) (f : Segment → Segment) :
    (smModify i f s).pending = s.pending := rfl

@[simp] theorem smModify_sm_table (s : State) (i : Nat) (f : Segment → Segment) :
    (smModify i f s).sm.table = s.sm.table := rfl

@[simp] theorem smModify_sm_bps (s : State) (i : Nat) (f : Segment → Segment) :
    (smModify i f s).sm.bps = s.sm.bps := rfl

@[simp] theorem smModify_sm_sequence (s : State) (i : Nat) (f : Segment → Segment) :
    (smModify i f s).sm.sequence = s.sm.sequence := rfl

@[simp] theorem smModify_sm_clip (s : State) (i : Nat) (f : Segment → Segment) :
    (smModify i f s).sm.clip = s.sm.clip := rfl

@[simp] theorem smModify_sm_openFill (s : State) (i : Nat) (f : Segment → Segment) :
    (smModify i f s).sm.openFill = s.sm.openFill := rfl

@[simp] theorem smModify_sm_change (s : State) (i : Nat) (f : Segment → Segment) :
    (smModify i f s).sm.change = s.sm.change := rfl

@[simp] theorem smModify_sm_eraser (s : State) (i : Nat) (f : Segment → Segment) :
    (smModify i f s).sm.eraser = s.sm.eraser := rfl

@[simp] theorem smModify_sm_lastClosed (s : State) (i : Nat) (f : Segment → Segment) :
    (smModify i f s).sm.lastClosed = s.sm.lastClosed := rfl

@[simp] theorem smModify_sm_impactCount (s : State) (i : Nat) (f : Segment → Segment) :
    (smModify i f s).sm.impactCount = s.sm.impactCount := rfl

@[simp] theorem smModify_sm_hostCount (s : State) (i : Nat) (f : Segment → Segment) :
    (smModify i f s).sm.hostCount = s.sm.hostCount := rfl

@[simp] theorem smModify_sm_params (s : State) (i : Nat) (f : Segment → Segment) :
    (smModify i f s).sm.params = s.sm.params := rfl

@[simp] theorem smModify_sm_pending (s : State) (i : Nat) (f : Segment → Segment) :
    (smModify i f s).sm.pending = s.sm.pending := rfl

@[simp] theorem smModify_sm_generation (s : State) (i : Nat) (f : Segment → Segment) :
    (smModify i f s).sm.generation = s.sm.generation := rfl

@[simp] theorem smModify_sm_snapshotDue (s : State) (i : Nat) (f : Segment → Segment) :
    (smModify i f s).sm.snapshotDue = s.sm.snapshotDue := rfl

@[simp] theorem smModify_sm_writeBlock (s : State) (i : Nat) (f : Segment → Segment) :
    (smModify i f s).sm.writeBlock = s.sm.writeBlock := rfl

@[simp] theorem smModify_sm_writePage (s : State) (i : Nat) (f : Segment → Segment) :
    (smModify i f s).sm.writePage = s.sm.writePage := rfl

@[simp] theorem smModify_sm_abandoned (s : State) (i : Nat) (f : Segment → Segment) :
    (smModify i f s).sm.abandoned = s.sm.abandoned := rfl

@[simp] theorem smModify_sm_snapshot (s : State) (i : Nat) (f : Segment → Segment) :
    (smModify i f s).sm.snapshot = s.sm.snapshot := rfl

@[simp] theorem smModify_sm_snapshotsEnded (s : State) (i : Nat) (f : Segment → Segment) :
    (smModify i f s).sm.snapshotsEnded = s.sm.snapshotsEnded := rfl

@[simp] theorem smModify_sm_completeGeneration (s : State) (i : Nat) (f : Segment → Segment) :
    (smModify i f s).sm.completeGeneration = s.sm.completeGeneration := rfl

@[simp] theorem smModify_sm_view (s : State) (i : Nat) (f : Segment → Segment) :
    (smModify i f s).sm.view = s.sm.view := rfl

@[simp] theorem smModify_sm_mount (s : State) (i : Nat) (f : Segment → Segment) :
    (smModify i f s).sm.mount = s.sm.mount := rfl

@[simp] theorem smModify_sm_format (s : State) (i : Nat) (f : Segment → Segment) :
    (smModify i f s).sm.format = s.sm.format := rfl

/-! ### A snapshot is due -/

@[simp] theorem smDue_part (s : State) : (smDue s).part = s.part := rfl

@[simp] theorem smDue_rck (s : State) : (smDue s).rck = s.rck := rfl

@[simp] theorem smDue_mu (s : State) : (smDue s).mu = s.mu := rfl

@[simp] theorem smDue_pu (s : State) : (smDue s).pu = s.pu := rfl

@[simp] theorem smDue_fe (s : State) : (smDue s).fe = s.fe := rfl

@[simp] theorem smDue_cw (s : State) : (smDue s).cw = s.cw := rfl

@[simp] theorem smDue_cc (s : State) : (smDue s).cc = s.cc := rfl

@[simp] theorem smDue_ga (s : State) : (smDue s).ga = s.ga := rfl

@[simp] theorem smDue_hp (s : State) : (smDue s).hp = s.hp := rfl

@[simp] theorem smDue_mem (s : State) : (smDue s).mem = s.mem := rfl

@[simp] theorem smDue_pending (s : State) : (smDue s).pending = s.pending := rfl

@[simp] theorem smDue_sm_table (s : State) : (smDue s).sm.table = s.sm.table := rfl

@[simp] theorem smDue_sm_bps (s : State) : (smDue s).sm.bps = s.sm.bps := rfl

@[simp] theorem smDue_sm_sequence (s : State) : (smDue s).sm.sequence = s.sm.sequence := rfl

@[simp] theorem smDue_sm_clip (s : State) : (smDue s).sm.clip = s.sm.clip := rfl

@[simp] theorem smDue_sm_openFill (s : State) : (smDue s).sm.openFill = s.sm.openFill := rfl

@[simp] theorem smDue_sm_change (s : State) : (smDue s).sm.change = s.sm.change := rfl

@[simp] theorem smDue_sm_eraser (s : State) : (smDue s).sm.eraser = s.sm.eraser := rfl

@[simp] theorem smDue_sm_impactCount (s : State) : (smDue s).sm.impactCount = s.sm.impactCount := rfl

@[simp] theorem smDue_sm_hostCount (s : State) : (smDue s).sm.hostCount = s.sm.hostCount := rfl

@[simp] theorem smDue_sm_params (s : State) : (smDue s).sm.params = s.sm.params := rfl

@[simp] theorem smDue_sm_pending (s : State) : (smDue s).sm.pending = s.sm.pending := rfl

@[simp] theorem smDue_sm_generation (s : State) : (smDue s).sm.generation = s.sm.generation := rfl

@[simp] theorem smDue_sm_writeBlock (s : State) : (smDue s).sm.writeBlock = s.sm.writeBlock := rfl

@[simp] theorem smDue_sm_writePage (s : State) : (smDue s).sm.writePage = s.sm.writePage := rfl

@[simp] theorem smDue_sm_abandoned (s : State) : (smDue s).sm.abandoned = s.sm.abandoned := rfl

@[simp] theorem smDue_sm_snapshot (s : State) : (smDue s).sm.snapshot = s.sm.snapshot := rfl

@[simp] theorem smDue_sm_snapshotsEnded (s : State) : (smDue s).sm.snapshotsEnded = s.sm.snapshotsEnded := rfl

@[simp] theorem smDue_sm_completeGeneration (s : State) :
    (smDue s).sm.completeGeneration = s.sm.completeGeneration := rfl

@[simp] theorem smDue_sm_view (s : State) : (smDue s).sm.view = s.sm.view := rfl

@[simp] theorem smDue_sm_mount (s : State) : (smDue s).sm.mount = s.sm.mount := rfl

@[simp] theorem smDue_sm_format (s : State) : (smDue s).sm.format = s.sm.format := rfl

@[simp] theorem smDue_sm_segments (s : State) : (smDue s).sm.segments = s.sm.segments := rfl

/-! ### The end of snapshot writing (R104) -/

@[simp] theorem smEndSnapshots_part (s : State) : (smEndSnapshots s).part = s.part := rfl

@[simp] theorem smEndSnapshots_rck (s : State) : (smEndSnapshots s).rck = s.rck := rfl

@[simp] theorem smEndSnapshots_mu (s : State) : (smEndSnapshots s).mu = s.mu := rfl

@[simp] theorem smEndSnapshots_pu (s : State) : (smEndSnapshots s).pu = s.pu := rfl

@[simp] theorem smEndSnapshots_fe (s : State) : (smEndSnapshots s).fe = s.fe := rfl

@[simp] theorem smEndSnapshots_cw (s : State) : (smEndSnapshots s).cw = s.cw := rfl

@[simp] theorem smEndSnapshots_cc (s : State) : (smEndSnapshots s).cc = s.cc := rfl

@[simp] theorem smEndSnapshots_ga (s : State) : (smEndSnapshots s).ga = s.ga := rfl

@[simp] theorem smEndSnapshots_hp (s : State) : (smEndSnapshots s).hp = s.hp := rfl

@[simp] theorem smEndSnapshots_mem (s : State) : (smEndSnapshots s).mem = s.mem := rfl

@[simp] theorem smEndSnapshots_pending (s : State) : (smEndSnapshots s).pending = s.pending := rfl

@[simp] theorem smEndSnapshots_sm (s : State) : (smEndSnapshots s).sm = { s.sm with snapshotsEnded := true } := rfl

/-! ### The profile read (R174) -/

@[simp] theorem hpEndRead_idle {s : State} (h : s.hp.reading = none) : hpEndRead s = s := by simp [hpEndRead, h]

theorem hpEndRead_reading {s : State} {r : ProfileRead} (h : s.hp.reading = some r) :
    hpEndRead s = handValues r { s with hp.reading := none } := by simp [hpEndRead, h]

/-! ### The flash rail -/

@[simp] theorem feSwitchOn_part (s : State) : (feSwitchOn s).part = s.part := rfl

@[simp] theorem feSwitchOn_rck (s : State) : (feSwitchOn s).rck = s.rck := rfl

@[simp] theorem feSwitchOn_mu (s : State) : (feSwitchOn s).mu = s.mu := rfl

@[simp] theorem feSwitchOn_pu (s : State) : (feSwitchOn s).pu = s.pu := rfl

@[simp] theorem feSwitchOn_sm (s : State) : (feSwitchOn s).sm = s.sm := rfl

@[simp] theorem feSwitchOn_cw (s : State) : (feSwitchOn s).cw = s.cw := rfl

@[simp] theorem feSwitchOn_cc (s : State) : (feSwitchOn s).cc = s.cc := rfl

@[simp] theorem feSwitchOn_ga (s : State) : (feSwitchOn s).ga = s.ga := rfl

@[simp] theorem feSwitchOn_hp (s : State) : (feSwitchOn s).hp = s.hp := rfl

@[simp] theorem feSwitchOn_mem (s : State) : (feSwitchOn s).mem = s.mem := rfl

@[simp] theorem feSwitchOn_pending (s : State) : (feSwitchOn s).pending = s.pending := rfl

@[simp] theorem feSwitchOn_fe_idle (s : State) : (feSwitchOn s).fe.idle = s.fe.idle := rfl

@[simp] theorem feSwitchOn_fe_waiting (s : State) : (feSwitchOn s).fe.waiting = s.fe.waiting := rfl

@[simp] theorem feSwitchOn_fe_heldBack (s : State) : (feSwitchOn s).fe.heldBack = s.fe.heldBack := rfl

@[simp] theorem feSwitchOn_fe_inFlight (s : State) : (feSwitchOn s).fe.inFlight = s.fe.inFlight := rfl

@[simp] theorem feSwitchOn_fe_timeouts (s : State) : (feSwitchOn s).fe.timeouts = s.fe.timeouts := rfl

@[simp] theorem feSwitchOn_fe_identity (s : State) : (feSwitchOn s).fe.identity = s.fe.identity := rfl

@[simp] theorem feSwitchOn_fe_absent (s : State) : (feSwitchOn s).fe.absent = s.fe.absent := rfl

@[simp] theorem feSwitchOn_fe_worn (s : State) : (feSwitchOn s).fe.worn = s.fe.worn := rfl

@[simp] theorem feSwitchOn_fe_bad (s : State) : (feSwitchOn s).fe.bad = s.fe.bad := rfl

@[simp] theorem feSwitchOn_fe_pool (s : State) : (feSwitchOn s).fe.pool = s.fe.pool := rfl

@[simp] theorem feSwitchOn_fe_tableMap (s : State) : (feSwitchOn s).fe.tableMap = s.fe.tableMap := rfl

@[simp] theorem feSwitchOn_fe_settleMs (s : State) : (feSwitchOn s).fe.settleMs = s.fe.settleMs := rfl

@[simp] theorem feSwitchOn_fe_idleLoad (s : State) : (feSwitchOn s).fe.idleLoad = s.fe.idleLoad := rfl

@[simp] theorem feSwitchOff_part (s : State) : (feSwitchOff s).part = s.part := rfl

@[simp] theorem feSwitchOff_rck (s : State) : (feSwitchOff s).rck = s.rck := rfl

@[simp] theorem feSwitchOff_mu (s : State) : (feSwitchOff s).mu = s.mu := rfl

@[simp] theorem feSwitchOff_pu (s : State) : (feSwitchOff s).pu = s.pu := rfl

@[simp] theorem feSwitchOff_sm (s : State) : (feSwitchOff s).sm = s.sm := rfl

@[simp] theorem feSwitchOff_cw (s : State) : (feSwitchOff s).cw = s.cw := rfl

@[simp] theorem feSwitchOff_cc (s : State) : (feSwitchOff s).cc = s.cc := rfl

@[simp] theorem feSwitchOff_ga (s : State) : (feSwitchOff s).ga = s.ga := rfl

@[simp] theorem feSwitchOff_hp (s : State) : (feSwitchOff s).hp = s.hp := rfl

@[simp] theorem feSwitchOff_mem (s : State) : (feSwitchOff s).mem = s.mem := rfl

@[simp] theorem feSwitchOff_pending (s : State) : (feSwitchOff s).pending = s.pending := rfl

@[simp] theorem feSwitchOff_fe_idle (s : State) : (feSwitchOff s).fe.idle = s.fe.idle := rfl

@[simp] theorem feSwitchOff_fe_waiting (s : State) : (feSwitchOff s).fe.waiting = s.fe.waiting := rfl

@[simp] theorem feSwitchOff_fe_heldBack (s : State) : (feSwitchOff s).fe.heldBack = s.fe.heldBack := rfl

@[simp] theorem feSwitchOff_fe_inFlight (s : State) : (feSwitchOff s).fe.inFlight = s.fe.inFlight := rfl

@[simp] theorem feSwitchOff_fe_timeouts (s : State) : (feSwitchOff s).fe.timeouts = s.fe.timeouts := rfl

@[simp] theorem feSwitchOff_fe_identity (s : State) : (feSwitchOff s).fe.identity = s.fe.identity := rfl

@[simp] theorem feSwitchOff_fe_absent (s : State) : (feSwitchOff s).fe.absent = s.fe.absent := rfl

@[simp] theorem feSwitchOff_fe_worn (s : State) : (feSwitchOff s).fe.worn = s.fe.worn := rfl

@[simp] theorem feSwitchOff_fe_bad (s : State) : (feSwitchOff s).fe.bad = s.fe.bad := rfl

@[simp] theorem feSwitchOff_fe_pool (s : State) : (feSwitchOff s).fe.pool = s.fe.pool := rfl

@[simp] theorem feSwitchOff_fe_tableMap (s : State) : (feSwitchOff s).fe.tableMap = s.fe.tableMap := rfl

@[simp] theorem feSwitchOff_fe_settleMs (s : State) : (feSwitchOff s).fe.settleMs = s.fe.settleMs := rfl

@[simp] theorem feSwitchOff_fe_idleLoad (s : State) : (feSwitchOff s).fe.idleLoad = s.fe.idleLoad := rfl

/-! ### The end of a Run -/

@[simp] theorem rckStop_part (s : State) : (rckStop s).part = s.part := rfl

@[simp] theorem rckStop_mu (s : State) : (rckStop s).mu = s.mu := rfl

@[simp] theorem rckStop_pu (s : State) : (rckStop s).pu = s.pu := rfl

@[simp] theorem rckStop_fe (s : State) : (rckStop s).fe = s.fe := rfl

@[simp] theorem rckStop_sm (s : State) : (rckStop s).sm = s.sm := rfl

@[simp] theorem rckStop_cw (s : State) : (rckStop s).cw = s.cw := rfl

@[simp] theorem rckStop_cc (s : State) : (rckStop s).cc = s.cc := rfl

@[simp] theorem rckStop_ga (s : State) : (rckStop s).ga = s.ga := rfl

@[simp] theorem rckStop_hp (s : State) : (rckStop s).hp = s.hp := rfl

@[simp] theorem rckStop_mem (s : State) : (rckStop s).mem = s.mem := rfl

@[simp] theorem rckStop_pending (s : State) : (rckStop s).pending = s.pending := rfl

@[simp] theorem rckStop_rck_nextChargeTick (s : State) : (rckStop s).rck.nextChargeTick = s.rck.nextChargeTick := rfl

@[simp] theorem rckStop_rck_activePeriod (s : State) : (rckStop s).rck.activePeriod = s.rck.activePeriod := rfl

@[simp] theorem rckStop_rck_pendingPeriod (s : State) : (rckStop s).rck.pendingPeriod = s.rck.pendingPeriod := rfl

@[simp] theorem rckStop_rck_filterLength (s : State) : (rckStop s).rck.filterLength = s.rck.filterLength := rfl

@[simp] theorem rckStop_rck_pendingFilterLength (s : State) :
    (rckStop s).rck.pendingFilterLength = s.rck.pendingFilterLength := rfl

@[simp] theorem rckStop_rck_minInterval (s : State) : (rckStop s).rck.minInterval = s.rck.minInterval := rfl

@[simp] theorem rckStop_rck_pendingMinInterval (s : State) :
    (rckStop s).rck.pendingMinInterval = s.rck.pendingMinInterval := rfl

@[simp] theorem rckStop_rck_lastAccepted (s : State) : (rckStop s).rck.lastAccepted = s.rck.lastAccepted := rfl

@[simp] theorem rckStop_rck_lastInterval (s : State) : (rckStop s).rck.lastInterval = s.rck.lastInterval := rfl

@[simp] theorem rckStop_rck_nextFrame (s : State) : (rckStop s).rck.nextFrame = s.rck.nextFrame := rfl

@[simp] theorem rckStop_rck_glitches (s : State) : (rckStop s).rck.glitches = s.rck.glitches := rfl

@[simp] theorem rckStop_rck_line (s : State) : (rckStop s).rck.line = s.rck.line := rfl

@[simp] theorem rckStop_rck_clock (s : State) : (rckStop s).rck.clock = s.rck.clock := rfl

/-! ### Registers -/

@[simp] theorem clearRegisters_part (s : State) : (clearRegisters s).part = s.part := rfl

@[simp] theorem clearRegisters_rck (s : State) : (clearRegisters s).rck = s.rck := rfl

@[simp] theorem clearRegisters_mu (s : State) : (clearRegisters s).mu = s.mu := rfl

@[simp] theorem clearRegisters_pu (s : State) : (clearRegisters s).pu = s.pu := rfl

@[simp] theorem clearRegisters_fe (s : State) : (clearRegisters s).fe = s.fe := rfl

@[simp] theorem clearRegisters_sm (s : State) : (clearRegisters s).sm = s.sm := rfl

@[simp] theorem clearRegisters_cw (s : State) : (clearRegisters s).cw = s.cw := rfl

@[simp] theorem clearRegisters_cc (s : State) : (clearRegisters s).cc = s.cc := rfl

@[simp] theorem clearRegisters_ga (s : State) : (clearRegisters s).ga = s.ga := rfl

@[simp] theorem clearRegisters_mem (s : State) : (clearRegisters s).mem = s.mem := rfl

@[simp] theorem clearRegisters_pending (s : State) : (clearRegisters s).pending = s.pending := rfl

@[simp] theorem clearRegisters_hp_latch (s : State) : (clearRegisters s).hp.latch = s.hp.latch := rfl

@[simp] theorem clearRegisters_hp_inForce (s : State) : (clearRegisters s).hp.inForce = s.hp.inForce := rfl

@[simp] theorem clearRegisters_hp_reading (s : State) : (clearRegisters s).hp.reading = s.hp.reading := rfl

@[simp] theorem clearRegisters_hp_reloadHeld (s : State) : (clearRegisters s).hp.reloadHeld = s.hp.reloadHeld := rfl

@[simp] theorem clearRegisters_hp_clamped (s : State) : (clearRegisters s).hp.clamped = s.hp.clamped := rfl

@[simp] theorem clearRegisters_hp_status (s : State) : (clearRegisters s).hp.status = s.hp.status := rfl

@[simp] theorem clearRegisters_hp_statusGeneration (s : State) :
    (clearRegisters s).hp.statusGeneration = s.hp.statusGeneration := rfl

@[simp] theorem clearRegisters_hp_data (s : State) : (clearRegisters s).hp.data = s.hp.data := rfl

/-! ### The setpoint -/

@[simp] theorem ccSetpoint_part (s : State) : (ccSetpoint s).part = s.part := rfl

@[simp] theorem ccSetpoint_rck (s : State) : (ccSetpoint s).rck = s.rck := rfl

@[simp] theorem ccSetpoint_mu (s : State) : (ccSetpoint s).mu = s.mu := rfl

@[simp] theorem ccSetpoint_pu (s : State) : (ccSetpoint s).pu = s.pu := rfl

@[simp] theorem ccSetpoint_fe (s : State) : (ccSetpoint s).fe = s.fe := rfl

@[simp] theorem ccSetpoint_sm (s : State) : (ccSetpoint s).sm = s.sm := rfl

@[simp] theorem ccSetpoint_cw (s : State) : (ccSetpoint s).cw = s.cw := rfl

@[simp] theorem ccSetpoint_ga (s : State) : (ccSetpoint s).ga = s.ga := rfl

@[simp] theorem ccSetpoint_hp (s : State) : (ccSetpoint s).hp = s.hp := rfl

@[simp] theorem ccSetpoint_mem (s : State) : (ccSetpoint s).mem = s.mem := rfl

@[simp] theorem ccSetpoint_pending (s : State) : (ccSetpoint s).pending = s.pending := rfl

/-! ### The reset of the Host Port and the first identity read -/

@[simp] theorem hpAfterReset_resetn (h : Hp) : hpAfterReset true h = { Hp.reset with data := h.data } := rfl

@[simp] theorem hpAfterReset_soft (h : Hp) :
    hpAfterReset false h = { Hp.reset with directory := h.directory, events := h.events, mask := h.mask, data := h.data } :=
  rfl

/-- With no profile read going on, the identity reads begin. -/
theorem muIdentify_of_noRead {s : State} (h : s.hp.reading = none) : muIdentify s = muBegin s := by
  simp [muIdentify, runReading, h]

/-- While the Run's read goes on, no transaction begins. -/
theorem muIdentify_of_runRead {s : State} {v : Profiles} (h : s.hp.reading = some ⟨v, true⟩) : muIdentify s = s := by
  simp [muIdentify, runReading, h]

/-- All that the begin of a transaction can do. -/
theorem muIdentify_eq (s : State) : ∃ x, muIdentify s = { s with mu.txn := x } := by
  unfold muIdentify muBegin
  repeat' split
  all_goals exact ⟨_, rfl⟩

end Sys2Proof.Machine
end

