-- ==== Sys2Proof/Laws/Calm.lean ====
section
/-! SUPPORT. In a calm state nothing goes on by itself: the mount and Format, the writer and the intake leave it as it is,
so a command that ends in a calm state ends with its own effect. -/

namespace Sys2Proof.Machine

variable {s : State}

/-- No mount and no Format goes on where there is none (R93, R105, R106). -/
theorem smGoOn_idle (hm : s.sm.mount = none) (hf : s.sm.format = none) : smGoOn s = s := by
  unfold smGoOn
  split
  · rfl
  · simp only [hm, hf]

/-- An empty queue publishes nothing (R115). -/
theorem cwPublish_empty (h : s.cw.queue = []) : cwPublish s = s := by
  unfold cwPublish
  rw [h]
  unfold publishFrom
  have : s.cw = { s.cw with queue := [] } := by rw [← h]
  rw [← this]

/-- A queue whose oldest entry is not ready publishes nothing (R115). -/
theorem cwPublish_waiting {e : QueueEntry} {rest : List QueueEntry} (h : s.cw.queue = e :: rest)
    (he : e.result = none) : cwPublish s = s := by
  unfold cwPublish
  rw [h]
  unfold publishFrom
  rw [he]
  dsimp only
  have : s.cw = { s.cw with queue := e :: rest } := by rw [← h]
  rw [← this]

/-- No stop event waits, so that none takes effect (R123). -/
theorem stopReady_none {c : Cw} (h : c.stopDue = none) : stopReady c = none := by
  unfold stopReady
  rw [h]
  rfl

/-- The writer has no step to take without work (R123, R125). -/
theorem cwStep_idle (hj : s.cw.job = .idle) (ha : s.cw.reappend = []) (hr : s.cw.resume = none)
    (hd : s.cw.stopDue = none) (hf : s.cw.assembly.length < 8192) (hc : s.cw.writer ≠ .closing) : cwStep s = none := by
  unfold cwStep
  simp only [stopReady_none hd]
  split
  · rfl
  · have hn : assemblyFull s.cw = false := by
      unfold assemblyFull
      simp only [decide_eq_false_iff_not]; omega
    simp [hn, cwJobStep, hj, cwIdleStep, ha, hr, hc]

/-- Nor while it waits for flash or for the Segment Manager (R125, R128). -/
theorem cwStep_waiting (hd : s.cw.stopDue = none)
    (h : s.cw.reloc.isSome ∨ s.cw.programming = true ∨ s.sm.change.isSome) : cwStep s = none := by
  unfold cwStep
  simp only [stopReady_none hd, if_pos h]

/-- No step means no steps. -/
theorem cwSteps_none (n : Nat) (h : cwStep s = none) : cwSteps n s = s := by
  cases n with
  | zero => rfl
  | succ n => simp only [cwSteps, h]

/-- Without a step to take the writer only publishes. -/
theorem cwRun_none (h : cwStep s = none) (hp : cwPublish s = s) : cwRun s = s := by
  unfold cwRun
  split
  · rfl
  · rw [cwSteps_none _ h, hp]

/-- No mark waits (R99). -/
theorem smIntake_none (h : s.mu.marks = []) : smIntake s = s := by
  unfold smIntake
  rw [h]
  rfl

/-- Nothing follows a command that ends calm. -/
theorem finish_of (hg : s.ga.sysen = true) (hm : smGoOn s = s) (hw : cwRun s = s) (hk : smIntake s = s) :
    finish s = s := by
  unfold finish
  split
  · rfl
  · simp only [hm, hw, hk, hg, if_true]

theorem Still.writer (h : Still s) : cwRun s = s :=
  cwRun_none (cwStep_idle h.noJob h.noReappend h.noResume h.noStopDue h.notFull h.notClosing)
    (cwPublish_empty h.noRequest)

/-- Nothing follows a command that ends calm. -/
theorem Calm.finish (h : Calm s) : finish s = s :=
  finish_of h.asserted (smGoOn_idle h.noMount h.noFormat) h.toStill.writer (smIntake_none h.noMarks)

/-- Nothing follows a command that ends still, while a mount or a Format waits for the flash. -/
theorem Still.finish (h : Still s) (hm : smGoOn s = s) : finish s = s :=
  finish_of h.asserted hm h.writer (smIntake_none h.noMarks)

/-- A queue whose oldest entry, if there is one, is not ready publishes nothing (R115). -/
theorem cwPublish_unready (h : ∀ e, s.cw.queue.head? = some e → e.result = none) : cwPublish s = s := by
  cases hq : s.cw.queue with
  | nil => exact cwPublish_empty hq
  | cons e rest => exact cwPublish_waiting hq (h e (by rw [hq]; rfl))

/-- A calm state rests. -/
theorem Calm.resting (h : Calm s) : Resting s where
  powered := h.powered
  asserted := h.asserted
  oldestUnready e he := by rw [h.noRequest] at he; cases he
  noJob := h.noJob
  noReappend := h.noReappend
  noResume := h.noResume
  noStopDue := h.noStopDue
  notFull := .inl h.notFull
  notClosing := .inl h.notClosing
  noMarks := h.noMarks
  noMount := h.noMount
  noFormat := h.noFormat

theorem Resting.writer (h : Resting s) : cwRun s = s := by
  refine cwRun_none ?_ (cwPublish_unready h.oldestUnready)
  by_cases hp : s.cw.programming = true
  · exact cwStep_waiting h.noStopDue (.inr (.inl hp))
  · exact cwStep_idle h.noJob h.noReappend h.noResume h.noStopDue (h.notFull.resolve_right hp)
      (h.notClosing.resolve_right hp)

/-- Nothing follows a command that ends with the requests waiting for their pages. -/
theorem Resting.finish (h : Resting s) : finish s = s :=
  finish_of h.asserted (smGoOn_idle h.noMount h.noFormat) h.writer (smIntake_none h.noMarks)

/-- A live command that ends calm ends with its own effect. -/
theorem live_calm {f : State → State} (hp : s.part.state ≠ .off) (h : Calm (f s)) : live f s = f s := by
  unfold live
  rw [if_neg hp, h.finish]

/-- A powered command is its own effect. -/
theorem powered_on {f : State → State} (hp : s.part.state ≠ .off) : powered f s = f s := if_neg hp

end Sys2Proof.Machine
end

