-- ==== Sys2Proof/Laws/Frames.lean ====
section
/-! SUPPORT. The laws of the frame record table (R38, R42): what keeps them, and what opens a frame. -/

namespace Sys2Proof.Machine

variable {s t : State}

/-! ### Shadows that settle -/

theorem Settles.refl (a : List Shadow) : Settles a a := fun _ h hi hn => ⟨rfl, h, hi, hn, rfl⟩

theorem Settles.of_eq {a b : List Shadow} (h : b = a) : Settles a b := h ▸ Settles.refl a

theorem Settles.trans {a b c : List Shadow} (h : Settles a b) (k : Settles b c) : Settles a c := by
  intro i x hx hn
  obtain ⟨hl, y, hy, hyn, hyf⟩ := k i x hx hn
  obtain ⟨hl', z, hz, hzn, hzf⟩ := h i y hy hyn
  exact ⟨hl.trans hl', z, hz, hzn, hzf.trans hyf⟩

/-- A change of one shadow that opens no entry. -/
theorem Settles.modify {a : List Shadow} {i : Nat} {f : Shadow → Shadow}
    (h : ∀ x, a[i]? = some x → (f x).state ≠ .free → x.state ≠ .free ∧ (f x).frame = x.frame) :
    Settles a (modifyAt f i a) := by
  intro j x hx hn
  refine ⟨modifyAt_length f i a, ?_⟩
  rw [modifyAt_get] at hx
  split at hx
  · subst i
    obtain ⟨y, hy, rfl⟩ := Option.map_eq_some_iff.1 hx
    obtain ⟨h1, h2⟩ := h y hy hn
    exact ⟨y, hy, h1, h2.symm⟩
  · exact ⟨x, hx, hn, rfl⟩

/-- A change of every shadow that opens no entry. -/
theorem Settles.map {a : List Shadow} {f : Shadow → Shadow}
    (h : ∀ x, (f x).state ≠ .free → x.state ≠ .free ∧ (f x).frame = x.frame) : Settles a (a.map f) := by
  intro j x hx hn
  refine ⟨List.length_map f, ?_⟩
  rw [List.getElem?_map] at hx
  obtain ⟨y, hy, rfl⟩ := Option.map_eq_some_iff.1 hx
  obtain ⟨h1, h2⟩ := h y hn
  exact ⟨y, hy, h1, h2.symm⟩

/-- A table of Free entries. -/
theorem Settles.allFree {a b : List Shadow} (h : ∀ x ∈ b, x.state = .free) : Settles a b :=
  fun _ x hx hn => absurd (h x (List.mem_of_getElem? hx)) hn

/-! ### The laws -/

/-- The laws of the frames hold where no entry has been opened and the rest is as it was. -/
theorem FrameLaws.settled (l : FrameLaws s) (hs : Settles s.pu.shadows t.pu.shadows)
    (hn : t.rck.nextFrame = s.rck.nextFrame) (hf : t.rck.filter ≠ .off → s.rck.filter ≠ .off)
    (hp : t.part.state = s.part.state) (ht : t.part.transition = s.part.transition) : FrameLaws t where
  placed := by
    intro i h hi hnf
    obtain ⟨hl, g, hg, hgf, hfr⟩ := hs i h hi hnf
    have := l.placed i g hg hgf
    unfold nextNumber at *
    rw [hn, hl, ← hfr]
    exact this
  number := by rw [hn]; exact l.number
  filter := fun h => by rw [hp]; exact l.filter (hf h)
  mounting := fun hm h hh => by
    by_contra hnf
    obtain ⟨i, hi⟩ := List.mem_iff_getElem?.1 hh
    obtain ⟨-, g, hg, hgf, -⟩ := hs i h hi hnf
    exact hgf (l.mounting (hp ▸ hm) g (List.mem_of_getElem? hg))
  leaving := fun h => by rw [ht] at h; rw [hp]; exact l.leaving h

/-- The same where the part comes to a state, not Mounting, in which the filter is off. -/
theorem FrameLaws.parted (l : FrameLaws s) (hs : Settles s.pu.shadows t.pu.shadows)
    (hn : t.rck.nextFrame = s.rck.nextFrame) (hf : t.rck.filter ≠ .off → t.part.state = .running)
    (hp : t.part.state ≠ .mounting)
    (ht : t.part.transition = .standby ∨ t.part.transition = .reset → t.part.state = .idle) : FrameLaws t where
  placed := by
    intro i h hi hnf
    obtain ⟨hl, g, hg, hgf, hfr⟩ := hs i h hi hnf
    have := l.placed i g hg hgf
    unfold nextNumber at *
    rw [hn, hl, ← hfr]
    exact this
  number := by rw [hn]; exact l.number
  filter := hf
  mounting := fun hm => absurd hm hp
  leaving := ht

/-- The laws of a table of Free entries. -/
theorem FrameLaws.allFree (hs : ∀ x ∈ t.pu.shadows, x.state = .free)
    (hn : ∀ n, t.rck.nextFrame = .number n → n < 2 ^ 32) (hf : t.rck.filter ≠ .off → t.part.state = .running)
    (ht : t.part.transition = .standby ∨ t.part.transition = .reset → t.part.state = .idle) : FrameLaws t where
  placed := fun _ x hx hnf => absurd (hs x (List.mem_of_getElem? hx)) hnf
  number := hn
  filter := hf
  mounting := fun _ => hs
  leaving := ht

/-- Outside Running the filter is off (R8). -/
theorem FrameLaws.filterOff (l : FrameLaws s) (h : s.part.state ≠ .running) : s.rck.filter = .off := by
  by_contra hf
  exact h (l.filter hf)

end Sys2Proof.Machine
end

