-- ==== Sys2Proof/Laws/Memory.lean ====
section
/-! SUPPORT. The Buffer RAM: the canonical form is kept by every write, a read after a write gives what was written, and a
write leaves every other byte as it was. -/

namespace Sys2Proof.Machine

/-! ### The canonical form -/

/-- The canonical form of a list with a first entry. -/
theorem memoryWf_cons (k : Nat) (v : Byte) (rest : List Host.Cell) :
    memoryWf ((k, v) :: rest) = true ↔
      k < ramBytes ∧ v ≠ unwritten ∧ memoryWf rest = true ∧ ∀ c ∈ rest, k < c.1 := by
  induction rest generalizing k v with
  | nil => simp [memoryWf]
  | cons c rest ih =>
    obtain ⟨k', v'⟩ := c
    simp only [memoryWf, Bool.and_eq_true, decide_eq_true_eq, List.mem_cons, forall_eq_or_imp]
    constructor
    · rintro ⟨⟨⟨h1, h2⟩, h3⟩, h4⟩
      refine ⟨h2, h3, h4, h1, fun c hc => ?_⟩
      exact lt_trans h1 (((ih k' v').1 h4).2.2.2 c hc)
    · rintro ⟨h1, h2, h3, h4, _⟩
      exact ⟨⟨⟨h4, h1⟩, h2⟩, h3⟩

/-- The addresses of a write are those of the memory and the one written. -/
theorem mem_writeCell {m : List Host.Cell} {a : Nat} {v : Byte} {c : Host.Cell} (h : c ∈ writeCell m a v) :
    c ∈ m ∨ c.1 = a := by
  induction m with
  | nil =>
    simp only [writeCell] at h
    split at h <;> simp_all
  | cons d rest ih =>
    obtain ⟨k, w⟩ := d
    simp only [writeCell] at h
    split at h
    · split at h
      · exact .inl h
      · rcases List.mem_cons.1 h with rfl | h
        · exact .inr rfl
        · exact .inl h
    · split at h
      · split at h
        · exact .inl (List.mem_cons_of_mem _ h)
        · rcases List.mem_cons.1 h with rfl | h
          · exact .inr rfl
          · exact .inl (List.mem_cons_of_mem _ h)
      · rcases List.mem_cons.1 h with rfl | h
        · exact .inl List.mem_cons_self
        · exact (ih h).imp_left (List.mem_cons_of_mem _)

/-- A write of one byte keeps the canonical form. -/
theorem writeCell_wf {m : List Host.Cell} {a : Nat} (v : Byte) (h : memoryWf m = true) (ha : a < ramBytes) :
    memoryWf (writeCell m a v) = true := by
  induction m with
  | nil =>
    simp only [writeCell]
    split
    · rfl
    · exact (memoryWf_cons _ _ _).2 ⟨ha, ‹_›, rfl, by simp⟩
  | cons d rest ih =>
    obtain ⟨k, w⟩ := d
    obtain ⟨hk, hw, hr, hlt⟩ := (memoryWf_cons k w rest).1 h
    simp only [writeCell]
    split
    · split
      · exact h
      · refine (memoryWf_cons _ _ _).2 ⟨ha, ‹_›, h, fun c hc => ?_⟩
        rcases List.mem_cons.1 hc with rfl | hc
        · assumption
        · exact lt_trans ‹a < k› (hlt c hc)
    · split
      · split
        · exact hr
        · exact (memoryWf_cons _ _ _).2 ⟨ha, ‹_›, hr, fun c hc => by have := hlt c hc; omega⟩
      · refine (memoryWf_cons _ _ _).2 ⟨hk, hw, ih hr, fun c hc => ?_⟩
        rcases mem_writeCell hc with hc | hc
        · exact hlt c hc
        · omega

/-- A write of bytes keeps the canonical form. -/
theorem writeCells_wf {m : List Host.Cell} (a : Nat) (bytes : List Byte) (h : memoryWf m = true) :
    memoryWf (writeCells m a bytes) = true := by
  induction bytes generalizing m a with
  | nil => exact h
  | cons v rest ih =>
    simp only [writeCells]
    split
    · exact ih _ (writeCell_wf v h ‹_›)
    · exact ih _ h

/-- A store keeps the canonical form. -/
theorem store_wf (s : State) (a : Nat) (bytes : List Byte) (h : memoryWf s.mem = true) :
    memoryWf (s.store a bytes).mem = true :=
  writeCells_wf a bytes h

/-- The Buffer RAM has the canonical form after power-on reset. -/
theorem reset_wf : memoryWf State.reset.mem = true := rfl

/-! ### Reads after writes -/

/-- An address below every entry reads as unwritten. -/
theorem readCell_below {m : List Host.Cell} {a : Nat} (h : ∀ c ∈ m, a < c.1) : readCell m a = unwritten := by
  induction m with
  | nil => rfl
  | cons d rest ih =>
    obtain ⟨k, w⟩ := d
    have hk : a < k := h (k, w) List.mem_cons_self
    simp only [readCell, if_neg (show ¬k = a by omega)]
    exact ih fun c hc => h c (List.mem_cons_of_mem _ hc)

/-- A write leaves every other byte as it was. -/
theorem readCell_writeCell_other (m : List Host.Cell) {a b : Nat} (v : Byte) (h : b ≠ a) :
    readCell (writeCell m a v) b = readCell m b := by
  induction m with
  | nil =>
    simp only [writeCell]
    split
    · rfl
    · simp [readCell, Ne.symm h]
  | cons d rest ih =>
    obtain ⟨k, w⟩ := d
    simp only [writeCell]
    split
    · split
      · rfl
      · simp [readCell, Ne.symm h]
    · split
      · subst a
        split <;> simp [readCell, Ne.symm h]
      · simp only [readCell, ih]

/-- A read of the byte written gives what was written. -/
theorem readCell_writeCell_same {m : List Host.Cell} (a : Nat) (v : Byte) (h : memoryWf m = true) :
    readCell (writeCell m a v) a = v := by
  induction m with
  | nil =>
    simp only [writeCell]
    split <;> simp_all [readCell]
  | cons d rest ih =>
    obtain ⟨k, w⟩ := d
    obtain ⟨_, _, hr, hlt⟩ := (memoryWf_cons k w rest).1 h
    simp only [writeCell]
    split
    · split
      · rw [readCell_below, ‹v = unwritten›]
        intro c hc
        rcases List.mem_cons.1 hc with rfl | hc
        · assumption
        · exact lt_trans ‹a < k› (hlt c hc)
      · simp [readCell]
    · split
      · subst a
        split
        · rw [readCell_below hlt, ‹v = unwritten›]
        · simp [readCell]
      · simp only [readCell, if_neg (show ¬k = a by omega)]
        exact ih hr

/-- A write of bytes leaves every byte outside them as it was. -/
theorem readCell_writeCells_other (m : List Host.Cell) (a : Nat) (bytes : List Byte) {b : Nat}
    (h : b < a ∨ a + bytes.length ≤ b) : readCell (writeCells m a bytes) b = readCell m b := by
  induction bytes generalizing m a with
  | nil => rfl
  | cons v rest ih =>
    simp only [List.length_cons] at h
    simp only [writeCells]
    rw [ih _ _ (by omega)]
    split
    · exact readCell_writeCell_other m v (by omega)
    · rfl

/-- A read of a byte written among others gives what was written, inside the Buffer RAM. -/
theorem readCell_writeCells_same {m : List Host.Cell} (a : Nat) (bytes : List Byte) (i : Nat)
    (h : memoryWf m = true) (hi : i < bytes.length) (hr : a + i < ramBytes) :
    readCell (writeCells m a bytes) (a + i) = bytes[i] := by
  induction bytes generalizing m a i with
  | nil => simp at hi
  | cons v rest ih =>
    simp only [writeCells]
    cases i with
    | zero =>
      rw [readCell_writeCells_other _ _ _ (by omega)]
      simp only [Nat.add_zero] at hr
      simp [hr, readCell_writeCell_same a v h]
    | succ i =>
      have hi' : i < rest.length := by simpa using hi
      have := ih (m := if a < ramBytes then writeCell m a v else m) (a + 1) i
        (by split
            · exact writeCell_wf v h ‹_›
            · exact h) hi' (by omega)
      simpa [Nat.add_assoc, Nat.add_comm 1 i] using this

/-- What one store can do: every byte outside it reads as before. -/
theorem store_frame (s : State) (a : Nat) (bytes : List Byte) (b : Nat) (h : b < a ∨ a + bytes.length ≤ b) :
    readCell (s.store a bytes).mem b = readCell s.mem b :=
  readCell_writeCells_other s.mem a bytes h

end Sys2Proof.Machine
end

