-- ==== Sys2Proof/Laws/MountBegin.lean ====
section
/-! SUPPORT. The beginning of a mount (R105, R181): from the wait for SM's operation until its table is read, the count of
impact protection is not in force. -/

namespace Sys2Proof.Machine

variable {s : State}

/-- The states of the table, the mount and the Format. -/
abbrev phase (m : Sm) := (m.table, m.mount, m.format)

/-! ### What leaves the Segment Manager as it was -/

theorem publishFrom_sm (l : List QueueEntry) (s : State) : (publishFrom l s).sm = s.sm := by
  induction l generalizing s with
  | nil => rfl
  | cons e l ih =>
    unfold publishFrom
    split
    · rfl
    · rw [ih, raise_sm]
      unfold publishSlot
      split
      · rfl
      · simp only [store_sm]

theorem puStore_sm (i : Nat) (groups : List (Nat × List Byte)) (s : State) : (puStore i groups s).sm = s.sm := by
  unfold puStore
  split
  · rfl
  · have : ∀ (a : Nat) (l : List (Nat × List Byte)) (u : State),
        (l.foldl (fun s g => s.store (a + g.1) g.2) u).sm = u.sm := by
      intro a l
      induction l with
      | nil => exact fun u => rfl
      | cons g l ih => exact fun u => (ih _).trans rfl
    exact this _ _ _

theorem puScanEntry_sm (i : Nat) (s : State) : (puScanEntry i s).sm = s.sm := by
  unfold puScanEntry
  dsimp only
  split
  · split
    · exact puStore_sm _ _ _
    · rfl
  · rfl

theorem puWriterDone_sm (s : State) : (puWriterDone s).sm = s.sm := by
  unfold puWriterDone puSetNotNeeded
  generalize indicesWhere _ s.pu.shadows = l
  induction l generalizing s with
  | nil => rfl
  | cons i l ih => exact (ih _).trans (puScanEntry_sm _ _)

theorem gaCheck_sm (s : State) : (gaCheck s).sm = s.sm := by
  unfold gaCheck
  split <;> rfl

theorem cwSetWriter_sm (w : WriterState) (s : State) : (cwSetWriter w s).sm = s.sm := by
  unfold cwSetWriter
  split
  · rfl
  · exact raise_sm _ _

/-! ### What leaves its phases as they were -/

theorem cwStopEvent_sm (cause : StopCause) (s : State) : (cwStopEvent cause s).sm = s.sm := by
  unfold cwStopEvent cwApplyStop cwEnterClosing
  repeat' split
  · rfl
  · exact cwSetWriter_sm _ _
  · rfl
  · rfl

theorem smWriteView_sm (s : State) : (smWriteView s).sm = s.sm := by
  unfold smWriteView
  split
  · rfl
  · simp only [store_sm]

theorem smRewriteAbandoned_phase (s : State) : phase (smRewriteAbandoned s).sm = phase s.sm := by
  unfold smRewriteAbandoned
  split
  · rw [smWriteView_sm]
  · rfl

theorem smCloseOpen_phase (v : CloseValues) (s : State) : phase (smCloseOpen v s).sm = phase s.sm := by
  unfold smCloseOpen
  split
  · rfl
  · rw [raise_sm]
    rfl

theorem cwGoFaulted_phase (s : State) : phase (cwGoFaulted s).sm = phase s.sm := by
  have h : phase (cwDropWork (smRewriteAbandoned (smCloseOpen { closeValues s with endTime := s.now } s))).sm
      = phase s.sm := (smRewriteAbandoned_phase _).trans (smCloseOpen_phase _ _)
  unfold cwGoFaulted cwReportClosed cwPublish
  rw [gaCheck_sm, puWriterDone_sm, publishFrom_sm, cwSetWriter_sm]
  exact h

theorem cwEnterFaulted_phase (s : State) : phase (cwEnterFaulted s).sm = phase s.sm := by
  unfold cwEnterFaulted
  split
  · rfl
  · exact cwGoFaulted_phase s

theorem feArrive_sm (r : Requester) (op : FlashOp) (s : State) : (feArrive r op s).2.sm = s.sm := by
  unfold feArrive feJoin feGrant feGrantRequest feIssueOp
  dsimp only
  repeat' split
  all_goals rfl

/-! ### A mount that waits -/

/-- A mount waits for SM's operation, with no Format (R105). -/
def Waits (m : Sm) : Prop := m.mount = some .finishing ∧ m.format = none

theorem Waits.of_phase {m n : Sm} (h : Waits m) (k : phase n = phase m) : Waits n := by
  simp only [Prod.mk.injEq] at k
  exact ⟨k.2.1.trans h.1, k.2.2.trans h.2⟩

/-- The count is not in force (R106). -/
theorem Waits.uncounted {m : Sm} (h : Waits m) : counted m = false := by simp [counted, h.1]

theorem smWorkFails_waits (h : Waits s.sm) : smWorkFails s = s := by
  have hn : ¬ s.sm.format.isSome = true := by simp [h.2]
  unfold smWorkFails
  rw [if_neg hn, h.1]

/-- A FlashFailed to the table writer leaves a mount that waits waiting (R104). -/
theorem flashAsk_waits (op : FlashOp) (h : Waits s.sm) : Waits (flashAsk .tableWriter op s).sm := by
  unfold flashAsk
  dsimp only
  split
  · refine Waits.of_phase ?_ (cwEnterFaulted_phase _)
    have hw : Waits (smRequesterFailed .tableWriter (smEndSnapshots (feArrive .tableWriter op s).2)).sm := by
      refine Waits.of_phase h ?_
      simp only [smRequesterFailed, smEndSnapshots_sm, feArrive_sm]
    unfold smFlashFailed
    rw [smWorkFails_waits hw]
    exact hw
  · rw [feArrive_sm]
    exact h

theorem smAskPage_waits (h : Waits s.sm) : Waits (smAskPage s).sm := by
  unfold smAskPage
  split
  · exact h
  · exact flashAsk_waits _ h

theorem smAbandon_waits (h : Waits s.sm) : Waits (smAbandon s).sm := by
  unfold smAbandon
  rw [cwStopEvent_sm]
  exact h

theorem smNewSnapshot_waits (h : Waits s.sm) : Waits (smNewSnapshot s).2.sm := by
  unfold smNewSnapshot smRecordFill
  dsimp only
  split
  · exact h
  · exact h

theorem smBegin_waits (h : Waits s.sm) : Waits (smBegin s).sm := by
  unfold smBegin smMoveBlock smAskTableErase
  dsimp only
  split
  · exact smAbandon_waits h
  · split
    · exact smAskPage_waits (smNewSnapshot_waits h)
    · split
      · exact smAbandon_waits (smNewSnapshot_waits h)
      · exact flashAsk_waits _ (smNewSnapshot_waits h)

theorem smFlush_waits (h : Waits s.sm) : Waits (smFlush s).sm := by
  unfold smFlush
  split
  · exact h
  · refine Waits.of_phase ?_ (smRewriteAbandoned_phase _)
    split
    · exact smBegin_waits h
    · exact h

/-! ### A mount that begins -/

/-- A table that is not mounted, and no mount that has counted. -/
theorem uncounted_of {m : Sm} {x : TableState × Option MountPhase × Option FormatPhase} (h : phase m = x)
    (ht : x.1 ≠ .mounted) (hm : x.2.1 ≠ some .finalSnapshot) : counted m = false := by
  subst h
  simp only at ht hm
  simp [counted, ht, hm]

/-- A mount that fails (R105). -/
theorem smMountFails_phase (x : TableState) (h : s.sm.format = none) :
    phase (smMountFails x s).sm = (x, none, none) := by
  unfold smMountFails smEmptyView
  refine (cwGoFaulted_phase _).trans ?_
  rw [smWriteView_sm, ← h]

theorem smWorkFails_begun (hm : s.sm.mount = some .readId) (hf : s.sm.format = none) :
    smWorkFails s = smMountFails .failed s := by
  have hn : ¬ s.sm.format.isSome = true := by simp [hf]
  unfold smWorkFails
  rw [if_neg hn, hm]

/-- A request of a mount that has begun, refused or not (R72, R105). -/
theorem flashAsk_begun (op : FlashOp) (h : phase s.sm = (.mounting, some .readId, none)) :
    counted (flashAsk .mountReader op s).sm = false := by
  unfold flashAsk
  dsimp only
  split
  · have hq : phase (smEndSnapshots (feArrive .mountReader op s).2).sm = (.mounting, some .readId, none) := by
      rw [smEndSnapshots_sm, feArrive_sm]
      exact h
    unfold flashFailed
    dsimp only
    generalize smEndSnapshots (feArrive .mountReader op s).2 = w at hq ⊢
    simp only [Prod.mk.injEq] at hq
    refine uncounted_of (x := (.failed, none, none)) ((cwEnterFaulted_phase _).trans ?_) (by decide) (by decide)
    have hr : smRequesterFailed .mountReader w = w := rfl
    unfold smFlashFailed
    rw [hr, smWorkFails_begun hq.2.1 hq.2.2, smMountFails_phase .failed hq.2.2]
  · rw [feArrive_sm]
    exact uncounted_of h (by decide) (by decide)

/-- A mount begins with no table in force, even where its first request is refused (R105). -/
theorem smMountBegin_uncounted (s : State) : counted (smMountBegin s).sm = false := flashAsk_begun _ rfl

/-- A mount that waits goes on with no count in force (R105). -/
theorem Waits.goesOn (h : Waits s.sm) : counted (smGoOn s).sm = false := by
  unfold smGoOn
  split
  · exact h.uncounted
  · rw [h.1]
    dsimp only
    split
    · exact smMountBegin_uncounted _
    · exact (smFlush_waits h).uncounted

end Sys2Proof.Machine
end

