-- ==== Sys2Proof/Laws/Phases.lean ====
section
/-! SUPPORT. The laws of the segment table through the phases of a mount (R105, R106) and of a Format (R91 to R93), and at
the installation of storage values (R101, R108). -/

namespace Sys2Proof.Machine

variable {s t : State}

/-! ### An empty table -/

/-- A table without segments obeys the laws, unless it stands or is in force. -/
theorem TableLaws.noSegments (h : t.sm.segments = []) (hs : standing t.sm = false) (hc : counted t.sm = false)
    (h1 : t.sm.mount = none ∨ t.sm.format = none) (h2 : t.sm.format ≠ none → t.sm.table ≠ .mounted)
    (h3 : t.sm.mount ≠ none → t.part.state ≠ .running)
    (h4 : ∀ r, t.hp.reading = some r → r.atRun = true → t.sm.mount = some .finishing) : TableLaws t where
  few := by rw [h]; exact Nat.zero_le _
  unprotected := by rw [h]; intro e he; cases he
  erasing := by rw [h]; intro j e _ he; cases he
  placed := fun p => by rw [hs] at p; cases p
  limited := fun p => by rw [hc] at p; cases p
  fresh := fun p => by
    unfold standing at hs
    rw [p] at hs
    simp at hs
  single := h1
  formatting := h2
  mounting := h3
  reading := h4

/-- A table without segments, mount or Format, and not mounted, obeys the laws. -/
theorem TableLaws.ended (h : t.sm.segments = []) (hm : t.sm.mount = none) (hf : t.sm.format = none)
    (ht : t.sm.table ≠ .mounted) (hr : ∀ r, t.hp.reading = some r → r.atRun = false) : TableLaws t :=
  .noSegments h (by simp [standing, hm, hf, ht]) (by simp [counted, hm, ht]) (.inl hm) (fun c => absurd hf c)
    (fun c => absurd hm c) fun r h a => by rw [hr r h] at a; cases a

/-- A profile read for a Run goes on only before the mount does (log 25). -/
theorem TableLaws.notReading (l : TableLaws s) (h : s.sm.mount ≠ some .finishing) :
    ∀ r, s.hp.reading = some r → r.atRun = false := by
  intro r hr
  cases ha : r.atRun
  · rfl
  · exact absurd (l.reading r hr ha) h

/-! ### A mount -/

/-- A mount that is under way and has begun: its phase is not the wait for SM's operation (R105). -/
def mountBegun (m : Sm) : Prop := ∃ p, m.mount = some p ∧ p ≠ .finishing

theorem mountBegun.notFinishing {m : Sm} (h : mountBegun m) : m.mount ≠ some .finishing := by
  obtain ⟨p, hp, hn⟩ := h
  rw [hp]
  exact fun e => hn (Option.some.inj e)

theorem mountBegun.notNone {m : Sm} (h : mountBegun m) : m.mount ≠ none := by
  obtain ⟨p, hp, -⟩ := h
  rw [hp]
  exact fun e => by cases e

theorem TableLaws.noFormat (l : TableLaws s) (h : s.sm.mount ≠ none) : s.sm.format = none :=
  l.single.resolve_left h

theorem TableLaws.noMount (l : TableLaws s) (h : s.sm.format ≠ none) : s.sm.mount = none :=
  l.single.resolve_right h

/-- A mount goes on to another phase (R105, R106). -/
theorem TableLaws.remount (l : TableLaws s) {p : MountPhase} (hm : mountBegun s.sm) (h1 : p ≠ .finalSnapshot)
    (hp : p.recovers = true → BlocksPlaced s) : TableLaws { s with sm.mount := some p } where
  few := l.few
  unprotected := l.unprotected
  erasing := l.erasing
  placed := fun h => by
    cases hr : p.recovers
    · refine l.placed ?_
      unfold standing at *
      simp only [Option.any_some, hr, Bool.or_false] at h
      simp only [Bool.or_eq_true] at h ⊢
      exact h.imp .inl id
    · exact hp hr
  limited := fun h => by simp [counted, h1] at h
  fresh := l.fresh
  single := .inr (l.noFormat hm.notNone)
  formatting := l.formatting
  mounting := fun _ => l.mounting hm.notNone
  reading := fun r hr ha => by
    rw [l.notReading hm.notFinishing r hr] at ha
    cases ha

/-- SM's table is dropped and a mount begins (R105). -/
theorem TableLaws.mountBegin (h : s.part.state ≠ .running) (hr : s.hp.reading = none) {sm : Sm}
    (hs : sm.segments = []) (hm : sm.mount = some .readId) (hf : sm.format = none) (ht : sm.table = .mounting) :
    TableLaws { s with sm := sm } :=
  .noSegments hs (by simp [standing, hm, hf, ht, MountPhase.recovers]) (by simp [counted, hm, ht]) (.inr hf)
    (fun c => absurd hf c) (fun _ => h) fun r h => by rw [hr] at h; cases h

/-- A mount ends without a table (R105). -/
theorem TableLaws.mountFails (l : TableLaws s) (hm : mountBegun s.sm) {x : TableState} (hx : x ≠ .mounted)
    {sm : Sm} (hs : sm.segments = []) (ht : sm.table = x) (h1 : sm.mount = none) (h2 : sm.format = s.sm.format) :
    TableLaws { s with sm := sm } :=
  .ended hs h1 (h2.trans (l.noFormat hm.notNone)) (by rw [ht]; exact hx) (l.notReading hm.notFinishing)

/-- The table of a snapshot that passes its checks is loaded (R105). -/
theorem TableLaws.loaded (l : TableLaws s) (hm : mountBegun s.sm) {v : TableLoad} (hv : imageValid v = true) {sm : Sm}
    (hs : sm.segments = v.segments.map loadedSegment) (he : sm.eraser = none)
    (h2 : sm.mount = s.sm.mount) (h3 : sm.format = s.sm.format) (h4 : sm.mount ≠ some .finalSnapshot) :
    TableLaws { s with sm := sm, fe.bad := v.bad, fe.pool := v.pool }
      ∧ BlocksPlaced { s with sm := sm, fe.bad := v.bad, fe.pool := v.pool } := by
  have hb : BlocksPlaced { s with sm := sm, fe.bad := v.bad, fe.pool := v.pool } := by
    have := imageValid_placed hv
    unfold BlocksPlaced
    have e : sm.segments.map (·.blocks) = v.segments.map (·.blocks) := by
      rw [hs, List.map_map]
      refine List.map_congr_left fun e _ => ?_
      simp only [Function.comp_apply, loadedSegment]
      split <;> rfl
    simp only
    rw [e]
    exact this
  refine ⟨?_, hb⟩
  have hf : sm.format = none := h3.trans (l.noFormat hm.notNone)
  exact {
    few := by
      unfold imageValid at hv
      simp only [Bool.and_eq_true, decide_eq_true_eq] at hv
      simp only [hs, List.length_map]
      exact hv.1.1.1.1.1.1.1.1
    unprotected := by
      simp only [hs, List.mem_map]
      rintro e ⟨a, -, rfl⟩ hd
      unfold loadedSegment at *
      split
      · rename_i h
        rw [if_pos h] at hd
        rw [h] at hd
        cases hd
      · rfl
    erasing := fun j e hj => by rw [he] at hj; cases hj
    placed := fun _ => hb
    limited := fun h => by
      have : sm.mount ≠ none := h2 ▸ hm.notNone
      simp [counted, h4, this] at h
    fresh := fun h => by simp [hf] at h
    single := .inr hf
    formatting := fun h => absurd hf h
    mounting := fun _ => l.mounting hm.notNone
    reading := fun r hr ha => by
      rw [l.notReading hm.notFinishing r hr] at ha
      cases ha }

/-- The recovery ends with the counts taken anew and the limit in force (R106, step 3). -/
theorem TableLaws.recovered (l : TableLaws s) (hm : mountBegun s.sm) {l' : List Segment} {last : Option Nat}
    (h1 : l'.length ≤ 256) (h2 : ∀ e ∈ l', holdsData e = false → e.protection = none)
    (h3 : PlacedOnce s.fe.bad s.fe.pool (l'.map (·.blocks))) :
    TableLaws (enforceLimit (recount { s with
      sm.segments := l', sm.mount := some .finalSnapshot, sm.eraser := none, sm.lastClosed := last })) := by
  refine TableCounts.enforced ?_
  exact {
    few := h1
    unprotected := h2
    erasing := fun _ _ h => by cases h
    placed := fun _ => h3
    count := fun _ => rfl
    fresh := fun h => by
      have := l.noFormat hm.notNone
      simp [recount, this] at h
    single := .inr (l.noFormat hm.notNone)
    formatting := fun h => absurd (l.noFormat hm.notNone) h
    mounting := fun _ => l.mounting hm.notNone
    reading := fun r hr ha => by
      rw [l.notReading hm.notFinishing r hr] at ha
      cases ha }

/-- A mount is complete (R106). -/
theorem TableLaws.mountOk (l : TableLaws s) (hm : s.sm.mount = some .finalSnapshot) :
    TableLaws { s with sm.table := .mounted, sm.mount := none } := by
  have hb : mountBegun s.sm := ⟨_, hm, fun h => by cases h⟩
  have hf := l.noFormat hb.notNone
  exact {
    few := l.few
    unprotected := l.unprotected
    erasing := l.erasing
    placed := fun _ => l.placed (by simp [standing, hm, MountPhase.recovers])
    limited := fun _ => l.limited (by simp [counted, hm])
    fresh := fun h => by simp [hf] at h
    single := .inl rfl
    formatting := fun h => absurd hf h
    mounting := fun h => absurd rfl h
    reading := fun r hr ha => by
      rw [l.notReading hb.notFinishing r hr] at ha
      cases ha }

/-- A mount waits for SM's operation, and a Format has ended (R105, R181). -/
theorem TableLaws.mountWaits (l : TableLaws s) (h : s.part.state ≠ .running) :
    TableLaws { s with sm.mount := some .finishing, sm.format := none } where
  few := l.few
  unprotected := l.unprotected
  erasing := l.erasing
  placed := fun h => l.placed (by
    simp only [standing, Option.any_some, MountPhase.recovers, Option.any_none, Bool.or_false] at h
    simp [standing, h])
  limited := fun h => by simp [counted] at h
  fresh := fun h => by simp at h
  single := .inr rfl
  formatting := fun h => absurd rfl h
  mounting := fun _ => h
  reading := fun _ _ _ => rfl

/-! ### A Format -/

/-- A Format that has made its partition: no mount, no table in force, every block placed, and no protection (R92). -/
structure Partitioned (s : State) : Prop where
  noMount : s.sm.mount = none
  notMounted : s.sm.table ≠ .mounted
  placed : BlocksPlaced s
  clear : s.sm.impactCount = 0 ∧ ∀ e ∈ s.sm.segments, protectedBy .impact e = false

theorem TableLaws.partitioned (l : TableLaws s) {p : FormatPhase} (h : s.sm.format = some p) (hp : p.erases = true) :
    Partitioned s where
  noMount := l.noMount (by rw [h]; exact fun e => by cases e)
  notMounted := l.formatting (by rw [h]; exact fun e => by cases e)
  placed := l.placed (by simp [standing, h, hp])
  clear := l.fresh (by simp [h, hp])

/-- A Format goes on to another phase (R91 to R93). -/
theorem TableLaws.reformat (l : TableLaws s) {p : FormatPhase} (hm : s.sm.mount = none) (ht : s.sm.table ≠ .mounted)
    (hp : p.erases = true → Partitioned s) : TableLaws { s with sm.format := some p } where
  few := l.few
  unprotected := l.unprotected
  erasing := l.erasing
  placed := fun h => (hp (by simpa [standing, hm, ht] using h)).placed
  limited := fun h => l.limited h
  fresh := fun h => (hp h).clear
  single := .inl hm
  formatting := fun _ => ht
  mounting := l.mounting
  reading := l.reading

/-- A Format begins: the survey, without a segment (R90, R91). -/
theorem TableLaws.formatBegin (l : TableLaws s) (hm : s.sm.mount = none) {sm : Sm} {fe : Fe} (hs : sm.segments = [])
    (h1 : sm.mount = s.sm.mount) (hf : sm.format = some (.survey 0)) (ht : sm.table = .formatting) :
    TableLaws { s with sm := sm, fe := fe } :=
  .noSegments hs (by simp [standing, h1, hm, hf, ht, FormatPhase.erases]) (by simp [counted, h1, hm, ht])
    (.inl (h1.trans hm)) (fun _ => by rw [ht]; exact fun e => by cases e) (fun c => absurd (h1.trans hm) c)
    fun r hr ha => by rw [l.notReading (by rw [hm]; exact fun e => by cases e) r hr] at ha; cases ha

/-- A Format ends in the state Unformatted (R91). -/
theorem TableLaws.formatFails (l : TableLaws s) (hm : s.sm.mount = none) {sm : Sm} (hs : sm.segments = [])
    (h1 : sm.mount = s.sm.mount) (hf : sm.format = none) (ht : sm.table = .unformatted) :
    TableLaws { s with sm := sm } :=
  .ended hs (h1.trans hm) hf (by rw [ht]; exact fun e => by cases e)
    (l.notReading (by rw [hm]; exact fun e => by cases e))

/-- A Format ends OK (R93). -/
theorem TableLaws.formatOk (l : TableLaws s) {p : FormatPhase} (h : s.sm.format = some p) (hp : p.erases = true) :
    TableLaws { s with sm.table := .mounted, sm.format := none } := by
  have k := l.partitioned h hp
  exact {
    few := l.few
    unprotected := l.unprotected
    erasing := l.erasing
    placed := fun _ => k.placed
    limited := fun _ => by
      refine ⟨?_, by rw [k.clear.1]; exact Nat.zero_le _⟩
      rw [k.clear.1]
      symm
      rw [List.length_eq_zero_iff, List.filter_eq_nil_iff]
      exact fun e he => by simp [k.clear.2 e he]
    fresh := fun h => by cases h
    single := .inl k.noMount
    formatting := fun h => absurd rfl h
    mounting := l.mounting
    reading := l.reading }

/-- The partition of a Format (R92): what it leaves, whatever table there was. -/
theorem TableLaws.partition (l : TableLaws s) (hm : s.sm.mount = none) (ht : s.sm.table ≠ .mounted)
    (hb : BadListLaw s) {sm : Sm} {bps : Nat}
    (hs : sm.segments = (formatGroups bps (goodBlocks s.fe.bad)).map (blankSegment .erasing)) (hc : sm.impactCount = 0)
    (h1 : sm.mount = s.sm.mount) (h3 : sm.table = s.sm.table) :
    TableLaws { s with sm := sm, fe.pool := formatPool bps (goodBlocks s.fe.bad) }
      ∧ Partitioned { s with sm := sm, fe.pool := formatPool bps (goodBlocks s.fe.bad) } := by
  have hall : ∀ e ∈ sm.segments, e.state = .erasing ∧ e.protection = none := by
    rw [hs]
    intro e he
    obtain ⟨g, -, rfl⟩ := List.mem_map.1 he
    exact ⟨rfl, rfl⟩
  have hp : Partitioned { s with sm := sm, fe.pool := formatPool bps (goodBlocks s.fe.bad) } := {
    noMount := h1.trans hm
    notMounted := by simp only [h3]; exact ht
    placed := by
      unfold BlocksPlaced
      simp only [hs, List.map_map]
      have e : ((fun e : Segment => e.blocks) ∘ blankSegment .erasing) = id := rfl
      rw [e, List.map_id]
      exact partition_placed (ascending_nodup hb.1) bps
    clear := ⟨hc, fun e he => protectedBy_none (hall e he).2⟩ }
  refine ⟨?_, hp⟩
  exact {
    few := by
      simp only [hs, List.length_map]
      exact (List.length_filter_le _ _).trans (chunksOf_length _ _ _)
    unprotected := fun e he _ => (hall e he).2
    erasing := fun j e _ he => (hall e (List.mem_of_getElem? he)).1
    placed := fun _ => hp.placed
    limited := fun h => by simp [counted, h1, hm, h3, ht] at h
    fresh := fun _ => hp.clear
    single := .inl (h1.trans hm)
    formatting := fun _ => hp.notMounted
    mounting := fun c => absurd (h1.trans hm) c
    reading := fun r hr ha => by
      rw [l.notReading (by rw [hm]; exact fun e => by cases e) r hr] at ha
      cases ha }

/-! ### Storage values and a new segment -/

/-- Storage values are installed with their limit in force (R101, R108). -/
theorem TableLaws.installed (l : TableLaws s) (q : SmParams) :
    TableLaws (enforceLimit { s with sm.params := q, sm.pending := none }) := by
  refine TableCounts.enforced ?_
  have c := l.counts
  exact ⟨c.few, c.unprotected, c.erasing, c.placed, c.count, c.fresh, c.single, c.formatting, c.mounting, c.reading⟩

/-- Storage values are installed while no count is in force. -/
theorem TableLaws.params (l : TableLaws s) (h : counted s.sm = false) (q : SmParams) :
    TableLaws { s with sm.params := q } where
  few := l.few
  unprotected := l.unprotected
  erasing := l.erasing
  placed := l.placed
  limited := fun c => by rw [show counted s.sm = true from c] at h; cases h
  fresh := l.fresh
  single := l.single
  formatting := l.formatting
  mounting := l.mounting
  reading := l.reading

/-- A Free segment is opened (R88). -/
theorem TableLaws.opened (l : TableLaws s) {i : Nat} {f : Segment → Segment}
    (hi : ∀ e, s.sm.segments[i]? = some e → e.state = .free) (hb : ∀ e, (f e).blocks = e.blocks)
    (hp : ∀ e, (f e).protection = none) : TableLaws (smModify i f s) := by
  refine l.modify (fun e _ => hb e) (fun e _ _ => hp e) (fun e j he hj hij => ?_) fun _ e he => ?_
  · subst i
    have h1 := l.erasing j e hj he
    rw [hi e he] at h1
    cases h1
  · have := l.unprotected e (List.mem_of_getElem? he) (by simp [holdsData, hi e he])
    simp [protectedBy, hp, this]

/-- The Open segment is closed (R89). -/
theorem TableLaws.closed (l : TableLaws s) {i : Nat} {f : Segment → Segment} (hi : openIndex s.sm = some i)
    (hb : ∀ e, (f e).blocks = e.blocks) (hs : ∀ e, (f e).state = .closed) (hp : ∀ e, (f e).protection = e.protection) :
    TableLaws (smModify i f s) := by
  obtain ⟨e, he, ho⟩ := openIndex_some hi
  refine l.modify (fun e _ => hb e) (fun a _ hd => ?_) (fun a j ha hj hij => ?_) fun _ e _ => by simp [protectedBy, hp]
  · simp [holdsData, hs] at hd
  · subst i
    obtain rfl : e = a := by simpa using he.symm.trans ha
    have h1 := l.erasing j e hj he
    rw [ho] at h1
    cases h1

/-- While no table stands the block records may be any (R87). -/
theorem TableLaws.records (l : TableLaws s) (h : standing s.sm = false) {fe : Fe} : TableLaws { s with fe := fe } where
  few := l.few
  unprotected := l.unprotected
  erasing := l.erasing
  placed := fun c => by rw [show standing s.sm = true from c] at h; cases h
  limited := l.limited
  fresh := l.fresh
  single := l.single
  formatting := l.formatting
  mounting := l.mounting
  reading := l.reading

/-! ### The profile read -/

/-- The profile read ends, or one for a reload begins (R170, R174). -/
theorem TableLaws.otherReading (l : TableLaws s) {hp : Hp} (h : ∀ r, hp.reading = some r → r.atRun = false) :
    TableLaws { s with hp := hp } where
  few := l.few
  unprotected := l.unprotected
  erasing := l.erasing
  placed := l.placed
  limited := l.limited
  fresh := l.fresh
  single := l.single
  formatting := l.formatting
  mounting := l.mounting
  reading := fun r hr ha => by rw [h r hr] at ha; cases ha

/-- The profile read of a Run begins while the mount waits (R181, log 25). -/
theorem TableLaws.runReading (l : TableLaws s) {hp : Hp} (h : s.sm.mount = some .finishing) :
    TableLaws { s with hp := hp } where
  few := l.few
  unprotected := l.unprotected
  erasing := l.erasing
  placed := l.placed
  limited := l.limited
  fresh := l.fresh
  single := l.single
  formatting := l.formatting
  mounting := l.mounting
  reading := fun _ _ _ => h

/-- The profile read is as it was, or ends (R170, R174). -/
theorem TableLaws.anyReading (l : TableLaws s) {hp : Hp} (h : hp.reading = s.hp.reading ∨ hp.reading = none) :
    TableLaws { s with hp := hp } where
  few := l.few
  unprotected := l.unprotected
  erasing := l.erasing
  placed := l.placed
  limited := l.limited
  fresh := l.fresh
  single := l.single
  formatting := l.formatting
  mounting := l.mounting
  reading := fun r hr => by
    rcases h with h | h
    · exact l.reading r (h ▸ hr)
    · rw [h] at hr
      cases hr

/-- The part state changes to one that is not Running. -/
theorem TableLaws.otherPart (l : TableLaws s) {p : Part} (h : s.sm.mount ≠ none → p.state ≠ .running) :
    TableLaws { s with part := p } where
  few := l.few
  unprotected := l.unprotected
  erasing := l.erasing
  placed := l.placed
  limited := l.limited
  fresh := l.fresh
  single := l.single
  formatting := l.formatting
  mounting := h
  reading := l.reading

end Sys2Proof.Machine
end

