-- ==== Sys2Proof/Laws/Recording.lean ====
section
/-! SUPPORT. The relations `Carried` and `Recording`: they compose, and each small operation of the recording blocks is
within them. -/

namespace Sys2Proof.Machine

variable {s₀ s : State}

/-! ### Composition -/

/-- Nothing changed. -/
theorem Carried.refl (s : State) : Carried s s where
  part := rfl
  rck := rfl
  cc := rfl
  pending := rfl
  ga := rfl
  released := fun _ => rfl
  held := fun h => h
  hp := rfl
  mu := rfl
  causes := fun _ h => h
  memory := fun h => h
  badList := fun h => h
  settles := Settles.refl _

/-- Nothing changed. -/
theorem Recording.refl (s : State) : Recording s s := ⟨Carried.refl s, fun _ l => l⟩

/-- One change after another. -/
theorem Carried.trans {t : State} (h : Carried s₀ s) (k : Carried s t) : Carried s₀ t where
  part := k.part.trans h.part
  rck := k.rck.trans h.rck
  cc := k.cc.trans h.cc
  pending := k.pending.trans h.pending
  ga := by
    have h1 := h.ga; have h2 := k.ga
    rw [← h1, ← h2]
  released := fun g => by
    have hg : s.ga.grace = s₀.ga.grace := by have e := congrArg Ga.grace h.ga; exact e
    rw [k.released (hg.trans g), h.released g]
  held := fun g => k.held (h.held g)
  hp := by
    have h1 := h.hp; have h2 := k.hp
    rw [← h1, ← h2]
  mu := by
    have h1 := h.mu; have h2 := k.mu
    rw [← h1, ← h2]
  causes := fun c hc => k.causes c (h.causes c hc)
  memory := fun m => k.memory (h.memory m)
  badList := fun b => k.badList (h.badList b)
  settles := h.settles.trans k.settles

/-- One change after another. -/
theorem Recording.trans {t : State} (h : Recording s₀ s) (k : Recording s t) : Recording s₀ t :=
  ⟨h.toCarried.trans k.toCarried, fun b l => k.tables (h.badList b) (h.tables b l)⟩

/-- A change whose laws of the segment table are shown of itself. -/
theorem Recording.after {t : State} (h : Recording s₀ s) (k : Carried s t)
    (ht : BadListLaw s₀ → TableLaws s₀ → TableLaws s → TableLaws t) : Recording s₀ t :=
  ⟨h.toCarried.trans k, fun b l => ht b l (h.tables b l)⟩

/-- The profile read is as it was. -/
theorem Carried.reading {t : State} (h : Carried s t) : t.hp.reading = s.hp.reading := by
  have e := congrArg Hp.reading h.hp
  exact e

/-! ### Updates -/

/-- A change of the recording blocks' own state. -/
theorem Carried.update (h : Carried s₀ s) {pu : Pu} {fe : Fe} {sm : Sm} {cw : Cw}
    (hb : BadListLaw s → ascending fe.bad = true ∧ fe.bad.length ≤ 512) (hs : Settles s.pu.shadows pu.shadows) :
    Carried s₀ ⟨s.part, s.rck, s.mu, pu, fe, sm, cw, s.cc, s.ga, s.hp, s.mem, s.pending⟩ where
  part := h.part
  rck := h.rck
  cc := h.cc
  pending := h.pending
  ga := h.ga
  released := h.released
  held := h.held
  hp := h.hp
  mu := h.mu
  causes := h.causes
  memory := h.memory
  badList := fun b => hb (h.badList b)
  settles := h.settles.trans hs

/-- A change of the Segment Manager's own state. -/
theorem Carried.table (h : Carried s₀ s) {sm : Sm} : Carried s₀ { s with sm := sm } :=
  h.update id (Settles.refl _)

/-- A change of the recording blocks' own state that keeps the bad block list, the tables and the shadows. -/
theorem Recording.update (h : Recording s₀ s) {pu : Pu} {fe : Fe} {sm : Sm} {cw : Cw} 
    (hu : (fe.bad, tableKey s.part fe sm s.hp, pu.shadows)
      = (s.fe.bad, tableKey s.part s.fe s.sm s.hp, s.pu.shadows)) :
    Recording s₀ ⟨s.part, s.rck, s.mu, pu, fe, sm, cw, s.cc, s.ga, s.hp, s.mem, s.pending⟩ :=
  have hb : fe.bad = s.fe.bad := congrArg (·.1) hu
  have hr := congrArg (·.2) hu
  ⟨h.toCarried.update (by unfold BadListLaw; rw [hb]; exact id) (Settles.of_eq (congrArg (·.2) hr)),
    fun b l => (h.tables b l).congr (congrArg (·.1) hr)⟩

/-- A change of the shadows that opens no entry. -/
theorem Recording.shadows (h : Recording s₀ s) {pu : Pu} (hs : Settles s.pu.shadows pu.shadows) :
    Recording s₀ { s with pu := pu } :=
  ⟨h.toCarried.update id hs, fun b l => (h.tables b l).congr rfl⟩

/-- A change of the Segment Manager's own state that keeps the laws of its table. -/
theorem Recording.table (h : Recording s₀ s) {sm : Sm}
    (ht : BadListLaw s₀ → TableLaws s₀ → TableLaws s → TableLaws { s with sm := sm }) :
    Recording s₀ { s with sm := sm } := h.after (Carried.refl s).table ht

/-- The marks that wait change. -/
theorem Recording.marks (h : Recording s₀ s) (marks : List ImpactMark) :
    Recording s₀ { s with mu.marks := marks } where
  part := h.part
  rck := h.rck
  cc := h.cc
  pending := h.pending
  ga := h.ga
  released := h.released
  held := h.held
  hp := h.hp
  mu := h.mu
  causes := h.causes
  memory := h.memory
  badList := h.badList
  settles := h.settles
  tables := fun b l => (h.tables b l).congr rfl

/-- SYSEN is released in a cutoff sequence (R162). -/
theorem Recording.sysen (h : Recording s₀ s) (hg : s.ga.grace.isSome) :
    Recording s₀ { s with ga.sysen := false } where
  part := h.part
  rck := h.rck
  cc := h.cc
  pending := h.pending
  ga := h.ga
  released := fun g => by
    have e : s.ga.grace = s₀.ga.grace := by have e := congrArg Ga.grace h.ga; exact e
    rw [e, g] at hg; cases hg
  held := fun _ => rfl
  hp := h.hp
  mu := h.mu
  causes := h.causes
  memory := h.memory
  badList := h.badList
  settles := h.settles
  tables := fun b l => (h.tables b l).congr rfl

/-- A store to the Buffer RAM. -/
theorem store_recording (h : Recording s₀ s) (a : Nat) (bytes : List Byte) : Recording s₀ (s.store a bytes) where
  part := h.part
  rck := h.rck
  cc := h.cc
  pending := h.pending
  ga := h.ga
  released := h.released
  held := h.held
  hp := h.hp
  mu := h.mu
  causes := h.causes
  memory := fun m => store_wf s a bytes (h.memory m)
  badList := h.badList
  settles := h.settles
  tables := fun b l => (h.tables b l).congr rfl

/-- Each cause has a bit of EVENTS of its own (R175). -/
theorem causeBit_inj (c d : Cause) : causeBit c = causeBit d ↔ c = d := by
  have h : ∀ c d : Cause, causeBit c = causeBit d → c = d := by
    have key : ∀ x : Cause,
        ([Cause.requestDone, .requestFailed, .writerState, .segmentClosed, .impact, .frameOverrun, .imuState,
          .chargerState, .chargerFault, .gaugeLevel, .flashFault, .parameterClamped, .commandRefused, .mountDone,
          .halted, .inputChange] : List Cause)[causeBit x]? = some x := by
      intro x
      cases x <;> rfl
    intro c d e
    have := key c
    rw [e, key d] at this
    exact (Option.some.inj this).symm
  exact ⟨h c d, fun e => e ▸ rfl⟩

theorem causeBit_lt (c : Cause) : causeBit c < 16 := by cases c <;> decide

/-- Raising a cause sets its flag, and every other flag keeps its value (R175). -/
theorem raise_caused (s : State) (c d : Cause) (h : s.part.resetnLow = false) :
    (s.raise c).caused d = (s.caused d || decide (c = d)) := by
  have hb : ((1 <<< causeBit c : Nat) : BitVec 16).getLsbD (causeBit d) = decide (c = d) := by
    rw [BitVec.natCast_eq_ofNat, BitVec.getLsbD_ofNat, Nat.one_shiftLeft, Nat.testBit_two_pow, decide_eq_true (causeBit_lt d),
      Bool.true_and, decide_eq_decide]
    exact causeBit_inj c d
  simp only [State.raise, h, State.caused, Bool.false_eq_true, if_false, BitVec.getLsbD_or, hb]

/-- A raise keeps every flag that is set. -/
theorem raise_keeps_caused (s : State) (c d : Cause) (h : s.caused d = true) : (s.raise c).caused d = true := by
  by_cases hr : s.part.resetnLow
  · simpa [State.raise, hr, State.caused] using h
  · rw [raise_caused s c d (by simpa using hr), h, Bool.true_or]

/-- A raise of a cause. -/
theorem raise_recording (h : Recording s₀ s) (c : Cause) : Recording s₀ (s.raise c) := by
  have hc := fun d => raise_keeps_caused s c d
  unfold State.raise at *
  split
  · exact h
  · rename_i hr
    simp only [hr] at hc
    exact ⟨⟨h.part, h.rck, h.cc, h.pending, h.ga, h.released, h.held, h.hp, h.mu, fun d hd => hc d (h.causes d hd),
      h.memory, h.badList, h.settles⟩, fun b l => (h.tables b l).congr rfl⟩

/-- A raise under a condition. -/
theorem raiseIf_recording (h : Recording s₀ s) (b : Bool) (c : Cause) : Recording s₀ (s.raiseIf b c) := by
  unfold State.raiseIf
  split
  · exact raise_recording h c
  · exact h

/-- A change made for each element of a list. -/
theorem foldl_recording {α : Type} {f : State → α → State} (h : Recording s₀ s) (l : List α)
    (hf : ∀ {s : State}, Recording s₀ s → ∀ a, Recording s₀ (f s a)) : Recording s₀ (l.foldl f s) := by
  induction l generalizing s with
  | nil => exact h
  | cons a l ih => exact ih (hf h a)

/-- A raise, a retirement or a return after any change: what is carried. -/
theorem Carried.recording {t : State} (h : Carried s₀ s) (k : Recording s t) : Carried s₀ t := h.trans k.toCarried

end Sys2Proof.Machine
end

