-- ==== Sys2Proof/Laws/RecordingPath.lean ====
section
/-! SUPPORT. The Path Unit's operations are within `Recording`, but for the opening of a frame (R41): what that one does
is said of the state it opens the frame in. -/

namespace Sys2Proof.Machine

variable {s₀ s : State}

/-! ### One entry -/

/-- The entry, if there is one, is not Free. -/
def Live (s : State) (i : Nat) : Prop := ∀ x, s.pu.shadows[i]? = some x → x.state ≠ .free

/-- The shadow of an entry that there is. -/
theorem shadow_get {i : Nat} {x : Shadow} (h : s.pu.shadows[i]? = some x) : s.pu.shadow i = x := by
  unfold Pu.shadow
  rw [List.getD_eq_getElem?_getD, h]
  rfl

theorem puModify_recording (h : Recording s₀ s) (i : Nat) (f : Shadow → Shadow)
    (hf : ∀ x, (f x).state ≠ .free → x.state ≠ .free ∧ (f x).frame = x.frame) : Recording s₀ (puModify i f s) := by
  unfold puModify
  exact h.shadows (Settles.modify fun x _ => hf x)

/-- A change that keeps the state and the frame. -/
theorem puModify_keep (h : Recording s₀ s) (i : Nat) (f : Shadow → Shadow)
    (hf : ∀ x, (f x).state = x.state ∧ (f x).frame = x.frame) : Recording s₀ (puModify i f s) :=
  puModify_recording h i f fun x hx => ⟨by rwa [(hf x).1] at hx, (hf x).2⟩

theorem puStore_recording (h : Recording s₀ s) (i : Nat) (groups : List (Nat × List Byte)) :
    Recording s₀ (puStore i groups s) := by
  unfold puStore
  split
  · exact h
  · exact store_recording (foldl_recording h _ fun h g => store_recording h _ _) _ _

/-- Writing a record leaves the shadows as they were. -/
theorem puStore_pu (i : Nat) (groups : List (Nat × List Byte)) (s : State) : (puStore i groups s).pu = s.pu := by
  unfold puStore
  split
  · rfl
  · have : ∀ (a : Nat) (l : List (Nat × List Byte)) (u : State),
        (l.foldl (fun s g => s.store (a + g.1) g.2) u).pu = u.pu := by
      intro a l
      induction l with
      | nil => exact fun u => rfl
      | cons g l ih => exact fun u => (ih _).trans rfl
    exact this _ _ _

theorem puStoreLive_recording (h : Recording s₀ s) (i : Nat) (groups : List (Nat × List Byte)) :
    Recording s₀ (puStoreLive i groups s) := by
  unfold puStoreLive
  split
  · exact h
  · exact puStore_recording h _ _

theorem puScanEntry_recording (h : Recording s₀ s) (i : Nat) :
    Recording s₀ (puScanEntry i s) := by
  unfold puScanEntry
  dsimp only
  split
  · split
    · exact puStore_recording (puModify_recording h _ _ fun x hx => absurd rfl hx) _ _
    · exact h
  · exact h

theorem puScanEntry_elsewhere {i j : Nat} (hj : j ≠ i) (s : State) :
    (puScanEntry i s).pu.shadows[j]? = s.pu.shadows[j]? := by
  unfold puScanEntry
  dsimp only
  split
  · split
    · rw [puStore_pu]
      simp only [puModify, modifyAt_get, if_neg (Ne.symm hj)]
    · rfl
  · rfl

theorem puReleaseScan_recording (h : Recording s₀ s) :
    Recording s₀ (puReleaseScan s) := by
  exact foldl_recording h _ fun h i => puScanEntry_recording h i

theorem puFinalShadow_recording (h : Recording s₀ s) {i : Nat} (edge : Bool) (hl : Live s i) :
    Recording s₀ (puFinalShadow i edge s) := by
  unfold puFinalShadow
  dsimp only [puModify]
  refine h.shadows (Settles.modify fun x hx _ => ⟨hl x hx, ?_⟩)
  rw [shadow_get hx]
  rfl

theorem puFinalShadow_elsewhere {i j : Nat} (hj : j ≠ i) (edge : Bool) (s : State) :
    (puFinalShadow i edge s).pu.shadows[j]? = s.pu.shadows[j]? := by
  simp only [puFinalShadow, puModify, modifyAt_get, if_neg (Ne.symm hj)]

theorem puFinalize_recording (h : Recording s₀ s) {i : Nat} (edge : Bool) (hl : Live s i) :
    Recording s₀ (puFinalize i edge s) := by
  unfold puFinalize
  dsimp only
  exact puScanEntry_recording (puStore_recording (puFinalShadow_recording h edge hl) _ _) _

theorem puFinalize_elsewhere {i j : Nat} (hj : j ≠ i) (edge : Bool) (s : State) :
    (puFinalize i edge s).pu.shadows[j]? = s.pu.shadows[j]? := by
  unfold puFinalize
  dsimp only
  rw [puScanEntry_elsewhere hj, puStore_pu, puFinalShadow_elsewhere hj]

/-! ### Several entries -/

/-- A change made at each of several entries that are not Free, and at no other. -/
theorem foldl_live {f : State → Nat → State} (h : Recording s₀ s) {l : List Nat} (hd : l.Nodup)
    (hl : ∀ i ∈ l, Live s i) (hf : ∀ {s : State}, Recording s₀ s → ∀ i, Live s i → Recording s₀ (f s i))
    (ho : ∀ (s : State) (i j : Nat), j ≠ i → (f s i).pu.shadows[j]? = s.pu.shadows[j]?) :
    Recording s₀ (l.foldl f s) := by
  induction l generalizing s with
  | nil => exact h
  | cons a l ih =>
    obtain ⟨ha, hd⟩ := List.nodup_cons.1 hd
    refine ih (hf h a (hl a List.mem_cons_self)) hd fun i hi x hx => ?_
    rw [ho s a i fun e => ha (e ▸ hi)] at hx
    exact hl i (List.mem_cons_of_mem _ hi) x hx

/-- The entries found by a test are found once. -/
theorem entriesByFrame_nodup (p : Pu) (test : Shadow → Bool) : (entriesByFrame p test).Nodup :=
  (sortBy_perm _ _).nodup_iff.2 (indicesWhere_nodup _ _)

/-- The entries found by a test that no Free entry passes are not Free. -/
theorem entriesByFrame_live {test : Shadow → Bool} (ht : ∀ x, test x = true → x.state ≠ .free) :
    ∀ i ∈ entriesByFrame s.pu test, Live s i := by
  intro i hi x hx
  obtain ⟨y, hy, hp⟩ := mem_indicesWhere ((sortBy_perm _ _).mem_iff.1 hi)
  obtain rfl : x = y := by simpa using hx.symm.trans hy
  exact ht x hp

theorem puFinalizeMeasured_recording (h : Recording s₀ s) :
    Recording s₀ (puFinalizeMeasured s) :=
  foldl_live h (entriesByFrame_nodup _ _)
    (entriesByFrame_live fun x hx e => by rw [e] at hx; cases hx)
    (fun h _ hl => puFinalize_recording h false hl) fun s _ _ hj => puFinalize_elsewhere hj false s

theorem puBreak_recording (h : Recording s₀ s) :
    Recording s₀ (puBreak s) := by
  unfold puBreak
  dsimp only
  exact Recording.update (puFinalizeMeasured_recording h) rfl

theorem puMeasureEntry_recording (h : Recording s₀ s) (d : Delivery) {i : Nat} (hl : Live s i) :
    Recording s₀ (puMeasureEntry d i s) := by
  unfold puMeasureEntry
  dsimp only
  refine puStore_recording ?_ _ _
  unfold puModify
  refine h.shadows (Settles.modify fun x hx _ => ⟨hl x hx, ?_⟩)
  unfold measuredShadow
  split <;> rfl

theorem puMeasureEntry_elsewhere {i j : Nat} (hj : j ≠ i) (d : Delivery) (s : State) :
    (puMeasureEntry d i s).pu.shadows[j]? = s.pu.shadows[j]? := by
  unfold puMeasureEntry
  dsimp only
  rw [puStore_pu]
  simp only [puModify, modifyAt_get, if_neg (Ne.symm hj)]

theorem puAttribute_recording (h : Recording s₀ s) (d : Delivery) :
    Recording s₀ (puAttribute d s) := by
  unfold puAttribute
  split
  · split
    · exact h
    · exact puModify_keep (Recording.update h (by rfl)) _ _ fun _ => by exact ⟨rfl, rfl⟩
  · exact h

theorem puPass_recording (h : Recording s₀ s) (d : Delivery) :
    Recording s₀ (puPass d s) := by
  unfold puPass
  dsimp only
  refine foldl_live (puAttribute_recording ?_ d) (entriesByFrame_nodup _ _)
    (entriesByFrame_live fun x hx e => by simp [eligible, e] at hx)
    (fun h _ hl => puFinalize_recording h false hl) fun s _ _ hj => puFinalize_elsewhere hj false s
  exact foldl_live h (entriesByFrame_nodup _ _)
    (entriesByFrame_live fun x hx e => by simp [e] at hx)
    (fun h _ hl => puMeasureEntry_recording h d hl) fun s _ _ hj => puMeasureEntry_elsewhere hj d s

theorem puImpact_recording (h : Recording s₀ s) (t : Nat) :
    Recording s₀ (puImpact t s) := by
  unfold puImpact
  split
  · exact h
  · exact puStoreLive_recording (puModify_keep h _ _ fun _ => by exact ⟨rfl, rfl⟩) _ _

/-! ### The opening of a frame -/

theorem puInstallPending_recording (h : Recording s₀ s) :
    Recording s₀ (puInstallPending s) := by
  unfold puInstallPending
  split
  · exact h
  · dsimp only
    split
    · exact Recording.update (puBreak_recording h) rfl
    · exact Recording.update h rfl

theorem puReclaim_recording (h : Recording s₀ s) {i : Nat} (hl : Live s i) :
    Recording s₀ (puReclaim i s) := by
  have key : ∀ {u : State}, Recording s₀ u → Live u i →
      Recording s₀ (if (s.pu.shadow i).state = .final then u else puFinalShadow i true u) := by
    intro u hu hlu
    split
    · exact hu
    · exact puFinalShadow_recording hu true hlu
  unfold puReclaim
  dsimp only
  refine raise_recording (Recording.update (key ?_ ?_) (by rfl)) _
  · split
    · exact puModify_keep h _ _ fun _ => by exact ⟨rfl, rfl⟩
    · exact h
  · split
    · intro x hx
      simp only [puModify, modifyAt_get, if_true] at hx
      obtain ⟨y, hy, rfl⟩ := Option.map_eq_some_iff.1 hx
      exact hl y hy
    · exact hl

theorem puCloseInterval_recording (h : Recording s₀ s) (n : Nat) :
    Recording s₀ (puCloseInterval n s) := by
  unfold puCloseInterval
  dsimp only
  split
  · exact puStoreLive_recording h _ _
  · exact h

/-- Closing an interval leaves the shadows as they were. -/
theorem puCloseInterval_pu (n : Nat) (s : State) : (puCloseInterval n s).pu = s.pu := by
  unfold puCloseInterval puStoreLive
  dsimp only
  split
  · split
    · rfl
    · exact puStore_pu _ _ _
  · rfl

/-- What the opening of frame `n` does (R41): in a state within `Recording`, its entry holds the frame. -/
theorem puOpen_opens {u : State} (h : Recording s u) (n t : Nat) (reclaimed : Bool) :
    ∃ (v : State) (x : Shadow) (groups : List (Nat × List Byte)), Recording s v ∧ x.frame = n
      ∧ puOpen n t reclaimed u
        = puStore (v.pu.entryOf n) groups { puModify (v.pu.entryOf n) (fun _ => x) v with pu.newest := some n } := by
  unfold puOpen
  dsimp only
  by_cases hn : n = 0
  · rw [if_pos hn]
    exact ⟨u, openedShadow u n t reclaimed, _, h, rfl, rfl⟩
  · rw [if_neg hn]
    have e : u.pu.entryOf n = (puCloseInterval (n - 1) u).pu.entryOf n := by rw [puCloseInterval_pu]
    rw [e]
    exact ⟨puCloseInterval (n - 1) u, openedShadow (puCloseInterval (n - 1) u) n t reclaimed, _,
      puCloseInterval_recording h _, rfl, rfl⟩

/-- What PU's four steps at an accepted frame-start do (R40). -/
theorem puFrameStart_opens (n t : Nat) (s : State) :
    ∃ (v : State) (x : Shadow) (groups : List (Nat × List Byte)), Recording s v ∧ x.frame = n
      ∧ puFrameStart n t s
        = puStore (v.pu.entryOf n) groups { puModify (v.pu.entryOf n) (fun _ => x) v with pu.newest := some n } := by
  have h := puScanEntry_recording (puInstallPending_recording (Recording.refl s)) ((puInstallPending s).pu.entryOf n)
  unfold puFrameStart
  dsimp only
  generalize puScanEntry ((puInstallPending s).pu.entryOf n) (puInstallPending s) = u at h ⊢
  split
  · exact puOpen_opens h n t false
  · rename_i hf
    refine puOpen_opens (puReclaim_recording h fun x hx => ?_) n t true
    rw [← shadow_get hx]
    exact hf

/-! ### The Clip Writer's obligations and queries, Stop and Run -/

theorem puClipStart_recording (h : Recording s₀ s) (first : Nat) :
    Recording s₀ (puClipStart first s) := by
  unfold puClipStart
  refine h.shadows (Settles.map fun x hx => ?_)
  split at hx
  · rename_i hc
    rw [if_pos hc]
    exact ⟨hx, rfl⟩
  · rename_i hc
    rw [if_neg hc]
    exact ⟨hx, rfl⟩

theorem puSetNotNeeded_recording (h : Recording s₀ s) (test : Shadow → Bool) :
    Recording s₀ (puSetNotNeeded test s) :=
  foldl_recording h _ fun h i => puScanEntry_recording (puModify_keep h _ _ fun _ => by exact ⟨rfl, rfl⟩) _

theorem puWriterDone_recording (h : Recording s₀ s) :
    Recording s₀ (puWriterDone s) := by
  unfold puWriterDone
  exact puSetNotNeeded_recording h _

theorem puSkipBelow_recording (h : Recording s₀ s) (first : Nat) :
    Recording s₀ (puSkipBelow first s) := by
  unfold puSkipBelow
  exact puSetNotNeeded_recording h _

theorem puQuery_recording (h : Recording s₀ s) (m : Nat) (segment : Nat) :
    Recording s₀ (puQuery m segment s).2 := by
  unfold puQuery
  dsimp only
  split
  · exact puScanEntry_recording (puStoreLive_recording (puModify_keep h _ _ fun _ => by exact ⟨rfl, rfl⟩) _ _) _
  · exact h

theorem puStop_recording (h : Recording s₀ s) :
    Recording s₀ (puStop s) := by
  have key : Recording s₀ ((entriesByFrame (puBreak s).pu fun h => decide (h.state = .captured)).foldl
      (fun s i => puFinalize i true
        (puModify i (fun h => { h with path := none, flags := setFlag h.flags .unstabilized }) s)) (puBreak s)) := by
    refine foldl_live (puBreak_recording h) (entriesByFrame_nodup _ _)
      (entriesByFrame_live fun x hx e => by simp [e] at hx) (fun h i hl => ?_) fun s i j hj => ?_
    · refine puFinalize_recording (puModify_keep h _ _ fun _ => by exact ⟨rfl, rfl⟩) true fun x hx => ?_
      simp only [puModify, modifyAt_get, if_true] at hx
      obtain ⟨y, hy, rfl⟩ := Option.map_eq_some_iff.1 hx
      exact hl y hy
    · rw [puFinalize_elsewhere hj]
      simp only [puModify, modifyAt_get, if_neg (Ne.symm hj)]
  unfold puStop
  dsimp only
  split
  · exact key
  · exact puCloseInterval_recording key _

theorem puRun_recording (h : Recording s₀ s) (table : Option Nat) (capacity : Nat) :
    Recording s₀ (puRun table capacity s) := by
  refine foldl_recording ?_ _ fun h i => puStore_recording h _ _
  exact h.shadows (Settles.allFree fun x hx => by rw [List.eq_of_mem_replicate hx]; rfl)

/-- After a Run every entry is Free (R37). -/
theorem puRun_free (table : Option Nat) (capacity : Nat) (s : State) :
    ∀ x ∈ (puRun table capacity s).pu.shadows, x.state = .free := by
  have key : ∀ (l : List Nat) (u : State),
      (l.foldl (fun s i => puStore i [(60, leBytes 4 0)] s) u).pu.shadows = u.pu.shadows := by
    intro l
    induction l with
    | nil => exact fun u => rfl
    | cons i l ih => exact fun u => (ih _).trans (by rw [puStore_pu])
  intro x hx
  unfold puRun at hx
  dsimp only at hx
  rw [key] at hx
  rw [List.eq_of_mem_replicate hx]
  rfl

end Sys2Proof.Machine
end

