-- ==== Sys2Proof/Laws/RecordingFlash.lean ====
section
/-! SUPPORT. The operations of the Flash Engine, and of Publish.lean, are within `Recording`. -/

namespace Sys2Proof.Machine

variable {s₀ s : State}

/-! ### Flash Engine -/

theorem feIssueOp_recording (h : Recording s₀ s) (w : FlashRequest) :
    Recording s₀ (feIssueOp w s) := by
  unfold feIssueOp
  with_reducible apply_rules [Recording.update, rfl]

theorem feGrantRequest_recording (h : Recording s₀ s) (w : FlashRequest) :
    Recording s₀ (feGrantRequest w s) := by
  unfold feGrantRequest
  try dsimp only
  repeat' split
  all_goals with_reducible apply_rules [feIssueOp_recording, Recording.update, rfl]

theorem feGrant_recording (h : Recording s₀ s) :
    Recording s₀ (feGrant s) := by
  unfold feGrant
  repeat' split
  all_goals with_reducible apply_rules [feGrantRequest_recording]

theorem feSwitchOn_recording (h : Recording s₀ s) :
    Recording s₀ (feSwitchOn s) := by
  unfold feSwitchOn
  with_reducible apply_rules [Recording.update, rfl]

theorem feSwitchOff_recording (h : Recording s₀ s) :
    Recording s₀ (feSwitchOff s) := by
  unfold feSwitchOff
  with_reducible apply_rules [Recording.update, rfl]

theorem feStartupReset_recording (h : Recording s₀ s) :
    Recording s₀ (feStartupReset s) := by
  unfold feStartupReset
  with_reducible apply_rules [Recording.update, rfl]

theorem feJoin_recording (h : Recording s₀ s) (w : FlashRequest) :
    Recording s₀ (feJoin w s) := by
  unfold feJoin
  try dsimp only
  repeat' split
  all_goals with_reducible apply_rules [feSwitchOn_recording, feGrant_recording, Recording.update, rfl]

theorem feArrive_recording (h : Recording s₀ s) (r : Requester) (op : FlashOp) :
    Recording s₀ (feArrive r op s).2 := by
  unfold feArrive
  try dsimp only
  repeat' split
  all_goals with_reducible apply_rules [feJoin_recording, Recording.update, rfl]

theorem feUnhold_recording (h : Recording s₀ s) (r : Requester) :
    Recording s₀ (feUnhold r s) := by
  unfold feUnhold
  with_reducible apply_rules [Recording.update, rfl]

theorem feRailAfter_recording (h : Recording s₀ s) :
    Recording s₀ (feRailAfter s) := by
  unfold feRailAfter
  repeat' split
  all_goals with_reducible apply_rules [feSwitchOff_recording, Recording.update, rfl]

theorem feEndDone_recording (h : Recording s₀ s) :
    Recording s₀ (feEndDone s) := by
  unfold feEndDone
  with_reducible apply_rules [feRailAfter_recording, Recording.update, rfl]

theorem feEnterFailed_recording (h : Recording s₀ s) :
    Recording s₀ (feEnterFailed s) := by
  unfold feEnterFailed
  with_reducible apply_rules [raise_recording, Recording.update, rfl]

theorem feEndTimeout_recording (h : Recording s₀ s) :
    Recording s₀ (feEndTimeout s) := by
  unfold feEndTimeout
  try dsimp only
  repeat' split
  all_goals with_reducible apply_rules [feEnterFailed_recording, feRailAfter_recording, Recording.update, rfl]

theorem feStartupDone_recording (h : Recording s₀ s) :
    Recording s₀ (feStartupDone s) := by
  unfold feStartupDone
  with_reducible apply_rules [feRailAfter_recording, Recording.update, rfl]

theorem feStartupTimeout_recording (h : Recording s₀ s) :
    Recording s₀ (feStartupTimeout s) := by
  unfold feStartupTimeout
  try dsimp only
  repeat' split
  all_goals with_reducible apply_rules [feEnterFailed_recording, feSwitchOff_recording, feStartupReset_recording, Recording.update, rfl]

theorem feFrontDone_recording (h : Recording s₀ s) (w : FlashRequest) :
    Recording s₀ (feFrontDone w s) := by
  unfold feFrontDone
  with_reducible apply_rules [feIssueOp_recording, Recording.update, rfl]

theorem feTick_recording (h : Recording s₀ s) :
    Recording s₀ (feTick s) := by
  unfold feTick
  try dsimp only
  repeat' split
  all_goals with_reducible apply_rules [feSwitchOff_recording, Recording.update, rfl]

theorem feSetWorn_recording (h : Recording s₀ s) :
    Recording s₀ (feSetWorn s) := by
  unfold feSetWorn
  repeat' split
  all_goals with_reducible apply_rules [raise_recording, Recording.update, rfl]

theorem feMarkBad_recording (h : Recording s₀ s) (b : Nat) :
    Recording s₀ (feMarkBad b s) := by
  unfold feMarkBad
  try dsimp only
  repeat' split
  all_goals with_reducible apply_rules [feSetWorn_recording, Recording.update, rfl]

/-- What a retirement carries (R77). -/
theorem feRetire_carried (h : Carried s₀ s) (b : Nat) : Carried s₀ (feRetire b s).2 := by
  unfold feRetire
  split
  · exact h.recording (feMarkBad_recording (Recording.refl s) b)
  · split
    · exact h.update id (Settles.refl _)
    · split
      · refine h.update (fun hb => ⟨insertAsc_ascending b hb.1, ?_⟩) (Settles.refl _)
        have := insertAsc_length b s.fe.bad
        simp only
        omega
      · exact h.recording (feSetWorn_recording (Recording.refl s))

/-- What the taking of a block carries (R79). -/
theorem feTake_carried (h : Carried s₀ s) : Carried s₀ (feTake s).2 := by
  unfold feTake
  split
  · exact h
  · exact h.update id (Settles.refl _)

/-- What the return of a block carries (R79). -/
theorem feReturn_carried (h : Carried s₀ s) (b : Nat) : Carried s₀ (feReturn b s) := by
  unfold feReturn
  split
  · exact h
  · exact h.update id (Settles.refl _)

theorem feJudgeWorn_recording (h : Recording s₀ s) :
    Recording s₀ (feJudgeWorn s) := by
  unfold feJudgeWorn
  repeat' split
  all_goals with_reducible apply_rules [feSetWorn_recording, Recording.update, rfl]

/-- What the empty records carry (R80). -/
theorem feClearRecords_carried (h : Carried s₀ s) : Carried s₀ (feClearRecords s) :=
  h.update (fun _ => ⟨rfl, Nat.zero_le _⟩) (Settles.refl _)

theorem gaCheck_recording (h : Recording s₀ s) :
    Recording s₀ (gaCheck s) := by
  unfold gaCheck
  split
  · rename_i hc
    simp only [Bool.and_eq_true] at hc
    exact Recording.sysen h hc.1.1
  · exact h

theorem publishSlot_recording (h : Recording s₀ s) (e : QueueEntry) (r : RequestResult) :
    Recording s₀ (publishSlot e r s) := by
  unfold publishSlot
  split
  · exact h
  · exact store_recording (store_recording (store_recording (store_recording h _ _) _ _) _ _) _ _

theorem publishFrom_recording (h : Recording s₀ s) (l : List QueueEntry) :
    Recording s₀ (publishFrom l s) := by
  induction l generalizing s with
  | nil => exact Recording.update h rfl
  | cons e l ih =>
    unfold publishFrom
    split
    · exact Recording.update h rfl
    · exact ih (raise_recording (publishSlot_recording h _ _) _)

theorem cwPublish_recording (h : Recording s₀ s) :
    Recording s₀ (cwPublish s) := by
  exact publishFrom_recording h _

theorem cwReady_recording (h : Recording s₀ s) (test : QueueEntry → Bool) (result : QueueEntry → RequestResult) :
    Recording s₀ (cwReady test result s) := by
  unfold cwReady
  with_reducible apply_rules [Recording.update, rfl]

theorem cwFinish_recording (h : Recording s₀ s) (result : QueueEntry → RequestResult) :
    Recording s₀ (cwFinish result s) := by
  unfold cwFinish
  repeat' split
  all_goals with_reducible apply_rules [cwReady_recording, Recording.update, rfl]

theorem smWriteView_recording (h : Recording s₀ s) :
    Recording s₀ (smWriteView s) := by
  unfold smWriteView
  split
  · exact h
  · exact store_recording (store_recording (store_recording (store_recording h _ _) _ _) _ _) _ _

/-- What the view of no segment carries (R107). -/
theorem smEmptyView_carried (h : Carried s₀ s) : Carried s₀ (smEmptyView s) := by
  unfold smEmptyView
  exact h.table.recording (smWriteView_recording (Recording.refl _))

/-- The view of no segment, where the laws hold of the table without one (R107). -/
theorem smEmptyView_recording (h : Carried s₀ s)
    (ht : BadListLaw s₀ → TableLaws s₀ → TableLaws { s with sm.segments := [] }) : Recording s₀ (smEmptyView s) := by
  unfold smEmptyView
  exact smWriteView_recording ⟨h.table, ht⟩

/-- A change of a segment's values, but its state, blocks and protection. -/
theorem smModify_recording (h : Recording s₀ s) (i : Nat) (f : Segment → Segment)
    (hf : ∀ e, (f e).blocks = e.blocks ∧ (f e).state = e.state ∧ (f e).protection = e.protection) :
    Recording s₀ (smModify i f s) :=
  h.table fun _ _ l => l.values (fun e => (hf e).1) (fun e => (hf e).2.1) fun e => (hf e).2.2

theorem smCloseOpen_recording (h : Recording s₀ s) (v : CloseValues) :
    Recording s₀ (smCloseOpen v s) := by
  unfold smCloseOpen
  split
  · exact h
  · rename_i i hi
    refine raise_recording ?_ _
    have hl : Recording s₀ { s with sm.lastClosed := some i, sm.snapshotDue := true } := Recording.update h rfl
    exact hl.table fun _ _ l => l.closed (i := i) hi (fun _ => rfl) (fun _ => rfl) fun _ => rfl

theorem smRewriteAbandoned_recording (h : Recording s₀ s) :
    Recording s₀ (smRewriteAbandoned s) := by
  unfold smRewriteAbandoned
  repeat' split
  all_goals with_reducible apply_rules [smWriteView_recording, Recording.update, rfl]

theorem cwSetWriter_recording (h : Recording s₀ s) (w : WriterState) :
    Recording s₀ (cwSetWriter w s) := by
  unfold cwSetWriter
  repeat' split
  all_goals with_reducible apply_rules [raise_recording, Recording.update, rfl]

theorem cwEnterClosing_recording (h : Recording s₀ s) (cause : StopCause) :
    Recording s₀ (cwEnterClosing cause s) := by
  unfold cwEnterClosing
  with_reducible apply_rules [cwSetWriter_recording, Recording.update, rfl]

theorem cwApplyStop_recording (h : Recording s₀ s) (cause : StopCause) :
    Recording s₀ (cwApplyStop cause s) := by
  unfold cwApplyStop
  repeat' split
  all_goals with_reducible apply_rules [cwEnterClosing_recording, Recording.update, rfl]

theorem cwStopEvent_recording (h : Recording s₀ s) (cause : StopCause) :
    Recording s₀ (cwStopEvent cause s) := by
  unfold cwStopEvent
  repeat' split
  all_goals with_reducible apply_rules [cwApplyStop_recording, Recording.update, rfl]

theorem cwReportClosed_recording (h : Recording s₀ s) :
    Recording s₀ (cwReportClosed s) := by
  unfold cwReportClosed
  with_reducible apply_rules [gaCheck_recording, puWriterDone_recording]

theorem cwEnterStopped_recording (h : Recording s₀ s) (cause : StopCause) :
    Recording s₀ (cwEnterStopped cause s) := by
  unfold cwEnterStopped
  with_reducible apply_rules [cwReportClosed_recording, cwPublish_recording, cwSetWriter_recording, Recording.update, rfl]

theorem cwDropWork_recording (h : Recording s₀ s) :
    Recording s₀ (cwDropWork s) := by
  unfold cwDropWork
  with_reducible apply_rules [Recording.update, rfl]

theorem cwFailUnready_recording (h : Recording s₀ s) :
    Recording s₀ (cwFailUnready s) := by
  unfold cwFailUnready
  with_reducible apply_rules [cwReady_recording]

theorem cwGoFaulted_recording (h : Recording s₀ s) :
    Recording s₀ (cwGoFaulted s) :=
  cwReportClosed_recording (cwPublish_recording (cwSetWriter_recording (cwFailUnready_recording (cwDropWork_recording
    (smRewriteAbandoned_recording (smCloseOpen_recording h _)))) _))

theorem cwEnterFaulted_recording (h : Recording s₀ s) :
    Recording s₀ (cwEnterFaulted s) := by
  unfold cwEnterFaulted
  repeat' split
  all_goals with_reducible apply_rules [cwGoFaulted_recording]

theorem smMountFails_recording (h : Recording s₀ s) {t : TableState} (ht : t ≠ .mounted)
    (hm : BadListLaw s₀ → TableLaws s₀ → mountBegun s.sm) : Recording s₀ (smMountFails t s) := by
  unfold smMountFails
  refine cwGoFaulted_recording (smEmptyView_recording h.toCarried.table fun b l => ?_)
  exact (h.tables b l).mountFails (hm b l) ht rfl rfl rfl rfl

theorem smFormatFails_recording (h : Recording s₀ s) (hm : BadListLaw s₀ → TableLaws s₀ → s.sm.mount = none) :
    Recording s₀ (smFormatFails s) := by
  unfold smFormatFails
  refine smEmptyView_recording h.toCarried.table fun b l => ?_
  exact (h.tables b l).formatFails (hm b l) rfl rfl rfl rfl

theorem smRequesterFailed_recording (h : Recording s₀ s) (r : Requester) :
    Recording s₀ (smRequesterFailed r s) := by
  unfold smRequesterFailed
  split
  · exact Recording.update h rfl
  · exact h.table fun _ _ l => l.noEraser.congr rfl
  · exact h

theorem smWorkFails_recording (h : Recording s₀ s) :
    Recording s₀ (smWorkFails s) := by
  unfold smWorkFails
  split
  · rename_i hf
    exact smFormatFails_recording h fun b l => (h.tables b l).noMount fun e => by rw [e] at hf; cases hf
  · split
    · exact h
    · exact h
    · rename_i p hp hn
      exact smMountFails_recording h (fun e => by cases e) fun _ _ => ⟨p, hn, fun e => hp (e ▸ rfl)⟩

theorem smFlashFailed_recording (h : Recording s₀ s) (r : Requester) :
    Recording s₀ (smFlashFailed r s) := by
  unfold smFlashFailed
  with_reducible apply_rules [smWorkFails_recording, smRequesterFailed_recording]

theorem flashFailed_recording (h : Recording s₀ s) (r : Requester) :
    Recording s₀ (flashFailed r s) := by
  have he : Recording s₀ (smEndSnapshots s) := Recording.update h rfl
  unfold flashFailed
  dsimp only
  repeat' split
  all_goals with_reducible apply_rules [cwEnterFaulted_recording, smFlashFailed_recording]

theorem flashAsk_recording (h : Recording s₀ s) (r : Requester) (op : FlashOp) :
    Recording s₀ (flashAsk r op s) := by
  unfold flashAsk
  try dsimp only
  repeat' split
  all_goals with_reducible apply_rules [feArrive_recording, flashFailed_recording]

theorem feFailWaiting_recording (h : Recording s₀ s) :
    Recording s₀ (feFailWaiting s) := by
  unfold feFailWaiting
  dsimp only
  split
  · exact Recording.update h rfl
  · refine foldl_recording ?_ _ fun h w => flashFailed_recording h _
    exact Recording.update h rfl

end Sys2Proof.Machine
end

