-- ==== Sys2Proof/Laws/RecordingSegments.lean ====
section
/-! SUPPORT. The Segment Manager's operations outside mount and Format are within `Recording`. -/

namespace Sys2Proof.Machine

variable {s₀ s : State}

/-! ### Protection -/

/-- What releases carry (R101). -/
theorem releaseOver_carried (h : Carried s₀ s) (fuel : Nat) : Carried s₀ (releaseOver fuel s) := by
  induction fuel generalizing s with
  | zero => exact h
  | succ n ih =>
    unfold releaseOver
    split
    · exact h
    · split
      · exact h
      · exact ih h.table

/-- What the protection of a target carries (R100). -/
theorem protectTarget_carried (h : Carried s₀ s) (t i : Nat) : Carried s₀ (protectTarget t i s) := by
  unfold protectTarget
  split
  · exact h
  · split
    · exact h.table
    · exact h

theorem actOnMark_recording (h : Recording s₀ s) (hf : s.sm.format = none) (k : ImpactMark) :
    Recording s₀ (actOnMark k s) := by
  have key : ∀ (l : List Nat) (u : State), Carried s u → Carried s (l.foldl (fun s i => protectTarget k.time i s) u) := by
    intro l
    induction l with
    | nil => exact fun u c => c
    | cons i l ih => exact fun u c => ih _ (protectTarget_carried c _ _)
  exact h.after (releaseOver_carried (key _ _ (Carried.refl s)) _) fun _ _ l => l.marked hf k

theorem smProtect_recording (h : Recording s₀ s) (i : Nat) :
    Recording s₀ (smProtect i s).2 := by
  refine h.after ?_ fun _ _ l => l.hostProtect i
  have c := Carried.refl s
  unfold smProtect
  repeat' split
  all_goals first | exact c | exact c.table

theorem smUnprotect_recording (h : Recording s₀ s) (i : Nat) :
    Recording s₀ (smUnprotect i s).2 := by
  refine h.after ?_ fun _ _ l => l.hostUnprotect i
  have c := Carried.refl s
  unfold smUnprotect
  repeat' split
  all_goals first | exact c | exact c.table

theorem smInstallPending_recording (h : Recording s₀ s) :
    Recording s₀ (smInstallPending s) := by
  unfold smInstallPending
  split
  · exact h
  · rename_i q _
    exact h.after (releaseOver_carried (Carried.refl s).table _) fun _ _ l => l.installed q

/-- An installation keeps the state of every segment (R101). -/
theorem smInstallPending_states (s : State) :
    (smInstallPending s).sm.segments.map (·.state) = s.sm.segments.map (·.state) := by
  unfold smInstallPending
  split
  · rfl
  · exact releaseOver_states _ _

/-- The segment at a place is Free. -/
def FreeAt (s : State) (i : Nat) : Prop := ∀ e, s.sm.segments[i]? = some e → e.state = .free

/-- A segment is Free wherever the states are the same. -/
theorem FreeAt.of_states {t : State} {i : Nat} (h : FreeAt s i)
    (hs : t.sm.segments.map (·.state) = s.sm.segments.map (·.state)) : FreeAt t i := by
  intro e he
  have h1 : (s.sm.segments.map (·.state))[i]? = some e.state := by rw [← hs, List.getElem?_map, he]; rfl
  rw [List.getElem?_map] at h1
  obtain ⟨a, ha, hae⟩ := Option.map_eq_some_iff.1 h1
  rw [← hae]
  exact h a ha

theorem smOpen_recording (h : Recording s₀ s) (i : Nat) (clip : Word) (part : Nat) (first : Nat) (hi : FreeAt s i) :
    Recording s₀ (smOpen i clip part first s) := by
  have hp := smInstallPending_recording h
  have hf := hi.of_states (smInstallPending_states s)
  unfold smOpen
  dsimp only
  generalize smInstallPending s = u at hp hf ⊢
  have hu : Recording s₀ { u with sm.sequence := nextCounter u.sm.sequence, sm.openFill := 0, sm.snapshotDue := true } :=
    Recording.update hp rfl
  exact hu.table fun _ _ l => l.opened hf (fun _ => rfl) fun _ => rfl

/-! ### Snapshots -/

theorem smTakeClip_recording (h : Recording s₀ s) :
    Recording s₀ (smTakeClip s).2 := by
  unfold smTakeClip
  try dsimp only
  with_reducible apply_rules [Recording.update, rfl]

theorem smAskPage_recording (h : Recording s₀ s) :
    Recording s₀ (smAskPage s) := by
  unfold smAskPage
  repeat' split
  all_goals with_reducible apply_rules [flashAsk_recording]

theorem smAskTableErase_recording (h : Recording s₀ s) :
    Recording s₀ (smAskTableErase s) := by
  unfold smAskTableErase
  with_reducible apply_rules [flashAsk_recording]

theorem smAbandon_recording (h : Recording s₀ s) :
    Recording s₀ (smAbandon s) :=
  cwStopEvent_recording (Recording.update h (by rfl)) _

theorem smMoveBlock_recording (h : Recording s₀ s) (pages : List (List Byte)) :
    Recording s₀ (smMoveBlock pages s) := by
  unfold smMoveBlock
  repeat' split
  all_goals with_reducible apply_rules [smAbandon_recording, smAskTableErase_recording, Recording.update, rfl]

theorem smRecordFill_recording (h : Recording s₀ s) :
    Recording s₀ (smRecordFill s) := by
  unfold smRecordFill
  split
  · exact h
  · exact smModify_recording h _ _ fun _ => by exact ⟨rfl, rfl, rfl⟩

theorem smNewSnapshot_recording (h : Recording s₀ s) :
    Recording s₀ (smNewSnapshot s).2 := by
  unfold smNewSnapshot
  try dsimp only
  with_reducible apply_rules [smRecordFill_recording, Recording.update, rfl]

theorem smBegin_recording (h : Recording s₀ s) :
    Recording s₀ (smBegin s) := by
  unfold smBegin
  try dsimp only
  repeat' split
  all_goals with_reducible apply_rules [smAbandon_recording, smNewSnapshot_recording, smAskPage_recording, smMoveBlock_recording, Recording.update, rfl]

theorem smRestart_recording (h : Recording s₀ s) :
    Recording s₀ (smRestart s) := by
  unfold smRestart
  dsimp only
  split
  · exact smAbandon_recording h
  · exact smMoveBlock_recording (smNewSnapshot_recording h) _

theorem smFlush_recording (h : Recording s₀ s) :
    Recording s₀ (smFlush s) := by
  unfold smFlush
  repeat' split
  all_goals with_reducible apply_rules [smRewriteAbandoned_recording, smBegin_recording]

theorem smDue_recording (h : Recording s₀ s) :
    Recording s₀ (smDue s) := by
  unfold smDue
  with_reducible apply_rules [Recording.update, rfl]

theorem smSnapshotComplete_recording (h : Recording s₀ s) :
    Recording s₀ (smSnapshotComplete s) := by
  unfold smSnapshotComplete
  try dsimp only
  repeat' split
  all_goals with_reducible apply_rules [smWriteView_recording, Recording.update, rfl]

theorem smPageDone_recording (h : Recording s₀ s) (w : SnapWrite) :
    Recording s₀ (smPageDone w s) := by
  have hw : Recording s₀ { s with sm.writePage := s.sm.writePage + 1 } := Recording.update h rfl
  unfold smPageDone
  dsimp only
  split
  · exact smAskPage_recording (Recording.update hw rfl)
  · exact smFlush_recording (smSnapshotComplete_recording hw)

theorem smSnapshotResult_recording (h : Recording s₀ s) (w : SnapWrite) (r : FlashResult) :
    Recording s₀ (smSnapshotResult w r s) := by
  unfold smSnapshotResult
  split
  · split
    · exact smAskPage_recording (Recording.update h rfl)
    · exact smFlush_recording (smRestart_recording (feMarkBad_recording h _))
    · exact smAskTableErase_recording h
  · split
    · exact smPageDone_recording h w
    · exact smFlush_recording (smRestart_recording (feMarkBad_recording h _))
    · exact smFlush_recording (smBegin_recording (Recording.update h rfl))

/-! ### Eraser -/

/-- What the return of blocks carries (R79). -/
theorem feReturnAll_carried (h : Carried s₀ s) (bs : List Nat) : Carried s₀ (feReturnAll bs s) := by
  induction bs generalizing s with
  | nil => exact h
  | cons b bs ih => exact ih (feReturn_carried h b)

/-- What the retirement of a segment carries (R97). -/
theorem smRetireSegment_carried (h : Carried s₀ s) (i : Nat) (kept : List Nat) :
    Carried s₀ (smRetireSegment i kept s) := by
  unfold smRetireSegment
  exact (feReturnAll_carried h.table _).table

/-- The segment at the eraser is Retired with none of its blocks (R97). -/
theorem smRetireSegment_recording (h : Recording s₀ s) {j : EraseJob} (hj : s.sm.eraser = some j) :
    Recording s₀ (smRetireSegment j.segment [] s) :=
  h.after (smRetireSegment_carried (Carried.refl s) _ _) fun _ _ l =>
    l.retiredWhole fun _ he => l.eraserUnprotected hj he

theorem smEraseNext_recording (h : Recording s₀ s) :
    Recording s₀ (smEraseNext s) := by
  unfold smEraseNext
  split
  · exact h
  · rename_i j hj
    split
    · exact h.table fun _ _ l => l.noEraser
    · split
      · split
        · exact h.table fun _ _ l => l.noEraser
        · exact flashAsk_recording h _ _
      · split
        · exact smRetireSegment_recording h hj
        · have hn : Recording s₀ { s with sm.eraser := none } := h.table fun _ _ l => l.noEraser
          refine smDue_recording (h.after (Carried.refl s).table fun _ _ l => ?_)
          exact l.noEraser.blank rfl fun _ _ he => l.eraserUnprotected hj he

/-- A segment that is taken for erasure keeps no protection in force (R95). -/
theorem smStartErase_recording (h : Recording s₀ s) (i : Nat)
    (hi : BadListLaw s₀ → TableLaws s₀ → counted s.sm = true → ∀ e, s.sm.segments[i]? = some e →
      protectedBy .impact e = false) : Recording s₀ (smStartErase i s) := by
  unfold smStartErase
  refine smFlush_recording (smEraseNext_recording (smFlush_recording (smDue_recording ?_)))
  refine h.after (Carried.refl s).table fun b l₀ l => ?_
  have k := l.noEraser.blank (i := i) (st := .erasing) rfl (hi b l₀)
  refine (k.newEraser (j := ⟨i, 0⟩) fun e he => ?_).congr rfl
  simp only [smModify, modifyAt_get, if_true] at he
  obtain ⟨a, -, rfl⟩ := Option.map_eq_some_iff.1 he
  rfl

/-- A Closed segment without protection is taken for erasure (R94). -/
theorem smStartErase_erasable (h : Recording s₀ s) {i : Nat} (hi : oldestWhere s.sm erasable = some i) :
    Recording s₀ (smStartErase i s) := by
  refine smStartErase_recording h i fun _ _ _ e he => ?_
  obtain ⟨a, ha, ht⟩ := oldestWhere_some hi
  obtain rfl : e = a := by simpa using he.symm.trans ha
  refine protectedBy_none ?_
  simp only [erasable, Bool.and_eq_true, Option.isNone_iff_eq_none] at ht
  exact ht.2

theorem smListChanged_recording (h : Recording s₀ s) {j : EraseJob} (hj : s.sm.eraser = some j) :
    Recording s₀ (smListChanged j s) := by
  unfold smListChanged
  split
  · exact smRetireSegment_recording h hj
  · exact smEraseNext_recording (smFlush_recording h)

/-- The block at a place of a segment's list. -/
theorem listedBlock_some {i k b : Nat} (h : listedBlock s i k = some b) :
    ∃ e, s.sm.segments[i]? = some e ∧ e.blocks[k]? = some b := by
  unfold listedBlock at h
  obtain ⟨l, hl, hb⟩ := Option.bind_eq_some_iff.1 h
  obtain ⟨e, he, rfl⟩ := Option.map_eq_some_iff.1 hl
  exact ⟨e, he, hb⟩

/-- A taken block leaves the Segment Manager as it was. -/
theorem feTake_sm (s : State) : (feTake s).2.sm = s.sm := by
  unfold feTake
  split <;> rfl

theorem smEraseFailed_recording (h : Recording s₀ s) {j : EraseJob} {b : Nat} (hj : s.sm.eraser = some j)
    (hb : listedBlock s j.segment j.position = some b) : Recording s₀ (smEraseFailed j b s) := by
  obtain ⟨e, he, hk⟩ := listedBlock_some hb
  have hr := feRetire_carried (Carried.refl s) b
  have ht := feTake_carried hr
  have hsm : (feTake (feRetire b s).2).2.sm = s.sm := (feTake_sm _).trans (feRetire_others b s).2.1
  unfold smEraseFailed
  dsimp only
  split
  · rename_i ha
    have hl := fun l : TableLaws s => l.replaced he hk ha
    split <;> rename_i heq <;> rw [heq] at ht hsm
    · exact smListChanged_recording (h.after ht.table fun _ _ l => (hl l).1 _ _ heq) ((congrArg Sm.eraser hsm).trans hj)
    · exact smListChanged_recording (h.after ht.table fun _ _ l => (hl l).2 _ heq) ((congrArg Sm.eraser hsm).trans hj)
  · rename_i ha
    have ha : (feRetire b s).1 = false := by simpa using ha
    have hs := (feRetire_others b s).2.1
    refine h.after (smRetireSegment_carried hr _ _) fun _ _ l => ?_
    exact (l.refused ha).retiredBut (e := e) (by rw [hs]; exact he) hk (l.eraserUnprotected hj he)

theorem smEraserResult_recording (h : Recording s₀ s) (r : FlashResult) :
    Recording s₀ (smEraserResult r s) := by
  unfold smEraserResult
  split
  · exact h
  · rename_i j hj
    split
    · refine smEraseNext_recording (h.table fun _ _ l => l.newEraser fun e he => ?_)
      exact l.erasing j e hj he
    · split
      · exact smEraseNext_recording h
      · exact smEraseFailed_recording h hj ‹_›
    · exact smEraseNext_recording h

/-! ### Erase-ahead, allocation and intake -/

theorem smEraseAhead_recording (h : Recording s₀ s) :
    Recording s₀ (smEraseAhead s) := by
  unfold smEraseAhead
  split
  · split
    · exact h
    · exact smStartErase_erasable h ‹_›
  · exact h

theorem smSettle_recording (h : Recording s₀ s) :
    Recording s₀ (smSettle s) := by
  unfold smSettle
  with_reducible apply_rules [smEraseAhead_recording, smFlush_recording]

theorem smAllocate_recording (h : Recording s₀ s) :
    Recording s₀ (smAllocate s).2 := by
  unfold smAllocate
  split
  · exact h
  · split
    · exact h
    · split
      · exact smStartErase_erasable h ‹_›
      · exact h

/-- An allocation answers with a segment that is Free (R94). -/
theorem smAllocate_free {i : Nat} (h : (smAllocate s).1 = some (.segment i)) : FreeAt (smAllocate s).2 i := by
  unfold smAllocate at *
  split at h
  · rename_i k hk
    obtain rfl : k = i := by simpa using h
    obtain ⟨a, ha, hf⟩ := lowestFree_some hk
    intro e he
    obtain rfl : e = a := by simpa using he.symm.trans ha
    exact hf
  · split at h
    · cases h
    · split at h
      · cases h
      · cases h

theorem smIntakeAll_recording (h : Recording s₀ s) (marks : List ImpactMark) :
    Recording s₀ (smIntakeAll marks s) := by
  induction marks generalizing s with
  | nil => exact h
  | cons k rest ih =>
    unfold smIntakeAll
    split
    · rename_i ho
      refine ih (smSettle_recording (actOnMark_recording (Recording.marks h _) ?_ _))
      simp only [intakeOpen, tableServes, Bool.and_eq_true, Option.isNone_iff_eq_none] at ho
      exact ho.1.1.2
    · exact h

theorem smIntake_recording (h : Recording s₀ s) :
    Recording s₀ (smIntake s) := smIntakeAll_recording h _

/-! ### The Clip Writer's requests -/

theorem smPageReport_recording (h : Recording s₀ s) :
    Recording s₀ (smPageReport s) := by
  unfold smPageReport
  with_reducible apply_rules [smEraseAhead_recording, Recording.update, rfl]

theorem smReplaceBlock_recording (h : Recording s₀ s) {i k b : Nat} (hb : listedBlock s i k = some b) :
    Recording s₀ (smReplaceBlock i k b s).2 := by
  obtain ⟨e, he, hk⟩ := listedBlock_some hb
  have hr := feRetire_carried (Carried.refl s) b
  have ht := feTake_carried hr
  unfold smReplaceBlock
  dsimp only
  split
  · rename_i ha
    have hl := fun l : TableLaws s => l.replaced he hk ha
    split <;> rename_i heq <;> rw [heq] at ht
    · exact smFlush_recording (h.after ht.table fun _ _ l => (hl l).1 _ _ heq)
    · exact smFlush_recording (h.after ht.table fun _ _ l => (hl l).2 _ heq)
  · rename_i ha
    exact h.after hr fun _ _ l => l.refused (by simpa using ha)

theorem smReplace_recording (h : Recording s₀ s) (k : Nat) :
    Recording s₀ (smReplace k s).2 := by
  unfold smReplace
  split
  · exact h
  · split
    · exact h
    · exact smReplaceBlock_recording h ‹_›

theorem smSetDamaged_recording (h : Recording s₀ s) (i : Nat) :
    Recording s₀ (smSetDamaged i s) := by
  unfold smSetDamaged
  split
  · exact h
  · split
    · exact h
    · exact smFlush_recording (smDue_recording (smModify_recording h _ _ fun _ => by exact ⟨rfl, rfl, rfl⟩))

theorem smSetWeak_recording (h : Recording s₀ s) (i : Nat) :
    Recording s₀ (smSetWeak i s) := by
  unfold smSetWeak
  split
  · exact h
  · split
    · exact h
    · exact smFlush_recording (smDue_recording (smModify_recording h _ _ fun _ => by exact ⟨rfl, rfl, rfl⟩))

end Sys2Proof.Machine
end

