-- ==== Sys2Proof/Laws/RecordingMount.lean ====
section
/-! SUPPORT. The mount, the recovery and the Format are within `Recording`. -/

namespace Sys2Proof.Machine

variable {s₀ s : State}

/-- A complete snapshot passes the checks of its image (R105). -/
theorem completeSnapshot_valid {pages : List SnapPage} {g : Word} {t : TableLoad}
    (h : completeSnapshot pages g = some t) : imageValid t = true := by
  unfold completeSnapshot at h
  split at h
  · cases h
  · split at h
    · cases h
    · split at h
      · split at h
        · cases h
        · split at h
          · cases h; assumption
          · cases h
      · cases h

/-- The snapshot that a mount takes passes the checks of its image (R105). -/
theorem newestSnapshot_valid {pages : List SnapPage} {t : TableLoad} {b : Nat}
    (h : newestSnapshot pages = some (t, b)) : imageValid t = true := by
  suffices key : ∀ (l : List SnapPage) (best : Option (TableLoad × Nat)),
      (∀ u c, best = some (u, c) → imageValid u = true) → ∀ u c,
      l.foldl (fun best p =>
        match completeSnapshot pages p.generation with
        | none => best
        | some t =>
          match best with
          | none => some (t, p.block)
          | some (u, b) => if 0 < seqDiff t.generation u.generation then some (t, p.block) else some (u, b)) best
        = some (u, c) → imageValid u = true from
    key pages none (by simp) t b h
  intro l
  induction l with
  | nil => exact fun best hb u c hu => hb u c hu
  | cons p l ih =>
    intro best hb
    refine ih _ fun u c hu => ?_
    dsimp only at hu
    split at hu
    · exact hb u c hu
    · rename_i v hv
      have hvalid := completeSnapshot_valid hv
      split at hu
      · cases hu; exact hvalid
      · split at hu
        · cases hu; exact hvalid
        · cases hu; exact hb _ _ rfl

/-- The bad block list that a mount loads obeys its law (R77, R105). -/
theorem newestSnapshot_bad {pages : List SnapPage} {t : TableLoad} {b : Nat}
    (h : newestSnapshot pages = some (t, b)) : ascending t.bad = true ∧ t.bad.length ≤ 512 := by
  have hv := newestSnapshot_valid h
  simp only [imageValid, Bool.and_eq_true, decide_eq_true_eq] at hv
  exact ⟨hv.1.1.1.1.1.2, hv.1.1.1.2⟩

/-! ### Mount -/

theorem smMountBegin_recording (h : Recording s₀ s) (hp : BadListLaw s₀ → TableLaws s₀ → s.part.state ≠ .running)
    (hr : s.hp.reading = none) : Recording s₀ (smMountBegin s) := by
  unfold smMountBegin
  exact flashAsk_recording (h.table fun b l _ => .mountBegin (hp b l) hr rfl rfl rfl rfl) _ _

theorem smMountUnformatted_recording (h : Recording s₀ s) (pages : List SnapPage)
    (hm : BadListLaw s₀ → TableLaws s₀ → mountBegun s.sm) : Recording s₀ (smMountUnformatted pages s) := by
  unfold smMountUnformatted
  refine cwEnterStopped_recording (smEmptyView_recording (feClearRecords_carried h.toCarried.table) fun b l => ?_) _
  have k := (h.tables b l).mountFails (x := .unformatted) (hm b l) (fun e => by cases e) (sm := { s.sm with
    table := .unformatted, mount := none, segments := []
    generation := (highestGeneration pages).getD s.sm.generation }) rfl rfl rfl rfl
  refine k.records ?_
  have := (h.tables b l).noFormat (hm b l).notNone
  simp [standing, this]

/-- What a recovery goes on from: the mount has begun, and the blocks of the table it has loaded are placed (R106). -/
def Recovering (s : State) : Prop := mountBegun s.sm ∧ BlocksPlaced s

/-- A phase of the mount in which the table is loaded (R106). -/
theorem TableLaws.recovering {p : MountPhase} (l : TableLaws s) (hm : s.sm.mount = some p) (hp : p.recovers = true) :
    Recovering s :=
  ⟨⟨p, hm, fun e => by rw [e] at hp; cases hp⟩, l.placed (by simp [standing, hm, hp])⟩

/-- The end of the recovery, after a change of the Open entry. -/
theorem smRecoveryEnd_recording (h : Recording s₀ s) {i : Nat} {f : Segment → Segment}
    (hm : BadListLaw s₀ → TableLaws s₀ → Recovering s) (hb : ∀ e, (f e).blocks = e.blocks)
    (hu : ∀ e, s.sm.segments[i]? = some e → TableLaws s → holdsData (f e) = false → (f e).protection = none) :
    Recording s₀ (smRecoveryEnd (smModify i f s)) := by
  unfold smRecoveryEnd
  refine smFlush_recording (smDue_recording ?_)
  refine h.after (releaseOver_carried (Carried.refl s).table _) fun b l₀ l => ?_
  refine l.recovered (hm b l₀).1 (by simpa [smModify] using l.few) (fun e he hd => ?_) ((hm b l₀).2.same fun e _ => hb e)
  rcases mem_modifyAt he with he | ⟨a, ha, rfl⟩
  · exact l.unprotected e he hd
  · exact hu a ha l hd

/-- The same with no Open entry. -/
theorem smRecoveryEnd_unchanged (h : Recording s₀ s) (hm : BadListLaw s₀ → TableLaws s₀ → Recovering s) :
    Recording s₀ (smRecoveryEnd s) := by
  unfold smRecoveryEnd
  refine smFlush_recording (smDue_recording ?_)
  refine h.after (releaseOver_carried (Carried.refl s).table _) fun b l₀ l => ?_
  exact l.recovered (l' := s.sm.segments) (hm b l₀).1 l.few l.unprotected (hm b l₀).2

theorem smScanEnd_recording (h : Recording s₀ s) (i : Nat) (last : Option ProgressMark) (damaged : Bool)
    (hm : BadListLaw s₀ → TableLaws s₀ → Recovering s) : Recording s₀ (smScanEnd i last damaged s) := by
  have hf : ∀ e, (recoveredSegment last damaged e).blocks = e.blocks
      ∧ (recoveredSegment last damaged e).state = .closed := by
    intro e
    unfold recoveredSegment
    dsimp only
    split <;> exact ⟨rfl, rfl⟩
  unfold smScanEnd
  exact smRecoveryEnd_recording h hm (fun e => (hf e).1) fun e _ _ hd => by simp [holdsData, (hf e).2] at hd

theorem smScanEmpty_recording (h : Recording s₀ s) (i : Nat) (hm : BadListLaw s₀ → TableLaws s₀ → Recovering s) :
    Recording s₀ (smScanEmpty i s) := by
  unfold smScanEmpty
  exact smRecoveryEnd_recording h hm (fun _ => rfl) fun _ _ _ _ => rfl

theorem smScanRead_recording (h : Recording s₀ s) (i : Nat) (p : Nat) (last : Option ProgressMark) (damaged : Bool)
    (hm : BadListLaw s₀ → TableLaws s₀ → Recovering s) : Recording s₀ (smScanRead i p last damaged s) := by
  unfold smScanRead
  dsimp only
  split
  · refine flashAsk_recording (h.table fun b l₀ l => ?_) _ _
    exact l.remount (hm b l₀).1 (fun e => by cases e) fun _ => (hm b l₀).2
  · exact smScanEnd_recording h _ _ _ hm

theorem smScanBegin_recording (h : Recording s₀ s) (hm : BadListLaw s₀ → TableLaws s₀ → Recovering s) :
    Recording s₀ (smScanBegin s) := by
  unfold smScanBegin
  split
  · exact smRecoveryEnd_unchanged h hm
  · exact smScanRead_recording h _ _ _ _ hm

theorem smReErase_recording (h : Recording s₀ s) (left : List Nat)
    (hm : BadListLaw s₀ → TableLaws s₀ → Recovering s) : Recording s₀ (smReErase left s) := by
  unfold smReErase
  split
  · exact smScanBegin_recording h hm
  · refine smStartErase_recording (h.table fun b l₀ l => ?_) _ fun _ _ hc => ?_
    · exact l.remount (hm b l₀).1 (fun e => by cases e) fun _ => (hm b l₀).2
    · simp [counted] at hc

/-- The table loaded from a snapshot that passes its checks (R80, R105). -/
theorem smLoad_laws (l : TableLaws s) (hm : mountBegun s.sm) (h1 : s.sm.mount ≠ some .finalSnapshot) {t : TableLoad}
    (hv : imageValid t = true) (block : Nat) (pages : List SnapPage) (ends : List (Nat × Nat)) :
    TableLaws (smLoad t block pages ends s) ∧ Recovering (smLoad t block pages ends s) := by
  unfold smLoad feLoadRecords feJudgeWorn
  have key : ∀ u : State, TableLaws u ∧ BlocksPlaced u → mountBegun u.sm →
      (TableLaws (feSetWorn u) ∧ Recovering (feSetWorn u))
        ∧ (TableLaws { u with fe.worn := false } ∧ Recovering { u with fe.worn := false }) := by
    intro u hu hmu
    obtain ⟨h1, h2, h3, h4, h5⟩ := feSetWorn_others u
    refine ⟨⟨hu.1.congr (by simp [h1, h2, h3, h4, h5]), ?_, ?_⟩, hu.1.congr rfl, hmu, hu.2⟩
    · rw [h2]; exact hmu
    · have := hu.2
      unfold BlocksPlaced at *
      rw [h2, h4, h5]
      exact this
  have hl := l.loaded hm hv (sm := { s.sm with
      bps := t.bps, segments := t.segments.map loadedSegment, eraser := none, sequence := t.sequence, clip := t.clip
      generation := (highestGeneration pages).getD t.generation
      completeGeneration := t.generation, writeBlock := block
      writePage := ((ends.find? fun e => decide (e.1 = block)).map (·.2)).getD 256 }) rfl rfl rfl rfl h1
  have hk := key { s with
      fe.bad := t.bad, fe.pool := t.pool, fe.tableMap := t.map
      sm := { s.sm with
        bps := t.bps, segments := t.segments.map loadedSegment, eraser := none, sequence := t.sequence, clip := t.clip
        generation := (highestGeneration pages).getD t.generation
        completeGeneration := t.generation, writeBlock := block
        writePage := ((ends.find? fun e => decide (e.1 = block)).map (·.2)).getD 256 } }
    ⟨hl.1.congr rfl, hl.2⟩ hm
  split
  · exact hk.1
  · exact hk.2

/-- What a load carries (R80). -/
theorem smLoad_carried (h : Carried s₀ s) (t : TableLoad) (block : Nat) (pages : List SnapPage)
    (ends : List (Nat × Nat)) (hb : ascending t.bad = true ∧ t.bad.length ≤ 512) :
    Carried s₀ (smLoad t block pages ends s) := by
  unfold smLoad feLoadRecords
  exact (h.update (fun _ => hb) (Settles.refl _)).recording (feJudgeWorn_recording (Recording.refl _))

/-- The reading of the table area goes on: the mount has begun, and has not counted (R105). -/
def ReadingArea (s : State) : Prop := mountBegun s.sm ∧ s.sm.mount ≠ some .finalSnapshot

theorem smTableRead_recording (h : Recording s₀ s) (pages : List SnapPage) (ends : List (Nat × Nat))
    (hm : ReadingArea s) : Recording s₀ (smTableRead pages ends s) := by
  unfold smTableRead
  split
  · exact smMountUnformatted_recording h _ fun _ _ => hm.1
  · rename_i t block heq
    have hv := newestSnapshot_valid heq
    refine h.trans (smReErase_recording ?_ _ fun _ l => (smLoad_laws l hm.1 hm.2 hv _ _ _).2)
    exact ⟨smLoad_carried (Carried.refl s) _ _ _ _ (newestSnapshot_bad heq),
      fun _ l => (smLoad_laws l hm.1 hm.2 hv _ _ _).1⟩

theorem smAskTablePage_recording (h : Recording s₀ s) (b : Nat) (p : Nat) (pages : List SnapPage)
    (ends : List (Nat × Nat)) (hm : ReadingArea s) : Recording s₀ (smAskTablePage b p pages ends s) := by
  unfold smAskTablePage
  split
  · exact flashAsk_recording (h.table fun _ _ l => l.remount hm.1 (fun e => by cases e) fun e => by cases e) _ _
  · exact smTableRead_recording h _ _ hm

theorem smTablePage_recording (h : Recording s₀ s) (b : Nat) (p : Nat) (pages : List SnapPage)
    (ends : List (Nat × Nat)) (r : PageResult) (hm : ReadingArea s) :
    Recording s₀ (smTablePage b p pages ends r s) := by
  unfold smTablePage
  dsimp only
  repeat' split
  all_goals exact smAskTablePage_recording h _ _ _ _ hm

theorem smScanPage_recording (h : Recording s₀ s) (i : Nat) (p : Nat) (last : Option ProgressMark) (damaged : Bool)
    (r : PageResult) (hm : BadListLaw s₀ → TableLaws s₀ → Recovering s) :
    Recording s₀ (smScanPage i p last damaged r s) := by
  unfold smScanPage
  split
  · split
    · exact smScanEmpty_recording h _ hm
    · exact smScanEnd_recording h _ _ _ hm
  · split
    · split
      · exact smScanRead_recording h _ _ _ _ hm
      · exact smScanEnd_recording h _ _ _ hm
    · exact smScanRead_recording h _ _ _ _ hm

/-- A phase of the reading of the table area (R105). -/
theorem readingArea_of {p : MountPhase} (h : s.sm.mount = some p) (h1 : p ≠ .finishing) (h2 : p ≠ .finalSnapshot) :
    ReadingArea s := ⟨⟨p, h, h1⟩, fun e => h2 (Option.some.inj (h.symm.trans e))⟩

theorem smMountResult_recording (h : Recording s₀ s) (op : FlashOp) (r : FlashResult) :
    Recording s₀ (smMountResult op r s) := by
  unfold smMountResult
  split
  · rename_i hm
    exact smAskTablePage_recording h _ _ _ _ (readingArea_of hm (fun e => by cases e) fun e => by cases e)
  · rename_i hm
    exact smMountFails_recording h (fun e => by cases e) fun _ _ => ⟨_, hm, fun e => by cases e⟩
  · rename_i hm
    exact smTablePage_recording h _ _ _ _ _ (readingArea_of hm (fun e => by cases e) fun e => by cases e)
  · rename_i hm
    exact smScanPage_recording h _ _ _ _ _ fun b l => (h.tables b l).recovering hm rfl
  · exact flashAsk_recording h _ _
  · exact h

/-! ### Format -/

/-- What a Format may go on from before its partition: no mount, and no table in force (R90). -/
def Unmounted (s : State) : Prop := s.sm.mount = none ∧ s.sm.table ≠ .mounted

theorem TableLaws.unmounted (l : TableLaws s) (h : s.sm.format ≠ none) : Unmounted s :=
  ⟨l.noMount h, l.formatting h⟩

theorem Partitioned.unmounted (h : Partitioned s) : Unmounted s := ⟨h.noMount, h.notMounted⟩

theorem smFormatOk_recording (h : Recording s₀ s) {p : FormatPhase} (hf : s.sm.format = some p)
    (hp : p.erases = true) : Recording s₀ (smFormatOk s) := by
  unfold smFormatOk
  dsimp only
  refine cwEnterStopped_recording (Recording.update (cwFinish_recording (smWriteView_recording ?_) _) rfl) _
  exact h.table fun _ _ l => l.formatOk hf hp

theorem smFormatWorn_recording (h : Recording s₀ s) (hm : BadListLaw s₀ → TableLaws s₀ → s.sm.mount = none) :
    Recording s₀ (smFormatWorn s) := by
  unfold smFormatWorn
  exact cwEnterStopped_recording (Recording.update (cwFinish_recording (smFormatFails_recording h hm) _) rfl) _

theorem smFirstSnapshot_recording (h : Recording s₀ s) (hm : BadListLaw s₀ → TableLaws s₀ → Partitioned s) :
    Recording s₀ (smFirstSnapshot s) := by
  unfold smFirstSnapshot
  refine smFlush_recording (smDue_recording (h.table fun b l₀ l => ?_))
  exact (l.reformat (p := .firstSnapshot) (hm b l₀).noMount (hm b l₀).notMounted fun _ => hm b l₀).congr rfl

theorem smFormatErase_recording (h : Recording s₀ s) (i : Nat) (hm : BadListLaw s₀ → TableLaws s₀ → Partitioned s) :
    Recording s₀ (smFormatErase i s) := by
  unfold smFormatErase
  split
  · refine smStartErase_recording (h.table fun b l₀ l => ?_) _ fun b l₀ _ e he => ?_
    · exact l.reformat (hm b l₀).noMount (hm b l₀).notMounted fun _ => hm b l₀
    · exact (hm b l₀).clear.2 e (List.mem_of_getElem? he)
  · exact smFirstSnapshot_recording h hm

theorem smFormatTable_recording (h : Recording s₀ s) (blocks : List Nat)
    (hm : BadListLaw s₀ → TableLaws s₀ → Partitioned s) : Recording s₀ (smFormatTable blocks s) := by
  unfold smFormatTable
  split
  · exact smFormatErase_recording h _ hm
  · refine flashAsk_recording (h.table fun b l₀ l => ?_) _ _
    exact l.reformat (hm b l₀).noMount (hm b l₀).notMounted fun _ => hm b l₀

theorem smPartition_recording (h : Recording s₀ s) (hm : BadListLaw s₀ → TableLaws s₀ → Unmounted s) :
    Recording s₀ (smPartition s) := by
  unfold smPartition
  dsimp only
  split
  · exact smFormatWorn_recording h fun b l => (hm b l).1
  · have key := fun (b : BadListLaw s₀) (l₀ : TableLaws s₀) =>
      (h.tables b l₀).partition (hm b l₀).1 (hm b l₀).2 (h.badList b) (bps := s.sm.params.bps)
        (sm := { s.sm with
          bps := s.sm.params.bps
          segments := (formatGroups s.sm.params.bps (goodBlocks s.fe.bad)).map (blankSegment .erasing)
          sequence := 1, clip := 1, impactCount := 0, hostCount := 0, generation := 0 })
        (by dsimp only) (by dsimp only) (by dsimp only) (by dsimp only)
    refine smFormatTable_recording ?_ _ ?_
    · exact ⟨h.toCarried.update id (Settles.refl _), fun b l => (key b l).1⟩
    · exact fun b l => (key b l).2

theorem smSurvey_recording (h : Recording s₀ s) (b : Nat) (hm : BadListLaw s₀ → TableLaws s₀ → Unmounted s) :
    Recording s₀ (smSurvey b s) := by
  unfold smSurvey
  split
  · refine flashAsk_recording (h.table fun b l₀ l => ?_) _ _
    exact l.reformat (hm b l₀).1 (hm b l₀).2 fun e => by cases e
  · split
    · exact smFormatWorn_recording h fun b l => (hm b l).1
    · exact smPartition_recording h hm

theorem smMarker_recording (h : Recording s₀ s) {b : Nat} (v : Byte) (hf : s.sm.format = some (.survey b)) :
    Recording s₀ (smMarker b v s) := by
  have hm : TableLaws s → Unmounted s := fun l => l.unmounted (by rw [hf]; exact fun e => by cases e)
  have hsm := (feRetire_others b s).2.1
  have hr : Recording s (feRetire b s).2 := ⟨feRetire_carried (Carried.refl s) b, fun _ l => by
    have hs : standing s.sm = false := by simp [standing, hf, (hm l).1, (hm l).2, FormatPhase.erases]
    exact (l.records hs (fe := (feRetire b s).2.fe)).congr (by simp [(feRetire_others b s).1, hsm, (feRetire_others b s).2.2])⟩
  have hu : BadListLaw s → TableLaws s → Unmounted (feRetire b s).2 := fun _ l => by
    unfold Unmounted
    rw [hsm]
    exact hm l
  unfold smMarker
  dsimp only
  split
  · exact smSurvey_recording h _ fun b l => hm (h.tables b l)
  · split
    · exact h.trans (smSurvey_recording hr _ hu)
    · exact h.trans (smFormatWorn_recording hr fun b l => (hu b l).1)

theorem smSurveyResult_recording (h : Recording s₀ s) (op : FlashOp) (r : FlashResult) :
    Recording s₀ (smSurveyResult op r s) := by
  unfold smSurveyResult
  split
  · exact smMarker_recording h _ ‹_›
  · exact flashAsk_recording h _ _
  · exact h

theorem smFormatTableResult_recording (h : Recording s₀ s) (r : FlashResult) :
    Recording s₀ (smFormatTableResult r s) := by
  unfold smFormatTableResult
  split
  · rename_i c rest hf
    have hp := fun (b : BadListLaw s₀) (l : TableLaws s₀) => (h.tables b l).partitioned hf rfl
    split
    · exact smFormatTable_recording h _ hp
    · have hb := feMarkBad_recording h c
      obtain ⟨h1, h2, -, h4, h5⟩ := feMarkBad_others c s
      have hq : BadListLaw s₀ → TableLaws s₀ → Partitioned (feMarkBad c s) := fun b l => by
        obtain ⟨k1, k2, k3, k4⟩ := hp b l
        refine ⟨by rw [h2]; exact k1, by rw [h2]; exact k2, ?_, by rw [h2]; exact k4⟩
        unfold BlocksPlaced at *
        rw [h2, h4, h5]
        exact k3
      dsimp only
      split
      · exact smFormatWorn_recording hb fun b l => (hq b l).noMount
      · exact smFormatTable_recording hb _ hq
    · exact smFormatTable_recording h _ hp
  · exact h

theorem smFormatBegin_recording (h : Recording s₀ s) (hm : BadListLaw s₀ → TableLaws s₀ → s.sm.mount = none) :
    Recording s₀ (smFormatBegin s) := by
  unfold smFormatBegin smSurvey
  rw [if_pos (by omega)]
  refine flashAsk_recording ?_ _ _
  unfold smInstallForFormat
  split
  · exact ⟨h.toCarried.update (fun _ => ⟨rfl, Nat.zero_le _⟩) (Settles.refl _),
      fun b l => (h.tables b l).formatBegin (hm b l) rfl rfl rfl rfl⟩
  · exact ⟨h.toCarried.update (fun _ => ⟨rfl, Nat.zero_le _⟩) (Settles.refl _),
      fun b l => (h.tables b l).formatBegin (hm b l) rfl rfl rfl rfl⟩

/-! ### Going on -/

theorem smEraseEnded_recording (h : Recording s₀ s) :
    Recording s₀ (smEraseEnded s) := by
  unfold smEraseEnded
  split
  · rename_i hm
    exact smReErase_recording h _ fun b l => (h.tables b l).recovering hm rfl
  · rename_i hf
    exact smFormatErase_recording h _ fun b l => (h.tables b l).partitioned hf rfl
  · exact h

theorem smMountOk_recording (h : Recording s₀ s) (hm : s.sm.mount = some .finalSnapshot) :
    Recording s₀ (smMountOk s) := by
  unfold smMountOk
  exact cwEnterStopped_recording (smWriteView_recording (h.table fun _ _ l => l.mountOk hm)) _

theorem smGoOn_recording (h : Recording s₀ s) :
    Recording s₀ (smGoOn s) := by
  unfold smGoOn
  split
  · exact h
  · split
    · rename_i hm
      have hf := smFlush_recording (Recording.refl s)
      dsimp only
      split
      · rename_i hr
        simp only [Bool.and_eq_true, Option.isNone_iff_eq_none] at hr
        refine h.trans (smMountBegin_recording hf (fun _ l => ?_) hr.2)
        rw [hf.part]
        exact l.mounting (by rw [hm]; exact fun e => by cases e)
      · exact h.trans hf
    · rename_i hm
      split
      · exact h
      · exact smMountOk_recording h hm
    · rename_i hf
      split
      · exact h
      · split
        · exact smFormatWorn_recording h fun b l => (h.tables b l).noMount (by rw [hf]; exact fun e => by cases e)
        · exact smFormatOk_recording h hf rfl
    · exact h

end Sys2Proof.Machine
end

