-- ==== Sys2Proof/Laws/RecordingWriter.lean ====
section
/-! SUPPORT. The Clip Writer's operations are within `Recording`. -/

namespace Sys2Proof.Machine

variable {s₀ s : State}

theorem trackEntries_recording (h : Recording s₀ s) (segment : Nat) (frames : List Nat) :
    Recording s₀ (trackEntries segment frames s).2.2 := by
  induction frames generalizing s with
  | nil => exact h
  | cons m rest ih => exact ih (puQuery_recording h m segment)

theorem cwModifyEntry_recording (h : Recording s₀ s) (q : Word) (f : QueueEntry → QueueEntry) :
    Recording s₀ (cwModifyEntry q f s) := by
  unfold cwModifyEntry
  with_reducible apply_rules [Recording.update, rfl]

theorem cwSetDeadline_recording (h : Recording s₀ s) :
    Recording s₀ (cwSetDeadline s) := by
  unfold cwSetDeadline
  try dsimp only
  with_reducible apply_rules [Recording.update, rfl]

theorem cwAppend_recording (h : Recording s₀ s) (bytes : List Byte) :
    Recording s₀ (cwAppend bytes s) := by
  unfold cwAppend
  try dsimp only
  repeat' split
  all_goals with_reducible apply_rules [cwSetDeadline_recording, Recording.update, rfl]

theorem cwPad_recording (h : Recording s₀ s) :
    Recording s₀ (cwPad s) := by
  unfold cwPad
  with_reducible apply_rules [cwAppend_recording]

theorem cwAskProgram_recording (h : Recording s₀ s) (e : Segment) (m : ProgressMark) :
    Recording s₀ (cwAskProgram e m s) := by
  unfold cwAskProgram
  try dsimp only
  with_reducible apply_rules [flashAsk_recording]

theorem cwProgram_recording (h : Recording s₀ s) :
    Recording s₀ (cwProgram s) := by
  unfold cwProgram
  try dsimp only
  repeat' split
  all_goals with_reducible apply_rules [cwAskProgram_recording, Recording.update, rfl]

theorem cwReprogram_recording (h : Recording s₀ s) :
    Recording s₀ (cwReprogram s) := by
  unfold cwReprogram
  repeat' split
  all_goals with_reducible apply_rules [cwAskProgram_recording]

theorem cwStartPair_recording (h : Recording s₀ s) (q : Word) :
    Recording s₀ (cwStartPair q s) := by
  unfold cwStartPair
  with_reducible apply_rules [cwModifyEntry_recording, Recording.update, rfl]

theorem cwBuildTrack_recording (h : Recording s₀ s) (q : Word) (r : Request) :
    Recording s₀ (cwBuildTrack q r s) := by
  refine cwModifyEntry_recording ?_ _ _
  exact Recording.update (trackEntries_recording h _ _) rfl

theorem cwCopyChunk_recording (h : Recording s₀ s) (q : Word) (r : Request) (offset : Nat) :
    Recording s₀ (cwCopyChunk q r offset s) := by
  unfold cwCopyChunk
  try dsimp only
  repeat' split
  all_goals with_reducible apply_rules [cwAppend_recording, cwBuildTrack_recording, Recording.update, rfl]

theorem cwPairDone_recording (h : Recording s₀ s) (q : Word) (r : Request) :
    Recording s₀ (cwPairDone q r s) := by
  unfold cwPairDone
  try dsimp only
  repeat' split
  all_goals with_reducible apply_rules [cwModifyEntry_recording, Recording.update, rfl]

theorem cwCopyTrack_recording (h : Recording s₀ s) (q : Word) (r : Request) (rest : List Byte) :
    Recording s₀ (cwCopyTrack q r rest s) := by
  unfold cwCopyTrack
  try dsimp only
  repeat' split
  all_goals with_reducible apply_rules [cwAppend_recording, cwPairDone_recording, Recording.update, rfl]

theorem cwFinishStop_recording (h : Recording s₀ s) :
    Recording s₀ (cwFinishStop s) := by
  unfold cwFinishStop
  repeat' split
  all_goals with_reducible apply_rules [cwFinish_recording]

theorem cwClose_recording (h : Recording s₀ s) (cause : StopCause) :
    Recording s₀ (cwClose cause s) := by
  refine smIntake_recording (smSettle_recording (cwEnterStopped_recording (cwFinishStop_recording ?_) _))
  exact Recording.update (smCloseOpen_recording h _) rfl

theorem cwSwitched_recording (h : Recording s₀ s) (why : SwitchFor) (i : Nat) (clip : Word) (first : Nat) :
    Recording s₀ (cwSwitched why i clip first s) := by
  unfold cwSwitched
  repeat' split
  all_goals with_reducible apply_rules [cwStartPair_recording, cwFinish_recording, Recording.update, rfl]

/-- A Close leaves a Free segment Free (R89). -/
theorem FreeAt.closed {i : Nat} (h : FreeAt s i) (v : CloseValues) : FreeAt (smCloseOpen v s) i := by
  unfold smCloseOpen
  split
  · exact h
  · rename_i k hk
    obtain ⟨a, ha, ho⟩ := openIndex_some hk
    intro e he
    rw [raise_sm] at he
    simp only [smModify, modifyAt_get] at he
    split at he
    · subst k
      have := h a ha
      rw [ho] at this
      cases this
    · exact h e he

theorem cwSwitchOpen_recording (h : Recording s₀ s) (why : SwitchFor) (values : CloseValues) (i : Nat)
    (hi : FreeAt s i) : Recording s₀ (cwSwitchOpen why values i s) := by
  unfold cwSwitchOpen
  dsimp only
  refine cwSwitched_recording ?_ _ _ _ _
  exact Recording.update (smOpen_recording (smCloseOpen_recording h _) i _ _ _ (hi.closed _)) rfl

theorem cwHandNoSpace_recording (h : Recording s₀ s) :
    Recording s₀ (cwHandNoSpace s) := by
  unfold cwHandNoSpace
  with_reducible apply_rules [cwFinish_recording, Recording.update, rfl]

theorem cwMediaNoSpace_recording (h : Recording s₀ s) :
    Recording s₀ (cwMediaNoSpace s) := by
  unfold cwMediaNoSpace
  split
  · exact Recording.update h rfl
  · exact cwClose_recording h _

theorem cwFailReappend_recording (h : Recording s₀ s) :
    Recording s₀ (cwFailReappend s) := by
  unfold cwFailReappend
  with_reducible apply_rules [cwReady_recording]

theorem cwFailResumed_recording (h : Recording s₀ s) :
    Recording s₀ (cwFailResumed s) := by
  unfold cwFailResumed
  repeat' split
  all_goals with_reducible apply_rules [cwFinish_recording]

theorem cwFreeHand_recording (h : Recording s₀ s) :
    Recording s₀ (cwFreeHand s) := by
  unfold cwFreeHand
  repeat' split
  all_goals with_reducible apply_rules [Recording.update, rfl]

theorem cwSwitchNoSpace_recording (h : Recording s₀ s) (why : SwitchFor) :
    Recording s₀ (cwSwitchNoSpace why s) := by
  cases why
  · exact cwMediaNoSpace_recording (cwHandNoSpace_recording h)
  · exact cwClose_recording (cwHandNoSpace_recording h) _
  · exact cwClose_recording (cwFreeHand_recording (cwFailResumed_recording (cwFailReappend_recording h))) _

theorem cwStartOpen_recording (h : Recording s₀ s) (i : Nat) (hi : FreeAt s i) :
    Recording s₀ (cwStartOpen i s) := by
  unfold cwStartOpen
  dsimp only
  refine cwFinish_recording (puClipStart_recording (cwSetWriter_recording ?_ _) _) _
  refine Recording.update (smOpen_recording ?_ i _ _ _ ?_) rfl
  · exact Recording.update (smTakeClip_recording h) rfl
  · exact hi

theorem cwOnAlloc_recording (h : Recording s₀ s) (a : AllocAnswer) (ha : ∀ i, a = .segment i → FreeAt s i) :
    Recording s₀ (cwOnAlloc a s) := by
  have hn : Recording s₀ { s with sm.change := none } := Recording.update h rfl
  unfold cwOnAlloc
  dsimp only
  split
  · exact smIntake_recording (smSettle_recording (cwStartOpen_recording hn _ (ha _ rfl)))
  · exact smIntake_recording (cwFinish_recording (Recording.update hn rfl) _)
  · exact smIntake_recording (smSettle_recording (cwSwitchOpen_recording hn _ _ _ (ha _ rfl)))
  · exact smIntake_recording (cwSwitchNoSpace_recording hn _)
  · exact hn

theorem cwAllocate_recording (h : Recording s₀ s) :
    Recording s₀ (cwAllocate s) := by
  have ha := smAllocate_recording h
  unfold cwAllocate
  dsimp only
  split
  · exact ha
  · rename_i x hx
    exact cwOnAlloc_recording ha x fun i hi => smAllocate_free (hi ▸ hx)

theorem cwAskSwitch_recording (h : Recording s₀ s) (why : SwitchFor) :
    Recording s₀ (cwAskSwitch why s) := by
  unfold cwAskSwitch
  try dsimp only
  repeat' split
  all_goals with_reducible apply_rules [smTakeClip_recording, smFlush_recording, cwAllocate_recording, Recording.update, rfl]

theorem cwIdleStep_recording (h : Recording s₀ s) {t : State} (e : cwIdleStep s = some t) : Recording s₀ t := by
  unfold cwIdleStep at e
  split at e
  · obtain rfl := Option.some.inj e; exact cwStartPair_recording h _
  · obtain rfl := Option.some.inj e; exact Recording.update h rfl
  · split at e
    · split at e
      · obtain rfl := Option.some.inj e; exact cwClose_recording h _
      · obtain rfl := Option.some.inj e; exact cwPad_recording h
    · cases e

theorem cwJobStep_recording (h : Recording s₀ s) {t : State} (e : cwJobStep s = some t) : Recording s₀ t := by
  unfold cwJobStep at e
  split at e
  · exact cwIdleStep_recording h e
  · obtain ⟨x, _, rfl⟩ := Option.map_eq_some_iff.1 e
    exact cwCopyChunk_recording h _ _ _
  · obtain ⟨x, _, rfl⟩ := Option.map_eq_some_iff.1 e
    exact cwCopyTrack_recording h _ _ _
  · obtain rfl := Option.some.inj e
    split
    · exact cwAskSwitch_recording h _
    · exact cwPad_recording h
  · cases e

/-- What one step of the writer's work does, if it can go on. -/
theorem cwStep_recording (h : Recording s₀ s) {t : State} (e : cwStep s = some t) : Recording s₀ t := by
  unfold cwStep at e
  split at e
  · obtain rfl := Option.some.inj e
    refine cwApplyStop_recording ?_ _
    exact Recording.update h rfl
  · split at e
    · cases e
    · split at e
      · obtain rfl := Option.some.inj e
        exact cwProgram_recording h
      · exact cwJobStep_recording h e

theorem cwSteps_recording (h : Recording s₀ s) (fuel : Nat) : Recording s₀ (cwSteps fuel s) := by
  induction fuel generalizing s with
  | zero => exact h
  | succ n ih =>
    unfold cwSteps
    split
    · exact h
    · exact ih (cwStep_recording h ‹_›)

theorem cwRun_recording (h : Recording s₀ s) :
    Recording s₀ (cwRun s) := by
  unfold cwRun
  split
  · exact h
  · exact cwPublish_recording (cwSteps_recording h _)

theorem cwRefuse_recording (h : Recording s₀ s) (c : ResultCode) :
    Recording s₀ (cwRefuse c s).2 := by
  unfold cwRefuse
  try dsimp only
  with_reducible apply_rules [cwPublish_recording, cwFinish_recording]

theorem judgeStart_recording (h : Recording s₀ s) :
    Recording s₀ (judgeStart s).2 := by
  unfold judgeStart
  try dsimp only
  repeat' split
  all_goals with_reducible apply_rules [cwRefuse_recording, cwAllocate_recording, Recording.update, rfl]

theorem judgeMediaStopped_recording (h : Recording s₀ s) :
    Recording s₀ (judgeMediaStopped s).2 := by
  unfold judgeMediaStopped
  try dsimp only
  repeat' split
  all_goals with_reducible apply_rules [cwRefuse_recording]

theorem judgeMedia_recording (h : Recording s₀ s) (r : Request) :
    Recording s₀ (judgeMedia r s).2 := by
  unfold judgeMedia
  try dsimp only
  repeat' split
  all_goals with_reducible apply_rules [cwRefuse_recording, puSkipBelow_recording, cwStartPair_recording, Recording.update, rfl]

theorem judgeStop_recording (h : Recording s₀ s) :
    Recording s₀ (judgeStop s).2 := by
  unfold judgeStop
  try dsimp only
  with_reducible apply_rules [cwEnterClosing_recording]

theorem judgeSplit_recording (h : Recording s₀ s) :
    Recording s₀ (judgeSplit s).2 := by
  unfold judgeSplit
  try dsimp only
  with_reducible apply_rules [Recording.update, rfl]

theorem cwAnswered_recording {a : ResultCode × State} (h : Recording s₀ a.2) : Recording s₀ (cwAnswered a).2 :=
  smSettle_recording (cwPublish_recording (cwFinish_recording h _))

theorem judgeProtect_recording (h : Recording s₀ s) (r : Request) :
    Recording s₀ (judgeProtect r s).2 := by
  exact cwAnswered_recording (smProtect_recording h _)

theorem judgeUnprotect_recording (h : Recording s₀ s) (r : Request) :
    Recording s₀ (judgeUnprotect r s).2 := by
  exact cwAnswered_recording (smUnprotect_recording h _)

theorem cwAskFetch_recording (h : Recording s₀ s) (e : Segment) (p : Nat) :
    Recording s₀ (cwAskFetch e p s) := by
  unfold cwAskFetch
  try dsimp only
  with_reducible apply_rules [flashAsk_recording]

theorem judgeFetch_recording (h : Recording s₀ s) (r : Request) :
    Recording s₀ (judgeFetch r s).2 := by
  unfold judgeFetch
  try dsimp only
  repeat' split
  all_goals with_reducible apply_rules [cwRefuse_recording, cwAskFetch_recording, Recording.update, rfl]

/-- A Format is judged at a service point, in Running, where no mount is under way (R111, R181). -/
theorem judgeFormat_recording (h : Recording s₀ s) (hp : s.part.state = .running) :
    Recording s₀ (judgeFormat s).2 := by
  have hw := cwSetWriter_recording h .formatting
  unfold judgeFormat
  split
  · exact cwRefuse_recording h _
  · dsimp only
    split
    · exact cwEnterStopped_recording (cwFinish_recording hw _) _
    · refine smFormatBegin_recording (Recording.update hw rfl) fun b l => ?_
      by_contra hm
      refine (hw.tables b l).mounting hm ?_
      unfold cwSetWriter State.raise
      split
      · exact hp
      · dsimp only
        split <;> exact hp

theorem judgeStopped_recording (h : Recording s₀ s) (hp : s.part.state = .running) (k : Kind) (r : Request) :
    Recording s₀ (judgeStopped k r s).2 := by
  unfold judgeStopped
  split
  · exact cwRefuse_recording h _
  · cases k
    · exact judgeMediaStopped_recording h
    · exact judgeStart_recording h
    · exact cwRefuse_recording h _
    · exact cwRefuse_recording h _
    · exact judgeProtect_recording h r
    · exact judgeUnprotect_recording h r
    · exact judgeFetch_recording h r
    · exact judgeFormat_recording h hp

theorem judgeRecording_recording (h : Recording s₀ s) (k : Kind) (r : Request) :
    Recording s₀ (judgeRecording k r s).2 := by
  unfold judgeRecording
  cases k
  · exact judgeMedia_recording h r
  · exact cwRefuse_recording h _
  · exact judgeStop_recording h
  · exact judgeSplit_recording h
  · exact judgeProtect_recording h r
  · exact judgeUnprotect_recording h r
  · exact cwRefuse_recording h _
  · exact cwRefuse_recording h _

theorem cwJudge_recording (h : Recording s₀ s) (hp : s.part.state = .running) (r : Request) :
    Recording s₀ (cwJudge r s).2 := by
  unfold cwJudge
  split
  · exact cwRefuse_recording h _
  · split
    · exact judgeStopped_recording h hp _ r
    · exact judgeRecording_recording h _ r
    · exact cwRefuse_recording h _
    · exact h

theorem cwFailStale_recording (h : Recording s₀ s) (table : Nat) (i : Nat) :
    Recording s₀ (cwFailStale table i s) := by
  unfold cwFailStale
  try dsimp only
  repeat' split
  all_goals with_reducible apply_rules [store_recording, raise_recording]

theorem cwTake_recording (h : Recording s₀ s) (hp : s.part.state = .running) (table : Nat) (i : Nat) :
    Recording s₀ (cwTake table i s).2 := by
  refine cwJudge_recording ?_ ?_ _
  · exact Recording.update (store_recording h _ _) rfl
  · exact hp

theorem cwTakeAll_recording (h : Recording s₀ s) (hp : s.part.state = .running) (table fuel : Nat) :
    Recording s₀ (cwTakeAll table fuel s) := by
  induction fuel generalizing s with
  | zero => exact h
  | succ n ih =>
    unfold cwTakeAll
    split
    · split
      · exact h
      · rename_i i _
        have ht := cwTake_recording h hp table i
        dsimp only
        split
        · refine ih ht ?_
          rw [(cwTake_recording (Recording.refl s) hp table i).part]
          exact hp
        · exact ht
    · exact h

theorem cwScanTable_recording (h : Recording s₀ s) (hp : s.part.state = .running) (table : Nat) :
    Recording s₀ (cwScanTable table s) := by
  have hf := fun {s₀ : State} (h : Recording s₀ s) =>
    foldl_recording h (List.range s.cw.slotCount) fun h i => cwFailStale_recording h table i
  refine cwTakeAll_recording (hf h) ?_ _ _
  rw [(hf (Recording.refl s)).part]
  exact hp

theorem cwService_recording (h : Recording s₀ s) :
    Recording s₀ (cwService s) := by
  unfold cwService
  split
  · rename_i hs
    split
    · exact h
    · refine cwRun_recording (cwScanTable_recording h ?_ _)
      simp only [servicePoint, Bool.and_eq_true, decide_eq_true_eq] at hs
      exact hs.1.1.1.1.1
  · exact h

theorem cwCommit_recording (h : Recording s₀ s) :
    Recording s₀ (cwCommit s) := by
  unfold cwCommit
  repeat' split
  all_goals with_reducible apply_rules [cwRun_recording, cwPad_recording]

theorem cwPageDone_recording (h : Recording s₀ s) :
    Recording s₀ (cwPageDone s) := by
  unfold cwPageDone
  try dsimp only
  repeat' split
  all_goals with_reducible apply_rules [smPageReport_recording, cwReady_recording, Recording.update, rfl]

theorem cwGiveUp_recording (h : Recording s₀ s) (k : Nat) :
    Recording s₀ (cwGiveUp k s) := by
  unfold cwGiveUp
  try dsimp only
  repeat' split
  all_goals with_reducible apply_rules [smSetDamaged_recording, cwAllocate_recording, Recording.update, rfl]

theorem cwReplacement_recording (h : Recording s₀ s) (c : Relocation) :
    Recording s₀ (cwReplacement c s) := by
  have hr := smReplace_recording h c.position
  unfold cwReplacement
  split <;> rename_i heq <;> rw [heq] at hr
  · exact cwGiveUp_recording hr _
  · exact flashAsk_recording (Recording.update hr rfl) _ _

theorem cwBeginReloc_recording (h : Recording s₀ s) :
    Recording s₀ (cwBeginReloc s) := by
  unfold cwBeginReloc
  try dsimp only
  with_reducible apply_rules [cwReplacement_recording]

theorem cwAttemptFailed_recording (h : Recording s₀ s) (c : Relocation) :
    Recording s₀ (cwAttemptFailed c s) := by
  unfold cwAttemptFailed
  repeat' split
  all_goals with_reducible apply_rules [cwGiveUp_recording, cwReplacement_recording, Recording.update, rfl]

theorem cwRelocLast_recording (h : Recording s₀ s) (c : Relocation) :
    Recording s₀ (cwRelocLast c s) := by
  unfold cwRelocLast
  try dsimp only
  with_reducible apply_rules [flashAsk_recording, Recording.update, rfl]

theorem cwRelocRead_recording (h : Recording s₀ s) (c : Relocation) (q : Nat) :
    Recording s₀ (cwRelocRead c q s) := by
  unfold cwRelocRead
  repeat' split
  all_goals with_reducible apply_rules [flashAsk_recording, cwRelocLast_recording, Recording.update, rfl]

theorem cwRelocCopy_recording (h : Recording s₀ s) (c : Relocation) (q : Nat) (r : PageResult) :
    Recording s₀ (cwRelocCopy c q r s) := by
  unfold cwRelocCopy
  try dsimp only
  repeat' split
  all_goals with_reducible apply_rules [smSetDamaged_recording, flashAsk_recording, Recording.update, rfl]

theorem cwRelocResult_recording (h : Recording s₀ s) (c : Relocation) (op : FlashOp) (r : FlashResult) :
    Recording s₀ (cwRelocResult c op r s) := by
  unfold cwRelocResult
  cases r with
  | timeout => exact flashAsk_recording h _ _
  | identity b => exact h
  | marker v => exact h
  | page x =>
    dsimp only
    split
    · exact cwRelocCopy_recording h _ _ _
    · exact h
  | erased pass =>
    cases pass
    · exact cwAttemptFailed_recording h _
    · exact cwRelocRead_recording h _ _
  | programmed pass =>
    cases pass
    · exact cwAttemptFailed_recording h _
    · dsimp only
      split
      · exact cwRelocRead_recording h _ _
      · refine cwPageDone_recording ?_
        exact Recording.update h rfl

theorem cwPageResult_recording (h : Recording s₀ s) (r : FlashResult) :
    Recording s₀ (cwPageResult r s) := by
  unfold cwPageResult
  repeat' split
  all_goals with_reducible apply_rules [cwPageDone_recording, cwBeginReloc_recording, cwReprogram_recording]

theorem cwWriterResult_recording (h : Recording s₀ s) (op : FlashOp) (r : FlashResult) :
    Recording s₀ (cwWriterResult op r s) := by
  unfold cwWriterResult
  repeat' split
  all_goals with_reducible apply_rules [cwRelocResult_recording, cwPageResult_recording]

theorem cwCopyFetch_recording (h : Recording s₀ s) (r : Request) (p : Nat) (data : List Byte) :
    Recording s₀ (cwCopyFetch r p data s) := by
  unfold cwCopyFetch
  try dsimp only
  with_reducible apply_rules [store_recording]

theorem cwFetchDone_recording (h : Recording s₀ s) (worst : Nat) (bad : Option Nat) (r : Request) :
    Recording s₀ (cwFetchDone worst bad r s) := by
  unfold cwFetchDone
  try dsimp only
  repeat' split
  all_goals with_reducible apply_rules [smSetWeak_recording, cwFinish_recording, Recording.update, rfl]

theorem cwFetchPage_recording (h : Recording s₀ s) (r : Request) (p : Nat) (worst : Nat) (bad : Option Nat) (x : PageResult) :
    Recording s₀ (cwFetchPage r p worst bad x s) := by
  unfold cwFetchPage
  try dsimp only
  repeat' split
  all_goals with_reducible apply_rules [cwCopyFetch_recording, cwAskFetch_recording, cwFetchDone_recording, Recording.update, rfl]

theorem cwFetchResult_recording (h : Recording s₀ s) (op : FlashOp) (r : FlashResult) :
    Recording s₀ (cwFetchResult op r s) := by
  unfold cwFetchResult
  repeat' split
  all_goals with_reducible apply_rules [cwFetchPage_recording, flashAsk_recording]

end Sys2Proof.Machine
end

