-- ==== Sys2Proof/Laws/RecordingEnd.lean ====
section
/-! SUPPORT. The end of a flash operation is within `Recording`: its result, the next grant and the Gauge's check change
nothing but the recording blocks' state, the marks, the causes, SYSEN and the Buffer RAM. -/

namespace Sys2Proof.Machine

variable {s₀ s : State}

/-- What a change of state may do, as a function. -/
def Within (act : State → State) : Prop := ∀ {s₀ s : State}, Recording s₀ s → Recording s₀ (act s)

theorem cwResult_recording (h : Recording s₀ s) {act : State → State} (ha : Within act) (r : FlashResult) :
    Recording s₀ (cwResult r act s) := by
  unfold cwResult
  dsimp only
  split
  · exact cwService_recording (cwRun_recording (ha h))
  · exact cwRun_recording (ha h)

theorem smResult_recording (h : Recording s₀ s) {act : State → State} (ha : Within act) :
    Recording s₀ (smResult act s) := by
  unfold smResult
  dsimp only
  split
  · exact cwService_recording (smGoOn_recording (ha h))
  · exact smGoOn_recording (ha h)

theorem tableWriterResult_recording (h : Recording s₀ s) (r : FlashResult) :
    Recording s₀ (tableWriterResult r s) := by
  unfold tableWriterResult
  split
  · exact smSnapshotResult_recording h _ _
  · exact smFormatTableResult_recording h _

theorem eraserResult_recording (h : Recording s₀ s) (op : FlashOp) (r : FlashResult) :
    Recording s₀ (eraserResult op r s) := by
  unfold eraserResult
  split
  · have hr := smEraserResult_recording h r
    dsimp only
    split
    · refine smFlush_recording (smEraseAhead_recording ?_)
      split
      · exact cwAllocate_recording (smEraseEnded_recording hr)
      · exact smEraseEnded_recording hr
    · exact hr
  · exact h

theorem mountReaderResult_recording (h : Recording s₀ s) (op : FlashOp) (r : FlashResult) :
    Recording s₀ (mountReaderResult op r s) := by
  unfold mountReaderResult
  split
  · exact smSurveyResult_recording h _ _
  · exact smMountResult_recording h _ _

/-- What a returned result can do (R76). -/
theorem returnResult_recording (h : Recording s₀ s) (w : FlashRequest) (r : FlashResult) :
    Recording s₀ (returnResult w r s) := by
  unfold returnResult
  split
  · exact h
  · split
    · exact smResult_recording h fun h => tableWriterResult_recording h r
    · exact cwResult_recording h (fun h => cwWriterResult_recording h _ r) r
    · exact cwRun_recording (smResult_recording h fun h => eraserResult_recording h _ r)
    · exact cwResult_recording h (fun h => cwFetchResult_recording h _ r) r
    · exact smResult_recording h fun h => mountReaderResult_recording h _ r

theorem grantAndCheck_recording (h : Recording s₀ s) (o : EndOrder) : Recording s₀ (grantAndCheck o s) := by
  unfold grantAndCheck
  split
  · exact feGrant_recording (gaCheck_recording h)
  · exact gaCheck_recording (feGrant_recording h)

theorem answerFailed_recording (h : Recording s₀ s) : Recording s₀ (answerFailed s) := by
  unfold answerFailed
  split
  · exact feFailWaiting_recording h
  · exact h

/-- What the end of an operation that returns a result can do (R73, R74, R76). -/
theorem endOperation_recording (h : Recording s₀ s) (o : EndOrder) (w : FlashRequest) (r : FlashResult)
    {fe : State → State} (hf : Within fe) : Recording s₀ (endOperation o w r fe s) := by
  unfold endOperation
  split
  · exact returnResult_recording (grantAndCheck_recording (feUnhold_recording (hf h) _) _) _ _
  · exact grantAndCheck_recording
      (answerFailed_recording (feUnhold_recording (hf (returnResult_recording h _ _)) _)) _

theorem feIdentify_recording (h : Recording s₀ s) (id : List Byte) : Recording s₀ (feIdentify id s) := by
  unfold feIdentify
  split
  · exact Recording.update h rfl
  · refine raise_recording ?_ _
    exact Recording.update h rfl

/-- A completion changes, once the ride clock has come to its time, only what `Recording` allows (R73). -/
theorem completion_recording (t : Stamp) (o : EndOrder) (fits : FlashOp → Bool) (result : FlashOp → FlashResult)
    {before : State → State} (hb : Within before) (s : State) :
    Recording (s.advance t.toNat) (completion t o fits result before s) := by
  have h := Recording.refl (s.advance t.toNat)
  unfold completion
  dsimp only
  split
  · exact h
  · split
    · exact h
    · split
      · exact endOperation_recording (hb h) _ _ _ fun h => feEndDone_recording h
      · exact h

theorem bodyReadIdDone_recording (t : Stamp) (id : Vector Byte 4) (o : EndOrder) (s : State) :
    Recording (s.advance t.toNat) (bodyReadIdDone t id o s) :=
  completion_recording t o _ _ (fun h => feIdentify_recording h _) s

theorem bodyReadPageDone_recording (t : Stamp) (page : PageRead) (o : EndOrder) (s : State) :
    Recording (s.advance t.toNat) (bodyReadPageDone t page o s) :=
  completion_recording t o _ _ (fun h => h) s

theorem bodyReadMarkerDone_recording (t : Stamp) (marker : Byte) (o : EndOrder) (s : State) :
    Recording (s.advance t.toNat) (bodyReadMarkerDone t marker o s) :=
  completion_recording t o _ _ (fun h => h) s

theorem bodyProgramPageDone_recording (t : Stamp) (pass : Bool) (o : EndOrder) (s : State) :
    Recording (s.advance t.toNat) (bodyProgramPageDone t pass o s) :=
  completion_recording t o _ _ (fun h => h) s

theorem bodyEraseBlockDone_recording (t : Stamp) (pass : Bool) (o : EndOrder) (s : State) :
    Recording (s.advance t.toNat) (bodyEraseBlockDone t pass o s) :=
  completion_recording t o _ _ (fun h => h) s

theorem bodyResetDone_recording (t : Stamp) (o : EndOrder) (s : State) :
    Recording (s.advance t.toNat) (bodyResetDone t o s) := by
  have h := Recording.refl (s.advance t.toNat)
  unfold bodyResetDone
  dsimp only
  split
  · exact h
  · split
    · split
      · exact grantAndCheck_recording (feStartupDone_recording h) _
      · exact feFrontDone_recording h _
    · exact h

end Sys2Proof.Machine
end

