-- ==== Sys2Proof/Laws/Regular.lean ====
section
/-! SUPPORT. The relations `Forward`, `Onward` and `Regular`: they compose, `Recording` is within them, and so are the shared
operations. -/

namespace Sys2Proof.Machine

variable {s₀ s t : State}

/-! ### Composition -/

/-- Nothing changed. -/
theorem Regular.refl (s : State) : Regular s s where
  pending := rfl
  causes := fun _ h => h
  clock := le_rfl
  clockInRange := id
  memory := id
  gauge := id
  directory := id
  badList := id
  tables := fun _ l => l
  frames := id
  setpoint := id

/-- One change after another. -/
theorem Forward.trans (h : Forward s₀ s) (k : Forward s t) : Forward s₀ t where
  pending := k.pending.trans h.pending
  causes := fun c hc => k.causes c (h.causes c hc)
  clock := h.clock.trans k.clock
  clockInRange := k.clockInRange ∘ h.clockInRange
  memory := k.memory ∘ h.memory
  gauge := k.gauge ∘ h.gauge
  directory := k.directory ∘ h.directory
  badList := k.badList ∘ h.badList
  tables := fun b l => k.tables (h.badList b) (h.tables b l)

/-- One change after another. -/
theorem Onward.trans (h : Onward s₀ s) (k : Onward s t) : Onward s₀ t :=
  ⟨h.toForward.trans k.toForward, k.frames ∘ h.frames⟩

/-- One change after another. -/
theorem Regular.trans (h : Regular s₀ s) (k : Regular s t) : Regular s₀ t :=
  ⟨h.toOnward.trans k.toOnward, k.setpoint ∘ h.setpoint⟩

/-- A lawful state stays lawful. -/
theorem Regular.lawful (h : Regular s t) (hs : Lawful s) : Lawful t where
  memory := h.memory hs.memory
  clock := h.clockInRange hs.clock
  gauge := h.gauge hs.gauge
  setpoint := h.setpoint hs.setpoint
  directory := h.directory hs.directory
  badList := h.badList hs.badList
  tables := h.tables hs.badList hs.tables
  frames := h.frames hs.frames

/-- What the recording blocks do is regular. -/
theorem Recording.regular (h : Recording s t) : Regular s t where
  pending := h.pending
  causes := h.causes
  clock := by rw [h.rck]
  clockInRange := fun c => by unfold ClockInRange at *; rw [h.rck]; exact c
  memory := h.memory
  gauge := fun g => by
    have hq : t.ga.q = s.ga.q := by have e := congrArg Ga.q h.ga; exact e
    have hp : t.ga.params = s.ga.params := by have e := congrArg Ga.params h.ga; exact e
    unfold GaugeInRange at *
    rw [hq, hp]; exact g
  directory := fun d => by
    have hd : t.hp.directory = s.hp.directory := by have e := congrArg Hp.directory h.hp; exact e
    unfold DirectoryAligned at *
    rw [hd]; exact d
  badList := h.badList
  tables := h.tables
  frames := fun l => l.settled h.settles (by rw [h.rck]) (by rw [h.rck]; exact id) (by rw [h.part]) (by rw [h.part])
  setpoint := fun l => by unfold SetpointLaw at *; rw [h.cc]; exact l

/-- A change of the recording blocks after another change. -/
theorem Regular.recording (h : Regular s₀ s) (k : Recording s t) : Regular s₀ t := h.trans k.regular

/-- A change of the recording blocks after another change. -/
theorem Onward.recording (h : Onward s₀ s) (k : Recording s t) : Onward s₀ t := h.trans k.regular.toOnward

/-- A change of the recording blocks after another change. -/
theorem Forward.recording (h : Forward s₀ s) (k : Recording s t) : Forward s₀ t := h.trans k.regular.toForward

/-! ### Updates -/

/-- What the clock's range, the bad block list, the gauge count, the causes and DIRECTORY are read from. -/
def controlKey (r : Rck) (fe : Fe) (ga : Ga) (hp : Hp) :=
  (r.clock, fe.bad, ga.q, ga.params, hp.events, hp.directory)

/-- What the frame numbers are read from. -/
def frameKey (p : Part) (r : Rck) (pu : Pu) := (pu.shadows, r.nextFrame, r.filter, p.transition)

/-- A change that keeps the clock, the causes, DIRECTORY, the gauge count, the bad block list and the Buffer RAM, and
the laws of the segment table. -/
theorem Forward.control (h : Forward s₀ s) {p : Part} {r : Rck} {mu : Mu} {pu : Pu} {fe : Fe} {sm : Sm} {cw : Cw}
    {cc : Cc} {ga : Ga} {hp : Hp}
    (hk : BadListLaw s₀ → TableLaws s₀ → TableLaws s →
      TableLaws ⟨p, r, mu, pu, fe, sm, cw, cc, ga, hp, s.mem, s.pending⟩)
    (hu : controlKey r fe ga hp = controlKey s.rck s.fe s.ga s.hp) :
    Forward s₀ ⟨p, r, mu, pu, fe, sm, cw, cc, ga, hp, s.mem, s.pending⟩ := by
  simp only [controlKey, Prod.mk.injEq] at hu
  obtain ⟨hr, hb, hq, hg, he, hd⟩ := hu
  exact {
    pending := h.pending
    causes := fun c hc => by
      have := h.causes c hc
      unfold State.caused at *
      rw [he]; exact this
    clock := by rw [hr]; exact h.clock
    clockInRange := fun c => by
      have := h.clockInRange c
      unfold ClockInRange at *
      rw [hr]; exact this
    memory := h.memory
    gauge := fun g => by
      have := h.gauge g
      unfold GaugeInRange at *
      rw [hq, hg]; exact this
    directory := fun d => by
      have := h.directory d
      unfold DirectoryAligned at *
      rw [hd]; exact this
    badList := fun b => by
      have := h.badList b
      unfold BadListLaw at *
      rw [hb]; exact this
    tables := fun b l => hk b l (h.tables b l) }

/-- A change that keeps the clock, the causes, DIRECTORY, the gauge count, the bad block list and the Buffer RAM, and of
the tables what their laws speak of. -/
theorem Onward.update (h : Onward s₀ s) {p : Part} {r : Rck} {mu : Mu} {pu : Pu} {fe : Fe} {sm : Sm} {cw : Cw} {cc : Cc}
    {ga : Ga} {hp : Hp}
    (hu : (controlKey r fe ga hp, tableKey p fe sm hp, frameKey p r pu)
      = (controlKey s.rck s.fe s.ga s.hp, tableKey s.part s.fe s.sm s.hp, frameKey s.part s.rck s.pu)) :
    Onward s₀ ⟨p, r, mu, pu, fe, sm, cw, cc, ga, hp, s.mem, s.pending⟩ := by
  have hk : tableKey p fe sm hp = tableKey s.part s.fe s.sm s.hp := congrArg (·.2.1) hu
  have hf : frameKey p r pu = frameKey s.part s.rck s.pu := congrArg (·.2.2) hu
  simp only [frameKey, Prod.mk.injEq] at hf
  exact {
    toForward := h.toForward.control (fun _ _ l => l.congr hk) (congrArg (·.1) hu)
    frames := fun l => (h.frames l).settled (Settles.of_eq hf.1) hf.2.1 (fun c => by rw [← hf.2.2.1]; exact c)
      (congrArg Prod.fst hk) hf.2.2.2 }

/-- The same, where of the Charge Controller only what waits changes. -/
theorem Regular.update (h : Regular s₀ s) {p : Part} {r : Rck} {mu : Mu} {pu : Pu} {fe : Fe} {sm : Sm} {cw : Cw}
    {cc : Cc} {ga : Ga} {hp : Hp}
    (hu : (controlKey r fe ga hp, tableKey p fe sm hp, frameKey p r pu)
      = (controlKey s.rck s.fe s.ga s.hp, tableKey s.part s.fe s.sm s.hp, frameKey s.part s.rck s.pu))
    (hc : cc = { s.cc with pending := cc.pending }) :
    Regular s₀ ⟨p, r, mu, pu, fe, sm, cw, cc, ga, hp, s.mem, s.pending⟩ where
  toOnward := h.toOnward.update hu
  setpoint := fun l => by
    have := h.setpoint l
    unfold SetpointLaw at *
    rw [hc]; exact this

/-- A change of the part state, the ride clock, the table's control and the profile read, with what the laws need of
it. -/
theorem Regular.control (h : Regular s₀ s) {p : Part} {r : Rck} {sm : Sm} {hp : Hp}
    (hk : BadListLaw s₀ → TableLaws s₀ → TableLaws s → TableLaws { s with part := p, rck := r, sm := sm, hp := hp })
    (hf : FrameLaws s₀ → FrameLaws s → FrameLaws { s with part := p, rck := r, sm := sm, hp := hp })
    (hu : controlKey r s.fe s.ga hp = controlKey s.rck s.fe s.ga s.hp) :
    Regular s₀ { s with part := p, rck := r, sm := sm, hp := hp } where
  toForward := h.toForward.control hk hu
  frames := fun l => hf l (h.frames l)
  setpoint := h.setpoint

/-! ### Shared operations -/

theorem store_regular (h : Regular s₀ s) (a : Nat) (bytes : List Byte) : Regular s₀ (s.store a bytes) :=
  h.recording (store_recording (Recording.refl s) a bytes)

theorem raise_regular (h : Regular s₀ s) (c : Cause) : Regular s₀ (s.raise c) :=
  h.recording (raise_recording (Recording.refl s) c)

theorem raise_onward (h : Onward s₀ s) (c : Cause) : Onward s₀ (s.raise c) :=
  h.recording (raise_recording (Recording.refl s) c)

theorem raiseIf_regular (h : Regular s₀ s) (b : Bool) (c : Cause) : Regular s₀ (s.raiseIf b c) :=
  h.recording (raiseIf_recording (Recording.refl s) b c)

/-- The ride clock comes to the time of an event: it does not go back and stays in range (R1). -/
theorem advance_regular (h : Regular s₀ s) (t : Nat) : Regular s₀ (s.advance t) where
  pending := h.pending
  causes := h.causes
  clock := h.clock.trans (Nat.le_max_left _ _)
  clockInRange := fun c => by
    have := h.clockInRange c
    unfold ClockInRange at *
    simp only [State.advance]
    omega
  memory := h.memory
  gauge := h.gauge
  directory := h.directory
  badList := h.badList
  tables := fun b l => (h.tables b l).congr rfl
  frames := fun l => (h.frames l).settled (Settles.refl _) rfl id rfl rfl
  setpoint := h.setpoint

theorem foldl_regular {α : Type} {f : State → α → State} (h : Regular s₀ s) (l : List α)
    (hf : ∀ {s : State}, Regular s₀ s → ∀ a, Regular s₀ (f s a)) : Regular s₀ (l.foldl f s) := by
  induction l generalizing s with
  | nil => exact h
  | cons a l ih => exact ih (hf h a)

/-! ### The recording blocks' operations that others call -/

theorem puPass_regular (h : Regular s₀ s) (d : Delivery) : Regular s₀ (puPass d s) :=
  h.recording (puPass_recording (Recording.refl s) d)

theorem puImpact_regular (h : Regular s₀ s) (t : Nat) : Regular s₀ (puImpact t s) :=
  h.recording (puImpact_recording (Recording.refl s) t)

theorem puBreak_regular (h : Regular s₀ s) : Regular s₀ (puBreak s) :=
  h.recording (puBreak_recording (Recording.refl s))

/-- A frame-start in PU, but for the laws of its table (R40). -/
theorem puFrameStart_forward (h : Forward s₀ s) (n t : Nat) : Forward s₀ (puFrameStart n t s) := by
  obtain ⟨v, x, groups, hv, -, e⟩ := puFrameStart_opens n t s
  rw [e]
  exact (Forward.control (h.recording hv) (fun _ _ l => l.congr (by rfl)) (by rfl)).recording
    (puStore_recording (Recording.refl _) _ _)

theorem puStop_regular (h : Regular s₀ s) : Regular s₀ (puStop s) :=
  h.recording (puStop_recording (Recording.refl s))

theorem puReleaseScan_regular (h : Regular s₀ s) : Regular s₀ (puReleaseScan s) :=
  h.recording (puReleaseScan_recording (Recording.refl s))

theorem puRun_regular (h : Regular s₀ s) (table : Option Nat) (capacity : Nat) : Regular s₀ (puRun table capacity s) :=
  h.recording (puRun_recording (Recording.refl s) table capacity)

theorem puWriterDone_regular (h : Regular s₀ s) : Regular s₀ (puWriterDone s) :=
  h.recording (puWriterDone_recording (Recording.refl s))

theorem smIntake_regular (h : Regular s₀ s) : Regular s₀ (smIntake s) :=
  h.recording (smIntake_recording (Recording.refl s))

theorem smGoOn_regular (h : Regular s₀ s) : Regular s₀ (smGoOn s) :=
  h.recording (smGoOn_recording (Recording.refl s))

theorem cwService_regular (h : Regular s₀ s) : Regular s₀ (cwService s) :=
  h.recording (cwService_recording (Recording.refl s))

theorem cwRun_regular (h : Regular s₀ s) : Regular s₀ (cwRun s) :=
  h.recording (cwRun_recording (Recording.refl s))

theorem cwCommit_regular (h : Regular s₀ s) : Regular s₀ (cwCommit s) :=
  h.recording (cwCommit_recording (Recording.refl s))

theorem cwStopEvent_regular (h : Regular s₀ s) (cause : StopCause) : Regular s₀ (cwStopEvent cause s) :=
  h.recording (cwStopEvent_recording (Recording.refl s) cause)

theorem cwSetWriter_regular (h : Regular s₀ s) (w : WriterState) : Regular s₀ (cwSetWriter w s) :=
  h.recording (cwSetWriter_recording (Recording.refl s) w)

theorem cwTake_regular (h : Regular s₀ s) (hp : s.part.state = .running) (table i : Nat) :
    Regular s₀ (cwTake table i s).2 :=
  h.recording (cwTake_recording (Recording.refl s) hp table i)

theorem gaCheck_regular (h : Regular s₀ s) : Regular s₀ (gaCheck s) :=
  h.recording (gaCheck_recording (Recording.refl s))

theorem feTick_regular (h : Regular s₀ s) : Regular s₀ (feTick s) :=
  h.recording (feTick_recording (Recording.refl s))

theorem feSwitchOn_regular (h : Regular s₀ s) : Regular s₀ (feSwitchOn s) :=
  h.recording (feSwitchOn_recording (Recording.refl s))

theorem feSwitchOff_regular (h : Regular s₀ s) : Regular s₀ (feSwitchOff s) :=
  h.recording (feSwitchOff_recording (Recording.refl s))

theorem feStartupReset_regular (h : Regular s₀ s) : Regular s₀ (feStartupReset s) :=
  h.recording (feStartupReset_recording (Recording.refl s))

theorem feStartupTimeout_regular (h : Regular s₀ s) : Regular s₀ (feStartupTimeout s) :=
  h.recording (feStartupTimeout_recording (Recording.refl s))

theorem answerFailed_regular (h : Regular s₀ s) : Regular s₀ (answerFailed s) :=
  h.recording (answerFailed_recording (Recording.refl s))

theorem endOperation_regular (h : Regular s₀ s) (o : EndOrder) (w : FlashRequest) (r : FlashResult)
    {fe : State → State} (hf : Within fe) : Regular s₀ (endOperation o w r fe s) :=
  h.recording (endOperation_recording (Recording.refl s) o w r hf)

end Sys2Proof.Machine
end

