-- ==== Sys2Proof/Laws/RegularMotion.lean ====
section
/-! SUPPORT. The Motion Unit and the Ride Clock are within `Regular`. -/

namespace Sys2Proof.Machine

variable {s₀ s : State}

theorem muPost_regular (h : Regular s₀ s) (k : ImpactMark) :
    Regular s₀ (muPost k s) := by
  unfold muPost
  dsimp only
  repeat' split
  all_goals with_reducible apply_rules [smIntake_regular, raise_regular, Regular.update, rfl]

theorem muEndRun_regular (h : Regular s₀ s) (endTime : Nat) :
    Regular s₀ (muEndRun endTime s) := by
  unfold muEndRun
  dsimp only
  with_reducible apply_rules [puImpact_regular, muPost_regular, Regular.update, rfl]

theorem muEnterLost_regular (h : Regular s₀ s) :
    Regular s₀ (muEnterLost s) := by
  unfold muEnterLost
  dsimp only
  repeat' split
  all_goals with_reducible apply_rules [muEndRun_regular, raise_regular, Regular.update, rfl]

theorem muEnterTracking_regular (h : Regular s₀ s) :
    Regular s₀ (muEnterTracking s) := by
  unfold muEnterTracking
  with_reducible apply_rules [raise_regular, Regular.update, rfl]

theorem muRecover_regular (h : Regular s₀ s) :
    Regular s₀ (muRecover s) := by
  unfold muRecover
  with_reducible apply_rules [puBreak_regular, raise_regular, Regular.update, rfl]

theorem muLinkGood_regular (h : Regular s₀ s) :
    Regular s₀ (muLinkGood s) := by
  unfold muLinkGood
  dsimp only
  repeat' split
  all_goals with_reducible apply_rules [muEnterTracking_regular, muRecover_regular, Regular.update, rfl]

theorem muLinkMissing_regular (h : Regular s₀ s) :
    Regular s₀ (muLinkMissing s) := by
  unfold muLinkMissing
  dsimp only
  repeat' split
  all_goals with_reducible apply_rules [muEnterLost_regular, Regular.update, rfl]

theorem muIntegrate_regular (h : Regular s₀ s) (t : Nat) (g : Axes) :
    Regular s₀ (muIntegrate t g s).2 := by
  unfold muIntegrate
  dsimp only
  with_reducible apply_rules [Regular.update, rfl]

theorem muUpdateBias_regular (h : Regular s₀ s) (sums : Axes) :
    Regular s₀ (muUpdateBias sums s) := by
  unfold muUpdateBias
  dsimp only
  with_reducible apply_rules [Regular.update, rfl]

theorem muJudgeStill_regular (h : Regular s₀ s) (g : Axes) :
    Regular s₀ (muJudgeStill g s) := by
  unfold muJudgeStill
  dsimp only
  repeat' split
  all_goals with_reducible apply_rules [muUpdateBias_regular, Regular.update, rfl]

theorem muJudgeArmed_regular (h : Regular s₀ s) (t : Nat) (m2 : Nat) :
    Regular s₀ (muJudgeArmed t m2 s) := by
  unfold muJudgeArmed
  repeat' split
  all_goals with_reducible apply_rules [Regular.update, rfl]

theorem muJudgeCounting_regular (h : Regular s₀ s) (m2 : Nat) :
    Regular s₀ (muJudgeCounting m2 s) := by
  unfold muJudgeCounting
  repeat' split
  all_goals with_reducible apply_rules [Regular.update, rfl]

theorem muJudgeImpact_regular (h : Regular s₀ s) (t : Nat) (x : Sample) :
    Regular s₀ (muJudgeImpact t x s) := by
  unfold muJudgeImpact
  dsimp only
  repeat' split
  all_goals with_reducible apply_rules [muJudgeArmed_regular, muJudgeCounting_regular, muEndRun_regular, Regular.update, rfl]

theorem muGood_regular (h : Regular s₀ s) (t : Nat) (x : Sample) :
    Regular s₀ (muGood t x s) := by
  have hl : Regular s₀ (muLinkGood { s with mu.lastGood := some x }) :=
    muLinkGood_regular (Regular.update h rfl rfl)
  unfold muGood
  dsimp only
  refine puPass_regular (muJudgeImpact_regular (muJudgeStill_regular ?_ _) _ _) _
  split
  · exact muIntegrate_regular hl _ _
  · exact hl

theorem muMissing_regular (h : Regular s₀ s) (t : Nat) :
    Regular s₀ (muMissing t s) := by
  have hl := muLinkMissing_regular h
  unfold muMissing
  dsimp only
  split
  · exact puPass_regular (muIntegrate_regular hl _ _) _
  · exact puPass_regular hl _

theorem muSample_regular (h : Regular s₀ s) (t : Nat) (r : SampleResult) :
    Regular s₀ (muSample t r s) := by
  unfold muSample
  repeat' split
  all_goals with_reducible apply_rules [muGood_regular, muMissing_regular]

theorem muBegin_regular (h : Regular s₀ s) :
    Regular s₀ (muBegin s) := by
  unfold muBegin
  repeat' split
  all_goals with_reducible apply_rules [Regular.update, rfl]

theorem muIdentify_regular (h : Regular s₀ s) : Regular s₀ (muIdentify s) := by
  unfold muIdentify
  split
  · exact h
  · exact muBegin_regular h

theorem muGoOff_regular (h : Regular s₀ s) :
    Regular s₀ (muGoOff s) := by
  unfold muGoOff
  with_reducible apply_rules [Regular.update, rfl]

theorem muLeave_regular (h : Regular s₀ s) :
    Regular s₀ (muLeave s) := by
  unfold muLeave
  repeat' split
  all_goals with_reducible apply_rules [muGoOff_regular, Regular.update, rfl]

theorem muStop_regular (h : Regular s₀ s) :
    Regular s₀ (muStop s) := by
  have hl : ∀ {u : State}, Regular s₀ u → Regular s₀ (muLeave { u with mu.detector := .disabled, mu.impactRun := 0 }) :=
    fun h => muLeave_regular (Regular.update h rfl rfl)
  unfold muStop
  dsimp only
  split
  · exact hl (muEndRun_regular h _)
  · exact hl h

theorem muReset_regular (h : Regular s₀ s) :
    Regular s₀ (muReset s) := by
  unfold muReset
  repeat' split
  all_goals with_reducible apply_rules [Regular.update, rfl]

theorem muMissed_regular (h : Regular s₀ s) :
    Regular s₀ (muMissed s) := by
  unfold muMissed
  refine foldl_regular ?_ _ fun h t => muMissing_regular h t
  exact Regular.update h rfl rfl

/-- What the end of a transaction does, given what its result does. -/
theorem muTxnEnd_regular (h : Regular s₀ s) {act : State → State}
    (ha : ∀ {s₀ s : State}, Regular s₀ s → Regular s₀ (act s)) : Regular s₀ (muTxnEnd act s) := by
  unfold muTxnEnd
  dsimp only
  have ht : Regular s₀ { s with mu.txn := none } := Regular.update h rfl rfl
  split
  · exact Regular.update ht rfl rfl
  · split
    · exact muGoOff_regular ht
    · split
      · exact muIdentify_regular (Regular.update ht rfl rfl)
      · exact muBegin_regular (muMissed_regular (ha ht))

theorem muAbsent_regular (h : Regular s₀ s) :
    Regular s₀ (muAbsent s) := by
  unfold muAbsent
  with_reducible apply_rules [raise_regular, Regular.update, rfl]

theorem muAttempt_regular (h : Regular s₀ s) :
    Regular s₀ (muAttempt s) := by
  unfold muAttempt
  dsimp only
  repeat' split
  all_goals with_reducible apply_rules [muAbsent_regular, Regular.update, rfl]

theorem muConfigureFailed_regular (h : Regular s₀ s) (period : Nat) :
    Regular s₀ (muConfigureFailed period s) := by
  unfold muConfigureFailed
  dsimp only
  repeat' split
  all_goals with_reducible apply_rules [muAttempt_regular, Regular.update, rfl]

theorem muIdentified_regular (h : Regular s₀ s) :
    Regular s₀ (muIdentified s) := by
  unfold muIdentified
  with_reducible apply_rules [Regular.update, rfl]

theorem muConfigured_regular (h : Regular s₀ s) :
    Regular s₀ (muConfigured s) := by
  unfold muConfigured
  repeat' split
  all_goals with_reducible apply_rules [Regular.update, rfl]

theorem muIdentityDone_regular (h : Regular s₀ s) (response : Byte) :
    Regular s₀ (muIdentityDone response s) := by
  unfold muIdentityDone
  split
  · refine muTxnEnd_regular h fun h => ?_
    split
    · exact muIdentified_regular h
    · exact muAttempt_regular h
  · exact h

theorem muRateDone_regular (h : Regular s₀ s) (readBack : Byte) :
    Regular s₀ (muRateDone readBack s) := by
  unfold muRateDone
  split
  · refine muTxnEnd_regular h fun h => ?_
    split
    · exact muConfigured_regular h
    · exact muConfigureFailed_regular h _
  · split
    · exact Regular.update h rfl rfl
    · exact muTxnEnd_regular h fun h => muMissing_regular h _
  · exact h

theorem muBurstDone_regular (h : Regular s₀ s) (b : Burst) :
    Regular s₀ (muBurstDone b s) := by
  unfold muBurstDone
  split
  · refine muTxnEnd_regular h fun h => muSample_regular ?_ _ _
    exact Regular.update h rfl rfl
  · exact h

theorem muNoResponse_regular (h : Regular s₀ s) :
    Regular s₀ (muNoResponse s) := by
  unfold muNoResponse
  split
  · exact h
  · exact muTxnEnd_regular h fun h => muAttempt_regular h
  · exact muTxnEnd_regular h fun h => muConfigureFailed_regular h _
  · exact muTxnEnd_regular h fun h => muMissing_regular h _
  · exact muTxnEnd_regular h fun h => muMissing_regular h _

theorem muPeriodInstalled_regular (h : Regular s₀ s) :
    Regular s₀ (muPeriodInstalled s) := by
  unfold muPeriodInstalled
  repeat' split
  all_goals with_reducible apply_rules [Regular.update, rfl]

theorem muTick_regular (h : Regular s₀ s) (t : Nat) :
    Regular s₀ (muTick t s) := by
  unfold muTick
  repeat' split
  all_goals with_reducible apply_rules [puPass_regular, Regular.update, rfl]

theorem muEnterStarting_regular (h : Regular s₀ s) :
    Regular s₀ (muEnterStarting s) := by
  unfold muEnterStarting
  dsimp only
  repeat' split
  all_goals with_reducible apply_rules [Regular.update, rfl]

theorem muInstallThreshold_regular (h : Regular s₀ s) :
    Regular s₀ (muInstallThreshold s) := by
  have hd : ∀ {u : State}, Regular s₀ u → Regular s₀ { u with mu.detector := .disabled, mu.impactRun := 0 } :=
    fun h => Regular.update h rfl rfl
  unfold muInstallThreshold
  dsimp only
  split
  · split
    · exact hd (muEndRun_regular h _)
    · exact hd h
  · split
    · exact Regular.update h rfl rfl
    · exact h

theorem muInstallRun_regular (h : Regular s₀ s) (p : MuParams) (bias : Axes) :
    Regular s₀ (muInstallRun p bias s) :=
  muIdentify_regular (muInstallThreshold_regular (Regular.update h rfl rfl))

theorem muInstallPending_regular (h : Regular s₀ s) :
    Regular s₀ (muInstallPending s) := by
  unfold muInstallPending
  repeat' split
  all_goals with_reducible apply_rules [muInstallThreshold_regular, Regular.update, rfl]

theorem bodyIdentityReadDone_regular (h : Regular s₀ s) (t : Stamp) (response : Byte) :
    Regular s₀ (bodyIdentityReadDone t response s) := by
  unfold bodyIdentityReadDone
  with_reducible apply_rules [muIdentityDone_regular, advance_regular]

theorem bodyRateWriteDone_regular (h : Regular s₀ s) (t : Stamp) (readBack : Byte) :
    Regular s₀ (bodyRateWriteDone t readBack s) := by
  unfold bodyRateWriteDone
  with_reducible apply_rules [muRateDone_regular, advance_regular]

theorem bodySampleBurstDone_regular (h : Regular s₀ s) (t : Stamp) (b : Burst) :
    Regular s₀ (bodySampleBurstDone t b s) := by
  unfold bodySampleBurstDone
  with_reducible apply_rules [muBurstDone_regular, advance_regular]

theorem bodyImuResponseTimeout_regular (h : Regular s₀ s) (t : Stamp) :
    Regular s₀ (bodyImuResponseTimeout t s) := by
  unfold bodyImuResponseTimeout
  with_reducible apply_rules [muNoResponse_regular, advance_regular]

theorem bodyAttempt_regular (h : Regular s₀ s) (t : Stamp) (response : Option Byte) :
    Regular s₀ (bodyAttempt t response s) := by
  unfold bodyAttempt
  repeat' split
  all_goals with_reducible apply_rules [bodyImuResponseTimeout_regular, bodyIdentityReadDone_regular, bodyRateWriteDone_regular]

theorem bodyBurst_regular (h : Regular s₀ s) (t : Stamp) (burst : Option Burst) :
    Regular s₀ (bodyBurst t burst s) := by
  unfold bodyBurst
  repeat' split
  all_goals with_reducible apply_rules [bodyImuResponseTimeout_regular, bodySampleBurstDone_regular]

theorem rckArm_regular (h : Regular s₀ s) :
    Regular s₀ (rckArm s) := by
  unfold rckArm
  dsimp only
  with_reducible apply_rules [Regular.update, rfl]

/-- The filter goes Off (R8). -/
theorem rckStop_regular (h : Regular s₀ s) :
    Regular s₀ (rckStop s) := by
  unfold rckStop
  exact Regular.control h (fun _ _ l => l.congr rfl)
    (fun _ l => l.settled (Settles.refl _) rfl (fun c => absurd rfl c) rfl rfl) rfl

/-- The filter goes from one state to another, none of them Off (R7, R8). -/
theorem rckFilter_regular (h : Regular s₀ s) {f : FilterState} {n : Nat} (hf : s.rck.filter ≠ .off) :
    Regular s₀ { s with rck.filter := f, rck.filterRun := n } :=
  Regular.control h (fun _ _ l => l.congr rfl) (fun _ l => l.settled (Settles.refl _) rfl (fun _ => hf) rfl rfl) rfl

theorem bodySampleTick_regular (h : Regular s₀ s) :
    Regular s₀ (bodySampleTick s) := by
  unfold bodySampleTick
  dsimp only
  repeat' split
  all_goals with_reducible apply_rules [muTick_regular, muPeriodInstalled_regular, advance_regular, Regular.update, rfl]

/-! ### Accepted frame-starts -/

/-- The ride clock and the part state are as they were, and no entry has been opened. -/
structure Undisturbed (s t : State) : Prop where
  rck : t.rck = s.rck
  part : t.part = s.part
  settles : Settles s.pu.shadows t.pu.shadows

theorem Undisturbed.refl (s : State) : Undisturbed s s := ⟨rfl, rfl, Settles.refl _⟩

theorem Undisturbed.trans {t : State} (h : Undisturbed s₀ s) (k : Undisturbed s t) : Undisturbed s₀ t :=
  ⟨k.rck.trans h.rck, k.part.trans h.part, h.settles.trans k.settles⟩

theorem Recording.undisturbed {t : State} (h : Recording s t) : Undisturbed s t := ⟨h.rck, h.part, h.settles⟩

/-- A change of the Motion Unit alone. -/
theorem Undisturbed.motion (h : Undisturbed s₀ s) (m : Mu) : Undisturbed s₀ { s with mu := m } :=
  ⟨h.rck, h.part, h.settles⟩

theorem muPost_undisturbed (h : Undisturbed s₀ s) (k : ImpactMark) : Undisturbed s₀ (muPost k s) := by
  have hr := (h.motion { s.mu with impacts := satInc s.mu.impacts }).trans
    (raise_recording (Recording.refl _) .impact).undisturbed
  unfold muPost
  dsimp only
  split
  · split
    · exact (hr.motion _).trans (smIntake_recording (Recording.refl _)).undisturbed
    · exact (hr.motion _).trans (smIntake_recording (Recording.refl _)).undisturbed
  · exact hr

theorem muEndRun_undisturbed (h : Undisturbed s₀ s) (endTime : Nat) : Undisturbed s₀ (muEndRun endTime s) := by
  unfold muEndRun
  exact (muPost_undisturbed (h.motion _) _).trans (puImpact_recording (Recording.refl _) _).undisturbed

theorem muInstallThreshold_undisturbed (h : Undisturbed s₀ s) : Undisturbed s₀ (muInstallThreshold s) := by
  unfold muInstallThreshold
  split
  · dsimp only
    split
    · exact (muEndRun_undisturbed h _).motion _
    · exact h.motion _
  · split
    · exact h.motion _
    · exact h

theorem muInstallPending_undisturbed (h : Undisturbed s₀ s) : Undisturbed s₀ (muInstallPending s) := by
  unfold muInstallPending
  split
  · exact h
  · exact muInstallThreshold_undisturbed (h.motion _)

theorem muInstallRun_undisturbed (h : Undisturbed s₀ s) (p : MuParams) (bias : Axes) :
    Undisturbed s₀ (muInstallRun p bias s) := by
  have hi : ∀ {u : State}, Undisturbed s₀ u → Undisturbed s₀ (muIdentify u) := by
    intro u hu
    unfold muIdentify muBegin
    split
    · exact hu
    · split
      · split
        · exact hu.motion _
        · exact hu.motion _
        · exact hu
      · exact hu
  exact hi (muInstallThreshold_undisturbed (h.motion _))

/-- Frame `n` has been accepted: the next number follows it, and every frame held is one of the C before it, or itself. -/
structure Accepted (n : Nat) (s : State) : Prop where
  next : s.rck.nextFrame = followingFrame n
  small : n < 2 ^ 32
  running : s.part.state = .running
  staying : ¬ (s.part.transition = .standby ∨ s.part.transition = .reset)
  placed : ∀ i h, s.pu.shadows[i]? = some h → h.state ≠ .free →
    h.frame % s.pu.shadows.length = i ∧ h.frame ≤ n ∧ n ≤ h.frame + s.pu.shadows.length

theorem Accepted.undisturbed {n : Nat} {t : State} (h : Accepted n s) (k : Undisturbed s t) : Accepted n t where
  next := by rw [k.rck]; exact h.next
  small := h.small
  running := by rw [k.part]; exact h.running
  staying := by rw [k.part]; exact h.staying
  placed := by
    intro i x hx hn
    obtain ⟨hl, g, hg, hgn, hgf⟩ := k.settles i x hx hn
    rw [hl, ← hgf]
    exact h.placed i g hg hgn

theorem FrameLaws.undisturbed {t : State} (l : FrameLaws s) (k : Undisturbed s t) : FrameLaws t :=
  l.settled k.settles (by rw [k.rck]) (by rw [k.rck]; exact id) (by rw [k.part]) (by rw [k.part])

/-- The number after frame `n` (R10). -/
theorem nextNumber_following {n : Nat} {r : Rck} (h : r.nextFrame = followingFrame n) (hn : n < 2 ^ 32) :
    nextNumber r = n + 1 := by
  unfold nextNumber
  rw [h]
  unfold followingFrame
  split <;> rename_i e <;> split at e
  · exact (FrameNumber.number.inj e).symm
  · cases e
  · cases e
  · omega

/-- PU's delivery gives the laws of the frame record table (R38, R42). -/
theorem puFrameStart_frames {n : Nat} (t : Nat) (h : Accepted n s) :
    FrameLaws (puFrameStart n t s) ∧ Accepted n (puFrameStart n t s) := by
  obtain ⟨v, x, groups, hv, hx, e⟩ := puFrameStart_opens n t s
  have k := h.undisturbed hv.undisturbed
  have hs := puStore_recording
    (Recording.refl { puModify (v.pu.entryOf n) (fun _ => x) v with pu.newest := some n }) (v.pu.entryOf n) groups
  rw [← e] at hs
  have hp : (puFrameStart n t s).pu.shadows = modifyAt (fun _ => x) (v.pu.entryOf n) v.pu.shadows := by
    rw [e, puStore_pu]
    rfl
  have hrck : (puFrameStart n t s).rck = v.rck := hs.rck
  have hpart : (puFrameStart n t s).part = v.part := hs.part
  have hplaced : ∀ i h, (puFrameStart n t s).pu.shadows[i]? = some h → h.state ≠ .free →
      h.frame % (puFrameStart n t s).pu.shadows.length = i ∧ h.frame ≤ n
        ∧ n + 1 ≤ h.frame + (puFrameStart n t s).pu.shadows.length := by
    intro i y hy hn
    rw [hp, modifyAt_length]
    rw [hp, modifyAt_get] at hy
    split at hy
    · rename_i hi
      obtain ⟨z, hz, rfl⟩ := Option.map_eq_some_iff.1 hy
      have hlen : i < v.pu.shadows.length := (List.getElem?_eq_some_iff.1 hz).1
      refine ⟨?_, by omega, by omega⟩
      rw [hx]
      exact hi
    · rename_i hi
      obtain ⟨h1, h2, h3⟩ := k.placed i y hy hn
      refine ⟨h1, h2, ?_⟩
      by_contra hc
      refine hi ?_
      have he : n = y.frame + v.pu.shadows.length := by omega
      show n % v.pu.shadows.length = i
      rw [he, Nat.add_mod_right]
      exact h1
  constructor
  · exact {
      placed := fun i y hy hn => by
        obtain ⟨h1, h2, h3⟩ := hplaced i y hy hn
        rw [nextNumber_following (by rw [hrck]; exact k.next) h.small]
        exact ⟨h1, by omega, h3⟩
      number := fun m hm => by
        rw [hrck, k.next] at hm
        unfold followingFrame at hm
        split at hm
        · have := FrameNumber.number.inj hm
          omega
        · cases hm
      filter := fun _ => by rw [hpart]; exact k.running
      mounting := fun hm => by rw [hpart, k.running] at hm; cases hm
      leaving := fun hm => by rw [hpart] at hm; exact absurd hm k.staying }
  · exact {
      next := by rw [hrck]; exact k.next
      small := h.small
      running := by rw [hpart]; exact k.running
      staying := by rw [hpart]; exact k.staying
      placed := fun i y hy hn => by
        obtain ⟨h1, h2, h3⟩ := hplaced i y hy hn
        exact ⟨h1, h2, by omega⟩ }

/-- One delivery, but for the laws of the frame record table (R10, R26, R40, R111). -/
theorem frameDelivery_forward (h : Forward s₀ s) (n : Nat) (t : Nat) (d : FrameDelivery) :
    Forward s₀ (frameDelivery n t d s) := by
  cases d
  · exact h.trans (muInstallPending_regular (Regular.refl s)).toForward
  · exact puFrameStart_forward h n t
  · exact h.trans (cwService_regular (Regular.refl s)).toForward

/-- One delivery leaves the Charge Controller as it obeys the law of the setpoint. -/
theorem frameDelivery_setpoint (h : SetpointLaw s) (n : Nat) (t : Nat) (d : FrameDelivery) :
    SetpointLaw (frameDelivery n t d s) := by
  cases d
  · exact (muInstallPending_regular (Regular.refl s)).setpoint h
  · obtain ⟨v, x, groups, hv, -, e⟩ := puFrameStart_opens n t s
    have hs := puStore_recording
      (Recording.refl { puModify (v.pu.entryOf n) (fun _ => x) v with pu.newest := some n }) (v.pu.entryOf n) groups
    show SetpointLaw (puFrameStart n t s)
    rw [e]
    have hc := hs.cc.trans hv.cc
    unfold SetpointLaw at *
    rw [hc]
    exact h
  · exact (cwService_regular (Regular.refl s)).setpoint h

/-- The deliveries of an accepted frame-start, that to PU among them, give the laws of the frame record table. -/
theorem frameDeliveries_frames {n : Nat} (t : Nat) (h : Accepted n s) (l : List FrameDelivery)
    (hl : FrameLaws s ∨ .path ∈ l) : FrameLaws (l.foldl (fun s d => frameDelivery n t d s) s) := by
  induction l generalizing s with
  | nil => exact hl.resolve_right fun e => by cases e
  | cons d l ih =>
    have key : ∀ u : State, Undisturbed s u → (FrameLaws s ∨ .path ∈ l) →
        FrameLaws (l.foldl (fun s d => frameDelivery n t d s) u) :=
      fun u k hl => ih (h.undisturbed k) (hl.imp (fun f => f.undisturbed k) id)
    have hrest : d ≠ .path → (FrameLaws s ∨ .path ∈ l) := fun hd =>
      hl.imp id fun hm => (List.mem_cons.1 hm).resolve_left fun e => hd e.symm
    rw [List.foldl_cons]
    cases d
    · exact key _ (muInstallPending_undisturbed (Undisturbed.refl s)) (hrest fun e => by cases e)
    · obtain ⟨h1, h2⟩ := puFrameStart_frames t h
      exact ih h2 (.inl h1)
    · exact key _ (cwService_recording (Recording.refl s)).undisturbed (hrest fun e => by cases e)

/-- Every order of the deliveries has that to PU. -/
theorem path_mem_frameOrder (order : List FrameDelivery) : .path ∈ frameOrder order := by
  unfold frameOrder completeOrder
  by_cases h : FrameDelivery.path ∈ order
  · exact List.mem_append_left _ (List.mem_eraseDups.2 h)
  · exact List.mem_append_right _ (List.mem_filter.2 ⟨by simp, by simpa using h⟩)

/-- An accepted frame-start, once the filter is High (R10). -/
theorem frameStart_regular (hf : s.rck.filter ≠ .off) {n : Nat} (hn : s.rck.nextFrame = .number n) (t : Nat)
    (order : List FrameDelivery) :
    Regular s ((frameOrder order).foldl (fun s d => frameDelivery n t d s) (rckAccept n t s)) where
  toForward := by
    have ha : Forward s (rckAccept n t s) :=
      Forward.control (Regular.refl s).toForward (fun _ _ l => l.congr rfl) rfl
    generalize rckAccept n t s = u at ha ⊢
    induction frameOrder order generalizing u with
    | nil => exact ha
    | cons d l ih => exact ih _ (frameDelivery_forward ha n t d)
  frames := fun l => by
    refine frameDeliveries_frames t ?_ _ (.inr (path_mem_frameOrder order))
    have hrun := l.filter hf
    exact {
      next := rfl
      small := l.number n hn
      running := hrun
      staying := fun c => by rw [l.leaving c] at hrun; cases hrun
      placed := fun i x hx hnf => by
        obtain ⟨h1, h2, h3⟩ := l.placed i x hx hnf
        have hk : nextNumber s.rck = n := by unfold nextNumber; rw [hn]
        rw [hk] at h2 h3
        exact ⟨h1, by omega, h3⟩ }
  setpoint := fun h => by
    have ha : SetpointLaw (rckAccept n t s) := h
    generalize rckAccept n t s = u at ha ⊢
    induction frameOrder order generalizing u with
    | nil => exact ha
    | cons d l ih => exact ih _ (frameDelivery_setpoint ha n t d)

/-- A qualified edge, the filter not Off (R7, R9, R10). -/
theorem rckQualified_regular (h : Regular s₀ s) (hf : s.rck.filter ≠ .off) (order : List FrameDelivery) :
    Regular s₀ (rckQualified order s) := by
  have hh : Regular s₀ { s with rck.filter := .high, rck.filterRun := 0 } := rckFilter_regular h hf
  unfold rckQualified
  dsimp only
  split
  · exact Regular.update hh rfl rfl
  · split
    · exact hh
    · rename_i n hn
      exact hh.trans (frameStart_regular (s := { s with rck.filter := .high, rck.filterRun := 0 })
        (fun e => by cases e) hn _ order)

theorem bodyFrameStart_regular (h : Regular s₀ s) (order : List FrameDelivery) :
    Regular s₀ (bodyFrameStart order s) := by
  unfold bodyFrameStart
  split
  · rename_i hq
    refine rckQualified_regular (advance_regular h _) ?_ order
    show s.rck.filter ≠ .off
    rw [hq]
    exact fun e => by cases e
  · exact h

theorem rckSample_regular (h : Regular s₀ s) (high : Bool) (order : List FrameDelivery) :
    Regular s₀ (rckSample high order s) := by
  unfold rckSample
  split
  · rename_i hl
    have hf : s.rck.filter ≠ .off := by rw [hl]; exact fun e => by cases e
    split
    · exact rckQualified_regular h hf order
    · exact rckFilter_regular h hf
  · rename_i hl
    exact rckFilter_regular h (by rw [hl]; exact fun e => by cases e)
  · rename_i hl
    exact rckFilter_regular (n := s.rck.filterRun) h (by rw [hl]; exact fun e => by cases e)
  · exact h

theorem bodyLineChange_regular (h : Regular s₀ s) (t : Stamp) (high : Bool) (order : List FrameDelivery) :
    Regular s₀ (bodyLineChange t high order s) := by
  unfold bodyLineChange
  dsimp only
  with_reducible apply_rules [rckSample_regular, advance_regular, Regular.update, rfl]

theorem bodySilenceExpiry_regular (h : Regular s₀ s) :
    Regular s₀ (bodySilenceExpiry s) := by
  unfold bodySilenceExpiry
  dsimp only
  repeat' split
  all_goals with_reducible apply_rules [puBreak_regular, advance_regular, Regular.update, rfl]

end Sys2Proof.Machine
end

