-- ==== Sys2Proof/Laws/RegularCharge.lean ====
section
/-! SUPPORT. The Gauge and the Charge Controller: the count stays within 0..Qcap (R154, R155, R158, R161, R164), and an
arrival ends with the law of the setpoint (R149). -/

namespace Sys2Proof.Machine

variable {s₀ s : State}

/-! ### The gauge count -/

/-- An integration stays within 0..Qcap (R154). -/
theorem chargeAfter_le (cap q : Nat) (ibat : Int) : chargeAfter cap q ibat ≤ cap := by
  unfold chargeAfter clampInt
  omega

/-- Between two points of Table 8-2 the estimate stays within Qcap (R155). -/
theorem chargeBetween_le {cap v v0 p0 v1 p1 : Nat} (hv : v < v1) (hp : p0 ≤ p1) (h1 : p1 ≤ 100) :
    chargeBetween cap v v0 p0 v1 p1 ≤ cap := by
  unfold chargeBetween
  refine Nat.div_le_of_le_mul ?_
  have hd : v - v0 ≤ v1 - v0 := by omega
  have : p0 * (v1 - v0) + (p1 - p0) * (v - v0) ≤ (v1 - v0) * 100 := by
    calc p0 * (v1 - v0) + (p1 - p0) * (v - v0)
        ≤ p0 * (v1 - v0) + (p1 - p0) * (v1 - v0) := Nat.add_le_add_left (Nat.mul_le_mul_left _ hd) _
      _ = (v1 - v0) * p1 := by rw [← Nat.add_mul, Nat.add_sub_cancel' hp, Nat.mul_comm]
      _ ≤ (v1 - v0) * 100 := Nat.mul_le_mul_left _ h1
  calc cap * (p0 * (v1 - v0) + (p1 - p0) * (v - v0)) ≤ cap * ((v1 - v0) * 100) := Nat.mul_le_mul_left _ this
    _ = (v1 - v0) * 100 * cap := Nat.mul_comm _ _

/-- The percentages of a table of points rise from point to point, to 100 at most. -/
def rising : List (Nat × Nat) → Bool
  | a :: b :: rest => decide (a.2 ≤ b.2) && decide (b.2 ≤ 100) && rising (b :: rest)
  | _ => true

/-- An estimate by a rising table stays within Qcap (R155). -/
theorem chargeFrom_le (cap v : Nat) {l : List (Nat × Nat)} (h : rising l = true) : chargeFrom cap v l ≤ cap := by
  induction l with
  | nil => exact le_rfl
  | cons a l ih =>
    cases l with
    | nil => exact le_rfl
    | cons b l =>
      simp only [rising, Bool.and_eq_true, decide_eq_true_eq] at h
      unfold chargeFrom
      split
      · exact chargeBetween_le ‹_› h.1.1 h.1.2
      · exact ih h.2

/-- The power-up estimate stays within Qcap (R155). -/
theorem chargeEstimate_le (cap : Nat) (v : Int) : chargeEstimate cap v ≤ cap := by
  unfold chargeEstimate
  split
  · exact Nat.zero_le _
  · split
    · exact le_rfl
    · exact chargeFrom_le cap _ rfl

/-- A change of capacity keeps the share of the count (R164). -/
theorem scaled_le {q cap new : Nat} (h : q ≤ cap * ticksPerMah) : q * new / cap ≤ new * ticksPerMah := by
  refine Nat.div_le_of_le_mul ?_
  calc q * new ≤ cap * ticksPerMah * new := Nat.mul_le_mul_right _ h
    _ = cap * (new * ticksPerMah) := by ring

/-- A change of the Gauge that keeps the count in its range. -/
theorem Regular.gaugeUpdate (h : Regular s₀ s) {ga : Ga} (hg : GaugeInRange s → ga.q ≤ gaQcap ga.params) :
    Regular s₀ { s with ga := ga } where
  pending := h.pending
  causes := h.causes
  clock := h.clock
  clockInRange := h.clockInRange
  memory := h.memory
  gauge := fun g => hg (h.gauge g)
  directory := h.directory
  badList := h.badList
  tables := fun b l => (h.tables b l).congr rfl
  frames := fun l => (h.frames l).settled (Settles.refl _) rfl id rfl rfl
  setpoint := h.setpoint

/-! ### Gauge -/

theorem cwSignal_regular (h : Regular s₀ s) (cause : StopCause) : Regular s₀ (cwSignal cause s) := by
  unfold cwSignal
  split
  · exact h
  · exact cwRun_regular (cwStopEvent_regular h cause)

theorem gaCutoff_regular (h : Regular s₀ s) : Regular s₀ (gaCutoff s) := by
  have hq : Regular s₀ { s with ga.q := 0 } := h.gaugeUpdate fun _ => Nat.zero_le _
  unfold gaCutoff
  dsimp only
  refine gaCheck_regular ?_
  exact Regular.update (cwSignal_regular hq .cutoff) rfl rfl

theorem gaFindLevel_regular (h : Regular s₀ s) : Regular s₀ (gaFindLevel s) := by
  unfold gaFindLevel
  dsimp only
  split
  · exact h
  · have hl : Regular s₀ (State.raise { s with ga.level := gaLevel s.ga } .gaugeLevel) := by
      refine raise_regular ?_ _
      exact Regular.update h rfl rfl
    split
    · exact cwSignal_regular hl _
    · exact gaCutoff_regular hl
    · exact hl

theorem gaQualification_regular (h : Regular s₀ s) (present : Bool) : Regular s₀ (gaQualification present s) :=
  gaFindLevel_regular (Regular.update h rfl rfl)

theorem gaFull_regular (h : Regular s₀ s) : Regular s₀ (gaFull s) :=
  gaFindLevel_regular (h.gaugeUpdate fun _ => le_rfl)

theorem gaInstall_regular (h : Regular s₀ s) : Regular s₀ (gaInstall s) := by
  unfold gaInstall
  split
  · exact h
  · exact gaFindLevel_regular (h.gaugeUpdate fun g => scaled_le g)

theorem gaCount_regular (h : Regular s₀ s) (m : Measurement) : Regular s₀ (gaCount m s) := by
  unfold gaCount
  split
  · exact h.gaugeUpdate fun _ => chargeAfter_le _ _ _
  · exact h.gaugeUpdate fun _ => chargeEstimate_le _ _

theorem gaAdvance_regular (h : Regular s₀ s) (m : Measurement) : Regular s₀ (gaAdvance m s) :=
  Regular.update h rfl rfl

theorem gaGraceTick_regular (h : Regular s₀ s) : Regular s₀ (gaGraceTick s) := by
  unfold gaGraceTick
  split
  · exact h
  · dsimp only
    split
    · exact Regular.update h rfl rfl
    · refine gaCheck_regular ?_
      exact Regular.update h rfl rfl

/-- What the Gauge's arrival can do (R153). -/
theorem gaArrival_regular (h : Regular s₀ s) (m : Measurement) : Regular s₀ (gaArrival m s) := by
  have hf := gaFindLevel_regular (gaAdvance_regular (gaCount_regular (gaInstall_regular h) m) m)
  unfold gaArrival
  dsimp only
  split
  · exact gaGraceTick_regular hf
  · exact hf

/-! ### Charge Controller -/

/-- A regular change is an onward one, after any onward change. -/
theorem Onward.regular {t : State} (h : Onward s₀ s) (k : Regular s t) : Onward s₀ t := h.trans k.toOnward

theorem ccInstall_onward (h : Onward s₀ s) : Onward s₀ (ccInstall s).2 := by
  unfold ccInstall
  split
  · exact h
  · exact Onward.update h rfl

theorem ccOvervoltageFlag_onward (h : Onward s₀ s) (m : Measurement) : Onward s₀ (ccOvervoltageFlag m s) := by
  unfold ccOvervoltageFlag
  split
  · refine raise_onward ?_ _
    exact Onward.update h rfl
  · exact h

theorem ccLoss_onward (h : Onward s₀ s) : Onward s₀ (ccLoss s) := by
  refine Onward.regular ?_ (gaQualification_regular (Regular.refl _) false)
  refine raise_onward ?_ _
  exact Onward.update h rfl

theorem ccQualified_onward (h : Onward s₀ s) : Onward s₀ (ccQualified s) := by
  refine Onward.regular ?_ (gaQualification_regular (Regular.refl _) true)
  refine raise_onward ?_ _
  exact Onward.update h rfl

theorem ccQualify_onward (h : Onward s₀ s) (m : Measurement) : Onward s₀ (ccQualify m s) := by
  unfold ccQualify
  split
  · exact Onward.update h rfl
  · split
    · exact Onward.update h rfl
    · split
      · exact ccLoss_onward h
      · exact ccQualified_onward h

theorem ccZone_onward (h : Onward s₀ s) (m : Measurement) : Onward s₀ (ccZone m s) := by
  unfold ccZone
  split <;> exact Onward.update h rfl

theorem ccDroop_onward (h : Onward s₀ s) (m : Measurement) : Onward s₀ (ccDroop m s) := by
  unfold ccDroop
  split
  · split
    · exact Onward.update h rfl
    · split
      · exact Onward.update h rfl
      · exact h
  · exact h

theorem ccBudget_onward (h : Onward s₀ s) (m : Measurement) : Onward s₀ (ccBudget m s) :=
  Onward.update h rfl

theorem ccTimers_onward (h : Onward s₀ s) : Onward s₀ (ccTimers s) := by
  unfold ccTimers
  split
  · exact h
  · split
    · exact Onward.update h rfl
    · exact Onward.update h rfl
    · exact Onward.update h rfl
    · exact h

theorem ccOvervoltageCount_onward (h : Onward s₀ s) (m : Measurement) : Onward s₀ (ccOvervoltageCount m s) :=
  Onward.update h rfl

theorem ccEnter_onward (h : Onward s₀ s) (st : ChargeState) : Onward s₀ (ccEnter st s) :=
  raise_onward (Onward.update h rfl) _

theorem ccFault_onward (h : Onward s₀ s) (cause : FaultCause) : Onward s₀ (ccFault cause s) :=
  raise_onward (ccEnter_onward (Onward.update h rfl) _) _

theorem ccBegin_onward (h : Onward s₀ s) : Onward s₀ (ccBegin s) := ccEnter_onward h _

theorem ccFaultClear_onward (h : Onward s₀ s) : Onward s₀ (ccFaultClear s) :=
  ccBegin_onward (Onward.update h rfl)

theorem ccEnterTaper_onward (h : Onward s₀ s) : Onward s₀ (ccEnterTaper s) :=
  ccEnter_onward (Onward.update h rfl) _

theorem ccEnterDone_onward (h : Onward s₀ s) : Onward s₀ (ccEnterDone s) :=
  Onward.regular (ccEnter_onward (Onward.update h rfl) _) (gaFull_regular (Regular.refl _))

theorem ccTaper_onward (h : Onward s₀ s) (m : Measurement) : Onward s₀ (ccTaper m s) := by
  unfold ccTaper
  dsimp only
  split
  · exact ccEnterDone_onward h
  · exact Onward.update h rfl

theorem ccDone_onward (h : Onward s₀ s) (m : Measurement) : Onward s₀ (ccDone m s) := by
  unfold ccDone
  split
  · split
    · exact ccEnter_onward (Onward.update h rfl) _
    · exact Onward.update h rfl
  · exact Onward.update h rfl

theorem ccExit_onward (h : Onward s₀ s) (m : Measurement) : Onward s₀ (ccExit m s) := by
  unfold ccExit
  split
  · split
    · exact ccEnter_onward h _
    · split <;> exact ccEnter_onward h _
  · split
    · exact ccEnter_onward h _
    · exact h
  · split
    · exact ccEnterTaper_onward h
    · exact h
  · exact ccTaper_onward h m
  · exact ccDone_onward h m
  · split
    · exact h
    · exact ccEnter_onward h _
  · exact h

theorem ccTransition_onward (h : Onward s₀ s) (clear : Bool) (m : Measurement) :
    Onward s₀ (ccTransition clear m s) := by
  unfold ccTransition
  split
  · exact ccEnter_onward h _
  split
  · exact ccBegin_onward h
  split
  · split
    · exact ccFaultClear_onward h
    · exact h
  split
  · exact ccEnter_onward h _
  split
  · exact ccEnter_onward h _
  split
  · exact ccFault_onward h _
  split
  · exact ccFault_onward h _
  split
  · exact ccFault_onward h _
  split
  · exact ccEnter_onward h _
  · exact ccExit_onward h m

/-- The setpoint obeys its law once it is computed (R149). -/
theorem ccSetpoint_law (s : State) : SetpointLaw (ccSetpoint s) := by
  unfold SetpointLaw ccSetpoint setpointOf stateLimit zoneLimit thermalStop
  cases s.cc.charge <;> simp [or_assoc]

/-- What the Charge Controller's arrival can do (R134): it ends with the law of the setpoint, whatever it found. -/
theorem ccArrival_regular (h : Regular s₀ s) (m : Measurement) : Regular s₀ (ccArrival m s) where
  toOnward := by
    refine Onward.update (ccTransition_onward (ccOvervoltageCount_onward (ccTimers_onward (ccBudget_onward
      (ccDroop_onward (ccZone_onward (ccQualify_onward (ccOvervoltageFlag_onward (ccInstall_onward ?_) m) m) m) m) m))
      m) _ m) rfl
    exact Onward.update h.toOnward rfl
  setpoint := fun _ => ccSetpoint_law _

end Sys2Proof.Machine
end

