-- ==== Sys2Proof/Laws/RegularPart.lean ====
section
/-! SUPPORT. The profiles, the part states and the Host Port: what they keep. Only EVENTS_CLEAR and the resets clear a
cause; of these, that the state stays lawful. -/

namespace Sys2Proof.Machine

variable {s₀ s : State}

theorem puReportClamp_regular (h : Regular s₀ s) (p : PuParams) : Regular s₀ (puReportClamp p s) := by
  unfold puReportClamp
  split
  · refine raise_regular ?_ _
    exact Regular.update h rfl rfl
  · exact h

/-- The values of a Run reach MU with no mark posted while SM does not serve (R31, R99). -/
theorem muInstallRun_sm (h : tableServes s.sm = false) (p : MuParams) (bias : Axes) :
    (muInstallRun p bias s).sm = s.sm := by
  have hp : ∀ (k : ImpactMark) (u : State), u.sm = s.sm → (muPost k u).sm = s.sm := by
    intro k u hu
    unfold muPost
    simp [hu, h]
  have hi : ∀ (t : Nat) (u : State), (puImpact t u).sm = u.sm := by
    intro t u
    unfold puImpact
    split
    · rfl
    · unfold puStoreLive
      split
      · rfl
      · exact puStore_sm _ _ _
  have hb : ∀ u : State, (muBegin u).sm = u.sm := by
    intro u
    unfold muBegin
    repeat' split
    all_goals rfl
  have ht : ∀ u : State, u.sm = s.sm → (muInstallThreshold u).sm = s.sm := by
    intro u hu
    unfold muInstallThreshold muEndRun
    dsimp only
    repeat' split
    · simp only [hi]
      exact hp _ _ hu
    · exact hu
    · exact hu
    · exact hu
  unfold muInstallRun muIdentify
  split
  · exact ht _ rfl
  · rw [hb]
    exact ht _ rfl

/-- With no count in force SM does not serve (R99). -/
theorem tableServes_uncounted {m : Sm} (h : counted m = false) : tableServes m = false := by
  unfold counted at h
  unfold tableServes
  simp only [Bool.or_eq_false_iff] at h
  simp only [h.1, Bool.false_and]

/-- The values of a Run, handed while no count is in force (R108, R181). -/
theorem handRun_regular (h : Regular s₀ s) (v : Profiles)
    (hc : BadListLaw s₀ → TableLaws s₀ → counted s.sm = false) : Regular s₀ (handRun v s) := by
  have hr : (puReportClamp v.motion.pu s).sm = s.sm := by
    unfold puReportClamp
    split
    · exact raise_sm _ _
    · rfl
  have hm := muInstallRun_regular (puReportClamp_regular h v.motion.pu) v.motion.mu v.motion.bias
  have hs : counted s.sm = false →
      counted (muInstallRun v.motion.mu v.motion.bias (puReportClamp v.motion.pu s)).sm = false := fun k => by
    rw [muInstallRun_sm (by rw [hr]; exact tableServes_uncounted k), hr]
    exact k
  unfold handRun
  dsimp only
  generalize muInstallRun v.motion.mu v.motion.bias (puReportClamp v.motion.pu s) = u at hm hs ⊢
  exact {
    toForward := hm.toForward.control (fun b l k => (k.params (hs (hc b l)) v.storage.sm).congr rfl) rfl
    frames := fun l => (hm.frames l).settled (Settles.refl _) rfl id rfl rfl
    setpoint := hm.setpoint }

theorem handReload_regular (h : Regular s₀ s) (v : Profiles) : Regular s₀ (handReload v s) :=
  Regular.update (puReportClamp_regular h v.motion.pu) rfl rfl

theorem handValues_regular (h : Regular s₀ s) (r : ProfileRead)
    (hc : BadListLaw s₀ → TableLaws s₀ → r.atRun = true → counted s.sm = false) : Regular s₀ (handValues r s) := by
  unfold handValues
  split
  · rename_i hr
    exact handRun_regular h _ fun b l => hc b l hr
  · exact handReload_regular h _

/-- A read begins: at a Run, while the mount waits (R181, log 25). -/
theorem hpBeginRead_regular (h : Regular s₀ s) (o : ProfileOffsets) (atRun : Bool)
    (hm : atRun = true → s.sm.mount = some .finishing) : Regular s₀ (hpBeginRead o atRun s) := by
  unfold hpBeginRead
  dsimp only
  refine raiseIf_regular (Regular.control h (fun _ _ l => ?_) (fun _ l => ?_) (by rfl)) _ _
  · cases atRun
    · exact l.otherReading fun r hr => by obtain rfl := Option.some.inj hr; rfl
    · exact l.runReading (hm rfl)
  · exact l.settled (Settles.refl _) rfl id rfl rfl

/-- The end of a read: that of a Run comes before its mount, with no count in force (log 25). -/
theorem hpEndRead_regular (h : Regular s₀ s) : Regular s₀ (hpEndRead s) := by
  unfold hpEndRead
  split
  · exact h
  · rename_i r hr
    refine handValues_regular (Regular.control h (fun _ _ l => ?_) (fun _ l => ?_) (by rfl)) _ fun b l ha => ?_
    · exact l.otherReading fun _ e => by cases e
    · exact l.settled (Settles.refl _) rfl id rfl rfl
    · simp [counted, (h.tables b l).reading r hr ha]

/-- A read for a reload that ends within its command (R170). -/
theorem hpProfileRead_regular (h : Regular s₀ s) (o : ProfileOffsets) : Regular s₀ (hpProfileRead o false s) :=
  hpEndRead_regular (hpBeginRead_regular h o false fun e => by cases e)

/-- The read of a Run that ends within its command, with no count in force (R181). -/
theorem hpProfileRead_run (h : Regular s₀ s) (o : ProfileOffsets) (hc : counted s.sm = false) :
    Regular s₀ (hpProfileRead o true s) := by
  let v := readProfiles s o
  let u : State := { s with hp.clamped := v.clamped, hp.reading := none }
  let flag := v.clamped.motion || v.clamped.storage || v.clamped.power
  have he : hpProfileRead o true s = handRun v (u.raiseIf flag .parameterClamped) := by
    have hr : ∀ (x : Option ProfileRead) (b : Bool),
        { (({ s with hp.clamped := v.clamped, hp.reading := x } : State).raiseIf b .parameterClamped) with
          hp.reading := none } = u.raiseIf b .parameterClamped := by
      intro x b
      unfold State.raiseIf State.raise
      cases b
      · rfl
      · simp only [if_true]
        split <;> rfl
    have hg : (hpBeginRead o true s).hp.reading = some ⟨v, true⟩ := by
      unfold hpBeginRead State.raiseIf State.raise
      dsimp only
      repeat' split
      all_goals rfl
    unfold hpProfileRead hpEndRead
    rw [hg]
    unfold handValues
    simp only [if_true]
    exact congrArg (handRun v) (hr _ _)
  rw [he]
  have hu : Regular s₀ u := by
    refine Regular.control h (fun _ _ l => ?_) (fun _ l => ?_) rfl
    · exact l.otherReading fun _ e => by cases e
    · exact l.settled (Settles.refl _) rfl id rfl rfl
  refine handRun_regular (raiseIf_regular hu _ _) _ fun _ _ => ?_
  have hs : (u.raiseIf flag .parameterClamped).sm = s.sm := by
    unfold State.raiseIf
    split
    · exact raise_sm _ _
    · rfl
  rw [hs]
  exact hc

theorem hpReload_regular (h : Regular s₀ s) (course : ReadCourse) : Regular s₀ (hpReload course s) := by
  have hr : Regular s₀ { s with hp.reloadHeld := false } := Regular.update h rfl rfl
  unfold hpReload
  dsimp only
  split
  · exact hpBeginRead_regular hr _ _ fun e => by cases e
  · exact hpProfileRead_regular hr _

theorem cwAtRun_regular (h : Regular s₀ s) (table : Option Nat) (slots : Nat) (first : Word) :
    Regular s₀ (cwAtRun table slots first s) :=
  puWriterDone_regular (Regular.update (cwSetWriter_regular h .unmounted) rfl rfl)

theorem hpDirectoryRead_regular (h : Regular s₀ s) (d : Nat) : Regular s₀ (hpDirectoryRead d s) := by
  unfold hpDirectoryRead
  dsimp only
  refine puRun_regular (cwAtRun_regular ?_ _ _ _) _ _
  exact Regular.update (raiseIf_regular h _ _) rfl rfl

/-! ### Part states -/

/-- The part comes to a state that is neither Mounting nor Running, from one in which the filter is off or with the filter
going Off (R8). -/
theorem Regular.parted (h : Regular s₀ s) {p : Part} {r : Rck} {hp : Hp}
    (hm : p.state ≠ .mounting) (hn : p.state ≠ .running)
    (ht : p.transition = .standby ∨ p.transition = .reset → p.state = .idle)
    (hf : FrameLaws s₀ → FrameLaws s → r.filter = .off)
    (hk : hp.reading = s.hp.reading ∨ hp.reading = none)
    (hu : (r.nextFrame, controlKey r s.fe s.ga hp) = (s.rck.nextFrame, controlKey s.rck s.fe s.ga s.hp)) :
    Regular s₀ { s with part := p, rck := r, hp := hp } := by
  refine Regular.control h (fun _ _ l => ?_) (fun l₀ l => ?_) (congrArg (·.2) hu)
  · have k : TableLaws { s with part := p } := l.otherPart fun _ => hn
    exact (k.anyReading hk).congr rfl
  · exact l.parted (Settles.refl _) (congrArg (·.1) hu) (fun c => absurd (hf l₀ l) c) hm ht

theorem enterHalted_regular (h : Regular s₀ s) (cause : HaltedCause)
    (hs : FrameLaws s₀ → FrameLaws s → s.part.state ≠ .running) : Regular s₀ (enterHalted cause s) := by
  refine raise_regular ?_ _
  exact h.parted (fun e => by cases e) (fun e => by cases e) (fun e => by rcases e with e | e <;> cases e)
    (fun l₀ l => l.filterOff (hs l₀ l)) (.inl rfl) rfl

theorem bodySelfTestEnd_regular (h : Regular s₀ s) (t : Stamp) (r : SelfTest) :
    Regular s₀ (bodySelfTestEnd t r s) := by
  have ha := advance_regular h t.toNat
  unfold bodySelfTestEnd
  dsimp only
  split
  · rename_i hs
    have hn : (s.advance t.toNat).part.state ≠ .running := by rw [hs]; exact fun e => by cases e
    split
    · exact Regular.update ha rfl rfl
    · exact ha.parted (fun e => by cases e) (fun e => by cases e) (fun _ => rfl) (fun _ l => l.filterOff hn) (.inl rfl) rfl
    · exact enterHalted_regular ha _ fun _ _ => hn
    · exact enterHalted_regular (Regular.update ha (by rfl) (by rfl)) _ fun _ _ => hn
  · exact ha

/-- FE's reset empties the bad block list (R85). -/
theorem feAfterReset_bad (f : Fe) : (feAfterReset f).bad = [] := by
  unfold feAfterReset
  split <;> rfl

/-- What the reset of the blocks leaves of the tables: nothing (R62, R85, R109, R132). -/
theorem resetBlocks_laws (b : Bool) (s : State) :
    TableLaws (resetBlocks b s) ∧ (FrameLaws s → FrameLaws (resetBlocks b s)) := by
  unfold resetBlocks muReset
  have hr : ∀ r, (hpAfterReset b s.hp).reading = some r → r.atRun = false := by
    intro r hr
    cases b <;> cases hr
  have hf : ∀ x ∈ Pu.reset.shadows, x.state = .free := by
    intro x hx
    rw [List.eq_of_mem_replicate hx]
    rfl
  split
  · exact ⟨.ended rfl rfl rfl (fun e => by cases e) hr, fun l => l.settled (Settles.allFree hf) rfl id rfl rfl⟩
  · exact ⟨.ended rfl rfl rfl (fun e => by cases e) hr, fun l => l.settled (Settles.allFree hf) rfl id rfl rfl⟩

/-- What a soft reset of the blocks can do (R184): the registers of the Host Port are kept. -/
theorem resetBlocks_regular (h : Regular s₀ s) : Regular s₀ (resetBlocks false s) := by
  have hl := resetBlocks_laws false s
  unfold resetBlocks muReset at *
  split
  all_goals exact {
    pending := h.pending
    causes := h.causes
    clock := h.clock
    clockInRange := h.clockInRange
    memory := h.memory
    gauge := h.gauge
    directory := h.directory
    badList := fun _ => by
      unfold BadListLaw
      rw [feAfterReset_bad]
      exact ⟨rfl, Nat.zero_le _⟩
    tables := fun _ _ => by simp_all
    frames := fun l => by have := hl.2 (h.frames l); simp_all
    setpoint := h.setpoint }

/-- The reset of the blocks leaves the part state as it was. -/
theorem resetBlocks_part (b : Bool) (s : State) : (resetBlocks b s).part = s.part := by
  unfold resetBlocks muReset
  split <;> rfl

theorem beginReset_regular (h : Regular s₀ s) : Regular s₀ (beginReset s) := by
  refine muLeave_regular ?_
  exact h.parted (fun e => by cases e) (fun e => by cases e) (fun _ => rfl) (fun _ _ => rfl) (.inr rfl) rfl

/-- The reset transition is over: the part is Idle, or Halted after a loss of the reference (R180, R184). -/
theorem leaveReset_regular (h : Regular s₀ s) (ht : s.part.transition = .reset) :
    Regular s₀ (if s.part.haltAfter then enterHalted .clockLoss s else { s with part.transition := .none }) := by
  have hi : FrameLaws s → s.part.state = .idle := fun l => l.leaving (.inr ht)
  split
  · exact enterHalted_regular h _ fun _ l => by rw [hi l]; exact fun e => by cases e
  · refine Regular.control h (fun _ _ l => l.otherPart l.mounting) (fun _ l => ?_) rfl
    refine l.parted (Settles.refl _) rfl (fun c => l.filter c) ?_ fun e => by rcases e with e | e <;> cases e
    simp only [hi l]
    exact fun e => by cases e

/-- What the end of a soft reset transition can do (R184). -/
theorem endReset_regular (h : Regular s₀ s) (hr : s.part.byResetn = false) (ht : s.part.transition = .reset) :
    Regular s₀ (endReset s) := by
  unfold endReset
  dsimp only
  rw [hr]
  have hb := resetBlocks_regular h
  have hp := resetBlocks_part false s
  generalize resetBlocks false s = b at hb hp ⊢
  have hu : Regular s₀ { b with part.byResetn := false } := Regular.update hb rfl rfl
  refine leaveReset_regular (gaCheck_regular hu) ?_
  rw [(gaCheck_recording (Recording.refl _)).part, ← ht, ← hp]

theorem bodyResetTransitionEnd_regular (h : Regular s₀ s) (hr : s.part.byResetn = false) (t : Stamp) :
    Regular s₀ (bodyResetTransitionEnd t s) := by
  have ha := advance_regular h t.toNat
  unfold bodyResetTransitionEnd
  dsimp only
  split
  · rename_i ht
    split
    · refine endReset_regular ?_ hr (of_decide_eq_true ht)
      exact Regular.update ha rfl rfl
    · exact ha
  · exact Regular.update ha rfl rfl

theorem bodyClockLoss_regular (h : Regular s₀ s) (t : Stamp) (bufferPassed : Bool) :
    Regular s₀ (bodyClockLoss t bufferPassed s) := by
  have ha := advance_regular h t.toNat
  unfold bodyClockLoss
  dsimp only
  split
  · exact ha
  · split
    · rename_i hs
      refine enterHalted_regular ?_ _ fun _ _ => ?_
      · exact Regular.update ha rfl rfl
      · exact fun e => by simp_all
    · rename_i hs
      refine enterHalted_regular (resetBlocks_regular ?_) _ fun _ _ => ?_
      · exact Regular.update ha rfl rfl
      · rw [resetBlocks_part]
        exact fun e => by simp_all
    · exact Regular.update ha rfl rfl
    · exact Regular.update ha rfl rfl
    · split
      · exact Regular.update ha rfl rfl
      · refine beginReset_regular ?_
        exact Regular.update ha rfl rfl

/-- A read that ends leaves the part state as it was. -/
theorem hpEndRead_part (s : State) : (hpEndRead s).part = s.part := by
  have hc : ∀ (p : PuParams) (u : State), Undisturbed u (puReportClamp p u) := by
    intro p u
    unfold puReportClamp
    split
    · have h : Undisturbed u { u with hp.clamped.motion := true } := ⟨rfl, rfl, Settles.refl _⟩
      exact h.trans (raise_recording (Recording.refl _) _).undisturbed
    · exact Undisturbed.refl u
  unfold hpEndRead
  split
  · rfl
  · unfold handValues
    split
    · unfold handRun
      dsimp only
      exact (muInstallRun_undisturbed (hc _ _) _ _).part
    · exact (hc _ _).part

/-- The directory read leaves the ride clock and the part state as they were. -/
theorem hpDirectoryRead_rest (d : Nat) (s : State) :
    (hpDirectoryRead d s).part = s.part ∧ (hpDirectoryRead d s).rck = s.rck := by
  unfold hpDirectoryRead cwAtRun
  dsimp only
  constructor
  · rw [(puRun_recording (Recording.refl _) _ _).part, (puWriterDone_recording (Recording.refl _)).part]
    dsimp only
    rw [(cwSetWriter_recording (Recording.refl _) _).part]
    exact (raiseIf_recording (Recording.refl _) _ _).part
  · rw [(puRun_recording (Recording.refl _) _ _).rck, (puWriterDone_recording (Recording.refl _)).rck]
    dsimp only
    rw [(cwSetWriter_recording (Recording.refl _) _).rck]
    exact (raiseIf_recording (Recording.refl _) _ _).rck

/-- The entry to Mounting (R37, R173, R181): every entry is Free. -/
theorem enterMounting_regular (h : Regular s₀ s) (hs : s.part.state = .idle) (ht : s.part.transition = .none) (d : Nat)
    (x : Option Nat) :
    Regular s₀ (hpDirectoryRead d (muEnterStarting (rckArm
      { s with hp.inForce := x, part.state := .mounting }))) := by
  let e : State := { s with hp.inForce := x, part.state := .mounting }
  have he : Forward s₀ e := h.toForward.control (fun _ _ l =>
    (l.otherPart (p := { s.part with state := .mounting }) fun _ => fun c => by cases c).congr rfl) rfl
  have hd : Regular e (hpDirectoryRead d (muEnterStarting (rckArm e))) :=
    hpDirectoryRead_regular (muEnterStarting_regular (rckArm_regular (Regular.refl e))) _
  have hr := hpDirectoryRead_rest d (muEnterStarting (rckArm e))
  have hf : ∀ y ∈ (hpDirectoryRead d (muEnterStarting (rckArm e))).pu.shadows, y.state = .free := by
    unfold hpDirectoryRead
    exact puRun_free _ _ _
  exact {
    toForward := he.trans hd.toForward
    frames := fun l => by
      have k := h.frames l
      refine FrameLaws.allFree hf ?_ (fun c => absurd ?_ c) fun c => ?_
      · rw [hr.2]
        exact k.number
      · rw [hr.2]
        exact k.filterOff (by rw [hs]; exact fun c => by cases c)
      · have hn : (hpDirectoryRead d (muEnterStarting (rckArm e))).part.transition = .none := by
          rw [hr.1]
          exact ht
        rw [hn] at c
        rcases c with c | c <;> cases c
    setpoint := fun l => hd.setpoint (h.setpoint l) }

theorem takeRun_regular (h : Regular s₀ s) (course : ReadCourse) (hs : s.part.state = .idle)
    (ht : s.part.transition = .none) : Regular s₀ (takeRun course s) := by
  have hp := hpEndRead_part s
  have hd := enterMounting_regular (hpEndRead_regular h) (by rw [hp]; exact hs) (by rw [hp]; exact ht)
    (hpEndRead s).hp.directory.toNat (some (hpEndRead s).hp.directory.toNat)
  unfold takeRun
  dsimp only
  have hn : (hpDirectoryRead (hpEndRead s).hp.directory.toNat (muEnterStarting (rckArm
      { hpEndRead s with hp.inForce := some (hpEndRead s).hp.directory.toNat, part.state := .mounting }))).part.state
      ≠ .running := by
    rw [(hpDirectoryRead_rest _ _).1]
    exact fun c => by cases c
  generalize hpDirectoryRead (hpEndRead s).hp.directory.toNat (muEnterStarting (rckArm
      { hpEndRead s with hp.inForce := some (hpEndRead s).hp.directory.toNat, part.state := .mounting })) = u at hd hn ⊢
  have hm : Regular s₀ { u with sm.mount := some .finishing, sm.format := none } :=
    Regular.control hd (fun _ _ l => l.mountWaits hn) (fun _ l => l.settled (Settles.refl _) rfl id rfl rfl) rfl
  split
  · exact smGoOn_regular (hpProfileRead_run hm _ (by simp [counted]))
  · exact hpProfileRead_run (smGoOn_regular hm) _ (Waits.goesOn ⟨rfl, rfl⟩)
  · exact smGoOn_regular (hpBeginRead_regular hm _ _ fun _ => rfl)

theorem bodyMountWorkEnd_regular (h : Regular s₀ s) (t : Stamp) : Regular s₀ (bodyMountWorkEnd t s) := by
  have ha := advance_regular h t.toNat
  unfold bodyMountWorkEnd
  dsimp only
  split
  · rename_i hc
    obtain ⟨hs, hm, -⟩ := hc
    split
    · refine raise_regular (muStop_regular ?_) _
      exact ha.parted (fun e => by cases e) (fun e => by cases e) (fun e => by rcases e with e | e <;> cases e)
        (fun _ _ => rfl) (.inl rfl) rfl
    · refine raise_regular ?_ _
      refine Regular.control ha (fun _ _ l => ?_) (fun _ l => ?_) rfl
      · exact (l.otherPart (p := { (s.advance t.toNat).part with state := .running }) fun c => absurd hm c).congr rfl
      · refine FrameLaws.allFree (l.mounting hs) ?_ (fun _ => rfl) fun c => ?_
        · intro n hn
          obtain rfl := FrameNumber.number.inj hn
          exact Nat.two_pow_pos 32
        · have := l.leaving c
          rw [hs] at this
          cases this
  · exact ha

theorem takeStop_regular (h : Regular s₀ s) : Regular s₀ (takeStop s) := by
  have ht : Regular s₀ { s with part.transition := .stop } :=
    Regular.control h (fun _ _ l => l.otherPart l.mounting)
      (fun _ l => ⟨l.placed, l.number, l.filter, l.mounting, fun e => by rcases e with e | e <;> cases e⟩) rfl
  unfold takeStop
  dsimp only
  split
  · exact cwStopEvent_regular ht _
  · exact ht

theorem bodyWriterClosed_regular (h : Regular s₀ s) (t : Stamp) : Regular s₀ (bodyWriterClosed t s) := by
  have ha := advance_regular h t.toNat
  unfold bodyWriterClosed
  dsimp only
  split
  · refine puStop_regular (muStop_regular ?_)
    exact ha.parted (fun e => by cases e) (fun e => by cases e) (fun e => by rcases e with e | e <;> cases e)
      (fun _ _ => rfl) (.inl rfl) rfl
  · exact ha

theorem takeStandby_regular (h : Regular s₀ s) (hs : s.part.state = .idle) : Regular s₀ (takeStandby s) := by
  have ht : Regular s₀ { s with part.transition := .standby } :=
    Regular.control h (fun _ _ l => l.otherPart l.mounting)
      (fun _ l => ⟨l.placed, l.number, l.filter, l.mounting, fun _ => hs⟩) rfl
  unfold takeStandby
  dsimp only
  split
  · exact feSwitchOff_regular ht
  · exact ht

theorem bodyStandbyEntry_regular (h : Regular s₀ s) (t : Stamp) : Regular s₀ (bodyStandbyEntry t s) := by
  have ha := advance_regular h t.toNat
  unfold bodyStandbyEntry
  dsimp only
  split
  · rename_i hc
    refine ha.parted (fun e => by cases e) (fun e => by cases e) (fun e => by rcases e with e | e <;> cases e)
      (fun _ l => l.filterOff ?_) (.inl rfl) rfl
    rw [l.leaving (.inl hc.1)]
    exact fun e => by cases e
  · exact ha

theorem wakeStandby_regular (h : Regular s₀ s) (hs : s.part.state = .standby) : Regular s₀ (wakeStandby s) := by
  have hi : Regular s₀ { s with part.state := .idle } :=
    h.parted (fun e => by cases e) (fun e => by cases e) (fun _ => rfl)
      (fun _ l => l.filterOff (by rw [hs]; exact fun e => by cases e)) (.inl rfl) rfl
  unfold wakeStandby
  dsimp only
  split
  · exact feSwitchOn_regular hi
  · exact hi

theorem refuse_regular (h : Regular s₀ s) : Regular s₀ (refuse s) := raise_regular h _

theorem judgeCommand_regular (h : Regular s₀ s) (code : Nat) (course : ReadCourse) :
    Regular s₀ (judgeCommand code course s).2 := by
  unfold judgeCommand
  split
  · exact h
  · split
    · rename_i hc
      exact takeRun_regular h course hc.1 hc.2
    · exact refuse_regular h
  · dsimp only
    split
    · exact takeStop_regular h
    · exact refuse_regular h
  · dsimp only
    split
    · rename_i hc
      exact takeStandby_regular h hc.1
    · exact refuse_regular h
  · dsimp only
    split
    · exact beginReset_regular h
    · exact refuse_regular h
  · exact refuse_regular h

theorem beginReload_regular (h : Regular s₀ s) (course : ReadCourse) : Regular s₀ (beginReload course s) := by
  unfold beginReload
  split
  · exact hpReload_regular h course
  · exact Regular.update h rfl rfl

theorem judgeReload_regular (h : Regular s₀ s) (course : ReadCourse) : Regular s₀ (judgeReload course s) := by
  unfold judgeReload
  split
  · exact refuse_regular h
  · split
    · exact beginReload_regular h course
    · exact beginReload_regular h course
    · exact Regular.update h rfl rfl
    · exact refuse_regular h

theorem controlWrite_regular (h : Regular s₀ s) (value : Word) (course : ReadCourse) :
    Regular s₀ (controlWrite value course s) := by
  have hc := judgeCommand_regular h (value.toNat % 8) course
  unfold controlWrite
  dsimp only
  split
  · refine cwService_regular ?_
    split
    · exact judgeReload_regular hc course
    · exact hc
  · split
    · exact judgeReload_regular hc course
    · exact hc

theorem bodyHeldReload_regular (h : Regular s₀ s) (t : Stamp) : Regular s₀ (bodyHeldReload t s) := by
  have ha := hpEndRead_regular (advance_regular h t.toNat)
  unfold bodyHeldReload
  dsimp only
  split
  · exact hpReload_regular ha .first
  · exact ha

/-- What DIRECTORY stores is a multiple of 256 below 2^24 (R172). -/
theorem directoryValue_idem (v : Word) : directoryValue (directoryValue v) = directoryValue v := by
  unfold directoryValue
  rw [BitVec.and_assoc, BitVec.and_self]

theorem directoryWrite_regular (h : Regular s₀ s) (v : Word) : Regular s₀ (directoryWrite v s) := by
  unfold directoryWrite
  split
  · exact h
  · exact {
      pending := h.pending
      causes := h.causes
      clock := h.clock
      clockInRange := h.clockInRange
      memory := h.memory
      gauge := h.gauge
      directory := fun _ => directoryValue_idem v
      badList := h.badList
      tables := fun b l => (h.tables b l).congr rfl
      frames := fun l => (h.frames l).settled (Settles.refl _) rfl id rfl rfl
      setpoint := h.setpoint }

theorem eventMaskWrite_regular (h : Regular s₀ s) (v : Word) : Regular s₀ (eventMaskWrite v s) := by
  unfold eventMaskWrite
  split
  · exact h
  · exact Regular.update h rfl rfl

theorem portAccess_regular (h : Regular s₀ s) (t : Stamp) (stateRead : Bool) :
    Regular s₀ (portAccess t stateRead s) := by
  have ha := advance_regular h t.toNat
  unfold portAccess
  dsimp only
  split
  · rename_i hc
    exact wakeStandby_regular ha hc.1
  · exact ha

theorem bodyHalfReadLow_regular (h : Regular s₀ s) (t : Stamp) (registers : Bool) (word : Nat) :
    Regular s₀ (bodyHalfReadLow t registers word s) :=
  Regular.update (portAccess_regular h t (isStateRead registers word)) rfl rfl

theorem bodyHalfReadHigh_regular (h : Regular s₀ s) (t : Stamp) (registers : Bool) (word : Nat) :
    Regular s₀ (bodyHalfReadHigh t registers word s) :=
  Regular.update (portAccess_regular h t (isStateRead registers word)) rfl rfl

theorem bodyHalfWriteHigh_regular (h : Regular s₀ s) (t : Stamp) (value : Half) :
    Regular s₀ (bodyHalfWriteHigh t value s) :=
  Regular.update (portAccess_regular h t false) rfl rfl

theorem hpRefresh_regular (h : Regular s₀ s) : Regular s₀ (hpRefresh s) := by
  unfold hpRefresh
  split
  · exact h
  · dsimp only
    exact Regular.update (store_regular (store_regular (store_regular h _ _) _ _) _ _) rfl rfl

theorem hpTick_regular (h : Regular s₀ s) : Regular s₀ (hpTick s) := by
  unfold hpTick
  split
  · exact hpRefresh_regular h
  · exact h

/-! ### Ticks -/

theorem tickDelivery_regular (h : Regular s₀ s) (m : Measurement) (d : TickDelivery) :
    Regular s₀ (tickDelivery m d s) := by
  cases d with
  | releaseScan =>
    unfold tickDelivery
    dsimp only
    split
    · exact puReleaseScan_regular h
    · exact h
  | charger => exact ccArrival_regular h m
  | gauge => exact gaArrival_regular h m
  | scan => exact cwService_regular h
  | commit => exact cwCommit_regular h
  | flash => exact feTick_regular h
  | status => exact hpTick_regular h

theorem tickTime_regular (h : Regular s₀ s) : Regular s₀ (tickTime s) :=
  Regular.update (advance_regular h s.rck.nextChargeTick) rfl rfl

/-- What a charge tick can do (R3). -/
theorem bodyChargeTick_regular (h : Regular s₀ s) (m : Measurement) (order : List TickDelivery) :
    Regular s₀ (bodyChargeTick m order s) :=
  foldl_regular (tickTime_regular h) _ fun h d => tickDelivery_regular h (delivered m) d

/-! ### What clears a cause -/

/-- The queue of waiting commands is as it was, and a lawful state stays lawful. -/
structure Keeps (s₀ s : State) : Prop where
  pending : s.pending = s₀.pending
  lawful : Lawful s₀ → Lawful s

theorem Regular.keeps (h : Regular s₀ s) : Keeps s₀ s := ⟨h.pending, h.lawful⟩

theorem Keeps.regular {t : State} (h : Keeps s₀ s) (k : Regular s t) : Keeps s₀ t :=
  ⟨k.pending.trans h.pending, fun l => k.lawful (h.lawful l)⟩

/-- A lawful state of the same queue. -/
theorem Lawful.keeps (l : Lawful s) (h : s.pending = s₀.pending) : Keeps s₀ s := ⟨h, fun _ => l⟩

/-- A change of the Host Port that keeps the law of DIRECTORY, and its profile read or ends it. -/
theorem Keeps.port (h : Keeps s₀ s) {p : Part} {hp : Hp}
    (hd : DirectoryAligned s → directoryValue hp.directory = hp.directory)
    (hk : hp.reading = s.hp.reading ∨ hp.reading = none)
    (hu : (p.state, p.transition) = (s.part.state, s.part.transition)) :
    Keeps s₀ { s with part := p, hp := hp } where
  pending := h.pending
  lawful := fun l₀ => by
    have l := h.lawful l₀
    exact {
      memory := l.memory
      clock := l.clock
      gauge := l.gauge
      setpoint := l.setpoint
      directory := hd l.directory
      badList := l.badList
      tables := by
        have hp : p.state = s.part.state := congrArg (·.1) hu
        exact (l.tables.otherPart (p := p) (by rw [hp]; exact l.tables.mounting)).anyReading hk
      frames := l.frames.settled (Settles.refl _) rfl id (congrArg (·.1) hu) (congrArg (·.2) hu) }

theorem directoryValue_zero : directoryValue 0 = 0 := by decide

/-- Any state of the reset values and any queue is lawful. -/
theorem reset_lawful (p : Part) (r : Rck) (g : Ga) (q : List Instr) (hr : r.clock = 0) (hg : g.q = 0)
    (hp : p.transition = .none) (hf : r.filter = .off) (hn : r.nextFrame = .number 0) :
    Lawful { State.reset with part := p, rck := r, ga := g, pending := q } where
  memory := rfl
  clock := by unfold ClockInRange; rw [hr]; exact Nat.zero_le _
  gauge := by unfold GaugeInRange; rw [hg]; exact Nat.zero_le _
  setpoint := rfl
  directory := directoryValue_zero
  badList := ⟨rfl, Nat.zero_le _⟩
  tables := .ended rfl rfl rfl (fun e => by cases e) fun r e => by cases e
  frames := by
    refine FrameLaws.allFree (fun x hx => ?_) (fun n e => ?_) (fun c => absurd hf c) fun c => ?_
    · rw [List.eq_of_mem_replicate hx]
      rfl
    · rw [hn] at e
      obtain rfl := FrameNumber.number.inj e
      exact Nat.two_pow_pos 32
    · rw [hp] at c
      rcases c with c | c <;> cases c

theorem enterOff_keeps (h : Keeps s₀ s) : Keeps s₀ (enterOff s) :=
  (reset_lawful _ _ _ _ rfl rfl rfl rfl rfl).keeps h.pending

theorem powerOn_keeps (h : Keeps s₀ s) : Keeps s₀ (powerOn s) :=
  (reset_lawful _ _ Ga.reset _ rfl rfl rfl rfl rfl).keeps h.pending

theorem finish_keeps (h : Keeps s₀ s) : Keeps s₀ (finish s) := by
  have hr := h.regular (smIntake_regular (cwRun_regular (smGoOn_regular (Regular.refl s))))
  unfold finish
  split
  · exact h
  · dsimp only
    split
    · exact hr
    · exact enterOff_keeps hr

theorem live_keeps {f : State → State} (hf : Keeps s (f s)) : Keeps s (live f s) := by
  unfold live
  split
  · exact (Regular.refl s).keeps
  · exact finish_keeps hf

theorem powered_keeps {f : State → State} (hf : Keeps s (f s)) : Keeps s (powered f s) := by
  unfold powered
  split
  · exact (Regular.refl s).keeps
  · exact hf

theorem derived_keeps {body : State → State} {came : State → State → Bool} (hf : Keeps s (body s)) :
    Keeps s (derived body came s) := by
  unfold derived
  split
  · exact (Regular.refl s).keeps
  · split
    · exact finish_keeps hf
    · exact (Regular.refl s).keeps

theorem wakeReading_keeps (vin : Int) : Keeps s (wakeReading vin s) := by
  have h := (Regular.refl s).keeps
  unfold wakeReading
  split
  · split
    · exact powerOn_keeps h
    · exact h.regular (Regular.update (Regular.refl s) rfl rfl)
  · exact h

theorem clearRegisters_keeps (h : Keeps s₀ s) : Keeps s₀ (clearRegisters s) :=
  h.port (fun _ => directoryValue_zero) (.inl rfl) rfl

/-- The registers that a reset leaves (R178). -/
theorem hpAfterReset_aligned (r : Bool) {h : Hp} (hd : directoryValue h.directory = h.directory) :
    directoryValue (hpAfterReset r h).directory = (hpAfterReset r h).directory := by
  cases r
  · exact hd
  · exact directoryValue_zero

/-- What the reset of the blocks can do, the registers cleared or kept (R184). -/
theorem resetBlocks_keeps (h : Keeps s₀ s) (r : Bool) : Keeps s₀ (resetBlocks r s) := by
  have hl := resetBlocks_laws r s
  unfold resetBlocks muReset at *
  split
  all_goals exact {
    pending := h.pending
    lawful := fun l₀ => by
      have l := h.lawful l₀
      exact {
        memory := l.memory
        clock := l.clock
        gauge := l.gauge
        setpoint := l.setpoint
        directory := hpAfterReset_aligned r l.directory
        badList := by
          unfold BadListLaw
          rw [feAfterReset_bad]
          exact ⟨rfl, Nat.zero_le _⟩
        tables := by simp_all
        frames := by have := hl.2 l.frames; simp_all } }

/-- What the end of a reset transition can do (R184). -/
theorem endReset_keeps (h : Keeps s₀ s) (ht : s.part.transition = .reset) : Keeps s₀ (endReset s) := by
  have hb := resetBlocks_keeps h s.part.byResetn
  have hp := resetBlocks_part s.part.byResetn s
  unfold endReset
  dsimp only
  generalize resetBlocks s.part.byResetn s = b at hb hp ⊢
  have hu : Regular b { b with part.byResetn := false } :=
    Regular.update (Regular.refl b) rfl rfl
  refine hb.regular (leaveReset_regular (gaCheck_regular hu) ?_)
  rw [(gaCheck_recording (Recording.refl _)).part, ← ht, ← hp]

theorem bodyResetTransitionEnd_keeps (t : Stamp) : Keeps s (bodyResetTransitionEnd t s) := by
  have ha := advance_regular (Regular.refl s) t.toNat
  unfold bodyResetTransitionEnd
  dsimp only
  split
  · split
    · rename_i ht _
      refine endReset_keeps (Regular.keeps ?_) (of_decide_eq_true ht)
      exact Regular.update ha rfl rfl
    · exact ha.keeps
  · exact (Regular.update ha (by rfl) (by rfl)).keeps

/-- What a falling edge of RESETn can do (R184). -/
theorem bodyResetn_keeps (t : Stamp) (heldLow : Bool) : Keeps s (bodyResetn t heldLow s) := by
  have hc := clearRegisters_keeps (advance_regular (Regular.refl s) t.toNat).keeps
  unfold bodyResetn
  dsimp only
  split
  · exact hc.port (fun _ => directoryValue_zero) (.inr rfl) rfl
  · exact hc.port (fun _ => directoryValue_zero) (.inr rfl) rfl
  · split
    · exact hc.regular (Regular.update (Regular.refl _) rfl rfl)
    · refine hc.regular (beginReset_regular ?_)
      exact Regular.update (Regular.refl _) rfl rfl

theorem eventsClear_keeps (h : Keeps s₀ s) (v : Word) : Keeps s₀ (eventsClear v s) :=
  h.port (fun l => l) (.inl rfl) rfl

theorem registerWrite_keeps (h : Keeps s₀ s) (i : Nat) (v : Word) (course : ReadCourse) :
    Keeps s₀ (registerWrite i v course s) := by
  unfold registerWrite
  split
  · exact h.regular (controlWrite_regular (Regular.refl s) v course)
  · exact h.regular (directoryWrite_regular (Regular.refl s) v)
  · exact eventsClear_keeps h v
  · exact h.regular (eventMaskWrite_regular (Regular.refl s) v)
  · exact h

theorem portWrite_keeps (h : Keeps s₀ s) (registers : Bool) (word : Nat) (v : Word) (course : ReadCourse) :
    Keeps s₀ (portWrite registers word v course s) := by
  unfold portWrite
  split
  · exact registerWrite_keeps h word v course
  · split
    · exact h.regular (store_regular (Regular.refl s) _ _)
    · exact h

theorem bodyHalfWriteLow_keeps (t : Stamp) (registers : Bool) (word : Nat) (value : Half) (course : ReadCourse) :
    Keeps s (bodyHalfWriteLow t registers word value course s) :=
  portWrite_keeps (portAccess_regular (Regular.refl s) t false).keeps registers word _ course

theorem bodyRegister_keeps (t : Stamp) (i : Nat) (v : Word) (course : ReadCourse) :
    Keeps s (bodyRegister t i v course s) :=
  registerWrite_keeps (portAccess_regular (Regular.refl s) t false).keeps i v course

theorem bodyRegisterHalf_keeps (t : Stamp) (i : Nat) (value : Half) : Keeps s (bodyRegisterHalf t i value s) := by
  unfold bodyRegisterHalf
  split
  · exact bodyHalfWriteLow_keeps t true (i / 2) value .first
  · exact (bodyHalfWriteHigh_regular (Regular.refl s) t value).keeps

/-! ### The Flash Engine's events and the requests -/

/-- A completion is regular (R73, R76). -/
theorem ofCompletion {t : State} (a : Nat) (h : Recording (s.advance a) t) : Regular s t :=
  (advance_regular (Regular.refl s) a).recording h

theorem checkBetween_regular (h : Regular s₀ s) (o : EndOrder) : Regular s₀ (checkBetween o s) := by
  unfold checkBetween gaCheck
  split
  · dsimp only
    split
    · exact Regular.update h rfl rfl
    · exact h
  · exact h

theorem bodyOperationTimeout_regular (o : EndOrder) : Regular s (bodyOperationTimeout o s) := by
  unfold bodyOperationTimeout
  split
  · exact Regular.refl s
  · dsimp only
    have ha := fun d => advance_regular (Regular.refl s) d
    split
    · exact gaCheck_regular (answerFailed_regular (feStartupTimeout_regular (checkBetween_regular (ha _) o)))
    · exact endOperation_regular (ha _) o _ _ fun h => feEndTimeout_recording h

theorem bodySettleEnd_regular : Regular s (bodySettleEnd s) := by
  unfold bodySettleEnd
  split
  · exact Regular.refl s
  · split
    · exact feStartupReset_regular (advance_regular (Regular.refl s) _)
    · exact Regular.refl s

/-- What the taking of a slot can do (R112). -/
theorem bodyTake_regular (k : Kind) (t : Stamp) (i : Nat) : Regular s (bodyTake k t i s) := by
  have ha := advance_regular (Regular.refl s) t.toNat
  unfold bodyTake
  dsimp only
  split
  · exact ha
  · split
    · rename_i hk
      refine cwRun_regular (cwTake_regular ha ?_ _ i)
      simp only [takesSlot, servicePoint, Bool.and_eq_true, decide_eq_true_eq] at hk
      exact hk.1.1.1.1.1.1.1
    · exact ha

end Sys2Proof.Machine
end

