-- ==== Sys2Proof/Laws/Tick.lean ====
section
/-! SUPPORT. The charge tick (R3): every delivery is made once, in any order; what each can change; and the Charge
Controller's arrival as a function of its own registers and of whether the rail is on (R134). -/

namespace Sys2Proof.Machine

variable {s₀ s : State}

/-! ### Orders -/

/-- Without its later repeats a list has no duplicates. -/
theorem eraseDups_nodup {α : Type} [DecidableEq α] (l : List α) : l.eraseDups.Nodup := by
  generalize hk : l.length = k
  induction k using Nat.strong_induction_on generalizing l with
  | _ k ih =>
    cases l with
    | nil => exact List.nodup_nil
    | cons a l =>
      rw [List.eraseDups_cons]
      refine List.nodup_cons.2 ⟨fun h => ?_, ih _ ?_ _ rfl⟩
      · simp only [List.mem_eraseDups, List.mem_filter] at h
        simp at h
      · have := List.length_filter_le (fun b => !b == a) l
        simp only [List.length_cons] at hk
        omega

/-- Every delivery is made once, whatever order is named (R3, R10). -/
theorem completeOrder_perm {α : Type} [DecidableEq α] {all : List α} (hn : all.Nodup) (ha : ∀ d, d ∈ all)
    (named : List α) : (completeOrder all named).Perm all := by
  refine (List.perm_ext_iff_of_nodup ?_ hn).2 fun d => ⟨fun _ => ha d, fun _ => ?_⟩
  · unfold completeOrder
    refine List.nodup_append.2 ⟨eraseDups_nodup _, hn.filter _, fun a h b hb e => ?_⟩
    subst e
    simp only [List.mem_eraseDups] at h
    simp only [List.mem_filter, List.contains_eq_mem, Bool.not_eq_true', decide_eq_false_iff_not] at hb
    exact hb.2 h
  · unfold completeOrder
    simp only [List.mem_append, List.mem_eraseDups, List.mem_filter, List.contains_eq_mem, Bool.not_eq_true',
      decide_eq_false_iff_not]
    by_cases h : d ∈ named
    · exact .inl h
    · exact .inr ⟨ha d, h⟩

/-- The deliveries of a charge tick (R3). -/
theorem tickOrder_perm (named : List TickDelivery) :
    (tickOrder named).Perm [.releaseScan, .charger, .gauge, .scan, .commit, .flash, .status] :=
  completeOrder_perm (by decide) (fun d => by cases d <;> decide) named

/-- The deliveries of an accepted frame-start (R10). -/
theorem frameOrder_perm (named : List FrameDelivery) : (frameOrder named).Perm [.motion, .path, .writer] :=
  completeOrder_perm (by decide) (fun d => by cases d <;> decide) named

/-- One delivery of a charge tick among the others (R3). -/
theorem tickOrder_split (named : List TickDelivery) (d : TickDelivery) :
    ∃ pre post, tickOrder named = pre ++ d :: post ∧ d ∉ pre ∧ d ∉ post := by
  have hp := tickOrder_perm named
  have hm : d ∈ tickOrder named := hp.mem_iff.2 (by cases d <;> decide)
  have hn : (tickOrder named).Nodup := hp.nodup_iff.2 (by decide)
  obtain ⟨pre, post, e⟩ := List.append_of_mem hm
  rw [e] at hn
  refine ⟨pre, post, e, fun h => ?_, fun h => ?_⟩
  · exact (List.nodup_append.1 hn).2.2 d h d (List.mem_cons_self ..) rfl
  · exact (List.nodup_cons.1 (List.nodup_append.1 hn).2.1).1 h

/-! ### What a delivery leaves -/

/-- What every delivery of a charge tick leaves as it is. -/
structure Ticked (s t : State) : Prop where
  part : t.part = s.part
  rck : t.rck = s.rck
  pending : t.pending = s.pending
  mu : { t.mu with marks := s.mu.marks } = s.mu
  causes : ∀ c, s.caused c = true → t.caused c = true
  held : s.ga.sysen = false → t.ga.sysen = false

theorem Ticked.refl (s : State) : Ticked s s := ⟨rfl, rfl, rfl, rfl, fun _ h => h, fun h => h⟩

theorem Ticked.trans {t u : State} (h : Ticked s t) (k : Ticked t u) : Ticked s u where
  part := k.part.trans h.part
  rck := k.rck.trans h.rck
  pending := k.pending.trans h.pending
  mu := by
    rw [← h.mu, ← k.mu]
  causes := fun c hc => k.causes c (h.causes c hc)
  held := fun g => k.held (h.held g)

theorem Recording.ticked {t : State} (h : Recording s t) : Ticked s t := ⟨h.part, h.rck, h.pending, h.mu, h.causes, h.held⟩

/-- A change of the Charge Controller and the Gauge is part of a tick, but for an assertion of SYSEN. -/
theorem Ticked.update (h : Ticked s₀ s) {cc : Cc} {ga : Ga} (hg : s.ga.sysen = false → ga.sysen = false) :
    Ticked s₀ { s with cc := cc, ga := ga } :=
  ⟨h.part, h.rck, h.pending, h.mu, h.causes, fun g => hg (h.held g)⟩

theorem Ticked.recording {t : State} (h : Ticked s₀ s) (k : Recording s t) : Ticked s₀ t := h.trans k.ticked

theorem Ticked.raise (h : Ticked s₀ s) (c : Cause) : Ticked s₀ (s.raise c) :=
  h.recording (raise_recording (Recording.refl s) c)

/-! ### The Gauge and the Charge Controller at a tick -/

theorem cwSignal_recording (h : Recording s₀ s) (cause : StopCause) : Recording s₀ (cwSignal cause s) := by
  unfold cwSignal
  split
  · exact h
  · exact cwRun_recording (cwStopEvent_recording h cause)

theorem gaCutoff_ticked (h : Ticked s₀ s) : Ticked s₀ (gaCutoff s) := by
  unfold gaCutoff
  dsimp only
  refine Ticked.recording ?_ (gaCheck_recording (Recording.refl _))
  refine Ticked.update (cc := _) ?_ (by exact id)
  exact Ticked.recording (Ticked.update h (by exact id)) (cwSignal_recording (Recording.refl _) _)

theorem gaFindLevel_ticked (h : Ticked s₀ s) : Ticked s₀ (gaFindLevel s) := by
  unfold gaFindLevel
  dsimp only
  split
  · exact h
  · have hl : Ticked s₀ (State.raise { s with ga.level := gaLevel s.ga } .gaugeLevel) :=
      (Ticked.update h (by exact id)).raise _
    split
    · exact hl.recording (cwSignal_recording (Recording.refl _) _)
    · exact gaCutoff_ticked hl
    · exact hl

theorem gaQualification_ticked (h : Ticked s₀ s) (present : Bool) : Ticked s₀ (gaQualification present s) :=
  gaFindLevel_ticked (Ticked.update h id)

theorem gaFull_ticked (h : Ticked s₀ s) : Ticked s₀ (gaFull s) := gaFindLevel_ticked (Ticked.update h id)

theorem gaInstall_ticked (h : Ticked s₀ s) : Ticked s₀ (gaInstall s) := by
  unfold gaInstall
  split
  · exact h
  · exact gaFindLevel_ticked (Ticked.update h id)

theorem gaCount_ticked (h : Ticked s₀ s) (m : Measurement) : Ticked s₀ (gaCount m s) := by
  unfold gaCount
  split <;> exact Ticked.update h id

theorem gaGraceTick_ticked (h : Ticked s₀ s) : Ticked s₀ (gaGraceTick s) := by
  unfold gaGraceTick
  split
  · exact h
  · dsimp only
    split
    · exact Ticked.update h fun _ => rfl
    · exact Ticked.recording (Ticked.update h (by exact id)) (gaCheck_recording (Recording.refl _))

theorem gaArrival_ticked (h : Ticked s₀ s) (m : Measurement) : Ticked s₀ (gaArrival m s) := by
  have hf := gaFindLevel_ticked (Ticked.update (cc := (gaCount m (gaInstall s)).cc)
    (ga := (gaAdvance m (gaCount m (gaInstall s))).ga) (gaCount_ticked (gaInstall_ticked h) m) (by exact id))
  unfold gaArrival
  dsimp only
  split
  · exact gaGraceTick_ticked hf
  · exact hf

/-! The Gauge leaves the Charge Controller's registers. -/

@[simp] theorem cwSignal_cc (cause : StopCause) (s : State) : (cwSignal cause s).cc = s.cc :=
  (cwSignal_recording (Recording.refl s) cause).cc

@[simp] theorem gaCheck_cc (s : State) : (gaCheck s).cc = s.cc := (gaCheck_recording (Recording.refl s)).cc

@[simp] theorem gaCutoff_cc (s : State) : (gaCutoff s).cc = s.cc := by simp [gaCutoff]

@[simp] theorem gaFindLevel_cc (s : State) : (gaFindLevel s).cc = s.cc := by
  unfold gaFindLevel
  dsimp only
  split
  · rfl
  · split <;> simp

@[simp] theorem gaQualification_cc (present : Bool) (s : State) : (gaQualification present s).cc = s.cc := by
  simp [gaQualification]

@[simp] theorem gaFull_cc (s : State) : (gaFull s).cc = s.cc := by simp [gaFull]

@[simp] theorem gaArrival_cc (m : Measurement) (s : State) : (gaArrival m s).cc = s.cc := by
  have hi : (gaInstall s).cc = s.cc := by unfold gaInstall; split <;> simp
  have hc : (gaCount m (gaInstall s)).cc = s.cc := by unfold gaCount; split <;> exact hi
  have hg : ∀ s : State, (gaGraceTick s).cc = s.cc := by
    intro s
    unfold gaGraceTick
    split
    · rfl
    · dsimp only
      split
      · rfl
      · rw [gaCheck_cc]
  unfold gaArrival
  dsimp only
  split
  · rw [hg, gaFindLevel_cc]; exact hc
  · rw [gaFindLevel_cc]; exact hc

/-! ### The Charge Controller's arrival on its own registers -/

/-- Installation and the InputOvervoltage flag (R134, steps 1 and 2; R136, R151). -/
def ccBegun (m : Measurement) (c : Cc) : Bool × Cc :=
  match c.pending with
  | none => (false, { c with latest := some m, overvoltage := c.overvoltage || overInput m })
  | some p =>
    (p.faultClear,
      { c with
        latest := some m, params := p, pending := none, inputLimit := min c.inputLimit p.inputMax
        overvoltage := c.overvoltage || overInput m })

/-- The qualification (R135, R137). -/
def ccJudged (m : Measurement) (c : Cc) : Cc :=
  if vinInRange m.vin = c.present then { c with qualifyCount := 0 }
  else if c.qualifyCount + 1 < 4 then { c with qualifyCount := c.qualifyCount + 1 }
  else if c.present then
    { c with
      present := false, qualifyCount := 0, inputLimit := c.params.inputMax, prechargeTimer := 0
      fastTimer := 0, terminationCount := 0, rechargeCount := 0, overvoltageCount := 0, cause := .none, taper := 0 }
  else { c with present := true, qualifyCount := 0, overvoltage := false, inputLimit := c.params.inputMax }

/-- The zone (R140). -/
def ccZoned (m : Measurement) (c : Cc) : Cc :=
  if m.tcell < -80 ∨ 200 < m.tcell then { c with noThermistor := true }
  else { c with noThermistor := false, zone := zoneAfter c.zone m.tcell }

/-- Droop regulation (R138). -/
def ccDrooped (m : Measurement) (c : Cc) : Cc :=
  if c.present then
    if m.vin < c.params.floor then { c with inputLimit := max 100 (c.inputLimit - 50) }
    else if (c.params.floor : Int) + 100 ≤ m.vin then { c with inputLimit := min c.params.inputMax (c.inputLimit + 25) }
    else c
  else c

/-- The budget, with the flash rail on or off (R139). -/
def ccBudgeted (m : Measurement) (on : Bool) (c : Cc) : Cc :=
  { c with
    budget :=
      if c.present ∧ !overInput m then
        (m.vin.toNat * c.inputLimit / 1000 * 9 / 10 - (c.params.cameraLoad + (if on then c.params.flashLoad else 0))) * 1000
          / max m.vbat.toNat 2500
      else 0 }

/-- The safety timers (R147). -/
def ccTimed (c : Cc) : Cc :=
  if c.setpoint = 0 then c
  else match c.charge with
    | .precharge => { c with prechargeTimer := min prechargeLimit (c.prechargeTimer + 1) }
    | .fast => { c with fastTimer := min fastLimit (c.fastTimer + 1) }
    | .taper => { c with fastTimer := min fastLimit (c.fastTimer + 1) }
    | _ => c

/-- The overvoltage count (R148). -/
def ccCounted (m : Measurement) (c : Cc) : Cc :=
  { c with
    overvoltageCount :=
      if c.present && judgesOvervoltage c.charge && decide ((c.params.target : Int) + 150 < m.vbat) then
        min 4 (c.overvoltageCount + 1)
      else 0 }

/-- The exit of the current state (R142, step 9). -/
def ccLeft (m : Measurement) (c : Cc) : Cc :=
  match c.charge with
  | .qualify =>
    if thermalStop c then { c with charge := .suspended }
    else if m.vbat < 3000 then { c with charge := .precharge } else { c with charge := .fast }
  | .precharge => if 3000 ≤ m.vbat then { c with charge := .fast } else c
  | .fast =>
    if effectiveTarget c ≤ m.vbat then
      { c with charge := .taper, taper := c.setpoint, terminationCount := 0, rechargeCount := 0 }
    else c
  | .taper =>
    if 16 ≤ terminationAfter c m (taperAfter c m) then
      { c with
        charge := .done, prechargeTimer := 0, fastTimer := 0, terminationCount := 0, rechargeCount := 0, taper := 0 }
    else { c with taper := taperAfter c m, terminationCount := terminationAfter c m (taperAfter c m) }
  | .done =>
    if m.vbat < effectiveTarget c - 100 then
      if 4 ≤ c.rechargeCount + 1 then
        { c with rechargeCount := 0, charge := if thermalStop c then .suspended else .fast }
      else { c with rechargeCount := c.rechargeCount + 1 }
    else { c with rechargeCount := 0 }
  | .suspended => if thermalStop c then c else { c with charge := .qualify }
  | _ => c

/-- The one transition (R142). -/
def ccMoved (clear : Bool) (m : Measurement) (c : Cc) : Cc :=
  if !c.present ∧ c.charge ≠ .noInput then { c with charge := .noInput }
  else if c.present ∧ c.charge = .noInput then { c with charge := if c.params.enable then .qualify else .inhibited }
  else if c.charge = .fault then
    (if clear then
      { c with
        cause := .none, prechargeTimer := 0, fastTimer := 0, overvoltageCount := 0
        charge := if c.params.enable then .qualify else .inhibited }
    else c)
  else if obeysEnable c.charge ∧ !c.params.enable then { c with charge := .inhibited }
  else if c.charge = .inhibited ∧ c.params.enable then { c with charge := .qualify }
  else if c.overvoltageCount = 4 then { c with cause := .batteryOvervoltage, charge := .fault }
  else if c.prechargeTimer = prechargeLimit then { c with cause := .prechargeTimer, charge := .fault }
  else if c.fastTimer = fastLimit then { c with cause := .fastTimer, charge := .fault }
  else if isCharging c.charge ∧ thermalStop c then { c with charge := .suspended }
  else ccLeft m c

/-- The registers before the transition of an arrival, from those after its qualification (R134, steps 3 to 6; R148). -/
def ccStaged (m : Measurement) (on : Bool) (c : Cc) : Cc :=
  ccCounted m (ccTimed (ccBudgeted m on (ccDrooped m (ccZoned m c))))

/-- The Charge Controller's registers after an arrival, with the flash rail on or off at the budget (R134). -/
def ccAfter (m : Measurement) (on : Bool) (c : Cc) : Cc :=
  let b := ccBegun m c
  let d := ccMoved b.1 m (ccStaged m on (ccJudged m b.2))
  { d with setpoint := setpointOf d }

/-! What the steps of an arrival may change. -/

theorem ccZoned_form (m : Measurement) (c : Cc) :
    ∃ t z, ccZoned m c = { c with noThermistor := t, zone := z } := by
  unfold ccZoned
  split
  · exact ⟨_, c.zone, rfl⟩
  · exact ⟨_, _, rfl⟩

theorem ccDrooped_form (m : Measurement) (c : Cc) : ∃ l, ccDrooped m c = { c with inputLimit := l } := by
  unfold ccDrooped
  split
  · split
    · exact ⟨_, rfl⟩
    · split
      · exact ⟨_, rfl⟩
      · exact ⟨c.inputLimit, rfl⟩
  · exact ⟨c.inputLimit, rfl⟩

theorem ccTimed_form (c : Cc) : ∃ p f, ccTimed c = { c with prechargeTimer := p, fastTimer := f } := by
  unfold ccTimed
  split
  · exact ⟨c.prechargeTimer, c.fastTimer, rfl⟩
  · split
    · exact ⟨_, c.fastTimer, rfl⟩
    · exact ⟨c.prechargeTimer, _, rfl⟩
    · exact ⟨c.prechargeTimer, _, rfl⟩
    · exact ⟨c.prechargeTimer, c.fastTimer, rfl⟩

/-- What steps 3 to 6 and the overvoltage count may change. -/
theorem ccStaged_form (m : Measurement) (on : Bool) (c : Cc) :
    ∃ t z l b p f v, ccStaged m on c
      = { c with
          noThermistor := t, zone := z, inputLimit := l, budget := b, prechargeTimer := p, fastTimer := f
          overvoltageCount := v } := by
  unfold ccStaged
  obtain ⟨t, z, e⟩ := ccZoned_form m c
  rw [e]
  obtain ⟨l, e⟩ := ccDrooped_form m { c with noThermistor := t, zone := z }
  rw [e]
  generalize hb : ccBudgeted m on _ = d
  obtain ⟨p, f, e⟩ := ccTimed_form d
  rw [e, ← hb]
  exact ⟨t, z, l, _, p, f, _, rfl⟩

/-- `d` differs from `c` only in what a transition may change (R142). -/
def Transited (c d : Cc) : Prop :=
  ∃ ch ca p f v ta tc rc, d
    = { c with
        charge := ch, cause := ca, prechargeTimer := p, fastTimer := f, overvoltageCount := v, taper := ta
        terminationCount := tc, rechargeCount := rc }

theorem Transited.refl (c : Cc) : Transited c c :=
  ⟨c.charge, c.cause, c.prechargeTimer, c.fastTimer, c.overvoltageCount, c.taper, c.terminationCount, c.rechargeCount, rfl⟩

theorem Transited.enter (c : Cc) (st : ChargeState) : Transited c { c with charge := st } :=
  ⟨st, c.cause, c.prechargeTimer, c.fastTimer, c.overvoltageCount, c.taper, c.terminationCount, c.rechargeCount, rfl⟩

theorem Transited.fault (c : Cc) (ca : FaultCause) : Transited c { c with cause := ca, charge := .fault } :=
  ⟨.fault, ca, c.prechargeTimer, c.fastTimer, c.overvoltageCount, c.taper, c.terminationCount, c.rechargeCount, rfl⟩

/-- What the exit of a state may change (R143 to R146). -/
theorem ccLeft_transited (m : Measurement) (c : Cc) : Transited c (ccLeft m c) := by
  unfold ccLeft
  cases c.charge with
  | qualify =>
    dsimp only
    split
    · exact .enter c _
    · split <;> exact .enter c _
  | precharge =>
    dsimp only
    split
    · exact .enter c _
    · exact .refl c
  | fast =>
    dsimp only
    split
    · exact ⟨_, c.cause, c.prechargeTimer, c.fastTimer, c.overvoltageCount, _, _, _, rfl⟩
    · exact .refl c
  | taper =>
    dsimp only
    split
    · exact ⟨_, c.cause, _, _, c.overvoltageCount, _, _, _, rfl⟩
    · exact ⟨_, c.cause, c.prechargeTimer, c.fastTimer, c.overvoltageCount, _, _, c.rechargeCount, rfl⟩
  | done =>
    dsimp only
    split
    · split
      · exact ⟨_, c.cause, c.prechargeTimer, c.fastTimer, c.overvoltageCount, c.taper, c.terminationCount, _, rfl⟩
      · exact ⟨_, c.cause, c.prechargeTimer, c.fastTimer, c.overvoltageCount, c.taper, c.terminationCount, _, rfl⟩
    · exact ⟨_, c.cause, c.prechargeTimer, c.fastTimer, c.overvoltageCount, c.taper, c.terminationCount, _, rfl⟩
  | suspended =>
    dsimp only
    split
    · exact .refl c
    · exact .enter c _
  | noInput => exact .refl c
  | inhibited => exact .refl c
  | fault => exact .refl c

/-- What the transition may change (R142). -/
theorem ccMoved_transited (clear : Bool) (m : Measurement) (c : Cc) : Transited c (ccMoved clear m c) := by
  have hl := ccLeft_transited m c
  unfold ccMoved
  generalize ccLeft m c = d at hl ⊢
  split
  · exact .enter c _
  split
  · exact .enter c _
  split
  · split
    · exact ⟨_, _, _, _, _, c.taper, c.terminationCount, c.rechargeCount, rfl⟩
    · exact .refl c
  split
  · exact .enter c _
  split
  · exact .enter c _
  split
  · exact .fault c _
  split
  · exact .fault c _
  split
  · exact .fault c _
  split
  · exact .enter c _
  · exact hl

/-- What an arrival keeps of the registers as its qualification left them (R134). -/
theorem ccAfter_kept (m : Measurement) (on : Bool) (c : Cc) :
    (ccAfter m on c).present = (ccJudged m (ccBegun m c).2).present
      ∧ (ccAfter m on c).qualifyCount = (ccJudged m (ccBegun m c).2).qualifyCount
      ∧ (ccAfter m on c).overvoltage = (ccJudged m (ccBegun m c).2).overvoltage
      ∧ (ccAfter m on c).latest = (ccJudged m (ccBegun m c).2).latest
      ∧ (ccAfter m on c).params = (ccJudged m (ccBegun m c).2).params
      ∧ (ccAfter m on c).pending = (ccJudged m (ccBegun m c).2).pending := by
  unfold ccAfter
  dsimp only
  obtain ⟨t, z, l, b, p, f, v, e⟩ := ccStaged_form m on (ccJudged m (ccBegun m c).2)
  rw [e]
  obtain ⟨ch, ca, p', f', v', ta, tc, rc, e⟩ := ccMoved_transited (ccBegun m c).1 m
    { ccJudged m (ccBegun m c).2 with
      noThermistor := t, zone := z, inputLimit := l, budget := b, prechargeTimer := p, fastTimer := f
      overvoltageCount := v }
  rw [e]
  exact ⟨rfl, rfl, rfl, rfl, rfl, rfl⟩

/-- Beginning with no values pending (R151). -/
theorem ccBegun_none {c : Cc} (m : Measurement) (h : c.pending = none) :
    ccBegun m c = (false, { c with latest := some m, overvoltage := c.overvoltage || overInput m }) := by
  unfold ccBegun
  rw [h]

/-- A run of disagreeing readings shorter than four leaves the qualification (R135). -/
theorem ccJudged_stays (m : Measurement) {c : Cc} (h : vinInRange m.vin = c.present ∨ c.qualifyCount < 3) :
    ∃ n, ccJudged m c = { c with qualifyCount := n } := by
  unfold ccJudged
  split
  · exact ⟨_, rfl⟩
  · rename_i k
    rw [if_pos (by have := h.resolve_left k; omega)]
    exact ⟨_, rfl⟩

theorem ccInstall_cc (m : Measurement) (s : State) :
    (ccInstall { s with cc.latest := some m }).1 = (ccBegun m s.cc).1
      ∧ (ccOvervoltageFlag m (ccInstall { s with cc.latest := some m }).2).cc = (ccBegun m s.cc).2 := by
  unfold ccBegun ccInstall
  dsimp only
  cases s.cc.pending with
  | none =>
    refine ⟨rfl, ?_⟩
    unfold ccOvervoltageFlag
    dsimp only
    cases overInput m <;> cases h : s.cc.overvoltage <;> simp
  | some p =>
    refine ⟨rfl, ?_⟩
    unfold ccOvervoltageFlag
    dsimp only
    cases overInput m <;> cases h : s.cc.overvoltage <;> simp

theorem ccQualify_cc (m : Measurement) (s : State) : (ccQualify m s).cc = ccJudged m s.cc := by
  unfold ccQualify ccJudged
  split
  · rfl
  · split
    · rfl
    · split
      · simp [ccLoss]
      · simp [ccQualified]

theorem ccZone_cc (m : Measurement) (s : State) : (ccZone m s).cc = ccZoned m s.cc := by
  unfold ccZone ccZoned
  split <;> rfl

theorem ccDroop_cc (m : Measurement) (s : State) : (ccDroop m s).cc = ccDrooped m s.cc := by
  unfold ccDroop ccDrooped
  split
  · split
    · rfl
    · split <;> rfl
  · rfl

theorem ccBudget_cc (m : Measurement) (s : State) : (ccBudget m s).cc = ccBudgeted m (railOn s.fe.rail) s.cc := rfl

theorem ccTimers_cc (s : State) : (ccTimers s).cc = ccTimed s.cc := by
  unfold ccTimers ccTimed
  split
  · rfl
  · split <;> simp_all only

theorem ccExit_cc (m : Measurement) (s : State) : (ccExit m s).cc = ccLeft m s.cc := by
  unfold ccExit ccLeft
  split <;> rename_i h <;> try simp only [h]
  · split
    · simp [ccEnter]
    · split <;> simp [ccEnter]
  · split <;> simp [ccEnter]
  · split <;> simp [ccEnter, ccEnterTaper]
  · unfold ccTaper
    dsimp only
    split <;> simp [ccEnter, ccEnterDone, h]
  · unfold ccDone
    split
    · split <;> simp [ccEnter, h]
    · simp [h]
  · split <;> simp [ccEnter]

theorem ccTransition_cc (clear : Bool) (m : Measurement) (s : State) :
    (ccTransition clear m s).cc = ccMoved clear m s.cc := by
  unfold ccTransition ccMoved
  split
  · simp [ccEnter]
  split
  · simp [ccBegin, ccEnter]
  split
  · split <;> simp [ccFaultClear, ccBegin, ccEnter]
  split
  · simp [ccEnter]
  split
  · simp [ccEnter]
  split
  · simp [ccFault, ccEnter]
  split
  · simp [ccFault, ccEnter]
  split
  · simp [ccFault, ccEnter]
  split
  · simp [ccEnter]
  · exact ccExit_cc m s

/-- The Charge Controller's arrival works on its own registers and on whether the flash rail is on (R134). -/
theorem ccArrival_cc (m : Measurement) (s : State) : ∃ on, (ccArrival m s).cc = ccAfter m on s.cc := by
  refine ⟨railOn (ccDroop m (ccZone m (ccQualify m (ccOvervoltageFlag m
    (ccInstall { s with cc.latest := some m }).2)))).fe.rail, ?_⟩
  unfold ccArrival ccAfter
  dsimp only
  unfold ccSetpoint
  dsimp only
  rw [ccTransition_cc, show ∀ s, (ccOvervoltageCount m s).cc = ccCounted m s.cc from fun _ => rfl, ccTimers_cc, ccBudget_cc,
    ccDroop_cc, ccZone_cc, ccQualify_cc, (ccInstall_cc m s).1, (ccInstall_cc m s).2]
  rfl

/-! ### One arrival, and all deliveries -/

theorem ccQualify_ticked (h : Ticked s₀ s) (m : Measurement) : Ticked s₀ (ccQualify m s) := by
  unfold ccQualify
  split
  · exact Ticked.update (ga := s.ga) h id
  · split
    · exact Ticked.update (ga := s.ga) h id
    · split
      · exact gaQualification_ticked (Ticked.raise (Ticked.update (ga := s.ga) h id) _) _
      · exact gaQualification_ticked (Ticked.raise (Ticked.update (ga := s.ga) h id) _) _

theorem ccOvervoltageFlag_ticked (h : Ticked s₀ s) (m : Measurement) : Ticked s₀ (ccOvervoltageFlag m s) := by
  unfold ccOvervoltageFlag
  split
  · exact Ticked.raise (Ticked.update (ga := s.ga) h id) _
  · exact h

theorem ccEnter_ticked (h : Ticked s₀ s) (st : ChargeState) : Ticked s₀ (ccEnter st s) :=
  Ticked.raise (Ticked.update (ga := s.ga) h id) _

theorem ccExit_ticked (h : Ticked s₀ s) (m : Measurement) : Ticked s₀ (ccExit m s) := by
  unfold ccExit
  split
  · split
    · exact ccEnter_ticked h _
    · split <;> exact ccEnter_ticked h _
  · split
    · exact ccEnter_ticked h _
    · exact h
  · split
    · exact ccEnter_ticked (Ticked.update (ga := s.ga) h id) _
    · exact h
  · unfold ccTaper
    dsimp only
    split
    · exact gaFull_ticked (ccEnter_ticked (Ticked.update (ga := s.ga) h id) _)
    · exact Ticked.update (ga := s.ga) h id
  · unfold ccDone
    split
    · split
      · exact ccEnter_ticked (Ticked.update (ga := s.ga) h id) _
      · exact Ticked.update (ga := s.ga) h id
    · exact Ticked.update (ga := s.ga) h id
  · split
    · exact h
    · exact ccEnter_ticked h _
  · exact h

theorem ccTransition_ticked (h : Ticked s₀ s) (clear : Bool) (m : Measurement) :
    Ticked s₀ (ccTransition clear m s) := by
  unfold ccTransition
  split
  · exact ccEnter_ticked h _
  split
  · exact ccEnter_ticked h _
  split
  · split
    · exact ccEnter_ticked (Ticked.update (ga := s.ga) h id) _
    · exact h
  split
  · exact ccEnter_ticked h _
  split
  · exact ccEnter_ticked h _
  split
  · exact Ticked.raise (ccEnter_ticked (Ticked.update (ga := s.ga) h id) _) _
  split
  · exact Ticked.raise (ccEnter_ticked (Ticked.update (ga := s.ga) h id) _) _
  split
  · exact Ticked.raise (ccEnter_ticked (Ticked.update (ga := s.ga) h id) _) _
  split
  · exact ccEnter_ticked h _
  · exact ccExit_ticked h m

/-- What the steps between the qualification and the transition change of the state: the controller's own registers. -/
theorem ccMiddle (m : Measurement) (s : State) :
    ∃ c, ccOvervoltageCount m (ccTimers (ccBudget m (ccDroop m (ccZone m s)))) = { s with cc := c } := by
  have hz : ∃ c, ccZone m s = { s with cc := c } := by
    unfold ccZone
    split <;> exact ⟨_, rfl⟩
  have hd : ∀ s : State, ∃ c, ccDroop m s = { s with cc := c } := by
    intro s
    unfold ccDroop
    split
    · split
      · exact ⟨_, rfl⟩
      · split
        · exact ⟨_, rfl⟩
        · exact ⟨s.cc, rfl⟩
    · exact ⟨s.cc, rfl⟩
  have ht : ∀ s : State, ∃ c, ccTimers s = { s with cc := c } := by
    intro s
    unfold ccTimers
    split
    · exact ⟨s.cc, rfl⟩
    · split
      · exact ⟨_, rfl⟩
      · exact ⟨_, rfl⟩
      · exact ⟨_, rfl⟩
      · exact ⟨s.cc, rfl⟩
  obtain ⟨c₁, e₁⟩ := hz
  obtain ⟨c₂, e₂⟩ := hd { s with cc := c₁ }
  obtain ⟨c₃, e₃⟩ := ht (ccBudget m { s with cc := c₂ })
  rw [e₁, e₂, e₃]
  exact ⟨_, rfl⟩

theorem ccInstall_ticked (s : State) : ∃ c, (ccInstall s).2 = { s with cc := c } := by
  unfold ccInstall
  split
  · exact ⟨s.cc, rfl⟩
  · exact ⟨_, rfl⟩

theorem ccArrival_ticked (h : Ticked s₀ s) (m : Measurement) : Ticked s₀ (ccArrival m s) := by
  unfold ccArrival
  dsimp only
  refine Ticked.update (ga := (ccTransition _ m _).ga) (ccTransition_ticked ?_ _ m) (by exact id)
  obtain ⟨c, e⟩ := ccInstall_ticked { s with cc.latest := some m }
  rw [e]
  obtain ⟨d, f⟩ := ccMiddle m (ccQualify m (ccOvervoltageFlag m { s with cc := c }))
  rw [f]
  exact Ticked.update (ga := (ccQualify m _).ga)
    (ccQualify_ticked (ccOvervoltageFlag_ticked (Ticked.update (ga := s.ga) h id) m) m) (by exact id)

/-- A refresh of the status page writes memory and counts its generation (R177). -/
theorem hpTick_form (s : State) : ∃ m g, hpTick s = { s with mem := m, hp.statusGeneration := g } := by
  unfold hpTick
  split
  · unfold hpRefresh
    split
    · exact ⟨s.mem, s.hp.statusGeneration, rfl⟩
    · dsimp only
      generalize statusWriter _ ++ statusFrames _ ++ statusPower _ ++ statusFlash _ = b
      generalize leBytes 4 (s.hp.statusGeneration + 1).toNat = a
      generalize leBytes 4 (s.hp.statusGeneration + 2).toNat = c
      exact ⟨_, _, rfl⟩
  · exact ⟨s.mem, s.hp.statusGeneration, rfl⟩

theorem hpTick_ticked (h : Ticked s₀ s) : Ticked s₀ (hpTick s) := by
  obtain ⟨m, g, e⟩ := hpTick_form s
  rw [e]
  exact ⟨h.part, h.rck, h.pending, h.mu, h.causes, h.held⟩

/-- What a delivery of a charge tick leaves (R3). -/
theorem tickDelivery_ticked (h : Ticked s₀ s) (m : Measurement) (d : TickDelivery) :
    Ticked s₀ (tickDelivery m d s) := by
  cases d <;> unfold tickDelivery <;> dsimp only
  · split
    · exact h.recording (puReleaseScan_recording (Recording.refl s))
    · exact h
  · exact ccArrival_ticked h m
  · exact gaArrival_ticked h m
  · exact h.recording (cwService_recording (Recording.refl s))
  · exact h.recording (cwCommit_recording (Recording.refl s))
  · exact h.recording (feTick_recording (Recording.refl s))
  · exact hpTick_ticked h

/-- Several deliveries. -/
theorem deliveries_ticked (h : Ticked s₀ s) (m : Measurement) (l : List TickDelivery) :
    Ticked s₀ (l.foldl (fun s d => tickDelivery m d s) s) := by
  induction l generalizing s with
  | nil => exact h
  | cons d l ih => exact ih (tickDelivery_ticked h m d)

/-- What a charge tick leaves, once the clock has reached it (R3). -/
theorem bodyChargeTick_ticked (m : Measurement) (o : List TickDelivery) (s : State) :
    Ticked (tickTime s) (bodyChargeTick m o s) := deliveries_ticked (Ticked.refl _) _ _

/-- Only the charger's delivery changes the Charge Controller (R133). -/
theorem tickDelivery_cc (m : Measurement) {d : TickDelivery} (hd : d ≠ .charger) (s : State) :
    (tickDelivery m d s).cc = s.cc := by
  cases d <;> unfold tickDelivery <;> dsimp only
  · split
    · exact (puReleaseScan_recording (Recording.refl s)).cc
    · rfl
  · exact absurd rfl hd
  · exact gaArrival_cc m s
  · exact (cwService_recording (Recording.refl s)).cc
  · exact (cwCommit_recording (Recording.refl s)).cc
  · exact (feTick_recording (Recording.refl s)).cc
  · obtain ⟨m, g, e⟩ := hpTick_form s
    rw [e]

theorem deliveries_cc (m : Measurement) {l : List TickDelivery} (hl : .charger ∉ l) (s : State) :
    (l.foldl (fun s d => tickDelivery m d s) s).cc = s.cc := by
  induction l generalizing s with
  | nil => rfl
  | cons d l ih =>
    simp only [List.mem_cons, not_or] at hl
    rw [List.foldl_cons, ih hl.2, tickDelivery_cc m (Ne.symm hl.1)]

/-- The Charge Controller after a charge tick, in whatever order the deliveries are taken (R133, R134, R139). -/
theorem bodyChargeTick_cc (m : Measurement) (o : List TickDelivery) (s : State) :
    ∃ on, (bodyChargeTick m o s).cc = ccAfter (delivered m) on s.cc := by
  obtain ⟨pre, post, e, hpre, hpost⟩ := tickOrder_split o .charger
  unfold bodyChargeTick
  rw [e, List.foldl_append, List.foldl_cons, deliveries_cc _ hpost]
  obtain ⟨on, ha⟩ := ccArrival_cc (delivered m) (pre.foldl (fun s d => tickDelivery (delivered m) d s) (tickTime s))
  refine ⟨on, ha.trans ?_⟩
  rw [deliveries_cc _ hpre]
  rfl

/-! ### What follows a command -/

/-- Where SYSEN stays asserted, what follows a command is the recording blocks' own work. -/
theorem finish_recording (hs : s.ga.sysen = true) (hg : s.ga.grace = none) : Recording s (finish s) := by
  unfold finish
  split
  · exact Recording.refl s
  · have hr : Recording s (smIntake (cwRun (smGoOn s))) :=
      smIntake_recording (cwRun_recording (smGoOn_recording (Recording.refl s)))
    dsimp only
    rw [if_pos (by rw [hr.released hg, hs])]
    exact hr

/-- Where no cutoff sequence runs the recording blocks leave the Gauge as it is. -/
theorem Recording.gauge {t : State} (h : Recording s t) (hg : s.ga.grace = none) : t.ga = s.ga := by
  have h1 := h.ga
  have h2 := h.released hg
  rw [← h1, ← h2]

/-- A released SYSEN takes the part to Off (R162). -/
theorem finish_released (hp : s.part.state ≠ .off) (hs : s.ga.sysen = false) : finish s = enterOff s := by
  unfold finish
  rw [if_neg hp]
  have hr : Recording s (smIntake (cwRun (smGoOn s))) :=
    smIntake_recording (cwRun_recording (smGoOn_recording (Recording.refl s)))
  dsimp only
  rw [if_neg (by rw [hr.held hs]; decide)]
  unfold enterOff
  rw [hr.pending]

/-! ### The Gauge at a tick -/

/-- Below the fourth low reading in a row the level is never Cutoff (R159). -/
theorem gaLevel_ne_cutoff {g : Ga} (hl : g.level ≠ .cutoff) (hc : g.cutoffCount ≠ 4) : gaLevel g ≠ .cutoff := by
  unfold gaLevel
  rw [if_neg hl, if_neg (fun h => hc h.2.2)]
  split
  · decide
  · split
    · decide
    · split <;> decide

/-- Finding a level that is not Cutoff only sets it (R159). -/
theorem gaFindLevel_ga (hg : s.ga.grace = none) (hc : gaLevel s.ga ≠ .cutoff) :
    (gaFindLevel s).ga = { s.ga with level := gaLevel s.ga } := by
  unfold gaFindLevel
  dsimp only
  split
  · rename_i h
    rw [h]
  · have hr : (State.raise { s with ga.level := gaLevel s.ga } .gaugeLevel).ga
        = { s.ga with level := gaLevel s.ga } := by rw [raise_ga]
    split
    · rename_i h
      exact ((cwSignal_recording (Recording.refl _) _).gauge (by rw [raise_ga]; exact hg)).trans hr
    · rename_i h
      exact absurd h hc
    · exact hr

/-- Installed values (R164). -/
def gaInstalled (g : Ga) : Ga :=
  match g.pending with
  | none => g
  | some p =>
    let k := { g with q := g.q * p.capacity / g.params.capacity, params := p, pending := none }
    { k with level := gaLevel k }

/-- The count after a reading (R153, step 2). -/
def gaCounted (m : Measurement) (g : Ga) : Ga :=
  if g.estimated then { g with q := chargeAfter (gaQcap g.params) g.q m.ibat }
  else { g with q := chargeEstimate (gaQcap g.params) m.vbat, estimated := true }

/-- The hold and the cutoff count after a reading (R153, step 3). -/
def gaHeld (m : Measurement) (g : Ga) : Ga :=
  let hold := min 4 (g.hold + 1)
  let low := decide (hold = 4) && !g.present && decide (m.vbat ≤ g.params.cutoff)
  { g with hold := hold, cutoffCount := if low then min 4 (g.cutoffCount + 1) else 0 }

/-- The Gauge's registers after an arrival at which no cutoff begins (R153). -/
def gaAfter (m : Measurement) (g : Ga) : Ga :=
  let k := gaHeld m (gaCounted m (gaInstalled g))
  { k with level := gaLevel k }

theorem gaInstall_ga (hg : s.ga.grace = none) (hl : s.ga.level ≠ .cutoff) (hc : s.ga.cutoffCount < 4) :
    (gaInstall s).ga = gaInstalled s.ga := by
  unfold gaInstall gaInstalled
  cases s.ga.pending with
  | none => rfl
  | some p =>
    dsimp only
    rw [gaFindLevel_ga]
    · exact hg
    · exact gaLevel_ne_cutoff hl (by dsimp only; omega)

theorem gaCount_ga (m : Measurement) (s : State) : (gaCount m s).ga = gaCounted m s.ga := by
  unfold gaCount gaCounted
  split <;> rfl

theorem gaInstalled_level {g : Ga} (hl : g.level ≠ .cutoff) (hc : g.cutoffCount < 4) :
    (gaInstalled g).level ≠ .cutoff := by
  unfold gaInstalled
  split
  · exact hl
  · exact gaLevel_ne_cutoff hl (by dsimp only; omega)

theorem gaInstalled_count (g : Ga) : (gaInstalled g).cutoffCount = g.cutoffCount := by
  unfold gaInstalled
  split <;> rfl

theorem gaInstalled_grace (g : Ga) : (gaInstalled g).grace = g.grace := by
  unfold gaInstalled
  split <;> rfl

theorem gaCounted_form (m : Measurement) (g : Ga) : ∃ q b, gaCounted m g = { g with q := q, estimated := b } := by
  unfold gaCounted
  split
  · exact ⟨_, g.estimated, rfl⟩
  · exact ⟨_, _, rfl⟩

/-- The Gauge after an arrival at which no cutoff begins (R153). -/
theorem gaArrival_ga (m : Measurement) (hg : s.ga.grace = none) (hl : s.ga.level ≠ .cutoff)
    (hc : s.ga.cutoffCount < 3) : (gaArrival m s).ga = gaAfter m s.ga := by
  have hi := gaInstall_ga hg hl (by omega)
  have hk : (gaAdvance m (gaCount m (gaInstall s))).ga = gaHeld m (gaCounted m (gaInstalled s.ga)) := by
    rw [← hi, ← gaCount_ga]
    rfl
  unfold gaArrival
  dsimp only
  rw [hg]
  simp only [Option.isSome_none, Bool.false_eq_true, if_false]
  obtain ⟨q, b, e⟩ := gaCounted_form m (gaInstalled s.ga)
  rw [gaFindLevel_ga]
  · rw [hk]
    rfl
  · rw [hk, e]
    exact (gaInstalled_grace _).trans hg
  · rw [hk, e]
    refine gaLevel_ne_cutoff (gaInstalled_level hl (by omega)) ?_
    have := gaInstalled_count s.ga
    unfold gaHeld
    dsimp only
    split <;> omega

/-- What the Charge Controller's hand-offs leave of the Gauge (R157, R158). -/
structure Fed (g k : Ga) : Prop where
  sysen : k.sysen = g.sysen
  grace : k.grace = g.grace
  estimated : k.estimated = g.estimated
  hold : k.hold = g.hold
  params : k.params = g.params
  pending : k.pending = g.pending
  level : k.level ≠ .cutoff
  count : k.cutoffCount ≤ g.cutoffCount

/-- A change of qualification (R157). -/
theorem gaQualification_fed {g : Ga} (h : Fed g s.ga) (hg : g.grace = none) (hc : g.cutoffCount < 4) (present : Bool) :
    Fed g (gaQualification present s).ga ∧ (gaQualification present s).ga.q = s.ga.q := by
  have hk := h.count
  unfold gaQualification
  rw [gaFindLevel_ga]
  · refine ⟨⟨h.sysen, h.grace, h.estimated, h.hold, h.params, h.pending, ?_, ?_⟩, rfl⟩
    · exact gaLevel_ne_cutoff h.level (by dsimp only; split <;> omega)
    · dsimp only
      split <;> omega
  · exact h.grace.trans hg
  · exact gaLevel_ne_cutoff h.level (by dsimp only; split <;> omega)

/-- An entry to Done (R158). -/
theorem gaFull_fed {g : Ga} (h : Fed g s.ga) (hg : g.grace = none) (hc : g.cutoffCount < 4) :
    Fed g (gaFull s).ga ∧ (gaFull s).ga.q = gaQcap g.params := by
  have hk := h.count
  unfold gaFull
  rw [gaFindLevel_ga]
  · refine ⟨⟨h.sysen, h.grace, h.estimated, h.hold, h.params, h.pending, ?_, h.count⟩, ?_⟩
    · exact gaLevel_ne_cutoff h.level (by dsimp only; omega)
    · dsimp only
      rw [h.params]
  · exact h.grace.trans hg
  · exact gaLevel_ne_cutoff h.level (by dsimp only; omega)

@[simp] theorem ccEnter_ga (st : ChargeState) (s : State) : (ccEnter st s).ga = s.ga := by simp [ccEnter]

@[simp] theorem ccBegin_ga (s : State) : (ccBegin s).ga = s.ga := by simp [ccBegin]

theorem ccExit_ga (m : Measurement) (s : State) :
    (s.cc.charge ≠ .taper → (ccExit m s).ga = s.ga)
      ∧ ((ccExit m s).ga = s.ga ∨ ∃ c, ∃ u : State, u.ga = s.ga ∧ u.cc = c ∧ (ccExit m s).ga = (gaFull u).ga) := by
  unfold ccExit
  split
  · refine ⟨fun _ => ?_, .inl ?_⟩ <;> · split <;> [skip; split] <;> simp
  · refine ⟨fun _ => ?_, .inl ?_⟩ <;> · split <;> simp
  · refine ⟨fun _ => ?_, .inl ?_⟩ <;> · split <;> simp [ccEnterTaper]
  · rename_i h
    refine ⟨fun k => absurd h k, ?_⟩
    unfold ccTaper
    dsimp only
    split
    · exact .inr ⟨_, ccEnter .done _, by rw [ccEnter_ga], rfl, rfl⟩
    · exact .inl rfl
  · refine ⟨fun _ => ?_, .inl ?_⟩ <;>
    · unfold ccDone
      split
      · split <;> simp
      · rfl
  · refine ⟨fun _ => ?_, .inl ?_⟩ <;> · split <;> simp
  · exact ⟨fun _ => rfl, .inl rfl⟩

theorem ccTransition_ga (clear : Bool) (m : Measurement) (s : State) :
    (s.cc.charge ≠ .taper → (ccTransition clear m s).ga = s.ga)
      ∧ ((ccTransition clear m s).ga = s.ga
        ∨ ∃ c, ∃ u : State, u.ga = s.ga ∧ u.cc = c ∧ (ccTransition clear m s).ga = (gaFull u).ga) := by
  unfold ccTransition
  split
  · simp
  split
  · simp
  split
  · refine ⟨fun _ => ?_, .inl ?_⟩ <;> · split <;> simp [ccFaultClear]
  split
  · simp
  split
  · simp
  split
  · simp [ccFault]
  split
  · simp [ccFault]
  split
  · simp [ccFault]
  split
  · simp
  · exact ccExit_ga m s

theorem ccBegun_charge (m : Measurement) (c : Cc) : (ccBegun m c).2.charge = c.charge := by
  unfold ccBegun
  split <;> rfl

theorem ccJudged_charge (m : Measurement) (c : Cc) : (ccJudged m c).charge = c.charge := by
  unfold ccJudged
  split
  · rfl
  · split
    · rfl
    · split <;> rfl

theorem ccStaged_charge (m : Measurement) (on : Bool) (c : Cc) : (ccStaged m on c).charge = c.charge := by
  obtain ⟨t, z, l, b, p, f, v, e⟩ := ccStaged_form m on c
  rw [e]

/-- The Charge Controller's arrival leaves the Gauge but for its hand-offs (R157, R158). -/
theorem ccArrival_fed (m : Measurement) (hg : s.ga.grace = none) (hl : s.ga.level ≠ .cutoff)
    (hc : s.ga.cutoffCount < 4) :
    Fed s.ga (ccArrival m s).ga ∧ (s.cc.charge ≠ .taper → (ccArrival m s).ga.q = s.ga.q)
      ∧ ((ccArrival m s).ga.q = s.ga.q ∨ (ccArrival m s).ga.q = gaQcap s.ga.params) := by
  have h0 : Fed s.ga s.ga := ⟨rfl, rfl, rfl, rfl, rfl, rfl, hl, le_rfl⟩
  obtain ⟨c₀, e₀⟩ := ccInstall_ticked { s with cc.latest := some m }
  have hb := ccInstall_cc m s
  unfold ccArrival
  dsimp only
  generalize hA : ccOvervoltageFlag m (ccInstall { s with cc.latest := some m }).2 = a at hb ⊢
  have hag : a.ga = s.ga := by
    rw [← hA, e₀]
    unfold ccOvervoltageFlag
    split
    · rw [raise_ga]
    · rfl
  have hac : a.cc.charge = s.cc.charge := by rw [hb.2, ccBegun_charge]
  have hq : Fed s.ga (ccQualify m a).ga ∧ (ccQualify m a).ga.q = s.ga.q := by
    unfold ccQualify
    split
    · exact ⟨hag ▸ h0, congrArg Ga.q hag⟩
    · split
      · exact ⟨hag ▸ h0, congrArg Ga.q hag⟩
      · split
        · unfold ccLoss
          generalize hu : State.raise _ .inputChange = u
          have hua : u.ga = s.ga := by rw [← hu, raise_ga]; exact hag
          have := gaQualification_fed (s := u) (hua ▸ h0) hg hc false
          exact ⟨this.1, this.2.trans (congrArg Ga.q hua)⟩
        · unfold ccQualified
          generalize hu : State.raise _ .inputChange = u
          have hua : u.ga = s.ga := by rw [← hu, raise_ga]; exact hag
          have := gaQualification_fed (s := u) (hua ▸ h0) hg hc true
          exact ⟨this.1, this.2.trans (congrArg Ga.q hua)⟩
  have hqc : (ccQualify m a).cc.charge = s.cc.charge := by rw [ccQualify_cc, ccJudged_charge, hac]
  generalize ccQualify m a = b at hq hqc ⊢
  have hm : (ccOvervoltageCount m (ccTimers (ccBudget m (ccDroop m (ccZone m b))))).cc.charge = s.cc.charge := by
    rw [show ∀ s, (ccOvervoltageCount m s).cc = ccCounted m s.cc from fun _ => rfl, ccTimers_cc, ccBudget_cc, ccDroop_cc,
      ccZone_cc]
    exact (ccStaged_charge m _ _).trans hqc
  obtain ⟨c, e⟩ := ccMiddle m b
  have hmg : (ccOvervoltageCount m (ccTimers (ccBudget m (ccDroop m (ccZone m b))))).ga = b.ga := by rw [e]
  generalize ccOvervoltageCount m (ccTimers (ccBudget m (ccDroop m (ccZone m b)))) = d at hm hmg ⊢
  obtain ⟨t1, t2⟩ := ccTransition_ga (ccInstall { s with cc.latest := some m }).1 m d
  rw [hm] at t1
  have hf : Fed s.ga d.ga := hmg ▸ hq.1
  have hfq : d.ga.q = s.ga.q := by rw [hmg, hq.2]
  have key : Fed s.ga (ccTransition (ccInstall { s with cc.latest := some m }).1 m d).ga
      ∧ (s.cc.charge ≠ .taper → (ccTransition (ccInstall { s with cc.latest := some m }).1 m d).ga.q = s.ga.q)
      ∧ ((ccTransition (ccInstall { s with cc.latest := some m }).1 m d).ga.q = s.ga.q
        ∨ (ccTransition (ccInstall { s with cc.latest := some m }).1 m d).ga.q = gaQcap s.ga.params) := by
    refine ⟨?_, fun hn => by rw [t1 hn, hfq], ?_⟩
    · rcases t2 with t2 | ⟨_, u, hu, _, t2⟩
      · rw [t2]; exact hf
      · rw [t2]; exact (gaFull_fed (hu ▸ hf) hg hc).1
    · rcases t2 with t2 | ⟨_, u, hu, _, t2⟩
      · rw [t2]; exact .inl hfq
      · rw [t2]; exact .inr (gaFull_fed (hu ▸ hf) hg hc).2
  exact key

theorem Fed.refl {g : Ga} (hl : g.level ≠ .cutoff) : Fed g g := ⟨rfl, rfl, rfl, rfl, rfl, rfl, hl, le_rfl⟩

theorem Fed.trans {a b c : Ga} (h : Fed a b) (k : Fed b c) : Fed a c where
  sysen := k.sysen.trans h.sysen
  grace := k.grace.trans h.grace
  estimated := k.estimated.trans h.estimated
  hold := k.hold.trans h.hold
  params := k.params.trans h.params
  pending := k.pending.trans h.pending
  level := k.level
  count := k.count.trans h.count

/-- A delivery other than the charger's and the Gauge's leaves the Gauge, where no cutoff sequence runs. -/
theorem tickDelivery_ga (m : Measurement) {d : TickDelivery} (hc : d ≠ .charger) (hg : d ≠ .gauge)
    (h : s.ga.grace = none) : (tickDelivery m d s).ga = s.ga := by
  cases d <;> unfold tickDelivery <;> dsimp only
  · split
    · exact (puReleaseScan_recording (Recording.refl s)).gauge h
    · rfl
  · exact absurd rfl hc
  · exact absurd rfl hg
  · exact (cwService_recording (Recording.refl s)).gauge h
  · exact (cwCommit_recording (Recording.refl s)).gauge h
  · exact (feTick_recording (Recording.refl s)).gauge h
  · obtain ⟨m, g, e⟩ := hpTick_form s
    rw [e]

/-- The deliveries other than the Gauge's leave it but for the charger's hand-offs (R157, R158). -/
theorem deliveries_fed (m : Measurement) {l : List TickDelivery} (hl : .gauge ∉ l) (hn : l.Nodup)
    (hg : s.ga.grace = none) (hk : s.ga.level ≠ .cutoff) (hc : s.ga.cutoffCount < 4) :
    Fed s.ga (l.foldl (fun s d => tickDelivery m d s) s).ga
      ∧ (.charger ∉ l ∨ s.cc.charge ≠ .taper → (l.foldl (fun s d => tickDelivery m d s) s).ga.q = s.ga.q) := by
  induction l generalizing s with
  | nil => exact ⟨Fed.refl hk, fun _ => rfl⟩
  | cons d l ih =>
    simp only [List.mem_cons, not_or] at hl
    have hd : Fed s.ga (tickDelivery m d s).ga
        ∧ (d ≠ .charger ∨ s.cc.charge ≠ .taper → (tickDelivery m d s).ga.q = s.ga.q) := by
      by_cases e : d = .charger
      · subst e
        have := ccArrival_fed m hg hk hc
        exact ⟨this.1, fun h => this.2.1 (h.resolve_left fun k => k rfl)⟩
      · rw [tickDelivery_ga m e (Ne.symm hl.1) hg]
        exact ⟨Fed.refl hk, fun _ => rfl⟩
    have ht := ih hl.2 (List.nodup_cons.1 hn).2 (hd.1.grace.trans hg) hd.1.level (lt_of_le_of_lt hd.1.count hc)
    rw [List.foldl_cons]
    refine ⟨hd.1.trans ht.1, fun h => ?_⟩
    by_cases e : d = .charger
    · subst e
      have hr : s.cc.charge ≠ .taper := h.resolve_left fun k => k (List.mem_cons_self ..)
      rw [ht.2 (.inl (List.nodup_cons.1 hn).1), hd.2 (.inr hr)]
    · rw [ht.2 ?_, hd.2 (.inl e)]
      rcases h with h | h
      · exact .inl fun k => h (List.mem_cons_of_mem _ k)
      · exact .inr (by rw [tickDelivery_cc m e]; exact h)

/-- The Gauge after a charge tick at which no cutoff begins, in whatever order the deliveries are taken (R153): the
reading is counted once, SYSEN stays asserted. -/
theorem bodyChargeTick_ga (m : Measurement) (o : List TickDelivery) (h : Lasting s) :
    ∃ b : Ga, Fed s.ga b ∧ (s.cc.charge ≠ .taper → b.q = s.ga.q)
      ∧ Fed (gaAfter (delivered m) b) (bodyChargeTick m o s).ga
      ∧ (s.cc.charge ≠ .taper → (bodyChargeTick m o s).ga.q = (gaAfter (delivered m) b).q) := by
  obtain ⟨pre, post, e, hpre, hpost⟩ := tickOrder_split o .gauge
  have hn : (tickOrder o).Nodup := (tickOrder_perm o).nodup_iff.2 (by decide)
  rw [e] at hn
  have hn1 : pre.Nodup := (List.nodup_append.1 hn).1
  have hn2 : post.Nodup := (List.nodup_cons.1 (List.nodup_append.1 hn).2.1).2
  have hsep : .charger ∈ pre → .charger ∉ post := fun a b =>
    (List.nodup_append.1 hn).2.2 _ a _ (List.mem_cons_of_mem _ b) rfl
  unfold bodyChargeTick
  rw [e, List.foldl_append, List.foldl_cons]
  have hp := deliveries_fed (s := tickTime s) (delivered m) hpre hn1 h.noGrace h.notCutoff
    (by have := h.notDue; show s.ga.cutoffCount < 4; omega)
  have hcp : .charger ∉ pre →
      (pre.foldl (fun s d => tickDelivery (delivered m) d s) (tickTime s)).cc = s.cc := fun k =>
    (deliveries_cc _ k _).trans rfl
  generalize pre.foldl (fun s d => tickDelivery (delivered m) d s) (tickTime s) = a at hp hcp ⊢
  have hag : a.ga.grace = none := hp.1.grace.trans h.noGrace
  have hac : a.ga.cutoffCount < 3 := lt_of_le_of_lt hp.1.count h.notDue
  have hb := gaArrival_ga (delivered m) hag hp.1.level hac
  have hstay : (gaAfter (delivered m) a.ga).grace = none ∧ (gaAfter (delivered m) a.ga).level ≠ .cutoff
      ∧ (gaAfter (delivered m) a.ga).cutoffCount < 4 := by
    obtain ⟨q, b, e⟩ := gaCounted_form (delivered m) (gaInstalled a.ga)
    have hi := gaInstalled_count a.ga
    have hc4 : (gaHeld (delivered m) (gaCounted (delivered m) (gaInstalled a.ga))).cutoffCount < 4 := by
      rw [e]
      unfold gaHeld
      dsimp only
      split <;> omega
    refine ⟨?_, ?_, hc4⟩
    · unfold gaAfter
      dsimp only
      rw [e]
      exact (gaInstalled_grace _).trans hag
    · unfold gaAfter
      refine gaLevel_ne_cutoff ?_ (by omega)
      rw [e]
      exact gaInstalled_level hp.1.level (by omega)
  rw [← hb] at hstay
  have hq := deliveries_fed (s := gaArrival (delivered m) a) (delivered m) hpost hn2 hstay.1 hstay.2.1 hstay.2.2
  refine ⟨a.ga, hp.1, fun k => hp.2 (.inr k), ?_, fun k => ?_⟩
  · rw [← hb]
    exact hq.1
  · rw [← hb]
    refine hq.2 ?_
    by_cases hc : TickDelivery.charger ∈ post
    · refine .inr ?_
      rw [gaArrival_cc, hcp fun c => hsep c hc]
      exact k
    · exact .inl hc

/-- Where the part lasts, a charge tick ends with the recording blocks' own work: the part state, the clock, the
controller and the Gauge stay as its deliveries left them. -/
theorem chargeTick_finish (m : Measurement) (o : List TickDelivery) (h : Lasting s) :
    Recording (bodyChargeTick m o s) (finish (bodyChargeTick m o s))
      ∧ (finish (bodyChargeTick m o s)).ga = (bodyChargeTick m o s).ga := by
  obtain ⟨b, f, -, k, -⟩ := bodyChargeTick_ga m o h
  have e : (gaAfter (delivered m) b).sysen = b.sysen ∧ (gaAfter (delivered m) b).grace = b.grace := by
    obtain ⟨q, c, e⟩ := gaCounted_form (delivered m) (gaInstalled b)
    unfold gaAfter
    dsimp only
    rw [e]
    refine ⟨?_, gaInstalled_grace _⟩
    show (gaInstalled b).sysen = b.sysen
    unfold gaInstalled
    split <;> rfl
  have hg : (bodyChargeTick m o s).ga.grace = none := by rw [k.grace, e.2, f.grace, h.noGrace]
  have hs : (bodyChargeTick m o s).ga.sysen = true := by rw [k.sysen, e.1, f.sysen, h.asserted]
  have hr := finish_recording hs hg
  exact ⟨hr, hr.gauge hg⟩

/-- The Charge Controller after a charge tick of a part that lasts (R134). -/
theorem chargeTick_cc (m : Measurement) (o : List TickDelivery) (h : Lasting s) :
    ∃ on, (bodyChargeTick m o s).cc = ccAfter (delivered m) on s.cc
      ∧ (finish (bodyChargeTick m o s)).cc = ccAfter (delivered m) on s.cc := by
  obtain ⟨on, e⟩ := bodyChargeTick_cc m o s
  exact ⟨on, e, (chargeTick_finish m o h).1.cc.trans e⟩

/-- An event that names what a charge tick brings about, where it does (log 5). -/
theorem derived_came {body : State → State} {came : State → State → Bool} (hp : s.part.state ≠ .off)
    (h : came s (body s) = true) : derived body came s = finish (body s) := by
  unfold derived
  rw [if_neg hp, if_pos h]

/-- Elsewhere it changes nothing (log 5). -/
theorem derived_not {body : State → State} {came : State → State → Bool} (h : came s (body s) = false) :
    derived body came s = s := by
  unfold derived
  split
  · rfl
  · rw [h]
    rfl

/-- A charge tick ends with what follows every command. -/
theorem exec_chargeTick (m : Measurement) (o : List TickDelivery) (hp : s.part.state ≠ .off) :
    exec (.chargeTick m o) s = .next (finish (bodyChargeTick m o s)) :=
  congrArg Host.Outcome.next (if_neg hp)

end Sys2Proof.Machine
end

