-- ==== Sys2Proof/Tests/Slice0.lean ====
section
/-! SUPPORT. Tests: ill-formed commands, the effects of commands with the values of the spec's examples, and for every
statement with hypotheses a state and operands that meet them together, clause by clause. -/

section

open Sys2Proof Sys2Proof.Machine

-- The kernel's evaluations in these tests wait for one another: elaborated one by one, they hold no thread while they wait.
set_option Elab.async false

/-! ### States -/

/-- A part in this state, memory-ready, with everything else at its reset values. -/
def at_ (p : PartState) : State := { State.reset with part := { Part.reset with state := p, memoryReady := true } }

/-- A calm state, checked field by field. -/
theorem calm_of {s : State}
    (h : (decide (s.part.state ≠ .off) && s.ga.sysen && decide (s.cw.queue = []) && decide (s.cw.job = .idle)
      && decide (s.cw.reappend = []) && decide (s.cw.resume = none) && decide (s.cw.stopDue = none)
      && decide (s.cw.assembly.length < 8192) && decide (s.cw.writer ≠ .closing) && decide (s.mu.marks = [])
      && decide (s.sm.mount = none) && decide (s.sm.format = none)) = true) : Calm s := by
  simp only [Bool.and_eq_true, decide_eq_true_eq] at h
  obtain ⟨⟨⟨⟨⟨⟨⟨⟨⟨⟨⟨a, b⟩, c⟩, d⟩, e⟩, f⟩, g⟩, i⟩, j⟩, k⟩, l⟩, m⟩ := h
  exact ⟨⟨a, b, c, d, e, f, g, i, j, k⟩, l, m⟩

/-- A still state, checked field by field. -/
theorem still_of {s : State}
    (h : (decide (s.part.state ≠ .off) && s.ga.sysen && decide (s.cw.queue = []) && decide (s.cw.job = .idle)
      && decide (s.cw.reappend = []) && decide (s.cw.resume = none) && decide (s.cw.stopDue = none)
      && decide (s.cw.assembly.length < 8192) && decide (s.cw.writer ≠ .closing) && decide (s.mu.marks = [])) = true) :
    Still s := by
  simp only [Bool.and_eq_true, decide_eq_true_eq] at h
  obtain ⟨⟨⟨⟨⟨⟨⟨⟨⟨a, b⟩, c⟩, d⟩, e⟩, f⟩, g⟩, i⟩, j⟩, k⟩ := h
  exact ⟨a, b, c, d, e, f, g, i, j, k⟩

/-- A resting state, checked field by field. -/
theorem resting_of {s : State}
    (h : (decide (s.part.state ≠ .off) && s.ga.sysen && ((s.cw.queue.head?.bind (·.result)).isNone)
      && decide (s.cw.job = .idle) && decide (s.cw.reappend = []) && decide (s.cw.resume = none)
      && decide (s.cw.stopDue = none) && (s.cw.programming || decide (s.cw.assembly.length < 8192))
      && (s.cw.programming || decide (s.cw.writer ≠ .closing)) && decide (s.mu.marks = [])
      && decide (s.sm.mount = none) && decide (s.sm.format = none)) = true) : Resting s := by
  simp only [Bool.and_eq_true, Bool.or_eq_true, decide_eq_true_eq] at h
  obtain ⟨⟨⟨⟨⟨⟨⟨⟨⟨⟨⟨a, b⟩, c⟩, d⟩, e⟩, f⟩, g⟩, i⟩, j⟩, k⟩, l⟩, m⟩ := h
  refine ⟨a, b, fun q hq => ?_, d, e, f, g, i.symm, j.symm, k, l, m⟩
  rw [hq] at c
  simpa using c

/-- A state in which no cutoff is due, checked field by field. -/
theorem lasting_of {s : State}
    (h : (decide (s.part.state ≠ .off) && s.ga.sysen && decide (s.ga.grace = none) && decide (s.ga.level ≠ .cutoff)
      && decide (s.ga.cutoffCount < 3)) = true) : Lasting s := by
  simp only [Bool.and_eq_true, decide_eq_true_eq] at h
  obtain ⟨⟨⟨⟨a, b⟩, c⟩, d⟩, e⟩ := h
  exact ⟨a, b, c, d, e⟩

/-- No entry has a tenant, checked entry by entry. -/
theorem untracked_of {s : State} (h : (s.pu.shadows.all fun h => decide (h.state = .free) && !h.held) = true) :
    Untracked s := by
  intro e he
  have := List.all_eq_true.1 h e he
  simpa using this

/-- No frame owes a track entry, checked entry by entry. -/
theorem unowed_of {s : State} (h : (s.pu.shadows.all fun h => decide (h.obligation ≠ .needed)) = true) : noneOwed s := by
  intro e he
  simpa using List.all_eq_true.1 h e he

/-- The laws of the frame record table, checked entry by entry. -/
theorem framesPlaced_of {s : State}
    (h : ((List.range s.pu.shadows.length).all fun i =>
      let h := s.pu.shadow i
      decide (h.state = .free) || (decide (h.frame % s.pu.shadows.length = i) && decide (h.frame < nextNumber s.rck)
        && decide (nextNumber s.rck ≤ h.frame + s.pu.shadows.length))) = true) : FramesPlaced s := by
  intro i e he hs
  obtain ⟨hi, rfl⟩ := List.getElem?_eq_some_iff.1 he
  have := List.all_eq_true.1 h i (List.mem_range.2 hi)
  simp only [Pu.shadow, List.getD_eq_getElem?_getD, List.getElem?_eq_getElem hi, Option.getD_some] at this
  simpa [hs, and_assoc] using this

/-- Only the entry `j` is Open, checked entry by entry. -/
theorem onlyOpen_of {l : List Segment} {j : Nat}
    (h : ((List.range l.length).all fun k => !decide ((l.getD k (blankSegment .free [])).state = .opened) || decide (k = j))
      = true) : ∀ k g, l[k]? = some g → g.state = .opened → k = j := by
  intro k g hk hs
  obtain ⟨hi, rfl⟩ := List.getElem?_eq_some_iff.1 hk
  have := List.all_eq_true.1 h k (List.mem_range.2 hi)
  simpa [List.getD_eq_getElem?_getD, List.getElem?_eq_getElem hi, hs] using this

/-- A flash with one segment of two blocks and the rest in the spare pool. -/
theorem placed_all : PlacedOnce [] (List.range' 18 16366) [[16, 17]] := by
  intro b h1 h2
  refine List.count_eq_one_of_mem ?_ ?_
  · simp [List.nodup_append, List.nodup_range', List.mem_range'_1]
    omega
  · simp only [List.mem_append, List.mem_range'_1, List.nil_append, List.flatten_cons, List.flatten_nil, List.append_nil,
      List.mem_cons, List.not_mem_nil, or_false]
    omega

/-- No byte is itself and one. -/
theorem byte_succ_ne (x : Byte) : x + 1 ≠ x := by
  intro h
  bv_omega

/-- In Running, with a sample burst for the tick 1,000 in flight, the link in Tracking, the detector Armed. -/
def tracking : State :=
  { at_ .running with
    mu.link := .tracking, mu.phase := .sampling, mu.txn := some (.burst 1000), mu.lastTime := some 0
    mu.detector := .armed, mu.params.biasEnable := false }

/-- A burst of these gyro bytes and the counter 7, at rest. -/
def burstOf (g : Byte) (a : Byte) : Burst := ⟨#v[g, 0, 0, 0, 0, 0, 0, a, 0, 0, 0, 0, 7]⟩

/-- An order of the end of an operation. -/
def plain : EndOrder := ⟨false, false⟩

/-- An operation in flight, its Reset behind it. -/
def flying (r : Requester) (op : FlashOp) : Option InFlight := some ⟨some ⟨r, op, 0⟩, false, 900, []⟩

/-- In Running with the flash at work on an operation. -/
def working (r : Requester) (op : FlashOp) : State :=
  { at_ .running with fe.rail := .busy, fe.identity := .isMatch, fe.restored := true, fe.inFlight := flying r op }

/-- A segment of two blocks in a state. -/
def segOf (st : SegState) (b : Nat) : Segment := { blankSegment st [b, b + 1] with sequence := 1, clip := 1 }

/-- The bytes of a Posted slot with sequence 0: kind, frame count, segment, length, buffer, first frame, byte offset. -/
def posted (kind frames segment length buffer first offset : Nat) : List Byte :=
  [1, 0, 0, 0, 0, 0, 0, 0] ++ leBytes 1 kind ++ leBytes 1 frames ++ leBytes 2 segment ++ leBytes 4 length
    ++ leBytes 4 buffer ++ leBytes 4 first ++ leBytes 4 offset

/-- In Running with a request table of 8 slots at 256, the slot 0 Posted, five segments of a mounted table, a snapshot being
written, and the writer in this state. -/
def served (w : WriterState) (slot : List Byte) : State :=
  State.store
    { at_ .running with
      cw := { Cw.reset with writer := w, table := some 256, slotCount := 8 }
      fe := { Fe.reset with identity := .isMatch }
      sm := { Sm.reset with
        table := .mounted, segments := [segOf .opened 16, segOf .closed 18, segOf .free 20, segOf .free 22, segOf .free 24]
        bps := 2, sequence := 2, clip := 2, snapshot := some ⟨[[]], 0, false⟩ } }
    256 slot

/-- The same with no segment Open. -/
def stoppedAt (slot : List Byte) : State :=
  { served .stopped slot with
    sm.segments := [segOf .closed 16, { segOf .closed 18 with bytesWritten := 8192 }, segOf .free 20, segOf .free 22,
      segOf .free 24] }

/-- A reading of 5,000 mV, 3,800 mV, 100 mA, 25 °C. -/
def reading : Measurement := ⟨5000, 3800, 100, 50⟩

/-- In Idle with the input believed. -/
def fed : State := { at_ .idle with cc.present := true, ga.present := true }

/-- Every entry but the one put at 3 is Free. -/
theorem others_free {p : Pu} {h : Shadow} (e : p.shadows = Pu.reset.shadows.set 3 h) (j : Nat) (hj : j ≠ 3) :
    (p.shadow j).state = .free ∧ (p.shadow j).held = false := by
  simp only [Pu.shadow, e, Pu.reset, List.getD_eq_getElem?_getD, List.getElem?_set, hj.symm, if_false,
    List.getElem?_replicate]
  split <;> exact ⟨rfl, rfl⟩

/-- A frame captured at 600, with this reference time. -/
def captured (reference : Int) : Shadow :=
  { Shadow.empty with state := .captured, frame := 3, capture := 600, reference := reference }

/-- A state with that frame the only one. -/
def holding (reference : Int) (s : State) : State :=
  { s with pu.shadows := Pu.reset.shadows.set 3 (captured reference) }

/-- The request of a Media taken from slot 0 with sequence 0: 8,128 bytes and 1 frame, which fill a page. -/
def mediaTaken : QueueEntry := ⟨0, ⟨0, 1, 1, 0, 8128, 4096, 9, 0⟩, none, 0, 0, some 8192, 0⟩

/-- In Running with the writer in this state, a full page of its open segment at its program, and its Media waiting. -/
def filled (w : WriterState) : State :=
  { served w [2, 0, 0, 0] with
    fe := { Fe.reset with
      rail := .busy, identity := .isMatch, restored := true, inFlight := flying .writer (.programPage 16 0 [] []) }
    cw := { Cw.reset with
      writer := w, table := some 256, slotCount := 8, expected := 1, programming := true, streamPos := 8192
      assembly := List.replicate 8192 0, queue := [mediaTaken], pageMark := some ⟨false, 0, 1, 0, some 0, some 9, 0, 8192⟩ } }

/-- A Fetch in hand, one page of it read by the device. -/
def fetching : State :=
  { working .fetcher (.readPage 18 0) with
    cw := { Cw.reset with
      writer := .stopped, table := some 256, slotCount := 8, expected := 1, job := .fetch 0 0 none, inHand := some 0
      queue := [takenEntry 0 ⟨0, 7, 0, 1, 8, 4096, 0, 0⟩] } }

/-- The request of a Format in hand. -/
def formatTaken : QueueEntry := takenEntry 0 ⟨0, 8, 0, 0, 0, 0, 0, 0⟩

/-- The defaults, as a profile read of absent records gives them. -/
def reading0 : Profiles := readProfiles State.reset ⟨0, 0, 0⟩

/-- In the survey of a Format, at the marker of block `b`, the bad block list and the table-area map as they are. -/
def surveying (b : Nat) : State :=
  { working .mountReader (.readMarker b) with
    sm := { Sm.reset with table := .formatting, format := some (.survey b) }
    cw := { Cw.reset with
      writer := .formatting, job := .formatting, table := some 256, slotCount := 8, expected := 1, queue := [formatTaken]
      inHand := some 0 } }

/-- A segment being erased, its second block next, and the snapshot that is being written waiting for its page. -/
def erasing (k : Nat) : State :=
  { working .eraser (.eraseBlock (16 + k)) with
    sm := { (served .stopped []).sm with segments := [segOf .erasing 16], eraser := some ⟨0, k⟩ }
    fe.waiting := [⟨.tableWriter, .programPage 0 0 [] [], 7⟩] }

/-- The request of a Media of 64 bytes and 2 frames, its pair in the page at its program. -/
def mediaShort : QueueEntry := ⟨0, ⟨0, 1, 2, 0, 64, 4096, 9, 0⟩, none, 0, 0, some 144, 0⟩

/-- The page of the open segment at its program, the Media waiting, a snapshot's page waiting for the flash, and two spare
blocks. -/
def failing : State :=
  { filled .recording with
    fe.waiting := [⟨.tableWriter, .programPage 0 0 [] [], 7⟩], fe.pool := [30, 31], cw.queue := [mediaShort] }

/-- A page of a clean codeword, of which the first bytes alone matter here. -/
def pageOf : PageRead := ⟨[⟨[1, 2, 3, 4, 5, 6, 7, 8], [0xFF], .corrected 0 [1, 2, 3, 4, 5, 6, 7, 8]⟩]⟩

/-- No codeword of it is bad. -/
theorem clean_none {r : Request} {p : Nat} : LowestBad r p (pageResult pageOf).bad none := by
  intro n h
  obtain ⟨_, _, c, hc, _⟩ := h
  have : (pageResult pageOf).bad = [] := by decide +kernel
  rw [this] at hc
  cases hc

/-! ### Ill-formed commands are told from well-formed ones -/

/-- Codeword `i` of a page of zeros, with its sizes. -/
def codeword (i : Nat) (o : CodewordOutcome) : CodewordRead :=
  ⟨List.replicate (codewordLength i) 0, List.replicate 14 0, o⟩

/-- A page whose codeword 3 is this one. -/
def pageWith (c : CodewordRead) : PageRead :=
  ⟨((List.range 8).map fun i => codeword i .uncorrectable).set 3 c⟩

/-- The command that brings a page. -/
def brings (p : PageRead) : Instr := .readPageDone 5 p ⟨false, false⟩

theorem smoke_page_fits :
    (brings (pageWith (codeword 3 (.corrected 8 (List.replicate 1024 1))))).wellFormed = true := by decide +kernel

theorem smoke_codewords : (brings ⟨[codeword 0 .uncorrectable]⟩).wellFormed = false := by decide +kernel

theorem smoke_codeword_bytes : (brings (pageWith (codeword 7 .uncorrectable))).wellFormed = false := by decide +kernel

theorem smoke_parity :
    (brings (pageWith ⟨List.replicate 1024 0, List.replicate 13 0, .uncorrectable⟩)).wellFormed = false := by
  decide +kernel

theorem smoke_errors :
    (brings (pageWith (codeword 3 (.corrected 9 (List.replicate 1024 1))))).wellFormed = false := by decide +kernel

theorem smoke_corrected_bytes :
    (brings (pageWith (codeword 3 (.corrected 8 (List.replicate 1023 1))))).wellFormed = false := by decide +kernel

theorem smoke_tick_order : (Instr.chargeTick reading [.flash, .gauge, .flash]).wellFormed = false := by decide

theorem smoke_frame_order : (Instr.frameStart [.path, .path]).wellFormed = false := by decide

theorem smoke_slot : (Instr.start 5 64).wellFormed = false ∧ (Instr.start 5 63).wellFormed = true := by decide

theorem smoke_half : (Instr.registerWrite 5 8388608 0).wellFormed = false
    ∧ (Instr.registerWrite 5 8388607 0).wellFormed = true := by decide

theorem smoke_word : (Instr.halfReadLow 5 false 4194304).wellFormed = false
    ∧ (Instr.halfReadLow 5 false 4194303).wellFormed = true := by decide

/-! ### Effects, with the values of the spec's examples -/

/-- The state after a command that completes. -/
def did (c : Instr) (s : State) : State := match exec c s with | .next t => t | _ => s

/-- The reset state runs its first command. -/
theorem test_self_test : step (State.withFetchWord { State.reset with pending := [.selfTestEnd 900 .passed] } 0 0)
    = .next { State.reset with part.state := .idle, part.memoryReady := true, rck.clock := 900 } := rfl

/-- Charging with the flash rail on and the profile's defaults, as in Examples 7-1 and 12-2. -/
def charging (limit : Nat) : State :=
  { fed with cc.charge := .fast, cc.inputLimit := limit, fe.rail := .ready, fe.idle := 100, ga.estimated := true }

/-- Example 12-2, arrival 1: P_in 5,757, P_av 5,181, budget and setpoint 559. -/
theorem test_charge_tick_budget : (did (.chargeTick ⟨4700, 3900, 100, 50⟩ []) (charging 1200)).cc.setpoint = 559 := by
  decide +kernel

/-- Example 7-1, arrival 3: the input droops, the limit falls to 1,400, the budget is 705. -/
theorem test_charge_tick_droop :
    (did (.chargeTick ⟨4480, 3750, 100, 50⟩ []) (charging 1450)).cc.inputLimit = 1400
      ∧ (did (.chargeTick ⟨4480, 3750, 100, 50⟩ []) (charging 1450)).cc.setpoint = 705 := by decide +kernel

/-- Example 12-2, arrival 8: the fourth reading of 0 makes the input Absent. -/
theorem test_input_lost :
    (did (.inputQualification ⟨0, 3900, -850, 50⟩ []) { charging 975 with cc.qualifyCount := 3 }).cc.charge = .noInput
      ∧ (did (.inputQualification ⟨0, 3900, -850, 50⟩ []) { charging 975 with cc.qualifyCount := 3 }).cc.inputLimit
        = 1500 := by decide +kernel

/-- Example 8-1: 3,525 mV at the first arrival is 7.5 % of 1,720 mAh. -/
theorem test_first_estimate : (did (.chargeTick ⟨0, 3525, -100, 50⟩ []) (at_ .idle)).ga.q = 46440000 := by decide +kernel

/-- Example 12-3: at 14,400,000 mA·ticks the level is Reserve. -/
theorem test_reserve : (did (.chargeTick ⟨0, 3700, -850, 50⟩ []) { at_ .idle with
    ga.estimated := true, ga.hold := 4, ga.q := 14400850, ga.level := .low }).ga.level = .reserve := by decide +kernel

/-- Example 12-3, the last arrival: SYSEN is released in the same arrival. -/
theorem test_cutoff_off : (did (.cutoff ⟨0, 3294, -700, 50⟩ []) { at_ .running with
    cw.writer := .stopped, ga.estimated := true, ga.hold := 4, ga.q := 1797200, ga.level := .reserve
    ga.cutoffCount := 3 }).part.state = .off := by decide +kernel

/-- Example 1-1: the tick at 5,002,000 installs the pending period of 2,000. -/
theorem test_sample_tick : (did .sampleTick { at_ .running with
    rck.clock := 5001400, rck.sampleTimer := some 5002000, rck.pendingPeriod := some 2000 }).rck.sampleTimer
      = some 5004000 := by decide +kernel

/-- In Running as in Example 1-2, before the edge at 2,043,335. -/
def riding : State :=
  { at_ .running with
    rck.clock := 2020001, rck.filter := .low, rck.lastAccepted := some 2010002, rck.nextFrame := .number 1
    rck.glitches := 1, rck.silence := some 2410002 }

/-- Example 1-2: the edge at 2,043,335 is accepted two microseconds later as frame 1. -/
theorem test_frame_start :
    (did (.frameStart []) (did (.frameStartLineChange 2043335 true []) riding)).rck.silence = some 2176677
      ∧ (did (.frameStart []) (did (.frameStartLineChange 2043335 true []) riding)).rck.lastInterval = some 33335 := by
  decide +kernel

/-- Example 1-2: an edge 3,500 µs after the accepted one is a glitch. -/
theorem test_glitch : (did (.frameStart []) { riding with
    rck.clock := 2013500, rck.filter := .qualifying, rck.glitches := 0 }).rck.glitches = 1 := by decide +kernel

/-- Example 2-3: a yaw word of 480 with a bias of 3 over 1,000 µs is 477,000. -/
theorem test_integration : (did (.sampleBurstDone 1005 ⟨#v[0xE0, 0x01, 0, 0, 0, 0, 0, 0, 0, 0, 0, 0, 7]⟩) { tracking with
    mu.bias := ⟨3, 0, 0⟩ }).mu.acc.yaw = 477000 := by decide +kernel

/-- Example 2-2: half a step rounds away from zero, on either side. -/
theorem test_bias_rounding : roundDiv 3072 2048 = 2 ∧ roundDiv (-1024) 2048 = -1 ∧ roundDiv 1000 2048 = 0 := by decide +kernel

/-- Example 2-4: the squares of two samples, and the peak of the run. -/
theorem test_peak : sampleSquare ⟨⟨0, 0, 0⟩, 6000, 5000, 3000⟩ = 70000000 ∧ isqrt 117000000 / 128 = 84 := by decide

/-- A shadow measured on path 3 with these angles. -/
def measured (n : Nat) (yaw roll : Int) : Shadow :=
  { Shadow.empty with state := .measured, frame := n, path := some 3, theta := ⟨yaw, 0, roll⟩ }

/-- Example 3-1: the window of frame 200 gives −288 sixteenths and −480 hundredths of a degree. -/
theorem test_crop :
    cropOf { PuParams.default with
        lookAhead := 2, pixelsPerDegree := 7680, marginX := 192, marginY := 108, rollMax := 500 }
      [measured 198 0 0, measured 199 8000000 0, measured 200 16000000 96000000, measured 201 8000000 0,
        measured 202 0 0]
    ⟨16000000, 0, 96000000⟩ = ⟨-288, 0, -480, false, false, false⟩ := by decide +kernel

/-- A codeword of three bytes, seven bits of them zero, read with this finding. -/
def word (o : CodewordOutcome) : CodewordRead := ⟨[0x55, 0x55, 0x7F], [0xFF], o⟩

/-- Example 4-1, page 19: worst 3, list 3 and 7, Uncorrectable. -/
theorem test_report :
    (let r := pageResult ⟨[word (.corrected 1 [1]), word (.corrected 0 [2]), word (.corrected 3 [3]), word .uncorrectable,
      word (.corrected 0 [4]), word (.corrected 0 [5]), word (.corrected 0 [6]), word .uncorrectable]⟩
    r.worst = 3 ∧ r.bad = [3, 7] ∧ pageOutcome r = .uncorrectable ∧ r.erased = false) := by decide +kernel

/-- Example 4-3: the deadline of the Reset, with two timeouts behind it, makes the rail Failed. -/
theorem test_third_timeout : (did (.operationTimeout plain) { at_ .running with
    fe.rail := .busy, fe.inFlight := some ⟨some ⟨.tableWriter, .programPage 1 0 [] [], 0⟩, true, 62408500, []⟩
    fe.timeouts := 2 }).fe.rail = .failed := by decide +kernel

/-- Example 9-1: the read drives 0x0004, and the write of EVENTS then clears causes 0 and 10 and leaves the latch 0. -/
theorem test_latch :
    (did (.halfReadLow 1 false 0x8000) (State.store (at_ .running) 0x20000 [4, 0, 3, 0])).hp.data = 4
      ∧ (did (.halfReadLow 1 false 0x8000) (State.store (at_ .running) 0x20000 [4, 0, 3, 0])).hp.latch = 3 := by decide +kernel

/-- Example 9-1: the high half of EVENTS, 0, and the low half 0x0401. -/
theorem test_events_clear : (did (.registerWrite 2 6 0x0401) (did (.registerWrite 1 7 0) { at_ .running with
    hp.events := 0x0C03, hp.latch := 3 })).hp.events = 0x0802 := by decide +kernel

/-- Example 5-4: a snapshot formed when 200 pages are programmed records segment 9 with 1,638,400 bytes. -/
theorem test_snapshot_bytes : ((smRecordFill { at_ .running with
    sm.segments := [{ segOf .opened 592 with firstFrame := 9012 }], sm.openFill := 200
    cw.lastTracked := some 9876 }).sm.segments.map fun e => (e.bytesWritten, e.frameCount)) = [(1638400, 865)] := by
  decide +kernel

/-- R171, R179: with the Buffer RAM passed the part is still Starting and its memory is ready. -/
theorem test_buffer_passed : (did (.selfTestEnd 900 .bufferPassed) State.reset).part
    = { State.reset.part with memoryReady := true } := by decide

/-- R138: the input limit starts from the maximum, here raised to 3,000 while the input was Absent. -/
theorem test_limit_from_maximum : (did (.inputQualification ⟨5000, 3900, 0, 50⟩ []) { at_ .idle with
    cc.params.inputMax := 3000, cc.qualifyCount := 3 }).cc.inputLimit = 3000 := by decide +kernel

/-- R85: the third timeout inside a reset transition discards what waits, and the writer takes no action. -/
theorem test_timeout_in_reset :
    (let u := did (.operationTimeout plain) { at_ .running with
      part.transition := .reset, cw.writer := .recording, fe.rail := .busy, fe.timeouts := 2
      fe.inFlight := some ⟨some ⟨.writer, .programPage 16 0 [] [], 0⟩, true, 900, []⟩ }
    u.fe.waiting = [] ∧ u.cw.writer = .recording) := by decide +kernel

/-- Defaults read for a reload whose hand-off has not come yet. -/
def inRead : State := { at_ .idle with hp.reading := some ⟨reading0, false⟩ }

/-- R174, R178: a reset ends the read, and nothing is handed. -/
theorem test_reset_in_read : (did (.reset 6) inRead).hp.reading = none ∧ (did (.reset 6) inRead).cc.pending = none
    ∧ (did (.reset 6) inRead).rck.pendingPeriod = none := by decide +kernel

/-- R174: the end of the read hands the default sample period, 1,000 µs. -/
theorem test_read_ends : (did (.heldReload 6) inRead).rck.pendingPeriod = some 1000 := by decide +kernel

/-- R104: after a FlashFailed to the writer no snapshot is open any more, and a due one does not keep a mount waiting. -/
theorem test_no_snapshot_after_failure :
    (let u := flashFailed .writer { served .recording [] with sm.snapshotDue := true, sm.snapshot := none }
    snapshotsOpen u = false ∧ snapshotWanted { u with sm.mount := some .finishing } = false) := by decide +kernel

/-- R184: a command refused in a transition that RESETn began raises its event, and the transition ends with it cleared. -/
theorem test_resetn_ends_clear :
    (let u := did (.run 6 .first) (did (.resetn 5 false) (at_ .idle))
    u.hp.events ≠ 0 ∧ (did (.resetTransitionEnd 7) u).hp.events = 0
      ∧ (did (.resetTransitionEnd 7) { u with part.byResetn := false }).hp.events = u.hp.events) := by decide +kernel

/-- R15, R181: the identity reads of a Run wait for the profile's values. -/
theorem test_identify_waits :
    (let u := did (.run 5 .lasting) (at_ .idle)
    u.mu.txn = none ∧ (did (.heldReload 6) u).mu.txn = some .identity) := by decide +kernel

/-- R104, R128: snapshot writing Abandoned does not wait for the relocation that a waiting Reserve waits for. -/
theorem test_abandon_in_relocation :
    (let u := smAbandon { served .recording [] with
      cw.reloc := some ⟨0, 0, 1, 9, 16, .erase, 5, none⟩, cw.stopDue := some .reserve }
    u.cw.writer = .closing ∧ u.cw.cause = .flashFault ∧ u.cw.stopDue = some .reserve) := by decide +kernel

/-- R131: no Media is taken for writing under low energy, whatever brought the Recording writer there: the slot
fails with LowPower, and nothing reaches the assembly. -/
theorem test_media_low_energy :
    (let u := did (.media 5 0) { served .recording (posted 1 2 0 5 4096 9 0) with ga.level := .cutoff }
    u.cw.assembly = [] ∧ u.cw.programming = false ∧ u.cw.queue = [] ∧ u.readField 256 4 = 0x80004) := by decide +kernel

/-! ### Hypotheses that are met: `h` is the statement, and its instance is its claim about this state -/

theorem witness_StepTakesFront_1 (h : Obligations.StepTakesFront) : type_of% (
    h.1 .sampleTick [.settleEnd] { at_ .idle with pending := [.sampleTick, .settleEnd] } rfl) :=
  h.1 .sampleTick [.settleEnd] { at_ .idle with pending := [.sampleTick, .settleEnd] } rfl

theorem witness_StepTakesFront_2 (h : Obligations.StepTakesFront) : type_of% (
    h.2 (at_ .idle) rfl) :=
  h.2 (at_ .idle) rfl

theorem witness_WakeDetector_1 (h : Obligations.WakeDetector) : type_of% (
    (h 5000 (at_ .idle)).1 (by decide)) :=
  (h 5000 (at_ .idle)).1 (by decide)

theorem witness_WakeDetector_2 (h : Obligations.WakeDetector) : type_of% (
    (h 4199 (at_ .off)).2.1 rfl (by decide)) :=
  (h 4199 (at_ .off)).2.1 rfl (by decide)

theorem witness_WakeDetector_3 (h : Obligations.WakeDetector) : type_of% (
    (h 4200 { at_ .off with part.wakeCount := 2 }).2.2.1 rfl (by decide) (by decide) (by decide)) :=
  (h 4200 { at_ .off with part.wakeCount := 2 }).2.2.1 rfl (by decide) (by decide) (by decide)

theorem witness_WakeDetector_4 (h : Obligations.WakeDetector) : type_of% (
    (h 6500 { at_ .off with part.wakeCount := 3 }).2.2.2 rfl (by decide) (by decide) (by decide)) :=
  (h 6500 { at_ .off with part.wakeCount := 3 }).2.2.2 rfl (by decide) (by decide) (by decide)

theorem witness_OffIgnoresTheRest_1 (h : Obligations.OffIgnoresTheRest) : type_of% (
    h .sampleTick (at_ .off) (at_ .off) rfl rfl) :=
  h .sampleTick (at_ .off) (at_ .off) rfl rfl

theorem witness_SelfTestEnds_1 (h : Obligations.SelfTestEnds) : type_of% (
    (h 5 .passed (at_ .idle) (calm_of rfl)).1 (by decide)) :=
  (h 5 .passed (at_ .idle) (calm_of rfl)).1 (by decide)

theorem witness_SelfTestEnds_2 (h : Obligations.SelfTestEnds) : type_of% (
    (h 5 .passed State.reset (calm_of rfl)).2 rfl) :=
  (h 5 .passed State.reset (calm_of rfl)).2 rfl

theorem witness_ClockLossHalts_1 (h : Obligations.ClockLossHalts) : type_of% (
    (h 5 true { at_ .idle with part.onBackup := true }).1 (calm_of rfl) rfl) :=
  (h 5 true { at_ .idle with part.onBackup := true }).1 (calm_of rfl) rfl

theorem witness_ClockLossHalts_2 (h : Obligations.ClockLossHalts) : type_of% (
    (h 5 true (at_ .halted)).2.1 (calm_of rfl) rfl rfl) :=
  (h 5 true (at_ .halted)).2.1 (calm_of rfl) rfl rfl

theorem witness_ClockLossHalts_3 (h : Obligations.ClockLossHalts) : type_of% (
    (h 5 true State.reset).2.2.1 (calm_of rfl) rfl rfl) :=
  (h 5 true State.reset).2.2.1 (calm_of rfl) rfl rfl

theorem witness_ClockLossHalts_4 (h : Obligations.ClockLossHalts) : type_of% (
    (h 5 true (at_ .standby)).2.2.2.1 rfl rfl rfl) :=
  (h 5 true (at_ .standby)).2.2.2.1 rfl rfl rfl

theorem witness_ClockLossHalts_5 (h : Obligations.ClockLossHalts) : type_of% (
    (h 5 true (at_ .mounting)).2.2.2.2 rfl rfl (.inr (.inl rfl)) (by decide)) :=
  (h 5 true (at_ .mounting)).2.2.2.2 rfl rfl (.inr (.inl rfl)) (by decide)

theorem witness_ResetsBegin_1 (h : Obligations.ResetsBegin) : type_of% (
    (h 5 true State.reset).1 (calm_of rfl) (.inl rfl)) :=
  (h 5 true State.reset).1 (calm_of rfl) (.inl rfl)

theorem witness_ResetsBegin_2 (h : Obligations.ResetsBegin) : type_of% (
    (h 5 false (at_ .standby)).2.1 rfl (.inr (.inr (.inr rfl))) (by decide)) :=
  (h 5 false (at_ .standby)).2.1 rfl (.inr (.inr (.inr rfl))) (by decide)

theorem witness_ResetsBegin_3 (h : Obligations.ResetsBegin) : type_of% (
    (h 5 true { at_ .idle with part.transition := .reset }).2.2.1 rfl rfl rfl) :=
  (h 5 true { at_ .idle with part.transition := .reset }).2.2.1 rfl rfl rfl

theorem witness_ResetsBegin_4 (h : Obligations.ResetsBegin) : type_of% (
    (h 5 true { tracking with part.transition := .stop }).2.2.2 rfl (.inr (.inr rfl)) (by decide)) :=
  (h 5 true { tracking with part.transition := .stop }).2.2.2 rfl (.inr (.inr rfl)) (by decide)

theorem witness_ResetTransitionEnds_1 (h : Obligations.ResetTransitionEnds) : type_of% (
    (h 5 { working .writer .readId with part.state := .idle, part.transition := .reset } rfl rfl rfl).1 (by decide)) :=
  (h 5 { working .writer .readId with part.state := .idle, part.transition := .reset } rfl rfl rfl).1 (by decide)

theorem witness_ResetTransitionEnds_2 (h : Obligations.ResetTransitionEnds) : type_of% (
    (h 5 { at_ .idle with part.transition := .reset, fe.rail := .failed } rfl rfl rfl).2 rfl rfl) :=
  (h 5 { at_ .idle with part.transition := .reset, fe.rail := .failed } rfl rfl rfl).2 rfl rfl

theorem witness_ResetTransitionEnds_3 (h : Obligations.ResetTransitionEnds) : type_of% (
    (h 5 { at_ .idle with part.transition := .reset, part.byResetn := true, hp.events := 1 } rfl rfl rfl).2 rfl rfl) :=
  (h 5 { at_ .idle with part.transition := .reset, part.byResetn := true, hp.events := 1 } rfl rfl rfl).2 rfl rfl

theorem witness_HalfReads_1 (h : Obligations.HalfReads) : type_of% (
    h 5 true 4194303 (at_ .standby) (by decide) (by decide)) :=
  h 5 true 4194303 (at_ .standby) (by decide) (by decide)

theorem witness_HalfReads_2 (h : Obligations.HalfReads) : type_of% (
    h 5 false 0 (at_ .halted) (by decide) (by decide)) :=
  h 5 false 0 (at_ .halted) (by decide) (by decide)

theorem witness_HalfWrites_1 (h : Obligations.HalfWrites) : type_of% (
    h 5 4194303 0xABCD (at_ .standby) (by decide) (by decide)) :=
  h 5 4194303 0xABCD (at_ .standby) (by decide) (by decide)

theorem witness_HalfWrites_2 (h : Obligations.HalfWrites) : type_of% (
    h 5 1 0xABCD (State.reset) (by decide) (by decide)) :=
  h 5 1 0xABCD (State.reset) (by decide) (by decide)

theorem witness_OnlyAddressesFault_1 (h : Obligations.OnlyAddressesFault) : type_of% (
    h.1 0 true 4194304 0 .lasting (at_ .idle) (by decide)) :=
  h.1 0 true 4194304 0 .lasting (at_ .idle) (by decide)

theorem witness_OnlyAddressesFault_2 (h : Obligations.OnlyAddressesFault) : type_of% (
    h.2.1 0 8388608 0 (at_ .idle) (by decide)) :=
  h.2.1 0 8388608 0 (at_ .idle) (by decide)

theorem witness_OnlyAddressesFault_3 (h : Obligations.OnlyAddressesFault) : type_of% (
    h.2.2 (.halfReadLow 0 true 4194303) (at_ .idle) rfl) :=
  h.2.2 (.halfReadLow 0 true 4194303) (at_ .idle) rfl

theorem witness_RegisterWrites_1 (h : Obligations.RegisterWrites) : type_of% (
    h 5 0x00012345 (at_ .standby) _ (by decide) rfl) :=
  h 5 0x00012345 (at_ .standby) _ (by decide) rfl

theorem witness_RegisterWrites_2 (h : Obligations.RegisterWrites) : type_of% (
    (h 5 0x00012345 { at_ .idle with hp.latch := 1 } _ (by decide) rfl).2.2.2.1 0x2345 .first rfl) :=
  (h 5 0x00012345 { at_ .idle with hp.latch := 1 } _ (by decide) rfl).2.2.2.1 0x2345 .first rfl

theorem witness_RegisterWrites_3 (h : Obligations.RegisterWrites) : type_of% (
    (h 5 0 (at_ .idle) _ (by decide) rfl).2.2.2.2.1 8388607 1 (by decide) rfl) :=
  (h 5 0 (at_ .idle) _ (by decide) rfl).2.2.2.2.1 8388607 1 (by decide) rfl

theorem witness_RegisterWrites_4 (h : Obligations.RegisterWrites) : type_of% (
    (h 5 0 (at_ .idle) _ (by decide) rfl).2.2.2.2.2.1 1 1 .first (by decide) (.inl rfl)) :=
  (h 5 0 (at_ .idle) _ (by decide) rfl).2.2.2.2.2.1 1 1 .first (by decide) (.inl rfl)

theorem witness_RegisterWrites_5 (h : Obligations.RegisterWrites) : type_of% (
    (h 5 0 (at_ .idle) _ (by decide) rfl).2.2.2.2.2.1 4194303 1 .first (by decide) (.inr (by decide))) :=
  (h 5 0 (at_ .idle) _ (by decide) rfl).2.2.2.2.2.1 4194303 1 .first (by decide) (.inr (by decide))

theorem witness_RegisterWrites_6 (h : Obligations.RegisterWrites) : type_of% (
    (((h 5 0 (at_ .idle) _ (by decide) rfl).2.2.2.2.2.2 1 .first (.halfWriteLow 5 true 0 1 .first) (.inl rfl)).1 rfl
      rfl).1 rfl) :=
  (((h 5 0 (at_ .idle) _ (by decide) rfl).2.2.2.2.2.2 1 .first (.halfWriteLow 5 true 0 1 .first) (.inl rfl)).1 rfl
    rfl).1 rfl

theorem witness_RegisterWrites_7 (h : Obligations.RegisterWrites) : type_of% (
    (((h 5 0 (at_ .running) _ (by decide) rfl).2.2.2.2.2.2 2 .first (.registerWrite 5 0 2) (.inr ⟨rfl, rfl⟩)).1 rfl
      rfl).2.1 rfl) :=
  (((h 5 0 (at_ .running) _ (by decide) rfl).2.2.2.2.2.2 2 .first (.registerWrite 5 0 2) (.inr ⟨rfl, rfl⟩)).1 rfl
    rfl).2.1 rfl

theorem witness_RegisterWrites_8 (h : Obligations.RegisterWrites) : type_of% (
    (((h 5 0 (at_ .idle) _ (by decide) rfl).2.2.2.2.2.2 3 .first (.halfWriteLow 5 true 0 3 .first) (.inl rfl)).1 rfl
      rfl).2.2.1 rfl) :=
  (((h 5 0 (at_ .idle) _ (by decide) rfl).2.2.2.2.2.2 3 .first (.halfWriteLow 5 true 0 3 .first) (.inl rfl)).1 rfl
    rfl).2.2.1 rfl

theorem witness_RegisterWrites_9 (h : Obligations.RegisterWrites) : type_of% (
    (((h 5 0 (at_ .idle) _ (by decide) rfl).2.2.2.2.2.2 4 .first (.registerWrite 5 0 4) (.inr ⟨rfl, rfl⟩)).1 rfl
      rfl).2.2.2.1 rfl) :=
  (((h 5 0 (at_ .idle) _ (by decide) rfl).2.2.2.2.2.2 4 .first (.registerWrite 5 0 4) (.inr ⟨rfl, rfl⟩)).1 rfl
    rfl).2.2.2.1 rfl

theorem witness_RegisterWrites_10 (h : Obligations.RegisterWrites) : type_of% (
    (((h 5 0 (at_ .idle) _ (by decide) rfl).2.2.2.2.2.2 8 .first (.registerWrite 5 0 8) (.inr ⟨rfl, rfl⟩)).1 rfl
      rfl).2.2.2.2 rfl (calm_of rfl)) :=
  (((h 5 0 (at_ .idle) _ (by decide) rfl).2.2.2.2.2.2 8 .first (.registerWrite 5 0 8) (.inr ⟨rfl, rfl⟩)).1 rfl
    rfl).2.2.2.2 rfl (calm_of rfl)

theorem witness_RegisterWrites_11 (h : Obligations.RegisterWrites) : type_of% (
    ((h 5 0 (at_ .running) _ (by decide) rfl).2.2.2.2.2.2 0x100 .first (.halfWriteLow 5 true 0 0x100 .first)
      (.inl rfl)).2.1 rfl rfl rfl) :=
  ((h 5 0 (at_ .running) _ (by decide) rfl).2.2.2.2.2.2 0x100 .first (.halfWriteLow 5 true 0 0x100 .first)
    (.inl rfl)).2.1 rfl rfl rfl

theorem witness_RegisterWrites_12 (h : Obligations.RegisterWrites) : type_of% (
    ((h 5 0 (at_ .idle) _ (by decide) rfl).2.2.2.2.2.2 0x200 .first (.halfWriteLow 5 true 0 0x200 .first)
      (.inl rfl)).2.2.1 rfl rfl rfl (by decide)) :=
  ((h 5 0 (at_ .idle) _ (by decide) rfl).2.2.2.2.2.2 0x200 .first (.halfWriteLow 5 true 0 0x200 .first)
    (.inl rfl)).2.2.1 rfl rfl rfl (by decide)

theorem witness_RegisterWrites_13 (h : Obligations.RegisterWrites) : type_of% (
    (((h 5 0 (at_ .idle) _ (by decide) rfl).2.2.2.2.2.2 0x201 .first (.halfWriteLow 5 true 0 0x201 .first)
      (.inl rfl)).2.2.2.1 rfl rfl rfl).1 rfl rfl) :=
  (((h 5 0 (at_ .idle) _ (by decide) rfl).2.2.2.2.2.2 0x201 .first (.halfWriteLow 5 true 0 0x201 .first)
    (.inl rfl)).2.2.2.1 rfl rfl rfl).1 rfl rfl

theorem witness_RegisterWrites_14 (h : Obligations.RegisterWrites) : type_of% (
    (((h 5 0 (at_ .mounting) _ (by decide) rfl).2.2.2.2.2.2 0x201 .first (.halfWriteLow 5 true 0 0x201 .first)
      (.inl rfl)).2.2.2.1 rfl rfl rfl).2 rfl rfl (calm_of rfl)) :=
  (((h 5 0 (at_ .mounting) _ (by decide) rfl).2.2.2.2.2.2 0x201 .first (.halfWriteLow 5 true 0 0x201 .first)
    (.inl rfl)).2.2.2.1 rfl rfl rfl).2 rfl rfl (calm_of rfl)

theorem witness_RegisterWrites_15 (h : Obligations.RegisterWrites) : type_of% (
    ((h 5 0 (at_ .running) _ (by decide) rfl).2.2.2.2.2.2 0x204 .first (.registerWrite 5 0 0x204)
      (.inr ⟨rfl, rfl⟩)).2.2.2.2.1 rfl rfl rfl rfl (.inr (.inr rfl)) (by decide)) :=
  ((h 5 0 (at_ .running) _ (by decide) rfl).2.2.2.2.2.2 0x204 .first (.registerWrite 5 0 0x204)
    (.inr ⟨rfl, rfl⟩)).2.2.2.2.1 rfl rfl rfl rfl (.inr (.inr rfl)) (by decide)

theorem witness_RegisterWrites_16 (h : Obligations.RegisterWrites) : type_of% (
    ((h 5 0 (at_ .mounting) _ (by decide) rfl).2.2.2.2.2.2 0x102 .first (.registerWrite 5 0 0x102)
      (.inr ⟨rfl, rfl⟩)).2.2.2.2.2 rfl rfl rfl rfl rfl (calm_of rfl)) :=
  ((h 5 0 (at_ .mounting) _ (by decide) rfl).2.2.2.2.2.2 0x102 .first (.registerWrite 5 0 0x102)
    (.inr ⟨rfl, rfl⟩)).2.2.2.2.2 rfl rfl rfl rfl rfl (calm_of rfl)

theorem witness_InterruptLine_1 (h : Obligations.InterruptLine) : type_of% (
    h.2.1 5 0xFFFFFFFF (at_ .idle) (by decide) rfl) :=
  h.2.1 5 0xFFFFFFFF (at_ .idle) (by decide) rfl

theorem witness_InterruptLine_2 (h : Obligations.InterruptLine) : type_of% (
    h.2.2.2 5 true { at_ .idle with hp.mask := 1 } (by decide) rfl) :=
  h.2.2.2 5 true { at_ .idle with hp.mask := 1 } (by decide) rfl

theorem witness_CommandsRefused_1 (h : Obligations.CommandsRefused) : type_of% (
    (h 5 .first (at_ .running) _ (calm_of rfl) (by decide) rfl).1 (fun k => absurd k.1 (by decide))) :=
  (h 5 .first (at_ .running) _ (calm_of rfl) (by decide) rfl).1 (fun k => absurd k.1 (by decide))

theorem witness_CommandsRefused_2 (h : Obligations.CommandsRefused) : type_of% (
    (h 5 .first (at_ .idle) _ (calm_of rfl) (by decide) rfl).2.1
      (fun k => k.1.elim (fun e => absurd e (by decide)) (fun e => absurd e (by decide)))) :=
  (h 5 .first (at_ .idle) _ (calm_of rfl) (by decide) rfl).2.1
    (fun k => k.1.elim (fun e => absurd e (by decide)) (fun e => absurd e (by decide)))

theorem witness_CommandsRefused_3 (h : Obligations.CommandsRefused) : type_of% (
    (h 5 .first State.reset _ (calm_of rfl) (by decide) rfl).2.2.1 (.inl rfl)) :=
  (h 5 .first State.reset _ (calm_of rfl) (by decide) rfl).2.2.1 (.inl rfl)

theorem witness_CommandsRefused_4 (h : Obligations.CommandsRefused) : type_of% (
    (h 5 .first (at_ .idle) _ (calm_of rfl) (by decide) rfl).2.2.2 0x00FD (by decide) rfl rfl) :=
  (h 5 .first (at_ .idle) _ (calm_of rfl) (by decide) rfl).2.2.2 0x00FD (by decide) rfl rfl

theorem witness_StandbyTaken_1 (h : Obligations.StandbyTaken) : type_of% (
    (h 5 { at_ .idle with fe.rail := .ready } (calm_of rfl)).1 rfl rfl) :=
  (h 5 { at_ .idle with fe.rail := .ready } (calm_of rfl)).1 rfl rfl

theorem witness_StandbyTaken_2 (h : Obligations.StandbyTaken) : type_of% (
    (h 5 { at_ .idle with part.transition := .standby } (calm_of rfl)).2.1 rfl rfl (.inl rfl)) :=
  (h 5 { at_ .idle with part.transition := .standby } (calm_of rfl)).2.1 rfl rfl (.inl rfl)

theorem witness_StandbyTaken_3 (h : Obligations.StandbyTaken) : type_of% (
    (h 5 { at_ .idle with part.transition := .standby, fe.rail := .busy } (calm_of rfl)).2.2.1 rfl
      (.inr (.inr (.inr rfl)))) :=
  (h 5 { at_ .idle with part.transition := .standby, fe.rail := .busy } (calm_of rfl)).2.2.1 rfl
    (.inr (.inr (.inr rfl)))

theorem witness_StandbyTaken_4 (h : Obligations.StandbyTaken) : type_of% (
    (h 5 { at_ .standby with fe.waiting := [⟨.eraser, .readId, 0⟩] } (calm_of rfl)).2.2.2 rfl) :=
  (h 5 { at_ .standby with fe.waiting := [⟨.eraser, .readId, 0⟩] } (calm_of rfl)).2.2.2 rfl

theorem witness_StopTaken_1 (h : Obligations.StopTaken) : type_of% (
    (h 5 { at_ .mounting with sm.mount := some .readId }).1 rfl rfl (still_of rfl) rfl (.inr rfl)) :=
  (h 5 { at_ .mounting with sm.mount := some .readId }).1 rfl rfl (still_of rfl) rfl (.inr rfl)

theorem witness_StopTaken_2 (h : Obligations.StopTaken) : type_of% (
    (h 5 { at_ .running with cw.writer := .faulted }).2.1 rfl rfl (calm_of rfl) (.inr rfl) rfl) :=
  (h 5 { at_ .running with cw.writer := .faulted }).2.1 rfl rfl (calm_of rfl) (.inr rfl) rfl

theorem witness_StopTaken_3 (h : Obligations.StopTaken) : type_of% (
    (h 5 (filled .recording)).2.2.1 rfl rfl (resting_of rfl) rfl rfl rfl) :=
  (h 5 (filled .recording)).2.2.1 rfl rfl (resting_of rfl) rfl rfl rfl

theorem witness_StopTaken_4 (h : Obligations.StopTaken) : type_of% (
    (h 5 { served .recording [] with
          cw := { (served .recording []).cw with assembly := [1], queue := [mediaTaken] } }).2.2.2.1 0 (segOf
          .opened 16) 8191 rfl rfl (resting_of rfl) rfl rfl rfl rfl (by decide) rfl (by decide) rfl rfl ⟨rfl, rfl,
          rfl, rfl, rfl⟩) :=
  (h 5 { served .recording [] with
        cw := { (served .recording []).cw with assembly := [1], queue := [mediaTaken] } }).2.2.2.1 0 (segOf .opened
        16) 8191 rfl rfl (resting_of rfl) rfl rfl rfl rfl (by decide) rfl (by decide) rfl rfl ⟨rfl, rfl, rfl, rfl,
        rfl⟩

theorem witness_StopTaken_5 (h : Obligations.StopTaken) : type_of% (
    (h 5 (served .recording [])).2.2.2.2.1 0 (segOf .opened 16) rfl rfl (calm_of rfl) rfl rfl rfl rfl rfl rfl rfl
      rfl (onlyOpen_of rfl) (unowed_of rfl) ⟨(by decide), rfl⟩) :=
  (h 5 (served .recording [])).2.2.2.2.1 0 (segOf .opened 16) rfl rfl (calm_of rfl) rfl rfl rfl rfl rfl rfl rfl rfl
    (onlyOpen_of rfl) (unowed_of rfl) ⟨(by decide), rfl⟩

theorem witness_StopTaken_6 (h : Obligations.StopTaken) : type_of% (
    (h 5 { tracking with part.transition := .stop, cw.writer := .stopped }).2.2.2.2.2.1 (calm_of rfl) rfl rfl
      (.inl rfl) rfl (untracked_of rfl) (by decide)) :=
  (h 5 { tracking with part.transition := .stop, cw.writer := .stopped }).2.2.2.2.2.1 (calm_of rfl) rfl rfl
    (.inl rfl) rfl (untracked_of rfl) (by decide)

theorem witness_StopTaken_7 (h : Obligations.StopTaken) : type_of% (
    (h 5 { at_ .running with cw.writer := .recording }).2.2.2.2.2.2 (calm_of rfl) rfl (.inl (by decide))) :=
  (h 5 { at_ .running with cw.writer := .recording }).2.2.2.2.2.2 (calm_of rfl) rfl (.inl (by decide))

theorem witness_TimersExpire_1 (h : Obligations.TimersExpire) : type_of% (
    h.1 (at_ .idle) (calm_of rfl) rfl) :=
  h.1 (at_ .idle) (calm_of rfl) rfl

theorem witness_TimersExpire_2 (h : Obligations.TimersExpire) : type_of% (
    h.2.1 1000 500 { at_ .running with rck.sampleTimer := some 1000, rck.pendingPeriod := some 500 } (calm_of rfl)
      rfl rfl (.inl rfl)) :=
  h.2.1 1000 500 { at_ .running with rck.sampleTimer := some 1000, rck.pendingPeriod := some 500 } (calm_of rfl) rfl
    rfl (.inl rfl)

theorem witness_TimersExpire_3 (h : Obligations.TimersExpire) : type_of% (
    h.2.2.1 2000 { tracking with rck.sampleTimer := some 2000 } (calm_of rfl) rfl rfl rfl) :=
  h.2.2.1 2000 { tracking with rck.sampleTimer := some 2000 } (calm_of rfl) rfl rfl rfl

theorem witness_TimersExpire_4 (h : Obligations.TimersExpire) : type_of% (
    h.2.2.1 2000 { tracking with rck.sampleTimer := some 2000, mu.txn := none, rck.pendingPeriod := some 2000 }
      (calm_of rfl) rfl rfl rfl) :=
  h.2.2.1 2000 { tracking with rck.sampleTimer := some 2000, mu.txn := none, rck.pendingPeriod := some 2000 }
    (calm_of rfl) rfl rfl rfl

theorem witness_TimersExpire_5 (h : Obligations.TimersExpire) : type_of% (
    h.2.2.2.1 (at_ .idle) (calm_of rfl) rfl) :=
  h.2.2.2.1 (at_ .idle) (calm_of rfl) rfl

theorem witness_TimersExpire_6 (h : Obligations.TimersExpire) : type_of% (
    h.2.2.2.2 400000 { at_ .running with rck.silence := some 400000, rck.lastInterval := some 5 } (calm_of rfl) rfl
      (untracked_of rfl)) :=
  h.2.2.2.2 400000 { at_ .running with rck.silence := some 400000, rck.lastInterval := some 5 } (calm_of rfl) rfl
    (untracked_of rfl)

theorem witness_FrameFilter_1 (h : Obligations.FrameFilter) : type_of% (
    (h.1 5 true [] { at_ .running with rck.filter := .high } (calm_of rfl)).1 (.inr (.inr ⟨rfl, rfl⟩))) :=
  (h.1 5 true [] { at_ .running with rck.filter := .high } (calm_of rfl)).1 (.inr (.inr ⟨rfl, rfl⟩))

theorem witness_FrameFilter_2 (h : Obligations.FrameFilter) : type_of% (
    (h.1 5 false [] { at_ .running with rck.filter := .qualifying, rck.line := true } (calm_of rfl)).2.1 rfl rfl) :=
  (h.1 5 false [] { at_ .running with rck.filter := .qualifying, rck.line := true } (calm_of rfl)).2.1 rfl rfl

theorem witness_FrameFilter_3 (h : Obligations.FrameFilter) : type_of% (
    (h.1 5 false [] { at_ .running with rck.filter := .high, rck.line := true } (calm_of rfl)).2.2.1 rfl rfl) :=
  (h.1 5 false [] { at_ .running with rck.filter := .high, rck.line := true } (calm_of rfl)).2.2.1 rfl rfl

theorem witness_FrameFilter_4 (h : Obligations.FrameFilter) : type_of% (
    (h.1 5 true [] { at_ .running with rck.filter := .low } (calm_of rfl)).2.2.2.1 rfl rfl (by decide)) :=
  (h.1 5 true [] { at_ .running with rck.filter := .low } (calm_of rfl)).2.2.2.1 rfl rfl (by decide)

theorem witness_FrameFilter_5 (h : Obligations.FrameFilter) : type_of% (
    (h.1 5 true [] { at_ .running with rck.filter := .low, rck.filterLength := 0 } (calm_of rfl)).2.2.2.2 rfl rfl
      rfl) :=
  (h.1 5 true [] { at_ .running with rck.filter := .low, rck.filterLength := 0 } (calm_of rfl)).2.2.2.2 rfl rfl rfl

theorem witness_FrameFilter_6 (h : Obligations.FrameFilter) : type_of% (
    h.2.1 [] (at_ .running) (calm_of rfl) (by decide)) :=
  h.2.1 [] (at_ .running) (calm_of rfl) (by decide)

theorem witness_FrameFilter_7 (h : Obligations.FrameFilter) : type_of% (
    h.2.2 []
      { at_ .running with
        rck.clock := 7998, rck.filter := .qualifying, rck.filterRun := 1, rck.lastAccepted := some 0 } 7999
      (calm_of rfl) rfl rfl (by decide) (.inr ⟨0, rfl, (by decide)⟩)) :=
  h.2.2 []
    { at_ .running with
      rck.clock := 7998, rck.filter := .qualifying, rck.filterRun := 1, rck.lastAccepted := some 0 } 7999
    (calm_of rfl) rfl rfl (by decide) (.inr ⟨0, rfl, (by decide)⟩)

theorem witness_FrameFilter_8 (h : Obligations.FrameFilter) : type_of% (
    h.2.2 [] { at_ .running with rck.filter := .qualifying, rck.nextFrame := .exhausted } 2 (calm_of rfl) rfl rfl
      (by decide) (.inl rfl)) :=
  h.2.2 [] { at_ .running with rck.filter := .qualifying, rck.nextFrame := .exhausted } 2 (calm_of rfl) rfl rfl
    (by decide) (.inl rfl)

theorem witness_FrameStartAccepted_1 (h : Obligations.FrameStartAccepted) : type_of% (
    h.1 []
      { at_ .running with
        rck.clock := 7999, rck.filter := .qualifying, rck.filterRun := 1, rck.lastAccepted := some 0
        rck.nextFrame := .number 33, rck.silence := some 9, cw.writer := .recording } 33 8000 1 _ (calm_of rfl) rfl
      rfl (by decide) rfl (fun l e => by cases e; decide) rfl rfl rfl rfl rfl rfl rfl) :=
  h.1 []
    { at_ .running with
      rck.clock := 7999, rck.filter := .qualifying, rck.filterRun := 1, rck.lastAccepted := some 0
      rck.nextFrame := .number 33, rck.silence := some 9, cw.writer := .recording } 33 8000 1 _ (calm_of rfl) rfl
    rfl (by decide) rfl (fun l e => by cases e; decide) rfl rfl rfl rfl rfl rfl rfl

theorem witness_FrameStartAccepted_2 (h : Obligations.FrameStartAccepted) : type_of% (
    h.1 [.writer]
      { at_ .running with
        rck.filter := .qualifying, rck.nextFrame := .number 4294967295, rck.pendingMinInterval := some 5000 }
      4294967295 2 31 _ (calm_of rfl) rfl rfl (by decide) rfl (fun l e => by cases e) rfl rfl rfl rfl rfl rfl rfl) :=
  h.1 [.writer]
    { at_ .running with
      rck.filter := .qualifying, rck.nextFrame := .number 4294967295, rck.pendingMinInterval := some 5000 }
    4294967295 2 31 _ (calm_of rfl) rfl rfl (by decide) rfl (fun l e => by cases e) rfl rfl rfl rfl rfl rfl rfl

theorem witness_FrameStartAccepted_3 (h : Obligations.FrameStartAccepted) : type_of% (
    h.2 []
      { at_ .running with
        rck.clock := 7999, rck.filter := .qualifying, rck.filterRun := 1, rck.nextFrame := .number 33
        pu.shadows := Pu.reset.shadows.set 1 { Shadow.empty with state := .measured, frame := 1, path := some 0 } }
      33 8000 (calm_of rfl) rfl rfl (by decide) rfl (by decide) (fun l e => by cases e) rfl (by decide)
      (framesPlaced_of rfl)) :=
  h.2 []
    { at_ .running with
      rck.clock := 7999, rck.filter := .qualifying, rck.filterRun := 1, rck.nextFrame := .number 33
      pu.shadows := Pu.reset.shadows.set 1 { Shadow.empty with state := .measured, frame := 1, path := some 0 } } 33
    8000 (calm_of rfl) rfl rfl (by decide) rfl (by decide) (fun l e => by cases e) rfl (by decide)
    (framesPlaced_of rfl)

theorem witness_FrameStartAccepted_4 (h : Obligations.FrameStartAccepted) : type_of% (
    h.2 []
      { at_ .running with
        rck.filter := .qualifying, rck.nextFrame := .number 4294967295
        pu.pending := some { PuParams.default with lookAhead := 3 } } 4294967295 2 (calm_of rfl) rfl rfl (by decide)
      rfl (by decide) (fun l e => by cases e) rfl (by decide) (framesPlaced_of rfl)) :=
  h.2 []
    { at_ .running with
      rck.filter := .qualifying, rck.nextFrame := .number 4294967295
      pu.pending := some { PuParams.default with lookAhead := 3 } } 4294967295 2 (calm_of rfl) rfl rfl (by decide)
    rfl (by decide) (fun l e => by cases e) rfl (by decide) (framesPlaced_of rfl)

theorem witness_ImuAttempts_1 (h : Obligations.ImuAttempts) : type_of% (
    ((h 5 0x9E { at_ .mounting with mu.txn := some .identity, mu.link := .starting } (calm_of rfl) rfl rfl rfl
      rfl).1 rfl rfl rfl).1 rfl) :=
  ((h 5 0x9E { at_ .mounting with mu.txn := some .identity, mu.link := .starting } (calm_of rfl) rfl rfl rfl rfl).1
    rfl rfl rfl).1 rfl

theorem witness_ImuAttempts_2 (h : Obligations.ImuAttempts) : type_of% (
    ((h 5 0 { at_ .mounting with mu.txn := some .identity, mu.link := .starting, mu.attempts := 1 } (calm_of rfl)
      rfl rfl rfl rfl).1 rfl rfl rfl).2.1 (by decide) (by decide)) :=
  ((h 5 0 { at_ .mounting with mu.txn := some .identity, mu.link := .starting, mu.attempts := 1 } (calm_of rfl) rfl
    rfl rfl rfl).1 rfl rfl rfl).2.1 (by decide) (by decide)

theorem witness_ImuAttempts_3 (h : Obligations.ImuAttempts) : type_of% (
    ((h 5 0 { at_ .mounting with mu.txn := some .identity, mu.link := .starting, mu.attempts := 2 } (calm_of rfl)
      rfl rfl rfl rfl).1 rfl rfl rfl).2.2 (by decide) (by decide)) :=
  ((h 5 0 { at_ .mounting with mu.txn := some .identity, mu.link := .starting, mu.attempts := 2 } (calm_of rfl) rfl
    rfl rfl rfl).1 rfl rfl rfl).2.2 (by decide) (by decide)

theorem witness_ImuAttempts_4 (h : Obligations.ImuAttempts) : type_of% (
    (h 5 0 (at_ .mounting) (calm_of rfl) rfl rfl rfl rfl).2.1 rfl) :=
  (h 5 0 (at_ .mounting) (calm_of rfl) rfl rfl rfl rfl).2.1 rfl

theorem witness_ImuAttempts_5 (h : Obligations.ImuAttempts) : type_of% (
    ((h 5 0 { at_ .mounting with mu.txn := some .identity, mu.link := .starting, mu.attempts := 1 } (calm_of rfl)
      rfl rfl rfl rfl).2.2 rfl (.inl ⟨rfl, rfl⟩)).1 (by decide)) :=
  ((h 5 0 { at_ .mounting with mu.txn := some .identity, mu.link := .starting, mu.attempts := 1 } (calm_of rfl) rfl
    rfl rfl rfl).2.2 rfl (.inl ⟨rfl, rfl⟩)).1 (by decide)

theorem witness_ImuAttempts_6 (h : Obligations.ImuAttempts) : type_of% (
    ((h 5 0
      { at_ .mounting with
        mu.txn := some (.configure 500), mu.link := .starting, mu.phase := .configure, mu.attempts := 2 }
      (calm_of rfl) rfl rfl rfl rfl).2.2 rfl (.inr ⟨500, rfl, rfl⟩)).2 (by decide)) :=
  ((h 5 0
    { at_ .mounting with
      mu.txn := some (.configure 500), mu.link := .starting, mu.phase := .configure, mu.attempts := 2 }
    (calm_of rfl) rfl rfl rfl rfl).2.2 rfl (.inr ⟨500, rfl, rfl⟩)).2 (by decide)

theorem witness_RateWriteEnds_1 (h : Obligations.RateWriteEnds) : type_of% (
    (h 5 (Config.rateSetting 500) 500
      { at_ .mounting with
        mu.txn := some (.configure 500), mu.link := .starting, mu.phase := .configure } (calm_of rfl) rfl rfl rfl
      rfl).1 rfl rfl rfl rfl) :=
  (h 5 (Config.rateSetting 500) 500
    { at_ .mounting with
      mu.txn := some (.configure 500), mu.link := .starting, mu.phase := .configure } (calm_of rfl) rfl rfl rfl
    rfl).1 rfl rfl rfl rfl

theorem witness_RateWriteEnds_2 (h : Obligations.RateWriteEnds) : type_of% (
    (h 5 (Config.rateSetting 500 + 1) 500
      { at_ .mounting with
        mu.txn := some (.configure 500), mu.link := .starting, mu.phase := .configure, mu.attempts := 1 }
      (calm_of rfl) rfl rfl rfl rfl).2.1 rfl rfl rfl (byte_succ_ne _) (by decide)) :=
  (h 5 (Config.rateSetting 500 + 1) 500
    { at_ .mounting with
      mu.txn := some (.configure 500), mu.link := .starting, mu.phase := .configure, mu.attempts := 1 }
    (calm_of rfl) rfl rfl rfl rfl).2.1 rfl rfl rfl (byte_succ_ne _) (by decide)

theorem witness_RateWriteEnds_3 (h : Obligations.RateWriteEnds) : type_of% (
    (h 5 (Config.rateSetting 500 + 1) 500
      { at_ .mounting with
        mu.txn := some (.configure 500), mu.link := .starting, mu.phase := .configure, mu.attempts := 2 }
      (calm_of rfl) rfl rfl rfl rfl).2.2.1 rfl rfl rfl (byte_succ_ne _) (by decide)) :=
  (h 5 (Config.rateSetting 500 + 1) 500
    { at_ .mounting with
      mu.txn := some (.configure 500), mu.link := .starting, mu.phase := .configure, mu.attempts := 2 }
    (calm_of rfl) rfl rfl rfl rfl).2.2.1 rfl rfl rfl (byte_succ_ne _) (by decide)

theorem witness_RateWriteEnds_4 (h : Obligations.RateWriteEnds) : type_of% (
    (h 5 (Config.rateSetting 500) 500 { tracking with mu.txn := some (.rateThenBurst 500 1000), mu.rateDue := true }
      (calm_of rfl) rfl rfl rfl rfl).2.2.2 1000 rfl rfl) :=
  (h 5 (Config.rateSetting 500) 500 { tracking with mu.txn := some (.rateThenBurst 500 1000), mu.rateDue := true }
    (calm_of rfl) rfl rfl rfl rfl).2.2.2 1000 rfl rfl

theorem witness_GoodSampleTracked_1 (h : Obligations.GoodSampleTracked) : type_of% (
    (h.1 5 (burstOf 9 1) 1000 tracking (calm_of rfl) (untracked_of rfl) rfl ⟨rfl, rfl, rfl, rfl, rfl⟩ (by decide)
      (.inr ⟨rfl, (by decide)⟩)).1 rfl) :=
  (h.1 5 (burstOf 9 1) 1000 tracking (calm_of rfl) (untracked_of rfl) rfl ⟨rfl, rfl, rfl, rfl, rfl⟩ (by decide)
    (.inr ⟨rfl, (by decide)⟩)).1 rfl

theorem witness_GoodSampleTracked_2 (h : Obligations.GoodSampleTracked) : type_of% (
    (h.1 5 (burstOf 17 1) 1000 { tracking with mu.params.biasEnable := true, mu.stillRun := 3 } (calm_of rfl)
      (untracked_of rfl) rfl ⟨rfl, rfl, rfl, rfl, rfl⟩ (by decide) (.inr ⟨rfl, (by decide)⟩)).2 rfl rfl) :=
  (h.1 5 (burstOf 17 1) 1000 { tracking with mu.params.biasEnable := true, mu.stillRun := 3 } (calm_of rfl)
    (untracked_of rfl) rfl ⟨rfl, rfl, rfl, rfl, rfl⟩ (by decide) (.inr ⟨rfl, (by decide)⟩)).2 rfl rfl

theorem witness_GoodSampleTracked_3 (h : Obligations.GoodSampleTracked) : type_of% (
    (h.2 5 (burstOf 16 1) 1000 { tracking with mu.params.biasEnable := true, mu.stillRun := 2046 } _ _ (calm_of rfl)
      (untracked_of rfl) rfl ⟨rfl, rfl, rfl, rfl, rfl⟩ (by decide) (.inr ⟨rfl, (by decide)⟩) rfl rfl
      ⟨(by decide), (by decide), (by decide)⟩ rfl).1 (by decide)) :=
  (h.2 5 (burstOf 16 1) 1000 { tracking with mu.params.biasEnable := true, mu.stillRun := 2046 } _ _ (calm_of rfl)
    (untracked_of rfl) rfl ⟨rfl, rfl, rfl, rfl, rfl⟩ (by decide) (.inr ⟨rfl, (by decide)⟩) rfl rfl
    ⟨(by decide), (by decide), (by decide)⟩ rfl).1 (by decide)

theorem witness_GoodSampleTracked_4 (h : Obligations.GoodSampleTracked) : type_of% (
    (h.2 5 (burstOf 16 1) 1000
      { tracking with
        mu.params.biasEnable := true, mu.stillRun := 2047, mu.stillSums := ⟨30000, -90000, 5⟩ } _ _ (calm_of rfl)
      (untracked_of rfl) rfl ⟨rfl, rfl, rfl, rfl, rfl⟩ (by decide) (.inr ⟨rfl, (by decide)⟩) rfl rfl
      ⟨(by decide), (by decide), (by decide)⟩ rfl).2 (by decide)) :=
  (h.2 5 (burstOf 16 1) 1000
    { tracking with
      mu.params.biasEnable := true, mu.stillRun := 2047, mu.stillSums := ⟨30000, -90000, 5⟩ } _ _ (calm_of rfl)
    (untracked_of rfl) rfl ⟨rfl, rfl, rfl, rfl, rfl⟩ (by decide) (.inr ⟨rfl, (by decide)⟩) rfl rfl
    ⟨(by decide), (by decide), (by decide)⟩ rfl).2 (by decide)

theorem witness_MissingSampleHeld_1 (h : Obligations.MissingSampleHeld) : type_of% (
    (h 5 (burstOf 9 1) 1000 ⟨⟨3, -4, 5⟩, 0, 0, 0⟩
      { tracking with
        mu.lastGood := some ⟨⟨3, -4, 5⟩, 0, 0, 0⟩, mu.lastCounter := some 7, mu.missingRun := 6 } (calm_of rfl)
      (untracked_of rfl) rfl ⟨rfl, rfl, rfl, rfl, rfl⟩ rfl (by decide) rfl).1 (by decide)) :=
  (h 5 (burstOf 9 1) 1000 ⟨⟨3, -4, 5⟩, 0, 0, 0⟩
    { tracking with
      mu.lastGood := some ⟨⟨3, -4, 5⟩, 0, 0, 0⟩, mu.lastCounter := some 7, mu.missingRun := 6 } (calm_of rfl)
    (untracked_of rfl) rfl ⟨rfl, rfl, rfl, rfl, rfl⟩ rfl (by decide) rfl).1 (by decide)

theorem witness_MissingSampleHeld_2 (h : Obligations.MissingSampleHeld) : type_of% (
    (h 5 (burstOf 9 1) 1000 ⟨⟨3, -4, 5⟩, 0, 0, 0⟩
      { tracking with
        mu.lastGood := some ⟨⟨3, -4, 5⟩, 0, 0, 0⟩, mu.lastCounter := some 7, mu.missingRun := 7 } (calm_of rfl)
      (untracked_of rfl) rfl ⟨rfl, rfl, rfl, rfl, rfl⟩ rfl (by decide) rfl).2 (by decide)) :=
  (h 5 (burstOf 9 1) 1000 ⟨⟨3, -4, 5⟩, 0, 0, 0⟩
    { tracking with
      mu.lastGood := some ⟨⟨3, -4, 5⟩, 0, 0, 0⟩, mu.lastCounter := some 7, mu.missingRun := 7 } (calm_of rfl)
    (untracked_of rfl) rfl ⟨rfl, rfl, rfl, rfl, rfl⟩ rfl (by decide) rfl).2 (by decide)

theorem witness_GoodRunTracks_1 (h : Obligations.GoodRunTracks) : type_of% (
    (h 5 (burstOf 9 1) 1000 { tracking with mu.link := .starting, mu.goodRun := 3 } (calm_of rfl) (untracked_of rfl)
      ⟨rfl, rfl, rfl, rfl, rfl⟩ (by decide) (.inr ⟨rfl, (by decide)⟩) rfl rfl).1 rfl rfl) :=
  (h 5 (burstOf 9 1) 1000 { tracking with mu.link := .starting, mu.goodRun := 3 } (calm_of rfl) (untracked_of rfl)
    ⟨rfl, rfl, rfl, rfl, rfl⟩ (by decide) (.inr ⟨rfl, (by decide)⟩) rfl rfl).1 rfl rfl

theorem witness_GoodRunTracks_2 (h : Obligations.GoodRunTracks) : type_of% (
    (h 5 (burstOf 9 1) 1000 { tracking with mu.link := .lost, mu.goodRun := 3, mu.acc := ⟨1, 2, 3⟩ } (calm_of rfl)
      (untracked_of rfl) ⟨rfl, rfl, rfl, rfl, rfl⟩ (by decide) (.inr ⟨rfl, (by decide)⟩) rfl rfl).2 rfl) :=
  (h 5 (burstOf 9 1) 1000 { tracking with mu.link := .lost, mu.goodRun := 3, mu.acc := ⟨1, 2, 3⟩ } (calm_of rfl)
    (untracked_of rfl) ⟨rfl, rfl, rfl, rfl, rfl⟩ (by decide) (.inr ⟨rfl, (by decide)⟩) rfl rfl).2 rfl

theorem witness_ImpactRun_1 (h : Obligations.ImpactRun) : type_of% (
    ((h 5 (burstOf 0 0x40) 1000 _ tracking (calm_of rfl) (untracked_of rfl) rfl ⟨rfl, rfl, rfl, rfl, rfl⟩ (by decide)
      rfl rfl).1 (.inl rfl)).1 (by decide) (by decide)) :=
  ((h 5 (burstOf 0 0x40) 1000 _ tracking (calm_of rfl) (untracked_of rfl) rfl ⟨rfl, rfl, rfl, rfl, rfl⟩ (by decide)
    rfl rfl).1 (.inl rfl)).1 (by decide) (by decide)

theorem witness_ImpactRun_2 (h : Obligations.ImpactRun) : type_of% (
    (h 5 (burstOf 0 0x40) 1000 _ { tracking with mu.detector := .counting, mu.impactRun := 2, mu.impactPeak := 5 }
      (calm_of rfl) (untracked_of rfl) rfl ⟨rfl, rfl, rfl, rfl, rfl⟩ (by decide) rfl rfl).2.2.2.2.1 rfl (by decide)
      (by decide)) :=
  (h 5 (burstOf 0 0x40) 1000 _ { tracking with mu.detector := .counting, mu.impactRun := 2, mu.impactPeak := 5 }
    (calm_of rfl) (untracked_of rfl) rfl ⟨rfl, rfl, rfl, rfl, rfl⟩ (by decide) rfl rfl).2.2.2.2.1 rfl (by decide)
    (by decide)

theorem witness_ImpactRun_3 (h : Obligations.ImpactRun) : type_of% (
    (h 5 (burstOf 0 0x20) 1000 _ { tracking with mu.detector := .counting, mu.impactRun := 2 } (calm_of rfl)
      (untracked_of rfl) rfl ⟨rfl, rfl, rfl, rfl, rfl⟩ (by decide) rfl rfl).2.2.2.2.2.1 rfl (by decide)) :=
  (h 5 (burstOf 0 0x20) 1000 _ { tracking with mu.detector := .counting, mu.impactRun := 2 } (calm_of rfl)
    (untracked_of rfl) rfl ⟨rfl, rfl, rfl, rfl, rfl⟩ (by decide) rfl rfl).2.2.2.2.2.1 rfl (by decide)

theorem witness_ImpactRun_4 (h : Obligations.ImpactRun) : type_of% (
    (h 5 (burstOf 0 0x20) 1000 _ { tracking with mu.detector := .declared, mu.impactPeak := 70000000 } (calm_of rfl)
      (untracked_of rfl) rfl ⟨rfl, rfl, rfl, rfl, rfl⟩ (by decide) rfl rfl).2.2.2.2.2.2.1 rfl (by decide) (by decide)) :=
  (h 5 (burstOf 0 0x20) 1000 _ { tracking with mu.detector := .declared, mu.impactPeak := 70000000 } (calm_of rfl)
    (untracked_of rfl) rfl ⟨rfl, rfl, rfl, rfl, rfl⟩ (by decide) rfl rfl).2.2.2.2.2.2.1 rfl (by decide) (by decide)

theorem witness_ImpactRun_5 (h : Obligations.ImpactRun) : type_of% (
    (h 5 (burstOf 0 0x20) 1000 _
      { tracking with
        mu.detector := .declared, mu.impactFirst := 900, mu.impactPeak := 70000000
        sm := (served .recording []).sm, cw.writer := .recording } (calm_of rfl) (untracked_of rfl) rfl
      ⟨rfl, rfl, rfl, rfl, rfl⟩ (by decide) rfl rfl).2.2.2.2.2.2.2 rfl (by decide) rfl rfl (by decide) ⟨(by decide), rfl⟩
      (by decide) ⟨rfl, (by decide)⟩) :=
  (h 5 (burstOf 0 0x20) 1000 _
    { tracking with
      mu.detector := .declared, mu.impactFirst := 900, mu.impactPeak := 70000000
      sm := (served .recording []).sm, cw.writer := .recording } (calm_of rfl) (untracked_of rfl) rfl
    ⟨rfl, rfl, rfl, rfl, rfl⟩ (by decide) rfl rfl).2.2.2.2.2.2.2 rfl (by decide) rfl rfl (by decide) ⟨(by decide), rfl⟩
    (by decide) ⟨rfl, (by decide)⟩

theorem witness_ImpactRun_6 (h : Obligations.ImpactRun) : type_of% (
    (((h 5 (burstOf 0 0x40) 1000 _ { tracking with mu.params.persistence := 1 } (calm_of rfl) (untracked_of rfl) rfl
      ⟨rfl, rfl, rfl, rfl, rfl⟩ (by decide) rfl rfl)).1 (.inl rfl)).2.1 (by decide) (by decide)) :=
  (((h 5 (burstOf 0 0x40) 1000 _ { tracking with mu.params.persistence := 1 } (calm_of rfl) (untracked_of rfl) rfl
      ⟨rfl, rfl, rfl, rfl, rfl⟩ (by decide) rfl rfl)).1 (.inl rfl)).2.1 (by decide) (by decide)

theorem witness_ImpactRun_7 (h : Obligations.ImpactRun) : type_of% (
    (((h 5 (burstOf 0 0x40) 1000 _ { tracking with mu.detector := .holdOff, mu.holdOffEnd := 1000 } (calm_of rfl) (untracked_of rfl) rfl
      ⟨rfl, rfl, rfl, rfl, rfl⟩ (by decide) rfl rfl)).1 (.inr ⟨rfl, by decide⟩)).1 (by decide) (by decide)) :=
  (((h 5 (burstOf 0 0x40) 1000 _ { tracking with mu.detector := .holdOff, mu.holdOffEnd := 1000 } (calm_of rfl) (untracked_of rfl) rfl
      ⟨rfl, rfl, rfl, rfl, rfl⟩ (by decide) rfl rfl)).1 (.inr ⟨rfl, by decide⟩)).1 (by decide) (by decide)

theorem witness_ImpactRun_8 (h : Obligations.ImpactRun) : type_of% (
    (((h 5 (burstOf 0 0x20) 1000 _ { tracking with mu.detector := .holdOff, mu.holdOffEnd := 1000 } (calm_of rfl) (untracked_of rfl) rfl
      ⟨rfl, rfl, rfl, rfl, rfl⟩ (by decide) rfl rfl)).1 (.inr ⟨rfl, by decide⟩)).2.2 (by decide)) :=
  (((h 5 (burstOf 0 0x20) 1000 _ { tracking with mu.detector := .holdOff, mu.holdOffEnd := 1000 } (calm_of rfl) (untracked_of rfl) rfl
      ⟨rfl, rfl, rfl, rfl, rfl⟩ (by decide) rfl rfl)).1 (.inr ⟨rfl, by decide⟩)).2.2 (by decide)

theorem witness_ImpactRun_9 (h : Obligations.ImpactRun) : type_of% (
    ((h 5 (burstOf 0 0x40) 1000 _ { tracking with mu.detector := .holdOff, mu.holdOffEnd := 1001 } (calm_of rfl) (untracked_of rfl) rfl
      ⟨rfl, rfl, rfl, rfl, rfl⟩ (by decide) rfl rfl)).2.1 rfl (by decide)) :=
  ((h 5 (burstOf 0 0x40) 1000 _ { tracking with mu.detector := .holdOff, mu.holdOffEnd := 1001 } (calm_of rfl) (untracked_of rfl) rfl
      ⟨rfl, rfl, rfl, rfl, rfl⟩ (by decide) rfl rfl)).2.1 rfl (by decide)

theorem witness_ImpactRun_10 (h : Obligations.ImpactRun) : type_of% (
    ((h 5 (burstOf 0 0x40) 1000 _ { tracking with mu.detector := .counting, mu.impactRun := 1 } (calm_of rfl) (untracked_of rfl) rfl
      ⟨rfl, rfl, rfl, rfl, rfl⟩ (by decide) rfl rfl)).2.2.1 rfl (by decide) (by decide)) :=
  ((h 5 (burstOf 0 0x40) 1000 _ { tracking with mu.detector := .counting, mu.impactRun := 1 } (calm_of rfl) (untracked_of rfl) rfl
      ⟨rfl, rfl, rfl, rfl, rfl⟩ (by decide) rfl rfl)).2.2.1 rfl (by decide) (by decide)

theorem witness_ImpactRun_11 (h : Obligations.ImpactRun) : type_of% (
    ((h 5 (burstOf 0 0x40) 1000 _ { tracking with mu.detector := .declared, mu.impactPeak := 70000000 } (calm_of rfl) (untracked_of rfl) rfl
      ⟨rfl, rfl, rfl, rfl, rfl⟩ (by decide) rfl rfl)).2.2.2.1 rfl (by decide)) :=
  ((h 5 (burstOf 0 0x40) 1000 _ { tracking with mu.detector := .declared, mu.impactPeak := 70000000 } (calm_of rfl) (untracked_of rfl) rfl
      ⟨rfl, rfl, rfl, rfl, rfl⟩ (by decide) rfl rfl)).2.2.2.1 rfl (by decide)

theorem witness_ResetGrants_1 (h : Obligations.ResetGrants) : type_of% (
    (h.1 { at_ .idle with fe.rail := .starting, fe.settleEnd := some 5000 } (calm_of rfl)).1 5000 rfl rfl
      (by decide)) :=
  (h.1 { at_ .idle with fe.rail := .starting, fe.settleEnd := some 5000 } (calm_of rfl)).1 5000 rfl rfl (by decide)

theorem witness_ResetGrants_2 (h : Obligations.ResetGrants) : type_of% (
    (h.1 (at_ .idle) (calm_of rfl)).2 (.inl rfl)) :=
  (h.1 (at_ .idle) (calm_of rfl)).2 (.inl rfl)

theorem witness_ResetGrants_3 (h : Obligations.ResetGrants) : type_of% (
    (h.2 5 plain 900 [] { at_ .idle with fe.rail := .starting, fe.inFlight := some ⟨none, true, 900, []⟩ }
      (calm_of rfl) rfl (.inl rfl) (by decide)).1 rfl rfl) :=
  (h.2 5 plain 900 [] { at_ .idle with fe.rail := .starting, fe.inFlight := some ⟨none, true, 900, []⟩ }
    (calm_of rfl) rfl (.inl rfl) (by decide)).1 rfl rfl

theorem witness_ResetGrants_4 (h : Obligations.ResetGrants) : type_of% (
    ((h.2 5 plain 900 []
      { at_ .idle with
        fe.rail := .starting, fe.inFlight := some ⟨none, true, 900, []⟩
        fe.waiting := [⟨.eraser, .eraseBlock 16, 0⟩, ⟨.writer, .readPage 16 0, 0⟩] } (calm_of rfl) rfl (.inl rfl)
      (by decide)).2 ⟨.writer, .readPage 16 0, 0⟩ 1000 rfl).1 rfl rfl) :=
  ((h.2 5 plain 900 []
    { at_ .idle with
      fe.rail := .starting, fe.inFlight := some ⟨none, true, 900, []⟩
      fe.waiting := [⟨.eraser, .eraseBlock 16, 0⟩, ⟨.writer, .readPage 16 0, 0⟩] } (calm_of rfl) rfl (.inl rfl)
    (by decide)).2 ⟨.writer, .readPage 16 0, 0⟩ 1000 rfl).1 rfl rfl

theorem witness_ResetGrants_5 (h : Obligations.ResetGrants) : type_of% (
    ((h.2 5 plain 900 []
      { at_ .idle with
        fe.rail := .busy, fe.inFlight := some ⟨some ⟨.eraser, .eraseBlock 16, 0⟩, true, 900, []⟩ } (calm_of rfl) rfl
      (.inl rfl) (by decide)).2 ⟨.eraser, .eraseBlock 16, 0⟩ 20000 rfl).2 rfl) :=
  ((h.2 5 plain 900 []
    { at_ .idle with
      fe.rail := .busy, fe.inFlight := some ⟨some ⟨.eraser, .eraseBlock 16, 0⟩, true, 900, []⟩ } (calm_of rfl) rfl
    (.inl rfl) (by decide)).2 ⟨.eraser, .eraseBlock 16, 0⟩ 20000 rfl).2 rfl

theorem witness_MountReads_1 (h : Obligations.MountReads) : type_of% (
    (h.1 5 #v[0x6B, 0x3D, 0x51, 0x0E] ⟨true, false⟩ 0 900 []
      { working .mountReader .readId with
        part.state := .mounting, fe.identity := .unchecked, sm.mount := some .readId, sm.table := .mounting }
      (still_of rfl) rfl rfl rfl rfl rfl rfl rfl rfl (by decide)).1 rfl rfl) :=
  (h.1 5 #v[0x6B, 0x3D, 0x51, 0x0E] ⟨true, false⟩ 0 900 []
    { working .mountReader .readId with
      part.state := .mounting, fe.identity := .unchecked, sm.mount := some .readId, sm.table := .mounting }
    (still_of rfl) rfl rfl rfl rfl rfl rfl rfl rfl (by decide)).1 rfl rfl

theorem witness_MountReads_2 (h : Obligations.MountReads) : type_of% (
    (h.1 5 #v[0x6B, 0x3D, 0x51, 0x0F] ⟨true, true⟩ 0 900 []
      { working .mountReader .readId with
        part.state := .mounting, fe.identity := .unchecked, sm.mount := some .readId, sm.table := .mounting
        sm.view := some 512 } (still_of rfl) rfl rfl rfl rfl rfl rfl rfl rfl (by decide)).2 (by decide) rfl rfl
      (unowed_of rfl) rfl) :=
  (h.1 5 #v[0x6B, 0x3D, 0x51, 0x0F] ⟨true, true⟩ 0 900 []
    { working .mountReader .readId with
      part.state := .mounting, fe.identity := .unchecked, sm.mount := some .readId, sm.table := .mounting
      sm.view := some 512 } (still_of rfl) rfl rfl rfl rfl rfl rfl rfl rfl (by decide)).2 (by decide) rfl rfl
    (unowed_of rfl) rfl

theorem witness_MountReads_3 (h : Obligations.MountReads) : type_of% (
    h.2 5 ⟨[⟨[0xFF], [0], .uncorrectable⟩]⟩ plain 14 3 0 900 [] [] [(13, 0)]
      { working .mountReader (.readPage 14 3) with
        part.state := .mounting, sm.mount := some (.tableArea 14 3 [] [(13, 0)]) } (still_of rfl) rfl rfl
      (by decide) rfl rfl rfl rfl rfl rfl rfl rfl (by decide) rfl) :=
  h.2 5 ⟨[⟨[0xFF], [0], .uncorrectable⟩]⟩ plain 14 3 0 900 [] [] [(13, 0)]
    { working .mountReader (.readPage 14 3) with
      part.state := .mounting, sm.mount := some (.tableArea 14 3 [] [(13, 0)]) } (still_of rfl) rfl rfl (by decide)
    rfl rfl rfl rfl rfl rfl rfl rfl (by decide) rfl

theorem witness_ErasedPage_1 (h : Obligations.ErasedPage) : type_of% (
    (h ⟨[⟨[0xFF], [0], .uncorrectable⟩]⟩).1 (by decide)) :=
  (h ⟨[⟨[0xFF], [0], .uncorrectable⟩]⟩).1 (by decide)

theorem witness_ErasedPage_2 (h : Obligations.ErasedPage) : type_of% (
    (h ⟨[⟨[0xFE], [0], .corrected 1 [0xFF]⟩]⟩).2 (by decide)) :=
  (h ⟨[⟨[0xFE], [0], .corrected 1 [0xFF]⟩]⟩).2 (by decide)

theorem witness_MarkerSurveyed_1 (h : Obligations.MarkerSurveyed) : exec (.readMarkerDone 5 0xFF plain) (surveying
    15) = .next { (surveying 15).advance 5 with
      fe.timeouts := 0, fe.idle := (surveying 15).fe.idleLoad, fe.rail := .busy, fe.inFlight := some ⟨some
      ⟨.mountReader, .readMarker 16, 5⟩, false, 1005, []⟩, sm.format := some (.survey 16) } := by
  obtain ⟨u, rfl, a, _⟩ := (h 5 0xFF plain 15 0 900 [] formatTaken (surveying 15) (by decide) rfl rfl rfl rfl rfl
      rfl rfl rfl rfl (by decide) rfl rfl rfl rfl rfl rfl rfl rfl (by decide)).1
  exact a rfl

theorem witness_MarkerSurveyed_2 (h : Obligations.MarkerSurveyed) : ∃ u : State, exec (.readMarkerDone 5 0xFE plain)
    (surveying 16) = .next { u with fe.bad := [16], fe.pool := [] } := by
  obtain ⟨u, _, _, a, _⟩ := (h 5 0xFE plain 16 0 900 [] formatTaken (surveying 16) (by decide) rfl rfl rfl rfl rfl
      rfl rfl rfl rfl (by decide) rfl rfl rfl rfl rfl rfl rfl rfl (by decide)).1
  exact ⟨u, a (by decide) (by decide) (by decide) (by decide)⟩

theorem witness_MarkerSurveyed_3 (h : Obligations.MarkerSurveyed) : ∃ u : State, exec (.readMarkerDone 5 0 plain) {
    surveying 16 with fe.bad := [16] } = .next { u with fe.pool := [] } := by
  obtain ⟨u, _, _, _, a, _⟩ := (h 5 0 plain 16 0 900 [] formatTaken { surveying 16 with fe.bad := [16] } (by decide)
      rfl rfl rfl rfl rfl rfl rfl rfl rfl (by decide) rfl rfl rfl rfl rfl rfl rfl rfl (by decide)).1
  exact ⟨u, a (by decide) (by decide) (by decide)⟩

theorem witness_MarkerSurveyed_4 (h : Obligations.MarkerSurveyed) : ∃ u : State, exec (.readMarkerDone 5 0 plain)
    (surveying 15) = .next { u with fe.tableMap := 0x7FFF } := by
  obtain ⟨u, _, _, _, _, a⟩ := (h 5 0 plain 15 0 900 [] formatTaken (surveying 15) (by decide) rfl rfl rfl rfl rfl
      rfl rfl rfl rfl (by decide) rfl rfl rfl rfl rfl rfl rfl rfl (by decide)).1
  exact ⟨u, (a _ (by decide) (by decide) rfl).trans (congrArg _ (if_pos (Or.inl (by decide))))⟩

theorem witness_MarkerSurveyed_5 (h : Obligations.MarkerSurveyed) : ∃ u : State, exec (.readMarkerDone 5 0 plain) {
    surveying 15 with fe.tableMap := 0x8001 } = .next (State.raise { u with fe.tableMap := 1, fe.worn := true }
    .flashFault) := by
  obtain ⟨u, _, _, _, _, a⟩ := (h 5 0 plain 15 0 900 [] formatTaken { surveying 15 with fe.tableMap := 0x8001 } (by
      decide) rfl rfl rfl rfl rfl rfl rfl rfl rfl (by decide) rfl rfl rfl rfl rfl rfl rfl rfl (by decide)).1
  exact ⟨u, (a _ (by decide) (by decide) rfl).trans (congrArg _ (if_neg (by decide)))⟩

theorem witness_MarkerSurveyed_6 (h : Obligations.MarkerSurveyed) : type_of% (
    (h 5 0 plain 17 0 900 [] formatTaken { surveying 17 with fe.bad := List.replicate 512 16 } (by decide) rfl rfl
      rfl rfl rfl rfl rfl rfl rfl (by decide) rfl rfl rfl rfl rfl rfl rfl rfl (by decide)).2 (by decide) (by decide)
      (fun k => absurd (List.eq_of_mem_replicate k) (by decide)) (Nat.le_of_eq List.length_replicate.symm) rfl rfl
      rfl rfl rfl (unowed_of rfl) rfl _ _ rfl rfl (fun _ k => by cases k; decide +kernel)) :=
  (h 5 0 plain 17 0 900 [] formatTaken { surveying 17 with fe.bad := List.replicate 512 16 } (by decide) rfl rfl rfl
    rfl rfl rfl rfl rfl rfl (by decide) rfl rfl rfl rfl rfl rfl rfl rfl (by decide)).2 (by decide) (by decide)
    (fun k => absurd (List.eq_of_mem_replicate k) (by decide)) (Nat.le_of_eq List.length_replicate.symm) rfl rfl rfl
    rfl rfl (unowed_of rfl) rfl _ _ rfl rfl (fun _ k => by cases k; decide +kernel)

theorem witness_BlockRetired_1 (h : Obligations.BlockRetired) : type_of% (
    (h 16 { at_ .idle with fe.bad := [16] }).1 (by decide) (by decide)) :=
  (h 16 { at_ .idle with fe.bad := [16] }).1 (by decide) (by decide)

theorem witness_BlockRetired_2 (h : Obligations.BlockRetired) : type_of% (
    (h 16383 { at_ .idle with fe.bad := List.replicate 511 16, fe.pool := [16383] }).2.1 (by decide)
      (fun k => absurd (List.eq_of_mem_replicate k) (by decide))
      (Nat.lt_of_le_of_lt (Nat.le_of_eq List.length_replicate) (by decide))) :=
  (h 16383 { at_ .idle with fe.bad := List.replicate 511 16, fe.pool := [16383] }).2.1 (by decide)
    (fun k => absurd (List.eq_of_mem_replicate k) (by decide))
    (Nat.lt_of_le_of_lt (Nat.le_of_eq List.length_replicate) (by decide))

theorem witness_BlockRetired_3 (h : Obligations.BlockRetired) : type_of% (
    (h 17 { at_ .idle with fe.bad := List.replicate 512 16 }).2.2.1 (by decide)
      (fun k => absurd (List.eq_of_mem_replicate k) (by decide)) (Nat.le_of_eq List.length_replicate.symm)) :=
  (h 17 { at_ .idle with fe.bad := List.replicate 512 16 }).2.2.1 (by decide)
    (fun k => absurd (List.eq_of_mem_replicate k) (by decide)) (Nat.le_of_eq List.length_replicate.symm)

theorem witness_BlockRetired_4 (h : Obligations.BlockRetired) : type_of% (
    (h 15 (at_ .idle)).2.2.2 (by decide)) :=
  (h 15 (at_ .idle)).2.2.2 (by decide)

theorem witness_PageProgrammed_1 (h : Obligations.PageProgrammed) : type_of% (
    h.1 5 plain ⟨.writer, .programPage 16 0 [] [], 0⟩ 900 8192 [] mediaTaken (filled .recording) _ _
      (resting_of rfl) rfl rfl List.length_replicate rfl rfl (by decide) rfl rfl rfl rfl rfl rfl rfl rfl rfl
      (by decide) (by decide) (.inl (by decide)) rfl rfl (fun _ k => by cases k; decide +kernel)) :=
  h.1 5 plain ⟨.writer, .programPage 16 0 [] [], 0⟩ 900 8192 [] mediaTaken (filled .recording) _ _ (resting_of rfl)
    rfl rfl List.length_replicate rfl rfl (by decide) rfl rfl rfl rfl rfl rfl rfl rfl rfl (by decide) (by decide)
    (.inl (by decide)) rfl rfl (fun _ k => by cases k; decide +kernel)

theorem witness_PageProgrammed_2 (h : Obligations.PageProgrammed) : type_of% (
    h.1 5 ⟨true, true⟩ ⟨.writer, .programPage 16 0 [] [], 0⟩ 900 8192 [] mediaTaken
      { filled .recording with
        sm.segments := [segOf .opened 16] } _ _ (resting_of rfl) rfl rfl List.length_replicate rfl rfl (by decide)
      rfl rfl rfl rfl rfl rfl rfl rfl rfl (by decide) (by decide) (.inr fun g e => by cases e; decide) rfl rfl
      (fun _ k => by cases k; decide +kernel)) :=
  h.1 5 ⟨true, true⟩ ⟨.writer, .programPage 16 0 [] [], 0⟩ 900 8192 [] mediaTaken
    { filled .recording with
      sm.segments := [segOf .opened 16] } _ _ (resting_of rfl) rfl rfl List.length_replicate rfl rfl (by decide) rfl
    rfl rfl rfl rfl rfl rfl rfl rfl (by decide) (by decide) (.inr fun g e => by cases e; decide) rfl rfl
    (fun _ k => by cases k; decide +kernel)

theorem witness_PageProgrammed_3 (h : Obligations.PageProgrammed) : type_of% (
    (h.2 5 plain ⟨.writer, .programPage 16 0 [] [], 0⟩ ⟨.tableWriter, .programPage 0 0 [] [], 7⟩ 900 0 0 16 []
      (segOf .opened 16) ⟨0, 0, 1, 16, 30, .erase, 5, none⟩ failing _ (resting_of rfl) rfl rfl rfl rfl rfl rfl rfl
      rfl rfl rfl rfl rfl rfl rfl rfl (by decide) rfl rfl rfl (by decide) ⟨(by decide), rfl⟩ rfl).1 30 [31]
      (.inl ⟨rfl, rfl, rfl⟩) (by decide) (by decide) (by decide) rfl) :=
  (h.2 5 plain ⟨.writer, .programPage 16 0 [] [], 0⟩ ⟨.tableWriter, .programPage 0 0 [] [], 7⟩ 900 0 0 16 []
    (segOf .opened 16) ⟨0, 0, 1, 16, 30, .erase, 5, none⟩ failing _ (resting_of rfl) rfl rfl rfl rfl rfl rfl rfl rfl
    rfl rfl rfl rfl rfl rfl rfl (by decide) rfl rfl rfl (by decide) ⟨(by decide), rfl⟩ rfl).1 30 [31]
    (.inl ⟨rfl, rfl, rfl⟩) (by decide) (by decide) (by decide) rfl

theorem witness_PageProgrammed_4 (h : Obligations.PageProgrammed) : type_of% (
    (h.2 5 plain ⟨.writer, .programPage 16 0 [] [], 0⟩ ⟨.tableWriter, .programPage 0 0 [] [], 7⟩ 900 0 0 16 []
      (segOf .opened 16) ⟨0, 0, 3, 9, 30, .erase, 5, none⟩
      { failing with
        cw.reloc := some ⟨0, 0, 2, 9, 16, .last, 5, none⟩ } _ (resting_of rfl) rfl rfl rfl rfl rfl rfl rfl rfl rfl
      rfl rfl rfl rfl rfl rfl (by decide) rfl rfl rfl (by decide) ⟨(by decide), rfl⟩ rfl).1 30 [31]
      (.inr ⟨_, rfl, rfl, (by decide), rfl⟩) (by decide) (by decide) (by decide) rfl) :=
  (h.2 5 plain ⟨.writer, .programPage 16 0 [] [], 0⟩ ⟨.tableWriter, .programPage 0 0 [] [], 7⟩ 900 0 0 16 []
    (segOf .opened 16) ⟨0, 0, 3, 9, 30, .erase, 5, none⟩
    { failing with
      cw.reloc := some ⟨0, 0, 2, 9, 16, .last, 5, none⟩ } _ (resting_of rfl) rfl rfl rfl rfl rfl rfl rfl rfl rfl rfl
    rfl rfl rfl rfl rfl (by decide) rfl rfl rfl (by decide) ⟨(by decide), rfl⟩ rfl).1 30 [31]
    (.inr ⟨_, rfl, rfl, (by decide), rfl⟩) (by decide) (by decide) (by decide) rfl

theorem witness_PageProgrammed_5 (h : Obligations.PageProgrammed) : type_of% (
    (h.2 5 plain ⟨.writer, .programPage 16 0 [] [], 0⟩ ⟨.tableWriter, .programPage 0 0 [] [], 7⟩ 900 0 0 16 []
      (segOf .opened 16) ⟨0, 0, 3, 9, 16, .last, 5, none⟩
      { failing with
        cw.reloc := some ⟨0, 0, 3, 9, 16, .last, 5, none⟩ } _ (resting_of rfl) rfl rfl rfl rfl rfl rfl rfl rfl rfl
      rfl rfl rfl rfl rfl rfl (by decide) rfl rfl rfl (by decide) ⟨(by decide), rfl⟩ rfl).2 2 0 _ mediaShort _ _ _ _
      _ _ (.inl ⟨rfl, (by decide), rfl, rfl, rfl⟩) (fun _ => rfl) (fun h => (h rfl).elim) rfl rfl rfl rfl
      (by decide) rfl rfl (by decide) (by decide) rfl rfl rfl (fun _ k => by cases k; decide +kernel)) :=
  (h.2 5 plain ⟨.writer, .programPage 16 0 [] [], 0⟩ ⟨.tableWriter, .programPage 0 0 [] [], 7⟩ 900 0 0 16 []
    (segOf .opened 16) ⟨0, 0, 3, 9, 16, .last, 5, none⟩
    { failing with
      cw.reloc := some ⟨0, 0, 3, 9, 16, .last, 5, none⟩ } _ (resting_of rfl) rfl rfl rfl rfl rfl rfl rfl rfl rfl rfl
    rfl rfl rfl rfl rfl (by decide) rfl rfl rfl (by decide) ⟨(by decide), rfl⟩ rfl).2 2 0 _ mediaShort _ _ _ _ _ _
    (.inl ⟨rfl, (by decide), rfl, rfl, rfl⟩) (fun _ => rfl) (fun h => (h rfl).elim) rfl rfl rfl rfl (by decide) rfl
    rfl (by decide) (by decide) rfl rfl rfl (fun _ k => by cases k; decide +kernel)

theorem witness_PageProgrammed_6 (h : Obligations.PageProgrammed) : type_of% (
    (h.2 5 plain ⟨.writer, .programPage 17 0 [] [], 0⟩ ⟨.tableWriter, .programPage 0 0 [] [], 7⟩ 900 0 1 17 []
      (segOf .opened 16) ⟨0, 0, 3, 9, 16, .last, 5, none⟩
      { failing with
        fe.inFlight := flying .writer (.programPage 17 0 [] []), fe.pool := [], sm.openFill := 256
        cw.blockEnd := some ⟨false, 0, 1, 255, some 0, some 9, 3, 2097152⟩ } _ (resting_of rfl) rfl rfl rfl rfl rfl
      rfl rfl rfl rfl rfl rfl rfl rfl rfl rfl (by decide) rfl rfl rfl (by decide) ⟨(by decide), rfl⟩ rfl).2 2 0 _
      mediaShort _ _ _ _ _ _ (.inr ⟨rfl, rfl, (by decide), (by decide), (by decide), rfl, rfl, rfl⟩)
      (fun h => by cases h) (fun _ => ⟨_, rfl, rfl⟩) rfl rfl rfl rfl (by decide) rfl rfl (by decide) (by decide) rfl
      rfl rfl (fun _ k => by cases k; decide +kernel)) :=
  (h.2 5 plain ⟨.writer, .programPage 17 0 [] [], 0⟩ ⟨.tableWriter, .programPage 0 0 [] [], 7⟩ 900 0 1 17 []
    (segOf .opened 16) ⟨0, 0, 3, 9, 16, .last, 5, none⟩
    { failing with
      fe.inFlight := flying .writer (.programPage 17 0 [] []), fe.pool := [], sm.openFill := 256
      cw.blockEnd := some ⟨false, 0, 1, 255, some 0, some 9, 3, 2097152⟩ } _ (resting_of rfl) rfl rfl rfl rfl rfl
    rfl rfl rfl rfl rfl rfl rfl rfl rfl rfl (by decide) rfl rfl rfl (by decide) ⟨(by decide), rfl⟩ rfl).2 2 0 _
    mediaShort _ _ _ _ _ _ (.inr ⟨rfl, rfl, (by decide), (by decide), (by decide), rfl, rfl, rfl⟩)
    (fun h => by cases h) (fun _ => ⟨_, rfl, rfl⟩) rfl rfl rfl rfl (by decide) rfl rfl (by decide) (by decide) rfl
    rfl rfl (fun _ k => by cases k; decide +kernel)

theorem witness_SegmentErased_1 (h : Obligations.SegmentErased) : type_of% (
    ((h.1 5 plain 0 0 16 0 900 5 [] (segOf .erasing 16) (erasing 0) _ (calm_of rfl) rfl rfl rfl rfl rfl rfl
      (by decide) rfl rfl rfl rfl rfl rfl rfl (by decide) rfl rfl rfl).1 ⟨.tableWriter, .programPage 0 0 [] [], 7⟩ _
      _ (by decide) rfl rfl rfl).1 17 rfl) :=
  ((h.1 5 plain 0 0 16 0 900 5 [] (segOf .erasing 16) (erasing 0) _ (calm_of rfl) rfl rfl rfl rfl rfl rfl
    (by decide) rfl rfl rfl rfl rfl rfl rfl (by decide) rfl rfl rfl).1 ⟨.tableWriter, .programPage 0 0 [] [], 7⟩ _ _
    (by decide) rfl rfl rfl).1 17 rfl

theorem witness_SegmentErased_2 (h : Obligations.SegmentErased) : type_of% (
    ((h.1 5 plain 0 1 17 0 900 5 [] (segOf .erasing 16) (erasing 1) _ (calm_of rfl) rfl rfl rfl rfl rfl rfl
      (by decide) rfl rfl rfl rfl rfl rfl rfl (by decide) rfl rfl rfl).1 ⟨.tableWriter, .programPage 0 0 [] [], 7⟩ _
      _ (by decide) rfl rfl rfl).2.1 rfl (by decide)) :=
  ((h.1 5 plain 0 1 17 0 900 5 [] (segOf .erasing 16) (erasing 1) _ (calm_of rfl) rfl rfl rfl rfl rfl rfl
    (by decide) rfl rfl rfl rfl rfl rfl rfl (by decide) rfl rfl rfl).1 ⟨.tableWriter, .programPage 0 0 [] [], 7⟩ _ _
    (by decide) rfl rfl rfl).2.1 rfl (by decide)

theorem witness_SegmentErased_3 (h : Obligations.SegmentErased) : type_of% (
    ((h.1 5 plain 0 0 16 0 900 5 [] (segOf .erasing 16) { erasing 0 with sm.snapshot := none, fe.waiting := [] } _
      (calm_of rfl) rfl rfl rfl rfl rfl rfl (by decide) rfl rfl rfl rfl rfl rfl rfl (by decide) rfl rfl rfl).2 rfl
      rfl rfl).1 17 rfl) :=
  ((h.1 5 plain 0 0 16 0 900 5 [] (segOf .erasing 16) { erasing 0 with sm.snapshot := none, fe.waiting := [] } _
    (calm_of rfl) rfl rfl rfl rfl rfl rfl (by decide) rfl rfl rfl rfl rfl rfl rfl (by decide) rfl rfl rfl).2 rfl rfl
    rfl).1 17 rfl

theorem witness_SegmentErased_4 (h : Obligations.SegmentErased) : type_of% (
    (((h.1 5 plain 0 1 17 0 900 5 [] (segOf .erasing 16) { erasing 1 with sm.snapshot := none, fe.waiting := [] } _
      (calm_of rfl) rfl rfl rfl rfl rfl rfl (by decide) rfl rfl rfl rfl rfl rfl rfl (by decide) rfl rfl rfl).2 rfl
      rfl rfl).2 _ _ _ rfl rfl (by decide) rfl rfl (by decide) rfl (by decide +kernel) rfl).1 rfl rfl) :=
  (((h.1 5 plain 0 1 17 0 900 5 [] (segOf .erasing 16) { erasing 1 with sm.snapshot := none, fe.waiting := [] } _
    (calm_of rfl) rfl rfl rfl rfl rfl rfl (by decide) rfl rfl rfl rfl rfl rfl rfl (by decide) rfl rfl rfl).2 rfl rfl
    rfl).2 _ _ _ rfl rfl (by decide) rfl rfl (by decide) rfl (by decide +kernel) rfl).1 rfl rfl

theorem witness_SegmentErased_5 (h : Obligations.SegmentErased) : type_of% (
    (h.2.1 ⟨0, 0⟩ 1 16 0 (segOf .erasing 16) { erasing 0 with fe.pool := List.range' 18 16366 } placed_all
      ⟨(by decide), rfl⟩).1 rfl rfl) :=
  (h.2.1 ⟨0, 0⟩ 1 16 0 (segOf .erasing 16) { erasing 0 with fe.pool := List.range' 18 16366 } placed_all
    ⟨(by decide), rfl⟩).1 rfl rfl

theorem witness_SegmentErased_6 (h : Obligations.SegmentErased) : type_of% (
    (h.2.1 ⟨0, 0⟩ 1 16 0 (segOf .opened 16)
      { served .recording [] with
        sm.segments := [segOf .opened 16], fe.pool := List.range' 18 16366 } placed_all ⟨(by decide), rfl⟩).2 rfl
      rfl (by decide)) :=
  (h.2.1 ⟨0, 0⟩ 1 16 0 (segOf .opened 16)
    { served .recording [] with
      sm.segments := [segOf .opened 16], fe.pool := List.range' 18 16366 } placed_all ⟨(by decide), rfl⟩).2 rfl rfl
    (by decide)

theorem witness_SegmentErased_7 (h : Obligations.SegmentErased) : type_of% (
    h.2.2 64 [16, 16383] (by decide) rfl (by decide)) :=
  h.2.2 64 [16, 16383] (by decide) rfl (by decide)

theorem witness_SegmentErased_8 (h : Obligations.SegmentErased) : type_of% (
    ((((h.1 5 plain 0 0 16 0 900 5 [] (segOf .erasing 16) { erasing 0 with fe.pool := [30, 31] } _ (calm_of rfl) rfl rfl rfl rfl rfl rfl
      (by decide) rfl rfl rfl rfl rfl rfl rfl (by decide) rfl rfl rfl).1 ⟨.tableWriter, .programPage 0 0 [] [], 7⟩ _
      _ (by decide) rfl rfl rfl)).2.2 _ _ rfl (by decide) (by decide) (by decide) rfl rfl).1 (by decide) |>.1 30 [31] rfl (by decide)) :=
  ((((h.1 5 plain 0 0 16 0 900 5 [] (segOf .erasing 16) { erasing 0 with fe.pool := [30, 31] } _ (calm_of rfl) rfl rfl rfl rfl rfl rfl
      (by decide) rfl rfl rfl rfl rfl rfl rfl (by decide) rfl rfl rfl).1 ⟨.tableWriter, .programPage 0 0 [] [], 7⟩ _
      _ (by decide) rfl rfl rfl)).2.2 _ _ rfl (by decide) (by decide) (by decide) rfl rfl).1 (by decide) |>.1 30 [31] rfl (by decide)

theorem witness_SegmentErased_9 (h : Obligations.SegmentErased) : type_of% (
    ((((h.1 5 plain 0 0 16 0 900 5 [] (segOf .erasing 16) (erasing 0) _ (calm_of rfl) rfl rfl rfl rfl rfl rfl
      (by decide) rfl rfl rfl rfl rfl rfl rfl (by decide) rfl rfl rfl).1 ⟨.tableWriter, .programPage 0 0 [] [], 7⟩ _
      _ (by decide) rfl rfl rfl)).2.2 _ _ rfl (by decide) (by decide) (by decide) rfl rfl).1 (by decide) |>.2.1 rfl (by decide) |>.1 17 rfl) :=
  ((((h.1 5 plain 0 0 16 0 900 5 [] (segOf .erasing 16) (erasing 0) _ (calm_of rfl) rfl rfl rfl rfl rfl rfl
      (by decide) rfl rfl rfl rfl rfl rfl rfl (by decide) rfl rfl rfl).1 ⟨.tableWriter, .programPage 0 0 [] [], 7⟩ _
      _ (by decide) rfl rfl rfl)).2.2 _ _ rfl (by decide) (by decide) (by decide) rfl rfl).1 (by decide) |>.2.1 rfl (by decide) |>.1 17 rfl

theorem witness_SegmentErased_10 (h : Obligations.SegmentErased) : type_of% (
    ((((h.1 5 plain 0 1 17 0 900 5 [] (segOf .erasing 16) (erasing 1) _ (calm_of rfl) rfl rfl rfl rfl rfl rfl
      (by decide) rfl rfl rfl rfl rfl rfl rfl (by decide) rfl rfl rfl).1 ⟨.tableWriter, .programPage 0 0 [] [], 7⟩ _
      _ (by decide) rfl rfl rfl)).2.2 _ _ rfl (by decide) (by decide) (by decide) rfl rfl).1 (by decide) |>.2.1 rfl (by decide) |>.2 rfl) :=
  ((((h.1 5 plain 0 1 17 0 900 5 [] (segOf .erasing 16) (erasing 1) _ (calm_of rfl) rfl rfl rfl rfl rfl rfl
      (by decide) rfl rfl rfl rfl rfl rfl rfl (by decide) rfl rfl rfl).1 ⟨.tableWriter, .programPage 0 0 [] [], 7⟩ _
      _ (by decide) rfl rfl rfl)).2.2 _ _ rfl (by decide) (by decide) (by decide) rfl rfl).1 (by decide) |>.2.1 rfl (by decide) |>.2 rfl

theorem witness_SegmentErased_11 (h : Obligations.SegmentErased) : type_of% (
    ((((h.1 5 plain 0 0 16 0 900 5 [] (segOf .erasing 16) { erasing 0 with sm.bps := 3 } _ (calm_of rfl) rfl rfl rfl rfl rfl rfl
      (by decide) rfl rfl rfl rfl rfl rfl rfl (by decide) rfl rfl rfl).1 ⟨.tableWriter, .programPage 0 0 [] [], 7⟩ _
      _ (by decide) rfl rfl rfl)).2.2 _ _ rfl (by decide) (by decide) (by decide) rfl rfl).1 (by decide) |>.2.2 rfl (by decide) rfl (by decide)) :=
  ((((h.1 5 plain 0 0 16 0 900 5 [] (segOf .erasing 16) { erasing 0 with sm.bps := 3 } _ (calm_of rfl) rfl rfl rfl rfl rfl rfl
      (by decide) rfl rfl rfl rfl rfl rfl rfl (by decide) rfl rfl rfl).1 ⟨.tableWriter, .programPage 0 0 [] [], 7⟩ _
      _ (by decide) rfl rfl rfl)).2.2 _ _ rfl (by decide) (by decide) (by decide) rfl rfl).1 (by decide) |>.2.2 rfl (by decide) rfl (by decide)

theorem witness_SegmentErased_12 (h : Obligations.SegmentErased) : type_of% (
    ((((h.1 5 plain 0 0 16 0 900 5 [] (segOf .erasing 16) { erasing 0 with fe.bad := List.range' 100 512 } _ (calm_of rfl) rfl rfl rfl rfl rfl rfl
      (by decide) rfl rfl rfl rfl rfl rfl rfl (by decide) rfl rfl rfl).1 ⟨.tableWriter, .programPage 0 0 [] [], 7⟩ _
      _ (by decide) rfl rfl rfl)).2.2 _ _ rfl (by decide) (by simp [List.mem_range'_1]) (by decide) rfl rfl).2 _ (by simp) rfl (by simp [segOf, blankSegment, List.mem_range'_1]) rfl) :=
  ((((h.1 5 plain 0 0 16 0 900 5 [] (segOf .erasing 16) { erasing 0 with fe.bad := List.range' 100 512 } _ (calm_of rfl) rfl rfl rfl rfl rfl rfl
      (by decide) rfl rfl rfl rfl rfl rfl rfl (by decide) rfl rfl rfl).1 ⟨.tableWriter, .programPage 0 0 [] [], 7⟩ _
      _ (by decide) rfl rfl rfl)).2.2 _ _ rfl (by decide) (by simp [List.mem_range'_1]) (by decide) rfl rfl).2 _ (by simp) rfl (by simp [segOf, blankSegment, List.mem_range'_1]) rfl

theorem witness_SegmentErased_13 (h : Obligations.SegmentErased) : type_of% (
    (((h.1 5 plain 0 0 16 0 900 5 [] (segOf .erasing 16) { erasing 0 with sm.snapshot := none, fe.waiting := [], fe.pool := [30] } _ (calm_of rfl) rfl rfl rfl rfl rfl rfl
      (by decide) rfl rfl rfl rfl rfl rfl rfl (by decide) rfl rfl rfl)).2 rfl rfl rfl |>.2 _ _ _ rfl rfl (by decide) rfl rfl (by decide) rfl (by decide +kernel) rfl).2 30 [] rfl (by decide) (by decide) (by decide) (by decide) rfl rfl) :=
  (((h.1 5 plain 0 0 16 0 900 5 [] (segOf .erasing 16) { erasing 0 with sm.snapshot := none, fe.waiting := [], fe.pool := [30] } _ (calm_of rfl) rfl rfl rfl rfl rfl rfl
      (by decide) rfl rfl rfl rfl rfl rfl rfl (by decide) rfl rfl rfl)).2 rfl rfl rfl |>.2 _ _ _ rfl rfl (by decide) rfl rfl (by decide) rfl (by decide +kernel) rfl).2 30 [] rfl (by decide) (by decide) (by decide) (by decide) rfl rfl

theorem witness_OperationTimesOut_1 (h : Obligations.OperationTimesOut) : type_of% (
    h.1 plain (at_ .idle) (resting_of rfl) rfl) :=
  h.1 plain (at_ .idle) (resting_of rfl) rfl

theorem witness_OperationTimesOut_2 (h : Obligations.OperationTimesOut) : type_of% (
    (h.2.1 plain 900 0 0 0 none (.readPage 18 0) false [] (takenEntry 0 ⟨0, 7, 0, 1, 8, 4096, 0, 0⟩)
      { fetching with
        fe.timeouts := 1 } (by decide) rfl rfl rfl rfl rfl rfl rfl rfl rfl rfl rfl rfl rfl rfl rfl rfl rfl rfl
      (by decide) rfl rfl rfl rfl rfl rfl).1 (by decide)) :=
  (h.2.1 plain 900 0 0 0 none (.readPage 18 0) false [] (takenEntry 0 ⟨0, 7, 0, 1, 8, 4096, 0, 0⟩)
    { fetching with
      fe.timeouts := 1 } (by decide) rfl rfl rfl rfl rfl rfl rfl rfl rfl rfl rfl rfl rfl rfl rfl rfl rfl rfl
    (by decide) rfl rfl rfl rfl rfl rfl).1 (by decide)

theorem witness_OperationTimesOut_3 (h : Obligations.OperationTimesOut) : type_of% (
    (h.2.1 plain 900 0 0 0 none (.readPage 18 0) false [] (takenEntry 0 ⟨0, 7, 0, 1, 8, 4096, 0, 0⟩)
      { fetching with
        fe.timeouts := 2 } (by decide) rfl rfl rfl rfl rfl rfl rfl rfl rfl rfl rfl rfl rfl rfl rfl rfl rfl rfl
      (by decide) rfl rfl rfl rfl rfl rfl).2 (by decide) rfl rfl (unowed_of rfl)) :=
  (h.2.1 plain 900 0 0 0 none (.readPage 18 0) false [] (takenEntry 0 ⟨0, 7, 0, 1, 8, 4096, 0, 0⟩)
    { fetching with
      fe.timeouts := 2 } (by decide) rfl rfl rfl rfl rfl rfl rfl rfl rfl rfl rfl rfl rfl rfl rfl rfl rfl rfl
    (by decide) rfl rfl rfl rfl rfl rfl).2 (by decide) rfl rfl (unowed_of rfl)

theorem witness_OperationTimesOut_4 (h : Obligations.OperationTimesOut) : type_of% (
    h.2.2 plain 900 []
      { at_ .mounting with
        fe.rail := .starting, fe.waiting := [⟨.mountReader, .readId, 0⟩]
        fe.inFlight := some ⟨none, true, 900, []⟩, fe.timeouts := 1 } (resting_of rfl) rfl (by decide) rfl rfl
      (by decide) rfl) :=
  h.2.2 plain 900 []
    { at_ .mounting with
      fe.rail := .starting, fe.waiting := [⟨.mountReader, .readId, 0⟩]
      fe.inFlight := some ⟨none, true, 900, []⟩, fe.timeouts := 1 } (resting_of rfl) rfl (by decide) rfl rfl
    (by decide) rfl

theorem witness_CropWithinMargins_1 (h : Obligations.CropWithinMargins) : type_of% (
    h.1 PuParams.default [Shadow.empty] ⟨160000, 0, -900000000⟩ _ _ _ rfl rfl rfl) :=
  h.1 PuParams.default [Shadow.empty] ⟨160000, 0, -900000000⟩ _ _ _ rfl rfl rfl

theorem witness_CropWithinMargins_2 (h : Obligations.CropWithinMargins) : type_of% (
    h.2.1 Pu.reset false { Shadow.empty with state := .measured, path := some 0, theta := ⟨5, 6, 7⟩ } 0 _ rfl rfl) :=
  h.2.1 Pu.reset false { Shadow.empty with state := .measured, path := some 0, theta := ⟨5, 6, 7⟩ } 0 _ rfl rfl

theorem witness_CropWithinMargins_3 (h : Obligations.CropWithinMargins) : type_of% (
    h.2.2.2 .silenceExpiry 0 (burstOf 9 1) 0 3 { Shadow.empty with state := .measured, frame := 3, path := some 0 }
      _
      { tracking with
        rck.silence := some 9000
        pu.shadows := Pu.reset.shadows.set 3 { Shadow.empty with state := .measured, frame := 3, path := some 0 } }
      _ (calm_of rfl) (.inl rfl) rfl (.inr rfl) rfl rfl rfl (.inr rfl)) :=
  h.2.2.2 .silenceExpiry 0 (burstOf 9 1) 0 3 { Shadow.empty with state := .measured, frame := 3, path := some 0 } _
    { tracking with
      rck.silence := some 9000
      pu.shadows := Pu.reset.shadows.set 3 { Shadow.empty with state := .measured, frame := 3, path := some 0 } } _
    (calm_of rfl) (.inl rfl) rfl (.inr rfl) rfl rfl rfl (.inr rfl)

theorem witness_CropWithinMargins_4 (h : Obligations.CropWithinMargins) : type_of% (
    h.2.2.2 (.sampleBurstDone 5 (burstOf 9 1)) 5 (burstOf 9 1) 1000 3
      { Shadow.empty with
        state := .captured, frame := 3, reference := 500, theta := ⟨900000000, 0, 0⟩ } _
      { tracking with
        pu.params.lookAhead := 0
        pu.shadows := Pu.reset.shadows.set 3 { Shadow.empty with state := .captured, frame := 3, reference := 500, theta := ⟨900000000, 0, 0⟩ } }
      _ (calm_of rfl) (.inr ⟨rfl, rfl, ⟨rfl, rfl, rfl, rfl, rfl⟩, by decide, .inr ⟨rfl, by decide +kernel⟩, rfl⟩)
      rfl (.inl rfl) rfl rfl rfl (.inr rfl)) :=
  h.2.2.2 (.sampleBurstDone 5 (burstOf 9 1)) 5 (burstOf 9 1) 1000 3
    { Shadow.empty with
      state := .captured, frame := 3, reference := 500, theta := ⟨900000000, 0, 0⟩ } _
    { tracking with
      pu.params.lookAhead := 0
      pu.shadows := Pu.reset.shadows.set 3 { Shadow.empty with state := .captured, frame := 3, reference := 500, theta := ⟨900000000, 0, 0⟩ } }
    _ (calm_of rfl) (.inr ⟨rfl, rfl, ⟨rfl, rfl, rfl, rfl, rfl⟩, by decide, .inr ⟨rfl, by decide +kernel⟩, rfl⟩) rfl
    (.inl rfl) rfl rfl rfl (.inr rfl)

theorem witness_FrameMeasured_1 (h : Obligations.FrameMeasured) : type_of% (
    ((h 5 (burstOf 9 1) 1000 3 (captured 1000) (holding 1000 tracking)
      (calm_of rfl) (by decide) rfl (others_free rfl) rfl rfl (by decide)).1 rfl ⟨rfl, rfl, rfl, rfl, rfl⟩ (by decide) (.inr ⟨rfl, by decide⟩) rfl
      ⟨by decide, by decide, by decide⟩ _ rfl).1 (by decide)) :=
  ((h 5 (burstOf 9 1) 1000 3 (captured 1000) (holding 1000 tracking)
      (calm_of rfl) (by decide) rfl (others_free rfl) rfl rfl (by decide)).1 rfl ⟨rfl, rfl, rfl, rfl, rfl⟩ (by decide) (.inr ⟨rfl, by decide⟩) rfl
      ⟨by decide, by decide, by decide⟩ _ rfl).1 (by decide)

theorem witness_FrameMeasured_2 (h : Obligations.FrameMeasured) : type_of% (
    ((h 5 (burstOf 9 1) 1000 3 (captured 1001) (holding 1001 tracking)
      (calm_of rfl) (by decide) rfl (others_free rfl) rfl rfl (by decide)).1 rfl ⟨rfl, rfl, rfl, rfl, rfl⟩ (by decide) (.inr ⟨rfl, by decide⟩) rfl
      ⟨by decide, by decide, by decide⟩ _ rfl).2 (by decide)) :=
  ((h 5 (burstOf 9 1) 1000 3 (captured 1001) (holding 1001 tracking)
      (calm_of rfl) (by decide) rfl (others_free rfl) rfl rfl (by decide)).1 rfl ⟨rfl, rfl, rfl, rfl, rfl⟩ (by decide) (.inr ⟨rfl, by decide⟩) rfl
      ⟨by decide, by decide, by decide⟩ _ rfl).2 (by decide)

theorem witness_FrameMeasured_3 (h : Obligations.FrameMeasured) : type_of% (
    (h 5 (burstOf 9 1) 1000 3 (captured 1000) (holding 1000 { tracking with mu.link := .lost, mu.goodRun := 2 })
      (calm_of rfl) (by decide) rfl (others_free rfl) rfl rfl (by decide)).2.1 (.inr rfl) (by decide) ⟨rfl, rfl, rfl, rfl, rfl⟩ (by decide) (.inr ⟨rfl, by decide⟩) (by decide)) :=
  (h 5 (burstOf 9 1) 1000 3 (captured 1000) (holding 1000 { tracking with mu.link := .lost, mu.goodRun := 2 })
      (calm_of rfl) (by decide) rfl (others_free rfl) rfl rfl (by decide)).2.1 (.inr rfl) (by decide) ⟨rfl, rfl, rfl, rfl, rfl⟩ (by decide) (.inr ⟨rfl, by decide⟩) (by decide)

theorem witness_FrameMeasured_4 (h : Obligations.FrameMeasured) : type_of% (
    (h 5 (burstOf 9 1) 1000 3 (captured 1000) (holding 1000 { tracking with mu.link := .starting })
      (calm_of rfl) (by decide) rfl (others_free rfl) rfl rfl (by decide)).2.1 (.inl ⟨rfl, rfl⟩) (by decide) ⟨rfl, rfl, rfl, rfl, rfl⟩ (by decide) (.inr ⟨rfl, by decide⟩) (by decide)) :=
  (h 5 (burstOf 9 1) 1000 3 (captured 1000) (holding 1000 { tracking with mu.link := .starting })
      (calm_of rfl) (by decide) rfl (others_free rfl) rfl rfl (by decide)).2.1 (.inl ⟨rfl, rfl⟩) (by decide) ⟨rfl, rfl, rfl, rfl, rfl⟩ (by decide) (.inr ⟨rfl, by decide⟩) (by decide)

theorem witness_FrameMeasured_5 (h : Obligations.FrameMeasured) : type_of% (
    (h 5 (burstOf 9 1) 1000 3 (captured 1000) (holding 1000 { tracking with mu.link := .absent, mu.txn := none, rck.sampleTimer := some 1000 })
      (calm_of rfl) (by decide) rfl (others_free rfl) rfl rfl (by decide)).2.2 (.inl rfl) rfl rfl rfl (by decide)) :=
  (h 5 (burstOf 9 1) 1000 3 (captured 1000) (holding 1000 { tracking with mu.link := .absent, mu.txn := none, rck.sampleTimer := some 1000 })
      (calm_of rfl) (by decide) rfl (others_free rfl) rfl rfl (by decide)).2.2 (.inl rfl) rfl rfl rfl (by decide)

theorem witness_FrameMeasured_6 (h : Obligations.FrameMeasured) : type_of% (
    (h 5 (burstOf 9 1) 1000 3 (captured 1000) (holding 1000 { tracking with mu.link := .starting, mu.phase := .identify, rck.sampleTimer := some 1000 })
      (calm_of rfl) (by decide) rfl (others_free rfl) rfl rfl (by decide)).2.2 (.inr ⟨rfl, by decide⟩) rfl rfl rfl (by decide)) :=
  (h 5 (burstOf 9 1) 1000 3 (captured 1000) (holding 1000 { tracking with mu.link := .starting, mu.phase := .identify, rck.sampleTimer := some 1000 })
      (calm_of rfl) (by decide) rfl (others_free rfl) rfl rfl (by decide)).2.2 (.inr ⟨rfl, by decide⟩) rfl rfl rfl (by decide)

theorem witness_FrameRecordWritten_1 (h : Obligations.FrameRecordWritten) : type_of% (
    h [.writer]
      { at_ .running with
        rck.clock := 7999, rck.filter := .qualifying, rck.filterRun := 1, rck.nextFrame := .number 33
        pu.table := some 4096, pu.params.exposure := -20 } 33 8000 1 4096 (calm_of rfl) rfl rfl (by decide) rfl
      (fun l e => by cases e) rfl rfl rfl rfl (by decide) rfl rfl (by decide) rfl (.inr rfl)) :=
  h [.writer]
    { at_ .running with
      rck.clock := 7999, rck.filter := .qualifying, rck.filterRun := 1, rck.nextFrame := .number 33
      pu.table := some 4096, pu.params.exposure := -20 } 33 8000 1 4096 (calm_of rfl) rfl rfl (by decide) rfl
    (fun l e => by cases e) rfl rfl rfl rfl (by decide) rfl rfl (by decide) rfl (.inr rfl)

theorem witness_StartOpensClip_1 (h : Obligations.StartOpensClip) : type_of% (
    (h 5 0 256 2 _ (segOf .free 20) (stoppedAt (posted 2 0 0 0 0 9 0)) _ (calm_of rfl) rfl rfl rfl rfl (by decide)
      rfl rfl rfl rfl (by decide) rfl rfl ⟨(by decide), rfl⟩ rfl).1) :=
  (h 5 0 256 2 _ (segOf .free 20) (stoppedAt (posted 2 0 0 0 0 9 0)) _ (calm_of rfl) rfl rfl rfl rfl (by decide) rfl
    rfl rfl rfl (by decide) rfl rfl ⟨(by decide), rfl⟩ rfl).1

theorem witness_StartOpensClip_2 (h : Obligations.StartOpensClip) : type_of% (
    (h 5 0 256 2 _ (segOf .free 20) (stoppedAt (posted 2 0 0 0 0 9 0)) _ (calm_of rfl) rfl rfl rfl rfl (by decide)
      rfl rfl rfl rfl (by decide) rfl rfl ⟨(by decide), rfl⟩ rfl).2) :=
  (h 5 0 256 2 _ (segOf .free 20) (stoppedAt (posted 2 0 0 0 0 9 0)) _ (calm_of rfl) rfl rfl rfl rfl (by decide) rfl
    rfl rfl rfl (by decide) rfl rfl ⟨(by decide), rfl⟩ rfl).2

theorem witness_SplitOpensClip_1 (h : Obligations.SplitOpensClip) : type_of% (
    h 5 0 256 0 2 _ (segOf .opened 16) (segOf .free 20) (served .recording (posted 4 0 0 0 0 9 0)) _ (calm_of rfl)
      rfl rfl rfl rfl rfl rfl rfl rfl rfl rfl (by decide) rfl ⟨(by decide), rfl⟩ rfl) :=
  h 5 0 256 0 2 _ (segOf .opened 16) (segOf .free 20) (served .recording (posted 4 0 0 0 0 9 0)) _ (calm_of rfl) rfl
    rfl rfl rfl rfl rfl rfl rfl rfl rfl (by decide) rfl ⟨(by decide), rfl⟩ rfl

theorem witness_MediaAppended_1 (h : Obligations.MediaAppended) : type_of% (
    h.1 5 0 256 0 11 _ (served .recording (posted 1 2 0 5 4096 9 0)) _ _ _ _ (calm_of rfl) rfl rfl rfl rfl rfl rfl
      (by decide) (by decide) (by decide) (by decide) rfl rfl (by decide) (by decide) rfl rfl rfl rfl) :=
  h.1 5 0 256 0 11 _ (served .recording (posted 1 2 0 5 4096 9 0)) _ _ _ _ (calm_of rfl) rfl rfl rfl rfl rfl rfl
    (by decide) (by decide) (by decide) (by decide) rfl rfl (by decide) (by decide) rfl rfl rfl rfl

theorem witness_MediaAppended_2 (h : Obligations.MediaAppended) : type_of% (
    (h.2 5 0 256 _ { served .recording (posted 1 2 0 5 4096 9 0) with ga.level := .cutoff } _ (calm_of rfl) rfl rfl
      rfl rfl).1 rfl rfl) :=
  (h.2 5 0 256 _ { served .recording (posted 1 2 0 5 4096 9 0) with ga.level := .cutoff } _ (calm_of rfl) rfl rfl
    rfl rfl).1 rfl rfl

theorem witness_MediaAppended_3 (h : Obligations.MediaAppended) : type_of% (
    (h.2 5 0 256 _ (stoppedAt (posted 1 2 0 5 4096 9 0)) _ (calm_of rfl) rfl rfl rfl rfl).2 rfl (by decide)) :=
  (h.2 5 0 256 _ (stoppedAt (posted 1 2 0 5 4096 9 0)) _ (calm_of rfl) rfl rfl rfl rfl).2 rfl (by decide)

theorem witness_ProtectionSet_1 (h : Obligations.ProtectionSet) : type_of% (
    (h 5 0 256 1 _ (served .recording (posted 5 0 1 0 0 0 0)) _ (calm_of rfl) rfl rfl rfl (.inl rfl) (by decide)
      ⟨(by decide), rfl⟩ rfl).1 (segOf .closed 18) rfl rfl (.inr rfl) rfl (by decide)) :=
  (h 5 0 256 1 _ (served .recording (posted 5 0 1 0 0 0 0)) _ (calm_of rfl) rfl rfl rfl (.inl rfl) (by decide)
    ⟨(by decide), rfl⟩ rfl).1 (segOf .closed 18) rfl rfl (.inr rfl) rfl (by decide)

theorem witness_ProtectionSet_2 (h : Obligations.ProtectionSet) : type_of% (
    (h 5 0 256 1 _ { served .recording (posted 5 0 1 0 0 0 0) with sm.hostCount := 2 } _ (calm_of rfl) rfl rfl rfl
      (.inl rfl) (by decide) ⟨(by decide), rfl⟩ rfl).2.1 (segOf .closed 18) rfl rfl (.inr rfl) rfl (by decide)) :=
  (h 5 0 256 1 _ { served .recording (posted 5 0 1 0 0 0 0) with sm.hostCount := 2 } _ (calm_of rfl) rfl rfl rfl
    (.inl rfl) (by decide) ⟨(by decide), rfl⟩ rfl).2.1 (segOf .closed 18) rfl rfl (.inr rfl) rfl (by decide)

theorem witness_ProtectionSet_3 (h : Obligations.ProtectionSet) : type_of% (
    (h 5 0 256 0 _
      { served .recording (posted 6 0 0 0 0 0 0) with
        sm.segments := [{ segOf .opened 16 with protection := some ⟨.host, 3⟩ }, segOf .free 20]
        sm.hostCount := 1 } _ (calm_of rfl) rfl rfl rfl (.inl rfl) (by decide) ⟨(by decide), rfl⟩ rfl).2.2.1 _
      ⟨.host, 3⟩ rfl rfl (.inl rfl) rfl) :=
  (h 5 0 256 0 _
    { served .recording (posted 6 0 0 0 0 0 0) with
      sm.segments := [{ segOf .opened 16 with protection := some ⟨.host, 3⟩ }, segOf .free 20]
      sm.hostCount := 1 } _ (calm_of rfl) rfl rfl rfl (.inl rfl) (by decide) ⟨(by decide), rfl⟩ rfl).2.2.1 _
    ⟨.host, 3⟩ rfl rfl (.inl rfl) rfl

theorem witness_ProtectionSet_4 (h : Obligations.ProtectionSet) : type_of% (
    ((h 5 0 256 2 _ (stoppedAt (posted 5 0 2 0 0 0 0)) _ (calm_of rfl) rfl rfl rfl (.inr ⟨rfl, (by decide)⟩)
      (by decide) ⟨(by decide), rfl⟩ rfl).2.2.2 (fun e k => by cases k; decide)).1 rfl) :=
  ((h 5 0 256 2 _ (stoppedAt (posted 5 0 2 0 0 0 0)) _ (calm_of rfl) rfl rfl rfl (.inr ⟨rfl, (by decide)⟩)
    (by decide) ⟨(by decide), rfl⟩ rfl).2.2.2 (fun e k => by cases k; decide)).1 rfl

theorem witness_ProtectionSet_5 (h : Obligations.ProtectionSet) : type_of% (
    ((h 5 0 256 5 _ (stoppedAt (posted 6 0 5 0 0 0 0)) _ (calm_of rfl) rfl rfl rfl (.inr ⟨rfl, (by decide)⟩)
      (by decide) ⟨(by decide), rfl⟩ rfl).2.2.2 (fun e k => by cases k)).2 rfl) :=
  ((h 5 0 256 5 _ (stoppedAt (posted 6 0 5 0 0 0 0)) _ (calm_of rfl) rfl rfl rfl (.inr ⟨rfl, (by decide)⟩)
    (by decide) ⟨(by decide), rfl⟩ rfl).2.2.2 (fun e k => by cases k)).2 rfl

theorem witness_FetchReads_1 (h : Obligations.FetchReads) : type_of% (
    h.1 5 0 256 0 _ { segOf .closed 18 with bytesWritten := 8192 } (stoppedAt (posted 7 0 1 8 4096 0 8184)) _
      (calm_of rfl) rfl rfl rfl rfl (by decide) rfl rfl (by decide) (by decide) (by decide) (by decide)
      ⟨rfl, rfl, rfl, rfl, rfl⟩ rfl rfl) :=
  h.1 5 0 256 0 _ { segOf .closed 18 with bytesWritten := 8192 } (stoppedAt (posted 7 0 1 8 4096 0 8184)) _
    (calm_of rfl) rfl rfl rfl rfl (by decide) rfl rfl (by decide) (by decide) (by decide) (by decide)
    ⟨rfl, rfl, rfl, rfl, rfl⟩ rfl rfl

theorem witness_FetchReads_2 (h : Obligations.FetchReads) : type_of% (
    (h.2 5 plain pageOf 0 2 900 0 _ _ none none (.readPage 18 0) [] (takenEntry 0 ⟨0, 7, 0, 1, 8200, 4096, 0, 0⟩) _
      _
      { fetching with
        cw.job := .fetch 0 2 none, cw.queue := [takenEntry 0 ⟨0, 7, 0, 1, 8200, 4096, 0, 0⟩]
        sm := (stoppedAt []).sm } _ (by decide) rfl rfl rfl rfl rfl rfl rfl rfl rfl rfl rfl rfl rfl rfl rfl rfl rfl
      rfl (by decide) rfl rfl (by decide) rfl rfl rfl rfl rfl (by decide) (by decide) rfl rfl
      (fun n h => by cases h) (fun _ => clean_none) rfl).1 _ rfl (by decide) rfl) :=
  (h.2 5 plain pageOf 0 2 900 0 _ _ none none (.readPage 18 0) [] (takenEntry 0 ⟨0, 7, 0, 1, 8200, 4096, 0, 0⟩) _ _
    { fetching with
      cw.job := .fetch 0 2 none, cw.queue := [takenEntry 0 ⟨0, 7, 0, 1, 8200, 4096, 0, 0⟩]
      sm := (stoppedAt []).sm } _ (by decide) rfl rfl rfl rfl rfl rfl rfl rfl rfl rfl rfl rfl rfl rfl rfl rfl rfl
    rfl (by decide) rfl rfl (by decide) rfl rfl rfl rfl rfl (by decide) (by decide) rfl rfl (fun n h => by cases h)
    (fun _ => clean_none) rfl).1 _ rfl (by decide) rfl

theorem witness_FetchReads_3 (h : Obligations.FetchReads) : type_of% (
    ((h.2 5 plain pageOf 0 2 900 0 _ _ none none (.readPage 18 0) [] (takenEntry 0 ⟨0, 7, 0, 1, 8, 4096, 0, 0⟩) _ _
      { fetching with
        cw.job := .fetch 0 2 none } _ (by decide) rfl rfl rfl rfl rfl rfl rfl rfl rfl rfl rfl rfl rfl rfl rfl rfl
      rfl rfl (by decide) rfl rfl (by decide) rfl rfl rfl rfl rfl (by decide) (by decide) rfl rfl
      (fun n h => by cases h) (fun _ => clean_none) rfl).2 _ (segOf .closed 18)
      ⟨.tableWriter, .programPage 0 0 [] [], 7⟩ _ (by decide) rfl).1 rfl (by decide) rfl
      (fun _ k => by cases k; decide +kernel)) :=
  ((h.2 5 plain pageOf 0 2 900 0 _ _ none none (.readPage 18 0) [] (takenEntry 0 ⟨0, 7, 0, 1, 8, 4096, 0, 0⟩) _ _
    { fetching with
      cw.job := .fetch 0 2 none } _ (by decide) rfl rfl rfl rfl rfl rfl rfl rfl rfl rfl rfl rfl rfl rfl rfl rfl rfl
    rfl (by decide) rfl rfl (by decide) rfl rfl rfl rfl rfl (by decide) (by decide) rfl rfl (fun n h => by cases h)
    (fun _ => clean_none) rfl).2 _ (segOf .closed 18) ⟨.tableWriter, .programPage 0 0 [] [], 7⟩ _ (by decide) rfl).1
    rfl (by decide) rfl (fun _ k => by cases k; decide +kernel)

theorem witness_FetchReads_4 (h : Obligations.FetchReads) : type_of% (
    ((h.2 5 plain pageOf 0 6 900 0 _ _ (some 3) (some 3) (.readPage 18 0) []
      (takenEntry 0 ⟨0, 7, 0, 1, 8, 4096, 0, 0⟩) _ _
      { fetching with
        cw.job := .fetch 0 6 (some 3), sm := (stoppedAt []).sm
        fe.waiting := [⟨.tableWriter, .programPage 0 0 [] [], 7⟩] } _ (by decide) rfl rfl rfl rfl rfl rfl rfl rfl
      rfl rfl rfl rfl rfl rfl rfl rfl rfl rfl (by decide) rfl rfl (by decide) rfl rfl rfl rfl rfl (by decide)
      (by decide) rfl rfl (fun n h => h) (fun h => by cases h) rfl).2 _
      { segOf .closed 18 with
        bytesWritten := 8192 } ⟨.tableWriter, .programPage 0 0 [] [], 7⟩ _ (by decide) rfl).2 rfl rfl rfl
      ⟨(by decide), rfl⟩ (by decide) rfl rfl rfl (fun _ k => by cases k; decide +kernel)) :=
  ((h.2 5 plain pageOf 0 6 900 0 _ _ (some 3) (some 3) (.readPage 18 0) []
    (takenEntry 0 ⟨0, 7, 0, 1, 8, 4096, 0, 0⟩) _ _
    { fetching with
      cw.job := .fetch 0 6 (some 3), sm := (stoppedAt []).sm
      fe.waiting := [⟨.tableWriter, .programPage 0 0 [] [], 7⟩] } _ (by decide) rfl rfl rfl rfl rfl rfl rfl rfl rfl
    rfl rfl rfl rfl rfl rfl rfl rfl rfl (by decide) rfl rfl (by decide) rfl rfl rfl rfl rfl (by decide) (by decide)
    rfl rfl (fun n h => h) (fun h => by cases h) rfl).2 _ { segOf .closed 18 with bytesWritten := 8192 }
    ⟨.tableWriter, .programPage 0 0 [] [], 7⟩ _ (by decide) rfl).2 rfl rfl rfl ⟨(by decide), rfl⟩ (by decide) rfl
    rfl rfl (fun _ k => by cases k; decide +kernel)

theorem witness_FormatBegins_1 (h : Obligations.FormatBegins) : type_of% (
    (h 5 0 256 _ (stoppedAt (posted 8 0 0 0 0 0 0)) _ (calm_of rfl) rfl rfl rfl rfl (.inl rfl) rfl).1 (by decide)
      rfl ⟨rfl, rfl, rfl, rfl, rfl⟩) :=
  (h 5 0 256 _ (stoppedAt (posted 8 0 0 0 0 0 0)) _ (calm_of rfl) rfl rfl rfl rfl (.inl rfl) rfl).1 (by decide) rfl
    ⟨rfl, rfl, rfl, rfl, rfl⟩

theorem witness_FormatBegins_2 (h : Obligations.FormatBegins) : type_of% (
    (h 5 0 256 _
      { stoppedAt (posted 8 0 0 0 0 0 0) with
        sm.segments := [{ segOf .closed 16 with protection := some ⟨.host, 3⟩ }] } _ (calm_of rfl) rfl rfl rfl rfl
      (.inl rfl) rfl).2 ⟨_, List.mem_cons_self .., (by decide)⟩ rfl rfl (untracked_of rfl)) :=
  (h 5 0 256 _
    { stoppedAt (posted 8 0 0 0 0 0 0) with
      sm.segments := [{ segOf .closed 16 with protection := some ⟨.host, 3⟩ }] } _ (calm_of rfl) rfl rfl rfl rfl
    (.inl rfl) rfl).2 ⟨_, List.mem_cons_self .., (by decide)⟩ rfl rfl (untracked_of rfl)

theorem witness_StopAndAttention_1 (h : Obligations.StopAndAttention) : type_of% (
    (h.1 5 1 256 _ (State.store (filled .recording) 288 [1, 0, 0, 0, 1, 0, 0, 0, 3]) _ (resting_of rfl) rfl rfl rfl
      rfl rfl).1 rfl) :=
  (h.1 5 1 256 _ (State.store (filled .recording) 288 [1, 0, 0, 0, 1, 0, 0, 0, 3]) _ (resting_of rfl) rfl rfl rfl
    rfl rfl).1 rfl

theorem witness_StopAndAttention_2 (h : Obligations.StopAndAttention) : type_of% (
    (h.1 5 1 256 _
      (State.store { served .recording [] with cw := { (served .recording []).cw with assembly := [1], queue := [mediaTaken], expected := 1 } } 288 [1, 0, 0, 0, 1, 0, 0, 0, 3])
      _ (resting_of rfl) rfl rfl rfl rfl rfl).2.1 0 (segOf .opened 16) 8191 rfl (by decide) rfl (by decide) rfl rfl
      ⟨rfl, rfl, rfl, rfl, rfl⟩) :=
  (h.1 5 1 256 _
    (State.store { served .recording [] with cw := { (served .recording []).cw with assembly := [1], queue := [mediaTaken], expected := 1 } } 288 [1, 0, 0, 0, 1, 0, 0, 0, 3])
    _ (resting_of rfl) rfl rfl rfl rfl rfl).2.1 0 (segOf .opened 16) 8191 rfl (by decide) rfl (by decide) rfl rfl
    ⟨rfl, rfl, rfl, rfl, rfl⟩

theorem witness_StopAndAttention_3 (h : Obligations.StopAndAttention) : type_of% (
    (h.1 5 0 256 _ (served .recording (posted 3 0 0 0 0 0 0)) _ (resting_of rfl) rfl rfl rfl rfl rfl).2.2 0
      (segOf .opened 16) rfl rfl rfl rfl rfl rfl (onlyOpen_of rfl) (unowed_of rfl) ⟨(by decide), rfl⟩) :=
  (h.1 5 0 256 _ (served .recording (posted 3 0 0 0 0 0 0)) _ (resting_of rfl) rfl rfl rfl rfl rfl).2.2 0
    (segOf .opened 16) rfl rfl rfl rfl rfl rfl (onlyOpen_of rfl) (unowed_of rfl) ⟨(by decide), rfl⟩

theorem witness_StopAndAttention_4 (h : Obligations.StopAndAttention) : type_of% (
    (h.2 5 0 256 (served .recording (posted 3 0 0 0 0 0 0)) (by decide)).1 (calm_of rfl) rfl rfl rfl (by decide)) :=
  (h.2 5 0 256 (served .recording (posted 3 0 0 0 0 0 0)) (by decide)).1 (calm_of rfl) rfl rfl rfl (by decide)

theorem witness_StopAndAttention_5 (h : Obligations.StopAndAttention) : type_of% (
    (h.2 5 0 256 { served .recording (posted 3 0 0 0 0 0 0) with cw.expected := 1 } (by decide)).2.1 (calm_of rfl)
      rfl rfl (by decide) rfl (by decide) rfl (by decide) (by decide)) :=
  (h.2 5 0 256 { served .recording (posted 3 0 0 0 0 0 0) with cw.expected := 1 } (by decide)).2.1 (calm_of rfl) rfl
    rfl (by decide) rfl (by decide) rfl (by decide) (by decide)

theorem witness_StopAndAttention_6 (h : Obligations.StopAndAttention) : type_of% (
    (h.2 5 0 256 (at_ .idle) (by decide)).2.2 (resting_of rfl) rfl) :=
  (h.2 5 0 256 (at_ .idle) (by decide)).2.2 (resting_of rfl) rfl

theorem witness_SlotPublished_1 (h : Obligations.SlotPublished) : type_of% (
    h.1 256 (takenEntry 0 ⟨0, 1, 2, 0, 5, 4096, 9, 0⟩) ⟨.badLength, 1, 7, 9⟩
      (served .recording (posted 1 2 0 5 4096 9 0)) 256 rfl rfl (by decide) rfl) :=
  h.1 256 (takenEntry 0 ⟨0, 1, 2, 0, 5, 4096, 9, 0⟩) ⟨.badLength, 1, 7, 9⟩
    (served .recording (posted 1 2 0 5 4096 9 0)) 256 rfl rfl (by decide) rfl

theorem witness_SlotPublished_2 (h : Obligations.SlotPublished) : type_of% (
    (h.2 mediaTaken [] (filled .recording) rfl).1 rfl) :=
  (h.2 mediaTaken [] (filled .recording) rfl).1 rfl

theorem witness_SlotPublished_3 (h : Obligations.SlotPublished) : type_of% (
    (h.2 { mediaTaken with result := some ⟨.ok, 0, 0, 1⟩ } [formatTaken]
      { filled .recording with
        cw.queue := [{ mediaTaken with result := some ⟨.ok, 0, 0, 1⟩ }, formatTaken] } rfl).2 _ rfl) :=
  (h.2 { mediaTaken with result := some ⟨.ok, 0, 0, 1⟩ } [formatTaken]
    { filled .recording with
      cw.queue := [{ mediaTaken with result := some ⟨.ok, 0, 0, 1⟩ }, formatTaken] } rfl).2 _ rfl

theorem witness_MountWorkEnds_1 (h : Obligations.MountWorkEnds) : type_of% (
    (h 5 { at_ .mounting with rck.line := true } (still_of rfl) rfl rfl).1 rfl rfl rfl) :=
  (h 5 { at_ .mounting with rck.line := true } (still_of rfl) rfl rfl).1 rfl rfl rfl

theorem witness_MountWorkEnds_2 (h : Obligations.MountWorkEnds) : type_of% (
    (h 5 { at_ .mounting with part.transition := .stop } (still_of rfl) rfl rfl).2.1 rfl rfl rfl (by decide)) :=
  (h 5 { at_ .mounting with part.transition := .stop } (still_of rfl) rfl rfl).2.1 rfl rfl rfl (by decide)

theorem witness_MountWorkEnds_3 (h : Obligations.MountWorkEnds) : type_of% (
    (h 5 { at_ .mounting with hp.reading := some ⟨reading0, true⟩ } (still_of rfl) rfl rfl).2.2
      (.inr ⟨rfl, (by decide)⟩)) :=
  (h 5 { at_ .mounting with hp.reading := some ⟨reading0, true⟩ } (still_of rfl) rfl rfl).2.2
    (.inr ⟨rfl, (by decide)⟩)

theorem witness_MountWorkEnds_4 (h : Obligations.MountWorkEnds) : type_of% (
    (h 5 { at_ .mounting with sm.mount := some .readId } (still_of rfl) rfl rfl).2.2 (.inl rfl)) :=
  (h 5 { at_ .mounting with sm.mount := some .readId } (still_of rfl) rfl rfl).2.2 (.inl rfl)

theorem witness_RunTaken_1 (h : Obligations.RunTaken) : type_of% (
    h.1 5 .first { at_ .idle with fe.identity := .isMatch, rck.pendingPeriod := some 500 } (calm_of rfl) rfl rfl rfl
      rfl ⟨rfl, rfl, rfl, rfl⟩ rfl rfl rfl rfl _ _ _ rfl rfl rfl) :=
  h.1 5 .first { at_ .idle with fe.identity := .isMatch, rck.pendingPeriod := some 500 } (calm_of rfl) rfl rfl rfl
    rfl ⟨rfl, rfl, rfl, rfl⟩ rfl rfl rfl rfl _ _ _ rfl rfl rfl

theorem witness_RunTaken_2 (h : Obligations.RunTaken) : type_of% (
    h.1 5 .after { at_ .idle with fe.identity := .isMatch, rck.pendingPeriod := some 500 } (calm_of rfl) rfl rfl rfl
      rfl ⟨rfl, rfl, rfl, rfl⟩ rfl rfl rfl rfl _ _ _ rfl rfl rfl) :=
  h.1 5 .after { at_ .idle with fe.identity := .isMatch, rck.pendingPeriod := some 500 } (calm_of rfl) rfl rfl rfl
    rfl ⟨rfl, rfl, rfl, rfl⟩ rfl rfl rfl rfl _ _ _ rfl rfl rfl

theorem witness_RunTaken_3 (h : Obligations.RunTaken) : type_of% (
    h.1 5 .first
      (State.store { at_ .idle with fe.identity := .isMatch, hp.directory := 0x2000 } 0x2000 (leBytes 4 7 ++ List.replicate 12 0 ++ leBytes 4 1024 ++ leBytes 4 3 ++ leBytes 4 4100 ++ leBytes 4 100 ++ leBytes 4 0xFFFFFF ++ leBytes 4 16384))
      (calm_of rfl) rfl rfl rfl rfl ⟨rfl, rfl, rfl, rfl⟩ rfl rfl rfl rfl _ _ _ rfl rfl rfl) :=
  h.1 5 .first
    (State.store { at_ .idle with fe.identity := .isMatch, hp.directory := 0x2000 } 0x2000 (leBytes 4 7 ++ List.replicate 12 0 ++ leBytes 4 1024 ++ leBytes 4 3 ++ leBytes 4 4100 ++ leBytes 4 100 ++ leBytes 4 0xFFFFFF ++ leBytes 4 16384))
    (calm_of rfl) rfl rfl rfl rfl ⟨rfl, rfl, rfl, rfl⟩ rfl rfl rfl rfl _ _ _ rfl rfl rfl

theorem witness_RunTaken_4 (h : Obligations.RunTaken) : type_of% (
    h.1 5 .lasting { at_ .idle with fe.identity := .isMatch, rck.pendingPeriod := some 500 } (calm_of rfl) rfl rfl
      rfl rfl ⟨rfl, rfl, rfl, rfl⟩ rfl rfl rfl rfl _ _ _ rfl rfl rfl) :=
  h.1 5 .lasting { at_ .idle with fe.identity := .isMatch, rck.pendingPeriod := some 500 } (calm_of rfl) rfl rfl rfl
    rfl ⟨rfl, rfl, rfl, rfl⟩ rfl rfl rfl rfl _ _ _ rfl rfl rfl

theorem witness_RunTaken_5 (h : Obligations.RunTaken) : type_of% (
    h.2.1 5 reading0
      { at_ .mounting with
        sm.mount := some .finishing, fe.identity := .isMatch, hp.reading := some ⟨reading0, true⟩
        mu.link := .starting } (still_of rfl) rfl rfl rfl rfl rfl ⟨rfl, rfl, rfl, rfl⟩ rfl rfl rfl rfl rfl) :=
  h.2.1 5 reading0
    { at_ .mounting with
      sm.mount := some .finishing, fe.identity := .isMatch, hp.reading := some ⟨reading0, true⟩
      mu.link := .starting } (still_of rfl) rfl rfl rfl rfl rfl ⟨rfl, rfl, rfl, rfl⟩ rfl rfl rfl rfl rfl

theorem witness_RunTaken_6 (h : Obligations.RunTaken) : type_of% (
    h.2.2 5 .after { at_ .idle with hp.reading := some ⟨reading0, false⟩ } rfl rfl (by decide)) :=
  h.2.2 5 .after { at_ .idle with hp.reading := some ⟨reading0, false⟩ } rfl rfl (by decide)

theorem witness_RunTaken_7 (h : Obligations.RunTaken) : type_of% (
    h.1 5 .first (at_ .idle) (calm_of rfl) rfl rfl rfl rfl ⟨rfl, rfl, rfl, rfl⟩ rfl rfl rfl rfl _ _ _ rfl rfl rfl) :=
  h.1 5 .first (at_ .idle) (calm_of rfl) rfl rfl rfl rfl ⟨rfl, rfl, rfl, rfl⟩ rfl rfl rfl rfl _ _ _ rfl rfl rfl

theorem witness_RunTaken_8 (h : Obligations.RunTaken) : type_of% (
    h.1 5 .after { at_ .idle with fe.identity := .mismatch, fe.absent := true } (calm_of rfl) rfl rfl rfl rfl
      ⟨rfl, rfl, rfl, rfl⟩ rfl rfl rfl rfl _ _ _ rfl rfl rfl) :=
  h.1 5 .after { at_ .idle with fe.identity := .mismatch, fe.absent := true } (calm_of rfl) rfl rfl rfl rfl
    ⟨rfl, rfl, rfl, rfl⟩ rfl rfl rfl rfl _ _ _ rfl rfl rfl

theorem witness_ReloadTaken_1 (h : Obligations.ReloadTaken) : type_of% (
    (h.1 5 reading0 (at_ .mounting) _ (calm_of rfl) rfl).1 rfl (by decide)) :=
  (h.1 5 reading0 (at_ .mounting) _ (calm_of rfl) rfl).1 rfl (by decide)

theorem witness_ReloadTaken_2 (h : Obligations.ReloadTaken) : type_of% (
    (h.1 5 reading0 { at_ .idle with hp.reading := some ⟨reading0, false⟩ } _ (calm_of rfl) rfl).2.1 (.inl rfl)
      (by decide) (by decide)) :=
  (h.1 5 reading0 { at_ .idle with hp.reading := some ⟨reading0, false⟩ } _ (calm_of rfl) rfl).2.1 (.inl rfl)
    (by decide) (by decide)

theorem witness_ReloadTaken_3 (h : Obligations.ReloadTaken) : type_of% (
    (h.1 5 reading0 (at_ .idle) _ (calm_of rfl) rfl).2.2.1 rfl rfl) :=
  (h.1 5 reading0 (at_ .idle) _ (calm_of rfl) rfl).2.2.1 rfl rfl

theorem witness_ReloadTaken_4 (h : Obligations.ReloadTaken) : type_of% (
    ((h.1 5 _ { at_ .idle with hp.reloadHeld := true } _ (calm_of rfl) rfl).2.2.2.1 (.inl rfl) (by decide) rfl
      rfl).1) :=
  ((h.1 5 _ { at_ .idle with hp.reloadHeld := true } _ (calm_of rfl) rfl).2.2.2.1 (.inl rfl) (by decide) rfl rfl).1

theorem witness_ReloadTaken_5 (h : Obligations.ReloadTaken) : type_of% (
    ((h.1 5 _ { at_ .idle with hp.latch := 3 } _ (calm_of rfl) rfl).2.2.2.1 (.inl rfl) (by decide) rfl rfl).2 0x200
      rfl rfl rfl) :=
  ((h.1 5 _ { at_ .idle with hp.latch := 3 } _ (calm_of rfl) rfl).2.2.2.1 (.inl rfl) (by decide) rfl rfl).2 0x200
    rfl rfl rfl

theorem witness_ReloadTaken_6 (h : Obligations.ReloadTaken) : type_of% (
    (h.1 5 reading0 { at_ .running with hp.reading := some ⟨reading0, false⟩ } _ (calm_of rfl) rfl).2.2.2.2 rfl rfl) :=
  (h.1 5 reading0 { at_ .running with hp.reading := some ⟨reading0, false⟩ } _ (calm_of rfl) rfl).2.2.2.2 rfl rfl

theorem witness_ReloadTaken_7 (h : Obligations.ReloadTaken) : type_of% (
    ((h.2 ⟨15, 0, 0⟩ _ (at_ .idle) rfl).1 0 _ rfl rfl).1 (.inl rfl)) :=
  ((h.2 ⟨15, 0, 0⟩ _ (at_ .idle) rfl).1 0 _ rfl rfl).1 (.inl rfl)

theorem witness_ReloadTaken_8 (h : Obligations.ReloadTaken) : type_of% (
    ((h.2 ⟨16777200, 0, 0⟩ _ (at_ .idle) rfl).1 16777200 _ rfl rfl).1 (.inr (by decide))) :=
  ((h.2 ⟨16777200, 0, 0⟩ _ (at_ .idle) rfl).1 16777200 _ rfl rfl).1 (.inr (by decide))

theorem witness_ReloadTaken_9 (h : Obligations.ReloadTaken) : type_of% (
    ((h.2 ⟨257, 0, 0⟩ _ (at_ .idle) rfl).1 256 _ rfl rfl).2 (by decide) (by decide)) :=
  ((h.2 ⟨257, 0, 0⟩ _ (at_ .idle) rfl).1 256 _ rfl rfl).2 (by decide) (by decide)

theorem witness_ReloadTaken_10 (h : Obligations.ReloadTaken) : type_of% (
    ((h.2 ⟨0, 0, 0⟩ _ (at_ .idle) rfl).2.1 0 _ rfl rfl).1 (.inl rfl)) :=
  ((h.2 ⟨0, 0, 0⟩ _ (at_ .idle) rfl).2.1 0 _ rfl rfl).1 (.inl rfl)

theorem witness_ReloadTaken_11 (h : Obligations.ReloadTaken) : type_of% (
    ((h.2 ⟨0, 16777200, 0⟩ _ (at_ .idle) rfl).2.1 16777200 _ rfl rfl).2 (by decide) (by decide)) :=
  ((h.2 ⟨0, 16777200, 0⟩ _ (at_ .idle) rfl).2.1 16777200 _ rfl rfl).2 (by decide) (by decide)

theorem witness_ReloadTaken_12 (h : Obligations.ReloadTaken) : type_of% (
    ((h.2 ⟨0, 0, 16777200⟩ _ (at_ .idle) rfl).2.2 16777200 _ rfl rfl).1 (.inr (by decide))) :=
  ((h.2 ⟨0, 0, 16777200⟩ _ (at_ .idle) rfl).2.2 16777200 _ rfl rfl).1 (.inr (by decide))

theorem witness_ReloadTaken_13 (h : Obligations.ReloadTaken) : type_of% (
    ((h.2 ⟨0, 0, 16777184⟩ _ (at_ .idle) rfl).2.2 16777184 _ rfl rfl).2 (by decide) (by decide)) :=
  ((h.2 ⟨0, 0, 16777184⟩ _ (at_ .idle) rfl).2.2 16777184 _ rfl rfl).2 (by decide) (by decide)

theorem witness_ChargeTickDelivers_1 (h : Obligations.ChargeTickDelivers) : type_of% (
    h reading [.flash] (at_ .idle) (lasting_of rfl) rfl (by decide)) :=
  h reading [.flash] (at_ .idle) (lasting_of rfl) rfl (by decide)

theorem witness_ChargeTickDelivers_2 (h : Obligations.ChargeTickDelivers) : type_of% (
    h ⟨4400, 3750, 100, 111⟩ [.charger]
      { fed with
        cc.charge := .fast, fe.rail := .ready, fe.idle := 1, ga.estimated := true } (lasting_of rfl) rfl (by decide)) :=
  h ⟨4400, 3750, 100, 111⟩ [.charger]
    { fed with
      cc.charge := .fast, fe.rail := .ready, fe.idle := 1, ga.estimated := true } (lasting_of rfl) rfl (by decide)

theorem witness_ChargeTickDelivers_3 (h : Obligations.ChargeTickDelivers) : ∃ u, exec (.chargeTick ⟨0, 3525, 0, 50⟩
    []) (at_ .idle) = .next u ∧ u.ga.q = 619200000 * (5 * (3600 - 3450) + (10 - 5) * (3525 - 3450)) / ((3600 - 3450)
    * 100) := by
  obtain ⟨u, e, _, _, _, _, _, _, _, _, q, _⟩ := h ⟨0, 3525, 0, 50⟩ [] (at_ .idle) (lasting_of rfl) rfl (by decide)
  exact ⟨u, e, (q rfl).2.2 3525 3450 5 3600 10 rfl (by decide) (by decide) (by decide)⟩

theorem witness_ChargeTickDelivers_4 (h : Obligations.ChargeTickDelivers) : ∃ u, exec (.chargeTick ⟨0, 3525, 100,
    50⟩ []) { at_ .idle with ga.estimated := true, ga.q := 5 } = .next u ∧ (u.ga.q : Int) = max 0 (min ((1720 *
    360000 : Nat) : Int) (((5 : Nat) : Int) + max (-5000) (min 3000 100))) := by
  obtain ⟨u, e, _, _, _, _, _, _, _, q, _⟩ := h ⟨0, 3525, 100, 50⟩ [] { at_ .idle with
        ga.estimated := true, ga.q := 5 } (lasting_of rfl) rfl (by decide)
  exact ⟨u, e, q rfl⟩

theorem witness_ChargeTickDelivers_5 (h : Obligations.ChargeTickDelivers) : ∃ u, exec (.chargeTick ⟨0, 3525, 0, 201⟩
    []) (at_ .idle) = .next u ∧ u.cc.noThermistor = true ∧ u.cc.zone = .normal := by
  obtain ⟨u, e, _, _, _, _, _, _, _, _, _, z, _⟩ := h ⟨0, 3525, 0, 201⟩ [] (at_ .idle) (lasting_of rfl) rfl (by
      decide)
  exact ⟨u, e, z (.inr (by decide))⟩

theorem witness_ChargeTickDelivers_6 (h : Obligations.ChargeTickDelivers) : ∃ u, exec (.chargeTick ⟨0, 3525, 0, 107⟩
    []) { at_ .idle with cc.zone := .hot } = .next u ∧ u.cc.noThermistor = false ∧ u.cc.zone = .hot := by
  obtain ⟨u, e, _, _, _, _, _, _, _, _, _, _, z, _⟩ := h ⟨0, 3525, 0, 107⟩ [] { at_ .idle with cc.zone := .hot }
      (lasting_of rfl) rfl (by decide)
  exact ⟨u, e, z 107 .hot rfl rfl (by decide) (by decide)⟩

theorem witness_ChargeTickDelivers_7 (h : Obligations.ChargeTickDelivers) : ∃ u, exec (.chargeTick ⟨5000, 3525, 0,
    50⟩ []) (at_ .idle) = .next u ∧ u.cc.present = false ∧ u.cc.inputLimit = 1500 ∧ u.cc.budget = 0 := by
  obtain ⟨u, e, _, _, _, _, _, _, _, _, _, _, _, a, _⟩ := h ⟨5000, 3525, 0, 50⟩ [] (at_ .idle) (lasting_of rfl) rfl
      (by decide)
  exact ⟨u, e, a rfl rfl (.inl (by decide))⟩

theorem witness_ChargeTickDelivers_8 (h : Obligations.ChargeTickDelivers) : ∃ u, exec (.chargeTick ⟨4499, 3525, 0,
    50⟩ [.charger]) { fed with fe.rail := .ready } = .next u ∧ u.cc.present = true ∧ u.cc.inputLimit = 1450 := by
  obtain ⟨u, e, _, _, _, _, _, _, _, _, _, _, _, _, a, _⟩ := h ⟨4499, 3525, 0, 50⟩ [.charger] { fed with
        fe.rail := .ready } (lasting_of rfl) rfl (by decide)
  exact ⟨u, e, (a rfl rfl (.inl (by decide)) (by decide) (by decide) (by decide) (by decide)).1, (a rfl rfl (.inl
      (by decide)) (by decide) (by decide) (by decide) (by decide)).2.1⟩

theorem witness_ChargeTickDelivers_9 (h : Obligations.ChargeTickDelivers) : ∃ u, exec (.chargeTick ⟨0, 3700, -850,
    50⟩ []) { filled .recording with ga.estimated := true, ga.hold := 4, ga.q := 14400850, ga.level := .low } =
    .next u ∧ u.ga.present = false ∧ (u.ga.level = .reserve → u.cw.writer = .closing ∧ u.cw.cause = .reserve) := by
  obtain ⟨u, e, _, _, _, _, _, _, _, _, _, _, _, _, _, a, _⟩ := h ⟨0, 3700, -850, 50⟩ [] { filled .recording with
        ga.estimated := true, ga.hold := 4, ga.q := 14400850, ga.level := .low } (lasting_of rfl) rfl (by decide)
  exact ⟨u, e, (a rfl (by decide)).1, fun l => ⟨((a rfl (by decide)).2.2.2 l (by decide) (resting_of rfl) (.inr
      ⟨(fun _ k => by cases k; decide +kernel), rfl, rfl⟩) rfl rfl rfl (by decide)).1, ((a rfl (by decide)).2.2.2 l
      (by decide) (resting_of rfl) (.inr ⟨(fun _ k => by cases k; decide +kernel), rfl, rfl⟩) rfl rfl rfl (by
      decide)).2.1⟩⟩

theorem witness_QualificationChanges_1 (h : Obligations.QualificationChanges) : type_of% (
    (h reading [] { at_ .idle with cc.qualifyCount := 2 } (lasting_of rfl) rfl).1 (by decide)) :=
  (h reading [] { at_ .idle with cc.qualifyCount := 2 } (lasting_of rfl) rfl).1 (by decide)

theorem witness_QualificationChanges_2 (h : Obligations.QualificationChanges) : type_of% (
    (h ⟨4200, 3800, 0, 50⟩ [.gauge] { at_ .idle with cc.qualifyCount := 3 } (lasting_of rfl) rfl).2.1 rfl rfl rfl
      (by decide) (by decide)) :=
  (h ⟨4200, 3800, 0, 50⟩ [.gauge] { at_ .idle with cc.qualifyCount := 3 } (lasting_of rfl) rfl).2.1 rfl rfl rfl
    (by decide) (by decide)

theorem witness_QualificationChanges_3 (h : Obligations.QualificationChanges) : type_of% (
    (h ⟨6501, 3800, 0, 50⟩ []
      { fed with
        cc.qualifyCount := 3, cc.charge := .fast, cc.setpoint := 5, cc.fastTimer := 9 } (lasting_of rfl) rfl).2.2
      rfl rfl (.inr (by decide))) :=
  (h ⟨6501, 3800, 0, 50⟩ []
    { fed with
      cc.qualifyCount := 3, cc.charge := .fast, cc.setpoint := 5, cc.fastTimer := 9 } (lasting_of rfl) rfl).2.2 rfl
    rfl (.inr (by decide))

theorem witness_ChargeFaults_1 (h : Obligations.ChargeFaults) : type_of% (
    (h reading [] { fed with cc.charge := .precharge, cc.setpoint := 100, cc.prechargeTimer := 179999 }
      (lasting_of rfl) rfl rfl (by decide) rfl).1 rfl (by decide) rfl (by decide)) :=
  (h reading [] { fed with cc.charge := .precharge, cc.setpoint := 100, cc.prechargeTimer := 179999 }
    (lasting_of rfl) rfl rfl (by decide) rfl).1 rfl (by decide) rfl (by decide)

theorem witness_ChargeFaults_2 (h : Obligations.ChargeFaults) : type_of% (
    (h reading [] { fed with cc.charge := .taper, cc.setpoint := 100, cc.fastTimer := 1799999 } (lasting_of rfl) rfl
      rfl (by decide) rfl).2.1 (.inr rfl) (by decide) rfl (by decide) (by decide)) :=
  (h reading [] { fed with cc.charge := .taper, cc.setpoint := 100, cc.fastTimer := 1799999 } (lasting_of rfl) rfl
    rfl (by decide) rfl).2.1 (.inr rfl) (by decide) rfl (by decide) (by decide)

theorem witness_ChargeFaults_3 (h : Obligations.ChargeFaults) : type_of% (
    (h ⟨5000, 4351, 0, 50⟩ [.flash] { fed with cc.charge := .done, cc.overvoltageCount := 3 } (lasting_of rfl) rfl
      rfl (by decide) rfl).2.2 (.inr (.inr (.inr (.inr (.inl rfl))))) rfl (by decide) (by decide)) :=
  (h ⟨5000, 4351, 0, 50⟩ [.flash] { fed with cc.charge := .done, cc.overvoltageCount := 3 } (lasting_of rfl) rfl rfl
    (by decide) rfl).2.2 (.inr (.inr (.inr (.inr (.inl rfl))))) rfl (by decide) (by decide)

theorem witness_ChargeEndsAndReturns_1 (h : Obligations.ChargeEndsAndReturns) : type_of% (
    (h.2 ⟨4599, 4200, 50, 86⟩ [.gauge] { fed with cc.charge := .taper, cc.terminationCount := 15, cc.taper := 100 }
      (lasting_of rfl) rfl rfl (by decide) rfl (by decide) (by decide) (by decide)).1 rfl rfl rfl (by decide)
      (by decide) (.inl rfl) (by decide) (by decide) (by decide) (by decide) (by decide)) :=
  (h.2 ⟨4599, 4200, 50, 86⟩ [.gauge] { fed with cc.charge := .taper, cc.terminationCount := 15, cc.taper := 100 }
    (lasting_of rfl) rfl rfl (by decide) rfl (by decide) (by decide) (by decide)).1 rfl rfl rfl (by decide)
    (by decide) (.inl rfl) (by decide) (by decide) (by decide) (by decide) (by decide)

theorem witness_ChargeEndsAndReturns_2 (h : Obligations.ChargeEndsAndReturns) : type_of% (
    (h.2 ⟨5000, 4099, 0, 24⟩ [] { fed with cc.charge := .done, cc.rechargeCount := 3, cc.zone := .cool }
      (lasting_of rfl) rfl rfl (by decide) rfl (by decide) (by decide) (by decide)).2.1 rfl rfl (by decide)
      (by decide) (.inr (by decide)) (by decide) (by decide)) :=
  (h.2 ⟨5000, 4099, 0, 24⟩ [] { fed with cc.charge := .done, cc.rechargeCount := 3, cc.zone := .cool }
    (lasting_of rfl) rfl rfl (by decide) rfl (by decide) (by decide) (by decide)).2.1 rfl rfl (by decide)
    (by decide) (.inr (by decide)) (by decide) (by decide)

theorem witness_ChargeEndsAndReturns_3 (h : Obligations.ChargeEndsAndReturns) : type_of% (
    (h.2 ⟨5000, 4099, 0, 111⟩ [] { fed with cc.charge := .done, cc.rechargeCount := 3 } (lasting_of rfl) rfl rfl
      (by decide) rfl (by decide) (by decide) (by decide)).2.2.1 rfl rfl (by decide) (by decide)
      (.inr (.inl (by decide)))) :=
  (h.2 ⟨5000, 4099, 0, 111⟩ [] { fed with cc.charge := .done, cc.rechargeCount := 3 } (lasting_of rfl) rfl rfl
    (by decide) rfl (by decide) (by decide) (by decide)).2.2.1 rfl rfl (by decide) (by decide)
    (.inr (.inl (by decide)))

theorem witness_ChargeEndsAndReturns_4 (h : Obligations.ChargeEndsAndReturns) : type_of% (
    (h.2 ⟨5000, 3949, 0, 201⟩ [] { fed with cc.charge := .done, cc.rechargeCount := 3, cc.zone := .warm }
      (lasting_of rfl) rfl rfl (by decide) rfl (by decide) (by decide) (by decide)).2.2.1 rfl rfl (by decide)
      (by decide) (.inr (.inl (by decide)))) :=
  (h.2 ⟨5000, 3949, 0, 201⟩ [] { fed with cc.charge := .done, cc.rechargeCount := 3, cc.zone := .warm }
    (lasting_of rfl) rfl rfl (by decide) rfl (by decide) (by decide) (by decide)).2.2.1 rfl rfl (by decide)
    (by decide) (.inr (.inl (by decide)))

theorem witness_ChargeEndsAndReturns_5 (h : Obligations.ChargeEndsAndReturns) : type_of% (
    (h.2 ⟨5000, 4099, 0, 24⟩ [] { fed with cc.charge := .done, cc.rechargeCount := 2 } (lasting_of rfl) rfl rfl
      (by decide) rfl (by decide) (by decide) (by decide)).2.2.2 rfl (by decide)) :=
  (h.2 ⟨5000, 4099, 0, 24⟩ [] { fed with cc.charge := .done, cc.rechargeCount := 2 } (lasting_of rfl) rfl rfl
    (by decide) rfl (by decide) (by decide) (by decide)).2.2.2 rfl (by decide)

theorem witness_ChargeEndsAndReturns_6 (h : Obligations.ChargeEndsAndReturns) : ∃ u, exec (.chargeTick ⟨5000, 3700, 0, 50⟩ []) { fed with cc.charge := .fault, cc.pending := some { CcParams.default with faultClear := true } } = .next u
    ∧ u.cc.charge = .qualify ∧ u.cc.cause = .none := by
  obtain ⟨u, e, k⟩ := h.1 ⟨5000, 3700, 0, 50⟩ [] { fed with cc.charge := .fault, cc.pending := some { CcParams.default with faultClear := true } } (lasting_of rfl)
  exact ⟨u, e, ((((k _ _ _ _ _ rfl rfl rfl rfl rfl).2.2 rfl (by decide)).1 _ rfl rfl).2.1 rfl).1, ((((k _ _ _ _ _ rfl rfl rfl rfl rfl).2.2 rfl (by decide)).1 _ rfl rfl).2.1 rfl).2.1⟩

theorem witness_ChargeEndsAndReturns_7 (h : Obligations.ChargeEndsAndReturns) : ∃ u, exec (.chargeTick ⟨5000, 3700, 0, 50⟩ []) { fed with cc.charge := .fault, cc.cause := .fastTimer, cc.fastTimer := 1800000, cc.pending := some CcParams.default } = .next u
    ∧ u.cc.charge = .fault ∧ u.cc.cause = .fastTimer := by
  obtain ⟨u, e, k⟩ := h.1 ⟨5000, 3700, 0, 50⟩ [] { fed with cc.charge := .fault, cc.cause := .fastTimer, cc.fastTimer := 1800000, cc.pending := some CcParams.default } (lasting_of rfl)
  exact ⟨u, e, ((((k _ _ _ _ _ rfl rfl rfl rfl rfl).2.2 rfl (by decide)).1 _ rfl rfl).2.2 rfl).1, ((((k _ _ _ _ _ rfl rfl rfl rfl rfl).2.2 rfl (by decide)).1 _ rfl rfl).2.2 rfl).2.1⟩

theorem witness_ChargeEndsAndReturns_8 (h : Obligations.ChargeEndsAndReturns) : ∃ u, exec (.chargeTick ⟨5000, 3700, 0, 50⟩ []) { fed with cc.charge := .done, cc.params.enable := false } = .next u
    ∧ u.cc.charge = .inhibited := by
  obtain ⟨u, e, k⟩ := h.1 ⟨5000, 3700, 0, 50⟩ [] { fed with cc.charge := .done, cc.params.enable := false } (lasting_of rfl)
  exact ⟨u, e, (((k _ _ _ _ _ rfl rfl rfl rfl rfl).2.2 rfl (by decide)).2 rfl).2.2.1 rfl (by decide)⟩

theorem witness_ChargeEndsAndReturns_9 (h : Obligations.ChargeEndsAndReturns) : ∃ u, exec (.chargeTick ⟨5000, 3700, 0, 50⟩ []) { fed with cc.charge := .inhibited, cc.fastTimer := 1800000 } = .next u
    ∧ u.cc.charge = .qualify ∧ u.cc.fastTimer = 1800000 := by
  obtain ⟨u, e, k⟩ := h.1 ⟨5000, 3700, 0, 50⟩ [] { fed with cc.charge := .inhibited, cc.fastTimer := 1800000 } (lasting_of rfl)
  exact ⟨u, e, ((((k _ _ _ _ _ rfl rfl rfl rfl rfl).2.2 rfl (by decide)).2 rfl).2.2.2.1 rfl).2.2.1 rfl, ((((k _ _ _ _ _ rfl rfl rfl rfl rfl).2.2 rfl (by decide)).2 rfl).2.2.2.1 rfl).2.1⟩

theorem witness_ChargeEndsAndReturns_10 (h : Obligations.ChargeEndsAndReturns) : ∃ u, exec (.chargeTick ⟨5000, 3700, 0, 50⟩ []) { fed with cc.charge := .inhibited, cc.params.enable := false, cc.fastTimer := 1799999 } = .next u
    ∧ u.cc.charge = .inhibited := by
  obtain ⟨u, e, k⟩ := h.1 ⟨5000, 3700, 0, 50⟩ [] { fed with cc.charge := .inhibited, cc.params.enable := false, cc.fastTimer := 1799999 } (lasting_of rfl)
  exact ⟨u, e, ((((k _ _ _ _ _ rfl rfl rfl rfl rfl).2.2 rfl (by decide)).2 rfl).2.2.2.1 rfl).2.2.2 rfl (by decide) (by decide)⟩

theorem witness_ChargeEndsAndReturns_11 (h : Obligations.ChargeEndsAndReturns) : ∃ u, exec (.chargeTick ⟨5000, 2999, 0, 50⟩ []) { fed with cc.charge := .qualify } = .next u
    ∧ u.cc.charge = (if (u.cc.noThermistor || decide (u.cc.zone = .cold) || decide (u.cc.zone = .hot)) = true then .suspended else .precharge) := by
  obtain ⟨u, e, k⟩ := h.1 ⟨5000, 2999, 0, 50⟩ [] { fed with cc.charge := .qualify } (lasting_of rfl)
  exact ⟨u, e, by simpa using ((((k _ _ _ _ _ rfl rfl rfl rfl rfl).2.2 rfl (by decide)).2 rfl).2.2.2.2 rfl (.inl (by decide)) (by decide) (by decide)).1 rfl⟩

theorem witness_ChargeEndsAndReturns_12 (h : Obligations.ChargeEndsAndReturns) : ∃ u, exec (.chargeTick ⟨5000, 3000, 0, 50⟩ []) { fed with cc.charge := .precharge, cc.setpoint := 100, cc.prechargeTimer := 179998 } = .next u
    ∧ u.cc.charge = (if (u.cc.noThermistor || decide (u.cc.zone = .cold) || decide (u.cc.zone = .hot)) = true then .suspended else .fast) ∧ u.cc.prechargeTimer = 179999 := by
  obtain ⟨u, e, k⟩ := h.1 ⟨5000, 3000, 0, 50⟩ [] { fed with cc.charge := .precharge, cc.setpoint := 100, cc.prechargeTimer := 179998 } (lasting_of rfl)
  exact ⟨u, e, by simpa using (((((k _ _ _ _ _ rfl rfl rfl rfl rfl).2.2 rfl (by decide)).2 rfl).2.2.2.2 rfl (.inl (by decide)) (by decide) (by decide)).2.1 rfl).1, (((((k _ _ _ _ _ rfl rfl rfl rfl rfl).2.2 rfl (by decide)).2 rfl).2.2.2.2 rfl (.inl (by decide)) (by decide) (by decide)).2.1 rfl).2.1⟩

theorem witness_ChargeEndsAndReturns_13 (h : Obligations.ChargeEndsAndReturns) : ∃ u, exec (.chargeTick ⟨5000, 4200, 0, 50⟩ []) { fed with cc.charge := .fast, cc.setpoint := 700, cc.fastTimer := 1799998 } = .next u
    ∧ u.cc.charge = (if (u.cc.noThermistor || decide (u.cc.zone = .cold) || decide (u.cc.zone = .hot)) = true then .suspended else if (u.cc.params.target : Int) - (if u.cc.zone = .warm then 150 else 0) ≤ 4200 then .taper else .fast)
    ∧ (u.cc.charge = .taper → u.cc.taper = 700) := by
  obtain ⟨u, e, k⟩ := h.1 ⟨5000, 4200, 0, 50⟩ [] { fed with cc.charge := .fast, cc.setpoint := 700, cc.fastTimer := 1799998 } (lasting_of rfl)
  exact ⟨u, e, by simpa using (((((k _ _ _ _ _ rfl rfl rfl rfl rfl).2.2 rfl (by decide)).2 rfl).2.2.2.2 rfl (.inl (by decide)) (by decide) (by decide)).2.2.1 rfl).1, fun t => ((((((k _ _ _ _ _ rfl rfl rfl rfl rfl).2.2 rfl (by decide)).2 rfl).2.2.2.2 rfl (.inl (by decide)) (by decide) (by decide)).2.2.1 rfl).2.1 t).1⟩

theorem witness_ChargeEndsAndReturns_14 (h : Obligations.ChargeEndsAndReturns) : ∃ u, exec (.chargeTick ⟨5000, 4000, 50, 50⟩ []) { fed with cc.charge := .taper, cc.taper := 700, cc.terminationCount := 14 } = .next u
    ∧ (u.cc.charge = .taper → u.cc.taper = (if (u.cc.params.target : Int) - (if u.cc.zone = .warm then 150 else 0) < 4000 then 675 else if 4000 < (u.cc.params.target : Int) - (if u.cc.zone = .warm then 150 else 0) - 10 then min 725 (if u.cc.zone = .cool then u.cc.params.fast / 2 else u.cc.params.fast) else 700)) := by
  obtain ⟨u, e, k⟩ := h.1 ⟨5000, 4000, 50, 50⟩ [] { fed with cc.charge := .taper, cc.taper := 700, cc.terminationCount := 14 } (lasting_of rfl)
  exact ⟨u, e, fun t => by simpa using ((((((k _ _ _ _ _ rfl rfl rfl rfl rfl).2.2 rfl (by decide)).2 rfl).2.2.2.2 rfl (.inl (by decide)) (by decide) (by decide)).2.2.2.1 rfl _ _ rfl rfl).2.1 t).1⟩

theorem witness_ChargeEndsAndReturns_15 (h : Obligations.ChargeEndsAndReturns) : ∃ u, exec (.chargeTick ⟨5000, 4099, 0, 50⟩ []) { fed with cc.charge := .done, cc.rechargeCount := 2 } = .next u
    ∧ u.cc.charge = .done ∧ u.cc.rechargeCount = (if 4099 < (u.cc.params.target : Int) - (if u.cc.zone = .warm then 150 else 0) - 100 then 3 else 0) := by
  obtain ⟨u, e, k⟩ := h.1 ⟨5000, 4099, 0, 50⟩ [] { fed with cc.charge := .done, cc.rechargeCount := 2 } (lasting_of rfl)
  exact ⟨u, e, (((((k _ _ _ _ _ rfl rfl rfl rfl rfl).2.2 rfl (by decide)).2 rfl).2.2.2.2 rfl (.inl (by decide)) (by decide) (by decide)).2.2.2.2.1 rfl (by decide)).1, by simpa using (((((k _ _ _ _ _ rfl rfl rfl rfl rfl).2.2 rfl (by decide)).2 rfl).2.2.2.2 rfl (.inl (by decide)) (by decide) (by decide)).2.2.2.2.1 rfl (by decide)).2⟩

theorem witness_ChargeEndsAndReturns_16 (h : Obligations.ChargeEndsAndReturns) : ∃ u, exec (.chargeTick ⟨5000, 3700, 0, 111⟩ []) { fed with cc.charge := .suspended, cc.fastTimer := 7 } = .next u
    ∧ u.cc.charge = (if (u.cc.noThermistor || decide (u.cc.zone = .cold) || decide (u.cc.zone = .hot)) = true then .suspended else .qualify) ∧ u.cc.fastTimer = 7 := by
  obtain ⟨u, e, k⟩ := h.1 ⟨5000, 3700, 0, 111⟩ [] { fed with cc.charge := .suspended, cc.fastTimer := 7 } (lasting_of rfl)
  exact ⟨u, e, (((((k _ _ _ _ _ rfl rfl rfl rfl rfl).2.2 rfl (by decide)).2 rfl).2.2.2.2 rfl (.inl (by decide)) (by decide) (by decide)).2.2.2.2.2 rfl).1, (((((k _ _ _ _ _ rfl rfl rfl rfl rfl).2.2 rfl (by decide)).2 rfl).2.2.2.2 rfl (.inl (by decide)) (by decide) (by decide)).2.2.2.2.2 rfl).2.2⟩

theorem witness_ChargeEndsAndReturns_17 (h : Obligations.ChargeEndsAndReturns) : ∃ u, exec (.chargeTick ⟨5000, 3700, 0, 50⟩ []) { fed with cc.charge := .inhibited } = .next u
    ∧ u.caused .chargerState = true := by
  obtain ⟨u, e, k⟩ := h.1 ⟨5000, 3700, 0, 50⟩ [] { fed with cc.charge := .inhibited } (lasting_of rfl)
  exact ⟨u, e, (k _ _ _ _ _ rfl rfl rfl rfl rfl).2.1 (by rw [((((k _ _ _ _ _ rfl rfl rfl rfl rfl).2.2 rfl (by decide)).2 rfl).2.2.2.1 rfl).2.2.1 rfl]; decide) rfl⟩

theorem witness_CutoffEndsInOff_1 (h : Obligations.CutoffEndsInOff) : type_of% (
    ((h ⟨0, 3300, -200, 50⟩ [.status] { at_ .halted with ga.cutoffCount := 3, ga.hold := 3 } _ (by decide) rfl).1
      rfl (by decide) rfl (by decide) rfl rfl rfl rfl (by decide) (by decide) rfl).1 (calm_of rfl) rfl rfl rfl
      (.inr (.inr rfl))) :=
  ((h ⟨0, 3300, -200, 50⟩ [.status] { at_ .halted with ga.cutoffCount := 3, ga.hold := 3 } _ (by decide) rfl).1 rfl
    (by decide) rfl (by decide) rfl rfl rfl rfl (by decide) (by decide) rfl).1 (calm_of rfl) rfl rfl rfl
    (.inr (.inr rfl))

theorem witness_CutoffEndsInOff_2 (h : Obligations.CutoffEndsInOff) : type_of% (
    ((h ⟨0, 3300, -200, 50⟩ []
      { working .eraser (.eraseBlock 16) with
        ga.cutoffCount := 3, ga.hold := 4, cw.writer := .stopped } _ (by decide) rfl).1 rfl (by decide) rfl
      (by decide) rfl rfl rfl rfl (by decide) (by decide) rfl).2.1 (calm_of rfl) rfl rfl (by decide) (by decide)
      (.inl rfl)) :=
  ((h ⟨0, 3300, -200, 50⟩ []
    { working .eraser (.eraseBlock 16) with
      ga.cutoffCount := 3, ga.hold := 4, cw.writer := .stopped } _ (by decide) rfl).1 rfl (by decide) rfl
    (by decide) rfl rfl rfl rfl (by decide) (by decide) rfl).2.1 (calm_of rfl) rfl rfl (by decide) (by decide)
    (.inl rfl)

theorem witness_CutoffEndsInOff_3 (h : Obligations.CutoffEndsInOff) : type_of% (
    ((h ⟨0, 3300, -200, 50⟩ [] { filled .recording with ga.cutoffCount := 3, ga.hold := 4 } _ (by decide) rfl).1 rfl
      (by decide) rfl (by decide) rfl rfl rfl rfl (by decide) (by decide) rfl).2.2 (resting_of rfl)
      (.inr ⟨(fun _ k => by cases k; decide +kernel), rfl, rfl⟩) rfl (by decide) (.inl rfl)) :=
  ((h ⟨0, 3300, -200, 50⟩ [] { filled .recording with ga.cutoffCount := 3, ga.hold := 4 } _ (by decide) rfl).1 rfl
    (by decide) rfl (by decide) rfl rfl rfl rfl (by decide) (by decide) rfl).2.2 (resting_of rfl)
    (.inr ⟨(fun _ k => by cases k; decide +kernel), rfl, rfl⟩) rfl (by decide) (.inl rfl)

theorem witness_CutoffEndsInOff_4 (h : Obligations.CutoffEndsInOff) : type_of% (
    ((h ⟨0, 3300, -200, 50⟩ [.scan, .flash] { filled .closing with ga.cutoffCount := 3, ga.hold := 4 } _ (by decide)
      rfl).1 rfl (by decide) rfl (by decide) rfl rfl rfl rfl (by decide) (by decide) rfl).2.2 (resting_of rfl)
      (.inr ⟨(fun _ k => by cases k; decide +kernel), rfl, rfl⟩) rfl (by decide) (.inr rfl)) :=
  ((h ⟨0, 3300, -200, 50⟩ [.scan, .flash] { filled .closing with ga.cutoffCount := 3, ga.hold := 4 } _ (by decide)
    rfl).1 rfl (by decide) rfl (by decide) rfl rfl rfl rfl (by decide) (by decide) rfl).2.2 (resting_of rfl)
    (.inr ⟨(fun _ k => by cases k; decide +kernel), rfl, rfl⟩) rfl (by decide) (.inr rfl)

theorem witness_CutoffEndsInOff_5 (h : Obligations.CutoffEndsInOff) : type_of% (
    (h ⟨0, 3300, -200, 50⟩ [] { at_ .running with ga.level := .cutoff, ga.grace := some 1, cw.writer := .recording }
      _ (by decide) rfl).2.1 rfl rfl) :=
  (h ⟨0, 3300, -200, 50⟩ [] { at_ .running with ga.level := .cutoff, ga.grace := some 1, cw.writer := .recording } _
    (by decide) rfl).2.1 rfl rfl

theorem witness_CutoffEndsInOff_6 (h : Obligations.CutoffEndsInOff) : type_of% (
    (h ⟨0, 3300, -200, 50⟩ [] { at_ .running with ga.level := .cutoff, ga.grace := some 2 } _ (by decide) rfl).2.2
      (by decide)) :=
  (h ⟨0, 3300, -200, 50⟩ [] { at_ .running with ga.level := .cutoff, ga.grace := some 2 } _ (by decide) rfl).2.2
    (by decide)

theorem witness_FlashAtTick_1 (h : Obligations.FlashAtTick) : type_of% (
    (h reading [.gauge] { at_ .idle with fe.rail := .ready, fe.idle := 1 } (lasting_of rfl) (resting_of rfl)
      (.inl rfl)).1 rfl rfl rfl rfl rfl (.inr (.inr rfl))) :=
  (h reading [.gauge] { at_ .idle with fe.rail := .ready, fe.idle := 1 } (lasting_of rfl) (resting_of rfl)
    (.inl rfl)).1 rfl rfl rfl rfl rfl (.inr (.inr rfl))

theorem witness_FlashAtTick_2 (h : Obligations.FlashAtTick) : type_of% (
    (h reading [] (at_ .idle) (lasting_of rfl) (resting_of rfl) (.inl rfl)).2.1 (by decide)) :=
  (h reading [] (at_ .idle) (lasting_of rfl) (resting_of rfl) (.inl rfl)).2.1 (by decide)

theorem witness_FlashAtTick_3 (h : Obligations.FlashAtTick) : type_of% (
    (h reading []
      { served .recording [] with
        cw := { Cw.reset with writer := .recording, deadline := some 10001, assembly := [1], queue := [mediaTaken] }
        fe := { Fe.reset with rail := .ready, idle := 1, identity := .isMatch }, ga.present := true
        cc.present := true } (lasting_of rfl) (resting_of rfl) (.inl rfl)).2.2.1 10001 rfl rfl rfl (by decide) rfl
      (by decide) (by decide) (by decide) rfl rfl (by decide)) :=
  (h reading []
    { served .recording [] with
      cw := { Cw.reset with writer := .recording, deadline := some 10001, assembly := [1], queue := [mediaTaken] }
      fe := { Fe.reset with rail := .ready, idle := 1, identity := .isMatch }, ga.present := true
      cc.present := true } (lasting_of rfl) (resting_of rfl) (.inl rfl)).2.2.1 10001 rfl rfl rfl (by decide) rfl
    (by decide) (by decide) (by decide) rfl rfl (by decide)

theorem witness_FlashAtTick_4 (h : Obligations.FlashAtTick) : type_of% (
    (h reading [.gauge] { at_ .idle with fe.rail := .ready, fe.idle := 2 } (lasting_of rfl) (resting_of rfl)
      (.inl rfl)).2.2.2.1 0 rfl rfl rfl rfl rfl (.inr (.inr rfl))) :=
  (h reading [.gauge] { at_ .idle with fe.rail := .ready, fe.idle := 2 } (lasting_of rfl) (resting_of rfl)
    (.inl rfl)).2.2.2.1 0 rfl rfl rfl rfl rfl (.inr (.inr rfl))

theorem witness_FlashAtTick_5 (h : Obligations.FlashAtTick) : type_of% (
    (h reading []
      { served .recording [] with
        cw := { Cw.reset with writer := .recording, deadline := some 10000, assembly := [1], queue := [mediaTaken] }
        fe := { Fe.reset with rail := .off, idle := 1, identity := .isMatch }, ga.present := true
        cc.present := true } (lasting_of rfl) (resting_of rfl) (.inl rfl)).2.2.2.2.1 10000 8191 0 (segOf .opened 16)
      rfl (by decide) (by decide) (by decide) rfl rfl (by decide) (.inl rfl) rfl rfl rfl (by decide) rfl (by decide)
      (by decide) rfl rfl ⟨rfl, rfl, rfl, rfl, rfl⟩) :=
  (h reading []
    { served .recording [] with
      cw := { Cw.reset with writer := .recording, deadline := some 10000, assembly := [1], queue := [mediaTaken] }
      fe := { Fe.reset with rail := .off, idle := 1, identity := .isMatch }, ga.present := true
      cc.present := true } (lasting_of rfl) (resting_of rfl) (.inl rfl)).2.2.2.2.1 10000 8191 0 (segOf .opened 16)
    rfl (by decide) (by decide) (by decide) rfl rfl (by decide) (.inl rfl) rfl rfl rfl (by decide) rfl (by decide)
    (by decide) rfl rfl ⟨rfl, rfl, rfl, rfl, rfl⟩

theorem witness_FlashAtTick_6 (h : Obligations.FlashAtTick) : type_of% (
    (h reading [] (at_ .idle) (lasting_of rfl) (resting_of rfl) (.inl rfl)).2.2.2.2.2 rfl) :=
  (h reading [] (at_ .idle) (lasting_of rfl) (resting_of rfl) (.inl rfl)).2.2.2.2.2 rfl

theorem witness_StatusRefreshed_1 (h : Obligations.StatusRefreshed) : type_of% (
    (h.1 (at_ .standby)).1 (.inr rfl)) :=
  (h.1 (at_ .standby)).1 (.inr rfl)

theorem witness_StatusRefreshed_2 (h : Obligations.StatusRefreshed) : type_of% (
    (h.1 { at_ .idle with hp.status := some 16777120 }).2 16777120 _ (.inl rfl) (by decide) rfl (by decide) rfl rfl) :=
  (h.1 { at_ .idle with hp.status := some 16777120 }).2 16777120 _ (.inl rfl) (by decide) rfl (by decide) rfl rfl

theorem witness_StatusRefreshed_3 (h : Obligations.StatusRefreshed) : type_of% (
    h.2 reading [] { at_ .running with hp.status := some 16777120 } 16777120 (calm_of rfl) (lasting_of rfl) rfl
      (by decide) rfl rfl (.inr (.inr rfl)) (by decide) rfl (by decide) rfl) :=
  h.2 reading [] { at_ .running with hp.status := some 16777120 } 16777120 (calm_of rfl) (lasting_of rfl) rfl
    (by decide) rfl rfl (.inr (.inr rfl)) (by decide) rfl (by decide) rfl

theorem witness_ImageHoldsTable_1 (h : Obligations.ImageHoldsTable) : type_of% (
    h
      { at_ .idle with
        fe.bad := [16, 65535], fe.pool := [20]
        sm :=
          { (served .stopped []).sm with
            segments := [{ segOf .closed 16 with protection := some ⟨.impact, 9⟩, weak := true }] } } (by decide)
      (by decide) (by decide) (by decide) (by decide) (by decide) (by decide)) :=
  h
    { at_ .idle with
      fe.bad := [16, 65535], fe.pool := [20]
      sm :=
        { (served .stopped []).sm with
          segments := [{ segOf .closed 16 with protection := some ⟨.impact, 9⟩, weak := true }] } } (by decide)
    (by decide) (by decide) (by decide) (by decide) (by decide) (by decide)

/-- Running with frame 39 of 40 Captured, and one Closed segment of all the blocks, protected by an impact. -/
def ridden : State :=
  { at_ .running with
    rck := { Rck.reset with filter := .low, nextFrame := .number 40 }
    pu := { Pu.reset with shadows := (List.replicate 32 Shadow.empty).set 7 { Shadow.empty with state := .captured, frame := 39 } }
    sm := { Sm.reset with
      table := .mounted, impactCount := 1
      segments := [{ blankSegment .closed (List.range' 16 16368) with protection := some ⟨.impact, 9⟩ }] } }

theorem test_ridden_frames : FramesPlaced ridden := by
  intro i h hi hn
  have hl : ridden.pu.shadows = (List.replicate 32 Shadow.empty).set 7 { Shadow.empty with state := .captured, frame := 39 } :=
    rfl
  rw [hl, List.getElem?_set] at hi
  split at hi
  · subst i
    obtain rfl := Option.some.inj hi
    exact ⟨rfl, by decide, by decide⟩
  · rw [List.eq_of_mem_replicate (List.mem_of_getElem? hi)] at hn
    exact absurd rfl hn

theorem test_ridden_blocks : BlocksPlaced ridden := by
  intro b h1 h2
  have hl : [] ++ [] ++ [List.range' 16 16368].flatten = List.range' 16 16368 := by simp
  show ([] ++ [] ++ [List.range' 16 16368].flatten).count b = 1
  rw [hl]
  exact List.count_eq_one_of_mem List.nodup_range' (List.mem_range'_1.2 ⟨h1, h2⟩)

theorem test_ridden_lawful : Lawful ridden where
  memory := rfl
  clock := Nat.zero_le _
  gauge := Nat.zero_le _
  setpoint := rfl
  directory := rfl
  badList := ⟨rfl, by decide⟩
  tables := {
    few := by show 1 ≤ 256; decide
    unprotected := by
      intro e he hd
      obtain rfl := List.mem_singleton.1 he
      cases hd
    erasing := fun j e h => by cases h
    placed := fun _ => test_ridden_blocks
    limited := fun _ => ⟨rfl, by decide⟩
    fresh := fun h => by cases h
    single := .inl rfl
    formatting := fun h => absurd rfl h
    mounting := fun h => absurd rfl h
    reading := fun r h => by cases h }
  frames := {
    placed := test_ridden_frames
    number := fun n h => by obtain rfl := FrameNumber.number.inj h; decide
    filter := fun _ => rfl
    mounting := fun h => by cases h
    leaving := fun h => by rcases h with h | h <;> cases h }

theorem witness_StepKeepsLaws_1 (h : Obligations.StepKeepsLaws) : type_of% (h ridden ridden test_ridden_lawful rfl) :=
  h ridden ridden test_ridden_lawful rfl

theorem witness_GaugeCountLaw_1 (h : Obligations.GaugeCountLaw) : type_of% (
    ((h.1 reading { at_ .idle with ga.estimated := true } rfl).2 (Nat.zero_le _) (by decide) (by decide))) :=
  ((h.1 reading { at_ .idle with ga.estimated := true } rfl).2 (Nat.zero_le _) (by decide) (by decide))

theorem witness_GaugeCountLaw_2 (h : Obligations.GaugeCountLaw) : type_of% (
    h.2 (at_ .idle) (at_ .idle) (Nat.zero_le _) rfl) :=
  h.2 (at_ .idle) (at_ .idle) (Nat.zero_le _) rfl

theorem witness_EventsPersist_1 (h : Obligations.EventsPersist) : type_of% (
    (h .sampleTick (at_ .idle) (at_ .idle) rfl (by decide) trivial).2 (fun _ => rfl)) :=
  (h .sampleTick (at_ .idle) (at_ .idle) rfl (by decide) trivial).2 (fun _ => rfl)

theorem witness_FlashContained_1 (h : Obligations.FlashContained) : type_of% (
    h 0 plain #v[0, 0, 0, 0] ⟨[]⟩ 0 true (.resetDone 0 plain) (at_ .idle) (at_ .idle) (by decide) rfl rfl (.inl rfl)
      rfl) :=
  h 0 plain #v[0, 0, 0, 0] ⟨[]⟩ 0 true (.resetDone 0 plain) (at_ .idle) (at_ .idle) (by decide) rfl rfl (.inl rfl)
    rfl

end
end

section
/-! The laws that every step keeps (R1, R77, R149, R154, R172, R175): what each command leads to, from what its body keeps. -/

namespace Sys2Proof.Machine

variable {s t : State}

/-! ### What a command leads to -/

/-- A regular change, after which what waits may go on (R94, R99, R105, R162). -/
def Course (s t : State) : Prop := ∃ u, Regular s u ∧ (t = u ∨ t = finish u)

/-- Every next state of this answer comes by such a course. -/
def Courses (s : State) (a : Answer) : Prop := ∀ t, a = .next t → Course s t

theorem Course.stays (s : State) : Course s s := ⟨s, Regular.refl s, .inl rfl⟩

theorem Course.courses (h : Course s t) : Courses s (.next t) := by
  rintro u ⟨⟩
  exact h

theorem live_courses {f : State → State} (h : Regular s (f s)) : Courses s (.next (live f s)) := by
  refine Course.courses ?_
  unfold live
  split
  · exact Course.stays s
  · exact ⟨f s, h, .inr rfl⟩

theorem powered_courses {f : State → State} (h : Regular s (f s)) : Courses s (.next (powered f s)) := by
  refine Course.courses ?_
  unfold powered
  split
  · exact Course.stays s
  · exact ⟨f s, h, .inl rfl⟩

theorem derived_courses {body : State → State} {came : State → State → Bool} (h : Regular s (body s)) :
    Courses s (.next (derived body came s)) := by
  refine Course.courses ?_
  unfold derived
  split
  · exact Course.stays s
  · split
    · exact ⟨body s, h, .inr rfl⟩
    · exact Course.stays s

theorem addressed_courses {inside : Bool} {f : State → State} (h : Regular s (f s)) :
    Courses s (addressed inside false f s) := by
  unfold addressed
  split
  · exact powered_courses h
  · rintro t ⟨⟩

/-- A write of CONTROL, of DIRECTORY or of EVENT_MASK clears no cause (R175). -/
theorem bodyRegister_regular (u : Stamp) (i : Nat) (v : Word) (course : ReadCourse) (hi : i ≠ 3) :
    Regular s (bodyRegister u i v course s) := by
  have hp := portAccess_regular (Regular.refl s) u false
  unfold bodyRegister registerWrite
  split
  · exact controlWrite_regular hp v course
  · exact directoryWrite_regular hp v
  · exact absurd rfl hi
  · exact eventMaskWrite_regular hp v
  · exact hp

/-- The commands that can clear a cause: a write that reaches EVENTS, the resets, and the readings that can wake the part
from Off. -/
def clears : Instr → Bool
  | .powerOnReset => true
  | .wake _ => true
  | .wakeDetectorReading _ => true
  | .resetn _ _ => true
  | .resetTransitionEnd _ => true
  | .eventsClear _ _ => true
  | .registerWrite _ _ _ => true
  | .halfWriteLow _ _ _ _ _ => true
  | _ => false

/-- Every other command makes a regular change, after which what waits may go on. -/
theorem exec_courses {c : Instr} (hc : clears c = false) : Courses s (exec c s) := by
  have h := Regular.refl s
  cases c with
  | powerOnReset => cases hc
  | selfTestEnd u r => exact live_courses (bodySelfTestEnd_regular h u r)
  | clockLoss u b => exact live_courses (bodyClockLoss_regular h u b)
  | wake v => cases hc
  | resetn u l => cases hc
  | resetTransitionEnd u => cases hc
  | chargeTick m o => exact live_courses (bodyChargeTick_regular h m o)
  | sampleTick => exact live_courses (bodySampleTick_regular h)
  | frameStart o => exact live_courses (bodyFrameStart_regular h o)
  | silenceExpiry => exact live_courses (bodySilenceExpiry_regular h)
  | identityReadDone u r => exact live_courses (bodyIdentityReadDone_regular h u r)
  | rateWriteDone u r => exact live_courses (bodyRateWriteDone_regular h u r)
  | sampleBurstDone u b => exact live_courses (bodySampleBurstDone_regular h u b)
  | imuResponseTimeout u => exact live_courses (bodyImuResponseTimeout_regular h u)
  | attemptsExhausted u r => exact derived_courses (bodyAttempt_regular h u r)
  | goodRunComplete u b => exact derived_courses (bodySampleBurstDone_regular h u b)
  | missingRunComplete u b => exact derived_courses (bodyBurst_regular h u b)
  | stillRunComplete u b => exact derived_courses (bodySampleBurstDone_regular h u b)
  | impactDeclared u b => exact derived_courses (bodySampleBurstDone_regular h u b)
  | settleEnd => exact live_courses bodySettleEnd_regular
  | resetDone u o => exact live_courses (ofCompletion _ (bodyResetDone_recording u o s))
  | readIdDone u i o => exact live_courses (ofCompletion _ (bodyReadIdDone_recording u i o s))
  | readPageDone u p o => exact live_courses (ofCompletion _ (bodyReadPageDone_recording u p o s))
  | readMarkerDone u v o => exact live_courses (ofCompletion _ (bodyReadMarkerDone_recording u v o s))
  | programPageDone u p o => exact live_courses (ofCompletion _ (bodyProgramPageDone_recording u p o s))
  | eraseBlockDone u p o => exact live_courses (ofCompletion _ (bodyEraseBlockDone_recording u p o s))
  | operationTimeout o => exact live_courses (bodyOperationTimeout_regular o)
  | idleTimeout m o => exact derived_courses (bodyChargeTick_regular h m o)
  | media u i => exact live_courses (bodyTake_regular .media u i)
  | start u i => exact live_courses (bodyTake_regular .start u i)
  | stopRequest u i => exact live_courses (bodyTake_regular .stop u i)
  | split u i => exact live_courses (bodyTake_regular .split u i)
  | protect u i => exact live_courses (bodyTake_regular .protect u i)
  | unprotect u i => exact live_courses (bodyTake_regular .unprotect u i)
  | fetch u i => exact live_courses (bodyTake_regular .fetch u i)
  | format u i => exact live_courses (bodyTake_regular .format u i)
  | commitDeadline m o => exact derived_courses (bodyChargeTick_regular h m _)
  | inputQualification m o => exact derived_courses (bodyChargeTick_regular h m o)
  | safetyTimerExpiry m o => exact derived_courses (bodyChargeTick_regular h m o)
  | batteryOvervoltage m o => exact derived_courses (bodyChargeTick_regular h m o)
  | termination m o => exact derived_courses (bodyChargeTick_regular h m o)
  | recharge m o => exact derived_courses (bodyChargeTick_regular h m o)
  | cutoff m o => exact derived_courses (bodyChargeTick_regular h m o)
  | graceTimerExpiry m o => exact derived_courses (bodyChargeTick_regular h m o)
  | run u k => exact live_courses (bodyRegister_regular u 0 _ k (by decide))
  | mountWorkEnd u => exact live_courses (bodyMountWorkEnd_regular h u)
  | controlStop u => exact live_courses (bodyRegister_regular u 0 _ _ (by decide))
  | writerClosed u => exact live_courses (bodyWriterClosed_regular h u)
  | standby u => exact live_courses (bodyRegister_regular u 0 _ _ (by decide))
  | standbyEntry u => exact live_courses (bodyStandbyEntry_regular h u)
  | reset u => exact live_courses (bodyRegister_regular u 0 _ _ (by decide))
  | attention u => exact live_courses (bodyRegister_regular u 0 _ _ (by decide))
  | reload u => exact live_courses (bodyRegister_regular u 0 _ _ (by decide))
  | heldReload u => exact live_courses (bodyHeldReload_regular h u)
  | directoryWrite u v => exact powered_courses (bodyRegister_regular u 2 v _ (by decide))
  | eventsClear u v => cases hc
  | eventMaskWrite u v => exact powered_courses (bodyRegister_regular u 4 v _ (by decide))
  | registerWrite u a v => cases hc
  | halfReadLow u r w => exact addressed_courses (bodyHalfReadLow_regular h u r w)
  | halfReadHigh u r w => exact addressed_courses (bodyHalfReadHigh_regular h u r w)
  | halfWriteHigh u r w v => exact addressed_courses (bodyHalfWriteHigh_regular h u v)
  | halfWriteLow u r w v k => cases hc
  | frameStartLineChange u b o => exact live_courses (bodyLineChange_regular h u b o)
  | wakeDetectorReading v => cases hc

/-! ### The laws of a state (R1, R77, R149, R154, R172) -/

/-- Such a course keeps the laws. -/
theorem Course.keeps (h : Course s t) : Keeps s t := by
  obtain ⟨u, hu, rfl | rfl⟩ := h
  · exact hu.keeps
  · exact finish_keeps hu.keeps

theorem addressed_keeps {inside acts : Bool} {f : State → State} (hf : Keeps s (f s))
    (h : addressed inside acts f s = .next t) : Keeps s t := by
  unfold addressed at h
  split at h
  · cases h
    split
    · exact live_keeps hf
    · exact powered_keeps hf
  · cases h

/-- A command that can clear a cause keeps the laws: the values that a reset leaves obey them. -/
theorem exec_keeps_of_clears {c : Instr} (hc : clears c = true) (h : exec c s = .next t) : Keeps s t := by
  cases c with
  | powerOnReset =>
    cases h
    exact powerOn_keeps (Regular.refl s).keeps
  | wake v =>
    cases h
    split
    · exact powerOn_keeps (Regular.refl s).keeps
    · exact (Regular.refl s).keeps
  | resetn u l =>
    cases h
    exact live_keeps (bodyResetn_keeps u l)
  | resetTransitionEnd u =>
    cases h
    exact live_keeps (bodyResetTransitionEnd_keeps u)
  | eventsClear u v =>
    cases h
    exact powered_keeps (bodyRegister_keeps u 3 v .first)
  | registerWrite u a v => exact addressed_keeps (bodyRegisterHalf_keeps u a v) h
  | halfWriteLow u r w v k => exact addressed_keeps (bodyHalfWriteLow_keeps u r w v k) h
  | wakeDetectorReading v =>
    cases h
    exact wakeReading_keeps v
  | _ => cases hc

theorem exec_keeps {c : Instr} (h : exec c s = .next t) : Keeps s t := by
  cases hc : clears c with
  | true => exact exec_keeps_of_clears hc h
  | false => exact (exec_courses hc t h).keeps

/-- The laws do not speak of the queue. -/
theorem Lawful.queue (h : Lawful s) (q : List Instr) : Lawful { s with pending := q } :=
  ⟨h.memory, h.clock, h.gauge, h.setpoint, h.directory, h.badList,
    { h.tables with placed := h.tables.placed, limited := h.tables.limited }, { h.frames with placed := h.frames.placed }⟩

/-- Settles O56: an idle step changes nothing, and each command keeps the laws with the rest of the queue. -/
theorem stepKeepsLaws : Obligations.StepKeepsLaws := by
  intro s t hs h
  unfold step at h
  split at h
  · cases h
    exact hs
  · exact (exec_keeps h).lawful (hs.queue _)

/-- Settles O57: the reset values are lawful with any part and any queue. -/
theorem resetLawful : Obligations.ResetLawful :=
  reset_lawful Part.reset Rck.reset Ga.reset [] rfl rfl rfl rfl rfl

/-! ### The ride clock and the causes (R1, R175) -/

/-- Such a course takes the part to Off, or neither turns the clock back nor clears a cause. -/
theorem Course.regular_or_off (h : Course s t) : Regular s t ∨ t.part.state = .off := by
  obtain ⟨u, hu, rfl | rfl⟩ := h
  · exact .inl hu
  · unfold finish
    split
    · exact .inl hu
    · dsimp only
      split
      · exact .inl (smIntake_regular (cwRun_regular (smGoOn_regular hu)))
      · exact .inr rfl

/-- What the end of a reset transition does to the ride clock: nothing (R184). -/
theorem endReset_rck (s : State) : (endReset s).rck = s.rck := by
  have hb : (resetBlocks s.part.byResetn s).rck = s.rck := by
    unfold resetBlocks muReset
    split <;> rfl
  have hg := (gaCheck_recording (Recording.refl { resetBlocks s.part.byResetn s with part.byResetn := false })).rck
  unfold endReset
  dsimp only
  split
  · exact (raise_rck _ _).trans (hg.trans hb)
  · exact hg.trans hb

/-- Whether RESETn began the reset transition or not, its end does not turn the clock back (R1). -/
theorem bodyResetTransitionEnd_clock (u : Stamp) (s : State) : s.rck.clock ≤ (bodyResetTransitionEnd u s).rck.clock := by
  have ha := (advance_regular (Regular.refl s) u.toNat).clock
  unfold bodyResetTransitionEnd
  dsimp only
  split
  · split
    · rw [endReset_rck]
      exact ha
    · exact ha
  · exact ha

/-- Settles O59: every command but those that clear makes a regular change, and so does the end of a reset transition that
RESETn has no part in. -/
theorem eventsPersist : Obligations.EventsPersist := by
  intro c s t h ht hc
  have hcl : clears c = false ∨ ∃ u, c = .resetTransitionEnd u := by
    cases c <;> simp_all [clears]
  obtain hcl | ⟨u, rfl⟩ := hcl
  · have hr := (exec_courses hcl t h).regular_or_off.resolve_right ht
    exact ⟨hr.clock, fun _ => hr.causes⟩
  · have e : live (bodyResetTransitionEnd u) s = t := Host.Outcome.next.inj h
    refine ⟨?_, fun hb => ?_⟩
    · unfold live at e
      split at e
      · rw [e]
      · have hf : Course (bodyResetTransitionEnd u s) t := ⟨_, Regular.refl _, .inr e.symm⟩
        exact (bodyResetTransitionEnd_clock u s).trans (hf.regular_or_off.resolve_right ht).clock
    · have hr := live_courses (bodyResetTransitionEnd_regular (Regular.refl s) (hb ⟨u, rfl⟩) u) t h
      exact (hr.regular_or_off.resolve_right ht).causes

end Sys2Proof.Machine
end

section
/-! The timers and the frame filter of the Ride Clock (Section 1), and the end of the mount work (R181): commands that end in
a state where nothing waits. -/

namespace Sys2Proof.Machine

variable {s t : State}

/-! ### Commands that end calm -/

/-- What `Still` speaks of. -/
theorem Still.congr (h : Still s) (hp : t.part.state ≠ .off) (hg : t.ga = s.ga) (hc : t.cw = s.cw)
    (hm : t.mu.marks = s.mu.marks) : Still t where
  powered := hp
  asserted := hg ▸ h.asserted
  noRequest := hc ▸ h.noRequest
  noJob := hc ▸ h.noJob
  noReappend := hc ▸ h.noReappend
  noResume := hc ▸ h.noResume
  noStopDue := hc ▸ h.noStopDue
  notFull := hc ▸ h.notFull
  notClosing := hc ▸ h.notClosing
  noMarks := hm.trans h.noMarks

/-- What `Calm` speaks of. -/
theorem Calm.congr (h : Calm s) (hp : t.part.state ≠ .off) (hg : t.ga = s.ga) (hc : t.cw = s.cw)
    (hm : t.mu.marks = s.mu.marks) (hs : t.sm = s.sm) : Calm t where
  toStill := h.toStill.congr hp hg hc hm
  noMount := hs ▸ h.noMount
  noFormat := hs ▸ h.noFormat

/-- A live command that ends in a state where nothing goes on. -/
theorem live_ends {f : State → State} (hp : s.part.state ≠ .off) (hf : f s = t) (ht : finish t = t) : live f s = t := by
  unfold live
  rw [if_neg hp, hf, ht]

/-- A command of a calm state that leaves alone what the writer, the Segment Manager and the Gauge wait for ends with its own
effect. -/
theorem Calm.live_eq {f : State → State} (h : Calm s) (hf : f s = t) (hp : t.part.state ≠ .off) (hg : t.ga = s.ga)
    (hc : t.cw = s.cw) (hm : t.mu.marks = s.mu.marks) (hs : t.sm = s.sm) :
    live f s = t :=
  live_ends h.powered hf (h.congr hp hg hc hm hs).finish

/-- A command of a calm state that moves the Ride Clock alone. -/
theorem Calm.live_rck {f : State → State} {r : Rck} (h : Calm s) (hf : f s = { s with rck := r }) :
    live f s = { s with rck := r } :=
  h.live_eq hf h.powered rfl rfl rfl rfl

/-! ### The frame filter (R7, R9, R10) -/

/-- No other change of the line moves the filter (R7). -/
theorem rckSample_stays {high : Bool} (o : List FrameDelivery)
    (h : s.rck.filter = .off ∨ (s.rck.filter = .low ∧ high = false) ∨ (s.rck.filter = .high ∧ high = true)) :
    rckSample high o s = s := by
  unfold rckSample
  rcases h with h | ⟨h, rfl⟩ | ⟨h, rfl⟩ <;> rw [h]

/-- A low line rejects the edge (R7). -/
theorem rckSample_rejects (o : List FrameDelivery) (h : s.rck.filter = .qualifying) :
    rckSample false o s = { s with rck.filter := .low, rck.filterRun := 0 } := by
  unfold rckSample
  rw [h]

/-- A low line ends the accepted pulse (R7). -/
theorem rckSample_falls (o : List FrameDelivery) (h : s.rck.filter = .high) :
    rckSample false o s = { s with rck.filter := .low } := by
  unfold rckSample
  rw [h]

/-- An edge begins to qualify (R7). -/
theorem rckSample_rises (o : List FrameDelivery) (h : s.rck.filter = .low) (hl : s.rck.filterLength ≠ 0) :
    rckSample true o s = { s with rck.filter := .qualifying, rck.filterRun := 0 } := by
  unfold rckSample
  rw [h]
  exact if_neg hl

/-- The filter's state before the edge is qualified has no part in what follows (R9, R10). -/
theorem rckQualified_filter (o : List FrameDelivery) (s : State) (f : FilterState) (n : Nat) :
    rckQualified o { s with rck.filter := f, rck.filterRun := n } = rckQualified o s := rfl

/-- A clock that stands where it is told to come to stays there. -/
theorem advance_now (h : s.rck.filterRun = 0) : s.advance s.now = s := by
  have hc : max s.rck.clock (min s.rck.clock lastClock) = s.rck.clock := by omega
  have hr : (if s.rck.filter = .qualifying then min 8 (s.rck.filterRun + (s.rck.clock - s.rck.clock)) else s.rck.filterRun)
      = s.rck.filterRun := by
    rw [h]
    split <;> simp
  unfold State.advance State.now
  simp only [hc, hr]

/-- A glitch is counted, and nothing else but the filter moves (R9). -/
theorem rckQualified_glitch (o : List FrameDelivery) (h : isGlitch s.rck s.now = true) :
    rckQualified o s
      = { s with rck.filter := .high, rck.filterRun := 0, rck.glitches := min (s.rck.glitches + 1) (2 ^ 32 - 1) } := by
  unfold rckQualified
  exact if_pos h

/-- What makes a qualified edge a glitch (R9, R10). -/
theorem isGlitch_of {r : Rck} {e : Nat}
    (h : r.nextFrame = .exhausted ∨ ∃ l, r.lastAccepted = some l ∧ e - l < r.minInterval) : isGlitch r e = true := by
  unfold isGlitch
  rcases h with h | ⟨l, h, hl⟩
  · simp [h]
  · simp [h, hl]

/-- An edge with a filter length of 0 is qualified as if its run were complete (R7). -/
theorem rckSample_atOnce (o : List FrameDelivery) (h : s.rck.filter = .low) (hl : s.rck.filterLength = 0) :
    rckSample true o s = bodyFrameStart o { s with rck.filter := .qualifying, rck.filterRun := 0 } := by
  have hs : rckSample true o s = rckQualified o s := by
    unfold rckSample
    rw [h]
    exact if_pos hl
  rw [hs, bodyFrameStart, if_pos rfl]
  show _ = rckQualified o (State.advance _ (s.now + (s.rck.filterLength - 0)))
  rw [hl]
  have ha : State.advance { s with rck.filter := .qualifying, rck.filterRun := 0 } (s.now + (0 - 0))
      = { s with rck.filter := .qualifying, rck.filterRun := 0 } := advance_now rfl
  rw [ha]
  exact (rckQualified_filter o s .qualifying 0).symm

/-- FRAME_START of a glitch: the clock comes to the time at which the run is complete (log 28). -/
theorem bodyFrameStart_glitch (o : List FrameDelivery) {e : Nat} (hq : s.rck.filter = .qualifying)
    (he : e = s.rck.clock + (s.rck.filterLength - s.rck.filterRun)) (hl : e ≤ lastClock)
    (hg : s.rck.nextFrame = .exhausted ∨ ∃ l, s.rck.lastAccepted = some l ∧ e - l < s.rck.minInterval) :
    bodyFrameStart o s
      = { s with
          rck := { s.rck with
            clock := e, filter := .high, filterRun := 0, glitches := min (s.rck.glitches + 1) (2 ^ 32 - 1) } } := by
  have hc : (s.advance e).rck.clock = e := by
    rw [advance_rck_clock]
    omega
  unfold bodyFrameStart
  rw [if_pos hq, State.now, ← he, rckQualified_glitch o (by rw [State.now, hc]; exact isGlitch_of hg)]
  simp only [State.advance] at hc ⊢
  simp only [hc]

/-- FRAME_START_LINE_CHANGE of a filter that moves the Ride Clock alone (R7). -/
theorem exec_lineChange {u : Stamp} {high : Bool} {o : List FrameDelivery} {r : Rck} (h : Calm s)
    (hr : rckSample high o { s.advance u.toNat with rck.line := high } = { s with rck := r }) :
    exec (.frameStartLineChange u high o) s = .next { s with rck := r } :=
  congrArg _ (h.live_rck (f := bodyLineChange u high o) hr)

/-- Settles O18: each change of the line by the filter's state, and the edge that is a glitch. -/
theorem frameFilter : Obligations.FrameFilter := by
  refine ⟨fun u high o s h => ⟨fun hf => ?_, fun hf hh => ?_, fun hf hh => ?_, fun hf hh hl => ?_, fun hf hh hl => ?_⟩,
    fun o s h hf => ?_, fun o s e h hf he hl hg => ?_⟩
  · exact exec_lineChange h (rckSample_stays o hf)
  · subst hh
    exact exec_lineChange h (rckSample_rejects o hf)
  · subst hh
    exact exec_lineChange h (rckSample_falls o hf)
  · subst hh
    exact exec_lineChange h (rckSample_rises o hf hl)
  · subst hh
    have hb := rckSample_atOnce (s := { s.advance u.toNat with rck.line := true }) o hf hl
    refine congrArg Host.Outcome.next ?_
    unfold live
    rw [if_neg h.powered, if_neg (by exact h.powered)]
    exact congrArg finish hb
  · exact congrArg _ (h.live_rck (f := bodyFrameStart o) (if_neg hf))
  · exact congrArg _ (h.live_rck (bodyFrameStart_glitch o hf he hl hg))

/-! ### A table with no tenant -/

/-- No entry is found where none satisfies the test. -/
theorem entriesByFrame_none {p : Pu} {test : Shadow → Bool} (h : ∀ x ∈ p.shadows, test x = false) :
    entriesByFrame p test = [] := by
  have hi : indicesWhere test p.shadows = [] :=
    List.eq_nil_iff_forall_not_mem.2 fun i hi => by
      obtain ⟨x, hx, ht⟩ := mem_indicesWhere hi
      rw [h x (List.mem_of_getElem? hx)] at ht
      cases ht
  unfold entriesByFrame
  rw [hi]
  rfl

/-- No entry has the state of a live frame. -/
theorem Untracked.stateless (h : Untracked s) {st : RecordState} (hs : st ≠ .free) :
    ∀ x ∈ s.pu.shadows, decide (x.state = st) = false := fun x hx => by
  rw [(h x hx).1]
  exact decide_eq_false (Ne.symm hs)

/-- With no frame record to make Final a path break moves the path number only (R48). -/
theorem puBreak_untracked (h : Untracked s) : puBreak s = { s with pu.pathNumber := satInc s.pu.pathNumber } := by
  have he := entriesByFrame_none (h.stateless (st := .measured) (by decide))
  unfold puBreak puFinalizeMeasured
  simp only [he, List.foldl_nil]

/-- A sample that is not of Tracking changes nothing where there is no frame record to measure (R44, R46). -/
theorem puPass_untracked {d : Delivery} (h : Untracked s) (hd : d.link ≠ .tracking) : puPass d s = s := by
  have hc : (entriesByFrame s.pu fun h => decide (h.state = .captured) && decide (h.reference ≤ (d.time : Int))) = [] :=
    entriesByFrame_none fun x hx => by rw [h.stateless (by decide) x hx]; rfl
  have he : entriesByFrame s.pu (eligible s.pu) = [] :=
    entriesByFrame_none fun x hx => by
      unfold eligible
      rw [h.stateless (by decide) x hx]
      rfl
  unfold puPass puAttribute
  simp only [hc, List.foldl_nil, if_neg hd, he]

/-! ### The timers (R5, R12) -/

/-- The schedule moves on by one active period, after a pending one has been installed (R5). -/
def scheduled (tk : Nat) (s : State) : State :=
  { s.advance tk with
    rck.activePeriod := s.rck.pendingPeriod.getD s.rck.activePeriod, rck.pendingPeriod := none
    rck.sampleTimer := some (tk + s.rck.pendingPeriod.getD s.rck.activePeriod) }

/-- A sample tick: the schedule, and then the Motion Unit (R5). -/
theorem bodySampleTick_armed {tk : Nat} (h : s.rck.sampleTimer = some tk) :
    bodySampleTick s
      = muTick tk (if s.rck.pendingPeriod.isSome then muPeriodInstalled (scheduled tk s) else scheduled tk s) := by
  unfold bodySampleTick
  rw [h]
  rfl

/-- A link that takes no sample makes the Motion Unit deliver a missing one, if any, at a tick, which measures no frame (R14,
R29). -/
theorem muTick_unsampled {tk : Nat}
    (h : s.mu.link = .off ∨ (s.mu.link ≠ .tracking ∧ muSamples s.mu = false ∧ Untracked s)) : muTick tk s = s := by
  unfold muTick
  rcases h with h | ⟨hl, hm, hu⟩
  · exact if_pos (.inr h)
  · split
    · rfl
    · rw [if_neg (by rw [hm]; decide)]
      exact puPass_untracked hu hl

/-- A period installed then asks for no rate write (R22). -/
theorem muPeriodInstalled_unsampled (h : muSamples s.mu = false)
    (hc : ¬(s.mu.link = .starting ∧ s.mu.phase = .configure)) :
    muPeriodInstalled s = s := by
  unfold muPeriodInstalled
  rw [h]
  exact if_neg (by simpa using hc)

/-- A link that takes samples is Tracking, Lost, or Starting in its last phase (R14). -/
theorem muSamples_eq_false {m : Mu}
    (h : m.link = .off ∨ m.link = .absent ∨ (m.link = .starting ∧ m.phase = .identify)) : muSamples m = false := by
  unfold muSamples
  rcases h with h | h | ⟨h, hp⟩
  · simp [h]
  · simp [h]
  · simp [h, hp]

/-- SAMPLE_TICK with a link that takes no sample (R5). -/
theorem bodySampleTick_unsampled {tk : Nat} (h : s.rck.sampleTimer = some tk)
    (hl : s.mu.link = .off ∨ (s.mu.link = .absent ∧ Untracked s)
      ∨ (s.mu.link = .starting ∧ s.mu.phase = .identify ∧ Untracked s)) :
    bodySampleTick s = scheduled tk s := by
  have hm : muSamples s.mu = false := muSamples_eq_false (by
    rcases hl with hl | hl | hl
    exacts [.inl hl, .inr (.inl hl.1), .inr (.inr ⟨hl.1, hl.2.1⟩)])
  have hi : muPeriodInstalled (scheduled tk s) = scheduled tk s :=
    muPeriodInstalled_unsampled hm (by
      show ¬(s.mu.link = .starting ∧ s.mu.phase = .configure)
      rcases hl with hl | ⟨hl, -⟩ | ⟨hl, hp, -⟩
      · simp [hl]
      · simp [hl]
      · simp [hp])
  rw [bodySampleTick_armed h, hi, ite_self]
  refine muTick_unsampled ?_
  show s.mu.link = .off ∨ (s.mu.link ≠ .tracking ∧ muSamples s.mu = false ∧ Untracked s)
  rcases hl with hl | ⟨hl, hu⟩ | ⟨hl, -, hu⟩
  · exact .inl hl
  · exact .inr ⟨by rw [hl]; decide, hm, hu⟩
  · exact .inr ⟨by rw [hl]; decide, hm, hu⟩

/-- The Motion Unit at a tick of a link that takes samples (R18, R22). -/
theorem muTick_samples {tk : Nat} (hv : s.mu.leaving = false) (hm : muSamples s.mu = true) :
    muTick tk s
      = { s with
          mu.missed := if s.mu.txn.isSome then s.mu.missed ++ [tk] else s.mu.missed
          mu.txn := if s.mu.txn.isSome then s.mu.txn
            else if s.mu.rateDue then some (.rateThenBurst s.rck.activePeriod tk) else some (.burst tk) } := by
  have hl : s.mu.link ≠ .off := fun hl => by
    rw [muSamples_eq_false (.inl hl)] at hm
    cases hm
  unfold muTick
  rw [if_neg (by simp [hv, hl]), if_pos hm]
  split
  · rfl
  · split <;> rfl

/-- SAMPLE_TICK with a link that takes samples (R5, R18, R22). -/
theorem bodySampleTick_samples {tk : Nat} (h : s.rck.sampleTimer = some tk)
    (hm : muSamples s.mu = true) :
    bodySampleTick s = muTick tk { scheduled tk s with mu.rateDue := s.mu.rateDue || s.rck.pendingPeriod.isSome } := by
  rw [bodySampleTick_armed h]
  cases hp : s.rck.pendingPeriod.isSome with
  | false => rw [Bool.or_false]; rfl
  | true =>
    rw [Bool.or_true, if_pos rfl, muPeriodInstalled, if_pos (.inl (by exact hm))]

/-- SILENCE_EXPIRY: a path break, which here makes nothing Final (R12, R48). -/
theorem bodySilenceExpiry_untracked {e : Nat} (h : s.rck.silence = some e) (hu : Untracked s) :
    bodySilenceExpiry s
      = { s.advance e with
          rck.lastInterval := none, rck.silence := none, pu.pathNumber := min (s.pu.pathNumber + 1) (2 ^ 32 - 1) } := by
  unfold bodySilenceExpiry
  rw [h]
  exact puBreak_untracked hu

/-- Settles O17: the sample timer Stopped, with a link that takes no samples and with one that does, and the silence timer. -/
theorem timersExpire : Obligations.TimersExpire := by
  refine ⟨fun s h ht => ?_, fun tk P s h ht hP hl => ?_, fun tk s h ht hv hm => ?_, fun s h ht => ?_,
    fun e s h ht hu => ?_⟩
  · have hb : bodySampleTick s = s := by
      unfold bodySampleTick
      rw [ht]
    exact congrArg _ (h.live_rck hb)
  · subst hP
    exact congrArg _ (h.live_rck (bodySampleTick_unsampled ht hl))
  · have hb := (bodySampleTick_samples ht hm).trans (muTick_samples hv hm)
    exact ⟨_, _, rfl, rfl, congrArg _ (h.live_eq hb h.powered rfl rfl rfl rfl)⟩
  · have hb : bodySilenceExpiry s = s := by
      unfold bodySilenceExpiry
      rw [ht]
    exact congrArg _ (h.live_rck hb)
  · exact congrArg _ (h.live_eq (bodySilenceExpiry_untracked ht hu) h.powered rfl rfl rfl rfl)

/-! ### The end of the mount work (R181) -/

/-- A mount that waits for the identity goes on by itself no further (R105). -/
theorem smGoOn_readId (hm : s.sm.mount = some .readId) (hf : s.sm.format = none) : smGoOn s = s := by
  unfold smGoOn
  split
  · rfl
  · simp only [hm, hf]

/-- Off, with no impact run declared: the impact run, if one counts, is abandoned (R23). -/
theorem muStop_undeclared (h : s.mu.detector ≠ .declared) :
    muStop s = { s with mu := leftMotion { s.mu with detector := .disabled, impactRun := 0 } } := by
  unfold muStop
  rw [if_neg h]
  unfold muLeave leftMotion
  dsimp only
  split
  · rfl
  · split <;> rfl

@[simp] theorem leftMotion_marks (m : Mu) : (leftMotion m).marks = m.marks := by
  unfold leftMotion
  split
  · rfl
  · split <;> rfl

/-- A command of a still state that leaves alone what the writer, the Segment Manager and the Gauge wait for ends with its own
effect, where a mount goes no further by itself. -/
theorem Still.live_eq {f : State → State} (h : Still s) (hf : f s = t) (hp : t.part.state ≠ .off) (hg : t.ga = s.ga)
    (hc : t.cw = s.cw) (hm : t.mu.marks = s.mu.marks) (hs : t.sm = s.sm) (ht : s.sm.format = none)
    (hn : s.sm.mount = none ∨ s.sm.mount = some .readId) : live f s = t := by
  refine live_ends h.powered hf ((h.congr hp hg hc hm).finish ?_)
  rw [← hs] at ht hn
  rcases hn with hn | hn
  · exact smGoOn_idle hn ht
  · exact smGoOn_readId hn ht

/-- The mount work is over: Running, and the filter opens by the level of the line (R8, R181). -/
theorem bodyMountWorkEnd_runs (u : Stamp) (hp : s.part.state = .mounting) (hm : s.sm.mount = none)
    (hr : s.hp.reading = none) (ht : s.part.transition ≠ .stop) :
    bodyMountWorkEnd u s = State.raise (rckOpenFilter { s.advance u.toNat with part.state := .running }) .mountDone := by
  unfold bodyMountWorkEnd
  exact (if_pos ⟨hp, hm, hr⟩).trans (if_neg ht)

/-- The mount work is over after a Stop: Idle (R182). -/
theorem bodyMountWorkEnd_stops (u : Stamp) (hp : s.part.state = .mounting) (hm : s.sm.mount = none)
    (hr : s.hp.reading = none) (ht : s.part.transition = .stop) :
    bodyMountWorkEnd u s
      = State.raise (muStop (rckStop { s.advance u.toNat with part.state := .idle, part.transition := .none }))
          .mountDone := by
  unfold bodyMountWorkEnd
  exact (if_pos ⟨hp, hm, hr⟩).trans (if_pos ht)

/-- The mount work goes on (log 6). -/
theorem bodyMountWorkEnd_waits (u : Stamp) (h : s.sm.mount ≠ none ∨ s.hp.reading ≠ none) :
    bodyMountWorkEnd u s = s.advance u.toNat := by
  unfold bodyMountWorkEnd
  refine if_neg ?_
  rintro ⟨-, hm, hr⟩
  exact h.elim (fun c => c hm) fun c => c hr

/-- Settles O45: the end of the mount work, with and without a Stop, and the wait for it. -/
theorem mountWorkEnds : Obligations.MountWorkEnds := by
  intro u s h hf hp
  refine ⟨fun hm hr ht => ?_, fun hm hr ht hd => ?_, fun hw => ?_⟩
  · have hb := bodyMountWorkEnd_runs u hp hm hr (by rw [ht]; decide)
    exact congrArg _ (h.live_eq hb (by rw [raise_part]; nofun) (raise_ga _ _) (raise_cw _ _) (by rw [raise_mu]; rfl)
      (raise_sm _ _) hf (.inl hm))
  · have hb := bodyMountWorkEnd_stops u hp hm hr ht
    rw [muStop_undeclared (s := rckStop { s.advance u.toNat with part.state := .idle, part.transition := .none }) hd] at hb
    exact congrArg _ (h.live_eq hb (by rw [raise_part]; nofun) (raise_ga _ _) (raise_cw _ _)
      (by rw [raise_mu]; exact leftMotion_marks _) (raise_sm _ _) hf (.inl hm))
  · have hb := bodyMountWorkEnd_waits (s := s) u (hw.imp (fun c => by rw [c]; decide) (·.2))
    exact congrArg _ (h.live_eq hb h.powered rfl rfl rfl rfl hf (hw.elim .inr fun c => .inl c.1))

end Sys2Proof.Machine
end

section
/-! Stop (R182): what the Clip Writer does at a CONTROL Stop by its state, and the end of the Stop at its report. -/

namespace Sys2Proof.Machine

variable {s t : State}

/-! ### A cause raised before or after -/

/-- The causes raised, in whatever order, are the same (R175). -/
theorem raise_comm (s : State) (c d : Cause) : (s.raise c).raise d = (s.raise d).raise c := by
  unfold State.raise
  split
  · rfl
  · dsimp only
    rw [BitVec.or_assoc, BitVec.or_assoc, BitVec.or_comm (1 <<< causeBit c)]

/-- A cause raised twice is raised once (R175). -/
theorem raise_idem (s : State) (c : Cause) : (s.raise c).raise c = s.raise c := by
  unfold State.raise
  split
  · rfl
  · dsimp only
    rw [BitVec.or_assoc, BitVec.or_self]

/-- A writer state set beside a raised cause. -/
theorem raise_writer (s : State) (c : Cause) (w : WriterState) :
    ({ s.raise c with cw.writer := w } : State) = State.raise { s with cw.writer := w } c := by
  unfold State.raise
  split <;> rfl

/-! ### A stop event (R123) -/

/-- The writer has no work at hand but its page (R123, R128, R130). -/
structure Jobless (c : Cw) : Prop where
  noJob : c.job = .idle
  noReappend : c.reappend = []
  noResume : c.resume = none
  noStopDue : c.stopDue = none
  noReloc : c.reloc = none

theorem Resting.jobless (h : Resting s) (hl : s.cw.reloc = none) : Jobless s.cw :=
  ⟨h.noJob, h.noReappend, h.noResume, h.noStopDue, hl⟩

/-- No stop event waits for such a writer (R123, R128). -/
theorem Jobless.stops {w : Cw} (h : Jobless w) (c : StopCause) : stopWaits c w = false := by
  unfold stopWaits
  rw [h.noJob, h.noResume, h.noReloc]
  rfl

/-- A stop event finds the writer Recording, with nothing to wait for (R123). -/
theorem cwStopEvent_records {c : StopCause} (hw : s.cw.writer = .recording) (h : Jobless s.cw) :
    cwStopEvent c s = State.raise { s with cw.writer := .closing, cw.cause := c } .writerState := by
  unfold cwStopEvent cwApplyStop cwEnterClosing cwSetWriter
  rw [h.stops, if_neg Bool.false_ne_true, if_pos hw]
  exact if_neg (by rw [hw]; decide)

/-- A stop event finds the writer Stopped or Faulted (R123). -/
theorem cwStopEvent_closed {c : StopCause} (hw : s.cw.writer = .stopped ∨ s.cw.writer = .faulted)
    (h : Jobless s.cw) : cwStopEvent c s = s := by
  unfold cwStopEvent cwApplyStop
  rw [h.stops, if_neg Bool.false_ne_true]
  rcases hw with hw | hw <;> rw [hw] <;> simp

/-- A CONTROL Stop that is not refused (R169, R182). -/
theorem exec_controlStop (u : Stamp) (hp : s.part.state = .mounting ∨ s.part.state = .running)
    (ht : s.part.transition = .none) :
    exec (.controlStop u) s = .next (finish (takeStop (s.advance u.toNat))) := by
  have ha : portAccess u false s = s.advance u.toNat := by
    refine if_neg ?_
    rintro ⟨hs, -⟩
    change s.part.state = .standby at hs
    rw [hs] at hp
    rcases hp with hp | hp <;> cases hp
  have hj : judgeCommand ((2 : Word).toNat % 8) .first (s.advance u.toNat) = (false, takeStop (s.advance u.toNat)) :=
    congrArg (Prod.mk false) (if_pos ⟨hp.symm, ht⟩)
  have hc : controlWrite 2 .first (s.advance u.toNat) = takeStop (s.advance u.toNat) := by
    have h8 : (2 : Word).getLsbD 8 = false := rfl
    have h9 : (2 : Word).getLsbD 9 = false := rfl
    unfold controlWrite
    simp only [hj, h8, h9, Bool.false_eq_true, false_and, if_false]
  have hl : live (bodyRegister u 0 2 .first) s = finish (takeStop (s.advance u.toNat)) := by
    unfold live bodyRegister
    rw [if_neg (by rcases hp with hp | hp <;> rw [hp] <;> decide), ha]
    exact congrArg finish hc
  exact congrArg _ hl

/-! ### A page for a tail (R125, R127) -/

theorem leBytes_length (n v : Nat) : (leBytes n v).length = n := by
  induction n generalizing v with
  | zero => rfl
  | succ n ih => exact congrArg Nat.succ (ih _)

/-- A pad item has its length (R127). -/
theorem padItem_length {n : Nat} (h : 4 ≤ n) : (padItem n).length = n := by
  unfold padItem itemWord
  rw [List.length_append, leBytes_length, List.length_replicate]
  omega

/-- A tail is filled to its page (R127). -/
theorem cwPad_tail {n : Nat} (ha : s.cw.assembly ≠ []) (hn : n = 8192 - s.cw.assembly.length) (h4 : 4 ≤ n) :
    cwPad s
      = { s with
          cw.assembly := s.cw.assembly ++ (leBytes 4 (3 + 256 * n) ++ List.replicate (n - 4) 0xFF)
          cw.streamPos := s.cw.streamPos + n } := by
  have hl := padItem_length h4
  have hp : padItem n ≠ [] := fun c => by rw [c] at hl; change 0 = n at hl; omega
  unfold cwPad cwAppend cwRoom
  rw [← hn, if_neg hp, if_neg ha, hl]
  rfl

/-- The rail asleep, a request of a known flash device starts it (R67). -/
theorem flashAsk_asleep (r : Requester) (op : FlashOp) (h : railAsleep s) (hg : grantAllowed s = true) :
    flashAsk r op s = { s with fe := awakened s.fe r op s.rck.clock } := by
  obtain ⟨hr, hw, hb, hf, hi⟩ := h
  have h1 : refusedAtArrival s.fe op = false := by
    unfold refusedAtArrival
    simp [hr, hi]
  have h2 : outstanding s.fe r = false := by
    unfold outstanding
    simp [hw, hf]
  have h3 : ∀ w, feJoin w s = feSwitchOn { s with fe.waiting := s.fe.waiting ++ [w] } := fun w => if_pos ⟨hr, hg⟩
  unfold flashAsk feArrive
  simp only [h1, h2, h3, hw, Bool.false_eq_true, if_false, List.nil_append]
  rfl

/-- The page in the assembly is programmed, the flash asleep (R125). -/
theorem cwProgram_asleep {j : Nat} {e : Segment} (hj : openIndex s.sm = some j) (he : s.sm.segments[j]? = some e)
    (h : railAsleep s) (hg : grantAllowed s = true) :
    cwProgram s
      = { s with
          cw.programming := true, cw.pageMark := some (cwMark s j e)
          fe := awakened s.fe .writer
            (.programPage (e.blocks.getD (s.sm.openFill / 256) 0) (s.sm.openFill % 256) s.cw.assembly
              (markBytes (cwMark s j e))) s.rck.clock } := by
  have hs : s.sm.segment j = some e := he
  unfold cwProgram
  rw [hj]
  dsimp only
  rw [hs]
  exact flashAsk_asleep (s := { s with cw.programming := true, cw.pageMark := some (cwMark s j e) }) _ _ h hg

theorem cwSteps_succ {n : Nat} (h : cwStep s = some t) : cwSteps (n + 1) s = cwSteps n t := by
  simp only [cwSteps, h]

/-- A writer that is Closing with nothing else at work ends its tail, or its segment (R123). -/
theorem cwStep_closing (hw : s.cw.writer = .closing) (h : Jobless s.cw) (hp : s.cw.programming = false)
    (hc : s.sm.change = none) (hf : s.cw.assembly.length < 8192) :
    cwStep s = some (if s.cw.assembly = [] then cwClose s.cw.cause s else cwPad s) := by
  have hn : assemblyFull s.cw = false := by
    unfold assemblyFull
    exact decide_eq_false (by omega)
  unfold cwStep
  simp only [stopReady_none h.noStopDue]
  rw [if_neg (by simp [h.noReloc, hp, hc]), hn]
  unfold cwJobStep
  rw [h.noJob]
  unfold cwIdleStep
  rw [h.noReappend, h.noResume]
  exact if_pos hw

/-- A full page is programmed (R125). -/
theorem cwStep_full (h : Jobless s.cw) (hp : s.cw.programming = false) (hc : s.sm.change = none)
    (hf : 8192 ≤ s.cw.assembly.length) : cwStep s = some (cwProgram s) := by
  have hn : assemblyFull s.cw = true := decide_eq_true hf
  unfold cwStep
  simp only [stopReady_none h.noStopDue]
  rw [if_neg (by simp [h.noReloc, hp, hc]), hn]
  rfl

/-- A writer that is Closing with a tail in its buffer fills the page and asks for its program (R123, R125, R127). -/
theorem cwRun_pads {n j : Nat} {e : Segment} (hw : s.cw.writer = .closing)
    (hq : ∀ q, s.cw.queue.head? = some q → q.result = none) (h : Jobless s.cw) (hp : s.cw.programming = false)
    (hc : s.sm.change = none) (hy : s.cw.assembly ≠ []) (hn : n = 8192 - s.cw.assembly.length) (h4 : 4 ≤ n)
    (hj : openIndex s.sm = some j) (he : s.sm.segments[j]? = some e) (hf : railAsleep s) (hg : grantAllowed s = true) :
    cwRun s = paddedPage s n j e := by
  have h1 := cwStep_closing hw h hp hc (by omega)
  rw [if_neg hy, cwPad_tail hy hn h4] at h1
  generalize ht : ({ s with
    cw.assembly := s.cw.assembly ++ (leBytes 4 (3 + 256 * n) ++ List.replicate (n - 4) 0xFF)
    cw.streamPos := s.cw.streamPos + n } : State) = t at h1
  have h2 : cwStep t = some (paddedPage s n j e) := by
    have hfull : 8192 ≤ t.cw.assembly.length := by
      subst ht
      simp only [List.length_append, List.length_replicate, leBytes_length]
      omega
    have hstep := cwStep_full (s := t) (by subst ht; exact ⟨h.noJob, h.noReappend, h.noResume, h.noStopDue, h.noReloc⟩)
      (by subst ht; exact hp) (by subst ht; exact hc) hfull
    have hprog := cwProgram_asleep (s := t) (by subst ht; exact hj) (by subst ht; exact he) (by subst ht; exact hf)
      (by subst ht; exact hg)
    rw [hstep, hprog, ← ht]
    unfold paddedPage
    rw [List.append_assoc]
    rfl
  have h3 : cwStep (paddedPage s n j e) = none := cwStep_waiting h.noStopDue (.inr (.inl rfl))
  have hs : s.resetting = false := by
    unfold grantAllowed at hg
    unfold State.resetting
    simp_all
  have hpub : cwPublish (paddedPage s n j e) = paddedPage s n j e := cwPublish_unready hq
  unfold cwRun
  rw [hs, if_neg Bool.false_ne_true, cwSteps_succ h1, cwSteps_succ h2, cwSteps_none _ h3, hpub]

/-! ### The close of a segment (R89) -/

/-- The entry at a place of a list is changed where it stands. -/
theorem modifyAt_set {α : Type} {f : α → α} {i : Nat} {l : List α} {a : α} (h : l[i]? = some a) :
    modifyAt f i l = l.set i (f a) := by
  induction l generalizing i with
  | nil => cases h
  | cons b l ih =>
    cases i with
    | zero =>
      obtain rfl := Option.some.inj h
      rfl
    | succ i => exact congrArg (b :: ·) (ih h)

/-- No segment is Open once the only Open one has been closed (R88). -/
theorem openIndex_closed {m : Sm} {j : Nat} {c : Segment}
    (ho : ∀ k g, m.segments[k]? = some g → g.state = .opened → k = j) (hc : c.state ≠ .opened) {n : Sm}
    (hn : n.segments = m.segments.set j c) : openIndex n = none := by
  refine Option.eq_none_iff_forall_ne_some.2 fun k hk => ?_
  obtain ⟨e, he, hs⟩ := openIndex_some hk
  rw [hn, List.getElem?_set] at he
  split at he
  · split at he
    · obtain rfl := Option.some.inj he
      exact hc hs
    · cases he
  · next h => exact h (ho k e he hs).symm

/-- A segment is closed with the values of its close (R89). -/
theorem smCloseOpen_open {j : Nat} {e : Segment} (hj : openIndex s.sm = some j) (he : s.sm.segments[j]? = some e)
    (v : CloseValues) :
    smCloseOpen v s
      = State.raise
          { s with
            sm.segments := s.sm.segments.set j
              { e with
                state := .closed, endTime := v.endTime, frameCount := v.frameCount, bytesWritten := v.bytesWritten }
            sm.lastClosed := some j, sm.snapshotDue := true } .segmentClosed := by
  unfold smCloseOpen
  rw [hj]
  dsimp only [smModify]
  rw [modifyAt_set he]

/-- With no frame owed a track entry, none is told off (R43). -/
theorem puWriterDone_unowed (h : noneOwed s) : puWriterDone s = s := by
  have hi : indicesWhere (fun h => decide (h.obligation = .needed) && true) s.pu.shadows = [] :=
    List.eq_nil_iff_forall_not_mem.2 fun i hi => by
      obtain ⟨x, hx, ht⟩ := mem_indicesWhere hi
      exact h x (List.mem_of_getElem? hx) (by simpa using ht)
  unfold puWriterDone puSetNotNeeded
  rw [hi]
  rfl

/-- While a snapshot is being written, with no segment Open, a change of the table waits (R96, R103). -/
theorem smSettle_going (h : snapshotGoing s) (ho : openIndex s.sm = none) : smSettle s = s := by
  have hf : smFlush s = s := by
    unfold smFlush
    split
    · rfl
    · rw [if_neg (fun c => h.1 c.2.2.1)]
      exact if_neg (by simp [h.2])
  have hh : halfFull s.sm = false := by
    unfold halfFull openSegment
    rw [ho]
    rfl
  unfold smSettle smEraseAhead
  rw [hf, hh]
  simp

/-- The values of a close with no switch in hand (R126). -/
theorem closeValues_idle (hj : s.cw.job = .idle) : closeValues s = ⟨s.now, liveFrameCount s, 8192 * s.sm.openFill⟩ := by
  unfold closeValues
  rw [hj]

/-- A Stop in hand is not to be found in an empty queue (R113). -/
theorem cwFinishStop_empty (hq : s.cw.queue = []) : cwFinishStop s = s := by
  have hn : handRequest s = none := by
    unfold handRequest queueEntry
    rw [hq]
    cases s.cw.inHand <;> rfl
  unfold cwFinishStop
  rw [hn]

/-- The entry to Stopped of a writer with no request, no frame owed and no cutoff sequence (R43, R116, R162). -/
theorem cwEnterStopped_alone (c : StopCause) (hw : s.cw.writer ≠ .stopped) (hq : s.cw.queue = [])
    (hd : s.cw.stopDue = none) (ho : noneOwed s) (hg : s.ga.grace = none) :
    cwEnterStopped c s = State.raise { s with cw.writer := .stopped, cw.cause := c } .writerState := by
  have hs : ({ s with cw.cause := c, cw.stopDue := none } : State) = { s with cw.cause := c } := by
    rw [← hd]
  have hw' : cwSetWriter .stopped { s with cw.cause := c }
      = State.raise { s with cw.writer := .stopped, cw.cause := c } .writerState := if_neg hw
  unfold cwEnterStopped cwReportClosed
  rw [hs, hw', cwPublish_empty (by rw [raise_cw]; exact hq),
    puWriterDone_unowed (by unfold noneOwed; rw [raise_pu]; exact ho)]
  unfold gaCheck
  rw [raise_ga]
  exact if_neg (by simp [hg])

/-- A close with nothing left to write: the segment is Closed, and the writer Stopped (R89, R123). -/
theorem cwClose_calm {j : Nat} {e : Segment} (h : Jobless s.cw) (hq : s.cw.queue = []) (hm : s.mu.marks = [])
    (hw : s.cw.writer ≠ .stopped) (hg : s.ga.grace = none) (hj : openIndex s.sm = some j)
    (he : s.sm.segments[j]? = some e) (ho : ∀ k g, s.sm.segments[k]? = some g → g.state = .opened → k = j)
    (hn : noneOwed s) (hs : snapshotGoing s) :
    cwClose s.cw.cause s
      = State.raise (State.raise { s with cw.writer := .stopped, sm := closedTable s j e } .segmentClosed)
          .writerState := by
  have hc : smCloseOpen (closeValues s) s = State.raise { s with sm := closedTable s j e } .segmentClosed := by
    rw [closeValues_idle h.noJob]
    exact smCloseOpen_open hj he _
  have hoi : openIndex (closedTable s j e) = none := openIndex_closed ho (by nofun) rfl
  generalize hu : State.raise { s with sm := closedTable s j e } .segmentClosed = u at hc
  have hucw : u.cw = s.cw := by rw [← hu, raise_cw]
  have husm : u.sm = closedTable s j e := by rw [← hu, raise_sm]
  have hk : ({ u with cw.job := .idle, cw.reappend := [], cw.resume := none } : State) = u := by
    rw [← h.noJob, ← h.noReappend, ← h.noResume, ← hucw]
  have hf : cwFinishStop u = u := cwFinishStop_empty (by rw [hucw]; exact hq)
  have hst : cwEnterStopped s.cw.cause u = State.raise { u with cw.writer := .stopped } .writerState := by
    rw [cwEnterStopped_alone _ (by rw [hucw]; exact hw) (by rw [hucw]; exact hq) (by rw [hucw]; exact h.noStopDue)
      (by rw [← hu]; unfold noneOwed; rw [raise_pu]; exact hn) (by rw [← hu, raise_ga]; exact hg), ← hucw]
  unfold cwClose
  dsimp only
  rw [hc, hk, hf, hst, smSettle_going (by unfold snapshotGoing; rw [raise_sm, husm]; exact hs)
    (by rw [raise_sm, husm]; exact hoi), smIntake_none (by rw [raise_mu, ← hu, raise_mu]; exact hm), ← hu, raise_writer]

/-- A writer that is Closing with nothing in its buffer closes its segment (R89, R123). -/
theorem cwRun_closes {j : Nat} {e : Segment} (h : Jobless s.cw) (hq : s.cw.queue = []) (hm : s.mu.marks = [])
    (hw : s.cw.writer = .closing) (hp : s.cw.programming = false) (hc : s.sm.change = none) (hy : s.cw.assembly = [])
    (hg : s.ga.grace = none) (hj : openIndex s.sm = some j) (he : s.sm.segments[j]? = some e)
    (ho : ∀ k g, s.sm.segments[k]? = some g → g.state = .opened → k = j) (hn : noneOwed s) (hs : snapshotGoing s)
    (hr : s.resetting = false) :
    cwRun s
      = State.raise (State.raise { s with cw.writer := .stopped, sm := closedTable s j e } .segmentClosed)
          .writerState := by
  have h1 := cwStep_closing hw h hp hc (by rw [hy]; decide)
  rw [if_pos hy, cwClose_calm h hq hm (by rw [hw]; decide) hg hj he ho hn hs] at h1
  generalize ht : State.raise (State.raise { s with cw.writer := .stopped, sm := closedTable s j e } .segmentClosed)
    .writerState = t at h1 ⊢
  have hcw : t.cw = { s.cw with writer := .stopped } := by rw [← ht, raise_cw, raise_cw]
  have h2 : cwStep t = none :=
    cwStep_idle (by rw [hcw]; exact h.noJob) (by rw [hcw]; exact h.noReappend) (by rw [hcw]; exact h.noResume)
      (by rw [hcw]; exact h.noStopDue) (by rw [hcw, hy]; decide) (by rw [hcw]; nofun)
  unfold cwRun
  rw [hr, if_neg Bool.false_ne_true, cwSteps_succ h1, cwSteps_none _ h2, cwPublish_empty (by rw [hcw]; exact hq)]

/-! ### A Stop is taken (R182) -/

/-- What `Resting` speaks of. -/
theorem Resting.congr (h : Resting s) (hp : t.part.state ≠ .off) (hg : t.ga = s.ga) (hc : t.cw = s.cw)
    (hm : t.mu.marks = s.mu.marks) (hs : t.sm = s.sm) : Resting t where
  powered := hp
  asserted := hg ▸ h.asserted
  oldestUnready := hc ▸ h.oldestUnready
  noJob := hc ▸ h.noJob
  noReappend := hc ▸ h.noReappend
  noResume := hc ▸ h.noResume
  noStopDue := hc ▸ h.noStopDue
  notFull := hc ▸ h.notFull
  notClosing := hc ▸ h.notClosing
  noMarks := hm.trans h.noMarks
  noMount := hs ▸ h.noMount
  noFormat := hs ▸ h.noFormat

/-- A state in which the writer alone goes on. -/
theorem finish_writer (hp : s.part.state ≠ .off) (hm : s.sm.mount = none) (hf : s.sm.format = none) (hw : cwRun s = t)
    (hk : t.mu.marks = []) (hg : t.ga.sysen = true) : finish s = t := by
  unfold finish
  rw [if_neg hp, smGoOn_idle hm hf, hw]
  dsimp only
  rw [smIntake_none hk, if_pos hg]

/-- The writer as a stop event leaves it where it finds it Recording (R116, R123). -/
def closingFor (c : StopCause) (s : State) : State :=
  State.raise { s with cw.writer := .closing, cw.cause := c } .writerState

theorem closingFor_part (c : StopCause) (s : State) : (closingFor c s).part = s.part := raise_part _ _

theorem closingFor_mu (c : StopCause) (s : State) : (closingFor c s).mu = s.mu := raise_mu _ _

theorem closingFor_pu (c : StopCause) (s : State) : (closingFor c s).pu = s.pu := raise_pu _ _

theorem closingFor_fe (c : StopCause) (s : State) : (closingFor c s).fe = s.fe := raise_fe _ _

theorem closingFor_sm (c : StopCause) (s : State) : (closingFor c s).sm = s.sm := raise_sm _ _

theorem closingFor_ga (c : StopCause) (s : State) : (closingFor c s).ga = s.ga := raise_ga _ _

theorem closingFor_cw (c : StopCause) (s : State) : (closingFor c s).cw = { s.cw with writer := .closing, cause := c } :=
  raise_cw _ _

theorem closingFor_jobless {c : StopCause} (h : Jobless s.cw) : Jobless (closingFor c s).cw := by
  rw [closingFor_cw]
  exact ⟨h.noJob, h.noReappend, h.noResume, h.noStopDue, h.noReloc⟩

/-- A writer that is Closing waits for the page at its program (R123). -/
theorem closingFor_rests {c : StopCause} (h : Resting s) (hp : s.cw.programming = true) :
    finish (closingFor c s) = closingFor c s := by
  have hr : Resting { s with cw.writer := .closing, cw.cause := c } :=
    { powered := h.powered, asserted := h.asserted, oldestUnready := h.oldestUnready, noJob := h.noJob
      noReappend := h.noReappend, noResume := h.noResume, noStopDue := h.noStopDue, notFull := h.notFull
      notClosing := .inr hp, noMarks := h.noMarks, noMount := h.noMount, noFormat := h.noFormat }
  exact (hr.congr (by rw [closingFor_part]; exact h.powered) (closingFor_ga c s) (closingFor_cw c s)
    (by rw [closingFor_mu]) (closingFor_sm c s)).finish

/-- A page asked for beside a raised cause. -/
theorem raise_paddedPage (s : State) (c : Cause) (n j : Nat) (e : Segment) :
    paddedPage (s.raise c) n j e = (paddedPage s n j e).raise c := by
  have hp : (paddedPage s n j e).part = s.part := rfl
  unfold State.raise
  rw [hp]
  split <;> rfl

/-- A writer that is Closing with a tail in its buffer asks for the program of its page (R123, R127). -/
theorem closingFor_pads {c : StopCause} {n j : Nat} {e : Segment} (h : Resting s) (hl : s.cw.reloc = none)
    (hp : s.cw.programming = false) (hc : s.sm.change = none) (hy : s.cw.assembly ≠ [])
    (hn : n = 8192 - s.cw.assembly.length) (h4 : 4 ≤ n) (hj : openIndex s.sm = some j)
    (he : s.sm.segments[j]? = some e) (hf : railAsleep s) (hg : grantAllowed s = true) :
    finish (closingFor c s) = closingFor c (paddedPage s n j e) := by
  have hw : cwRun (closingFor c s) = paddedPage (closingFor c s) n j e :=
    cwRun_pads (by rw [closingFor_cw]) (by rw [closingFor_cw]; exact h.oldestUnready) (closingFor_jobless (h.jobless hl))
      (by rw [closingFor_cw]; exact hp) (by rw [closingFor_sm]; exact hc) (by rw [closingFor_cw]; exact hy)
      (by rw [closingFor_cw]; exact hn) h4 (by rw [closingFor_sm]; exact hj) (by rw [closingFor_sm]; exact he)
      (by unfold railAsleep; rw [closingFor_fe]; exact hf) (by unfold grantAllowed; rw [closingFor_part]; exact hg)
  have hr : paddedPage (closingFor c s) n j e = closingFor c (paddedPage s n j e) := raise_paddedPage _ _ n j e
  rw [hr] at hw
  exact finish_writer (by rw [closingFor_part]; exact h.powered) (by rw [closingFor_sm]; exact h.noMount)
    (by rw [closingFor_sm]; exact h.noFormat) hw (by rw [closingFor_mu]; exact h.noMarks)
    (by rw [closingFor_ga]; exact h.asserted)

/-- A writer that is Closing with nothing in its buffer is Stopped in the same step (R89, R123). -/
theorem closingFor_closes {c : StopCause} {j : Nat} {e : Segment} (h : Calm s) (hl : s.cw.reloc = none)
    (hp : s.cw.programming = false) (hc : s.sm.change = none) (hy : s.cw.assembly = []) (hg : s.ga.grace = none)
    (hj : openIndex s.sm = some j) (he : s.sm.segments[j]? = some e)
    (ho : ∀ k g, s.sm.segments[k]? = some g → g.state = .opened → k = j) (hn : noneOwed s) (hs : snapshotGoing s)
    (hr : s.resetting = false) :
    finish (closingFor c s)
      = State.raise (State.raise { s with cw.writer := .stopped, cw.cause := c, sm := closedTable s j e } .segmentClosed)
          .writerState := by
  have hw : cwRun (closingFor c s)
      = State.raise (State.raise
          { closingFor c s with cw.writer := .stopped, sm := closedTable (closingFor c s) j e } .segmentClosed)
          .writerState :=
    cwRun_closes (closingFor_jobless (h.resting.jobless hl)) (by rw [closingFor_cw]; exact h.noRequest)
      (by rw [closingFor_mu]; exact h.noMarks) (by rw [closingFor_cw]) (by rw [closingFor_cw]; exact hp)
      (by rw [closingFor_sm]; exact hc) (by rw [closingFor_cw]; exact hy) (by rw [closingFor_ga]; exact hg)
      (by rw [closingFor_sm]; exact hj) (by rw [closingFor_sm]; exact he) (by rw [closingFor_sm]; exact ho)
      (by unfold noneOwed; rw [closingFor_pu]; exact hn) (by unfold snapshotGoing; rw [closingFor_sm]; exact hs)
      (by unfold State.resetting; rw [closingFor_part]; exact hr)
  have hx : ({ closingFor c s with cw.writer := .stopped, sm := closedTable (closingFor c s) j e } : State)
      = State.raise { s with cw.writer := .stopped, cw.cause := c, sm := closedTable s j e } .writerState := by
    unfold closingFor State.raise
    split <;> rfl
  rw [hx, raise_comm _ .writerState, raise_idem] at hw
  exact finish_writer (by rw [closingFor_part]; exact h.powered) (by rw [closingFor_sm]; exact h.noMount)
    (by rw [closingFor_sm]; exact h.noFormat) hw (by rw [raise_mu, raise_mu]; exact h.noMarks)
    (by rw [raise_ga, raise_ga]; exact h.asserted)

/-- The state with a Stop begun (R182). -/
def inStop (u : Stamp) (s : State) : State := { s.advance u.toNat with part.transition := .stop }

theorem Still.inStop (h : Still s) (u : Stamp) : Still (inStop u s) := h.congr h.powered rfl rfl rfl

theorem Calm.inStop (h : Calm s) (u : Stamp) : Calm (inStop u s) := h.congr h.powered rfl rfl rfl rfl

theorem Resting.inStop (h : Resting s) (u : Stamp) : Resting (inStop u s) := h.congr h.powered rfl rfl rfl rfl

/-- A Stop is taken in Mounting (R182). -/
theorem exec_stop_mounting (u : Stamp) (hp : s.part.state = .mounting) (ht : s.part.transition = .none) :
    exec (.controlStop u) s = .next (finish (inStop u s)) := by
  have hn : s.part.state ≠ .running := by rw [hp]; decide
  have hs : takeStop (s.advance u.toNat) = inStop u s := if_neg hn
  rw [exec_controlStop u (.inl hp) ht, hs]

/-- A Stop is taken in Running (R182): the writer is told. -/
theorem exec_stop_running (u : Stamp) (hp : s.part.state = .running) (ht : s.part.transition = .none) :
    exec (.controlStop u) s = .next (finish (cwStopEvent .controlStop (inStop u s))) := by
  have hs : takeStop (s.advance u.toNat) = cwStopEvent .controlStop (inStop u s) := if_pos hp
  rw [exec_controlStop u (.inr hp) ht, hs]

/-- The same of a writer that records (R123). -/
theorem exec_stop_recording (u : Stamp) (hp : s.part.state = .running) (ht : s.part.transition = .none)
    (hw : s.cw.writer = .recording) (h : Jobless s.cw) :
    exec (.controlStop u) s = .next (finish (closingFor .controlStop (inStop u s))) := by
  rw [exec_stop_running u hp ht]
  exact congrArg (fun t => Host.Outcome.next (finish t)) (cwStopEvent_records (s := inStop u s) hw h)

/-! ### The writer reports closed (R60, R182) -/

/-- A Stop's path break, with no tenant in the table (R60). -/
theorem puStop_untracked (h : Untracked s) : puStop s = { s with pu.pathNumber := satInc s.pu.pathNumber } := by
  have hb := puBreak_untracked h
  generalize hu : puBreak s = u at hb
  have huu : Untracked u := by rw [hb]; exact h
  have he := entriesByFrame_none (p := u.pu) (huu.stateless (st := .captured) (by decide))
  have hc : ∀ n, puCloseInterval n u = u := fun n => by
    have hs : ∀ i, (u.pu.shadow i).present = false := fun i => by
      unfold Pu.shadow Shadow.present
      rw [List.getD_eq_getElem?_getD]
      cases hi : u.pu.shadows[i]? with
      | none => rfl
      | some x =>
        obtain ⟨h1, h2⟩ := huu x (List.mem_of_getElem? hi)
        simp [h1, h2]
    unfold puCloseInterval Shadow.holds
    dsimp only
    rw [hs]
    rfl
  unfold puStop
  simp only [hu, he, List.foldl_nil]
  rw [← hb]
  cases u.pu.newest with
  | none => rfl
  | some n => exact hc n

/-- The writer reports closed with its work done (R182). -/
theorem bodyWriterClosed_ends (u : Stamp) (hp : s.part.state = .running) (ht : s.part.transition = .stop)
    (hw : writerDone s.cw = true) :
    bodyWriterClosed u s
      = puStop (muStop (rckStop { s.advance u.toNat with part.state := .idle, part.transition := .none })) :=
  if_pos ⟨hp, ht, hw⟩

/-- Before that nothing but the clock moves (log 6). -/
theorem bodyWriterClosed_waits (u : Stamp) (h : s.part.transition ≠ .stop ∨ writerDone s.cw = false) :
    bodyWriterClosed u s = s.advance u.toNat := by
  refine if_neg ?_
  rintro ⟨-, ht, hw⟩
  rcases h with h | h
  · exact h ht
  · exact Bool.false_ne_true (h.symm.trans hw)

/-- A writer that is Recording, or has a request in hand, is not done (R182). -/
theorem writerDone_not {c : Cw} (h : c.writer = .recording ∨ c.inHand ≠ none) : writerDone c = false := by
  unfold writerDone writerClosed
  rcases h with h | h
  · simp [h]
  · cases hi : c.inHand with
    | none => exact absurd hi h
    | some q => simp

/-- Settles O16: a Stop in Mounting, in Running by what the writer is at, and the writer's report. -/
theorem stopTaken : Obligations.StopTaken := by
  intro u s
  refine ⟨fun ht hp h hf hm => ?_, fun ht hp h hw hl => ?_, fun ht hp h hw hl hy => ?_,
    fun j d n ht hp h hw hl hc hy ha hn h16 hj hd hf => ?_, fun j d ht hp h hw hl hc hy ha hg hj hd ho hn hs => ?_,
    fun h hp ht hw hi hu hd => ?_, fun h hp hw => ?_⟩
  · rw [exec_stop_mounting u hp ht]
    refine congrArg _ ((h.inStop u).finish ?_)
    rcases hm with hm | hm
    · exact smGoOn_idle hm hf
    · exact smGoOn_readId hm hf
  · rw [exec_stop_running u hp ht, cwStopEvent_closed (s := inStop u s) hw (h.resting.jobless hl)]
    exact congrArg _ (h.inStop u).finish
  · rw [exec_stop_recording u hp ht hw (h.jobless hl)]
    exact congrArg _ (closingFor_rests (h.inStop u) hy)
  · rw [exec_stop_recording u hp ht hw (h.jobless hl)]
    have hg : grantAllowed (inStop u s) = true := by
      unfold grantAllowed inStop
      simp [hp]
    exact congrArg _ (closingFor_pads (h.inStop u) hl hy hc ha hn (by omega) hj hd hf hg)
  · refine ⟨?_, openIndex_closed ho (by nofun) rfl⟩
    rw [exec_stop_recording u hp ht hw (h.resting.jobless hl)]
    exact congrArg _ (closingFor_closes (h.inStop u) hl hy hc ha hg hj hd ho hn hs rfl)
  · have hdone : writerDone s.cw = true := by
      unfold writerDone writerClosed
      rcases hw with hw | hw <;> simp [hw, hi, h.noRequest, h.noJob]
    have hm := muStop_undeclared
      (s := rckStop { s.advance u.toNat with part.state := .idle, part.transition := .none }) hd
    have hb := (bodyWriterClosed_ends u hp ht hdone).trans ((congrArg puStop hm).trans (puStop_untracked hu))
    exact congrArg _ (h.live_eq hb (by nofun) rfl rfl (leftMotion_marks _) rfl)
  · have hb := bodyWriterClosed_waits (s := s) u (hw.imp id writerDone_not)
    exact congrArg _ (h.live_rck hb)

end Sys2Proof.Machine
end

section
/-! The status page (R177): what a refresh writes, and a charge tick at which the writer takes no step. -/

namespace Sys2Proof.Machine

variable {s₀ s t : State}

/-! ### Bytes read back -/

theorem readCells_append (m : List Host.Cell) (a n k : Nat) :
    readCells m a (n + k) = readCells m a n ++ readCells m (a + n) k := by
  induction n generalizing a with
  | zero => rw [Nat.zero_add]; rfl
  | succ n ih =>
    rw [Nat.succ_add]
    simp only [readCells, List.cons_append]
    rw [ih, Nat.add_right_comm a 1 n, Nat.add_assoc]

/-- Bytes that read alike. -/
theorem readCells_congr {m k : List Host.Cell} {a n : Nat} (h : ∀ x, a ≤ x → x < a + n → readCell m x = readCell k x) :
    readCells m a n = readCells k a n := by
  induction n generalizing a with
  | zero => rfl
  | succ n ih =>
    simp only [readCells]
    rw [h a le_rfl (by omega), ih fun x h1 h2 => h x (by omega) (by omega)]

/-- What is written is read back. -/
theorem readCells_writeCells {m : List Host.Cell} {a : Nat} {bytes : List Byte} (hm : memoryWf m = true)
    (ha : a + bytes.length ≤ ramBytes) : readCells (writeCells m a bytes) a bytes.length = bytes := by
  have h : ∀ i (hi : i < bytes.length), readCell (writeCells m a bytes) (a + i) = bytes[i] := fun i hi =>
    readCell_writeCells_same a bytes i hm hi (by omega)
  generalize writeCells m a bytes = k at h
  clear ha
  induction bytes generalizing a with
  | nil => rfl
  | cons v rest ih =>
    simp only [List.length_cons, readCells]
    have h0 := h 0 (by simp)
    refine congrArg₂ List.cons h0 (ih fun i hi => ?_)
    have hs := h (i + 1) (by simpa using hi)
    rw [Nat.add_assoc, Nat.add_comm 1 i]
    exact hs

/-- Bytes outside a write read as before. -/
theorem readCells_writeCells_other (m : List Host.Cell) {a b n : Nat} (bytes : List Byte)
    (h : b + n ≤ a ∨ a + bytes.length ≤ b) : readCells (writeCells m a bytes) b n = readCells m b n :=
  readCells_congr fun _ h1 h2 => readCell_writeCells_other m a bytes (by omega)

theorem leInt_length (n : Nat) (i : Int) : (leInt n i).length = n := leBytes_length n _

/-! ### A refresh (R177) -/

/-- The fields of the page after its generation (Table 11-8). -/
def statusBody (s : State) : List Byte := statusWriter s ++ statusFrames s ++ statusPower s ++ statusFlash s

theorem statusBody_length (s : State) : (statusBody s).length = 92 := by
  unfold statusBody statusWriter statusFrames statusPower statusFlash optField
  simp only [List.length_append, leBytes_length, leInt_length]

/-- The page is its generation and its fields (Table 11-8). -/
theorem statusImage_eq (g : Word) (s : State) : statusImage g s = leBytes 4 g.toNat ++ statusBody s := by
  have h1 : ∀ v, leBytes 1 v = [BitVec.ofNat 8 v] := fun _ => rfl
  have h3 : leBytes 3 0 = [0, 0, 0] := rfl
  have hb : ∀ b, bit b 0 = (if b then 1 else 0) ∧ bit b 1 = (if b then 2 else 0) ∧ bit b 2 = (if b then 4 else 0) := by
    decide
  unfold statusImage statusBody statusWriter statusFrames statusPower statusFlash optField
  simp only [h1, h3, hb, decide_eq_true_eq, gaSoc, gaRemaining, gaQcap, ticksPerMah, List.append_assoc, List.cons_append,
    List.nil_append]
  cases openIndex s.sm <;> cases openSegment s.sm <;> rfl

/-- Outside the states that refresh, or with no page, nothing is written (R177). -/
theorem hpTick_idle (h : ¬refreshes s.part ∨ s.hp.status = none) : hpTick s = s := by
  unfold hpTick
  split
  · next hr =>
    have hs := h.resolve_left fun c => c hr
    unfold hpRefresh
    rw [hs]
  · rfl

/-- The Buffer RAM after a refresh of the page at `a` (R177). -/
def refreshedMem (a : Nat) (s : State) : List Host.Cell :=
  writeCells (writeCells (writeCells s.mem a (leBytes 4 (s.hp.statusGeneration + 1).toNat)) (a + 4) (statusBody s)) a
    (leBytes 4 (s.hp.statusGeneration + 2).toNat)

/-- A refresh writes the page between two increments of its generation (R177). -/
theorem hpTick_refreshes {a : Nat} (hr : refreshes s.part = true) (ha : s.hp.status = some a) :
    hpTick s = { s with mem := refreshedMem a s, hp.statusGeneration := s.hp.statusGeneration + 2 } := by
  have hb : ∀ b, statusWriter (s.store a b) ++ statusFrames (s.store a b) ++ statusPower (s.store a b)
      ++ statusFlash (s.store a b) = statusBody s := fun _ => rfl
  unfold hpTick hpRefresh
  rw [if_pos hr, ha]
  dsimp only
  rw [hb]
  unfold refreshedMem
  generalize statusBody s = body
  generalize leBytes 4 (s.hp.statusGeneration + 1).toNat = first
  generalize leBytes 4 (s.hp.statusGeneration + 2).toNat = last
  rfl

/-- The page reads as its image, and no other byte has changed (R177). -/
theorem refreshedMem_reads {a : Nat} (ha : a + 96 ≤ ramBytes) (hm : memoryWf s.mem = true) :
    readCells (refreshedMem a s) a 96 = statusImage (s.hp.statusGeneration + 2) s
      ∧ ∀ x, x < a ∨ a + 96 ≤ x → readCell (refreshedMem a s) x = readCell s.mem x := by
  have hl := statusBody_length s
  have h4 : ∀ v, (leBytes 4 v).length = 4 := leBytes_length 4
  have hw : memoryWf (writeCells s.mem a (leBytes 4 (s.hp.statusGeneration + 1).toNat)) = true := writeCells_wf a _ hm
  have hg : readCells (refreshedMem a s) a 4 = leBytes 4 (s.hp.statusGeneration + 2).toNat := by
    have := readCells_writeCells (a := a) (bytes := leBytes 4 (s.hp.statusGeneration + 2).toNat)
      (writeCells_wf (a + 4) (statusBody s) hw) (by rw [h4]; omega)
    rwa [h4] at this
  have hb : readCells (refreshedMem a s) (a + 4) 92 = statusBody s := by
    have := readCells_writeCells (a := a + 4) (bytes := statusBody s) hw (by omega)
    rw [hl] at this
    unfold refreshedMem
    rw [readCells_writeCells_other _ _ (.inr (by rw [h4])), this]
  refine ⟨?_, fun x hx => ?_⟩
  · rw [statusImage_eq, show (96 : Nat) = 4 + 92 from rfl, readCells_append, hg, hb]
  · unfold refreshedMem
    rw [readCell_writeCells_other _ _ _ (by rw [h4]; omega), readCell_writeCells_other _ _ _ (by omega),
      readCell_writeCells_other _ _ _ (by rw [h4]; omega)]

theorem refreshes_iff (p : Part) :
    refreshes p = true ↔ (p.state = .idle ∨ p.state = .mounting ∨ p.state = .running) ∧ p.transition ≠ .reset := by
  unfold refreshes
  simp [or_assoc]

/-! ### A writer that takes no step -/

/-- The writer takes no step, whatever stop event comes, until flash or a request comes to it, and no mount, Format, mark or
scan goes on (R99, R111, R123, R125, R127, R128). -/
structure Parked (s : State) : Prop where
  powered : s.part.state ≠ .off
  oldestUnready : ∀ e, s.cw.queue.head? = some e → e.result = none
  noJob : s.cw.job = .idle
  noReappend : s.cw.reappend = []
  noResume : s.cw.resume = none
  noStopReady : stopReady s.cw = none
  waits : s.cw.programming = true
    ∨ (s.cw.assembly.length < 8192 ∧ s.cw.writer ≠ .closing ∧ s.cw.writer ≠ .recording)
  noCommit : s.cw.deadline = none ∨ s.cw.programming = true
  noMarks : s.mu.marks = []
  noMount : s.sm.mount = none
  noFormat : s.sm.format = none
  noScan : scanIdle s

/-- A resting writer with a page at its program is parked where the scan finds nothing (R125). -/
theorem Resting.parked (h : Resting s) (hp : s.cw.programming = true) (hs : scanIdle s) : Parked s :=
  ⟨h.powered, h.oldestUnready, h.noJob, h.noReappend, h.noResume, stopReady_none h.noStopDue, .inl hp, .inr hp, h.noMarks,
    h.noMount, h.noFormat, hs⟩

/-- So is a calm one that does not record. -/
theorem Calm.parked (h : Calm s) (ht : s.cw.table = none) (hw : s.cw.writer ≠ .recording) (hd : s.cw.deadline = none) :
    Parked s :=
  ⟨h.powered, h.resting.oldestUnready, h.noJob, h.noReappend, h.noResume, stopReady_none h.noStopDue,
    .inr ⟨h.notFull, h.notClosing, hw⟩, .inl hd, h.noMarks, h.noMount, h.noFormat, .inl ht⟩

/-- What `Parked` speaks of. -/
theorem Parked.congr (h : Parked s) (hp : t.part.state = s.part.state) (hc : t.cw = s.cw) (hm : t.mu.marks = s.mu.marks)
    (hs : t.sm = s.sm) (hscan : scanIdle t) : Parked t where
  powered := by rw [hp]; exact h.powered
  oldestUnready := by rw [hc]; exact h.oldestUnready
  noJob := by rw [hc]; exact h.noJob
  noReappend := by rw [hc]; exact h.noReappend
  noResume := by rw [hc]; exact h.noResume
  noStopReady := by rw [hc]; exact h.noStopReady
  waits := by rw [hc]; exact h.waits
  noCommit := by rw [hc]; exact h.noCommit
  noMarks := hm.trans h.noMarks
  noMount := by rw [hs]; exact h.noMount
  noFormat := by rw [hs]; exact h.noFormat
  noScan := hscan

/-- A scan that finds nothing, of the same table in the same bytes (R112). -/
theorem scanIdle_congr (h : scanIdle s) (hc : t.cw = s.cw) (hm : t.mem = s.mem) (hs : t.hp.status = s.hp.status)
    (hp : t.pu.table = s.pu.table) : scanIdle t := by
  unfold scanIdle noneOffered slotState State.readField at *
  rw [hc, hm, hs, hp]
  exact h

/-- A cause raised leaves the writer parked. -/
theorem Parked.raise (h : Parked s) (c : Cause) : Parked (s.raise c) :=
  h.congr (by rw [raise_part]) (raise_cw s c) (by rw [raise_mu]) (raise_sm s c)
    (scanIdle_congr h.noScan (raise_cw s c) (raise_mem s c) (raise_hp_status s c) (by rw [raise_pu]))

theorem Parked.step (h : Parked s) : cwStep s = none := by
  unfold cwStep
  simp only [h.noStopReady]
  split
  · rfl
  · next hb =>
    simp only [not_or] at hb
    obtain ⟨hf, hc, -⟩ := h.waits.resolve_left hb.2.1
    have hn : assemblyFull s.cw = false := by
      unfold assemblyFull
      exact decide_eq_false (by omega)
    simp [hn, cwJobStep, h.noJob, cwIdleStep, h.noReappend, h.noResume, hc]

theorem Parked.run (h : Parked s) : cwRun s = s := cwRun_none h.step (cwPublish_unready h.oldestUnready)

/-- Nothing follows a command that leaves the writer parked. -/
theorem Parked.finish (h : Parked s) (hg : s.ga.sysen = true) : finish s = s :=
  finish_of hg (smGoOn_idle h.noMount h.noFormat) h.run (smIntake_none h.noMarks)

theorem foldl_stays {α β : Type} {f : α → β → α} {a : α} {l : List β} (h : ∀ b ∈ l, f a b = a) : l.foldl f a = a := by
  induction l with
  | nil => rfl
  | cons b l ih =>
    rw [List.foldl_cons, h b (List.mem_cons_self ..)]
    exact ih fun c hc => h c (List.mem_cons_of_mem _ hc)

/-- A scan of a table with no slot Posted takes nothing (R112). -/
theorem cwScanTable_none {table : Nat} (hn : noneOffered s) (ht : s.cw.table = some table) : cwScanTable table s = s := by
  have ho : ∀ i ∈ List.range s.cw.slotCount, slotOffered s table i = false := fun i hi => by
    unfold slotOffered
    simp [hn table ht i (List.mem_range.1 hi)]
  have hs : (List.range s.cw.slotCount).foldl (fun s i => cwFailStale table i s) s = s :=
    foldl_stays fun i hi => if_neg fun c => Bool.false_ne_true ((ho i hi).symm.trans c.1)
  have he : expectedSlot s table = none :=
    List.find?_eq_none.2 fun i hi => by simp [ho i hi]
  unfold cwScanTable cwTakeAll
  rw [hs, he]
  exact ite_self _

/-- The scan of a tick finds nothing (R112). -/
theorem Parked.service (h : Parked s) : cwService s = s := by
  unfold cwService
  split
  · cases ht : s.cw.table with
    | none => rfl
    | some table =>
      have hn := (h.noScan.resolve_left fun c => by rw [ht] at c; cases c).1
      dsimp only
      rw [cwScanTable_none hn ht, h.run]
  · rfl

/-- The check of the commit deadline finds no tail (R127). -/
theorem Parked.commit (h : Parked s) : cwCommit s = s := by
  have hd : commitDue s = false := by
    unfold commitDue
    rcases h.noCommit with hd | hp
    · rw [hd]
    · cases s.cw.deadline <;> simp [hp]
  unfold cwCommit
  rw [hd]
  exact if_neg Bool.false_ne_true

/-- Of the Reserve and an event that waits, whichever is kept waits (R123, R128). -/
theorem stopReady_later {c : Cw} (h : stopReady c = none) (hw : stopWaits .reserve c = true) :
    stopReady { c with stopDue := some (laterStop c.stopDue .reserve) } = none := by
  have hl : stopWaits (laterStop c.stopDue .reserve) c = true := by
    unfold stopReady at h
    cases hd : c.stopDue with
    | none => exact hw
    | some y =>
      rw [hd] at h
      have hy : stopWaits y c = true := by simpa using h
      exact hy
  have hl' : stopWaits (laterStop c.stopDue .reserve) { c with stopDue := some (laterStop c.stopDue .reserve) } = true := hl
  unfold stopReady
  rw [Option.filter_some, hl']
  rfl

/-- An entry to Reserve leaves the writer parked: it is Closing, or the event waits, or nothing comes of it (R123, R160). -/
theorem Parked.stopEvent (h : Parked s) : Parked (cwStopEvent .reserve s) := by
  unfold cwStopEvent
  split
  · next hw =>
    exact ⟨h.powered, h.oldestUnready, h.noJob, h.noReappend, h.noResume, stopReady_later h.noStopReady hw, h.waits,
      h.noCommit, h.noMarks, h.noMount, h.noFormat, h.noScan⟩
  · unfold cwApplyStop
    split
    · next hr =>
      have hp : s.cw.programming = true := h.waits.resolve_right fun c => c.2.2 hr
      unfold cwEnterClosing cwSetWriter
      have hc : Parked { s with cw.cause := .reserve } :=
        ⟨h.powered, h.oldestUnready, h.noJob, h.noReappend, h.noResume, h.noStopReady, h.waits, h.noCommit, h.noMarks,
          h.noMount, h.noFormat, h.noScan⟩
      split
      · exact hc
      · refine Parked.raise ?_ _
        exact ⟨h.powered, h.oldestUnready, h.noJob, h.noReappend, h.noResume, h.noStopReady, .inl hp, .inr hp, h.noMarks,
          h.noMount, h.noFormat, h.noScan⟩
    · split
      · next hx => exact absurd hx.2 (by decide)
      · exact h

/-- So the signal is the event (R131, R160). -/
theorem Parked.signal (h : Parked s) (hr : s.resetting = false) : cwSignal .reserve s = cwStopEvent .reserve s := by
  unfold cwSignal
  rw [hr, if_neg Bool.false_ne_true, h.stopEvent.run]

/-! ### What a measurement arrival is made of -/

/-- What a change of the Charge Controller's registers and a raised cause keep. -/
structure Carries (P : State → Prop) : Prop where
  registers : ∀ {s : State} (c : Cc), P s → P { s with cc := c }
  raise : ∀ {s : State} (c : Cause), P s → P (s.raise c)

section
variable {P : State → Prop} {m : Measurement} (k : Carries P)
include k

theorem Carries.enter (h : P s) (st : ChargeState) : P (ccEnter st s) := k.raise _ (k.registers _ h)

theorem Carries.fault (h : P s) (c : FaultCause) : P (ccFault c s) := k.raise _ (k.enter (k.registers _ h) _)

theorem Carries.flag (h : P s) : P (ccOvervoltageFlag m s) := by
  unfold ccOvervoltageFlag
  split
  · exact k.raise _ (k.registers _ h)
  · exact h

/-- The qualification, where a change of it is handed to the Gauge (R135, R157). -/
theorem Carries.qualify (h : P s)
    (hq : ¬(vinInRange m.vin = s.cc.present ∨ s.cc.qualifyCount < 3) → ∀ {u} b, P u → P (gaQualification b u)) :
    P (ccQualify m s) := by
  unfold ccQualify
  split
  · exact k.registers _ h
  · next hv =>
    split
    · exact k.registers _ h
    · next hc =>
      have hn : ¬(vinInRange m.vin = s.cc.present ∨ s.cc.qualifyCount < 3) := not_or.2 ⟨hv, by omega⟩
      split
      · exact hq hn _ (k.raise _ (k.registers _ h))
      · exact hq hn _ (k.raise _ (k.registers _ h))

/-- The exit of a state, where an entry to Done is told to the Gauge (R143 to R146, R158). -/
theorem Carries.exit (h : P s)
    (hf : s.cc.charge = .taper → 16 ≤ terminationAfter s.cc m (taperAfter s.cc m) → ∀ {u}, P u → P (gaFull u)) :
    P (ccExit m s) := by
  unfold ccExit
  split
  · split
    · exact k.enter h _
    · split <;> exact k.enter h _
  · split
    · exact k.enter h _
    · exact h
  · split
    · exact k.enter (k.registers _ h) _
    · exact h
  · next ht =>
    unfold ccTaper
    dsimp only
    split
    · next hn => exact hf ht hn (k.enter (k.registers _ h) _)
    · exact k.registers _ h
  · unfold ccDone
    split
    · split
      · exact k.enter (k.registers _ h) _
      · exact k.registers _ h
    · exact k.registers _ h
  · split
    · exact h
    · exact k.enter h _
  · exact h

/-- The one transition of an arrival (R142). -/
theorem Carries.transition (clear : Bool) (h : P s)
    (hf : s.cc.charge = .taper → 16 ≤ terminationAfter s.cc m (taperAfter s.cc m) → ∀ {u}, P u → P (gaFull u)) :
    P (ccTransition clear m s) := by
  unfold ccTransition
  split
  · exact k.enter h _
  split
  · exact k.enter h _
  split
  · split
    · exact k.enter (k.registers _ h) _
    · exact h
  split
  · exact k.enter h _
  split
  · exact k.enter h _
  split
  · exact k.fault h _
  split
  · exact k.fault h _
  split
  · exact k.fault h _
  split
  · exact k.enter h _
  · exact k.exit h hf

/-- A measurement arrival changes the Charge Controller's registers, raises causes, and calls the Gauge at a change of the
qualification and at an entry to Done (R134). -/
theorem Carries.arrival (h : P s)
    (hq : ¬(vinInRange m.vin = s.cc.present ∨ s.cc.qualifyCount < 3) → ∀ {u} b, P u → P (gaQualification b u))
    (hf : s.cc.charge = .taper → 15 ≤ s.cc.terminationCount → ∀ {u}, P u → P (gaFull u)) : P (ccArrival m s) := by
  obtain ⟨c₀, e₀⟩ := ccInstall_ticked { s with cc.latest := some m }
  have hb := (ccInstall_cc m s).2
  have hp : (ccBegun m s.cc).2.present = s.cc.present ∧ (ccBegun m s.cc).2.qualifyCount = s.cc.qualifyCount
      ∧ (ccBegun m s.cc).2.charge = s.cc.charge ∧ (ccBegun m s.cc).2.terminationCount = s.cc.terminationCount := by
    unfold ccBegun
    split <;> exact ⟨rfl, rfl, rfl, rfl⟩
  have ha : P (ccOvervoltageFlag m (ccInstall { s with cc.latest := some m }).2) := by
    rw [e₀]
    have h₀ : P { s with cc := c₀ } := k.registers c₀ h
    exact k.flag h₀
  unfold ccArrival
  dsimp only
  generalize ccOvervoltageFlag m (ccInstall { s with cc.latest := some m }).2 = a at ha hb ⊢
  have hqa : P (ccQualify m a) := k.qualify ha (by rw [hb, hp.1, hp.2.1]; exact hq)
  obtain ⟨d, e⟩ := ccMiddle m (ccQualify m a)
  have hcc : (ccOvervoltageCount m (ccTimers (ccBudget m (ccDroop m (ccZone m (ccQualify m a)))))).cc
      = ccStaged m (railOn (ccDroop m (ccZone m (ccQualify m a))).fe.rail) (ccJudged m a.cc) := by
    rw [show ∀ s, (ccOvervoltageCount m s).cc = ccCounted m s.cc from fun _ => rfl, ccTimers_cc, ccBudget_cc, ccDroop_cc,
      ccZone_cc, ccQualify_cc]
    rfl
  rw [e] at hcc ⊢
  refine k.registers _ (k.transition _ (k.registers _ hqa) fun ht hn => ?_)
  obtain ⟨t, z, l, b, p, f, v, es⟩ :=
    ccStaged_form m (railOn (ccDroop m (ccZone m (ccQualify m a))).fe.rail) (ccJudged m a.cc)
  rw [hcc, es] at ht hn
  have hj : (ccJudged m a.cc).terminationCount ≤ a.cc.terminationCount := by
    unfold ccJudged
    split
    · exact le_rfl
    · split
      · exact le_rfl
      · split
        · exact Nat.zero_le _
        · exact le_rfl
  have hc : s.cc.charge = .taper := by
    rw [← hp.2.2.1, ← hb, ← ccJudged_charge m a.cc]
    exact ht
  have hd : 15 ≤ s.cc.terminationCount := by
    rw [← hp.2.2.2, ← hb]
    unfold terminationAfter at hn
    dsimp only at hn
    split at hn
    · omega
    · split at hn <;> omega
  exact @fun u => hf hc hd (u := u)

end

/-! ### What an arrival signals -/

/-- No cutoff can begin by finding the level now (R159, R161). -/
structure Spared (g : Ga) : Prop where
  noGrace : g.grace = none
  notCutoff : g.level ≠ .cutoff
  notDue : g.cutoffCount < 4

theorem Spared.level {g : Ga} (h : Spared g) : gaLevel g ≠ .cutoff :=
  gaLevel_ne_cutoff h.notCutoff (by have := h.notDue; omega)

/-- What the charger's hand-offs leave of a Gauge that is spared. -/
theorem Spared.fed {g k : Ga} (h : Spared g) (f : Fed g k) : Spared k :=
  ⟨f.grace.trans h.noGrace, f.level, lt_of_le_of_lt f.count h.notDue⟩

/-- The gauge's and the charger's arrivals at a parked writer leave it parked, and of the Host Port change the causes only. -/
structure Signalled (s t : State) : Prop where
  parked : Parked s → Parked t
  hp : { t.hp with events := s.hp.events } = s.hp

theorem Signalled.refl (s : State) : Signalled s s := ⟨id, rfl⟩

theorem Signalled.trans (h : Signalled s₀ s) (k : Signalled s t) : Signalled s₀ t :=
  ⟨k.parked ∘ h.parked, by rw [← h.hp, ← k.hp]⟩

/-- A change of the two blocks' own registers. -/
theorem Signalled.update (h : Signalled s₀ s) (cc : Cc) (ga : Ga) : Signalled s₀ { s with cc := cc, ga := ga } :=
  ⟨fun p => (h.parked p).congr rfl rfl rfl rfl (h.parked p).noScan, h.hp⟩

theorem raise_hp_form (s : State) (c : Cause) : { (s.raise c).hp with events := s.hp.events } = s.hp := by
  unfold State.raise
  split <;> rfl

theorem Signalled.raise (h : Signalled s₀ s) (c : Cause) : Signalled s₀ (s.raise c) :=
  h.trans ⟨fun p => p.raise c, raise_hp_form s c⟩

/-- An entry to Reserve is handed over (R160). -/
theorem Signalled.signal (h : Signalled s₀ s) : Signalled s₀ (cwSignal .reserve s) := by
  refine h.trans ⟨fun p => ?_, (cwSignal_recording (Recording.refl s) _).hp⟩
  unfold cwSignal
  split
  · exact p
  · rw [p.stopEvent.run]
    exact p.stopEvent

/-- Finding the level, where it cannot become Cutoff (R159, R160). -/
theorem gaFindLevel_signalled (h : Signalled s₀ s) (hs : Spared s.ga) : Signalled s₀ (gaFindLevel s) := by
  have hr := (h.update s.cc { s.ga with level := gaLevel s.ga }).raise .gaugeLevel
  unfold gaFindLevel
  dsimp only
  split
  · exact h
  · split
    · exact hr.signal
    · next hc => exact absurd hc hs.level
    · exact hr

/-- A change of the input qualification (R157). -/
theorem gaQualification_signalled (h : Signalled s₀ s) (hs : Spared s.ga) (b : Bool) :
    Signalled s₀ (gaQualification b s) ∧ Spared (gaQualification b s).ga := by
  refine ⟨gaFindLevel_signalled (h.update s.cc _) ⟨hs.noGrace, hs.notCutoff, ?_⟩,
    hs.fed (gaQualification_fed (Fed.refl hs.notCutoff) hs.noGrace hs.notDue b).1⟩
  have := hs.notDue
  dsimp only
  split <;> omega

/-- An entry to Done (R158). -/
theorem gaFull_signalled (h : Signalled s₀ s) (hs : Spared s.ga) :
    Signalled s₀ (gaFull s) ∧ Spared (gaFull s).ga :=
  ⟨gaFindLevel_signalled (h.update s.cc _) ⟨hs.noGrace, hs.notCutoff, hs.notDue⟩,
    hs.fed (gaFull_fed (Fed.refl hs.notCutoff) hs.noGrace hs.notDue).1⟩

/-- The charger's arrival (R134). -/
theorem ccArrival_signalled (hs : Spared s.ga) (m : Measurement) :
    Signalled s (ccArrival m s) ∧ Spared (ccArrival m s).ga := by
  have hk : Carries fun u => Signalled s u ∧ Spared u.ga :=
    ⟨fun c h => ⟨h.1.update c _, h.2⟩, fun c h => ⟨h.1.raise c, by rw [raise_ga]; exact h.2⟩⟩
  exact hk.arrival ⟨Signalled.refl s, hs⟩ (fun _ _ b h => gaQualification_signalled h.1 h.2 b)
    fun _ _ _ h => gaFull_signalled h.1 h.2

end Sys2Proof.Machine
end

section
/-! The deliveries of a charge tick at which the writer takes no step (R3), and the status page that the last of them
writes (R177). -/

namespace Sys2Proof.Machine

variable {s₀ s t : State} {m : Measurement}

/-! ### What the deliveries change -/

/-- The release scan changes shadows and, where there is a table, the Buffer RAM (R55, R56). -/
theorem puReleaseScan_form (s : State) :
    ∃ l k, puReleaseScan s = { s with pu.shadows := l, mem := k } ∧ (s.pu.table = none → k = s.mem) := by
  have hstep : ∀ i (u : State), ∃ l k, puScanEntry i u = { u with pu.shadows := l, mem := k }
      ∧ (u.pu.table = none → k = u.mem) := by
    intro i u
    unfold puScanEntry
    dsimp only
    split
    · split
      · unfold puStore recordAt puModify
        dsimp only
        cases u.pu.table with
        | none => exact ⟨_, u.mem, rfl, fun _ => rfl⟩
        | some base => exact ⟨_, _, rfl, nofun⟩
      · exact ⟨u.pu.shadows, u.mem, rfl, fun _ => rfl⟩
    · exact ⟨u.pu.shadows, u.mem, rfl, fun _ => rfl⟩
  unfold puReleaseScan
  generalize List.range s.pu.capacity = is
  induction is generalizing s with
  | nil => exact ⟨s.pu.shadows, s.mem, rfl, fun _ => rfl⟩
  | cons i is ih =>
    obtain ⟨l, k, e, hk⟩ := hstep i s
    obtain ⟨l', k', e', hk'⟩ := ih { s with pu.shadows := l, mem := k }
    refine ⟨l', k', ?_, fun h => (hk' h).trans (hk h)⟩
    rw [List.foldl_cons, e, e']

/-- FE's part of a tick changes FE alone (R69). -/
theorem feTick_form (s : State) : ∃ f, feTick s = { s with fe := f } := by
  unfold feTick feSwitchOff
  split
  · dsimp only
    split
    · exact ⟨_, rfl⟩
    · split <;> exact ⟨_, rfl⟩
  · exact ⟨s.fe, rfl⟩

/-- Where the request table's slots cannot have changed, the scan still finds nothing (R112). -/
theorem scanIdle_unread (h : scanIdle s) (hc : t.cw = s.cw) (hs : t.hp.status = s.hp.status)
    (hp : t.pu.table = s.pu.table) (hm : s.hp.status = none → s.pu.table = none → t.mem = s.mem) : scanIdle t := by
  rcases h with h | ⟨h, h1, h2⟩
  · exact .inl (hc ▸ h)
  · exact scanIdle_congr (.inr ⟨h, h1, h2⟩) hc (hm h1 h2) hs hp

theorem puReleaseScan_signalled (s : State) : Signalled s (puReleaseScan s) := by
  obtain ⟨l, k, e, hk⟩ := puReleaseScan_form s
  rw [e]
  exact ⟨fun h => h.congr rfl rfl rfl rfl (scanIdle_unread h.noScan rfl rfl rfl fun _ => hk), rfl⟩

theorem feTick_signalled (s : State) : Signalled s (feTick s) := by
  obtain ⟨f, e⟩ := feTick_form s
  rw [e]
  exact ⟨fun h => h.congr rfl rfl rfl rfl (scanIdle_congr h.noScan rfl rfl rfl rfl), rfl⟩

theorem cwService_signalled (s : State) : Signalled s (cwService s) :=
  ⟨fun h => by rw [h.service]; exact h, (cwService_recording (Recording.refl s)).hp⟩

theorem cwCommit_signalled (s : State) : Signalled s (cwCommit s) :=
  ⟨fun h => by rw [h.commit]; exact h, (cwCommit_recording (Recording.refl s)).hp⟩

/-- A refresh leaves the writer parked (R177). -/
theorem Parked.hpTick (h : Parked s) : Parked (hpTick s) := by
  by_cases hs : s.hp.status = none
  · rw [hpTick_idle (.inr hs)]
    exact h
  · obtain ⟨k, g, e⟩ := hpTick_form s
    rw [e]
    exact h.congr rfl rfl rfl rfl (scanIdle_unread h.noScan rfl rfl rfl fun n => absurd n hs)

/-- The Gauge's arrival, where no cutoff can begin (R153). -/
theorem gaArrival_signalled (hs : Spared s.ga) (hc : s.ga.cutoffCount < 3) :
    Signalled s (gaArrival m s) ∧ Spared (gaArrival m s).ga := by
  have hi : Signalled s (gaInstall s) := by
    unfold gaInstall
    split
    · exact Signalled.refl s
    · exact gaFindLevel_signalled ((Signalled.refl s).update s.cc _) ⟨hs.noGrace, hs.notCutoff, hs.notDue⟩
  have hn : Signalled s (gaCount m (gaInstall s)) := by
    unfold gaCount
    split <;> exact hi.update _ _
  obtain ⟨q, b, e⟩ := gaCounted_form m (gaInstalled s.ga)
  have hd : (gaAdvance m (gaCount m (gaInstall s))).ga = gaHeld m (gaCounted m (gaInstalled s.ga)) := by
    rw [← gaInstall_ga hs.noGrace hs.notCutoff hs.notDue, ← gaCount_ga]
    rfl
  have hg : Spared (gaHeld m (gaCounted m (gaInstalled s.ga))) := by
    rw [e]
    have := gaInstalled_count s.ga
    refine ⟨(gaInstalled_grace _).trans hs.noGrace, gaInstalled_level hs.notCutoff hs.notDue, ?_⟩
    unfold gaHeld
    dsimp only
    split <;> omega
  refine ⟨?_, ?_⟩
  · unfold gaArrival
    dsimp only
    rw [hs.noGrace]
    exact gaFindLevel_signalled (hn.update _ _) (hd ▸ hg)
  · rw [gaArrival_ga m hs.noGrace hs.notCutoff hc]
    exact ⟨hg.noGrace, hg.level, hg.notDue⟩

/-- A delivery leaves a parked writer parked, and only the refresh changes more of the Host Port than its causes (R3). -/
theorem tickDelivery_signalled (d : TickDelivery) (hs : Spared s.ga) (hc : d = .gauge → s.ga.cutoffCount < 3) :
    (Parked s → Parked (tickDelivery m d s)) ∧ Spared (tickDelivery m d s).ga
      ∧ (d ≠ .status → { (tickDelivery m d s).hp with events := s.hp.events } = s.hp) := by
  by_cases h1 : d = .charger
  · subst h1
    obtain ⟨ha, hg⟩ := ccArrival_signalled hs m
    exact ⟨ha.parked, hg, fun _ => ha.hp⟩
  by_cases h2 : d = .gauge
  · subst h2
    obtain ⟨ha, hg⟩ := gaArrival_signalled (m := m) hs (hc rfl)
    exact ⟨ha.parked, hg, fun _ => ha.hp⟩
  by_cases h3 : d = .status
  · subst h3
    exact ⟨Parked.hpTick, by rw [tickDelivery_ga m h1 h2 hs.noGrace]; exact hs, fun h => absurd rfl h⟩
  have h : Signalled s (tickDelivery m d s) := by
    cases d <;> unfold tickDelivery <;> dsimp only
    · split
      · exact puReleaseScan_signalled s
      · exact Signalled.refl s
    · exact absurd rfl h1
    · exact absurd rfl h2
    · exact cwService_signalled s
    · exact cwCommit_signalled s
    · exact feTick_signalled s
    · exact absurd rfl h3
  exact ⟨h.parked, by rw [tickDelivery_ga m h1 h2 hs.noGrace]; exact hs, fun _ => h.hp⟩

/-- So do several, the Gauge's at most once among them. -/
theorem deliveries_signalled {l : List TickDelivery} (hn : l.Nodup) (hs : Spared s.ga)
    (hc : .gauge ∈ l → s.ga.cutoffCount < 3) :
    (Parked s → Parked (l.foldl (fun s d => tickDelivery m d s) s)) ∧ Spared (l.foldl (fun s d => tickDelivery m d s) s).ga
      ∧ (.status ∉ l → { (l.foldl (fun s d => tickDelivery m d s) s).hp with events := s.hp.events } = s.hp) := by
  induction l generalizing s with
  | nil => exact ⟨id, hs, fun _ => rfl⟩
  | cons d l ih =>
    obtain ⟨hd, hl⟩ := List.nodup_cons.1 hn
    obtain ⟨k1, k2, k3⟩ := tickDelivery_signalled (m := m) d hs fun e => hc (e ▸ List.mem_cons_self ..)
    have hcl : .gauge ∈ l → (tickDelivery m d s).ga.cutoffCount < 3 := fun hg => by
      have hne : d ≠ .gauge := fun e => hd (e ▸ hg)
      have h3 := hc (List.mem_cons_of_mem _ hg)
      by_cases e : d = .charger
      · subst e
        exact lt_of_le_of_lt (ccArrival_fed m hs.noGrace hs.notCutoff hs.notDue).1.count h3
      · rw [tickDelivery_ga m e hne hs.noGrace]
        exact h3
    obtain ⟨j1, j2, j3⟩ := ih hl k2 hcl
    rw [List.foldl_cons]
    refine ⟨j1 ∘ k1, j2, fun hx => ?_⟩
    simp only [List.mem_cons, not_or] at hx
    rw [← k3 (Ne.symm hx.1), ← j3 hx.2]

/-! ### The Gauge's own registers -/

/-- An arrival at which no cutoff begins leaves SYSEN, has made an estimate, and advances the hold (R153, R161). -/
theorem gaAfter_kept (m : Measurement) (g : Ga) :
    (gaAfter m g).sysen = g.sysen ∧ (gaAfter m g).estimated = true ∧ (gaAfter m g).hold = min 4 (g.hold + 1) := by
  have hi : (gaInstalled g).sysen = g.sysen ∧ (gaInstalled g).hold = g.hold := by
    unfold gaInstalled
    split <;> exact ⟨rfl, rfl⟩
  have hc : (gaCounted m (gaInstalled g)).sysen = g.sysen ∧ (gaCounted m (gaInstalled g)).estimated = true
      ∧ (gaCounted m (gaInstalled g)).hold = g.hold := by
    unfold gaCounted
    split
    · next he => exact ⟨hi.1, he, hi.2⟩
    · exact ⟨hi.1, rfl, hi.2⟩
  obtain ⟨h1, h2, h3⟩ := hc
  exact ⟨h1, h2, congrArg (fun n => min 4 (n + 1)) h3⟩

/-- SYSEN stays asserted at a tick of a part that lasts (R161). -/
theorem chargeTick_asserted (m : Measurement) (o : List TickDelivery) (h : Lasting s) :
    (bodyChargeTick m o s).ga.sysen = true := by
  obtain ⟨b, hb, -, hu, -⟩ := bodyChargeTick_ga m o h
  rw [hu.sysen, (gaAfter_kept _ b).1, hb.sysen, h.asserted]

/-! ### The refresh as the last delivery -/

/-- A part that lasts is spared before a tick (R161). -/
theorem Lasting.spared (h : Lasting s) : Spared s.ga :=
  ⟨h.noGrace, h.notCutoff, lt_of_lt_of_le h.notDue (by decide)⟩

/-- The clock's way to the tick leaves the writer parked (R3). -/
theorem Parked.tickTime (h : Parked s) : Parked (tickTime s) :=
  h.congr rfl rfl rfl rfl (scanIdle_congr h.noScan rfl rfl rfl rfl)

/-- The deliveries before the one that comes last. -/
theorem tickOrder_last {o : List TickDelivery} {d : TickDelivery} (h : (tickOrder o).getLast? = some d) :
    ∃ l, tickOrder o = l ++ [d] ∧ l.Nodup ∧ d ∉ l := by
  obtain ⟨l, e⟩ := List.getLast?_eq_some_iff.1 h
  have hn : (tickOrder o).Nodup := (tickOrder_perm o).nodup_iff.2 (by decide)
  rw [e] at hn
  obtain ⟨h1, -, h3⟩ := List.nodup_append.1 hn
  exact ⟨l, e, h1, fun hd => h3 d hd d (List.mem_cons_self ..) rfl⟩

/-- With the refresh last, a charge tick leaves the page of the state it ends in (R177). -/
theorem chargeTick_status {o : List TickDelivery} {a : Nat} (hp : Parked s) (hl : Lasting s)
    (hlast : (tickOrder o).getLast? = some .status) (hr : refreshes s.part = true) (ha : s.hp.status = some a)
    (hfit : a + 96 ≤ ramBytes) (hm : memoryWf s.mem = true) :
    ∃ u, exec (.chargeTick m o) s = .next u ∧ u.hp.statusGeneration = s.hp.statusGeneration + 2
      ∧ readCells u.mem a 96 = statusImage u.hp.statusGeneration u := by
  obtain ⟨l, e, hn, hx⟩ := tickOrder_last hlast
  have ht := deliveries_signalled (s := tickTime s) (m := delivered m) hn hl.spared fun _ => hl.notDue
  have hk := deliveries_ticked (Ticked.refl (tickTime s)) (delivered m) l
  have hw : Regular s (l.foldl (fun s d => tickDelivery (delivered m) d s) (tickTime s)) :=
    foldl_regular (tickTime_regular (Regular.refl s)) _ fun h d => tickDelivery_regular h (delivered m) d
  have hb : bodyChargeTick m o s = hpTick (l.foldl (fun s d => tickDelivery (delivered m) d s) (tickTime s)) := by
    unfold bodyChargeTick
    rw [e, List.foldl_append]
    rfl
  have hsys := chargeTick_asserted m o hl
  generalize l.foldl (fun s d => tickDelivery (delivered m) d s) (tickTime s) = b at ht hk hw hb
  obtain ⟨hpark, -, hhp⟩ := ht
  have hsame : { b.hp with events := s.hp.events } = s.hp := hhp hx
  have hst : b.hp.status = s.hp.status := congrArg (fun h => h.status) hsame
  have hgen : b.hp.statusGeneration = s.hp.statusGeneration := congrArg (fun h => h.statusGeneration) hsame
  have hpb : b.part = s.part := hk.part
  have hf : finish (bodyChargeTick m o s) = bodyChargeTick m o s := by
    rw [hb] at hsys ⊢
    exact (hpark hp.tickTime).hpTick.finish hsys
  refine ⟨_, exec_chargeTick m o hp.powered, ?_⟩
  rw [hf, hb, hpTick_refreshes (hpb ▸ hr) (hst.trans ha)]
  exact ⟨by rw [← hgen], (refreshedMem_reads hfit (hw.memory hm)).1⟩

/-- Settles O54, by the bytes that a refresh writes and by the deliveries that leave the writer parked. -/
theorem statusRefreshed : Obligations.StatusRefreshed := by
  unfold Obligations.StatusRefreshed
  refine ⟨fun s => ⟨fun h => hpTick_idle ?_, ?_⟩, ?_⟩
  · rw [refreshes_iff]
    exact h
  · rintro a g hp hr ha hfit hm rfl
    exact ⟨_, hpTick_refreshes ((refreshes_iff _).2 ⟨hp, hr⟩) ha, refreshedMem_reads hfit hm⟩
  · intro m o s a hcalm hl htable hw hd hlast hp hr ha hfit hm
    exact chargeTick_status (hcalm.parked htable hw hd) hl hlast ((refreshes_iff _).2 ⟨hp, hr⟩) ha hfit hm

end Sys2Proof.Machine
end

section
/-! A reading at the Gauge and the Charge Controller (R133, R153), and the charge tick that delivers it (R3). -/

namespace Sys2Proof.Machine

variable {s₀ s t : State} {m : Measurement}

/-! ### The Gauge's count and level -/

theorem gaInstalled_none {g : Ga} (h : g.pending = none) : gaInstalled g = g := by
  unfold gaInstalled
  rw [h]

/-- The count of an arrival: an estimate, or the reading added (R154, R155). -/
theorem gaAfter_q {g : Ga} (h : g.pending = none) :
    (gaAfter m g).q = if g.estimated then chargeAfter (gaQcap g.params) g.q m.ibat
      else chargeEstimate (gaQcap g.params) m.vbat := by
  unfold gaAfter gaHeld gaCounted
  rw [gaInstalled_none h]
  dsimp only
  split <;> rfl

/-- The level below Cutoff, by the count and the hold (R159, R160). -/
theorem gaLevel_below {g : Ga} (hl : g.level ≠ .cutoff) (hc : g.cutoffCount ≠ 4) (hh : g.hold ≤ 4) :
    gaLevel g = (if g.hold = 4 ∧ g.present = false ∧ g.q ≤ g.params.reserve * 360000 then .reserve
      else if g.level = .reserve ∧ g.present = false ∧ g.q ≤ (g.params.reserve + 10) * 360000 then .reserve
      else if g.q * 100 / (g.params.capacity * 360000) ≤ 15 then .low else .normal) := by
  have he : holdEnded g = true ↔ g.hold = 4 := by
    unfold holdEnded
    rw [decide_eq_true_iff]
    omega
  have hp : (!g.present) = true ↔ g.present = false := by rw [Bool.not_eq_true']
  unfold gaLevel
  rw [if_neg hl, if_neg fun k => hc k.2.2]
  exact if_congr (and_congr he (and_congr hp Iff.rfl)) rfl
    (if_congr (and_congr Iff.rfl (and_congr hp Iff.rfl)) rfl rfl)

/-- The level of an arrival at which no cutoff begins (R159, R160). -/
theorem gaAfter_level {g : Ga} (h : g.pending = none) (hl : g.level ≠ .cutoff) (hc : g.cutoffCount < 3) :
    (gaAfter m g).present = g.present
      ∧ (gaAfter m g).level
        = (if (gaAfter m g).hold = 4 ∧ g.present = false ∧ (gaAfter m g).q ≤ g.params.reserve * 360000 then .reserve
           else if g.level = .reserve ∧ g.present = false
               ∧ (gaAfter m g).q ≤ (g.params.reserve + 10) * 360000 then .reserve
           else if (gaAfter m g).q * 100 / (g.params.capacity * 360000) ≤ 15 then .low else .normal) := by
  obtain ⟨q, b, e⟩ := gaCounted_form m g
  have hk : (gaHeld m { g with q := q, estimated := b }).cutoffCount ≠ 4
      ∧ (gaHeld m { g with q := q, estimated := b }).hold ≤ 4 := by
    unfold gaHeld
    dsimp only
    refine ⟨?_, by omega⟩
    split <;> omega
  unfold gaAfter
  rw [gaInstalled_none h, e]
  exact ⟨rfl, gaLevel_below hl hk.1 hk.2⟩

/-! ### The estimate by Table 8-2 (R155) -/

/-- Between two neighbouring points of an ascending table the first pair that holds the voltage is theirs. -/
theorem chargeFrom_neighbours {cap v v0 p0 v1 p1 : Nat} {pre rest : List (Nat × Nat)}
    (h : (pre ++ (v0, p0) :: (v1, p1) :: rest).Pairwise fun a b => a.1 < b.1) (h0 : v0 ≤ v) (h1 : v < v1) :
    chargeFrom cap v (pre ++ (v0, p0) :: (v1, p1) :: rest) = chargeBetween cap v v0 p0 v1 p1 := by
  induction pre with
  | nil => exact if_pos h1
  | cons a pre ih =>
    rw [List.cons_append, List.pairwise_cons] at h
    have hih := ih h.2
    cases pre with
    | nil =>
      rw [← hih]
      exact if_neg (by omega)
    | cons b pre =>
      have hb : b.1 < v0 := (List.pairwise_cons.1 h.2).1 (v0, p0) (by simp)
      rw [← hih]
      exact if_neg (by omega)

/-- The neighbouring points of Table 8-2. -/
def voltagePairs : List (Nat × Nat × Nat × Nat) :=
  [(3300, 0, 3450, 5), (3450, 5, 3600, 10), (3600, 10, 3700, 25), (3700, 25, 3750, 40),
    (3750, 40, 3800, 50), (3800, 50, 3850, 60), (3850, 60, 3950, 75), (3950, 75, 4050, 85),
    (4050, 85, 4150, 95), (4150, 95, 4200, 100)]

theorem voltagePairs_neighbours : ∀ x ∈ voltagePairs, ∃ n < 10, voltageTable
    = voltageTable.take n ++ (x.1, x.2.1) :: (x.2.2.1, x.2.2.2) :: voltageTable.drop (n + 2) := by
  decide

theorem voltagePairs_range : ∀ x ∈ voltagePairs, (x.1 = 3300 ∧ x.2.1 = 0 ∨ 3300 < x.1) ∧ x.2.2.1 ≤ 4200 := by
  decide

/-- The estimate between two neighbouring points of Table 8-2 (R155). -/
theorem chargeEstimate_between {cap v v0 p0 v1 p1 : Nat} (hx : (v0, p0, v1, p1) ∈ voltagePairs) (h0 : v0 ≤ v)
    (h1 : v < v1) : chargeEstimate cap v = chargeBetween cap v v0 p0 v1 p1 := by
  obtain ⟨hlo, hhi⟩ := voltagePairs_range _ hx
  obtain ⟨n, -, e⟩ := voltagePairs_neighbours _ hx
  have ha : voltageTable.Pairwise fun a b => a.1 < b.1 := by decide
  rw [e] at ha
  unfold chargeEstimate
  split
  · have hz : v0 = 3300 ∧ p0 = 0 := hlo.resolve_right fun k => by dsimp only at k; omega
    have hv : v - v0 = 0 := by omega
    unfold chargeBetween
    simp [hz.2, hv]
  · rw [if_neg (by dsimp only at hhi; omega), Int.toNat_natCast, e, chargeFrom_neighbours ha h0 h1]

/-! ### The Charge Controller's registers -/

/-- The reading changes neither the qualification nor ends a charge (R135, R145). -/
structure Quiet (m : Measurement) (c : Cc) : Prop where
  stays : vinInRange m.vin = c.present ∨ c.qualifyCount < 3
  notDone : c.charge = .taper → c.terminationCount < 15

/-- What the transition leaves of the steps before it: the thermistor, the zone, the limit and the budget (R142). -/
theorem ccAfter_measured (m : Measurement) (on : Bool) (c : Cc) :
    (ccAfter m on c).noThermistor = (ccZoned m (ccJudged m (ccBegun m c).2)).noThermistor
      ∧ (ccAfter m on c).zone = (ccZoned m (ccJudged m (ccBegun m c).2)).zone
      ∧ (ccAfter m on c).inputLimit = (ccDrooped m (ccZoned m (ccJudged m (ccBegun m c).2))).inputLimit
      ∧ (ccAfter m on c).budget = (ccBudgeted m on (ccDrooped m (ccZoned m (ccJudged m (ccBegun m c).2)))).budget := by
  unfold ccAfter ccStaged
  dsimp only
  generalize ccZoned m (ccJudged m (ccBegun m c).2) = z
  obtain ⟨l, ed⟩ := ccDrooped_form m z
  obtain ⟨p, f, et⟩ := ccTimed_form (ccBudgeted m on (ccDrooped m z))
  obtain ⟨ch, ca, p', f', v, ta, tc, rc, e⟩ := ccMoved_transited (ccBegun m c).1 m
    (ccCounted m (ccTimed (ccBudgeted m on (ccDrooped m z))))
  rw [e, et, ed]
  exact ⟨rfl, rfl, rfl, rfl⟩

/-- The zone of an arrival is found from the one before (R140). -/
theorem ccAfter_zone (m : Measurement) (on : Bool) (c : Cc) :
    ((m.tcell < -80 ∨ 200 < m.tcell) → (ccAfter m on c).noThermistor = true ∧ (ccAfter m on c).zone = c.zone)
      ∧ (-80 ≤ m.tcell → m.tcell ≤ 200 →
          (ccAfter m on c).noThermistor = false ∧ (ccAfter m on c).zone = zoneAfter c.zone m.tcell) := by
  have hb : (ccBegun m c).2.zone = c.zone := by
    unfold ccBegun
    split <;> rfl
  have hj : (ccJudged m (ccBegun m c).2).zone = c.zone := by
    rw [← hb]
    unfold ccJudged
    split
    · rfl
    · split
      · rfl
      · split <;> rfl
  obtain ⟨h1, h2, -, -⟩ := ccAfter_measured m on c
  rw [h1, h2]
  unfold ccZoned
  refine ⟨fun h => ?_, fun h k => ?_⟩
  · rw [if_pos h]
    exact ⟨rfl, hj⟩
  · rw [if_neg (by omega), ← hj]
    exact ⟨rfl, rfl⟩

/-- The input limit after droop regulation (R138). -/
theorem ccDrooped_inputLimit (m : Measurement) (c : Cc) :
    (ccDrooped m c).inputLimit
      = (if c.present then
          if m.vin < c.params.floor then max 100 (c.inputLimit - 50)
          else if (c.params.floor : Int) + 100 ≤ m.vin then min c.params.inputMax (c.inputLimit + 25) else c.inputLimit
        else c.inputLimit) := by
  unfold ccDrooped
  split
  · split
    · rfl
    · split <;> rfl
  · rfl

/-- The budget by the limit that droop regulation leaves (R139). -/
theorem ccDrooped_budget (m : Measurement) (on : Bool) (c : Cc) :
    (ccBudgeted m on (ccDrooped m c)).budget
      = (if c.present ∧ !overInput m then
          (m.vin.toNat * (ccDrooped m c).inputLimit / 1000 * 9 / 10
              - (c.params.cameraLoad + (if on then c.params.flashLoad else 0))) * 1000 / max m.vbat.toNat 2500
        else 0) := by
  obtain ⟨l, e⟩ := ccDrooped_form m c
  rw [e]
  rfl

/-- What a reading that leaves the qualification finds for the limit and the budget (R138, R139). -/
theorem ccAfter_stays {c : Cc} (on : Bool) (hp : c.pending = none)
    (h : vinInRange m.vin = c.present ∨ c.qualifyCount < 3) :
    (ccAfter m on c).present = c.present ∧ (ccAfter m on c).inputLimit = (ccDrooped m c).inputLimit
      ∧ (ccAfter m on c).budget = (ccBudgeted m on (ccDrooped m c)).budget := by
  obtain ⟨n, e⟩ := ccJudged_stays (c := (ccBegun m c).2) m (by rw [ccBegun_none m hp]; exact h)
  obtain ⟨-, -, h3, h4⟩ := ccAfter_measured m on c
  rw [h3, h4, (ccAfter_kept m on c).1, e, ccBegun_none m hp]
  refine ⟨rfl, ?_⟩
  obtain ⟨th, z, ez⟩ := ccZoned_form m
    { c with latest := some m, overvoltage := c.overvoltage || overInput m, qualifyCount := n }
  dsimp only
  rw [ez]
  rw [ccDrooped_budget, ccDrooped_budget, ccDrooped_inputLimit, ccDrooped_inputLimit]
  exact ⟨rfl, rfl⟩

/-! ### Deliveries at a quiet charger -/

/-- A quiet arrival changes the Charge Controller's registers and the causes alone (R134). -/
theorem ccArrival_quiet (h : Quiet m s.cc) : ∃ c e, ccArrival m s = { s with cc := c, hp.events := e } := by
  have hk : Carries fun u => ∃ c e, u = { s with cc := c, hp.events := e } := by
    refine ⟨?_, ?_⟩
    · rintro u c ⟨c₀, e, rfl⟩
      exact ⟨c, e, rfl⟩
    · rintro u c ⟨c₀, e, rfl⟩
      unfold State.raise
      split
      · exact ⟨c₀, e, rfl⟩
      · exact ⟨c₀, _, rfl⟩
  exact hk.arrival ⟨s.cc, s.hp.events, rfl⟩ (fun hn => absurd h.stays hn)
    fun ht hd => absurd (h.notDone ht) (by omega)

/-- It counts the flash's load by the rail it finds (R139). -/
theorem ccArrival_railed (h : Quiet m s.cc) : (ccArrival m s).cc = ccAfter m (railOn s.fe.rail) s.cc := by
  have hk : Carries fun u => u.fe = s.fe := ⟨fun c h => h, fun c h => by rw [raise_fe]; exact h⟩
  obtain ⟨c₀, e₀⟩ := ccInstall_ticked { s with cc.latest := some m }
  have hb := ccInstall_cc m s
  have ha : (ccOvervoltageFlag m (ccInstall { s with cc.latest := some m }).2).fe = s.fe := by
    rw [e₀]
    exact hk.flag (s := { s with cc := c₀ }) rfl
  have hp : (ccBegun m s.cc).2.present = s.cc.present ∧ (ccBegun m s.cc).2.qualifyCount = s.cc.qualifyCount := by
    unfold ccBegun
    split <;> exact ⟨rfl, rfl⟩
  unfold ccArrival ccAfter
  dsimp only
  unfold ccSetpoint
  dsimp only
  generalize ccOvervoltageFlag m (ccInstall { s with cc.latest := some m }).2 = a at ha hb ⊢
  have hq : (ccQualify m a).fe = s.fe := hk.qualify ha fun hn => absurd (by rw [hb.2, hp.1, hp.2]; exact h.stays) hn
  have hd : (ccDroop m (ccZone m (ccQualify m a))).fe = s.fe := by
    have hz : ∀ u, (ccZone m u).fe = u.fe := fun u => by
      unfold ccZone
      split <;> rfl
    have hr : ∀ u, (ccDroop m u).fe = u.fe := fun u => by
      unfold ccDroop
      split
      · split
        · rfl
        · split <;> rfl
      · rfl
    rw [hr, hz, hq]
  rw [ccTransition_cc, show ∀ s, (ccOvervoltageCount m s).cc = ccCounted m s.cc from fun _ => rfl, ccTimers_cc,
    ccBudget_cc, hd, ccDroop_cc, ccZone_cc, ccQualify_cc, hb.1, hb.2]
  rfl

end Sys2Proof.Machine
end

section
/-! What a charge tick delivers (R3, R133): the deliveries around the charger's and the Gauge's, and what they leave. -/

namespace Sys2Proof.Machine

variable {s₀ s t : State} {m : Measurement}

/-! ### The count, where no charge ends at this tick -/

/-- An arrival that cannot end a charge leaves the count (R158). -/
theorem ccArrival_q (hs : Spared s.ga) (hd : s.cc.charge = .taper → s.cc.terminationCount < 15) :
    (ccArrival m s).ga.q = s.ga.q := by
  have hk : Carries fun u => u.ga.q = s.ga.q ∧ Spared u.ga :=
    ⟨fun c h => h, fun c h => by rw [raise_ga]; exact h⟩
  refine (hk.arrival ⟨rfl, hs⟩ (fun _ u b h => ?_) fun ht hc => absurd (hd ht) (by omega)).1
  obtain ⟨hf, hq⟩ := gaQualification_fed (Fed.refl h.2.notCutoff) h.2.noGrace h.2.notDue b
  exact ⟨hq.trans h.1, h.2.fed hf⟩

/-- What the deliveries other than the Gauge's keep, where the charger's keeps it of its registers `c` (R3). -/
theorem deliveries_keep {P : State → Prop} {l : List TickDelivery} {c : Cc} (hn : l.Nodup) (hg : .gauge ∉ l)
    (hd : ∀ d, d ≠ .charger → d ≠ .gauge → ∀ u, P u → P (tickDelivery m d u))
    (hc : ∀ u, u.cc = c → P u → P (ccArrival m u)) (hs : .charger ∈ l → s.cc = c) (h : P s) :
    P (l.foldl (fun s d => tickDelivery m d s) s) := by
  induction l generalizing s with
  | nil => exact h
  | cons d l ih =>
    obtain ⟨hdl, hnl⟩ := List.nodup_cons.1 hn
    simp only [List.mem_cons, not_or] at hg
    rw [List.foldl_cons]
    refine ih hnl hg.2 (fun hl => ?_) ?_
    · have hne : d ≠ .charger := fun e => hdl (e ▸ hl)
      rw [tickDelivery_cc m hne]
      exact hs (List.mem_cons_of_mem _ hl)
    · by_cases e : d = .charger
      · subst e
        exact hc s (hs (List.mem_cons_self ..)) h
      · exact hd d e (Ne.symm hg.1) s h

/-- A charge tick, from what the other deliveries keep before the Gauge's and after it (R3). -/
theorem bodyChargeTick_keeps {P Q : State → Prop} {o : List TickDelivery} (h : P (tickTime s))
    (hd : ∀ d, d ≠ .charger → d ≠ .gauge → ∀ u,
      (P u → P (tickDelivery (delivered m) d u)) ∧ (Q u → Q (tickDelivery (delivered m) d u)))
    (hc : ∀ u, u.cc = s.cc → (P u → P (ccArrival (delivered m) u)) ∧ (Q u → Q (ccArrival (delivered m) u)))
    (hg : ∀ u, P u → Q (gaArrival (delivered m) u)) : Q (bodyChargeTick m o s) := by
  obtain ⟨pre, post, e, hpre, hpost⟩ := tickOrder_split o .gauge
  have hn : (tickOrder o).Nodup := (tickOrder_perm o).nodup_iff.2 (by decide)
  rw [e] at hn
  obtain ⟨hn1, hn2, hsep⟩ := List.nodup_append.1 hn
  unfold bodyChargeTick
  rw [e, List.foldl_append, List.foldl_cons]
  refine deliveries_keep (c := s.cc) (List.nodup_cons.1 hn2).2 hpost (fun d h1 h2 u => (hd d h1 h2 u).2)
    (fun u hu => (hc u hu).2) (fun hp => ?_) (hg _ ?_)
  · have hnp : .charger ∉ pre := fun hx => hsep _ hx _ (List.mem_cons_of_mem _ hp) rfl
    exact (gaArrival_cc _ _).trans (deliveries_cc _ hnp _)
  · exact deliveries_keep (c := s.cc) hn1 hpre (fun d h1 h2 u => (hd d h1 h2 u).1) (fun u hu => (hc u hu).1)
      (fun _ => rfl) h

/-- The count after a charge tick at which no charge ends (R154, R155). -/
theorem chargeTick_q {o : List TickDelivery} (h : Lasting s) (hp : s.ga.pending = none)
    (hd : s.cc.charge = .taper → s.cc.terminationCount < 15) :
    (bodyChargeTick m o s).ga.q = (gaAfter (delivered m) s.ga).q := by
  refine (bodyChargeTick_keeps (P := fun u => u.ga.q = s.ga.q ∧ Fed s.ga u.ga)
    (Q := fun u => u.ga.q = (gaAfter (delivered m) s.ga).q ∧ Spared u.ga)
    ⟨rfl, Fed.refl h.notCutoff⟩ (fun d h1 h2 u => ⟨fun k => ?_, fun k => ?_⟩)
    (fun u hu => ⟨fun k => ?_, fun k => ?_⟩) fun u k => ?_).1
  · rw [tickDelivery_ga _ h1 h2 (k.2.grace.trans h.noGrace)]
    exact k
  · rw [tickDelivery_ga _ h1 h2 k.2.noGrace]
    exact k
  · have hs := h.spared.fed k.2
    exact ⟨(ccArrival_q hs (hu ▸ hd)).trans k.1, k.2.trans (ccArrival_fed _ hs.noGrace hs.notCutoff hs.notDue).1⟩
  · exact ⟨(ccArrival_q k.2 (hu ▸ hd)).trans k.1, (ccArrival_signalled k.2 _).2⟩
  · obtain ⟨hq, hf⟩ := k
    have hs := h.spared.fed hf
    have hc : u.ga.cutoffCount < 3 := lt_of_le_of_lt hf.count h.notDue
    refine ⟨?_, (gaArrival_signalled hs hc).2⟩
    rw [gaArrival_ga _ hs.noGrace hs.notCutoff hc, gaAfter_q (hf.pending.trans hp), gaAfter_q hp, hf.estimated, hf.params, hq]

/-! ### A quiet charger -/

/-- What the other deliveries leave at a quiet charger: the Gauge, and a parked writer. -/
structure Passed (s t : State) : Prop where
  ga : t.ga = s.ga
  ticked : Ticked s t
  parked : Parked s → Parked t ∧ t.cw = s.cw

theorem Passed.refl (s : State) : Passed s s := ⟨rfl, Ticked.refl s, fun h => ⟨h, rfl⟩⟩

theorem Passed.trans (h : Passed s₀ s) (k : Passed s t) : Passed s₀ t where
  ga := k.ga.trans h.ga
  ticked := h.ticked.trans k.ticked
  parked hp := by
    obtain ⟨h1, h2⟩ := h.parked hp
    obtain ⟨k1, k2⟩ := k.parked h1
    exact ⟨k1, k2.trans h2⟩

/-- A quiet charger's arrival passes (R134). -/
theorem ccArrival_passed (h : Quiet m s.cc) (hs : Spared s.ga) : Passed s (ccArrival m s) := by
  have hp := (ccArrival_signalled hs m).1.parked
  have hk := ccArrival_ticked (Ticked.refl s) m
  obtain ⟨c, e, ha⟩ := ccArrival_quiet h
  rw [ha] at hp hk ⊢
  exact ⟨rfl, hk, fun p => ⟨hp p, rfl⟩⟩

/-- So does every delivery but the charger's and the Gauge's (R3). -/
theorem tickDelivery_passed {d : TickDelivery} (h1 : d ≠ .charger) (h2 : d ≠ .gauge) (hs : Spared s.ga) :
    Passed s (tickDelivery m d s) := by
  refine ⟨tickDelivery_ga m h1 h2 hs.noGrace, tickDelivery_ticked (Ticked.refl s) m d, fun p =>
    ⟨(tickDelivery_signalled d hs fun e => absurd e h2).1 p, ?_⟩⟩
  cases d <;> unfold tickDelivery <;> dsimp only
  · split
    · obtain ⟨l, k, e, -⟩ := puReleaseScan_form s
      rw [e]
    · rfl
  · exact absurd rfl h1
  · exact absurd rfl h2
  · rw [p.service]
  · rw [p.commit]
  · obtain ⟨f, e⟩ := feTick_form s
    rw [e]
  · obtain ⟨k, g, e⟩ := hpTick_form s
    rw [e]

/-- A charge tick at a quiet charger is the Gauge's arrival among deliveries that pass (R3). -/
theorem chargeTick_quiet {o : List TickDelivery} (h : Lasting s) (hq : Quiet (delivered m) s.cc) :
    ∃ a, Passed (tickTime s) a ∧ Passed (gaArrival (delivered m) a) (bodyChargeTick m o s) := by
  have hP : ∀ {u}, Passed (tickTime s) u → Spared u.ga := fun k => k.ga ▸ h.spared
  have hQ : ∀ {a u}, Passed (tickTime s) a → Passed (gaArrival (delivered m) a) u → Spared u.ga := fun ka k =>
    k.ga ▸ (gaArrival_signalled (hP ka) (by rw [ka.ga]; exact h.notDue)).2
  refine bodyChargeTick_keeps (P := Passed (tickTime s))
    (Q := fun u => ∃ a, Passed (tickTime s) a ∧ Passed (gaArrival (delivered m) a) u) (Passed.refl _)
    (fun d h1 h2 u => ⟨fun k => k.trans (tickDelivery_passed h1 h2 (hP k)), ?_⟩)
    (fun u hu => ⟨fun k => k.trans (ccArrival_passed (hu ▸ hq) (hP k)), ?_⟩) fun u k => ⟨u, k, Passed.refl _⟩
  · rintro ⟨a, ka, k⟩
    exact ⟨a, ka, k.trans (tickDelivery_passed h1 h2 (hQ ka k))⟩
  · rintro ⟨a, ka, k⟩
    exact ⟨a, ka, k.trans (ccArrival_passed (hu ▸ hq) (hQ ka k))⟩

/-- The Gauge after such a tick (R153). -/
theorem chargeTick_ga {o : List TickDelivery} (h : Lasting s) (hq : Quiet (delivered m) s.cc) :
    (bodyChargeTick m o s).ga = gaAfter (delivered m) s.ga := by
  obtain ⟨a, ha, hb⟩ := chargeTick_quiet (o := o) h hq
  have e : a.ga = s.ga := ha.ga
  rw [hb.ga, gaArrival_ga, e]
  · rw [e]
    exact h.noGrace
  · rw [e]
    exact h.notCutoff
  · rw [e]
    exact h.notDue

/-! ### The level found (R159, R160) -/

/-- With no values to install the Gauge's arrival counts the reading and finds the level (R153). -/
theorem gaArrival_finds (hp : s.ga.pending = none) (hg : s.ga.grace = none) :
    gaArrival m s = gaFindLevel { s with ga := gaHeld m (gaCounted m s.ga) } := by
  have hi : gaInstall s = s := by
    unfold gaInstall
    rw [hp]
  have hc : gaAdvance m (gaCount m s) = { s with ga := gaHeld m (gaCounted m s.ga) } := by
    unfold gaAdvance gaCount gaHeld gaCounted
    split <;> rfl
  unfold gaArrival
  rw [hi, hc, hg]
  rfl

/-- A raise sets its cause, but while RESETn keeps the causes clear (R175). -/
theorem raise_sets {c : Cause} (h : s.part.resetnLow = false) : (s.raise c).caused c = true := by
  rw [raise_caused _ _ _ h, decide_eq_true rfl, Bool.or_true]

/-- A level that changes is raised (R159). -/
theorem gaFindLevel_caused (h : gaLevel s.ga ≠ s.ga.level) (hl : gaLevel s.ga ≠ .cutoff)
    (hr : s.part.resetnLow = false) : (gaFindLevel s).caused .gaugeLevel = true := by
  have hc : (State.raise { s with ga.level := gaLevel s.ga } .gaugeLevel).caused .gaugeLevel = true :=
    raise_sets hr
  unfold gaFindLevel
  dsimp only
  rw [if_neg h]
  split
  · exact (cwSignal_recording (Recording.refl _) _).causes _ hc
  · next hx => exact absurd hx hl
  · exact hc

/-- An entry to Reserve is told to the writer (R160). -/
theorem gaFindLevel_reserve (h : s.ga.level ≠ .reserve) (hl : gaLevel s.ga = .reserve) :
    gaFindLevel s = cwSignal .reserve (State.raise { s with ga.level := .reserve } .gaugeLevel) := by
  unfold gaFindLevel
  dsimp only
  rw [hl, if_neg (Ne.symm h)]

/-- A writer that records goes to Closing at an entry to Reserve (R123, R160). -/
theorem gaFindLevel_closes (h : s.ga.level ≠ .reserve) (hl : gaLevel s.ga = .reserve) (hp : Parked s)
    (hw : s.cw.writer = .recording) (hj : Jobless s.cw) (hr : s.resetting = false) :
    (gaFindLevel s).cw = { s.cw with writer := .closing, cause := .reserve }
      ∧ (s.part.resetnLow = false → (gaFindLevel s).caused .writerState = true) := by
  have hp' : Parked { s with ga.level := .reserve } := hp.congr rfl rfl rfl rfl hp.noScan
  have hcw : (State.raise { s with ga.level := .reserve } .gaugeLevel).cw = s.cw := raise_cw _ _
  have hpart : (State.raise { s with ga.level := .reserve } .gaugeLevel).part = s.part := raise_part _ _
  rw [gaFindLevel_reserve h hl, (hp'.raise .gaugeLevel).signal, cwStopEvent_records]
  · refine ⟨?_, fun hn => raise_sets ((congrArg Part.resetnLow hpart).trans hn)⟩
    rw [raise_cw]
    dsimp only
    rw [hcw]
  · rw [hcw]
    exact hw
  · rw [hcw]
    exact hj
  · unfold State.resetting at hr ⊢
    rw [hpart]
    exact hr

/-! ### The tick as a whole -/

/-- The Charge Controller after a tick at a quiet charger, which counts the flash's load by the rail before the tick where
it comes first (R139). -/
theorem chargeTick_railed {o : List TickDelivery} (h : Lasting s) (hq : Quiet (delivered m) s.cc) :
    ∃ on, (finish (bodyChargeTick m o s)).cc = ccAfter (delivered m) on s.cc
      ∧ ((tickOrder o).head? = some .charger → on = railOn s.fe.rail) := by
  obtain ⟨on, hb, hf⟩ := chargeTick_cc m o h
  by_cases hh : (tickOrder o).head? = some .charger
  · obtain ⟨l, e⟩ := List.head?_eq_some_iff.1 hh
    have hn : (tickOrder o).Nodup := (tickOrder_perm o).nodup_iff.2 (by decide)
    rw [e] at hn
    refine ⟨railOn s.fe.rail, ?_, fun _ => rfl⟩
    rw [hf, ← hb]
    unfold bodyChargeTick
    rw [e, List.foldl_cons, deliveries_cc _ (List.nodup_cons.1 hn).1]
    exact ccArrival_railed (s := tickTime s) hq
  · exact ⟨on, hf, fun k => absurd k hh⟩

/-- Where the Gauge finds its level at a quiet charger (R153). -/
theorem chargeTick_finds {o : List TickDelivery} (h : Lasting s) (hp : s.ga.pending = none)
    (hq : Quiet (delivered m) s.cc) :
    ∃ a, a.part = s.part ∧ a.ga.level = s.ga.level ∧ gaLevel a.ga = (gaAfter (delivered m) s.ga).level
      ∧ (Parked s → Parked a ∧ a.cw = s.cw ∧ Parked (gaFindLevel a)) ∧ Passed (gaFindLevel a) (bodyChargeTick m o s) := by
  obtain ⟨a, ha, hb⟩ := chargeTick_quiet (o := o) h hq
  have e : a.ga = s.ga := ha.ga
  have hs := (gaArrival_signalled (s := a) (m := delivered m) (e ▸ h.spared) (by rw [e]; exact h.notDue)).1
  rw [gaArrival_finds (by rw [e]; exact hp) (by rw [e]; exact h.noGrace), e] at hb hs
  refine ⟨{ a with ga := gaHeld (delivered m) (gaCounted (delivered m) s.ga) }, ha.ticked.part, ?_, ?_, fun k => ?_, hb⟩
  · obtain ⟨q, b, ec⟩ := gaCounted_form (delivered m) s.ga
    dsimp only
    rw [ec]
    rfl
  · unfold gaAfter
    rw [gaInstalled_none hp]
  · obtain ⟨k1, k2⟩ := ha.parked k.tickTime
    exact ⟨k1.congr rfl rfl rfl rfl k1.noScan, k2, hs.parked k1⟩

/-- A level that changes at the tick is raised (R159). -/
theorem chargeTick_levelCaused {o : List TickDelivery} (h : Lasting s) (hp : s.ga.pending = none)
    (hq : Quiet (delivered m) s.cc) (hl : (gaAfter (delivered m) s.ga).level ≠ s.ga.level)
    (hc : (gaAfter (delivered m) s.ga).level ≠ .cutoff) (hr : s.part.resetnLow = false) :
    (bodyChargeTick m o s).caused .gaugeLevel = true := by
  obtain ⟨a, h1, h2, h3, -, hb⟩ := chargeTick_finds (o := o) h hp hq
  exact hb.ticked.causes _ (gaFindLevel_caused (by rw [h2, h3]; exact hl) (by rw [h3]; exact hc) (by rw [h1]; exact hr))

/-- An entry to Reserve at the tick closes the writer that records (R123, R160). -/
theorem chargeTick_closes {o : List TickDelivery} (h : Lasting s) (hp : s.ga.pending = none)
    (hq : Quiet (delivered m) s.cc) (hl : (gaAfter (delivered m) s.ga).level = .reserve) (hn : s.ga.level ≠ .reserve)
    (hpark : Parked s) (hw : s.cw.writer = .recording) (hj : Jobless s.cw) (ht : s.part.transition ≠ .reset) :
    (finish (bodyChargeTick m o s)).cw.writer = .closing ∧ (finish (bodyChargeTick m o s)).cw.cause = .reserve
      ∧ (s.part.resetnLow = false → (finish (bodyChargeTick m o s)).caused .writerState = true) := by
  obtain ⟨a, h1, h2, h3, h4, hb⟩ := chargeTick_finds (o := o) h hp hq
  obtain ⟨k1, k2, k3⟩ := h4 hpark
  obtain ⟨f1, f2⟩ := gaFindLevel_closes (by rw [h2]; exact hn) (h3.trans hl) k1 (by rw [k2]; exact hw) (k2 ▸ hj)
    (by unfold State.resetting; rw [h1]; exact decide_eq_false ht)
  obtain ⟨b1, b2⟩ := hb.parked k3
  rw [b1.finish (chargeTick_asserted m o h), b2, f1]
  exact ⟨rfl, rfl, fun hr => hb.ticked.causes _ (f2 (by rw [h1]; exact hr))⟩

end Sys2Proof.Machine
end

section
/-! What a charge tick leaves, quantity by quantity (R3, R133 to R161). -/

namespace Sys2Proof.Machine

variable {s : State} {m : Measurement}

/-- The range of a delivered qualification reading is that of the reading itself (R133, R135). -/
theorem vinInRange_delivered (m : Measurement) : vinInRange (delivered m).vin = vinInRange m.vin := by
  unfold vinInRange delivered clampInt
  dsimp only
  rw [← Bool.decide_and, ← Bool.decide_and, decide_eq_decide]
  omega

/-- Out of range, as the statements say it. -/
theorem vinInRange_false (v : Int) : vinInRange v = false ↔ v < 4200 ∨ 6500 < v := by
  unfold vinInRange
  rw [← Bool.decide_and, decide_eq_false_iff_not]
  omega

/-- The count adds the reading, between 0 and Qcap (R154). -/
theorem gaAfter_integrates {g : Ga} (hp : g.pending = none) (he : g.estimated = true) :
    ((gaAfter (delivered m) g).q : Int) = max 0 (min ((g.params.capacity * 360000 : Nat) : Int)
      ((g.q : Int) + max (-5000) (min 3000 m.ibat))) := by
  rw [gaAfter_q hp, he, if_pos rfl]
  unfold chargeAfter clampInt delivered clampInt gaQcap ticksPerMah
  dsimp only
  omega

/-- The first reading is estimated by Table 8-2 (R155). -/
theorem gaAfter_estimates {g : Ga} (hp : g.pending = none) (he : g.estimated = false) :
    (m.vbat ≤ 3300 → (gaAfter (delivered m) g).q = 0)
      ∧ (4200 ≤ m.vbat → (gaAfter (delivered m) g).q = g.params.capacity * 360000)
      ∧ ∀ (v v0 p0 v1 p1 : Nat), m.vbat = v → v0 ≤ v → v < v1 → (v0, p0, v1, p1) ∈ voltagePairs →
          (gaAfter (delivered m) g).q
            = g.params.capacity * 360000 * (p0 * (v1 - v0) + (p1 - p0) * (v - v0)) / ((v1 - v0) * 100) := by
  have hq : (gaAfter (delivered m) g).q = chargeEstimate (g.params.capacity * 360000) (max 0 (min 5000 m.vbat)) := by
    rw [gaAfter_q hp, he]
    rfl
  rw [hq]
  refine ⟨fun h => if_pos (by omega), fun h => ?_, fun v v0 p0 v1 p1 hv h0 h1 hx => ?_⟩
  · exact (if_neg (by omega)).trans (if_pos (by omega))
  · have hr := (voltagePairs_range _ hx).2
    have hc : max 0 (min 5000 m.vbat) = (v : Int) := by
      dsimp only at hr
      omega
    rw [hc, chargeEstimate_between hx h0 h1]
    rfl

/-- The reading kept is the one delivered (R133). -/
theorem ccAfter_latest (m : Measurement) (on : Bool) (c : Cc) : (ccAfter m on c).latest = some m := by
  have hb : (ccBegun m c).2.latest = some m := by
    unfold ccBegun
    split <;> rfl
  obtain ⟨-, -, -, h, -, -⟩ := ccAfter_kept m on c
  rw [h, ← hb]
  unfold ccJudged
  split
  · rfl
  · split
    · rfl
    · split <;> rfl

/-- A thermistor in range gives the zone (R140). -/
theorem ccAfter_inZone (on : Bool) {c : Cc} {x : Int} {z : Zone} (hx : x = m.tcell) (hz : z = c.zone) (h0 : -80 ≤ x)
    (h1 : x ≤ 200) :
    (ccAfter (delivered m) on c).noThermistor = false
      ∧ (ccAfter (delivered m) on c).zone
        = (if 110 < x ∨ (z = .hot ∧ 106 < x) then .hot
           else if 90 < x ∨ ((z = .warm ∨ z = .hot) ∧ 86 < x) then .warm
           else if x < 0 ∨ (z = .cold ∧ x < 4) then .cold
           else if x < 20 ∨ ((z = .cool ∨ z = .cold) ∧ x < 24) then .cool else .normal) := by
  have hd : (delivered m).tcell = x := by
    unfold delivered clampInt
    dsimp only
    omega
  have h := (ccAfter_zone (delivered m) on c).2
  rw [hd, ← hz] at h
  exact h h0 h1

/-- While the input stays Absent the limit stays and the budget is 0 (R138, R139). -/
theorem ccAfter_absent (on : Bool) {c : Cc} (hp : c.pending = none) (ha : c.present = false)
    (h : vinInRange m.vin = c.present ∨ c.qualifyCount < 3) :
    (ccAfter m on c).present = false ∧ (ccAfter m on c).inputLimit = c.inputLimit ∧ (ccAfter m on c).budget = 0 := by
  obtain ⟨h1, h2, h3⟩ := ccAfter_stays on hp h
  rw [h1, h2, h3, ccDrooped_budget, ccDrooped_inputLimit, ha]
  exact ⟨rfl, rfl, rfl⟩

/-- While it stays Present the limit steps by the droop floor, and the budget is computed from it (R138, R139). -/
theorem ccAfter_present (on : Bool) {c : Cc} (hp : c.pending = none) (ha : c.present = true)
    (h : vinInRange m.vin = c.present ∨ c.qualifyCount < 3) :
    (ccAfter m on c).present = true
      ∧ (ccAfter m on c).inputLimit
        = (if m.vin < c.params.floor then max 100 (c.inputLimit - 50)
           else if (c.params.floor : Int) + 100 ≤ m.vin then min c.params.inputMax (c.inputLimit + 25)
           else c.inputLimit)
      ∧ (ccAfter m on c).budget
        = (if 6500 < m.vin then 0
           else (m.vin.toNat * (ccAfter m on c).inputLimit / 1000 * 9 / 10
               - (c.params.cameraLoad + if on then c.params.flashLoad else 0)) * 1000 / max m.vbat.toNat 2500) := by
  obtain ⟨h1, h2, h3⟩ := ccAfter_stays on hp h
  rw [h1, h2, h3, ccDrooped_budget, ha]
  refine ⟨rfl, ?_, ?_⟩
  · rw [ccDrooped_inputLimit, ha]
    rfl
  · unfold overInput
    by_cases hv : 6500 < m.vin
    · rw [if_pos hv, if_neg (by simp [hv])]
    · rw [if_neg hv, if_pos (by simp [hv])]

/-- A reading within the converter's range is delivered as it is (R133). -/
theorem delivered_inRange (h1 : 0 ≤ m.vin) (h2 : m.vin ≤ 15000) (h3 : 0 ≤ m.vbat) (h4 : m.vbat ≤ 5000) :
    (delivered m).vin = m.vin ∧ (delivered m).vbat = m.vbat := by
  unfold delivered clampInt
  dsimp only
  omega

/-- The rail counts as on while it is Starting, Ready or Busy (R139). -/
theorem railOn_iff (r : RailState) : railOn r = true ↔ r = .starting ∨ r = .ready ∨ r = .busy := by
  unfold railOn
  simp [or_assoc]

/-- Settles O48, from the Charge Controller's and the Gauge's registers after the tick, and from the deliveries that pass at
a charger that neither changes the qualification nor ends a charge. -/
theorem chargeTickDelivers : Obligations.ChargeTickDelivers := by
  unfold Obligations.ChargeTickDelivers
  intro m o s hl hp hd
  have hk := bodyChargeTick_ticked m o s
  obtain ⟨hf, hga⟩ := chargeTick_finish m o hl
  obtain ⟨b, hb, -, hu, -⟩ := bodyChargeTick_ga m o hl
  obtain ⟨on, hcc⟩ := chargeTick_cc m o hl
  have hcc := hcc.2
  obtain ⟨ha1, ha2, ha3⟩ := gaAfter_kept (delivered m) b
  have hq := chargeTick_q (m := m) (o := o) hl hp hd
  refine ⟨_, exec_chargeTick m o hl.powered, hf.rck.trans hk.rck, hf.part.trans hk.part, hf.pending.trans hk.pending,
    by rw [hcc]; exact ccAfter_latest _ on _, by rw [hga]; exact chargeTick_asserted m o hl,
    by rw [hga, hu.estimated, ha2], by rw [hga, hu.hold, ha3, hb.hold], fun he => ?_, fun he => ?_, fun ht => ?_,
    fun x z hx hz h0 h1 => ?_, fun hn ha hv => ?_, fun hn ha hv v0 v1 b0 b1 => ?_, fun hn hc => ?_,
    fun c hc => hf.causes c (hk.causes c hc)⟩
  · rw [hga, hq]
    exact gaAfter_integrates hp he
  · rw [hga, hq]
    exact gaAfter_estimates hp he
  · rw [hcc]
    exact (ccAfter_zone _ on _).1 (by unfold delivered clampInt; dsimp only; omega)
  · rw [hcc]
    exact ccAfter_inZone on hx hz h0 h1
  · rw [hcc]
    refine ccAfter_absent on hn ha ?_
    rw [vinInRange_delivered, ha, vinInRange_false]
    exact hv.symm
  · have hquiet : Quiet (delivered m) s.cc := by
      refine ⟨?_, hd⟩
      rw [vinInRange_delivered, ha]
      exact hv.symm.imp_left fun k => by unfold vinInRange; simp [k]
    obtain ⟨e1, e2⟩ := delivered_inRange v0 v1 b0 b1
    obtain ⟨on', hcc', hrail⟩ := chargeTick_railed (o := o) hl hquiet
    obtain ⟨p1, p2, p3⟩ := ccAfter_present on' hn ha hquiet.stays
    rw [e1] at p2 p3
    rw [e2] at p3
    rw [hcc']
    exact ⟨p1, p2, on', fun hh => by rw [hrail hh, railOn_iff], p3⟩
  · have hquiet : Quiet (delivered m) s.cc := ⟨.inr hc, hd⟩
    have hg := hga.trans (chargeTick_ga (o := o) hl hquiet)
    obtain ⟨hpres, hlev⟩ := gaAfter_level (m := delivered m) hp hl.notCutoff hl.notDue
    have hne : (gaAfter (delivered m) s.ga).level ≠ .cutoff := by
      rw [← hg, hga]
      exact hu.level
    rw [hg]
    exact ⟨hpres, hlev, fun hx hr => hf.causes _ (chargeTick_levelCaused hl hp hquiet hx hne hr),
      fun hx hy hrest hscan hw hprog hreloc ht =>
        chargeTick_closes hl hp hquiet hx hy (hrest.parked hprog hscan) hw (hrest.jobless hreloc) ht⟩

end Sys2Proof.Machine
end

section
/-! The end of a transaction of the Motion Unit in Identify and Configure (R15, R16), and of the rate write in front of a
burst (R22). -/

namespace Sys2Proof.Machine

variable {s t : State} {act : State → State}

/-! ### Events that name what another event brings about -/

/-- Where the named thing comes about, the event is the one that brings it about (log 5). -/
theorem derived_eq_live {body : State → State} {came : State → State → Bool} (h : came s (body s) = true) :
    derived body came s = live body s := by
  unfold derived live
  rw [if_pos h]

/-! ### The end of a transaction -/

/-- The result of the transaction in flight will be taken, and no tick was missed meanwhile (R18, R23, R36). -/
structure TakesResult (m : Mu) : Prop where
  noReset : m.resetDue = false
  stays : m.leaving = false
  kept : m.discard = false
  noneMissed : m.missed = []

/-- No missed tick is processed where there is none (R18). -/
theorem muMissed_none (h : s.mu.missed = []) : muMissed s = s := by
  unfold muMissed
  rw [h, List.foldl_nil, ← h]

/-- A transaction whose result is taken: what the result does, and then the next transaction (R15, R16, R18). -/
theorem muTxnEnd_taken (h : TakesResult s.mu) (ha : act { s with mu.txn := none } = t) (hm : t.mu.missed = []) :
    muTxnEnd act s = muBegin t := by
  have hr : ¬ s.mu.resetDue = true := by rw [h.noReset]; decide
  have hl : ¬ s.mu.leaving = true := by rw [h.stays]; decide
  have hd : ¬ s.mu.discard = true := by rw [h.kept]; decide
  have he : muTxnEnd act s = muBegin (muMissed (act { s with mu.txn := none })) :=
    (if_neg hr).trans ((if_neg hl).trans (if_neg hd))
  rw [he, ha, muMissed_none hm]

/-- Outside Identify and Configure no transaction begins by itself (R14). -/
theorem muBegin_stays (h : s.mu.link ≠ .starting ∨ s.mu.phase = .sampling) : muBegin s = s := by
  unfold muBegin
  split
  · next hb =>
    rw [h.resolve_left fun hl => hl hb.2]
  · rfl

/-- In Identify an identity read begins (R15). -/
theorem muBegin_identify (ht : s.mu.txn = none) (hl : s.mu.link = .starting) (hp : s.mu.phase = .identify) :
    muBegin s = { s with mu.txn := some .identity } := by
  unfold muBegin
  rw [if_pos ⟨ht, hl⟩, hp]

/-- In Configure a rate write for the active period begins (R16). -/
theorem muBegin_configure (ht : s.mu.txn = none) (hl : s.mu.link = .starting) (hp : s.mu.phase = .configure) :
    muBegin s = { s with mu.txn := some (.configure s.rck.activePeriod) } := by
  unfold muBegin
  rw [if_pos ⟨ht, hl⟩, hp]

/-- With a transaction in flight none begins (R14). -/
theorem muBegin_busy (h : s.mu.txn ≠ none) : muBegin s = s := if_neg fun c => h c.1

/-! ### Failed attempts (R15, R16) -/

/-- An earlier attempt than the third is counted. -/
theorem muAttempt_again (h : s.mu.attempts + 1 < 3) : muAttempt s = { s with mu.attempts := s.mu.attempts + 1 } :=
  if_neg (Nat.not_le.2 h)

/-- The third failed attempt makes the link Absent. -/
theorem muAttempt_third (h : 3 ≤ s.mu.attempts + 1) :
    muAttempt s = muAbsent { s with mu.attempts := s.mu.attempts + 1 } :=
  if_pos h

/-- The transaction in flight is one of Identify or of Configure, and this is what its failure does. -/
def FailsBy (m : Mu) (act : State → State) : Prop :=
  (m.txn = some .identity ∧ m.phase = .identify ∧ act = muAttempt)
    ∨ ∃ p, m.txn = some (.configure p) ∧ m.phase = .configure ∧ act = muConfigureFailed p

/-- An earlier failed attempt than the third begins the transaction again. -/
theorem muTxnEnd_again (h : TakesResult s.mu) (hl : s.mu.link = .starting) (hf : FailsBy s.mu act)
    (hn : s.mu.attempts + 1 < 3) : muTxnEnd act s = { s with mu.attempts := s.mu.attempts + 1 } := by
  have ha := muAttempt_again (s := { s with mu.txn := none }) hn
  rcases hf with ⟨ht, hp, rfl⟩ | ⟨p, ht, hp, rfl⟩
  · have hb := muBegin_identify
      (s := { s with mu.attempts := s.mu.attempts + 1, mu.txn := none }) rfl hl hp
    rw [muTxnEnd_taken h ha h.noneMissed, hb, ← ht]
  · have hc : muConfigureFailed p { s with mu.txn := none }
        = { s with mu.attempts := s.mu.attempts + 1, mu.txn := some (.configure p) } := by
      unfold muConfigureFailed
      rw [ha]
      exact if_neg (by rw [hl]; decide)
    rw [muTxnEnd_taken h hc h.noneMissed, muBegin_busy (by nofun), ← ht]

/-- The third failed attempt leaves the link Absent, with no transaction. -/
theorem muTxnEnd_third (h : TakesResult s.mu) (hf : FailsBy s.mu act) (hn : 3 ≤ s.mu.attempts + 1) :
    muTxnEnd act s
      = State.raise
          { s with
            mu.attempts := s.mu.attempts + 1, mu.txn := none, mu.link := .absent, mu.detector := .disabled } .imuState := by
  have ha : act { s with mu.txn := none } = muAbsent { s with mu.attempts := s.mu.attempts + 1, mu.txn := none } := by
    have hm := muAttempt_third (s := { s with mu.txn := none }) hn
    rcases hf with ⟨-, -, rfl⟩ | ⟨p, -, -, rfl⟩
    · exact hm
    · unfold muConfigureFailed
      rw [hm]
      exact if_pos (by rw [muAbsent, raise_mu])
  rw [muTxnEnd_taken h ha (by rw [muAbsent, raise_mu]; exact h.noneMissed)]
  exact muBegin_stays (.inl (by rw [muAbsent, raise_mu]; nofun))

/-- A command of a calm state that is a failed attempt short of the third. -/
theorem Calm.live_again {f : State → State} {n : Nat} (h : Calm s) (hk : TakesResult s.mu) (hl : s.mu.link = .starting)
    (hf : FailsBy s.mu act) (hb : f s = muTxnEnd act (s.advance n)) (hn : s.mu.attempts + 1 < 3) :
    live f s = { s.advance n with mu.attempts := s.mu.attempts + 1 } :=
  h.live_eq (hb.trans (muTxnEnd_again (s := s.advance n) hk hl hf hn)) h.powered rfl rfl rfl rfl

/-- The state once the third attempt has failed (R15). -/
def exhausted (s : State) (n : Nat) : State :=
  State.raise
    { s.advance n with
      mu.attempts := s.mu.attempts + 1, mu.txn := none, mu.link := .absent, mu.detector := .disabled } .imuState

/-- A command of a calm state that is the third failed attempt, and ATTEMPTS_EXHAUSTED, which stands for it (log 5). -/
theorem Calm.live_third {f : State → State} {n : Nat} (h : Calm s) (hk : TakesResult s.mu) (hl : s.mu.link = .starting)
    (hf : FailsBy s.mu act) (hb : f s = muTxnEnd act (s.advance n)) (hn : 3 ≤ s.mu.attempts + 1) :
    live f s = exhausted s n ∧ derived f cameAbsent s = exhausted s n := by
  have hx : f s = exhausted s n := hb.trans (muTxnEnd_third (s := s.advance n) hk hf hn)
  have hv : live f s = exhausted s n :=
    h.live_eq hx (by rw [exhausted, raise_part]; exact h.powered) (raise_ga _ _) (raise_cw _ _)
      (by rw [exhausted, raise_mu]; rfl) (raise_sm _ _)
  have hc : cameAbsent s (f s) = true := by
    rw [hx]
    unfold cameAbsent exhausted
    rw [raise_mu, hl]
    rfl
  exact ⟨hv, (derived_eq_live hc).trans hv⟩

/-- No response is a failed attempt of Identify and of Configure (R14). -/
theorem muNoResponse_fails (hf : FailsBy s.mu act) : muNoResponse s = muTxnEnd act s := by
  unfold muNoResponse
  rcases hf with ⟨ht, -, rfl⟩ | ⟨p, ht, -, rfl⟩ <;> rw [ht]

/-- The identity read ends (R15). -/
theorem muIdentityDone_ends (r : Byte) (ht : s.mu.txn = some .identity) :
    muIdentityDone r s = muTxnEnd (if r = imuIdentity then muIdentified else muAttempt) s := by
  unfold muIdentityDone
  rw [ht]

/-- The rate write of Configure ends (R16). -/
theorem muRateDone_ends (r : Byte) {p : Nat} (ht : s.mu.txn = some (.configure p)) :
    muRateDone r s = muTxnEnd (if r = Config.rateSetting p then muConfigured else muConfigureFailed p) s := by
  unfold muRateDone
  rw [ht]

/-- The identity value ends the Identify phase, and the rate write of Configure begins (R15, R16). -/
theorem muIdentityDone_match (h : TakesResult s.mu) (ht : s.mu.txn = some .identity) (hl : s.mu.link = .starting) :
    muIdentityDone imuIdentity s
      = { s with mu.phase := .configure, mu.attempts := 0, mu.txn := some (.configure s.rck.activePeriod) } := by
  rw [muIdentityDone_ends _ ht, if_pos rfl,
    muTxnEnd_taken (t := { s with mu.phase := .configure, mu.attempts := 0, mu.txn := none }) h rfl h.noneMissed]
  exact muBegin_configure rfl hl rfl

/-- The matching read-back of Configure begins Sampling (R16, R30). -/
theorem muRateDone_match {p : Nat} (h : TakesResult s.mu) (ht : s.mu.txn = some (.configure p)) :
    muRateDone (Config.rateSetting p) s
      = { s with
          mu.phase := .sampling, mu.txn := none
          mu.detector := if s.mu.params.impactThreshold = 0xFFFF then .disabled else .armed } := by
  rw [muRateDone_ends _ ht, if_pos rfl, muTxnEnd_taken h rfl h.noneMissed]
  exact muBegin_stays (.inr rfl)

/-- The matching read-back in front of a burst lets the burst begin (R22, log 33). -/
theorem muRateDone_burst {p tk : Nat} (h : TakesResult s.mu) (ht : s.mu.txn = some (.rateThenBurst p tk)) :
    muRateDone (Config.rateSetting p) s
      = { s with mu.txn := some (.burst tk), mu.rateDue := decide (s.rck.activePeriod ≠ p) } := by
  unfold muRateDone
  rw [ht]
  simp only [h.noReset, h.stays, h.kept, if_true, Bool.false_eq_true, or_self, if_false]

/-- Settles O20: the identity value, and the failed attempts of Identify and Configure by their number. -/
theorem imuAttempts : Obligations.ImuAttempts := by
  intro u r s h hr hl hd hm
  have hk : TakesResult s.mu := ⟨hr, hl, hd, hm⟩
  refine ⟨fun ht hs hp => ?_, fun ht => ?_, fun hs hf => ?_⟩
  · have hf : FailsBy s.mu muAttempt := .inl ⟨ht, hp, rfl⟩
    have hb : r ≠ 0x9E → bodyIdentityReadDone u r s = muTxnEnd muAttempt (s.advance u.toNat) := fun hn =>
      (muIdentityDone_ends (s := s.advance u.toNat) r ht).trans (congrArg (muTxnEnd · _) (if_neg hn))
    refine ⟨fun he => ?_, fun hn ha => ?_, fun hn ha => ?_⟩
    · subst he
      exact congrArg _ (h.live_eq (f := bodyIdentityReadDone u _) (muIdentityDone_match (s := s.advance u.toNat) hk ht hs)
        h.powered rfl rfl rfl rfl)
    · exact congrArg _ (h.live_again hk hs hf (hb hn) ha)
    · have hx : bodyAttempt u (some r) s = bodyIdentityReadDone u r s := by
        unfold bodyAttempt
        simp only [ht]
      exact ⟨exhausted s u.toNat, rfl, congrArg _ (h.live_third hk hs hf (hb hn) ha).1,
        congrArg _ (h.live_third hk hs hf (hx.trans (hb hn)) ha).2⟩
  · have hb : bodyImuResponseTimeout u s = s.advance u.toNat := by
      unfold bodyImuResponseTimeout muNoResponse
      rw [advance_mu, ht]
    exact congrArg _ (h.live_rck hb)
  · obtain ⟨act, hf⟩ : ∃ act, FailsBy s.mu act := by
      rcases hf with ⟨ht, hp⟩ | ⟨p, ht, hp⟩
      · exact ⟨_, .inl ⟨ht, hp, rfl⟩⟩
      · exact ⟨_, .inr ⟨p, ht, hp, rfl⟩⟩
    have hb : bodyImuResponseTimeout u s = muTxnEnd act (s.advance u.toNat) :=
      muNoResponse_fails (s := s.advance u.toNat) hf
    refine ⟨fun ha => congrArg _ (h.live_again hk hs hf hb ha), fun ha => ?_⟩
    exact ⟨exhausted s u.toNat, rfl, congrArg _ (h.live_third hk hs hf hb ha).1,
      congrArg _ (h.live_third (f := bodyAttempt u none) hk hs hf hb ha).2⟩

/-- Settles O21: the read-back of Configure, matching or not, and the matching one in front of a burst. -/
theorem rateWriteEnds : Obligations.RateWriteEnds := by
  intro u r p s h hr hl hd hm
  have hk : TakesResult s.mu := ⟨hr, hl, hd, hm⟩
  have hb : s.mu.txn = some (.configure p) → r ≠ Config.rateSetting p →
      bodyRateWriteDone u r s = muTxnEnd (muConfigureFailed p) (s.advance u.toNat) := fun ht hn =>
    (muRateDone_ends (s := s.advance u.toNat) r ht).trans (congrArg (muTxnEnd · _) (if_neg hn))
  refine ⟨fun ht hs hp he => ?_, fun ht hs hp hn ha => ?_, fun ht hs hp hn ha => ?_, fun tk ht he => ?_⟩
  · subst he
    exact congrArg _ (h.live_eq (f := bodyRateWriteDone u _) (muRateDone_match (s := s.advance u.toNat) hk ht) h.powered
      rfl rfl rfl rfl)
  · exact congrArg _ (h.live_again hk hs (.inr ⟨p, ht, hp, rfl⟩) (hb ht hn) ha)
  · have hf : FailsBy s.mu (muConfigureFailed p) := .inr ⟨p, ht, hp, rfl⟩
    have hx : bodyAttempt u (some r) s = bodyRateWriteDone u r s := by
      unfold bodyAttempt
      simp only [ht]
    exact ⟨exhausted s u.toNat, rfl, congrArg _ (h.live_third hk hs hf (hb ht hn) ha).1,
      congrArg _ (h.live_third hk hs hf (hx.trans (hb ht hn)) ha).2⟩
  · subst he
    exact congrArg _ (h.live_eq (f := bodyRateWriteDone u _) (muRateDone_burst (s := s.advance u.toNat) hk ht) h.powered
      rfl rfl rfl rfl)

end Sys2Proof.Machine
end

section
/-! A sample at the Motion Unit with no tenant in the frame record table (R17 to R29): good, missing, and the ones that
change the link. -/

namespace Sys2Proof.Machine

variable {s u v : State} {b : Burst} {tk : Nat} {x : Sample}

/-! ### The frame record table has no tenant -/

/-- No frame was captured before a time (R46). -/
theorem intervalEntry_untracked (h : Untracked s) (n : Nat) : intervalEntry s.pu n = none := by
  have he : (entriesByFrame s.pu fun h => h.present && decide (h.capture ≤ n)) = [] :=
    entriesByFrame_none fun y hy => by
      obtain ⟨h1, h2⟩ := h y hy
      simp [Shadow.present, h1, h2]
  unfold intervalEntry
  rw [he]
  rfl

/-- A sample is attributed to no interval (R46). -/
theorem puAttribute_untracked (h : Untracked s) (d : Delivery) : puAttribute d s = s := by
  unfold puAttribute
  rw [intervalEntry_untracked h]
  exact ite_self s

/-- A sample finds nothing to measure, to count or to make Final, in Tracking as elsewhere (R44). -/
theorem puPass_tenantless (h : Untracked s) (d : Delivery) : puPass d s = s := by
  have hc : (entriesByFrame s.pu fun h => decide (h.state = .captured) && decide (h.reference ≤ (d.time : Int))) = [] :=
    entriesByFrame_none fun y hy => by rw [h.stateless (by decide) y hy]; rfl
  have he : entriesByFrame s.pu (eligible s.pu) = [] :=
    entriesByFrame_none fun y hy => by
      unfold eligible
      rw [h.stateless (by decide) y hy]
      rfl
  unfold puPass
  simp only [hc, List.foldl_nil, puAttribute_untracked h, he]

/-- An impact is of no frame (R47). -/
theorem puImpact_untracked (h : Untracked s) (n : Nat) : puImpact n s = s := by
  unfold puImpact
  rw [intervalEntry_untracked h]

/-! ### What a sample does -/

/-- The integration of the words of a sample (R27, R28). -/
theorem muIntegrate_snd (t : Nat) (g : Axes) (s : State) :
    (muIntegrate t g s).2
      = { s with
          mu.acc := integratedBy s.mu g (match s.mu.lastTime with | none => s.rck.activePeriod | some l => t - l)
          mu.lastTime := some t } := rfl

/-- A good sample that leaves the link Tracking is integrated and judged (R27). -/
theorem muGood_tracks (hv : muLinkGood { s with mu.lastGood := some x } = v) (hl : v.mu.link = .tracking)
    (hj : muJudgeImpact tk x (muJudgeStill x.gyro (muIntegrate tk x.gyro v).2) = u) (hu : Untracked u) :
    muGood tk x s = u := by
  unfold muGood
  simp only [hv, if_pos hl, hj]
  exact puPass_tenantless hu _

/-- In Tracking a good sample ends the missing run (R20). -/
theorem muLinkGood_tracking (h : s.mu.link = .tracking) : muLinkGood s = { s with mu.missingRun := 0 } := by
  unfold muLinkGood
  rw [h]

/-- The fourth good sample in a row takes Starting to Tracking (R16). -/
theorem muLinkGood_starting (h : s.mu.link = .starting) (hg : s.mu.goodRun = 3) :
    muLinkGood s
      = State.raise { s with mu.missingRun := 0, mu.link := .tracking, mu.goodRun := 0 } .imuState := by
  unfold muLinkGood
  rw [h]
  exact if_pos (by show 4 ≤ s.mu.goodRun + 1; omega)

/-- The fourth good sample in a row recovers a Lost link (R21). -/
theorem muLinkGood_lost (h : s.mu.link = .lost) (hg : s.mu.goodRun = 3) (hu : Untracked s) :
    muLinkGood s
      = State.raise
          { s with
            mu.missingRun := 0, mu.link := .tracking, mu.goodRun := 0, mu.acc := Axes.zero, mu.lastTime := none
            pu.pathNumber := min (s.pu.pathNumber + 1) (2 ^ 32 - 1) } .imuState := by
  unfold muLinkGood
  rw [h]
  refine (if_pos (by show 4 ≤ s.mu.goodRun + 1; omega)).trans ?_
  unfold muRecover
  rw [puBreak_untracked (by exact hu)]
  rfl

/-! ### The still run (R24, R25) -/

/-- With bias tracking disabled no sample is judged still. -/
theorem muJudgeStill_disabled (g : Axes) (h : s.mu.params.biasEnable = false) : muJudgeStill g s = s :=
  if_neg (by rw [h]; nofun)

/-- A sample that is not still ends the run. -/
theorem muJudgeStill_ends {g : Axes} (he : s.mu.params.biasEnable = true) (hl : s.mu.link = .tracking)
    (hs : isStill s.mu g = false) : muJudgeStill g s = { s with mu.stillRun := 0, mu.stillSums := ⟨0, 0, 0⟩ } :=
  (if_pos ⟨he, hl⟩).trans (if_neg (by rw [hs]; decide))

/-- A still sample that does not complete the run adds its deviations. -/
theorem muJudgeStill_adds {g : Axes} (he : s.mu.params.biasEnable = true) (hl : s.mu.link = .tracking)
    (hs : isStill s.mu g = true) (hw : s.mu.stillRun + 1 < s.mu.params.window) :
    muJudgeStill g s = { s with mu.stillRun := s.mu.stillRun + 1, mu.stillSums := addedSums s.mu g } :=
  (if_pos ⟨he, hl⟩).trans ((if_pos hs).trans (if_neg (Nat.not_le.2 hw)))

/-- The still sample that completes the run moves the bias. -/
theorem muJudgeStill_completes {g : Axes} (he : s.mu.params.biasEnable = true) (hl : s.mu.link = .tracking)
    (hs : isStill s.mu g = true) (hw : s.mu.params.window ≤ s.mu.stillRun + 1) :
    muJudgeStill g s = muUpdateBias (addedSums s.mu g) s :=
  (if_pos ⟨he, hl⟩).trans ((if_pos hs).trans (if_pos hw))

/-- Still is what lies within the still threshold on every axis. -/
theorem isStill_iff (m : Mu) (g : Axes) :
    isStill m g = true ↔ (g.yaw - m.bias.yaw).natAbs ≤ m.params.stillThreshold
      ∧ (g.pitch - m.bias.pitch).natAbs ≤ m.params.stillThreshold
      ∧ (g.roll - m.bias.roll).natAbs ≤ m.params.stillThreshold := by
  simp [isStill, axisStill, and_assoc]

/-! ### The impact detector (R30) -/

/-- The sample exceeds the threshold or not. -/
theorem muExceeds_iff (m : Mu) (n : Nat) : muExceeds m n = true ↔ (m.params.impactThreshold * 128) ^ 2 < n :=
  decide_eq_true_iff

/-- A sample of Armed that does not exceed the threshold. -/
theorem muJudgeArmed_under {n : Nat} (t : Nat) (h : n ≤ (s.mu.params.impactThreshold * 128) ^ 2) :
    muJudgeArmed t n s = { s with mu.detector := .armed } :=
  if_neg (by rw [muExceeds_iff]; omega)

/-- A sample that is no impact changes nothing at the detector. -/
theorem muJudgeImpact_none (t : Nat) (h : noImpact s.mu b) : muJudgeImpact t (burstSample b) s = s := by
  unfold muJudgeImpact
  rcases h with h | ⟨h, hm⟩
  · rw [h]
  · have ha := muJudgeArmed_under t hm
    rw [← h] at ha
    rw [h]
    exact ha

/-! ### The end of a burst -/

/-- The result of such a burst is taken (R18). -/
theorem takesBurst.takes (h : takesBurst s.mu tk) : TakesResult s.mu := by
  obtain ⟨-, hreset, hleaving, hdiscard, hmissed⟩ := h
  exact ⟨hreset, hleaving, hdiscard, hmissed⟩

/-- A burst ends with a sample (R17, R18). -/
theorem muBurstDone_sample (h : takesBurst s.mu tk)
    (hu : muSample tk (burstResult s.mu b) { s with mu.txn := none, mu.lastCounter := some (burstCounter b) } = u)
    (hm : u.mu.missed = []) (hl : u.mu.link ≠ .starting) : muBurstDone b s = u := by
  unfold muBurstDone
  rw [h.1]
  refine (muTxnEnd_taken h.takes hu hm).trans ?_
  exact muBegin_stays (.inl hl)

/-- A burst with no response is a missing sample (R14, R17). -/
theorem muNoResponse_burst (h : takesBurst s.mu tk) (hu : muMissing tk { s with mu.txn := none } = u)
    (hm : u.mu.missed = []) (hl : u.mu.link ≠ .starting) : muNoResponse s = u := by
  unfold muNoResponse
  rw [h.1]
  refine (muTxnEnd_taken h.takes hu hm).trans ?_
  exact muBegin_stays (.inl hl)

/-- A burst with a new counter is good (R17). -/
theorem burstResult_good {m : Mu} (h : m.lastCounter ≠ some (burstCounter b)) :
    burstResult m b = .good (burstSample b) := if_neg h

/-- A burst that repeats the counter is missing (R17). -/
theorem burstResult_repeats {m : Mu} (h : m.lastCounter = some (burstCounter b)) : burstResult m b = .missing := if_pos h

/-- A good sample in Tracking, given what the still run and the detector make of it (R18, R27). -/
theorem muBurstDone_tracked (ht : takesBurst s.mu tk) (hc : s.mu.lastCounter ≠ some (burstCounter b))
    (hl : s.mu.link = .tracking)
    (hj : muJudgeImpact tk (burstSample b) (muJudgeStill (burstSample b).gyro { s with mu := tracked s b tk }) = u)
    (hu : Untracked u) (hm : u.mu.missed = []) (hn : u.mu.link = .tracking) : muBurstDone b s = u := by
  refine muBurstDone_sample ht ?_ hm (by rw [hn]; decide)
  rw [burstResult_good hc]
  exact muGood_tracks (muLinkGood_tracking (by exact hl)) hl hj hu

/-- SAMPLE_BURST_DONE of a calm state, in Tracking, that ends with a change of the Motion Unit alone. -/
theorem Calm.live_tracked {m : Mu} {n : Stamp} (h : Calm s) (hu : Untracked s) (ht : takesBurst s.mu tk)
    (hc : s.mu.lastCounter ≠ some (burstCounter b)) (hl : s.mu.link = .tracking)
    (hj : muJudgeImpact tk (burstSample b)
      (muJudgeStill (burstSample b).gyro { s.advance n.toNat with mu := tracked s b tk })
        = { s.advance n.toNat with mu := m })
    (hm : m.missed = []) (hn : m.link = .tracking) (hk : m.marks = s.mu.marks) :
    live (bodySampleBurstDone n b) s = { s.advance n.toNat with mu := m } :=
  h.live_eq (f := bodySampleBurstDone n b)
    (muBurstDone_tracked (s := s.advance n.toNat) ht hc hl hj hu hm hn) h.powered rfl rfl hk rfl

/-- The command as a whole. -/
theorem Calm.exec_tracked {m : Mu} {n : Stamp} (h : Calm s) (hu : Untracked s) (ht : takesBurst s.mu tk)
    (hc : s.mu.lastCounter ≠ some (burstCounter b)) (hl : s.mu.link = .tracking)
    (hj : muJudgeImpact tk (burstSample b)
      (muJudgeStill (burstSample b).gyro { s.advance n.toNat with mu := tracked s b tk })
        = { s.advance n.toNat with mu := m })
    (hm : m.missed = []) (hn : m.link = .tracking) (hk : m.marks = s.mu.marks) :
    exec (.sampleBurstDone n b) s = .next { s.advance n.toNat with mu := m } :=
  congrArg _ (h.live_tracked hu ht hc hl hj hm hn hk)

/-- STILL_RUN_COMPLETE stands for the burst whose sample completes the still run (log 5). -/
theorem stillCompletes_of {m : Mu} (ht : takesBurst m tk) (hl : m.link = .tracking) (hb : m.params.biasEnable = true)
    (hc : m.lastCounter ≠ some (burstCounter b)) (hs : isStill m (burstSample b).gyro = true)
    (hw : m.params.window ≤ m.stillRun + 1) : stillCompletes m b = true := by
  obtain ⟨ht, hr, hv, hd, -⟩ := ht
  unfold stillCompletes
  simp [ht, hr, hv, hd, hl, hb, hc, hs, hw]

/-- Settles O22, by the branches of the still run. -/
theorem goodSampleTracked : Obligations.GoodSampleTracked := by
  refine ⟨fun n b tk s h hu hl ht hc hi => ⟨fun he => ?_, fun he hs => ?_⟩,
    fun n b tk s g sums h hu hl ht hc hi he hg hs hsum => ?_⟩
  · refine h.exec_tracked hu ht hc hl ?_ ht.takes.noneMissed hl rfl
    rw [muJudgeStill_disabled _ (by exact he)]
    exact muJudgeImpact_none tk (by exact hi)
  · refine h.exec_tracked hu ht hc hl ?_ ht.takes.noneMissed hl rfl
    rw [muJudgeStill_ends (by exact he) (by exact hl) (by exact hs)]
    exact muJudgeImpact_none tk (by exact hi)
  · subst hg hsum
    have hs : isStill s.mu (burstSample b).gyro = true := (isStill_iff _ _).2 hs
    refine ⟨fun hw => ?_, fun hw => ?_⟩
    · refine h.exec_tracked hu ht hc hl ?_ ht.takes.noneMissed hl rfl
      rw [muJudgeStill_adds (by exact he) (by exact hl) (by exact hs) (by exact hw)]
      exact muJudgeImpact_none tk (by exact hi)
    · have hb := h.live_tracked (n := n) (m := { tracked s b tk with
          bias := ⟨newBias s.mu.bias.yaw _ s.mu.params.window, newBias s.mu.bias.pitch _ s.mu.params.window,
            newBias s.mu.bias.roll _ s.mu.params.window⟩
          stillRun := 0, stillSums := Axes.zero }) hu ht hc hl (by
        rw [muJudgeStill_completes (by exact he) (by exact hl) (by exact hs) (by exact hw)]
        exact muJudgeImpact_none tk (by exact hi)) ht.takes.noneMissed hl rfl
      exact ⟨_, rfl, congrArg _ hb, congrArg _ ((derived_eq_live (stillCompletes_of ht hl he hc hs hw)).trans hb)⟩

/-! ### Missing samples (R19, R20) -/

/-- A missing sample that leaves the link Tracking integrates the last good words again (R19). -/
theorem muMissing_tracks (hv : muLinkMissing s = v) (hl : v.mu.link = .tracking) (hg : v.mu.lastGood = some x)
    (hu : Untracked v) : muMissing tk s = (muIntegrate tk x.gyro v).2 := by
  unfold muMissing
  simp only [hv, hl, hg]
  exact puPass_tenantless (s := (muIntegrate tk x.gyro v).2) hu _

/-- In Tracking a missing sample short of the eighth holds the last good words (R19). -/
theorem muMissing_holds (hl : s.mu.link = .tracking) (hg : s.mu.lastGood = some x) (hn : s.mu.missingRun + 1 < 8)
    (hu : Untracked s) :
    muMissing tk s
      = { s with
          mu.missingRun := s.mu.missingRun + 1
          mu.acc := integratedBy s.mu x.gyro
            (match s.mu.lastTime with | none => s.rck.activePeriod | some l => tk - l)
          mu.lastTime := some tk } := by
  have hm : muLinkMissing s = { s with mu.missingRun := s.mu.missingRun + 1 } := by
    unfold muLinkMissing
    rw [hl]
    exact if_neg (Nat.not_le.2 hn)
  exact (muMissing_tracks hm hl hg hu).trans (muIntegrate_snd tk x.gyro _)

/-- The eighth missing sample in a row loses the link (R20). -/
theorem muMissing_loses (hl : s.mu.link = .tracking) (hn : 8 ≤ s.mu.missingRun + 1) (hd : s.mu.detector ≠ .declared)
    (hu : Untracked s) :
    muMissing tk s
      = State.raise
          { s with
            mu.link := .lost, mu.missingRun := 0, mu.goodRun := 0, mu.stillRun := 0, mu.stillSums := Axes.zero }
          .imuState := by
  have hm : muLinkMissing s = muEnterLost { s with mu.missingRun := s.mu.missingRun + 1 } := by
    unfold muLinkMissing
    rw [hl]
    exact if_pos hn
  have he : muEnterLost { s with mu.missingRun := s.mu.missingRun + 1 } = _ :=
    if_neg (by rw [raise_mu]; exact hd)
  have hk : (muLinkMissing s).mu.link = .lost := by rw [hm, he, raise_mu]
  unfold muMissing
  simp only [hk]
  rw [hm, he]
  exact puPass_tenantless (by unfold Untracked; rw [raise_pu]; exact hu) _

/-- Both ways for a sample to be missing: the counter repeated, and no response (R17). -/
theorem Calm.live_missing {n : Stamp} (h : Calm s) (ht : takesBurst s.mu tk)
    (hc : s.mu.lastCounter = some (burstCounter b))
    (hu : muMissing tk { s.advance n.toNat with mu.txn := none } = u) (hm : u.mu.missed = []) (hl : u.mu.link ≠ .starting)
    (hp : u.part = s.part) (hg : u.ga = s.ga) (hw : u.cw = s.cw) (hk : u.mu.marks = s.mu.marks) (hs : u.sm = s.sm) :
    (bodySampleBurstDone n b s = u ∧ live (bodySampleBurstDone n b) s = u)
      ∧ bodyImuResponseTimeout n s = u ∧ live (bodyImuResponseTimeout n) s = u := by
  have h1 : bodySampleBurstDone n b s = u := by
    refine muBurstDone_sample (s := s.advance n.toNat) ht ?_ hm hl
    rw [burstResult_repeats (m := (s.advance n.toNat).mu) hc, ← hc]
    exact hu
  have h2 : bodyImuResponseTimeout n s = u := muNoResponse_burst (s := s.advance n.toNat) ht hu hm hl
  have hp : u.part.state ≠ .off := by rw [hp]; exact h.powered
  exact ⟨⟨h1, h.live_eq h1 hp hg hw hk hs⟩, h2, h.live_eq h2 hp hg hw hk hs⟩

/-- MISSING_RUN_COMPLETE stands for the event at which the link becomes Lost (log 5). -/
theorem derived_lost {f : State → State} (hf : f s = u) (hl : s.mu.link = .tracking) (hu : u.mu.link = .lost) :
    derived f cameLost s = live f s :=
  derived_eq_live (by rw [hf, cameLost, hl, hu]; rfl)

/-- Settles O23: a missing sample short of the eighth, and the eighth. -/
theorem missingSampleHeld : Obligations.MissingSampleHeld := by
  intro n b tk x s h hu hl ht hg hd hc
  refine ⟨fun hn => ?_, fun hn => ?_⟩
  · obtain ⟨⟨-, h1⟩, -, h2⟩ := h.live_missing (n := n) ht hc
      (muMissing_holds (s := { s.advance n.toNat with mu.txn := none }) hl hg hn hu) ht.takes.noneMissed
      (by show s.mu.link ≠ _; rw [hl]; decide) rfl rfl rfl rfl rfl
    exact ⟨_, rfl, congrArg _ h1, congrArg _ h2⟩
  · obtain ⟨⟨k1, h1⟩, k2, h2⟩ := h.live_missing (n := n) ht hc
      (muMissing_loses (s := { s.advance n.toNat with mu.txn := none }) hl hn hd hu)
      (by rw [raise_mu]; exact ht.takes.noneMissed) (by rw [raise_mu]; nofun)
      (raise_part _ _) (raise_ga _ _) (raise_cw _ _) (by rw [raise_mu]; rfl) (raise_sm _ _)
    have d1 := derived_lost (f := bodyBurst n (some b)) k1 hl (by rw [raise_mu])
    have d2 := derived_lost (f := bodyBurst n none) k2 hl (by rw [raise_mu])
    exact ⟨_, rfl, congrArg _ h1, congrArg _ h2, congrArg Host.Outcome.next (d1.trans h1),
      congrArg Host.Outcome.next (d2.trans h2)⟩

/-! ### The fourth good sample in a row (R16, R21) -/

/-- SAMPLE_BURST_DONE whose sample makes the link Tracking, and GOOD_RUN_COMPLETE, which stands for it (log 5). -/
theorem Calm.live_enters {n : Stamp} (h : Calm s) (ht : takesBurst s.mu tk)
    (hc : s.mu.lastCounter ≠ some (burstCounter b)) (hl : s.mu.link ≠ .tracking)
    (hv : muLinkGood { s.advance n.toNat with
        mu.txn := none, mu.lastCounter := some (burstCounter b), mu.lastGood := some (burstSample b) } = v)
    (hk : v.mu.link = .tracking) (hu : Untracked v) (hb : v.mu.params.biasEnable = false) (hi : noImpact v.mu b)
    (hm : v.mu.missed = []) (hp : v.part = s.part) (hg : v.ga = s.ga) (hw : v.cw = s.cw)
    (hr : v.mu.marks = s.mu.marks) (hs : v.sm = s.sm) :
    live (bodySampleBurstDone n b) s = (muIntegrate tk (burstSample b).gyro v).2
      ∧ derived (bodySampleBurstDone n b) cameTracking s = (muIntegrate tk (burstSample b).gyro v).2 := by
  have hj : bodySampleBurstDone n b s = (muIntegrate tk (burstSample b).gyro v).2 := by
    refine muBurstDone_sample (s := s.advance n.toNat) ht ?_ hm (by show v.mu.link ≠ _; rw [hk]; decide)
    rw [burstResult_good (m := (s.advance n.toNat).mu) hc]
    refine muGood_tracks hv hk ?_ hu
    rw [muJudgeStill_disabled _ (by exact hb)]
    exact muJudgeImpact_none tk (by exact hi)
  have hx : live (bodySampleBurstDone n b) s = (muIntegrate tk (burstSample b).gyro v).2 :=
    h.live_eq hj (by show v.part.state ≠ _; rw [hp]; exact h.powered) hg hw hr hs
  refine ⟨hx, (derived_eq_live ?_).trans hx⟩
  rw [hj]
  show (decide (s.mu.link ≠ .tracking) && decide (v.mu.link = .tracking)) = true
  rw [hk]
  simp [hl]

/-- The integration of a sample beside a raised cause. -/
theorem muIntegrate_raise (t : Nat) (g : Axes) (s : State) (c : Cause) :
    (muIntegrate t g (s.raise c)).2 = (muIntegrate t g s).2.raise c := by
  rw [muIntegrate_snd, muIntegrate_snd]
  unfold State.raise
  split <;> rfl

/-- Settles O24: from Starting, and from Lost. -/
theorem goodRunTracks : Obligations.GoodRunTracks := by
  intro n b tk s h hu ht hc hi hb hg
  refine ⟨fun hl _ => ?_, fun hl => ?_⟩
  · have hv := muLinkGood_starting (s := { s.advance n.toNat with
      mu.txn := none, mu.lastCounter := some (burstCounter b), mu.lastGood := some (burstSample b) }) hl hg
    obtain ⟨h1, h2⟩ := h.live_enters ht hc (by rw [hl]; decide) hv (by rw [raise_mu])
      (by unfold Untracked; rw [raise_pu]; exact hu) (by rw [raise_mu]; exact hb) (by rw [raise_mu]; exact hi)
      (by rw [raise_mu]; exact ht.takes.noneMissed) (raise_part _ _) (raise_ga _ _) (raise_cw _ _)
      (by rw [raise_mu]; rfl) (raise_sm _ _)
    rw [muIntegrate_raise] at h1 h2
    exact ⟨_, rfl, congrArg _ h1, congrArg _ h2⟩
  · have hv := muLinkGood_lost (s := { s.advance n.toNat with
      mu.txn := none, mu.lastCounter := some (burstCounter b), mu.lastGood := some (burstSample b) }) hl hg hu
    obtain ⟨h1, h2⟩ := h.live_enters ht hc (by rw [hl]; decide) hv (by rw [raise_mu])
      (by unfold Untracked; rw [raise_pu]; exact hu) (by rw [raise_mu]; exact hb) (by rw [raise_mu]; exact hi)
      (by rw [raise_mu]; exact ht.takes.noneMissed) (raise_part _ _) (raise_ga _ _) (raise_cw _ _)
      (by rw [raise_mu]; rfl) (raise_sm _ _)
    rw [muIntegrate_raise] at h1 h2
    exact ⟨_, rfl, congrArg _ h1, congrArg _ h2⟩

end Sys2Proof.Machine
end

section
/-! Impact protection (R99 to R101): which segments a mark protects and which the limit releases, and what becomes of the
table. -/

namespace Sys2Proof.Machine

variable {s t u v : State}

/-! ### The segments that a mark concerns (R100) -/

/-- The segment of highest sequence satisfies the test. -/
theorem newestWhere_some {m : Sm} {test : Segment → Bool} {i : Nat} (h : newestWhere m test = some i) :
    ∃ e, m.segments[i]? = some e ∧ test e = true :=
  mem_indicesWhere ((sortBy_perm _ _).mem_iff.1 (List.mem_of_getElem? h))

/-- Within the pre-roll (R100). -/
theorem withinPreRoll_iff (m : Sm) (t since : Nat) :
    withinPreRoll m t since = true ↔ t < since + 1000000 * m.params.preRoll := by
  unfold withinPreRoll
  rw [decide_eq_true_iff]
  omega

/-- The targets while the writer records: the Open segment, and within the pre-roll the newest Closed one (R100). -/
theorem mem_markTargets_recording {n k : Nat} (hw : s.cw.writer = .recording) :
    k ∈ markTargets s n ↔ openIndex s.sm = some k
      ∨ (newestWhere s.sm (fun e => decide (e.state = .closed)) = some k
        ∧ ∃ i e, openIndex s.sm = some i ∧ s.sm.segments[i]? = some e
          ∧ n < e.startTime + 1000000 * s.sm.params.preRoll) := by
  unfold markTargets Sm.segment
  dsimp only
  rw [if_pos hw]
  cases ho : openIndex s.sm with
  | none => simp
  | some i =>
    obtain ⟨e, he, -⟩ := openIndex_some ho
    simp only [he, Option.map_some, Option.getD_some, withinPreRoll_iff, List.mem_cons, Option.some.injEq,
      exists_and_left, exists_eq_left']
    split
    · next h => simp [h, eq_comm]
    · next h => simp [h, eq_comm]

/-- In any other writer state: the Closed segment of highest sequence, within the pre-roll (R100, log 54). -/
theorem mem_markTargets_idle {n k : Nat} {e : Segment} (hw : s.cw.writer ≠ .recording)
    (he : s.sm.segments[k]? = some e) :
    k ∈ markTargets s n ↔ s.sm.lastClosed = some k ∧ n < e.endTime + 1000000 * s.sm.params.preRoll := by
  unfold markTargets Sm.segment
  dsimp only
  rw [if_neg hw]
  cases hc : s.sm.lastClosed with
  | none => simp
  | some i =>
    by_cases hi : i = k
    · subst hi
      simp only [he, Option.map_some, Option.getD_some, withinPreRoll_iff, true_and]
      split
      · next h => simp [h]
      · next h => simp [h]
    · dsimp only
      split <;> simp [hi, Ne.symm hi]

/-- The targets of a mark that hold data are the segments that it concerns (R100). -/
theorem targeted_iff (s : State) (n k : Nat) :
    Targeted s n k ↔ k ∈ markTargets s n ∧ ∃ e, s.sm.segments[k]? = some e ∧ holdsData e = true := by
  unfold Targeted
  by_cases hw : s.cw.writer = .recording
  · rw [if_pos hw, mem_markTargets_recording hw]
    refine ⟨fun h => ⟨h, ?_⟩, And.left⟩
    rcases h with h | ⟨h, -⟩
    · obtain ⟨e, he, hs⟩ := openIndex_some h
      exact ⟨e, he, by simp [holdsData, hs]⟩
    · obtain ⟨e, he, hs⟩ := newestWhere_some h
      exact ⟨e, he, by simp [holdsData, of_decide_eq_true hs]⟩
  · rw [if_neg hw]
    constructor
    · rintro ⟨hl, e, he, hd, ht⟩
      exact ⟨(mem_markTargets_idle hw he).2 ⟨hl, ht⟩, e, he, hd⟩
    · rintro ⟨hm, e, he, hd⟩
      obtain ⟨hl, ht⟩ := (mem_markTargets_idle hw he).1 hm
      exact ⟨hl, e, he, hd, ht⟩

/-- A mark has at most two targets (R100). -/
theorem markTargets_length (s : State) (t : Nat) : (markTargets s t).length ≤ 2 := by
  have hl : ∀ o : Option Nat, o.toList.length ≤ 1 := fun o => by cases o <;> simp
  unfold markTargets
  dsimp only
  split
  · split
    · exact Nat.zero_le 2
    · split
      · exact Nat.succ_le_succ (hl _)
      · exact Nat.le_succ 1
  · split
    · exact Nat.zero_le 2
    · split
      · exact Nat.le_succ 1
      · exact Nat.zero_le 2

/-! ### Protection (R100) -/

/-- A segment once an impact at time `t` has protected it, where it holds data and carries no protection (R100). -/
def protectedAt (t : Nat) (e : Segment) : Segment :=
  if holdsData e = true ∧ e.protection = none then { e with protection := some ⟨.impact, t⟩ } else e

/-- A segment without protection that holds data takes it. -/
theorem protectedAt_bare {e : Segment} (t : Nat) (hd : holdsData e = true) (hp : e.protection = none) :
    protectedAt t e = { e with protection := some ⟨.impact, t⟩ } := if_pos ⟨hd, hp⟩

/-- Any other segment stays as it is. -/
theorem protectedAt_stays {e : Segment} (t : Nat) (h : ¬(holdsData e = true ∧ e.protection = none)) :
    protectedAt t e = e := if_neg h

/-- A segment once protected is not protected again. -/
theorem protectedAt_twice (t : Nat) (e : Segment) : protectedAt t (protectedAt t e) = protectedAt t e := by
  by_cases h : holdsData e = true ∧ e.protection = none
  · rw [protectedAt_bare t h.1 h.2]
    exact if_neg fun c => nomatch c.2
  · rw [protectedAt_stays t h, protectedAt_stays t h]

/-- Only the protection changes. -/
theorem protectedAt_bareness (t : Nat) (e : Segment) :
    { protectedAt t e with protection := none } = ({ e with protection := none } : Segment) := by
  unfold protectedAt
  split <;> rfl

/-- `u` differs from `s` at most in the segments, the count of impact protection and the snapshot that is due, and the count
is that of the table if it was (R101). -/
structure Reprotected (s u : State) : Prop where
  frame : u = { s with
    sm.segments := u.sm.segments, sm.impactCount := u.sm.impactCount, sm.snapshotDue := u.sm.snapshotDue }
  counts : s.sm.impactCount = impactProtected s.sm.segments → u.sm.impactCount = impactProtected u.sm.segments

/-- Nothing has changed. -/
theorem Reprotected.refl (s : State) : Reprotected s s := ⟨rfl, id⟩

/-- One change after another. -/
theorem Reprotected.trans (h : Reprotected s t) (k : Reprotected t u) : Reprotected s u :=
  ⟨by rw [k.frame, h.frame], fun c => k.counts (h.counts c)⟩

/-- The limit in force stays. -/
theorem Reprotected.params (h : Reprotected s u) : u.sm.params = s.sm.params := by rw [h.frame]

/-- `u` is `s` with these targets protected at time `t` (R100). -/
structure Protected (t : Nat) (targets : List Nat) (s u : State) : Prop extends Reprotected s u where
  segments : ∀ k : Nat, u.sm.segments[k]? = s.sm.segments[k]?.map (if k ∈ targets then protectedAt t else id)
  atMost : u.sm.impactCount ≤ s.sm.impactCount + targets.length
  staysDue : s.sm.snapshotDue = true → u.sm.snapshotDue = true
  due : ∀ k ∈ targets, ∀ e, s.sm.segments[k]? = some e → protectedAt t e ≠ e → u.sm.snapshotDue = true

/-- One target (R100). -/
theorem protectTarget_protected (t i : Nat) (s : State) : Protected t [i] s (protectTarget t i s) := by
  have hk : ∀ k, k ∈ [i] ↔ i = k := fun k => List.mem_singleton.trans eq_comm
  have hstays : (∀ e, s.sm.segments[i]? = some e → protectedAt t e = e) → Protected t [i] s s := fun hs =>
    { Reprotected.refl s with
      segments := fun k => by
        by_cases h : i = k
        · subst h
          rw [if_pos List.mem_cons_self]
          cases he : s.sm.segments[i]? with
          | none => rfl
          | some e => rw [Option.map_some, hs e he]
        · rw [if_neg (mt (hk k).1 h), Option.map_id_fun, id]
      atMost := Nat.le_add_right _ _
      staysDue := id
      due := fun k hm e he hn => absurd (hs e (((hk k).1 hm).symm ▸ he)) hn }
  unfold protectTarget Sm.segment
  split
  · next hn => exact hstays fun e he => nomatch hn.symm.trans he
  · next e he =>
    split
    · next hd =>
      obtain ⟨hd, hp⟩ := hd
      have hp : e.protection = none := Option.isNone_iff_eq_none.1 hp
      have hc := impactProtected_modifyAt (f := fun e => { e with protection := some ⟨.impact, t⟩ }) he
      have hy : protectedBy .impact { e with protection := some ⟨.impact, t⟩ } = true := rfl
      rw [protectedBy_none hp, hy] at hc
      exact {
        frame := rfl
        counts := fun h => by
          show s.sm.impactCount + 1 = impactProtected (modifyAt _ i s.sm.segments)
          simp only [if_true, Bool.false_eq_true, if_false] at hc
          omega
        segments := fun k => by
          show (modifyAt _ i s.sm.segments)[k]? = _
          rw [modifyAt_get]
          by_cases h : i = k
          · subst h
            rw [if_pos rfl, if_pos List.mem_cons_self, he, Option.map_some, Option.map_some, protectedAt_bare t hd hp]
          · rw [if_neg h, if_neg (mt (hk k).1 h), Option.map_id_fun, id]
        atMost := Nat.le_refl _
        staysDue := fun _ => rfl
        due := fun _ _ _ _ _ => rfl }
    · next hd =>
      refine hstays fun g hg => protectedAt_stays t fun c => hd ⟨?_, ?_⟩
      · rw [Option.some.inj (he.symm.trans hg)]
        exact c.1
      · rw [Option.some.inj (he.symm.trans hg), c.2]
        rfl

/-- All targets, one after the other (R100). -/
theorem protectTargets_protected (t : Nat) (targets : List Nat) (s : State) :
    Protected t targets s (targets.foldl (fun s i => protectTarget t i s) s) := by
  induction targets generalizing s with
  | nil =>
    exact { Reprotected.refl s with
      segments := fun k => by rw [if_neg List.not_mem_nil, Option.map_id_fun]; rfl
      atMost := Nat.le_refl _, staysDue := id, due := fun _ h => nomatch h }
  | cons i rest ih =>
    have h1 := protectTarget_protected t i s
    have h2 := ih (protectTarget t i s)
    rw [List.foldl_cons]
    generalize rest.foldl (fun s i => protectTarget t i s) (protectTarget t i s) = u at h2 ⊢
    generalize protectTarget t i s = v at h1 h2
    exact { h1.toReprotected.trans h2.toReprotected with
      segments := fun k => by
        rw [h2.segments, h1.segments]
        cases s.sm.segments[k]? with
        | none => rfl
        | some e =>
          simp only [Option.map_some, List.mem_cons, List.not_mem_nil, or_false]
          by_cases hk : k = i
          · subst hk
            by_cases hr : k ∈ rest
            · simp only [hr, true_or, if_true, protectedAt_twice]
            · simp only [hr, true_or, if_true, if_false, id]
          · simp only [hk, false_or, if_false, id]
      atMost := by
        have := h1.atMost
        have := h2.atMost
        simp only [List.length_cons, List.length_nil] at *
        omega
      staysDue := fun h => h2.staysDue (h1.staysDue h)
      due := fun k hm e he hn => by
        by_cases hk : k = i
        · exact h2.staysDue (h1.due k (hk ▸ List.mem_cons_self) e he hn)
        · refine h2.due k ((List.mem_cons.1 hm).resolve_left hk) e ?_ hn
          rw [h1.segments, if_neg (by simpa using hk), he]
          rfl }

/-! ### Release (R101) -/

/-- `u` is `s` with protections by impact removed. -/
structure Released (s u : State) : Prop extends Reprotected s u where
  segments : ∀ k : Nat, u.sm.segments[k]? = s.sm.segments[k]?
    ∨ ∃ e, s.sm.segments[k]? = some e ∧ protectedBy .impact e = true
      ∧ u.sm.segments[k]? = some { e with protection := none }

/-- One release (R101). -/
theorem setProtection_released {i : Nat} {e : Segment} (he : s.sm.segments[i]? = some e)
    (hp : protectedBy .impact e = true) :
    Released s (setProtection i none { s with sm.impactCount := s.sm.impactCount - 1, sm.snapshotDue := true }) where
  frame := rfl
  counts h := by
    have hc := impactProtected_modifyAt (f := fun e => { e with protection := none }) he
    have hn : protectedBy .impact { e with protection := none } = false := rfl
    rw [hp, hn] at hc
    show s.sm.impactCount - 1 = impactProtected (modifyAt _ i s.sm.segments)
    simp only [if_true, Bool.false_eq_true, if_false] at hc
    omega
  segments k := by
    show (modifyAt _ i s.sm.segments)[k]? = _ ∨ ∃ e, _ ∧ _ ∧ (modifyAt _ i s.sm.segments)[k]? = _
    rw [modifyAt_get]
    by_cases h : i = k
    · subst h
      exact .inr ⟨e, he, hp, by rw [if_pos rfl, he]; rfl⟩
    · exact .inl (if_neg h)

/-- Releases, one after the other; a segment released once is not released again. -/
theorem Released.trans (h : Released s t) (k : Released t u) : Released s u where
  toReprotected := h.toReprotected.trans k.toReprotected
  segments j := by
    rcases k.segments j with h2 | ⟨e, he, hp, h2⟩
    · rw [h2]
      exact h.segments j
    · rcases h.segments j with h1 | ⟨g, hg, hq, h1⟩
      · exact .inr ⟨e, h1 ▸ he, hp, h2⟩
      · obtain rfl := Option.some.inj (h1.symm.trans he)
        exact nomatch hp

/-- With the limit exceeded there is a protection to release (R101). -/
theorem oldestWhere_protected (hc : s.sm.impactCount = impactProtected s.sm.segments)
    (h : ¬ s.sm.impactCount ≤ s.sm.params.limit) : ∃ i, oldestWhere s.sm (protectedBy .impact) = some i := by
  cases ho : oldestWhere s.sm (protectedBy .impact) with
  | some i => exact ⟨i, rfl⟩
  | none =>
    refine absurd ?_ h
    have hz : impactProtected s.sm.segments = 0 :=
      List.length_eq_zero_iff.2 (List.filter_eq_nil_iff.2 fun e he => by simp [oldestWhere_none ho e he])
    omega

/-- The releases, and the limit that they reach (R101). -/
theorem releaseOver_released (fuel : Nat) (s : State) : Released s (releaseOver fuel s) := by
  induction fuel generalizing s with
  | zero => exact { Reprotected.refl s with segments := fun _ => .inl rfl }
  | succ n ih =>
    unfold releaseOver
    split
    · exact { Reprotected.refl s with segments := fun _ => .inl rfl }
    · split
      · exact { Reprotected.refl s with segments := fun _ => .inl rfl }
      · next i hi =>
        obtain ⟨e, he, hp⟩ := oldestWhere_some hi
        exact (setProtection_released he hp).trans (ih _)

/-- As many releases as the count exceeds the limit by bring it there (R101). -/
theorem releaseOver_reaches {fuel : Nat} (hc : s.sm.impactCount = impactProtected s.sm.segments)
    (hf : s.sm.impactCount ≤ fuel + s.sm.params.limit) :
    (releaseOver fuel s).sm.impactCount ≤ s.sm.params.limit := by
  induction fuel generalizing s with
  | zero =>
    rw [Nat.zero_add] at hf
    exact hf
  | succ n ih =>
    unfold releaseOver
    split
    · assumption
    · next hover =>
      obtain ⟨i, hi⟩ := oldestWhere_protected hc hover
      obtain ⟨e, he, hp⟩ := oldestWhere_some hi
      rw [hi]
      refine ih ((setProtection_released he hp).counts hc) ?_
      show s.sm.impactCount - 1 ≤ n + s.sm.params.limit
      omega

/-- Within the limit nothing is released (R101). -/
theorem enforceLimit_within (h : s.sm.impactCount ≤ s.sm.params.limit) : enforceLimit s = s := if_pos h

/-! ### A mark acted on -/

/-- What a mark at time `t` makes of the table (R100, R101). -/
structure MarkActed (t : Nat) (s u : State) : Prop extends Reprotected s u where
  limited : ImpactsLimited u
  bare : u.sm.segments.map (fun e => { e with protection := none })
    = s.sm.segments.map fun e => { e with protection := none }
  protection : ∀ k e g, s.sm.segments[k]? = some e → u.sm.segments[k]? = some g →
    g.protection = e.protection ∨ (protectedBy .impact e = true ∧ g.protection = none)
      ∨ (Targeted s t k ∧ e.protection = none ∧ g.protection = some ⟨.impact, t⟩)
  whole : s.sm.impactCount + 2 ≤ s.sm.params.limit →
    ∀ k e g, s.sm.segments[k]? = some e → u.sm.segments[k]? = some g →
      (Targeted s t k → g.protection = some (e.protection.getD ⟨.impact, t⟩)
        ∧ (e.protection = none → u.sm.snapshotDue = true))
      ∧ (¬ Targeted s t k → g = e)

/-- What a protection and the releases after it make of a segment, taken together. -/
theorem Protected.released {ts : List Nat} {n : Nat} (h : Protected n ts s t) (k : Released t u) :
    u.sm.segments.map (fun e => { e with protection := none })
      = s.sm.segments.map fun e => { e with protection := none } := by
  refine List.ext_getElem? fun j => ?_
  have hj := h.segments j
  rw [List.getElem?_map, List.getElem?_map]
  have ht : t.sm.segments[j]?.map (fun e => ({ e with protection := none } : Segment))
      = s.sm.segments[j]?.map fun e => { e with protection := none } := by
    rw [hj, Option.map_map]
    congr 1
    funext e
    split
    · exact protectedAt_bareness n e
    · rfl
  rcases k.segments j with hk | ⟨e, he, -, hk⟩
  · rw [hk, ht]
  · rw [← ht, hk, he]
    rfl

/-- A segment that the mark concerns takes the protection, where it carries none (R100). -/
theorem Protected.target {n j : Nat} {e : Segment} (h : Protected n (markTargets s n) s v) (ht : Targeted s n j)
    (he : s.sm.segments[j]? = some e) (hp : e.protection = none) :
    v.sm.segments[j]? = some { e with protection := some ⟨.impact, n⟩ } ∧ v.sm.snapshotDue = true := by
  obtain ⟨hm, f, hf, hd⟩ := (targeted_iff s n j).1 ht
  obtain rfl := Option.some.inj (he.symm.trans hf)
  have hb := protectedAt_bare n hd hp
  refine ⟨by rw [h.segments, he, if_pos hm, Option.map_some, hb], h.due j hm e he fun c => ?_⟩
  rw [hb] at c
  exact nomatch (congrArg Segment.protection c).trans hp

/-- Any other segment stays as it is (R100). -/
theorem Protected.other {n j : Nat} {e : Segment} (h : Protected n (markTargets s n) s v)
    (he : s.sm.segments[j]? = some e) (ht : ¬(Targeted s n j ∧ e.protection = none)) :
    v.sm.segments[j]? = some e := by
  rw [h.segments, he, Option.map_some]
  split
  · next hm => rw [protectedAt_stays n fun c => ht ⟨(targeted_iff s n j).2 ⟨hm, e, he, c.1⟩, c.2⟩]
  · rfl

/-- What becomes of a segment's protection: it stays, or is released, or is that of the mark (R100, R101). -/
theorem Protected.protection {n j : Nat} {e g : Segment} (h : Protected n (markTargets s n) s v) (k : Released v u)
    (he : s.sm.segments[j]? = some e) (hg : u.sm.segments[j]? = some g) :
    g.protection = e.protection ∨ (protectedBy .impact e = true ∧ g.protection = none)
      ∨ (Targeted s n j ∧ e.protection = none ∧ g.protection = some ⟨.impact, n⟩) := by
  by_cases ht : Targeted s n j ∧ e.protection = none
  · obtain ⟨hv, -⟩ := h.target ht.1 he ht.2
    rcases k.segments j with hj | ⟨f, hf, -, hj⟩
    · obtain rfl := Option.some.inj (hg.symm.trans (hj.trans hv))
      exact .inr (.inr ⟨ht.1, ht.2, rfl⟩)
    · obtain rfl := Option.some.inj (hg.symm.trans hj)
      exact .inl ht.2.symm
  · have hv := h.other he ht
    rcases k.segments j with hj | ⟨f, hf, hp, hj⟩
    · obtain rfl := Option.some.inj (hg.symm.trans (hj.trans hv))
      exact .inl rfl
    · obtain rfl := Option.some.inj (hf.symm.trans hv)
      obtain rfl := Option.some.inj (hg.symm.trans hj)
      exact .inr (.inl ⟨hp, rfl⟩)

/-- A mark acted on by the Segment Manager (R100, R101). -/
theorem actOnMark_acted {k : ImpactMark} (h : ImpactsLimited s) : MarkActed k.time s (actOnMark k s) := by
  obtain ⟨hc, hl⟩ := h
  have hp := protectTargets_protected k.time (markTargets s k.time) s
  unfold actOnMark
  generalize (markTargets s k.time).foldl (fun s i => protectTarget k.time i s) s = v at hp
  have hr := releaseOver_released 256 v
  have hvc := hp.counts hc
  have hvl : v.sm.impactCount ≤ s.sm.impactCount + 2 :=
    hp.atMost.trans (Nat.add_le_add_left (markTargets_length s k.time) _)
  have hpar := hp.params
  exact {
    toReprotected := hp.toReprotected.trans hr.toReprotected
    limited := ⟨hr.counts hvc, hr.params ▸ releaseOver_reaches hvc (by rw [hpar]; omega)⟩
    bare := hp.released hr
    protection := fun j e g he hg => hp.protection hr he hg
    whole := fun hw j e g he hg => by
      rw [enforceLimit_within (s := v) (by rw [hpar]; omega)] at hg ⊢
      refine ⟨fun ht => ?_, fun ht => Option.some.inj (hg.symm.trans (hp.other he fun c => ht c.1))⟩
      by_cases hn : e.protection = none
      · obtain ⟨hv, hd⟩ := hp.target ht he hn
        obtain rfl := Option.some.inj (hg.symm.trans hv)
        rw [hn]
        exact ⟨rfl, fun _ => hd⟩
      · obtain rfl := Option.some.inj (hg.symm.trans (hp.other he fun c => hn c.2))
        obtain ⟨p, hq⟩ := Option.ne_none_iff_exists'.1 hn
        rw [hq]
        exact ⟨rfl, fun c => nomatch c⟩ }

/-! ### The intake of a mark (R99) -/

/-- No snapshot begins while one is being written (R103). -/
theorem smFlush_going (h : snapshotGoing s) : smFlush s = s := by
  unfold smFlush
  split
  · rfl
  · rw [if_neg fun c => h.1 c.2.2.1]
    exact if_neg (by simp [h.2])

/-- With a Free segment at hand no erase begins (R96). -/
theorem smEraseAhead_free (h : lowestFree s.sm ≠ none) : smEraseAhead s = s := if_neg fun c => h c.2.2.1

/-- A Free segment is found by the states alone. -/
theorem lowestFree_congr {m n : Sm} (h : m.segments.map (fun e => ({ e with protection := none } : Segment))
    = n.segments.map fun e => { e with protection := none }) (hn : lowestFree n ≠ none) : lowestFree m ≠ none := by
  obtain ⟨i, hi⟩ := Option.ne_none_iff_exists'.1 hn
  obtain ⟨e, he, hs⟩ := lowestFree_some hi
  have hm := congrArg (·[i]?) h
  simp only [List.getElem?_map, he, Option.map_some] at hm
  obtain ⟨g, hg, hq⟩ := Option.map_eq_some_iff.1 hm
  have hf : g.state = .free := (congrArg Segment.state hq).trans hs
  have hx := indicesWhere_mem (p := fun e => decide (e.state = .free)) hg (decide_eq_true hf)
  unfold lowestFree
  rw [ne_eq, List.getElem?_eq_none_iff]
  have := List.length_pos_of_mem hx
  omega

/-- A mark acted on while a snapshot is being written, with a Free segment at hand, begins nothing more (R96, R103). -/
theorem MarkActed.settles {n : Nat} (h : MarkActed n s u) (hg : snapshotGoing s) (hf : lowestFree s.sm ≠ none) :
    smSettle u = u := by
  have hgu : snapshotGoing u := by
    unfold snapshotGoing
    rw [h.frame]
    exact hg
  unfold smSettle
  rw [smFlush_going hgu]
  exact smEraseAhead_free (lowestFree_congr h.bare hf)

/-- An impact is counted and raised, and with no table in service its mark goes nowhere (R31, R34). -/
theorem muPost_unserved (k : ImpactMark) (h : tableServes s.sm = false) :
    muPost k s = State.raise { s with mu.impacts := satInc s.mu.impacts } .impact := by
  have hs : ¬ tableServes (State.raise { s with mu.impacts := satInc s.mu.impacts } .impact).sm = true := by
    rw [raise_sm, h]
    decide
  exact if_neg hs

/-- With a table in service and its intake not closed the Segment Manager acts on the mark at once (R99). -/
theorem muPost_served (k : ImpactMark) (h : intakeOpen s = true) (hm : s.mu.marks = []) :
    muPost k s = smSettle (actOnMark k (State.raise { s with mu.impacts := satInc s.mu.impacts } .impact)) := by
  unfold muPost
  dsimp only
  generalize hv : State.raise { s with mu.impacts := satInc s.mu.impacts } .impact = v
  have ho : intakeOpen v = true := by
    rw [← hv]
    unfold intakeOpen State.resetting
    rw [raise_sm, raise_part]
    exact h
  have hk : v.mu.marks = [] := by
    rw [← hv, raise_mu]
    exact hm
  have hs : tableServes v.sm = true := by
    unfold intakeOpen at ho
    simp only [Bool.and_eq_true] at ho
    exact ho.1.1
  have hi : intakeOpen { v with mu.marks := [k] } = true := ho
  rw [if_pos hs, hk, if_pos (by decide)]
  unfold smIntake
  show smIntakeAll [k] { v with mu.marks := [k] } = _
  unfold smIntakeAll
  rw [if_pos hi]
  show smSettle (actOnMark k { v with mu.marks := [] }) = _
  rw [← hk]

end Sys2Proof.Machine
end

section
/-! The impact detector (R30 to R32, R34): what it makes of a good sample, run by run, and what becomes of the mark. -/

namespace Sys2Proof.Machine

variable {s t u : State} {b : Burst} {tk n : Nat} {x : Sample} {c : Stamp}

/-! ### A sample judged (R30) -/

/-- A sample of Armed that exceeds the threshold begins a run. -/
theorem muJudgeArmed_begins (h : (s.mu.params.impactThreshold * 128) ^ 2 < n) :
    muJudgeArmed tk n s
      = { s with
          mu.impactRun := 1, mu.impactFirst := tk, mu.impactPeak := n
          mu.detector := if s.mu.params.persistence ≤ 1 then .declared else .counting } :=
  if_pos ((muExceeds_iff _ _).2 h)

/-- In Counting an exceeding sample counts on. -/
theorem muJudgeCounting_counts (h : (s.mu.params.impactThreshold * 128) ^ 2 < n) :
    muJudgeCounting n s
      = { s with
          mu.impactRun := s.mu.impactRun + 1, mu.impactPeak := max s.mu.impactPeak n
          mu.detector := if s.mu.params.persistence ≤ s.mu.impactRun + 1 then .declared else .counting } :=
  if_pos ((muExceeds_iff _ _).2 h)

/-- Any other abandons the run. -/
theorem muJudgeCounting_abandons (h : n ≤ (s.mu.params.impactThreshold * 128) ^ 2) :
    muJudgeCounting n s = { s with mu.detector := .armed, mu.impactRun := 0 } :=
  if_neg (by rw [muExceeds_iff]; omega)

/-- In Armed, and at or after the hold-off end, a sample is judged as in Armed (R30, R32). -/
theorem muJudgeImpact_armed (h : s.mu.detector = .armed ∨ (s.mu.detector = .holdOff ∧ s.mu.holdOffEnd ≤ tk)) :
    muJudgeImpact tk x s = muJudgeArmed tk (sampleSquare x) s := by
  unfold muJudgeImpact
  rcases h with h | ⟨h, he⟩
  · rw [h]
  · rw [h]
    exact if_neg (Nat.not_lt.2 he)

/-- Before the hold-off end a sample is not judged (R32). -/
theorem muJudgeImpact_held (h : s.mu.detector = .holdOff) (he : tk < s.mu.holdOffEnd) : muJudgeImpact tk x s = s := by
  unfold muJudgeImpact
  rw [h]
  exact if_pos he

/-- In Counting a sample is judged as of the run that counts (R30). -/
theorem muJudgeImpact_counting (h : s.mu.detector = .counting) :
    muJudgeImpact tk x s = muJudgeCounting (sampleSquare x) s := by
  unfold muJudgeImpact
  rw [h]

/-- In Declared an exceeding sample raises the peak. -/
theorem muJudgeImpact_raises (h : s.mu.detector = .declared)
    (he : (s.mu.params.impactThreshold * 128) ^ 2 < sampleSquare x) :
    muJudgeImpact tk x s = { s with mu.impactPeak := max s.mu.impactPeak (sampleSquare x) } := by
  unfold muJudgeImpact
  rw [h]
  exact if_pos ((muExceeds_iff _ _).2 he)

/-- The first that no longer exceeds ends the run (R31). -/
theorem muJudgeImpact_ends (h : s.mu.detector = .declared)
    (he : sampleSquare x ≤ (s.mu.params.impactThreshold * 128) ^ 2) : muJudgeImpact tk x s = muEndRun tk s := by
  unfold muJudgeImpact
  rw [h]
  exact if_neg (by rw [muExceeds_iff]; omega)

/-! ### The end of a run (R31, R32) -/

/-- The state at the end of a run, its impact counted and raised and its mark not yet posted. -/
def heldOff (n : Nat) (s : State) : State :=
  State.raise
    { s with
      mu.detector := .holdOff, mu.holdOffEnd := n + 1000 * s.mu.params.holdOff, mu.impactRun := 0, mu.impactPeak := 0
      mu.impacts := min (s.mu.impacts + 1) (2 ^ 32 - 1) } .impact

theorem heldOff_part (n : Nat) (s : State) : (heldOff n s).part = s.part := raise_part _ _

theorem heldOff_pu (n : Nat) (s : State) : (heldOff n s).pu = s.pu := raise_pu _ _

theorem heldOff_sm (n : Nat) (s : State) : (heldOff n s).sm = s.sm := raise_sm _ _

theorem heldOff_cw (n : Nat) (s : State) : (heldOff n s).cw = s.cw := raise_cw _ _

theorem heldOff_ga (n : Nat) (s : State) : (heldOff n s).ga = s.ga := raise_ga _ _

theorem heldOff_mu (n : Nat) (s : State) :
    (heldOff n s).mu.marks = s.mu.marks ∧ (heldOff n s).mu.missed = s.mu.missed ∧ (heldOff n s).mu.link = s.mu.link := by
  unfold heldOff
  rw [raise_mu]
  exact ⟨rfl, rfl, rfl⟩

/-- A run ends with no table in service: its mark goes nowhere. -/
theorem muEndRun_unserved (hu : Untracked s) (h : tableServes s.sm = false) : muEndRun n s = heldOff n s := by
  unfold muEndRun
  dsimp only
  rw [muPost_unserved _ (by exact h)]
  exact puImpact_untracked (s := heldOff n s) (by unfold Untracked; rw [heldOff_pu]; exact hu) _

/-- A run ends where marks are taken in, while a snapshot is being written: the Segment Manager acts on the mark (R99). -/
theorem muEndRun_served (hu : Untracked s) (ho : intakeOpen s = true) (hm : s.mu.marks = []) (hg : snapshotGoing s)
    (hf : lowestFree s.sm ≠ none) (hl : ImpactsLimited s) :
    MarkActed s.mu.impactFirst (heldOff n s) (muEndRun n s) := by
  have ha : MarkActed s.mu.impactFirst (heldOff n s)
      (actOnMark ⟨s.mu.impactFirst, isqrt s.mu.impactPeak / 128⟩ (heldOff n s)) :=
    actOnMark_acted (k := ⟨s.mu.impactFirst, isqrt s.mu.impactPeak / 128⟩) (s := heldOff n s)
      (by unfold ImpactsLimited; rw [heldOff_sm]; exact hl)
  have hs := ha.settles (by unfold snapshotGoing; rw [heldOff_sm]; exact hg) (by rw [heldOff_sm]; exact hf)
  have he : muEndRun n s = actOnMark ⟨s.mu.impactFirst, isqrt s.mu.impactPeak / 128⟩ (heldOff n s) := by
    unfold muEndRun
    dsimp only
    rw [muPost_served _ (by exact ho) (by exact hm)]
    refine (congrArg (puImpact _) hs).trans (puImpact_untracked ?_ _)
    unfold Untracked
    rw [ha.frame]
    show ∀ h ∈ (heldOff n s).pu.shadows, _
    rw [heldOff_pu]
    exact hu
  rw [he]
  exact ha

/-- The segments that a mark concerns are told by the writer's state and the table. -/
theorem targeted_congr (hc : t.cw = s.cw) (hs : t.sm = s.sm) (n k : Nat) : Targeted t n k ↔ Targeted s n k := by
  unfold Targeted
  rw [hc, hs]

/-! ### The burst whose sample is judged -/

/-- A calm state with a burst in flight whose sample is good and is taken in Tracking, bias tracking disabled. -/
structure Judging (s : State) (b : Burst) (tk : Nat) : Prop where
  calm : Calm s
  untracked : Untracked s
  tracking : s.mu.link = .tracking
  burst : takesBurst s.mu tk
  fresh : s.mu.lastCounter ≠ some (burstCounter b)
  unbiased : s.mu.params.biasEnable = false

/-- The state in which the detector judges the sample. -/
def judgedIn (s : State) (c : Stamp) (b : Burst) (tk : Nat) : State := { s.advance c.toNat with mu := tracked s b tk }

/-- The burst ends as the detector leaves it. -/
theorem Judging.ends (h : Judging s b tk) (hj : muJudgeImpact tk (burstSample b) (judgedIn s c b tk) = u)
    (hu : u.pu = s.pu) (hm : u.mu.missed = s.mu.missed) (hn : u.mu.link = s.mu.link) : bodySampleBurstDone c b s = u := by
  refine muBurstDone_tracked (s := s.advance c.toNat) h.burst h.fresh h.tracking ?_
    (by unfold Untracked; rw [hu]; exact h.untracked) (hm.trans h.burst.takes.noneMissed) (hn.trans h.tracking)
  exact (congrArg (muJudgeImpact tk (burstSample b))
    (muJudgeStill_disabled (s := judgedIn s c b tk) _ h.unbiased)).trans hj

/-- SAMPLE_BURST_DONE where the detector changes its own registers alone. -/
theorem Judging.burstDone {m : Mu} (h : Judging s b tk)
    (hj : muJudgeImpact tk (burstSample b) (judgedIn s c b tk) = { s.advance c.toNat with mu := m })
    (hm : m.missed = s.mu.missed) (hn : m.link = s.mu.link) (hk : m.marks = s.mu.marks) :
    exec (.sampleBurstDone c b) s = .next { s.advance c.toNat with mu := m } :=
  congrArg _ (h.calm.live_eq (h.ends hj rfl hm hn) h.calm.powered rfl rfl hk rfl)

/-- IMPACT_DECLARED stands for the burst whose sample brings the detector to Declared (log 5). -/
theorem Judging.declares {m : Mu} (h : Judging s b tk)
    (hj : muJudgeImpact tk (burstSample b) (judgedIn s c b tk) = { s.advance c.toNat with mu := m })
    (hm : m.missed = s.mu.missed) (hn : m.link = s.mu.link) (hk : m.marks = s.mu.marks)
    (h0 : s.mu.detector ≠ .declared) (h1 : m.detector = .declared) :
    exec (.sampleBurstDone c b) s = .next { s.advance c.toNat with mu := m }
      ∧ exec (.impactDeclared c b) s = .next { s.advance c.toNat with mu := m } := by
  have hb := h.ends hj rfl hm hn
  have hv : live (bodySampleBurstDone c b) s = { s.advance c.toNat with mu := m } :=
    h.calm.live_eq hb h.calm.powered rfl rfl hk rfl
  have hc : cameDeclared s (bodySampleBurstDone c b s) = true := by
    rw [hb]
    unfold cameDeclared
    simp [h0, h1]
  exact ⟨congrArg _ hv, congrArg _ ((derived_eq_live hc).trans hv)⟩

/-- In Declared a sample that no longer exceeds ends the run, with no table mounted. -/
theorem Judging.ends_unmounted (h : Judging s b tk) (hd : s.mu.detector = .declared)
    (he : sampleSquare (burstSample b) ≤ (s.mu.params.impactThreshold * 128) ^ 2) (ht : s.sm.table ≠ .mounted) :
    exec (.sampleBurstDone c b) s = .next (heldOff tk (judgedIn s c b tk)) := by
  have hs : tableServes (judgedIn s c b tk).sm = false := by
    show (decide (s.sm.table = .mounted) && s.sm.mount.isNone && s.sm.format.isNone) = false
    simp [ht]
  have hj := (muJudgeImpact_ends (s := judgedIn s c b tk) hd he).trans (muEndRun_unserved (n := tk) h.untracked hs)
  obtain ⟨hk, hm, hl⟩ := heldOff_mu tk (judgedIn s c b tk)
  refine congrArg _ (h.calm.live_eq (h.ends hj (heldOff_pu _ _) hm hl) ?_ (heldOff_ga _ _) (heldOff_cw _ _) hk
    (heldOff_sm _ _))
  rw [heldOff_part]
  exact h.calm.powered

/-- In Declared a sample that no longer exceeds ends the run, with the table mounted and a snapshot being written: the
Segment Manager acts on the mark (R99, R100). -/
theorem Judging.ends_mounted (h : Judging s b tk) (hd : s.mu.detector = .declared)
    (he : sampleSquare (burstSample b) ≤ (s.mu.params.impactThreshold * 128) ^ 2) (ht : s.sm.table = .mounted)
    (hc : s.sm.change = none) (hr : s.part.transition ≠ .reset) (hg : snapshotGoing s) (hf : lowestFree s.sm ≠ none)
    (hl : ImpactsLimited s) :
    ∃ u, exec (.sampleBurstDone c b) s = .next u ∧ u.mu.marks = []
      ∧ MarkActed s.mu.impactFirst (heldOff tk (judgedIn s c b tk)) u := by
  have ho : intakeOpen (judgedIn s c b tk) = true := by
    show (decide (s.sm.table = .mounted) && s.sm.mount.isNone && s.sm.format.isNone && s.sm.change.isNone
      && !decide (s.part.transition = .reset)) = true
    simp [ht, hc, hr, h.calm.noMount, h.calm.noFormat]
  have hx : MarkActed s.mu.impactFirst (heldOff tk (judgedIn s c b tk)) (muEndRun tk (judgedIn s c b tk)) :=
    muEndRun_served (s := judgedIn s c b tk) h.untracked ho h.calm.noMarks hg hf hl
  have hj := muJudgeImpact_ends (tk := tk) (s := judgedIn s c b tk) hd he
  generalize muEndRun tk (judgedIn s c b tk) = u at hx hj
  obtain ⟨hk, hm, hl⟩ := heldOff_mu tk (judgedIn s c b tk)
  have hmu : u.mu = (heldOff tk (judgedIn s c b tk)).mu := by rw [hx.frame]
  have hpart : u.part = s.part := by rw [hx.frame]; exact heldOff_part _ _
  have hpu : u.pu = s.pu := by rw [hx.frame]; exact heldOff_pu _ _
  have hga : u.ga = s.ga := by rw [hx.frame]; exact heldOff_ga _ _
  have hcw : u.cw = s.cw := by rw [hx.frame]; exact heldOff_cw _ _
  have hmount : u.sm.mount = none := by
    rw [hx.frame]
    exact (congrArg Sm.mount (heldOff_sm _ _)).trans h.calm.noMount
  have hformat : u.sm.format = none := by
    rw [hx.frame]
    exact (congrArg Sm.format (heldOff_sm _ _)).trans h.calm.noFormat
  have hcalm : Calm u :=
    ⟨h.calm.toStill.congr (by rw [hpart]; exact h.calm.powered) hga hcw (by rw [hmu]; exact hk), hmount, hformat⟩
  have hb := h.ends hj hpu (by rw [hmu]; exact hm) (by rw [hmu]; exact hl)
  exact ⟨u, congrArg _ (live_ends h.calm.powered hb hcalm.finish), hcalm.noMarks, hx⟩

/-- Settles O25, by the detector's state and the runs of samples, and the mark by whether a table is mounted. -/
theorem impactRun : Obligations.ImpactRun := by
  intro c b tk m2 s h hu hl ht hc hb hm2
  subst hm2
  have h : Judging s b tk := ⟨h, hu, hl, ht, hc, hb⟩
  refine ⟨fun hd => ⟨fun he hp => ?_, fun he hp => ?_, fun he => ?_⟩, fun hd he => ?_, fun hd he hp => ?_,
    fun hd he => ?_, fun hd he hp => ?_, fun hd he => ?_, fun hd he hn => ?_, fun hd he hn hg hr hs hf hi => ?_⟩
  · have hj := (muJudgeImpact_armed (s := judgedIn s c b tk) hd).trans (muJudgeArmed_begins he)
    rw [if_neg (by exact Nat.not_le.2 hp)] at hj
    exact h.burstDone hj rfl rfl rfl
  · have hj := (muJudgeImpact_armed (s := judgedIn s c b tk) hd).trans (muJudgeArmed_begins he)
    rw [if_pos (by exact hp)] at hj
    have hn : s.mu.detector ≠ .declared := by rcases hd with hd | ⟨hd, -⟩ <;> rw [hd] <;> decide
    obtain ⟨h1, h2⟩ := h.declares hj rfl rfl rfl hn rfl
    exact ⟨_, rfl, h1, h2⟩
  · exact h.burstDone ((muJudgeImpact_armed (s := judgedIn s c b tk) hd).trans (muJudgeArmed_under tk he)) rfl rfl rfl
  · exact h.burstDone (muJudgeImpact_held (s := judgedIn s c b tk) hd he) rfl rfl rfl
  · have hj := (muJudgeImpact_counting (tk := tk) (s := judgedIn s c b tk) hd).trans (muJudgeCounting_counts he)
    rw [if_neg (by exact Nat.not_le.2 hp), ← hd] at hj
    exact h.burstDone hj rfl rfl rfl
  · exact h.burstDone (muJudgeImpact_raises (s := judgedIn s c b tk) hd he) rfl rfl rfl
  · have hj := (muJudgeImpact_counting (tk := tk) (s := judgedIn s c b tk) hd).trans (muJudgeCounting_counts he)
    rw [if_pos (by exact hp)] at hj
    obtain ⟨h1, h2⟩ := h.declares hj rfl rfl rfl (by rw [hd]; decide) rfl
    exact ⟨_, rfl, h1, h2⟩
  · exact h.burstDone ((muJudgeImpact_counting (tk := tk) (s := judgedIn s c b tk) hd).trans (muJudgeCounting_abandons he))
      rfl rfl rfl
  · exact h.ends_unmounted hd he hn
  · obtain ⟨u, h1, h2, hx⟩ := h.ends_mounted (c := c) hd he hn hg hr hs hf hi
    have hsm : (heldOff tk (judgedIn s c b tk)).sm = s.sm := heldOff_sm _ _
    have hT := targeted_congr (s := s) (heldOff_cw tk (judgedIn s c b tk)) hsm
    obtain ⟨-, hlim, hbare, hprot, hwhole⟩ := hx
    simp only [hsm, hT] at hbare hprot hwhole
    exact ⟨u, h1, hlim, h2, hbare, hprot, hwhole⟩

end Sys2Proof.Machine
end

section
/-! The resets (R178, R180, R184): how a reset transition begins, what it clears, and what it leaves at its end. -/

namespace Sys2Proof.Machine

variable {s t : State}

/-! ### States in which nothing goes on -/

/-- Closed intake takes no mark (R99). -/
theorem smIntake_closed (h : intakeOpen s = false) : smIntake s = s := by
  unfold smIntake
  cases s.mu.marks with
  | nil => rfl
  | cons k rest => exact if_neg (by rw [h]; decide)

/-- In a reset transition nothing follows a command (R184). -/
theorem finish_resetting (ht : s.part.transition = .reset) (hg : s.ga.sysen = true) : finish s = s := by
  have hr : s.resetting = true := decide_eq_true ht
  exact finish_of hg (if_pos hr) (if_pos hr) (smIntake_closed (by unfold intakeOpen; rw [hr]; simp))

/-- A command that ends in a reset transition. -/
theorem live_resetting {f : State → State} (hp : s.part.state ≠ .off) (hf : f s = t) (ht : t.part.transition = .reset)
    (hg : t.ga.sysen = true) : live f s = t :=
  live_ends hp hf (finish_resetting ht hg)

/-- With the Segment Manager and the Clip Writer reset nothing follows a command, whatever marks wait (R99, R109, R132). -/
theorem finish_reset (hs : t.sm = Sm.reset) (hc : t.cw = Cw.reset) (hg : t.ga.sysen = true) : finish t = t := by
  have hw : cwRun t = t :=
    cwRun_none
      (cwStep_idle (by rw [hc]; rfl) (by rw [hc]; rfl) (by rw [hc]; rfl) (by rw [hc]; rfl)
        (by rw [hc]; exact Nat.zero_lt_succ _) (by rw [hc]; decide))
      (cwPublish_empty (by rw [hc]; rfl))
  exact finish_of hg (smGoOn_idle (by rw [hs]; rfl) (by rw [hs]; rfl)) hw
    (smIntake_closed (by unfold intakeOpen; rw [hs]; rfl))

/-! ### A reset transition begins (R184) -/

/-- The part leaves Running or Mounting (R18, R23). -/
theorem muLeave_eq (s : State) : muLeave s = { s with mu := leftMotion s.mu } := by
  unfold muLeave leftMotion
  split
  · rfl
  · split <;> rfl

/-- A reset transition begins: the sample timer stops, the filter goes Off, the IMU link is left, and a profile read in
progress ends with nothing handed (R4, R8, R174). -/
theorem beginReset_eq (s : State) :
    beginReset s
      = { s with
          part.state := .idle, part.transition := .reset, rck := leftClock s.rck, mu := leftMotion s.mu
          hp.reading := none } :=
  muLeave_eq _

/-- RESETn in a part state that is neither Starting nor Halted (R184). -/
theorem bodyResetn_transition (u : Stamp) (low : Bool) (h1 : s.part.state ≠ .starting) (h2 : s.part.state ≠ .halted) :
    bodyResetn u low s
      = (if s.resetting then id else beginReset)
          { clearRegisters (s.advance u.toNat) with part.resetnLow := low, part.byResetn := true } := by
  unfold bodyResetn
  dsimp only
  split
  · next h => exact absurd h h1
  · next h => exact absurd h h2
  · show (if s.resetting then _ else _) = _
    split <;> rfl

/-- RESETn in Starting and Halted resets the Host Port alone (R178). -/
theorem bodyResetn_hostOnly (u : Stamp) (low : Bool) (h : s.part.state = .starting ∨ s.part.state = .halted) :
    bodyResetn u low s
      = { s.advance u.toNat with part.resetnLow := low, hp := { Hp.reset with data := s.hp.data } } := by
  unfold bodyResetn
  dsimp only
  split
  · rfl
  · rfl
  · next h1 h2 => exact (h.elim h1 h2).elim

/-- A Reset command that is not refused begins a reset transition (R169, R184). -/
theorem exec_reset (u : Stamp) (hp : s.part.state = .idle ∨ s.part.state = .mounting ∨ s.part.state = .running)
    (ht : s.part.transition ≠ .reset) : exec (.reset u) s = .next (finish (beginReset (s.advance u.toNat))) := by
  have hr : s.resetting = false := decide_eq_false ht
  have ha : portAccess u false s = s.advance u.toNat := if_neg fun c => by
    have hs : s.part.state = .standby := c.1
    rw [hs] at hp
    rcases hp with hp | hp | hp <;> cases hp
  have hj : judgeCommand ((4 : Word).toNat % 8) .first (s.advance u.toNat) = (false, beginReset (s.advance u.toNat)) :=
    congrArg (Prod.mk false) (if_pos ⟨hp, by show (!s.resetting) = true; rw [hr]; rfl⟩)
  have hc : controlWrite 4 .first (s.advance u.toNat) = beginReset (s.advance u.toNat) := by
    have h8 : (4 : Word).getLsbD 8 = false := rfl
    have h9 : (4 : Word).getLsbD 9 = false := rfl
    unfold controlWrite
    simp only [hj, h8, h9, Bool.false_eq_true, false_and, if_false]
  have hl : live (bodyRegister u 0 4 .first) s = finish (beginReset (s.advance u.toNat)) := by
    unfold live bodyRegister
    rw [if_neg (by rcases hp with hp | hp | hp <;> rw [hp] <;> decide), ha]
    exact congrArg finish hc
  exact congrArg _ hl

/-- Settles O7: RESETn by the part state, and the Reset command. -/
theorem resetsBegin : Obligations.ResetsBegin := by
  intro u low s
  refine ⟨fun h hp => ?_, fun hg hp ht => ?_, fun hg hp ht => ?_, fun hg hp ht => ?_⟩
  · refine congrArg _ (h.live_eq (bodyResetn_hostOnly u low hp) ?_ rfl rfl rfl rfl)
    exact h.powered
  · have hr : s.resetting = false := decide_eq_false ht
    have hb := bodyResetn_transition (s := s) u low (by rcases hp with hp | hp | hp | hp <;> rw [hp] <;> decide)
      (by rcases hp with hp | hp | hp | hp <;> rw [hp] <;> decide)
    rw [hr] at hb
    have hb := hb.trans (beginReset_eq _)
    refine congrArg _ (live_resetting ?_ hb rfl hg)
    rcases hp with hp | hp | hp | hp <;> rw [hp] <;> decide
  · have hr : s.resetting = true := decide_eq_true ht
    have hb := bodyResetn_transition (s := s) u low (by rw [hp]; decide) (by rw [hp]; decide)
    rw [hr] at hb
    exact congrArg _ (live_resetting (by rw [hp]; decide) hb ht hg)
  · rw [exec_reset u hp ht, beginReset_eq]
    exact congrArg _ (finish_resetting rfl hg)

/-! ### A reset transition ends (R184) -/

/-- The state that the end of a reset transition leaves, before a loss of the reference is looked at. -/
def afterReset (s : State) (n : Nat) : State :=
  { s.advance n with
    part.transition := .none, part.resetnLow := false, part.byResetn := false
    mu := resetMotion s.mu, pu := Pu.reset, sm := Sm.reset, cw := Cw.reset, fe := resetFlash s.fe
    hp := resetHost s.part.byResetn s.hp }

/-- The Host Port keeps its registers or not (R178). -/
theorem hpAfterReset_eq (b : Bool) (h : Hp) : hpAfterReset b h = resetHost b h := by
  cases b <;> rfl

/-- What the blocks outside the always-on domain are after a reset. -/
theorem resetBlocks_eq (b : Bool) (s : State) :
    resetBlocks b s
      = { s with
          mu := resetMotion s.mu, pu := Pu.reset, sm := Sm.reset, cw := Cw.reset, fe := resetFlash s.fe
          hp := resetHost b s.hp } := by
  unfold resetBlocks muReset resetMotion
  rw [hpAfterReset_eq]
  dsimp only
  split <;> rfl

/-- With no cutoff sequence in progress the Gauge's check releases nothing (R162). -/
theorem gaCheck_none (h : s.ga.grace = none) : gaCheck s = s := by
  unfold gaCheck
  rw [h]
  rfl

/-- The blocks are reset and the Gauge has checked; a loss of the reference halts the part (R180). -/
theorem endReset_of (h : gaCheck { resetBlocks s.part.byResetn s with part.byResetn := false } = t) :
    endReset s = if t.part.haltAfter then enterHalted .clockLoss t else { t with part.transition := .none } := by
  subst h
  rfl

/-- A reset transition ends, with no flash operation in flight (R180, R184). -/
theorem bodyResetTransitionEnd_ends (u : Stamp) (ht : s.part.transition = .reset) (hf : s.fe.inFlight = none)
    (hg : s.ga.grace = none) :
    bodyResetTransitionEnd u s
      = if s.part.haltAfter then enterHalted .clockLoss { afterReset s u.toNat with part.transition := .reset }
        else afterReset s u.toNat := by
  have hb : bodyResetTransitionEnd u s = endReset { s.advance u.toNat with part.resetnLow := false } :=
    (if_pos (decide_eq_true ht)).trans (if_pos hf)
  have hk : gaCheck { resetBlocks s.part.byResetn { s.advance u.toNat with part.resetnLow := false } with
        part.byResetn := false } = { afterReset s u.toNat with part.transition := .reset } := by
    rw [resetBlocks_eq, gaCheck_none (by exact hg), ← ht]
    rfl
  exact hb.trans (endReset_of hk)

/-- While a flash operation is in flight the transition waits (R184, log 6). -/
theorem bodyResetTransitionEnd_waits (u : Stamp) (ht : s.part.transition = .reset) (hf : s.fe.inFlight ≠ none) :
    bodyResetTransitionEnd u s = s.advance u.toNat :=
  (if_pos (decide_eq_true ht)).trans (if_neg hf)

/-- Settles O8: with an operation in flight, and with none, after a loss of the reference or not. -/
theorem resetTransitionEnds : Obligations.ResetTransitionEnds := by
  intro u s hg ht hp
  have hon : s.part.state ≠ .off := by rw [hp]; decide
  refine ⟨fun hf => ?_, fun hf hn => ⟨afterReset s u.toNat, rfl, fun hh => ?_, fun hh => ?_⟩⟩
  · exact congrArg _ (live_resetting hon (bodyResetTransitionEnd_waits u ht hf) ht hg)
  · have hb := bodyResetTransitionEnd_ends u ht hf hn
    rw [hh] at hb
    exact congrArg _ (live_ends hon hb (finish_reset rfl rfl hg))
  · have hb := bodyResetTransitionEnd_ends u ht hf hn
    rw [hh] at hb
    refine congrArg Host.Outcome.next (live_ends hon hb ?_)
    exact finish_reset (raise_sm _ _) (raise_cw _ _) ((congrArg Ga.sysen (raise_ga _ _)).trans hg)

end Sys2Proof.Machine
end

section
/-! What the Path Unit's work on frames already open leaves as it was: all but its own state and the Buffer RAM, and the
limits of the crop records (R53). -/

namespace Sys2Proof.Machine

variable {s₀ s t : State} {i : Nat}

/-! ### Limits (R53) -/

/-- A value at or within its limit is kept, and one beyond it is set to the limit with its sign. -/
theorem limited_eq (l : Nat) (v : Int) : limited l v = if l < v.natAbs then v.sign * l else v := by
  unfold limited clampInt
  rcases lt_trichotomy v 0 with h | rfl | h
  · rw [Int.sign_eq_neg_one_of_neg h]
    split <;> omega
  · simp
  · rw [Int.sign_eq_one_of_pos h]
    split <;> omega

theorem limited_natAbs_le (l : Nat) (v : Int) : (limited l v).natAbs ≤ l := by
  unfold limited clampInt
  omega

/-- A record's offsets and roll are at or within their limits. -/
structure Shadow.Within (x : Shadow) (q : PuParams) : Prop where
  x16 : x.x16.natAbs ≤ 16 * q.marginX
  y16 : x.y16.natAbs ≤ 16 * q.marginY
  roll : x.roll.natAbs ≤ q.rollMax

/-- A frame with no path has a crop record of zeros (R45, R54). -/
theorem shadowCrop_pathless {p : Pu} {x : Shadow} (h : x.path = none) : shadowCrop p x = zeroCrop := by
  unfold shadowCrop
  rw [h]

/-- A frame with a path has the crop record of its window (R50). -/
theorem shadowCrop_path {p : Pu} {x : Shadow} {path : Nat} (h : x.path = some path) :
    shadowCrop p x = cropOf p.params (windowOf p x.frame path) x.theta := by
  unfold shadowCrop
  rw [h]

theorem finalShadow_within (p : Pu) (edge : Bool) (x : Shadow) : (finalShadow p edge x).Within p.params := by
  suffices h : (shadowCrop p x).x16.natAbs ≤ 16 * p.params.marginX ∧ (shadowCrop p x).y16.natAbs ≤ 16 * p.params.marginY
      ∧ (shadowCrop p x).roll.natAbs ≤ p.params.rollMax from ⟨h.1, h.2.1, h.2.2⟩
  cases hp : x.path with
  | none =>
    rw [shadowCrop_pathless hp]
    exact ⟨Nat.zero_le _, Nat.zero_le _, Nat.zero_le _⟩
  | some path =>
    rw [shadowCrop_path hp]
    exact ⟨limited_natAbs_le _ _, limited_natAbs_le _ _, limited_natAbs_le _ _⟩

/-! ### Work on open frames -/

/-- The record of an entry that is Final or Held obeys the limits in force. -/
def Limited (s : State) (i : Nat) : Prop :=
  ∀ x, s.pu.shadows[i]? = some x → x.state = .final ∨ x.held = true → x.Within s.pu.params

/-- A change of the Path Unit's own state and of the Buffer RAM, that keeps the path parameters and the limits of the
records. -/
structure PathWork (s t : State) : Prop where
  rest : t = { s with pu := t.pu, mem := t.mem }
  params : t.pu.params = s.pu.params
  limits : ∀ i, Limited s i → Limited t i

theorem PathWork.refl (s : State) : PathWork s s := ⟨rfl, rfl, fun _ => id⟩

theorem PathWork.trans (h : PathWork s₀ s) (k : PathWork s t) : PathWork s₀ t where
  rest := by rw [k.rest, h.rest]
  params := k.params.trans h.params
  limits i l := k.limits i (h.limits i l)

theorem PathWork.part (h : PathWork s t) : t.part = s.part := by rw [h.rest]

theorem PathWork.mu (h : PathWork s t) : t.mu = s.mu := by rw [h.rest]

theorem PathWork.sm (h : PathWork s t) : t.sm = s.sm := by rw [h.rest]

theorem PathWork.cw (h : PathWork s t) : t.cw = s.cw := by rw [h.rest]

theorem PathWork.ga (h : PathWork s t) : t.ga = s.ga := by rw [h.rest]

/-- The counters and the path number move. -/
theorem PathWork.counts (h : PathWork s₀ s) {p : Pu} (hs : p.shadows = s.pu.shadows) (hp : p.params = s.pu.params) :
    PathWork s₀ { s with pu := p } :=
  h.trans ⟨rfl, hp, fun i l x hx => by rw [hs] at hx; rw [hp]; exact l x hx⟩

theorem PathWork.store (h : PathWork s₀ s) (a : Nat) (bytes : List Byte) : PathWork s₀ (s.store a bytes) :=
  h.trans ⟨rfl, rfl, fun _ => id⟩

/-- The shadow of one entry changes. -/
theorem PathWork.modify (h : PathWork s₀ s) {f : Shadow → Shadow}
    (hf : ∀ x, s.pu.shadows[i]? = some x → (x.state = .final ∨ x.held = true → x.Within s.pu.params) →
      (f x).state = .final ∨ (f x).held = true → (f x).Within s.pu.params) : PathWork s₀ (puModify i f s) := by
  refine h.trans ⟨rfl, rfl, fun j l x hx => ?_⟩
  rw [puModify, modifyAt_get] at hx
  split at hx
  · subst i
    obtain ⟨y, hy, rfl⟩ := Option.map_eq_some_iff.1 hx
    exact hf y hy (l y hy)
  · exact l x hx

/-- A change of a shadow that makes nothing Final and leaves its record's offsets and roll. -/
theorem PathWork.note (h : PathWork s₀ s) {f : Shadow → Shadow}
    (hf : ∀ x, ((f x).state = .final ∨ (f x).held = true → x.state = .final ∨ x.held = true)
      ∧ (f x).x16 = x.x16 ∧ (f x).y16 = x.y16 ∧ (f x).roll = x.roll) : PathWork s₀ (puModify i f s) :=
  h.modify fun x _ hx hd => by
    obtain ⟨he, ex, ey, er⟩ := hf x
    obtain ⟨wx, wy, wr⟩ := hx (he hd)
    exact ⟨ex ▸ wx, ey ▸ wy, er ▸ wr⟩

theorem PathWork.foldl {α : Type} {f : State → α → State} (hf : ∀ {u}, PathWork s₀ u → ∀ a, PathWork s₀ (f u a))
    (l : List α) (h : PathWork s₀ s) : PathWork s₀ (l.foldl f s) := by
  induction l generalizing s with
  | nil => exact h
  | cons a l ih => exact ih (hf h a)

theorem puStore_work (h : PathWork s₀ s) (i : Nat) (groups : List (Nat × List Byte)) :
    PathWork s₀ (puStore i groups s) := by
  unfold puStore
  split
  · exact h
  · exact (PathWork.foldl (fun h g => h.store _ g.2) groups h).store _ _

theorem puStoreLive_work (h : PathWork s₀ s) (i : Nat) (groups : List (Nat × List Byte)) :
    PathWork s₀ (puStoreLive i groups s) := by
  unfold puStoreLive
  split
  · exact h
  · exact puStore_work h _ _

/-- The scan recycles only an entry that was Final (R55, R56). -/
theorem puScanEntry_work (h : PathWork s₀ s) (i : Nat) : PathWork s₀ (puScanEntry i s) := by
  unfold puScanEntry
  dsimp only
  split
  · next hfinal =>
    split
    · refine puStore_work (h.modify fun x hx hw _ => ?_) _ _
      rw [shadow_get hx] at hfinal
      obtain ⟨wx, wy, wr⟩ := hw (.inl hfinal.1)
      exact ⟨wx, wy, wr⟩
    · exact h
  · exact h

theorem puFinalShadow_work (h : PathWork s₀ s) (i : Nat) (edge : Bool) : PathWork s₀ (puFinalShadow i edge s) := by
  have hw := finalShadow_within s.pu edge (s.pu.shadow i)
  exact (h.counts (p := { s.pu with
    clamps := if isClamped (finalShadow s.pu edge (s.pu.shadow i)).flags then satInc s.pu.clamps else s.pu.clamps
    gaps := if hasFlag (finalShadow s.pu edge (s.pu.shadow i)).flags .gap then satInc s.pu.gaps else s.pu.gaps })
    rfl rfl).modify fun _ _ _ _ => hw

theorem puFinalize_work (h : PathWork s₀ s) (i : Nat) (edge : Bool) : PathWork s₀ (puFinalize i edge s) :=
  puScanEntry_work (puStore_work (puFinalShadow_work h i edge) _ _) _

/-- A path break (R48). -/
theorem puBreak_work (h : PathWork s₀ s) : PathWork s₀ (puBreak s) :=
  (PathWork.foldl (fun h i => puFinalize_work h i false) _ h).counts rfl rfl

theorem measuredShadow_keeps (p : Pu) (d : Delivery) (x : Shadow) :
    (measuredShadow p d x).state = .measured ∧ (measuredShadow p d x).held = x.held
      ∧ (measuredShadow p d x).x16 = x.x16 ∧ (measuredShadow p d x).y16 = x.y16
      ∧ (measuredShadow p d x).roll = x.roll := by
  unfold measuredShadow
  split <;> exact ⟨rfl, rfl, rfl, rfl, rfl⟩

theorem puMeasureEntry_work (h : PathWork s₀ s) (d : Delivery) (i : Nat) : PathWork s₀ (puMeasureEntry d i s) := by
  refine puStore_work (h.note fun x => ?_) _ _
  obtain ⟨hs, hh, hrecord⟩ := measuredShadow_keeps s.pu d x
  exact ⟨fun c => .inr (hh ▸ c.resolve_left (by rw [hs]; nofun)), hrecord⟩

theorem puAttribute_work (h : PathWork s₀ s) (d : Delivery) : PathWork s₀ (puAttribute d s) := by
  unfold puAttribute
  split
  · split
    · exact h
    · exact (h.counts (by rfl) (by rfl)).note fun _ => ⟨by exact id, by rfl, by rfl, by rfl⟩
  · exact h

/-- The measurement pass of one delivery (R44). -/
theorem puPass_work (h : PathWork s₀ s) (d : Delivery) : PathWork s₀ (puPass d s) :=
  PathWork.foldl (fun h i => puFinalize_work h i false) _
    (puAttribute_work (PathWork.foldl (fun h i => puMeasureEntry_work h d i) _ h) d)

/-- The frames below the first of a Media request (R58). -/
theorem puSkipBelow_work (h : PathWork s₀ s) (first : Nat) : PathWork s₀ (puSkipBelow first s) :=
  PathWork.foldl (fun h i => puScanEntry_work (h.note fun _ => ⟨by exact id, by rfl, by rfl, by rfl⟩) i) _ h

/-- A query (R57). -/
theorem puQuery_work (h : PathWork s₀ s) (m segment : Nat) : PathWork s₀ (puQuery m segment s).2 := by
  unfold puQuery
  dsimp only
  split
  · exact puScanEntry_work (puStoreLive_work (h.note fun _ => ⟨by exact id, by rfl, by rfl, by rfl⟩) _ _) _
  · exact h

/-- A command of a calm state whose end is the Path Unit's work ends with that work. -/
theorem Calm.live_work {f : State → State} {v : State} (h : Calm s) (hf : PathWork v (f s)) (hp : v.part = s.part)
    (hg : v.ga = s.ga) (hc : v.cw = s.cw) (hm : v.mu.marks = s.mu.marks) (hs : v.sm = s.sm) : live f s = f s :=
  h.live_eq rfl (by rw [hf.part, hp]; exact h.powered) (hf.ga.trans hg) (hf.cw.trans hc) (by rw [hf.mu]; exact hm)
    (hf.sm.trans hs)

end Sys2Proof.Machine
end

section
/-! The crop record's limits (R50, R53), and the good sample of Tracking that the Motion Unit delivers to the Path Unit
(R29). -/

namespace Sys2Proof.Machine

variable {s : State} {b : Burst} {tk i : Nat}

/-! ### Flags of a frame (Table 11-7) -/

theorem hasFlag_setFlag (f : BitVec 16) (a c : FrameFlag) : hasFlag (setFlag f a) c = (hasFlag f c || decide (c = a)) := by
  have hbit : ((1 <<< flagBit a : BitVec 16)).getLsbD (flagBit c) = decide (c = a) := by
    cases a <;> cases c <;> rfl
  unfold hasFlag setFlag
  rw [BitVec.getLsbD_or, hbit]

theorem hasFlag_setFlagIf (f : BitVec 16) (on : Bool) (a c : FrameFlag) :
    hasFlag (setFlagIf f on a) c = (hasFlag f c || (on && decide (c = a))) := by
  cases on
  · simp [setFlagIf]
  · simp [setFlagIf, hasFlag_setFlag]

/-- The flags of a frame made Final are those it had, with its crop record's (R53). -/
theorem finalShadow_flags (p : Pu) (edge : Bool) (x : Shadow) :
    hasFlag (finalShadow p edge x).flags .clampedX = (hasFlag x.flags .clampedX || (shadowCrop p x).clampX)
    ∧ hasFlag (finalShadow p edge x).flags .clampedY = (hasFlag x.flags .clampedY || (shadowCrop p x).clampY)
    ∧ hasFlag (finalShadow p edge x).flags .clampedRoll
        = (hasFlag x.flags .clampedRoll || (shadowCrop p x).clampRoll) := by
  simp [finalShadow, cropFlags, hasFlag_setFlagIf]

/-! ### The delivery of a good sample -/

/-- In Tracking, with the bias held and no impact, the burst's end leaves the Motion Unit with the sample integrated, and is
delivered to the Path Unit (R18, R27, R29). -/
theorem muBurstDone_delivers (ht : takesBurst s.mu tk) (hc : s.mu.lastCounter ≠ some (burstCounter b))
    (hl : s.mu.link = .tracking) (hb : s.mu.params.biasEnable = false) (hi : noImpact s.mu b) :
    muBurstDone b s
      = puPass ⟨tk, .tracking, some (tracked s b tk).acc, .good, (muIntegrate tk (burstSample b).gyro s).1⟩
          { s with mu := tracked s b tk } := by
  have hw := puPass_work (PathWork.refl { s with mu := tracked s b tk })
    ⟨tk, .tracking, some (tracked s b tk).acc, .good, (muIntegrate tk (burstSample b).gyro s).1⟩
  refine muBurstDone_sample ht ?_ (by rw [hw.mu]; exact ht.takes.noneMissed)
    (by rw [hw.mu]; show s.mu.link ≠ _; rw [hl]; decide)
  have hg := muLinkGood_tracking (s := { s with
    mu.txn := none, mu.lastCounter := some (burstCounter b), mu.lastGood := some (burstSample b) }) hl
  have hj : muJudgeImpact tk (burstSample b) (muJudgeStill (burstSample b).gyro { s with mu := tracked s b tk })
      = { s with mu := tracked s b tk } := by
    rw [muJudgeStill_disabled _ (by exact hb)]
    exact muJudgeImpact_none tk (by exact hi)
  rw [burstResult_good hc]
  unfold muSample muGood
  simp only [hg, if_pos hl]
  refine (congrArg (fun v : State => puPass ⟨tk, v.mu.link, some v.mu.acc, .good, _⟩ v) hj).trans ?_
  exact congrArg (fun l => puPass ⟨tk, l, _, _, _⟩ _) hl

/-- SAMPLE_BURST_DONE delivers so, once the clock has come to its time. -/
theorem bodySampleBurstDone_delivers (n : Stamp) (ht : takesBurst s.mu tk) (hc : s.mu.lastCounter ≠ some (burstCounter b))
    (hl : s.mu.link = .tracking) (hb : s.mu.params.biasEnable = false) (hi : noImpact s.mu b) :
    bodySampleBurstDone n b s
      = puPass ⟨tk, .tracking, some (tracked s b tk).acc, .good, (muIntegrate tk (burstSample b).gyro s).1⟩
          { s.advance n.toNat with mu := tracked s b tk } :=
  muBurstDone_delivers (s := s.advance n.toNat) ht hc hl hb hi

/-! ### Frames made Final -/

/-- SILENCE_EXPIRY is the Path Unit's work, once the clock has come to the expiry (R12, R48). -/
theorem bodySilenceExpiry_work (s : State) : ∃ r, PathWork { s with rck := r } (bodySilenceExpiry s) := by
  unfold bodySilenceExpiry
  cases s.rck.silence with
  | none => exact ⟨s.rck, PathWork.refl s⟩
  | some e => exact ⟨_, puBreak_work (PathWork.refl _)⟩

/-- A frame that was open, and is Final after a command that is the Path Unit's work, obeys the limits (R53). -/
theorem Calm.live_within {f : State → State} {r : Rck} {m : Mu} {x y : Shadow} (h : Calm s)
    (hw : PathWork { s with rck := r, mu := m } (f s)) (hm : m.marks = s.mu.marks) (hx : s.pu.shadows[i]? = some x)
    (hstate : x.state = .captured ∨ x.state = .measured) (hheld : x.held = false)
    (hy : (live f s).pu.shadows[i]? = some y) (hdone : y.state = .final ∨ y.held = true) : y.Within s.pu.params := by
  have hopen : Limited { s with rck := r, mu := m } i := fun z hz hd => by
    obtain rfl : x = z := Option.some.inj (hx.symm.trans hz)
    rcases hd with hd | hd
    · rcases hstate with hs | hs <;> rw [hs] at hd <;> cases hd
    · rw [hheld] at hd
      cases hd
  rw [h.live_work hw rfl rfl rfl hm rfl] at hy
  exact hw.params ▸ hw.limits i hopen y hy hdone

/-- Settles O34: the limits by the clamp, the flags bit by bit, and the frames made Final by what every piece of the Path
Unit's work keeps. -/
theorem cropWithinMargins : Obligations.CropWithinMargins := by
  refine ⟨fun q w theta x y r hx hy hr => ?_, fun p edge h path c hp hc => ?_, fun p edge h => ?_,
    fun c n b tk i h g s u hs hcase hi hstate hheld hexec hg hdone => ?_⟩
  · subst hx hy hr
    exact ⟨_, rfl, limited_eq _ _, limited_eq _ _, limited_eq _ _, rfl, rfl, rfl⟩
  · rw [hc, ← shadowCrop_path hp]
    exact ⟨rfl, rfl, rfl, finalShadow_flags p edge h⟩
  · obtain ⟨hx, hy, hr⟩ := finalShadow_within p edge h
    refine ⟨hx, hy, hr, fun hp => ?_⟩
    unfold finalShadow
    rw [shadowCrop_pathless hp]
    exact ⟨rfl, rfl, rfl⟩
  · suffices hw : g.Within s.pu.params from ⟨hw.x16, hw.y16, hw.roll⟩
    rcases hcase with rfl | ⟨rfl, hl, ht, hcount, himpact, hbias⟩
    · obtain ⟨r, hw⟩ := bodySilenceExpiry_work s
      rw [← Host.Outcome.next.inj hexec] at hg
      exact hs.live_within (m := s.mu) hw rfl hi hstate hheld hg hdone
    · have hw : PathWork { s.advance n.toNat with mu := tracked s b tk } (bodySampleBurstDone n b s) := by
        rw [bodySampleBurstDone_delivers n ht hcount hl hbias himpact]
        exact puPass_work (PathWork.refl _) _
      rw [← Host.Outcome.next.inj hexec] at hg
      exact hs.live_within hw rfl hi hstate hheld hg hdone

end Sys2Proof.Machine
end

section
/-! The measurement of the one frame open (R44 to R46): what a delivery makes of its shadow, in Tracking and outside it. -/

namespace Sys2Proof.Machine

variable {s : State} {h : Shadow} {b : Burst} {d : Delivery} {tk i : Nat}

/-! ### The one frame open -/

/-- Entry `i` holds this shadow, and no other entry a tenant, live or Held. -/
structure Alone (s : State) (i : Nat) (h : Shadow) : Prop where
  here : s.pu.shadows[i]? = some h
  others : ∀ j, j ≠ i → (s.pu.shadow j).state = .free ∧ (s.pu.shadow j).held = false

theorem Alone.shadow (a : Alone s i h) : s.pu.shadow i = h := shadow_get a.here

theorem Alone.absent (a : Alone s i h) {j : Nat} (hj : j ≠ i) : (s.pu.shadow j).present = false := by
  obtain ⟨hstate, hheld⟩ := a.others j hj
  simp [Shadow.present, hstate, hheld]

/-- A test that only a tenant passes finds that entry or none. -/
theorem Alone.entries (a : Alone s i h) {test : Shadow → Bool} (ht : ∀ x, test x = true → x.present = true) :
    entriesByFrame s.pu test = if test h then [i] else [] := by
  have hmem : ∀ j, j ∈ entriesByFrame s.pu test ↔ j = i ∧ test h = true := fun j => by
    rw [show j ∈ entriesByFrame s.pu test ↔ j ∈ indicesWhere test s.pu.shadows from (sortBy_perm _ _).mem_iff]
    refine ⟨fun hj => ?_, fun ⟨hj, hh⟩ => ?_⟩
    · obtain ⟨x, hx, hp⟩ := mem_indicesWhere hj
      rw [← shadow_get hx] at hp
      by_cases hji : j = i
      · subst hji
        exact ⟨rfl, a.shadow ▸ hp⟩
      · exact absurd (ht _ hp) (by rw [a.absent hji]; decide)
    · subst hj
      exact indicesWhere_mem a.here hh
  split
  · next hh =>
    refine List.perm_singleton.1 ((List.perm_ext_iff_of_nodup (entriesByFrame_nodup _ _) (List.nodup_singleton i)).2 ?_)
    exact fun j => by rw [hmem, List.mem_singleton]; exact ⟨And.left, fun e => ⟨e, hh⟩⟩
  · next hh => exact List.eq_nil_iff_forall_not_mem.2 fun j hj => hh ((hmem j).1 hj).2

/-- The frame open keeps its entry for itself. -/
theorem Alone.withShadow (a : Alone s i h) (x : Shadow) : Alone (s.withShadow i x) i x := by
  have hlen : i < s.pu.shadows.length := (List.getElem?_eq_some_iff.1 a.here).1
  have hget : ∀ j, (s.withShadow i x).pu.shadow j = if j = i then x else s.pu.shadow j := fun j => by
    unfold Pu.shadow State.withShadow
    simp only [List.getD_eq_getElem?_getD, List.getElem?_set, eq_comm (a := i)]
    by_cases hj : j = i
    · simp [hj, hlen]
    · simp [hj]
  exact ⟨by simp [State.withShadow, hlen],
    fun j hj => by rw [hget, if_neg hj]; exact a.others j hj⟩

theorem Alone.same (a : Alone s i h) : s.withShadow i h = s := by
  have hs : s.pu.shadows.set i h = s.pu.shadows := by
    obtain ⟨hlen, hx⟩ := List.getElem?_eq_some_iff.1 a.here
    rw [← hx, List.set_getElem_self]
  unfold State.withShadow
  rw [hs]

theorem Alone.modify (a : Alone s i h) (f : Shadow → Shadow) : puModify i f s = s.withShadow i (f h) := by
  unfold puModify State.withShadow
  rw [modifyAt_set a.here]

/-! ### A delivery (R44) -/

/-- With no table in the Buffer RAM no record is written (R37). -/
theorem puStore_tableless (ht : s.pu.table = none) (groups : List (Nat × List Byte)) : puStore i groups s = s := by
  unfold puStore recordAt
  rw [ht]
  rfl

/-- The shadow of a frame that this delivery finds due (R44). -/
def dueShadow (p : Pu) (d : Delivery) (h : Shadow) : Shadow :=
  if h.state = .captured ∧ h.reference ≤ (d.time : Int) then measuredShadow p d h else h

/-- The shadow of a frame to which this delivery is attributed, if its interval has begun (R46). -/
def countedShadow (d : Delivery) (h : Shadow) : Shadow :=
  { h with samples := if h.capture ≤ d.time then min (h.samples + 1) 65535 else h.samples }

/-- The measurement of the frames due is of this frame alone. -/
theorem Alone.measures (a : Alone s i h) (ht : s.pu.table = none) (d : Delivery) :
    (entriesByFrame s.pu fun h => decide (h.state = .captured) && decide (h.reference ≤ (d.time : Int))).foldl
        (fun s i => puMeasureEntry d i s) s
      = s.withShadow i (dueShadow s.pu d h) := by
  rw [a.entries fun x hx => by
    have hc : x.state = .captured := by simpa using (Bool.and_eq_true_iff.1 hx).1
    simp [Shadow.present, hc]]
  unfold dueShadow
  by_cases hc : h.state = .captured ∧ h.reference ≤ (d.time : Int)
  · rw [if_pos hc, if_pos (by simpa using hc), List.foldl_cons, List.foldl_nil]
    unfold puMeasureEntry
    rw [a.modify]
    exact puStore_tableless (by exact ht) _
  · rw [if_neg hc, if_neg (by simpa using hc), List.foldl_nil, a.same]

/-- A good sample of Tracking that saturates nothing is counted for this frame (R46). -/
theorem Alone.counts (a : Alone s i h) (hp : h.present = true) (hl : d.link = .tracking) (hk : d.kind = .good)
    (hs : d.saturated = false) : puAttribute d s = s.withShadow i (countedShadow d h) := by
  have he : intervalEntry s.pu d.time = if h.capture ≤ d.time then some i else none := by
    unfold intervalEntry
    rw [a.entries fun x hx => (Bool.and_eq_true_iff.1 hx).1]
    by_cases hc : h.capture ≤ d.time <;> simp [hp, hc]
  unfold puAttribute countedShadow
  rw [if_pos hl, he]
  by_cases hc : h.capture ≤ d.time
  · simp only [if_pos hc, a.shadow, hk, hs]
    exact a.modify fun x => { x with samples := min (h.samples + 1) 65535, flags := h.flags }
  · simp only [if_neg hc, a.same]

/-- With look-ahead a frame alone is not yet to be made Final (R50). -/
theorem Alone.waits (a : Alone s i h) (hl : 0 < s.pu.params.lookAhead) : entriesByFrame s.pu (eligible s.pu) = [] := by
  have hmeasured : ∀ x, eligible s.pu x = true → x.state = .measured := fun x hx => by
    simpa using (Bool.and_eq_true_iff.1 hx).1
  rw [a.entries fun x hx => by simp [Shadow.present, hmeasured x hx]]
  have hh : (s.pu.shadow (s.pu.entryOf (h.frame + s.pu.params.lookAhead))).holds (h.frame + s.pu.params.lookAhead)
      = false := by
    by_cases hj : s.pu.entryOf (h.frame + s.pu.params.lookAhead) = i
    · rw [hj, a.shadow]
      have hf : ¬ h.frame = h.frame + s.pu.params.lookAhead := by omega
      unfold Shadow.holds
      rw [decide_eq_false hf, Bool.and_false]
    · simp [Shadow.holds, a.absent hj]
  simp [eligible, hh]

/-- The measurement pass, given what the delivery is attributed to after the measurement: nothing is made Final. -/
theorem Alone.passes (a : Alone s i h) (ht : s.pu.table = none) (hl : 0 < s.pu.params.lookAhead) {x : Shadow}
    (hx : puAttribute d (s.withShadow i (dueShadow s.pu d h)) = (s.withShadow i (dueShadow s.pu d h)).withShadow i x) :
    puPass d s = s.withShadow i x := by
  have hs : (s.withShadow i (dueShadow s.pu d h)).withShadow i x = s.withShadow i x := by
    unfold State.withShadow
    simp only [List.set_set]
  unfold puPass
  simp only [a.measures ht d, hx, hs, (a.withShadow x).waits hl, List.foldl_nil]

/-- The measurement pass of a good sample of Tracking. -/
theorem Alone.passes_tracking (a : Alone s i h) (ht : s.pu.table = none) (hl : 0 < s.pu.params.lookAhead)
    (hc : h.state = .captured) (hd : d.link = .tracking) (hk : d.kind = .good) (hs : d.saturated = false) :
    puPass d s = s.withShadow i (countedShadow d (dueShadow s.pu d h)) := by
  refine a.passes ht hl ((a.withShadow _).counts ?_ hd hk hs)
  unfold dueShadow Shadow.present
  split
  · rw [(measuredShadow_keeps s.pu d h).1]
    rfl
  · rw [hc]
    rfl

/-- The measurement pass of a sample outside Tracking: a frame that is due is Unstabilized (R45), and none is counted. -/
theorem Alone.passes_outside (a : Alone s i h) (ht : s.pu.table = none) (hl : 0 < s.pu.params.lookAhead)
    (hc : h.state = .captured) (hr : h.reference ≤ (d.time : Int)) (hd : d.link ≠ .tracking) :
    puPass d s = s.withShadow i (unstabilizedShadow h) := by
  have hx : dueShadow s.pu d h = unstabilizedShadow h := by
    unfold dueShadow measuredShadow
    rw [if_pos ⟨hc, hr⟩]
    split
    · exact absurd ‹_› hd
    · rfl
  refine a.passes ht hl ?_
  rw [hx]
  exact (if_neg hd).trans (a.withShadow _).same.symm

/-! ### What the Motion Unit delivers outside Tracking -/

/-- The Motion Unit after a good sample that leaves the link as it is, outside Tracking (R16, R21). -/
def sampled (m : Mu) (b : Burst) : Mu :=
  { m with
    txn := none, lastCounter := some (burstCounter b), lastGood := some (burstSample b)
    goodRun := m.goodRun + 1, missingRun := if m.link = .starting then 0 else m.missingRun }

/-- A good sample short of the fourth in a row, in Starting and in Lost (R16, R21). -/
theorem muLinkGood_counts (hl : s.mu.link = .starting ∨ s.mu.link = .lost) (hg : s.mu.goodRun + 1 < 4) :
    muLinkGood s
      = { s with
          mu.goodRun := s.mu.goodRun + 1
          mu.missingRun := if s.mu.link = .starting then 0 else s.mu.missingRun } := by
  unfold muLinkGood
  rcases hl with hl | hl <;> rw [hl] <;> exact if_neg (Nat.not_le.2 hg)

/-- Outside Tracking a burst's end with a good sample is delivered to the Path Unit with no integration (R27, R29). -/
theorem muBurstDone_outside (ht : takesBurst s.mu tk) (hc : s.mu.lastCounter ≠ some (burstCounter b))
    (hl : (s.mu.link = .starting ∧ s.mu.phase = .sampling) ∨ s.mu.link = .lost) (hg : s.mu.goodRun + 1 < 4)
    (hi : noImpact s.mu b) :
    muBurstDone b s = puPass ⟨tk, s.mu.link, some s.mu.acc, .good, false⟩ { s with mu := sampled s.mu b } := by
  have hw := puPass_work (PathWork.refl { s with mu := sampled s.mu b }) ⟨tk, s.mu.link, some s.mu.acc, .good, false⟩
  have hn : s.mu.link ≠ .tracking := by rcases hl with ⟨hl, -⟩ | hl <;> rw [hl] <;> decide
  have hs : muSample tk (burstResult s.mu b) { s with mu.txn := none, mu.lastCounter := some (burstCounter b) }
      = puPass ⟨tk, s.mu.link, some s.mu.acc, .good, false⟩ { s with mu := sampled s.mu b } := by
    have hv := muLinkGood_counts (s := { s with
      mu.txn := none, mu.lastCounter := some (burstCounter b), mu.lastGood := some (burstSample b) })
      (hl.imp_left And.left) hg
    have hj : muJudgeImpact tk (burstSample b) (muJudgeStill (burstSample b).gyro { s with mu := sampled s.mu b })
        = { s with mu := sampled s.mu b } := by
      have hstill : muJudgeStill (burstSample b).gyro { s with mu := sampled s.mu b } = { s with mu := sampled s.mu b } :=
        if_neg fun c => hn c.2
      rw [hstill]
      exact muJudgeImpact_none tk (by exact hi)
    rw [burstResult_good hc]
    unfold muSample muGood
    simp only [hv, if_neg hn]
    exact congrArg (fun v : State => puPass ⟨tk, v.mu.link, some v.mu.acc, .good, false⟩ v) hj
  unfold muBurstDone
  rw [ht.1]
  refine (muTxnEnd_taken ht.takes hs (by rw [hw.mu]; exact ht.takes.noneMissed)).trans (muBegin_stays ?_)
  rw [hw.mu]
  rcases hl with ⟨-, hp⟩ | hl
  · exact .inr hp
  · exact .inl (by show s.mu.link ≠ _; rw [hl]; decide)

/-- SAMPLE_TICK before the Sampling phase and in Absent delivers a missing sample (R14, R29). -/
theorem bodySampleTick_delivers (hs : s.rck.sampleTimer = some tk) (hp : s.rck.pendingPeriod = none)
    (hl : s.mu.link = .absent ∨ (s.mu.link = .starting ∧ s.mu.phase ≠ .sampling)) (hv : s.mu.leaving = false) :
    bodySampleTick s = puPass ⟨tk, s.mu.link, none, .missing, false⟩ (scheduled tk s) := by
  have hm : muSamples s.mu = false := by
    unfold muSamples
    rcases hl with hl | ⟨hl, hphase⟩
    · simp [hl]
    · simp [hl, hphase]
  have hoff : s.mu.link ≠ .off := by rcases hl with hl | ⟨hl, -⟩ <;> rw [hl] <;> decide
  rw [bodySampleTick_armed hs, hp]
  unfold muTick
  exact (if_neg (by show ¬(s.mu.leaving = true ∨ s.mu.link = .off); simp [hv, hoff])).trans
    (if_neg (by show ¬ muSamples s.mu = true; rw [hm]; decide))

/-- With no period pending the schedule moves on, and nothing else (R5). -/
theorem scheduled_same (hp : s.rck.pendingPeriod = none) :
    scheduled tk s
      = { s.advance tk with rck := { (s.advance tk).rck with sampleTimer := some (tk + s.rck.activePeriod) } } := by
  have hr : ({ (s.advance tk).rck with pendingPeriod := none } : Rck) = (s.advance tk).rck := by
    rw [← hp]
    rfl
  unfold scheduled
  rw [hp]
  exact congrArg (fun r : Rck => { s.advance tk with rck := { r with sampleTimer := some (tk + s.rck.activePeriod) } }) hr

/-- Settles O35: in Tracking by the frame's reference time, at a good sample outside it, and at a tick that takes none. -/
theorem frameMeasured : Obligations.FrameMeasured := by
  intro n b tk i h s hs hlen hshadow hothers hstate htable hahead
  have hget : s.pu.shadows[i]? = some h := by
    rw [← hshadow, shadow_get (List.getElem?_eq_getElem hlen), List.getElem?_eq_getElem hlen]
  have alone : ∀ {u : State}, u.pu = s.pu → Alone u i h := fun hu => ⟨by rw [hu]; exact hget, by rw [hu]; exact hothers⟩
  refine ⟨fun hl ht hc hi hb ⟨hyaw, hpitch, hroll⟩ count hcount => ?_, fun hl hg ht hc hi hr => ?_,
    fun hl hv htimer hp hr => ?_⟩
  · have hsat : (muIntegrate tk (burstSample b).gyro s).1 = false := by
      show (_ || _ || _) = false
      rw [hyaw, hpitch, hroll]
      rfl
    have hf := bodySampleBurstDone_delivers n ht hc hl hb hi
    have hx := (alone (u := { s.advance n.toNat with mu := tracked s b tk }) rfl).passes_tracking htable hahead hstate
      (d := ⟨tk, .tracking, some (tracked s b tk).acc, .good, (muIntegrate tk (burstSample b).gyro s).1⟩) rfl rfl hsat
    have hlive := hs.live_eq (hf.trans hx) hs.powered rfl rfl rfl rfl
    subst hcount
    refine ⟨fun hr => congrArg Host.Outcome.next (hlive.trans ?_), fun hr => congrArg Host.Outcome.next (hlive.trans ?_)⟩
    · unfold dueShadow
      rw [if_pos ⟨hstate, hr⟩]
      rfl
    · unfold dueShadow
      rw [if_neg fun c => absurd c.2 (not_le.2 hr)]
      rfl
  · have hn : s.mu.link ≠ .tracking := by rcases hl with ⟨hl, -⟩ | hl <;> rw [hl] <;> decide
    have hf : bodySampleBurstDone n b s = _ := muBurstDone_outside (s := s.advance n.toNat) ht hc hl hg hi
    have hx := (alone (u := { s.advance n.toNat with mu := sampled s.mu b }) rfl).passes_outside htable hahead hstate
      (d := ⟨tk, s.mu.link, some s.mu.acc, .good, false⟩) hr hn
    exact congrArg Host.Outcome.next (hs.live_eq (hf.trans hx) hs.powered rfl rfl rfl rfl)
  · have hn : s.mu.link ≠ .tracking := by rcases hl with hl | ⟨hl, -⟩ <;> rw [hl] <;> decide
    have hx := (alone (u := scheduled tk s) rfl).passes_outside htable hahead hstate
      (d := ⟨tk, s.mu.link, none, .missing, false⟩) hr hn
    have hlive := hs.live_eq ((bodySampleTick_delivers htimer hp hl hv).trans hx) hs.powered rfl rfl rfl rfl
    exact congrArg Host.Outcome.next (hlive.trans (congrArg (State.withShadow · i _) (scheduled_same hp)))

end Sys2Proof.Machine
end

section
/-! The record that an accepted frame-start writes (R39, R41, Table 11-6), byte for byte. -/

namespace Sys2Proof.Machine

variable {s u : State} {n t i : Nat}

/-! ### A record written -/

/-- Bytes written behind others are written with them. -/
theorem writeCells_append (m : List Host.Cell) (a : Nat) (x y : List Byte) :
    writeCells (writeCells m a x) (a + x.length) y = writeCells m a (x ++ y) := by
  induction x generalizing m a with
  | nil => rfl
  | cons v x ih =>
    rw [List.cons_append, writeCells, writeCells, List.length_cons, ← ih, Nat.add_assoc, Nat.add_comm 1]

/-- The fields of a record behind its state word (Table 11-6), with a release word of 0. -/
def recordFields (h : Shadow) : List Byte :=
  leBytes 4 h.frame ++ recordTimes h ++ recordTheta h ++ recordOffsets h ++ recordRoll h ++ recordSegment h ++ leBytes 4 0

theorem recordWord_length (h : Shadow) : (recordWord h).length = 4 := by
  simp [recordWord, leBytes_length]

theorem recordFields_length (h : Shadow) : (recordFields h).length = 60 := by
  simp [recordFields, recordTimes, recordTheta, recordOffsets, recordRoll, recordSegment, leBytes_length, leInt_length]

/-- The groups of fields that an opening writes, each at its offset (R41). -/
def recordGroups (h : Shadow) : List (Nat × List Byte) :=
  [(4, leBytes 4 h.frame), (8, recordTimes h), (24, recordTheta h), (48, recordOffsets h), (52, recordRoll h),
    (56, recordSegment h), (60, leBytes 4 0)]

/-- The groups lie one behind the other, and the state word, before them, is written last (R39). -/
theorem puStore_record {base : Nat} (ht : s.pu.table = some base) {h : Shadow} (hi : s.pu.shadow i = h) :
    puStore i (recordGroups h) s
      = { s with
          mem := writeCells (writeCells s.mem (base + 64 * i + 4) (recordFields h)) (base + 64 * i) (recordWord h) } := by
  unfold puStore recordAt recordFields recordGroups
  rw [ht]
  simp only [← writeCells_append, ← hi]
  simp [State.store, recordTimes, recordTheta, recordOffsets, recordRoll, recordSegment, leBytes_length, leInt_length]

/-- A record so written reads back whole, and no other byte has changed. -/
theorem record_reads {m : List Host.Cell} {a : Nat} (h : Shadow) (hm : memoryWf m = true) (ha : a + 64 ≤ ramBytes) :
    readCells (writeCells (writeCells m (a + 4) (recordFields h)) a (recordWord h)) a 64 = recordWord h ++ recordFields h
      ∧ ∀ x, x < a ∨ a + 64 ≤ x →
        readCell (writeCells (writeCells m (a + 4) (recordFields h)) a (recordWord h)) x = readCell m x := by
  have hw := recordWord_length h
  have hf := recordFields_length h
  have hfields : readCells (writeCells m (a + 4) (recordFields h)) (a + 4) 60 = recordFields h := by
    rw [← hf]
    exact readCells_writeCells hm (by omega)
  have hword : readCells (writeCells (writeCells m (a + 4) (recordFields h)) a (recordWord h)) a 4 = recordWord h := by
    rw [← hw]
    exact readCells_writeCells (writeCells_wf _ _ hm) (by omega)
  refine ⟨?_, fun x hx => ?_⟩
  · rw [show 64 = 4 + 60 from rfl, readCells_append, hword, readCells_writeCells_other _ _ (by omega), hfields]
  · rw [readCell_writeCells_other _ _ _ (by omega), readCell_writeCells_other _ _ _ (by omega)]

/-! ### A frame opened in a Free entry -/

/-- The shadow of an entry just changed. -/
theorem shadow_puModify (hi : i < s.pu.shadows.length) (f : Shadow → Shadow) :
    (puModify i f s).pu.shadow i = f (s.pu.shadow i) := by
  have hget : (puModify i f s).pu.shadows[i]? = some (f s.pu.shadows[i]) := by
    rw [puModify, modifyAt_get, if_pos rfl, List.getElem?_eq_getElem hi]
    rfl
  rw [shadow_get hget, shadow_get (List.getElem?_eq_getElem hi)]

/-- A Free entry has nothing to recycle (R55). -/
theorem puScanEntry_free (h : (s.pu.shadow i).state = .free) : puScanEntry i s = s :=
  if_neg fun c => by rw [h] at c; cases c.1

/-- The Path Unit at an accepted frame-start whose entry is Free, with nothing pending and the frame before gone (R40, R41):
its shadow is opened, and its record written. -/
theorem puFrameStart_free (hp : s.pu.pending = none) (hi : i = s.pu.entryOf n) (hfree : (s.pu.shadow i).state = .free)
    (hlast : n = 0 ∨ (s.pu.shadow (s.pu.entryOf (n - 1))).holds (n - 1) = false) {h : Shadow}
    (hh : h = openedShadow s n t false) :
    puFrameStart n t s = puStore i (recordGroups h) { puModify i (fun _ => h) s with pu.newest := some n } := by
  have hinstall : puInstallPending s = s := by
    unfold puInstallPending
    rw [hp]
  have hclose : (if n = 0 then s else puCloseInterval (n - 1) s) = s := by
    split
    · rfl
    · next hn => exact if_neg (by rw [hlast.resolve_left hn]; decide)
  unfold puFrameStart
  simp only [hinstall, ← hi, puScanEntry_free hfree, if_pos hfree]
  unfold puOpen
  simp only [hclose, ← hi]
  rw [hh]
  rfl

/-- So the 64 bytes of the frame's record are its shadow's, and no other byte changes. -/
theorem puFrameStart_writes {base : Nat} (hp : s.pu.pending = none) (hi : i = s.pu.entryOf n)
    (hlen : i < s.pu.shadows.length) (hfree : (s.pu.shadow i).state = .free)
    (hlast : n = 0 ∨ (s.pu.shadow (s.pu.entryOf (n - 1))).holds (n - 1) = false) (ht : s.pu.table = some base)
    (hm : memoryWf s.mem = true) (hr : base + 64 * i + 64 ≤ ramBytes) {h : Shadow} (hh : h = openedShadow s n t false) :
    ∃ p m, puFrameStart n t s = { s with pu := p, mem := m }
      ∧ readCells m (base + 64 * i) 64 = recordWord h ++ recordFields h
      ∧ ∀ x, x < base + 64 * i ∨ base + 64 * i + 64 ≤ x → readCell m x = readCell s.mem x := by
  have hrecord := puStore_record (s := { puModify i (fun _ => h) s with pu.newest := some n }) (by exact ht)
    (shadow_puModify hlen fun _ => h)
  exact ⟨_, _, (puFrameStart_free hp hi hfree hlast hh).trans hrecord, record_reads h hm hr⟩

/-- The bytes of a record just opened (Table 11-6): Captured, with no flag, no angle, no offset and no segment. -/
theorem openedRecord (s : State) (n t : Nat) :
    recordWord (openedShadow s n t false) ++ recordFields (openedShadow s n t false)
      = leBytes 2 2 ++ leBytes 2 0 ++ leBytes 4 n ++ leBytes 8 t ++ leInt 8 ((t : Int) + s.pu.params.exposure)
          ++ List.replicate 24 0 ++ List.replicate 4 0 ++ List.replicate 4 0 ++ [0xFF, 0xFF, 0, 0]
          ++ List.replicate 4 0 := by
  have htheta : recordTheta (openedShadow s n t false) = List.replicate 24 0 := by
    show leInt 8 0 ++ leInt 8 0 ++ leInt 8 0 = _
    decide
  have hoffsets : recordOffsets (openedShadow s n t false) = List.replicate 4 0 := by
    show leInt 2 0 ++ leInt 2 0 = _
    decide
  have hroll : recordRoll (openedShadow s n t false) = List.replicate 4 0 := by
    show leInt 2 0 ++ leBytes 2 0 = _
    decide
  have hsegment : recordSegment (openedShadow s n t false) = [0xFF, 0xFF, 0, 0] := by
    show leBytes 2 0xFFFF ++ leBytes 2 0 = _
    decide
  have hrelease : leBytes 4 0 = List.replicate 4 0 := by decide
  unfold recordWord recordFields recordTimes
  rw [htheta, hoffsets, hroll, hsegment, hrelease]
  simp only [List.append_assoc]
  rfl

/-! ### The deliveries of an accepted frame-start (R10) -/

/-- The deliveries to the Motion Unit and to the Clip Writer do nothing where the one has nothing pending and the other no
request table. -/
theorem frameDeliveries_idle {l : List FrameDelivery} (hl : .path ∉ l) (hm : s.mu.pending = none) (hc : s.cw.table = none) :
    l.foldl (fun s d => frameDelivery n t d s) s = s := by
  refine foldl_stays fun d hd => ?_
  cases d with
  | motion =>
    unfold frameDelivery muInstallPending
    rw [hm]
  | path => exact absurd hd hl
  | writer =>
    unfold frameDelivery cwService servicePoint
    rw [hc]
    simp

/-- In whatever order they are made, the delivery to the Path Unit is then all of them. -/
theorem frameDeliveries_path (o : List FrameDelivery) (hm : s.mu.pending = none) (hc : s.cw.table = none)
    (hu : puFrameStart n t s = u) (hum : u.mu.pending = none) (huc : u.cw.table = none) :
    (frameOrder o).foldl (fun s d => frameDelivery n t d s) s = u := by
  have hn : (frameOrder o).Nodup := (frameOrder_perm o).nodup_iff.2 (by decide)
  obtain ⟨l, k, hlk⟩ := List.append_of_mem (path_mem_frameOrder o)
  rw [hlk] at hn ⊢
  obtain ⟨-, hk, hd⟩ := List.nodup_append.1 hn
  rw [List.foldl_append, frameDeliveries_idle (fun hl => hd _ hl _ List.mem_cons_self rfl) hm hc, List.foldl_cons]
  show k.foldl _ (puFrameStart n t s) = u
  rw [hu, frameDeliveries_idle (List.nodup_cons.1 hk).1 hum huc]

/-- What makes a qualified edge no glitch (R9, R10). -/
theorem isGlitch_not {r : Rck} {e : Nat} (hn : r.nextFrame = .number n)
    (hi : ∀ l, r.lastAccepted = some l → r.minInterval ≤ e - l) : isGlitch r e = false := by
  unfold isGlitch
  rw [hn]
  cases hl : r.lastAccepted with
  | none => rfl
  | some l => simpa using hi l hl

/-- A qualified edge that is no glitch is accepted and delivered (R10). -/
theorem rckQualified_accepts (o : List FrameDelivery) (hg : isGlitch s.rck s.now = false)
    (hn : s.rck.nextFrame = .number n) :
    rckQualified o s
      = (frameOrder o).foldl (fun u d => frameDelivery n s.now d u)
          (rckAccept n s.now { s with rck.filter := .high, rck.filterRun := 0 }) := by
  unfold rckQualified
  refine (if_neg ?_).trans ?_
  · show ¬ isGlitch s.rck s.now = true
    rw [hg]
    decide
  · dsimp only
    rw [hn]

/-- FRAME_START of such an edge: the clock comes to the time at which the run is complete (log 28). -/
theorem bodyFrameStart_accepts {o : List FrameDelivery} {e : Nat} (hq : s.rck.filter = .qualifying)
    (he : e = s.rck.clock + (s.rck.filterLength - s.rck.filterRun)) (hl : e ≤ lastClock)
    (hn : s.rck.nextFrame = .number n) (hi : ∀ l, s.rck.lastAccepted = some l → s.rck.minInterval ≤ e - l) :
    bodyFrameStart o s
      = (frameOrder o).foldl (fun u d => frameDelivery n e d u)
          (rckAccept n e { s.advance e with rck.filter := .high, rck.filterRun := 0 }) := by
  have hc : (s.advance e).now = e := by
    rw [State.now, advance_rck_clock]
    omega
  unfold bodyFrameStart
  rw [if_pos hq, State.now, ← he, rckQualified_accepts o (isGlitch_not (by exact hn) (by rw [hc]; exact hi)) (by exact hn),
    hc]

/-- Settles O36: the groups of the record lie one behind the other, and the state word before them. -/
theorem frameRecordWritten : Obligations.FrameRecordWritten := by
  intro o s n e i base hs hq he hl hn hi hmu hpu htable hcw hram hmem hidx hne hfree hlast
  have hlen : i < s.pu.shadows.length := hidx ▸ Nat.mod_lt n (List.length_pos_iff.2 hne)
  obtain ⟨p, m, hopen, hreads, hother⟩ := puFrameStart_writes (t := e)
    (s := rckAccept n e { s.advance e with rck.filter := .high, rck.filterRun := 0 }) hpu hidx hlen hfree hlast htable hmem
    (by omega) rfl
  have hbody := (bodyFrameStart_accepts (o := o) hq he hl hn hi).trans
    (frameDeliveries_path o (by exact hmu) (by exact hcw) hopen hmu hcw)
  exact ⟨_, congrArg Host.Outcome.next (hs.live_eq hbody hs.powered rfl rfl rfl rfl), hreads.trans (openedRecord _ n e),
    hother⟩

end Sys2Proof.Machine
end

section
/-! The taking of a slot in a calm state (R111, R112), and the publication of a request in the step that takes it (R113,
R115). -/

namespace Sys2Proof.Machine

variable {s t : State} {k : Kind} {i base : Nat} {r : Request}

/-! ### A slot is taken -/

/-- What a slot that will be taken tells of the state (R111, R112). -/
structure Taking (s : State) (base i : Nat) (k : Kind) : Prop where
  running : s.part.state = .running
  staying : s.part.transition = .none
  noChange : s.sm.change = none
  noReloc : s.cw.reloc = none
  kind : kindOf (slotRequest s base i).kind = some k

theorem takesSlot_taking (h : takesSlot k i s = true) (ht : s.cw.table = some base) : Taking s base i k := by
  unfold takesSlot servicePoint at h
  rw [ht] at h
  simp only [Bool.and_eq_true, decide_eq_true_eq, Option.isNone_iff_eq_none] at h
  obtain ⟨⟨⟨⟨⟨⟨⟨hstate, htransition⟩, -⟩, hchange⟩, hreloc⟩, -⟩, -⟩, -, hkind⟩ := h
  exact ⟨hstate, htransition, hchange, hreloc, hkind⟩

/-- The taking of a slot with no other request in the queue, and what its judgement leaves to do (R112, R114). -/
theorem bodyTake_taken {n : Stamp} (h : takesSlot k i s = true) (ht : s.cw.table = some base) (hq : s.cw.queue = [])
    (hr : r = slotRequest s base i) :
    bodyTake k n i s = cwRun (cwJudge r (takenSlot (s.advance n.toNat) base i r)).2 := by
  subst hr
  have htake : cwTake base i (s.advance n.toNat)
      = cwJudge (slotRequest s base i) (takenSlot (s.advance n.toNat) base i (slotRequest s base i)) := by
    unfold cwTake takenSlot
    simp only [store_cw, advance_cw, hq]
    rfl
  unfold bodyTake
  simp only [advance_cw, ht]
  exact (if_pos (by exact h)).trans (congrArg (fun a : Bool × State => cwRun a.2) htake)

/-- A command of a calm state that ends in a state where nothing goes on. -/
theorem live_taken {n : Stamp} (hs : Calm s) (h : takesSlot k i s = true) (ht : s.cw.table = some base)
    (hr : r = slotRequest s base i) (hrun : cwRun (cwJudge r (takenSlot (s.advance n.toNat) base i r)).2 = t)
    (hend : Resting t) : live (bodyTake k n i) s = t :=
  live_ends hs.powered ((bodyTake_taken h ht hs.noRequest hr).trans hrun) hend.finish

/-! ### A request is published at once -/

/-- What a publication writes depends on the slot, the taken copy, the request table and the Buffer RAM alone (R115). -/
theorem publishSlot_congr {e f : QueueEntry} (res : RequestResult) (hs : e.slot = f.slot) (hr : e.request = f.request)
    (ht : t.cw.table = s.cw.table) (hm : t.mem = s.mem) :
    publishSlot e res t = { t with mem := (publishSlot f res s).mem } := by
  unfold publishSlot
  rw [ht]
  cases s.cw.table with
  | none => rw [← hm]
  | some base =>
    dsimp only [State.store]
    rw [hs, hr, hm]

/-- The one request in the queue gets its result, and is published (R113, R115). -/
theorem cwPublish_finished (f : QueueEntry → RequestResult) (hq : s.cw.queue = [takenEntry i r])
    (hi : s.cw.inHand = some r.sequence) :
    cwPublish (cwFinish f s) = publishedSlot i r (f (takenEntry i r)) s := by
  have hf : cwFinish f s
      = { s with cw.queue := [{ takenEntry i r with result := some (f (takenEntry i r)) }], cw.inHand := none } := by
    unfold cwFinish cwReady
    simp only [hi, hq]
    simp [takenEntry, entryIs]
  rw [hf]
  unfold cwPublish publishFrom
  dsimp only
  rw [publishSlot_congr (s := s) (f := takenEntry i r) _ (by rfl) (by rfl) (by rfl) (by rfl)]
  unfold publishFrom publishedSlot State.raise
  dsimp only
  split <;> rfl

/-- A refusal at the taking (R114). -/
theorem cwRefuse_taken (c : ResultCode) (hq : s.cw.queue = [takenEntry i r]) (hi : s.cw.inHand = some r.sequence) :
    (cwRefuse c s).2 = publishedSlot i r ⟨c, r.segment, r.byteOffset, 0⟩ s :=
  cwPublish_finished (fun e => failure e.request c) hq hi

/-- A state calm but for a request just taken is calm once that is published. -/
theorem Calm.published {n : Nat} (hs : Calm s) (res : RequestResult) :
    Calm (publishedSlot i r res (takenSlot (s.advance n) base i r)) := by
  have hc : (publishedSlot i r res (takenSlot (s.advance n) base i r)).cw
      = { s.cw with queue := [], expected := s.cw.expected + 1, inHand := none } := raise_cw _ _
  have hsm : (publishedSlot i r res (takenSlot (s.advance n) base i r)).sm = s.sm := raise_sm _ _
  exact {
    powered := by rw [publishedSlot, raise_part]; exact hs.powered
    asserted := by rw [publishedSlot, raise_ga]; exact hs.asserted
    noRequest := by rw [hc]
    noJob := by rw [hc]; exact hs.noJob
    noReappend := by rw [hc]; exact hs.noReappend
    noResume := by rw [hc]; exact hs.noResume
    noStopDue := by rw [hc]; exact hs.noStopDue
    notFull := by rw [hc]; exact hs.notFull
    notClosing := by rw [hc]; exact hs.notClosing
    noMarks := by rw [publishedSlot, raise_mu]; exact hs.noMarks
    noMount := by rw [hsm]; exact hs.noMount
    noFormat := by rw [hsm]; exact hs.noFormat }

/-- A request refused at its taking is published in that step (R113, R114). -/
theorem live_refused {n : Stamp} {c : ResultCode} (hs : Calm s) (h : takesSlot k i s = true)
    (ht : s.cw.table = some base) (hr : r = slotRequest s base i)
    (hj : cwJudge r (takenSlot (s.advance n.toNat) base i r) = cwRefuse c (takenSlot (s.advance n.toNat) base i r)) :
    live (bodyTake k n i) s
      = publishedSlot i r ⟨c, r.segment, r.byteOffset, 0⟩ (takenSlot (s.advance n.toNat) base i r) := by
  have hcalm := hs.published (i := i) (r := r) (base := base) (n := n.toNat) ⟨c, r.segment, r.byteOffset, 0⟩
  refine live_taken hs h ht hr ?_ hcalm.resting
  rw [hj, cwRefuse_taken c rfl rfl]
  exact hcalm.writer

end Sys2Proof.Machine
end

section
/-! A Media request is written (R124 to R127): its chunk item and its track item, in a page with room for both. -/

namespace Sys2Proof.Machine

variable {s t : State} {e : QueueEntry} {r : Request} {q : Word}

/-! ### The Path Unit's answers (R57) -/

/-- The Path Unit's work does not look at the Clip Writer. -/
theorem puStore_cw (i : Nat) (groups : List (Nat × List Byte)) (s : State) (c : Cw) :
    puStore i groups { s with cw := c } = { puStore i groups s with cw := c } := by
  have hfold : ∀ (a : Nat) (l : List (Nat × List Byte)) (u : State),
      l.foldl (fun s g => s.store (a + g.1) g.2) { u with cw := c }
        = { l.foldl (fun s g => s.store (a + g.1) g.2) u with cw := c } := by
    intro a l
    induction l with
    | nil => exact fun u => rfl
    | cons g l ih => exact fun u => ih (u.store (a + g.1) g.2)
  unfold puStore recordAt
  cases s.pu.table with
  | none => rfl
  | some base =>
    simp only [Option.map_some, hfold]
    rfl

theorem puStoreLive_cw (i : Nat) (groups : List (Nat × List Byte)) (s : State) (c : Cw) :
    puStoreLive i groups { s with cw := c } = { puStoreLive i groups s with cw := c } := by
  unfold puStoreLive
  rw [puStore_cw]
  split <;> rfl

theorem puScanEntry_cw (i : Nat) (s : State) (c : Cw) :
    puScanEntry i { s with cw := c } = { puScanEntry i s with cw := c } := by
  have hstore := puStore_cw i []
    (puModify i (fun h => { h with state := .free, held := true, released := true }) s) c
  unfold puScanEntry
  dsimp only
  split
  · show (if (s.pu.shadow i).released || releaseWordSet s i then _ else _) = _
    split
    · exact hstore
    · rfl
  · rfl

theorem puQuery_cw (m segment : Nat) (s : State) (c : Cw) :
    puQuery m segment { s with cw := c } = ((puQuery m segment s).1, { (puQuery m segment s).2 with cw := c }) := by
  unfold puQuery
  dsimp only
  split
  · refine Prod.ext rfl ?_
    dsimp only
    rw [← puScanEntry_cw, ← puStoreLive_cw]
    rfl
  · rfl

theorem trackEntries_cw (j : Nat) (l : List Nat) (s : State) (c : Cw) :
    trackEntries j l { s with cw := c }
      = ((trackEntries j l s).1, (trackEntries j l s).2.1, { (trackEntries j l s).2.2 with cw := c }) := by
  induction l generalizing s with
  | nil => rfl
  | cons m l ih => simp only [trackEntries, puQuery_cw, ih]

theorem trackEntries_work (j : Nat) (l : List Nat) (s : State) : PathWork s (trackEntries j l s).2.2 := by
  induction l generalizing s with
  | nil => exact PathWork.refl s
  | cons m l ih => exact (puQuery_work (PathWork.refl s) m j).trans (ih _)

/-- A track entry has 32 bytes (Table 11-10). -/
theorem trackEntries_length (j : Nat) (l : List Nat) (s : State) : (trackEntries j l s).1.length = 32 * l.length := by
  induction l generalizing s with
  | nil => rfl
  | cons m l ih =>
    simp only [trackEntries, trackEntry, List.length_append, leBytes_length, leInt_length, ih, List.length_cons]
    omega

/-! ### Items (R187) -/

theorem chunkHeader_length (r : Request) : (chunkHeader r).length = 16 := by
  simp [chunkHeader, itemWord, leBytes_length]

theorem trackHeader_length (r : Request) : (trackHeader r).length = 16 := by
  simp [trackHeader, itemWord, leBytes_length]

theorem readCells_length (m : List Host.Cell) (a n : Nat) : (readCells m a n).length = n := by
  induction n generalizing a with
  | zero => rfl
  | succ n ih => exact congrArg Nat.succ (ih _)

/-- A chunk item: its header, the chunk from the host buffer, and zeros up to a multiple of 16 bytes (R125). -/
def chunkItem (m : List Host.Cell) (r : Request) : List Byte :=
  chunkHeader r ++ readCells m r.buffer r.length ++ List.replicate ((r.length + 15) / 16 * 16 - r.length) 0

theorem chunkItem_length (m : List Host.Cell) (r : Request) : (chunkItem m r).length = chunkItemLength r := by
  unfold chunkItem chunkItemLength
  simp only [List.length_append, chunkHeader_length, readCells_length, List.length_replicate]
  omega

/-- The whole of a chunk item, copied at once. -/
theorem chunkSlice_whole (s : State) (r : Request) : chunkSlice s r 0 (chunkItemLength r) = chunkItem s.mem r := by
  have hhead : (chunkHeader r).take (chunkItemLength r) = chunkHeader r :=
    List.take_of_length_le (by rw [chunkHeader_length, chunkItemLength]; omega)
  have hbody : chunkItemLength r - 16 = (r.length + 15) / 16 * 16 := by
    rw [chunkItemLength]
    omega
  have hdata : min ((r.length + 15) / 16 * 16) r.length = r.length := by omega
  unfold chunkSlice chunkItem
  simp only [List.drop_zero, hhead, chunkHeader_length, hbody, Nat.zero_sub, Nat.sub_zero, Nat.add_zero, hdata]

/-- The track item of a request, from its answers. -/
theorem trackItem_length (j : Nat) (r : Request) (s : State) :
    (trackHeader r ++ (trackEntries j (coveredFrames r) s).1).length = trackItemLength r := by
  rw [List.length_append, trackHeader_length, trackEntries_length, coveredFrames, List.length_map, List.length_range]
  rfl

/-! ### Steps of the copying -/

/-- The Clip Writer once the first byte of an empty buffer has set the commit deadline (R127). -/
def withDeadline (now : Nat) (c : Cw) : Cw :=
  { c with
    commitMs := if c.assembly = [] then c.pendingCommitMs.getD c.commitMs else c.commitMs
    pendingCommitMs := if c.assembly = [] then none else c.pendingCommitMs
    deadline := if c.assembly = [] then some (now + 1000 * c.pendingCommitMs.getD c.commitMs) else c.deadline }

theorem deadline_begins (s : State) :
    (if s.cw.assembly = [] then cwSetDeadline s else s) = { s with cw := withDeadline s.now s.cw } := by
  unfold withDeadline
  split
  · rfl
  · rfl

/-- Bytes copied into the assembly buffer (R125). -/
theorem cwAppend_bytes {bytes : List Byte} (h : bytes ≠ []) :
    cwAppend bytes s
      = { s with
          cw := { withDeadline s.now s.cw with
            assembly := s.cw.assembly ++ bytes, streamPos := s.cw.streamPos + bytes.length } } := by
  unfold cwAppend
  rw [if_neg h]
  simp only [deadline_begins]
  rfl

/-- The writer goes on with its job (R125). -/
theorem cwStep_job (hd : s.cw.stopDue = none) (hl : s.cw.reloc = none) (hp : s.cw.programming = false)
    (hc : s.sm.change = none) (hf : s.cw.assembly.length < 8192) : cwStep s = cwJobStep s := by
  have hn : assemblyFull s.cw = false := decide_eq_false (by omega)
  unfold cwStep
  simp only [stopReady_none hd]
  rw [if_neg (by simp [hl, hp, hc]), hn]
  rfl

/-- The entry of a request that is alone in the queue. -/
theorem queueEntry_alone (hq : s.cw.queue = [e]) (he : e.request.sequence = q) : queueEntry s q = some e := by
  unfold queueEntry
  rw [hq]
  simp [entryIs, he]

/-- A change of the entry of a request that is alone in the queue. -/
theorem cwModifyEntry_alone (f : QueueEntry → QueueEntry) (hq : s.cw.queue = [e]) (he : e.request.sequence = q) :
    cwModifyEntry q f s = { s with cw.queue := [f e] } := by
  unfold cwModifyEntry
  rw [hq]
  simp [entryIs, he]

/-- With room in the page a chunk item is copied whole, and its track item is built (R125, R126). -/
theorem cwJobStep_chunk {j : Nat} (hj : s.cw.job = .chunk r.sequence 0) (hq : s.cw.queue = [e]) (he : e.request = r)
    (ho : openIndex s.sm = some j) (hl : s.cw.assembly.length + chunkItemLength r ≤ 8192) :
    cwJobStep s
      = some { (trackEntries j (coveredFrames r) s).2.2 with
          cw := { withDeadline s.now s.cw with
            assembly := s.cw.assembly ++ chunkItem s.mem r, streamPos := s.cw.streamPos + chunkItemLength r
            job := .track r.sequence (trackHeader r ++ (trackEntries j (coveredFrames r) s).1)
            queue := [{ e with missing := (trackEntries j (coveredFrames r) s).2.1 }] } } := by
  subst he
  have hlen := chunkItem_length s.mem e.request
  have hne : chunkItem s.mem e.request ≠ [] := fun c => by
    rw [c, chunkItemLength, List.length_nil] at hlen
    omega
  have hroom : min (cwRoom s) (chunkItemLength e.request - 0) = chunkItemLength e.request := by
    unfold cwRoom
    omega
  unfold cwJobStep
  rw [hj]
  simp only [queueEntry_alone hq rfl, Option.map_some]
  unfold cwCopyChunk
  simp only [hroom, Nat.zero_add, lt_irrefl, if_false, chunkSlice_whole, cwAppend_bytes hne, hlen]
  unfold cwBuildTrack
  simp only [ho, Option.getD_some, trackEntries_cw]
  exact congrArg some (cwModifyEntry_alone _ hq rfl)

/-- With room in the page the track item is copied whole, and the request is handed off (R113, R125, R126). -/
theorem cwJobStep_track {rest : List Byte} (hj : s.cw.job = .track r.sequence rest) (hq : s.cw.queue = [e])
    (he : e.request = r) (hr : rest ≠ []) (ha : s.cw.assembly ≠ []) (hl : s.cw.assembly.length + rest.length ≤ 8192)
    (hn : s.cw.reappend = []) (hi : s.cw.inHand = some r.sequence) :
    cwJobStep s
      = some { s with
          cw.assembly := s.cw.assembly ++ rest, cw.streamPos := s.cw.streamPos + rest.length, cw.job := .idle
          cw.lastSequence := some r.sequence, cw.lastTracked := raisedFrame s.cw.lastTracked r, cw.inHand := none
          cw.queue := [{ e with pairEnd := some (s.cw.streamPos + rest.length) }] } := by
  subst he
  have hroom : rest.length ≤ cwRoom s := by
    unfold cwRoom
    omega
  have herase : s.cw.reappend.erase e.request.sequence = s.cw.reappend := by
    rw [hn]
    rfl
  unfold cwJobStep
  rw [hj]
  simp only [queueEntry_alone hq rfl, Option.map_some]
  unfold cwCopyTrack
  simp only [List.take_of_length_le hroom, if_pos hroom, cwAppend_bytes hr, withDeadline, if_neg ha]
  unfold cwPairDone
  rw [cwModifyEntry_alone _ (by exact hq) rfl]
  simp only [herase, hi, if_true]

/-! ### The pair as a whole -/

/-- A taken request whose pair fits its page (R124): nothing else is in hand, and the writer is free to copy. -/
structure PairFits (s : State) (j i : Nat) (r : Request) : Prop where
  recording : s.cw.writer = .recording
  jobless : Jobless s.cw
  filling : s.cw.programming = false
  noChange : s.sm.change = none
  opened : openIndex s.sm = some j
  queue : s.cw.queue = [takenEntry i r]
  inHand : s.cw.inHand = some r.sequence
  room : s.cw.assembly.length + chunkItemLength r + trackItemLength r < 8192

/-- The writer at the beginning of a pair (R124). -/
def pairBegun (s : State) (j i : Nat) (r : Request) : State :=
  { s with cw.job := .chunk r.sequence 0, cw.queue := [⟨i, r, none, j, s.cw.streamPos, none, 0⟩] }

/-- The writer once the chunk item is in the buffer and the track item is built (R125, R126). -/
def chunkWritten (s : State) (j i : Nat) (r : Request) : State :=
  let tr := trackEntries j (coveredFrames r) s
  { tr.2.2 with
    cw := { withDeadline s.now s.cw with
      assembly := s.cw.assembly ++ chunkItem s.mem r, streamPos := s.cw.streamPos + chunkItemLength r
      job := .track r.sequence (trackHeader r ++ tr.1)
      queue := [⟨i, r, none, j, s.cw.streamPos, none, tr.2.1⟩] } }

/-- The writer once the pair is in the buffer (R113, R125, R126): the request waits in the queue for the page. -/
def pairWritten (s : State) (j i : Nat) (r : Request) : State :=
  let tr := trackEntries j (coveredFrames r) s
  { tr.2.2 with
    cw := { withDeadline s.now s.cw with
      assembly := s.cw.assembly ++ chunkItem s.mem r ++ (trackHeader r ++ tr.1)
      streamPos := s.cw.streamPos + chunkItemLength r + trackItemLength r
      lastSequence := some r.sequence, lastTracked := raisedFrame s.cw.lastTracked r, inHand := none
      queue := [⟨i, r, none, j, s.cw.streamPos,
        some (s.cw.streamPos + chunkItemLength r + trackItemLength r), tr.2.1⟩] } }

/-- The Path Unit's work does not touch what this speaks of. -/
theorem PairFits.work {j i : Nat} (h : PairFits s j i r) (k : PathWork s t) : PairFits t j i r where
  recording := k.cw ▸ h.recording
  jobless := k.cw ▸ h.jobless
  filling := k.cw ▸ h.filling
  noChange := k.sm ▸ h.noChange
  opened := k.sm ▸ h.opened
  queue := k.cw ▸ h.queue
  inHand := k.cw ▸ h.inHand
  room := k.cw ▸ h.room

theorem PairFits.begins {j i : Nat} (h : PairFits s j i r) : cwStartPair r.sequence s = pairBegun s j i r := by
  unfold cwStartPair
  rw [h.opened]
  exact cwModifyEntry_alone (e := takenEntry i r) _ h.queue rfl

theorem PairFits.chunk {j i : Nat} (h : PairFits s j i r) : cwStep (pairBegun s j i r) = some (chunkWritten s j i r) := by
  obtain ⟨-, ⟨-, -, -, hstop, hreloc⟩, hfill, hchange, hopen, -, -, hroom⟩ := h
  have hstep : cwStep (pairBegun s j i r) = cwJobStep (pairBegun s j i r) :=
    cwStep_job hstop hreloc hfill hchange (by show s.cw.assembly.length < 8192; omega)
  have hchunk := cwJobStep_chunk (s := pairBegun s j i r) (e := ⟨i, r, none, j, s.cw.streamPos, none, 0⟩) rfl rfl rfl hopen
    (by show s.cw.assembly.length + _ ≤ _; omega)
  rw [hstep, hchunk]
  unfold pairBegun
  rw [trackEntries_cw]
  rfl

theorem PairFits.track {j i : Nat} (h : PairFits s j i r) : cwStep (chunkWritten s j i r) = some (pairWritten s j i r) := by
  obtain ⟨-, ⟨hjob, hreappend, -, hstop, hreloc⟩, hfill, hchange, -, -, hhand, hroom⟩ := h
  have htrack := trackItem_length j r s
  have hlen : (s.cw.assembly ++ chunkItem s.mem r).length = s.cw.assembly.length + chunkItemLength r := by
    rw [List.length_append, chunkItem_length]
  have hchunk : 16 ≤ chunkItemLength r := Nat.le_add_right _ _
  have hitem : 16 ≤ trackItemLength r := Nat.le_add_right _ _
  have hsm : (chunkWritten s j i r).sm.change = none := by
    rw [← hchange, ← (trackEntries_work j (coveredFrames r) s).sm]
    rfl
  have hstep : cwStep (chunkWritten s j i r) = cwJobStep (chunkWritten s j i r) :=
    cwStep_job hstop hreloc hfill hsm (by show (s.cw.assembly ++ _).length < 8192; omega)
  have hpair := cwJobStep_track (s := chunkWritten s j i r) (rest := trackHeader r ++ (trackEntries j (coveredFrames r) s).1)
    (e := ⟨i, r, none, j, s.cw.streamPos, none, (trackEntries j (coveredFrames r) s).2.1⟩) rfl rfl rfl
    (fun c => by rw [c, List.length_nil] at htrack; omega)
    (fun c : s.cw.assembly ++ _ = [] => by rw [c, List.length_nil] at hlen; omega)
    (by show (s.cw.assembly ++ _).length + _ ≤ _; omega) hreappend hhand
  rw [hstep, hpair, htrack, ← hjob]
  rfl

/-- With its pair written the writer rests (R113, R125). -/
theorem PairFits.rests {j i : Nat} (h : PairFits s j i r) (hp : s.part.state ≠ .off) (hg : s.ga.sysen = true)
    (hm : s.mu.marks = []) (hmount : s.sm.mount = none) (hformat : s.sm.format = none) : Resting (pairWritten s j i r) := by
  obtain ⟨hrec, ⟨hjob, hreappend, hresume, hstop, -⟩, -, -, -, -, -, hroom⟩ := h
  have hw := trackEntries_work j (coveredFrames r) s
  have hlen : (s.cw.assembly ++ chunkItem s.mem r ++ (trackHeader r ++ (trackEntries j (coveredFrames r) s).1)).length
      < 8192 := by
    rw [List.length_append, List.length_append, chunkItem_length, trackItem_length]
    exact hroom
  exact {
    powered := by show (trackEntries j (coveredFrames r) s).2.2.part.state ≠ _; rw [hw.part]; exact hp
    asserted := by show (trackEntries j (coveredFrames r) s).2.2.ga.sysen = _; rw [hw.ga]; exact hg
    oldestUnready := fun e he => by cases he; rfl
    noJob := hjob
    noReappend := hreappend
    noResume := hresume
    noStopDue := hstop
    notFull := .inl hlen
    notClosing := .inl (by show s.cw.writer ≠ _; rw [hrec]; decide)
    noMarks := by show (trackEntries j (coveredFrames r) s).2.2.mu.marks = _; rw [hw.mu]; exact hm
    noMount := by show (trackEntries j (coveredFrames r) s).2.2.sm.mount = _; rw [hw.sm]; exact hmount
    noFormat := by show (trackEntries j (coveredFrames r) s).2.2.sm.format = _; rw [hw.sm]; exact hformat }

/-- A writer at rest has no step to take. -/
theorem Resting.step (h : Resting s) : cwStep s = none := by
  by_cases hp : s.cw.programming = true
  · exact cwStep_waiting h.noStopDue (.inr (.inl hp))
  · exact cwStep_idle h.noJob h.noReappend h.noResume h.noStopDue (h.notFull.resolve_right hp)
      (h.notClosing.resolve_right hp)

/-- The run of a writer with such a pair to write (R113, R125). -/
theorem PairFits.run {j i : Nat} (h : PairFits s j i r) (ht : s.part.transition = .none)
    (hrest : Resting (pairWritten s j i r)) :
    cwRun (cwStartPair r.sequence s) = pairWritten s j i r := by
  have hresetting : (pairBegun s j i r).resetting = false := by
    show decide (s.part.transition = .reset) = false
    rw [ht]
    rfl
  unfold cwRun
  rw [h.begins, if_neg (by rw [hresetting]; decide), cwSteps_succ h.chunk, cwSteps_succ h.track, cwSteps_none _ hrest.step,
    cwPublish_unready hrest.oldestUnready]

/-- The writer after the pair, seen from the state at the first byte (R125, R127). -/
theorem pairWritten_eq (s : State) (j i : Nat) (r : Request) :
    pairWritten s j i r
      = { (if s.cw.assembly = [] then cwSetDeadline s else s) with
          mem := (trackEntries j (coveredFrames r) s).2.2.mem, pu := (trackEntries j (coveredFrames r) s).2.2.pu
          cw := (pairWritten s j i r).cw } := by
  have hw := (trackEntries_work j (coveredFrames r) s).rest
  rw [deadline_begins]
  exact congrArg (fun u : State => { u with cw := (pairWritten s j i r).cw }) hw

/-! ### A Media request is judged (R114, R124) -/

/-- A Media whose pair fits its segment is written (R124). -/
theorem judgeMedia_writes (hlow : lowEnergy s.ga = false) (hl : 0 < r.length) (hmax : r.length ≤ 1048576)
    (hf : r.frameCount ≤ 32) (hb : r.buffer + r.length ≤ ramBytes)
    (hc : chunkItemLength r + trackItemLength r ≤ openCapacity s - s.cw.streamPos) :
    judgeMedia r s = (false, cwStartPair r.sequence (puSkipBelow r.firstFrame s)) := by
  have hw := puSkipBelow_work (PathWork.refl s) r.firstFrame
  have hcap : openCapacity (puSkipBelow r.firstFrame s) - (puSkipBelow r.firstFrame s).cw.streamPos
      = openCapacity s - s.cw.streamPos := by
    unfold openCapacity
    rw [hw.sm, hw.cw]
  unfold judgeMedia
  rw [hlow, if_neg (by decide), if_neg (by omega), if_neg (by omega)]
  exact if_neg (by rw [hcap]; omega)

/-- A taken Media in Recording is judged by R124. -/
theorem cwJudge_media_recording (hk : kindOf r.kind = some .media) (hw : s.cw.writer = .recording) :
    cwJudge r s = judgeMedia r s := by
  unfold cwJudge
  rw [hk, hw]
  rfl

/-- A taken Media in Stopped is refused, with a table in force by the energy (R114). -/
theorem cwJudge_media_stopped (hk : kindOf r.kind = some .media) (hw : s.cw.writer = .stopped)
    (hc : s.cw.cause ≠ .unformatted) :
    cwJudge r s = cwRefuse (if lowEnergy s.ga then .lowPower else .notRecording) s := by
  unfold cwJudge
  rw [hk, hw]
  exact if_neg fun c => hc c.1

/-- A Media taken in Recording whose pair fits its page leaves the pair written, the frames below its first told to the Path
Unit before (R58, R124). -/
theorem live_media {n : Stamp} {i base j : Nat} {a b : State} (hs : Calm s) (htakes : takesSlot .media i s = true)
    (htable : s.cw.table = some base) (hr : r = slotRequest s base i) (ha : a = takenSlot (s.advance n.toNat) base i r)
    (hb : b = puSkipBelow r.firstFrame a) (hrec : s.cw.writer = .recording) (hfill : s.cw.programming = false)
    (hopen : openIndex s.sm = some j) (hroom : s.cw.assembly.length + chunkItemLength r + trackItemLength r < 8192)
    (hmedia : judgeMedia r a = (false, cwStartPair r.sequence b)) :
    live (bodyTake .media n i) s = pairWritten b j i r := by
  subst ha
  have k := takesSlot_taking htakes htable
  have hw := hb ▸ puSkipBelow_work (PathWork.refl _) r.firstFrame
  have hfits : PairFits b j i r := PairFits.work (s := takenSlot (s.advance n.toNat) base i r)
    ⟨hrec, ⟨hs.noJob, hs.noReappend, hs.noResume, hs.noStopDue, k.noReloc⟩, hfill, k.noChange, hopen, rfl, rfl, hroom⟩ hw
  have hrest := hfits.rests (by rw [hw.part]; exact hs.powered) (by rw [hw.ga]; exact hs.asserted)
    (by rw [hw.mu]; exact hs.noMarks) (by rw [hw.sm]; exact hs.noMount) (by rw [hw.sm]; exact hs.noFormat)
  refine live_taken hs htakes htable hr ?_ hrest
  rw [cwJudge_media_recording (by rw [hr]; exact k.kind) (by exact hrec), hmedia]
  exact hfits.run (by rw [hw.part]; exact k.staying) hrest

/-- Settles O39: the pair by the writer's two steps, and the refusals by their judgement. -/
theorem mediaAppended : Obligations.MediaAppended := by
  refine ⟨?_, fun n i base r s a hs htakes htable hr ha => ?_⟩
  · intro n i base j pad r s a b c tr hs htakes htable hr hrec hlow hfill hl hmax hframes hbuffer hopen hpad hcap hroom ha
      hb htr hc
    have hchunk : chunkItemLength r = 16 + r.length + pad := by
      unfold chunkItemLength
      omega
    have hmedia : judgeMedia r a = (false, cwStartPair r.sequence b) := by
      rw [ha] at hb ⊢
      rw [hb]
      exact judgeMedia_writes hlow hl hmax hframes hbuffer (by rw [hchunk]; exact hcap)
    have hlive := live_media hs htakes htable hr ha hb hrec hfill hopen (by rw [hchunk]; exact hroom) hmedia
    have hcw : b.cw = a.cw := hb ▸ (puSkipBelow_work (PathWork.refl a) r.firstFrame).cw
    subst ha hpad
    have hassembly : b.cw.assembly = s.cw.assembly := by rw [hcw]; rfl
    have hpos : b.cw.streamPos = s.cw.streamPos := by rw [hcw]; rfl
    have hlast : b.cw.lastTracked = s.cw.lastTracked := by rw [hcw]; rfl
    refine congrArg Host.Outcome.next (hlive.trans ?_)
    rw [pairWritten_eq, htr, hc, ← hassembly, ← hpos, ← hlast, deadline_begins]
    unfold pairWritten
    rw [hchunk]
    rfl
  · have hkind : kindOf r.kind = some .media := hr ▸ (takesSlot_taking htakes htable).kind
    subst ha
    refine ⟨fun hw hlow => ?_, fun hw hcause => ?_⟩
    · refine congrArg Host.Outcome.next (live_refused hs htakes htable hr ?_)
      rw [cwJudge_media_recording hkind (by exact hw)]
      exact if_pos hlow
    · exact congrArg Host.Outcome.next (live_refused hs htakes htable hr (cwJudge_media_stopped hkind (by exact hw) hcause))

end Sys2Proof.Machine
end

section
/-! What the flash device's completions leave alone (R73, R76), the records of the block it retires (R77, R78, R82), and the
page it delivers (R65, R66). -/

namespace Sys2Proof.Machine

variable {s t : State}

/-! ### Completions reach the recording blocks only (R73, R76) -/

/-- A live command that makes a recording change at a time, with no cutoff sequence, ends in one (R162). -/
theorem live_recording {f : State → State} {n : Nat} (hp : s.part.state ≠ .off) (hs : s.ga.sysen = true)
    (hg : s.ga.grace = none) (h : Recording (s.advance n) (f s)) : Recording (s.advance n) (live f s) := by
  have hga : (f s).ga = s.ga := h.gauge hg
  unfold live
  rw [if_neg hp]
  exact h.trans (finish_recording (by rw [hga]; exact hs) (by rw [hga]; exact hg))

/-- Settles O60: each completion is a recording change at its time, and so is all that follows it. -/
theorem flashContained : Obligations.FlashContained := by
  intro n o id page v pass c s u hp hs hg hc he
  have hr : Recording (s.advance n.toNat) u := by
    rcases hc with rfl | rfl | rfl | rfl | rfl | rfl <;> obtain rfl := Host.Outcome.next.inj he
    · exact live_recording hp hs hg (bodyResetDone_recording n o s)
    · exact live_recording hp hs hg (bodyReadIdDone_recording n id o s)
    · exact live_recording hp hs hg (bodyReadPageDone_recording n page o s)
    · exact live_recording hp hs hg (bodyReadMarkerDone_recording n v o s)
    · exact live_recording hp hs hg (bodyProgramPageDone_recording n pass o s)
    · exact live_recording hp hs hg (bodyEraseBlockDone_recording n pass o s)
  have hhp : { u.hp with events := s.hp.events } = s.hp := hr.hp
  have hmu : { u.mu with marks := s.mu.marks } = s.mu := hr.mu
  exact ⟨hr.part, hr.rck, hr.cc, hr.gauge hg, by rw [← hhp], by rw [← hmu], hr.pending⟩

/-! ### The retirement of a block (R77, R78, R82) -/

/-- A number that is not listed makes the list longer by one (R77). -/
theorem insertAsc_length_new {n : Nat} {l : List Nat} (h : n ∉ l) : (insertAsc n l).length = l.length + 1 := by
  induction l with
  | nil => rfl
  | cons a l ih =>
    simp only [List.mem_cons, not_or] at h
    unfold insertAsc
    rw [if_neg h.1]
    split
    · rfl
    · exact congrArg Nat.succ (ih h.2)

/-- A block of the segment space that is listed already (R77). -/
theorem feRetire_listed {b : Nat} (hb : 16 ≤ b) (hl : b ∈ s.fe.bad) :
    feRetire b s = (true, { s with fe.pool := s.fe.pool.erase b }) :=
  (if_neg (by omega)).trans (if_pos (List.contains_iff_mem.2 hl))

/-- One that is not, and the list has room for it or not (R77). -/
theorem feRetire_unlisted {b : Nat} (hb : 16 ≤ b) (hl : b ∉ s.fe.bad) :
    feRetire b s
      = if s.fe.bad.length < 512 then
          (true, { s with fe.bad := insertAsc b s.fe.bad, fe.pool := s.fe.pool.erase b })
        else (false, feSetWorn s) :=
  (if_neg (by omega)).trans (if_neg fun c => hl (List.contains_iff_mem.1 c))

/-- The Worn flag is set, and of FE nothing else changes (R82). -/
theorem feSetWorn_fe (s : State) : (feSetWorn s).fe = { s.fe with worn := true } := by
  unfold feSetWorn
  split
  · next h => rw [← h]
  · rw [raise_fe]

/-- A block of the table area becomes Bad in the map, and the Worn flag is set below 2 Good ones (R78). -/
theorem feMarkBad_fe (b : Nat) (s : State) :
    (feMarkBad b s).fe
      = { s.fe with
          tableMap := s.fe.tableMap &&& ~~~((1 : BitVec 16) <<< b)
          worn := s.fe.worn || decide (goodCount (s.fe.tableMap &&& ~~~((1 : BitVec 16) <<< b)) < 2) } := by
  unfold feMarkBad
  dsimp only
  split
  · next h => rw [feSetWorn_fe, decide_eq_true h, Bool.or_true]
  · next h => rw [decide_eq_false h, Bool.or_false]

/-- Settles O30: a block listed already, one that is not by the room of the list, and a block of the table area. -/
theorem blockRetired : Obligations.BlockRetired := by
  intro b s
  refine ⟨feRetire_listed, fun hb hl hn => ?_, fun hb hl hn => ?_, fun hb => ?_⟩
  · exact ⟨_, (feRetire_unlisted hb hl).trans (if_pos hn), fun k => mem_insertAsc b k _, insertAsc_length_new hl,
      insertAsc_ascending b⟩
  · exact (feRetire_unlisted hb hl).trans (if_neg (by omega))
  · have hr : feRetire b s = (true, feMarkBad b s) := if_pos hb
    rw [hr, feMarkBad_fe]
    exact ⟨rfl, rfl, rfl, rfl, by simp⟩

/-! ### The page as delivered (R65, R66) -/

/-- The indices found ascend. -/
theorem indicesWhere_pairwise {α : Type} (p : α → Bool) (l : List α) : (indicesWhere p l).Pairwise (· < ·) := by
  have e : (l.zipIdx.map fun x => x.2) = List.range' 0 l.length := List.zipIdx_map_snd 0 l
  have hn : (l.zipIdx.map fun x => x.2).Pairwise (· < ·) := e ▸ List.pairwise_lt_range'
  exact hn.sublist (List.filter_sublist.map _)

/-- The largest count of a report is found by passing over all: it bounds them, and it is the first value or one of them. -/
theorem worst_of_counts (l : List (Option Nat)) (w : Nat) :
    w ≤ l.foldl (fun w c => max w (c.getD 0)) w
      ∧ (∀ n, some n ∈ l → n ≤ l.foldl (fun w c => max w (c.getD 0)) w)
      ∧ (l.foldl (fun w c => max w (c.getD 0)) w = w ∨ some (l.foldl (fun w c => max w (c.getD 0)) w) ∈ l) := by
  induction l generalizing w with
  | nil => exact ⟨le_rfl, nofun, .inl rfl⟩
  | cons c l ih =>
    obtain ⟨hw, hl, hm⟩ := ih (max w (c.getD 0))
    rw [List.foldl_cons]
    generalize l.foldl (fun w c => max w (c.getD 0)) (max w (c.getD 0)) = k at hw hl hm
    refine ⟨by omega, fun n hn => ?_, ?_⟩
    · rcases List.mem_cons.1 hn with rfl | hn
      · simp only [Option.getD_some] at hw
        omega
      · exact hl n hn
    · rcases hm with hm | hm
      · cases c with
        | none => exact .inl (hm.trans (Nat.max_zero w))
        | some n =>
          rcases le_total n w with h | h
          · exact .inl (hm.trans (max_eq_left h))
          · exact .inr (by rw [hm, Option.getD_some, max_eq_right h]; exact List.mem_cons_self ..)
      · exact .inr (List.mem_cons_of_mem _ hm)

/-- A page all of whose codewords hold at most 8 zero bits reads as erased (R66). -/
theorem pageErased_iff (p : PageRead) :
    pageErased p = true ↔ ∀ c ∈ p.codewords, (c.bytes ++ c.parity).foldl (fun n b => n + zeroBits b) 0 ≤ 8 := by
  unfold pageErased codewordZeros
  simp

/-- The erased page (R66). -/
theorem pageResult_erased {p : PageRead} (h : pageErased p = true) :
    pageResult p
      = { data := List.replicate 8192 0xFF, record := List.replicate 40 0xFF, counts := List.replicate 8 (some 0)
          worst := 0, bad := [], erased := true } := if_pos h

/-- Any other page, as decoded (R65). -/
theorem pageResult_decoded {p : PageRead} (h : pageErased p = false) :
    pageResult p
      = { data := (p.codewords.map codewordBytes).flatten.take 8192
          record := ((p.codewords.map codewordBytes).flatten.drop 8192).take 40
          counts := p.codewords.map codewordCount
          worst := (p.codewords.map codewordCount).foldl (fun w c => max w (c.getD 0)) 0
          bad := indicesWhere (fun c => c.isNone) (p.codewords.map codewordCount), erased := false } :=
  if_neg (by rw [h]; decide)

/-- The uncorrectable codewords are those without a count (R65). -/
theorem mem_uncorrectable (l : List (Option Nat)) (k : Nat) : k ∈ indicesWhere (fun c => c.isNone) l ↔ l[k]? = some none := by
  refine ⟨fun h => ?_, fun h => indicesWhere_mem h rfl⟩
  obtain ⟨c, hc, hn⟩ := mem_indicesWhere h
  rw [hc, Option.isNone_iff_eq_none.1 hn]

/-- The outcome is Uncorrectable where a codeword is (R65). -/
theorem pageOutcome_uncorrectable (r : PageResult) : pageOutcome r = .uncorrectable ↔ r.bad ≠ [] := by
  unfold pageOutcome
  split
  · next h => exact ⟨fun _ => h, fun _ => rfl⟩
  · next h => refine ⟨fun c => ?_, fun c => absurd c h⟩; split at c <;> cases c

/-- It is Corrected where none is and some count is not 0 (R65). -/
theorem pageOutcome_corrected (r : PageResult) :
    pageOutcome r = .corrected ↔ r.bad = [] ∧ ∃ n, some n ∈ r.counts ∧ 0 < n := by
  have ha : (r.counts.any fun c => decide (0 < c.getD 0)) = true ↔ ∃ n, some n ∈ r.counts ∧ 0 < n := by
    simp only [List.any_eq_true, decide_eq_true_eq]
    refine ⟨?_, fun ⟨n, hn, h0⟩ => ⟨some n, hn, h0⟩⟩
    rintro ⟨c, hc, h0⟩
    cases c with
    | none => exact absurd h0 (Nat.lt_irrefl 0)
    | some n => exact ⟨n, hc, h0⟩
  unfold pageOutcome
  rw [← ha]
  split
  · next h => simp [h]
  · next h => split <;> simp_all

/-- Settles O28: the erased page, and the report of any other. -/
theorem erasedPage : Obligations.ErasedPage := by
  intro p
  refine ⟨fun h => ?_, fun ⟨c, hc, hz⟩ => ?_⟩
  · rw [pageResult_erased ((pageErased_iff p).2 h)]
    exact ⟨rfl, by decide⟩
  · have hn : pageErased p = false :=
      Bool.eq_false_iff.2 fun h => absurd ((pageErased_iff p).1 h c hc) (by omega)
    obtain ⟨-, hle, hmem⟩ := worst_of_counts (p.codewords.map codewordCount) 0
    refine ⟨_, rfl, ?_⟩
    rw [pageOutcome_uncorrectable, pageOutcome_corrected, pageResult_decoded hn]
    refine ⟨rfl, rfl, rfl, rfl, hle, hmem, mem_uncorrectable _, indicesWhere_pairwise _ _, Iff.rfl, Iff.rfl⟩

end Sys2Proof.Machine
end

section
/-! The flash rail: Standby (R84, R183), power-up, and the Reset in front of an operation (R67, R68, R71, R75). -/

namespace Sys2Proof.Machine

variable {s t : State}

/-! ### Standby (R84, R183) -/

/-- A command written to CONTROL with neither the Reload nor the Attention bit, outside Standby (R169). -/
theorem bodyRegister_command {u : Stamp} {v : Word} {course : ReadCourse} (hp : s.part.state ≠ .standby)
    (h8 : v.getLsbD 8 = false) (h9 : v.getLsbD 9 = false) :
    bodyRegister u 0 v course s = (judgeCommand (v.toNat % 8) course (s.advance u.toNat)).2 := by
  have ha : portAccess u false s = s.advance u.toNat := if_neg fun c => hp c.1
  have hc : controlWrite v course (s.advance u.toNat) = (judgeCommand (v.toNat % 8) course (s.advance u.toNat)).2 := by
    unfold controlWrite
    simp only [h8, h9, Bool.false_eq_true, false_and, if_false]
  unfold bodyRegister
  rw [ha]
  exact hc

/-- The rail is off with nothing in flight (R183). -/
theorem railIsOff_iff (f : Fe) : railIsOff f = true ↔ f.inFlight = none ∧ (f.rail = .off ∨ f.rail = .failed) := by
  unfold railIsOff railOn
  cases f.rail <;> simp

/-- The entry to Standby comes with the rail off (R183). -/
theorem bodyStandbyEntry_enters (u : Stamp) (ht : s.part.transition = .standby) (h : railIsOff s.fe = true) :
    bodyStandbyEntry u s = { s.advance u.toNat with part.state := .standby, part.transition := .none } :=
  if_pos ⟨ht, h⟩

/-- Until then it waits (log 6). -/
theorem bodyStandbyEntry_waits (u : Stamp) (h : railIsOff s.fe = false) : bodyStandbyEntry u s = s.advance u.toNat :=
  if_neg fun c => Bool.false_ne_true (h.symm.trans c.2)

/-- Settles O15: the Standby by what is in flight, its entry by the rail, and the wake by the requests that wait. -/
theorem standbyTaken : Obligations.StandbyTaken := by
  intro u s h
  refine ⟨fun hp ht => ?_, fun ht hf hr => ?_, fun ht hw => ?_, fun hp => ?_⟩
  · have hb : bodyRegister u 0 3 .first s = takeStandby (s.advance u.toNat) :=
      (bodyRegister_command (by rw [hp]; decide) rfl rfl).trans (if_pos ⟨hp, ht⟩)
    by_cases hc : s.fe.inFlight = none ∧ s.fe.rail ≠ .failed
    · rw [if_pos hc]
      exact congrArg _ (h.live_eq (hb.trans (if_pos hc)) h.powered rfl rfl rfl rfl)
    · rw [if_neg hc]
      exact congrArg _ (h.live_eq (hb.trans (if_neg hc)) h.powered rfl rfl rfl rfl)
  · have hb := bodyStandbyEntry_enters (s := s) u ht ((railIsOff_iff _).2 ⟨hf, hr⟩)
    exact congrArg _ (h.live_eq hb (by nofun) rfl rfl rfl rfl)
  · have hoff : railIsOff s.fe = false := by
      rw [Bool.eq_false_iff, Ne, railIsOff_iff]
      rintro ⟨hf, hr⟩
      rcases hw with hw | hw | hw | hw
      · exact hw hf
      all_goals rw [hw] at hr; rcases hr with hr | hr <;> cases hr
    exact congrArg _ (h.live_rck (bodyStandbyEntry_waits u hoff))
  · rfl

/-! ### Power-up and Reset (R67, R68, R71, R75) -/

/-- Outside a Standby transition the rail is Ready after an operation (R76). -/
theorem feRailAfter_ready (h : s.part.transition ≠ .standby) : feRailAfter s = { s with fe.rail := .ready } := if_neg h

/-- With no cutoff sequence in progress the end of an operation is the next grant, in either order (R76, R162). -/
theorem grantAndCheck_grants (o : EndOrder) (h : s.ga.grace = none) : grantAndCheck o s = feGrant s := by
  have hg : (feGrant s).ga = s.ga := (feGrant_recording (Recording.refl s)).gauge h
  unfold grantAndCheck
  split
  · rw [gaCheck_none h]
  · rw [gaCheck_none (by rw [hg]; exact h)]

/-- Where no request waits none is granted (R75). -/
theorem feGrant_unasked (h : s.fe.waiting = []) : feGrant s = s := by
  unfold feGrant
  rw [h]
  exact ite_self s

/-- The next request is granted (R75). -/
theorem feGrant_next {w : FlashRequest} (hr : s.fe.rail = .ready) (hf : s.fe.inFlight = none)
    (hg : grantAllowed s = true) (hw : nextRequest s.fe.waiting = some w) : feGrant s = feGrantRequest w s := by
  unfold feGrant
  rw [if_pos ⟨hr, hf, hg⟩, hw]

/-- With the flash restored the operation itself is issued (R68, R71). -/
theorem feGrantRequest_restored (w : FlashRequest) (h : s.fe.restored = true) :
    feGrantRequest w s = feIssueOp w { s with fe.waiting := s.fe.waiting.erase w } := if_pos h

/-- Grants are made outside a Standby or reset transition and outside Standby (R84, R184). -/
theorem grantAllowed_of (hp : s.part.state ≠ .standby) (ht : s.part.transition = .none ∨ s.part.transition = .stop) :
    grantAllowed s = true := by
  unfold grantAllowed
  rcases ht with ht | ht <;> simp [ht, hp]

/-- Settles O26: the end of the settle time by the rail, and the end of a Reset by what it stands in front of. -/
theorem resetGrants : Obligations.ResetGrants := by
  refine ⟨fun s h => ⟨fun e he hr ht => ?_, fun hn => ?_⟩, fun u o d img s h hg ht hp => ?_⟩
  · have hb : bodySettleEnd s = feStartupReset (s.advance e) := by
      unfold bodySettleEnd State.resetting
      rw [he]
      exact if_pos ⟨hr, by simpa using ht⟩
    exact congrArg _ (h.live_eq hb h.powered rfl rfl rfl rfl)
  · have hb : bodySettleEnd s = s := by
      unfold bodySettleEnd State.resetting
      cases he : s.fe.settleEnd with
      | none => rfl
      | some e =>
        refine if_neg fun c => ?_
        rcases hn with hn | hn | hn
        · rw [he] at hn
          cases hn
        · exact hn c.1
        · simp [hn] at c
    exact congrArg _ (h.live_eq hb h.powered rfl rfl rfl rfl)
  have hts : s.part.transition ≠ .standby := by rcases ht with ht | ht <;> rw [ht] <;> decide
  have hready : ∀ f, s.fe.inFlight = some ⟨none, true, d, f⟩ →
      bodyResetDone u o s
        = feGrant { s.advance u.toNat with
            fe.inFlight := none, fe.timeouts := 0, fe.restored := true, fe.rail := .ready } := fun f hf => by
    unfold bodyResetDone feStartupDone
    simp only [advance_fe, hf, if_true]
    rw [feRailAfter_ready (by exact hts), grantAndCheck_grants o (by exact hg)]
  refine ⟨fun hf hw => ?_, fun w limit hl => ⟨fun hf hw => ?_, fun hf => ?_⟩⟩
  · have hb := (hready img hf).trans (feGrant_unasked (by exact hw))
    exact congrArg _ (h.live_eq hb h.powered rfl rfl rfl rfl)
  · have hb := (hready img hf).trans (feGrant_next rfl rfl (grantAllowed_of hp ht) hw)
    rw [feGrantRequest_restored w rfl] at hb
    have hd : limit = opDeadline w.op := by rw [hl]; cases w.op <;> rfl
    subst hd
    exact congrArg _ (h.live_eq hb h.powered rfl rfl rfl rfl)
  · have hb : bodyResetDone u o s = feFrontDone w (s.advance u.toNat) := by
      unfold bodyResetDone
      simp only [advance_fe, hf, if_true]
    have hd : limit = opDeadline w.op := by rw [hl]; cases w.op <;> rfl
    subst hd
    exact congrArg _ (h.live_eq hb h.powered rfl rfl rfl rfl)

end Sys2Proof.Machine
end

section
/-! The end of a flash operation whose requester asks for another (R73, R75, R76), the entry of the writer to Faulted (R117),
and OPERATION_TIMEOUT (R73, R74). -/

namespace Sys2Proof.Machine

variable {s t : State} {w : FlashRequest} {op : FlashOp} {r : FlashResult} {k : Sm}

/-! ### The Flash Engine between two operations (R69, R73, R75, R76) -/

/-- The Flash Engine at the end of an operation that leaves the rail Ready (R69, R73, R76). -/
def endedFe (n : Nat) (restored : Bool) (f : Fe) : Fe :=
  { f with inFlight := none, restored := restored, idle := f.idleLoad, timeouts := n, rail := .ready }

/-- The Flash Engine once it has granted a request: the operation is issued, or the Reset in front of it (R68, R71). -/
def grantedFe (w : FlashRequest) (now : Nat) (f : Fe) : Fe :=
  { f with
    rail := .busy
    inFlight := some (if f.restored then ⟨some w, false, now + opDeadline w.op, opImage w.op⟩
      else ⟨some w, true, now + resetDeadline, []⟩) }

/-- An operation ends without a timeout (R73, R76). -/
theorem feEndDone_ended (h : s.part.transition = .none) :
    feEndDone s = { s with fe := endedFe 0 s.fe.restored s.fe } := feRailAfter_ready (by exact fun c => by rw [h] at c; cases c)

/-- An operation ends by its deadline, not the third in a row (R73). -/
theorem feEndTimeout_ended (h : s.part.transition = .none) (hn : s.fe.timeouts + 1 < 3) :
    feEndTimeout s = { s with fe := endedFe (s.fe.timeouts + 1) false s.fe } :=
  (if_neg (by exact Nat.not_le.2 hn)).trans (feRailAfter_ready (by exact fun c => by rw [h] at c; cases c))

/-- The only request is granted (R75). -/
theorem feGrant_only (hr : s.fe.rail = .ready) (hf : s.fe.inFlight = none) (hg : grantAllowed s = true)
    (hw : s.fe.waiting = [w]) : feGrant s = { s with fe := grantedFe w s.now { s.fe with waiting := [] } } := by
  rw [feGrant_next hr hf hg (w := w) (by rw [hw]; rfl)]
  unfold feGrantRequest grantedFe feIssueOp
  rw [hw, List.erase_cons_head]
  dsimp only
  split <;> rfl

/-- With the rail Ready and no other request a request is granted as it joins (R75). -/
theorem feJoin_only (hr : s.fe.rail = .ready) (hf : s.fe.inFlight = none) (hg : grantAllowed s = true)
    (hw : s.fe.waiting = []) : feJoin w s = { s with fe := grantedFe w s.now s.fe } := by
  have hj : feJoin w s = feGrant { s with fe.waiting := s.fe.waiting ++ [w] } :=
    if_neg fun c => by rw [show s.fe.rail = .off from c.1] at hr; cases hr
  rw [hj, feGrant_only (w := w) (by exact hr) (by exact hf) (by exact hg) (by rw [hw]; rfl), ← hw]
  rfl

/-- A requester with nothing outstanding asks, and its request joins those that wait (R75). -/
theorem flashAsk_joins {q : Requester} (hr : refusedAtArrival s.fe op = false) (ho : outstanding s.fe q = false) :
    flashAsk q op s = feJoin ⟨q, op, s.now⟩ s := by
  unfold flashAsk feArrive
  simp only [hr, ho, Bool.false_eq_true, if_false]

/-- One with an operation outstanding asks, and its request is held back (R75). -/
theorem flashAsk_held {q : Requester} (hr : refusedAtArrival s.fe op = false) (ho : outstanding s.fe q = true) :
    flashAsk q op s = { s with fe.heldBack := s.fe.heldBack ++ [⟨q, op, s.now⟩] } := by
  unfold flashAsk feArrive
  simp only [hr, ho, Bool.false_eq_true, if_false, if_true]

/-- A known flash device whose rail is not Failed refuses nothing (R72, R74). -/
theorem refusedAtArrival_not {f : Fe} (hr : f.rail ≠ .failed) (hi : f.identity = .isMatch) (op : FlashOp) :
    refusedAtArrival f op = false := by
  unfold refusedAtArrival
  simp [hr, hi]

/-- With no request held back none joins (R75). -/
theorem feUnhold_none (q : Requester) (h : s.fe.heldBack = []) : feUnhold q s = s := by
  unfold feUnhold
  rw [h, List.filter_nil, List.filter_nil, List.append_nil, ← h]

/-- Nothing is to be answered while the rail is not Failed (R74). -/
theorem answerFailed_not (h : s.fe.rail ≠ .failed) : answerFailed s = s := if_neg h

/-- An operation of the requester `w.requester` is in flight, with nothing else asked, no cutoff sequence and no transition
in progress (R75, R162, R184). -/
structure Serving (s : State) (w : FlashRequest) : Prop where
  inFlight : ∃ front d img, s.fe.inFlight = some ⟨some w, front, d, img⟩
  noWaiting : s.fe.waiting = []
  noHeldBack : s.fe.heldBack = []
  busy : s.fe.rail = .busy
  noGrace : s.ga.grace = none
  steady : s.part.transition = .none
  awake : s.part.state ≠ .standby

theorem Serving.outstanding (h : Serving s w) : outstanding s.fe w.requester = true := by
  obtain ⟨front, d, img, hf⟩ := h.inFlight
  unfold Machine.outstanding
  simp [hf]

theorem Serving.resetting (h : Serving s w) : s.resetting = false := by
  unfold State.resetting
  rw [h.steady]
  rfl

/-- The requester answers the result by asking for `op`, in a state that differs in the Segment Manager alone. -/
def AsksAgain (s : State) (w : FlashRequest) (r : FlashResult) (op : FlashOp) (k : Sm) : Prop :=
  ∀ f g, flashAsk w.requester op { s with sm := k, fe := f } = { s with sm := k, fe := g } →
    returnResult w r { s with fe := f } = { s with sm := k, fe := g }

/-- Before the operation has ended the request for the next is held back (R75). -/
theorem Serving.holds (h : Serving s w) (hi : s.fe.identity = .isMatch) (ha : AsksAgain s w r op k) :
    returnResult w r s = { s with sm := k, fe.heldBack := [⟨w.requester, op, s.rck.clock⟩] } := by
  refine ha s.fe _ ?_
  rw [flashAsk_held (refusedAtArrival_not (by exact fun c => by rw [h.busy] at c; cases c) (by exact hi) op)
    (by exact h.outstanding), h.noHeldBack]
  rfl

/-- An operation ends and its requester asks for the next, which is granted, whichever of the grant and the result is taken
first (R75, R76). -/
theorem Serving.asks (h : Serving s w) {fe : State → State} {n : Nat} {b : Bool} (o : EndOrder)
    (hi : s.fe.identity = .isMatch)
    (hfe : ∀ (k : Sm) (q : List FlashRequest), fe { s with sm := k, fe.heldBack := q }
      = { s with sm := k, fe := endedFe n b { s.fe with heldBack := q } }) (ha : AsksAgain s w r op k) :
    endOperation o w r fe s
      = { s with sm := k, fe := grantedFe ⟨w.requester, op, s.rck.clock⟩ s.rck.clock (endedFe n b s.fe) } := by
  have hallowed := grantAllowed_of h.awake (.inl h.steady)
  have hfe0 : fe s = { s with fe := endedFe n b s.fe } := hfe s.sm s.fe.heldBack
  unfold endOperation
  split
  · have hu : grantAndCheck o (feUnhold w.requester (fe s)) = { s with fe := endedFe n b s.fe } := by
      rw [hfe0, feUnhold_none _ (by exact h.noHeldBack), grantAndCheck_grants o (by exact h.noGrace),
        feGrant_unasked (by exact h.noWaiting)]
    rw [hu]
    refine ha _ _ ?_
    rw [flashAsk_joins (refusedAtArrival_not (by nofun) (by exact hi) op)
      (by unfold Machine.outstanding endedFe; simp [h.noWaiting])]
    exact feJoin_only rfl rfl (by exact hallowed) h.noWaiting
  · have hu : feUnhold w.requester (fe (returnResult w r s))
        = { s with sm := k, fe := { endedFe n b s.fe with waiting := [⟨w.requester, op, s.rck.clock⟩] } } := by
      rw [h.holds hi ha, hfe]
      unfold feUnhold endedFe
      simp [h.noWaiting, h.noHeldBack]
    rw [hu, answerFailed_not (by nofun), grantAndCheck_grants o (by exact h.noGrace)]
    refine (feGrant_only rfl rfl (by exact hallowed) rfl).trans (congrArg (fun f => ({ s with sm := k, fe := f } : State)) ?_)
    exact congrArg (grantedFe _ _) (by rw [← h.noWaiting]; rfl)

end Sys2Proof.Machine
end

section
/-! OPERATION_TIMEOUT (R73, R74): a read of a Fetch that is asked again or fails (R117, R121), and a start-up Reset (R67). -/

namespace Sys2Proof.Machine

variable {s t : State} {e : QueueEntry} {w : FlashRequest} {op : FlashOp}

/-! ### The entry to Faulted (R117) -/

/-- A request that is ready and stands alone in the queue is published (R115). -/
theorem cwPublish_alone {res : RequestResult} (hq : s.cw.queue = [e]) (he : e.result = some res) (hi : s.cw.inHand = none) :
    cwPublish s = publishedSlot e.slot e.request res s := by
  unfold cwPublish publishFrom
  rw [hq]
  dsimp only
  rw [he]
  dsimp only
  rw [publishSlot_congr (e := e) (f := takenEntry e.slot e.request) (s := s) (t := s) res rfl rfl rfl rfl]
  unfold publishFrom publishedSlot State.raise
  rw [← hi]
  dsimp only
  split <;> rfl

/-- A publication depends on neither the queue nor the hand before it (R115). -/
theorem publishedSlot_congr {i : Nat} {r : Request} {res : RequestResult}
    (h : ({ t with cw.queue := [], cw.inHand := none } : State) = { s with cw.queue := [], cw.inHand := none }) :
    publishedSlot i r res t = publishedSlot i r res s := by
  have ht := congrArg (fun u : State => u.cw.table) h
  have hm := congrArg State.mem h
  have hp := publishSlot_congr (e := takenEntry i r) (f := takenEntry i r) (s := s) (t := t) res rfl rfl (by exact ht) (by exact hm)
  unfold publishedSlot
  rw [hp]
  exact congrArg (fun u => State.raise { u with mem := (publishSlot (takenEntry i r) res s).mem } _) h

/-- The writer's state once it has dropped its work for Faulted, before its requests fail (R117). -/
def faultedCw (c : Cw) : Cw :=
  { c with
    writer := .faulted, assembly := [], programming := false, deadline := none, reloc := none, inHand := none, job := .idle
    pageMark := none, reappend := [], resume := none, stopDue := none }

/-- With no segment Open the writer's entry to Faulted drops its work, fails its requests and publishes (R117). -/
theorem cwGoFaulted_unopened (hi : openIndex s.sm = none) (ha : s.sm.abandoned = false) (hw : s.cw.writer ≠ .faulted) :
    cwGoFaulted s
      = cwReportClosed (cwPublish (cwFailUnready (State.raise
          { s with sm.change := none, cw := faultedCw s.cw } .writerState))) := by
  have hc : ∀ v, smCloseOpen v s = s := fun v => by
    unfold smCloseOpen
    rw [hi]
  have hr : smRewriteAbandoned s = s := if_neg fun c => Bool.false_ne_true (ha.symm.trans c.1)
  have hset : cwSetWriter .faulted (cwFailUnready (cwDropWork s))
      = State.raise { cwFailUnready (cwDropWork s) with cw.writer := .faulted } .writerState := if_neg hw
  unfold cwGoFaulted
  rw [hc, hr, hset]
  unfold cwFailUnready cwReady cwDropWork faultedCw State.raise
  dsimp only
  split <;> rfl

/-- The report that the writer is closed finds no frame owed and no cutoff sequence (R43, R162). -/
theorem cwReportClosed_quiet (ho : noneOwed s) (hg : s.ga.grace = none) : cwReportClosed s = s := by
  unfold cwReportClosed
  rw [puWriterDone_unowed ho, gaCheck_none hg]

/-- The entry to Faulted of a writer with no request (R117). -/
theorem cwGoFaulted_empty (hi : openIndex s.sm = none) (ha : s.sm.abandoned = false) (hw : s.cw.writer ≠ .faulted)
    (ho : noneOwed s) (hg : s.ga.grace = none) (hq : s.cw.queue = []) :
    cwGoFaulted s = State.raise { s with sm.change := none, cw := faultedCw s.cw } .writerState := by
  rw [cwGoFaulted_unopened hi ha hw]
  generalize hu : State.raise { s with sm.change := none, cw := faultedCw s.cw } .writerState = u
  have hqu : u.cw.queue = [] := by rw [← hu, raise_cw]; exact hq
  have hf : cwFailUnready u = u := by
    unfold cwFailUnready cwReady
    rw [hqu, List.map_nil, ← hqu]
  rw [hf, cwPublish_empty hqu, cwReportClosed_quiet (by rw [← hu]; unfold noneOwed; rw [raise_pu]; exact ho)
    (by rw [← hu, raise_ga]; exact hg)]

/-- The entry to Faulted of a writer with one request, which fails and is published (R115, R117). -/
theorem cwGoFaulted_alone (hi : openIndex s.sm = none) (ha : s.sm.abandoned = false) (hw : s.cw.writer ≠ .faulted)
    (ho : noneOwed s) (hg : s.ga.grace = none) (hq : s.cw.queue = [e]) (he : e.result = none) :
    cwGoFaulted s
      = publishedSlot e.slot e.request ⟨.flashFailed, e.request.segment, e.request.byteOffset, 0⟩
          (State.raise { s with sm.change := none, cw := faultedCw s.cw } .writerState) := by
  rw [cwGoFaulted_unopened hi ha hw]
  generalize hu : State.raise { s with sm.change := none, cw := faultedCw s.cw } .writerState = u
  have hcu : u.cw = faultedCw s.cw := by rw [← hu, raise_cw]
  have hqu : u.cw.queue = [e] := by rw [hcu]; exact hq
  have hf : cwFailUnready u = { u with cw.queue := [{ e with result := some (failure e.request .flashFailed) }] } := by
    unfold cwFailUnready cwReady
    rw [hqu, List.map_singleton, he]
    rfl
  have hp : publishedSlot e.slot e.request (failure e.request .flashFailed)
        { u with cw.queue := [{ e with result := some (failure e.request .flashFailed) }] }
      = publishedSlot e.slot e.request (failure e.request .flashFailed) u := publishedSlot_congr rfl
  rw [hf, cwPublish_alone (e := { e with result := some (failure e.request .flashFailed) }) rfl rfl (by rw [hcu]; rfl), hp]
  refine cwReportClosed_quiet ?_ ?_
  · unfold noneOwed publishedSlot
    rw [raise_pu, ← hu, raise_pu]
    exact ho
  · rw [publishedSlot, raise_ga, ← hu, raise_ga]
    exact hg

/-! ### A Fetch at work (R121) -/

/-- A Fetch in hand waits for its page, with nothing else at work (R121). -/
structure Fetching (s : State) (e : QueueEntry) : Prop where
  powered : s.part.state ≠ .off
  asserted : s.ga.sysen = true
  noMarks : s.mu.marks = []
  noMount : s.sm.mount = none
  noFormat : s.sm.format = none
  noChange : s.sm.change = none
  writer : s.cw.writer = .stopped
  job : ∃ p worst bad, s.cw.job = .fetch p worst bad
  queue : s.cw.queue = [e]
  unready : e.result = none
  inHand : s.cw.inHand = some e.request.sequence
  noStopDue : s.cw.stopDue = none
  noAssembly : s.cw.assembly = []
  noReloc : s.cw.reloc = none
  notProgramming : s.cw.programming = false
  noReappend : s.cw.reappend = []
  noResume : s.cw.resume = none

/-- What `Fetching` says does not speak of the Flash Engine. -/
theorem Fetching.flash (h : Fetching s e) (f : Fe) : Fetching { s with fe := f } e :=
  ⟨h.powered, h.asserted, h.noMarks, h.noMount, h.noFormat, h.noChange, h.writer, h.job, h.queue, h.unready, h.inHand,
    h.noStopDue, h.noAssembly, h.noReloc, h.notProgramming, h.noReappend, h.noResume⟩

/-- The writer takes no step until the page comes (R121). -/
theorem Fetching.run (h : Fetching s e) : cwRun s = s := by
  obtain ⟨p, worst, bad, hj⟩ := h.job
  refine cwRun_none ?_ (cwPublish_waiting h.queue h.unready)
  rw [cwStep_job h.noStopDue h.noReloc h.notProgramming h.noChange (by rw [h.noAssembly]; exact Nat.zero_lt_succ _)]
  unfold cwJobStep
  rw [hj]

theorem Fetching.finish (h : Fetching s e) : finish s = s :=
  finish_of h.asserted (smGoOn_idle h.noMount h.noFormat) h.run (smIntake_none h.noMarks)

/-- A Timeout repeats the same read (R121). -/
theorem Fetching.repeats (h : Fetching s e) : cwFetchResult op .timeout s = flashAsk .fetcher op s := by
  obtain ⟨p, worst, bad, hj⟩ := h.job
  have hq : queueEntry s e.request.sequence = some e := queueEntry_alone h.queue rfl
  have hr : handRequest s = some e.request := by
    unfold handRequest
    rw [h.inHand, Option.bind_some, hq]
    rfl
  unfold cwFetchResult
  rw [hj, hr]

/-- A writer that is as it was has ended no step (R111). -/
theorem writerStepEnded_same (c : Cw) : writerStepEnded c c = false := by
  have hq : (c.queue.any fun e => e.result.isNone && !unready c e.request.sequence) = false := by
    refine List.any_eq_false.2 fun e he => ?_
    cases hr : e.result.isNone with
    | false => exact Bool.false_ne_true
    | true =>
      have hu : unready c e.request.sequence = true :=
        List.any_eq_true.2 ⟨e, he, by rw [hr, Bool.and_true]; exact decide_eq_true rfl⟩
      rw [hu]
      exact Bool.false_ne_true
  unfold writerStepEnded
  rw [hq]
  cases c.writer <;> cases c.reloc <;> simp

/-- The fetcher whose read has timed out asks for it again (R121). -/
theorem Fetching.asksAgain (h : Fetching s e) (hr : s.resetting = false) (n : Nat) :
    AsksAgain s ⟨.fetcher, op, n⟩ .timeout op s.sm := by
  intro f g hf
  have hu : Fetching { s with fe := f } e := h.flash _
  have ht : Fetching { s with fe := g } e := h.flash _
  have hact : cwRun (cwFetchResult op .timeout { s with fe := f }) = { s with fe := g } := by
    rw [hu.repeats]
    exact (congrArg cwRun hf).trans ht.run
  have hend : writerStepEnded s.cw s.cw = false := writerStepEnded_same s.cw
  have hres : returnResult ⟨.fetcher, op, n⟩ .timeout { s with fe := f }
      = cwResult .timeout (cwFetchResult op .timeout) { s with fe := f } :=
    if_neg (by exact fun c => Bool.false_ne_true (hr.symm.trans c))
  rw [hres]
  unfold cwResult
  rw [hact]
  dsimp only
  rw [hend]
  exact if_neg Bool.false_ne_true

/-! ### The third timeout in a row (R74) -/

/-- The Flash Engine at the third timeout in a row: the rail is Failed (R73, R74). -/
def failedFe (f : Fe) : Fe :=
  { f with
    inFlight := none, restored := false, idle := f.idleLoad, timeouts := f.timeouts + 1, rail := .failed
    settleEnd := none }

theorem feEndTimeout_failed (hn : 3 ≤ s.fe.timeouts + 1) :
    feEndTimeout s = State.raise { s with fe := failedFe s.fe } .flashFault := if_pos hn

/-- A cause raised beside a change of the recording blocks' own state. -/
theorem raise_update (s : State) (c : Cause) (fe : Fe) (sm : Sm) (cw : Cw) :
    ({ s.raise c with fe := fe, sm := sm, cw := cw } : State) = State.raise { s with fe := fe, sm := sm, cw := cw } c := by
  unfold State.raise
  dsimp only
  split <;> rfl

/-- Nothing is granted while the rail is Failed (R74, R75). -/
theorem feGrant_failed (h : s.fe.rail = .failed) : feGrant s = s := if_neg fun c => by
  rw [show s.fe.rail = .ready from c.1] at h
  cases h

/-- The one request that waits as the rail becomes Failed is answered FlashFailed (R74). -/
theorem answerFailed_only (h : s.fe.rail = .failed) (hr : s.resetting = false) (hw : s.fe.waiting = [w])
    (hb : s.fe.heldBack = []) :
    answerFailed s = flashFailed w.requester { s with fe.waiting := [], fe.heldBack := [] } := by
  unfold answerFailed feFailWaiting
  rw [if_pos h, hw, hb]
  exact if_neg (by exact fun c => Bool.false_ne_true (hr.symm.trans c))

/-- A requester that asks again as the third timeout in a row fails the rail is answered FlashFailed (R73, R74). -/
theorem Serving.fails (h : Serving s w) (o : EndOrder) (hi : s.fe.identity = .isMatch) (hn : 3 ≤ s.fe.timeouts + 1)
    (ha : AsksAgain s w .timeout op s.sm)
    (hf : flashFailed w.requester (State.raise { s with fe := failedFe s.fe } .flashFault) = t)
    (ht : t.fe.rail = .failed) (hg : t.ga.grace = none) : endOperation o w .timeout feEndTimeout s = t := by
  have hfail : feEndTimeout s = _ := feEndTimeout_failed hn
  have hrail : (feEndTimeout s).fe.rail = .failed := by rw [hfail, raise_fe]; rfl
  have hend : feEndTimeout (returnResult w .timeout s)
      = State.raise { s with fe := failedFe { s.fe with heldBack := [⟨w.requester, op, s.rck.clock⟩] } } .flashFault := by
    rw [h.holds hi ha]
    exact feEndTimeout_failed hn
  generalize hu : feUnhold w.requester (feEndTimeout (returnResult w .timeout s)) = u
  have hue : u = State.raise { s with fe := { failedFe s.fe with waiting := [⟨w.requester, op, s.rck.clock⟩] } } .flashFault := by
    rw [← hu, hend]
    unfold feUnhold
    rw [raise_fe]
    refine (raise_update _ _ _ _ _).trans ?_
    unfold failedFe
    simp [h.noWaiting, h.noHeldBack]
  have hanswer : answerFailed u = t := by
    rw [answerFailed_only (w := ⟨w.requester, op, s.rck.clock⟩), hue, ← hf]
    · rw [raise_fe]
      refine congrArg (flashFailed w.requester) ((raise_update _ _ _ _ _).trans ?_)
      unfold failedFe
      simp [h.noWaiting, h.noHeldBack]
    · rw [hue, raise_fe]
      rfl
    · unfold State.resetting
      rw [hue, raise_part]
      exact h.resetting
    · rw [hue, raise_fe]
    · rw [hue, raise_fe]
      exact h.noHeldBack
  unfold endOperation
  rw [if_neg (fun c => c.2 hrail), hu, hanswer, grantAndCheck_grants o hg, feGrant_failed ht]

/-! ### A timeout (R67, R73, R74) -/

/-- A command of a resting state that leaves alone what the writer, the Segment Manager and the Gauge wait for ends with its
own effect. -/
theorem Resting.live_eq {f : State → State} (h : Resting s) (hf : f s = t) (hp : t.part.state ≠ .off) (hg : t.ga = s.ga)
    (hc : t.cw = s.cw) (hm : t.mu.marks = s.mu.marks) (hs : t.sm = s.sm) : live f s = t :=
  live_ends h.powered hf (h.congr hp hg hc hm hs).finish

/-- The deadline of a requester's operation (R73). -/
theorem bodyOperationTimeout_serving {front : Bool} {d : Nat} {img : List Byte} (o : EndOrder)
    (hf : s.fe.inFlight = some ⟨some w, front, d, img⟩) :
    bodyOperationTimeout o s = endOperation o w .timeout feEndTimeout (s.advance d) := by
  unfold bodyOperationTimeout
  rw [hf]

/-- The start-up Reset times out, not for the third time in a row: it is issued again (R67, R73). -/
theorem bodyOperationTimeout_startup {d : Nat} {img : List Byte} (o : EndOrder)
    (hf : s.fe.inFlight = some ⟨none, true, d, img⟩) (hr : s.fe.rail = .starting) (hn : s.fe.timeouts + 1 < 3)
    (ht : s.part.transition = .none) (hg : s.ga.grace = none) :
    bodyOperationTimeout o s
      = { s.advance d with
          fe.restored := false, fe.idle := s.fe.idleLoad, fe.timeouts := s.fe.timeouts + 1, fe.settleEnd := none
          fe.inFlight := some ⟨none, true, (s.advance d).rck.clock + 1000, []⟩ } := by
  have hc : checkBetween o (s.advance d) = s.advance d := by
    unfold checkBetween
    rw [gaCheck_none (by exact hg)]
    exact ite_self _
  have hrail : s.fe.rail ≠ .failed := by rw [hr]; decide
  have hts : s.part.transition ≠ .standby := by rw [ht]; decide
  have htr : s.part.transition ≠ .reset := by rw [ht]; decide
  have hb : feStartupTimeout (s.advance d)
      = { s.advance d with
          fe.restored := false, fe.idle := s.fe.idleLoad, fe.timeouts := s.fe.timeouts + 1, fe.settleEnd := none
          fe.inFlight := some ⟨none, true, (s.advance d).rck.clock + 1000, []⟩ } :=
    (if_neg (by exact Nat.not_le.2 hn)).trans ((if_neg (by exact hts)).trans (if_neg (by exact htr)))
  unfold bodyOperationTimeout
  rw [hf]
  dsimp only
  rw [hc, hb]
  rw [answerFailed_not (by exact hrail), gaCheck_none (by exact hg)]

/-- The state once the Fetch in hand has failed and the writer is Faulted, beside a cause already raised (R104, R117). -/
def fetchFailed (e : QueueEntry) (c : Cause) (s : State) : State :=
  publishedSlot e.slot e.request ⟨.flashFailed, e.request.segment, e.request.byteOffset, 0⟩
    (State.raise (State.raise
      { s with
        sm.snapshotsEnded := true, cw.writer := .faulted, cw.job := .idle, cw.deadline := none
        cw.pageMark := none } c) .writerState)

theorem fetchFailed_part (e : QueueEntry) (c : Cause) (s : State) : (fetchFailed e c s).part = s.part := by
  rw [fetchFailed, publishedSlot, raise_part, raise_part, raise_part]

theorem fetchFailed_mu (e : QueueEntry) (c : Cause) (s : State) : (fetchFailed e c s).mu = s.mu := by
  rw [fetchFailed, publishedSlot, raise_mu, raise_mu, raise_mu]

theorem fetchFailed_fe (e : QueueEntry) (c : Cause) (s : State) : (fetchFailed e c s).fe = s.fe := by
  rw [fetchFailed, publishedSlot, raise_fe, raise_fe, raise_fe]

theorem fetchFailed_ga (e : QueueEntry) (c : Cause) (s : State) : (fetchFailed e c s).ga = s.ga := by
  rw [fetchFailed, publishedSlot, raise_ga, raise_ga, raise_ga]

theorem fetchFailed_sm (e : QueueEntry) (c : Cause) (s : State) :
    (fetchFailed e c s).sm = { s.sm with snapshotsEnded := true } := by
  rw [fetchFailed, publishedSlot, raise_sm, raise_sm, raise_sm]

theorem fetchFailed_cw (e : QueueEntry) (c : Cause) (s : State) :
    (fetchFailed e c s).cw
      = { s.cw with
          writer := .faulted, job := .idle, deadline := none, pageMark := none, queue := [], inHand := none } := by
  rw [fetchFailed, publishedSlot, raise_cw]
  dsimp only
  rw [raise_cw, raise_cw]

/-- Nothing goes on after a Fetch has failed so. -/
theorem Fetching.failed_calm (h : Fetching s e) (c : Cause) : Calm (fetchFailed e c s) where
  powered := by rw [fetchFailed_part]; exact h.powered
  asserted := by rw [fetchFailed_ga]; exact h.asserted
  noRequest := by rw [fetchFailed_cw]
  noJob := by rw [fetchFailed_cw]
  noReappend := by rw [fetchFailed_cw]; exact h.noReappend
  noResume := by rw [fetchFailed_cw]; exact h.noResume
  noStopDue := by rw [fetchFailed_cw]; exact h.noStopDue
  notFull := by rw [fetchFailed_cw]; dsimp only; rw [h.noAssembly]; exact Nat.zero_lt_succ _
  notClosing := by rw [fetchFailed_cw]; nofun
  noMarks := by rw [fetchFailed_mu]; exact h.noMarks
  noMount := by rw [fetchFailed_sm]; exact h.noMount
  noFormat := by rw [fetchFailed_sm]; exact h.noFormat

/-- What a FlashFailed to the fetcher makes of a Fetch (R104, R117). -/
theorem Fetching.failed (h : Fetching s e) (c : Cause) (hi : openIndex s.sm = none) (ha : s.sm.abandoned = false)
    (ho : noneOwed s) (hg : s.ga.grace = none) : flashFailed .fetcher (s.raise c) = fetchFailed e c s := by
  generalize hu : smEndSnapshots (s.raise c) = u
  have hcw : u.cw = s.cw := by rw [← hu, smEndSnapshots_cw, raise_cw]
  have hsm : u.sm = { s.sm with snapshotsEnded := true } := by rw [← hu, smEndSnapshots_sm, raise_sm]
  have hw : u.cw.writer = .stopped := by rw [hcw, h.writer]
  have hf : flashFailed .fetcher (s.raise c) = cwGoFaulted u := by
    rw [← hu] at hw ⊢
    exact if_neg (by rw [hw]; rintro (k | k) <;> cases k)
  rw [hf, cwGoFaulted_alone (by rw [hsm]; exact hi) (by rw [hsm]; exact ha) (by rw [hw]; decide)
    (by unfold noneOwed; rw [← hu, smEndSnapshots_pu, raise_pu]; exact ho)
    (by rw [← hu, smEndSnapshots_ga, raise_ga]; exact hg) (by rw [hcw]; exact h.queue) h.unready, hcw, hsm]
  unfold fetchFailed
  refine publishedSlot_congr ?_
  rw [← hu]
  unfold smEndSnapshots faultedCw State.raise
  dsimp only
  split <;>
    simp [h.noChange, h.noAssembly, h.notProgramming, h.noReloc, h.noReappend, h.noResume, h.noStopDue]

/-- Settles O33: no operation, a Fetch's read short of the third timeout and at it, and a start-up Reset. -/
theorem operationTimesOut : Obligations.OperationTimesOut := by
  refine ⟨fun o s h hf => ?_, ?_, fun o d img s h hg hw hf hr hn ht => ?_⟩
  · have hb : bodyOperationTimeout o s = s := by
      unfold bodyOperationTimeout
      rw [hf]
    exact congrArg _ (live_ends h.powered hb h.finish)
  · intro o d arrival p worst bad op front img e s hpow hsys hmarks hmount hformat hwriter hjob hqueue hres hhand hstop
      hasm hreloc hprog hreappend hresume hchange hgrace htrans hawake hwaiting hheld hrail hid hop hflight
    have hfetch : Fetching (s.advance d) e :=
      ⟨hpow, hsys, hmarks, hmount, hformat, hchange, hwriter, ⟨p, worst, bad, hjob⟩, hqueue, hres, hhand, hstop, hasm,
        hreloc, hprog, hreappend, hresume⟩
    have hserve : Serving (s.advance d) ⟨.fetcher, op, arrival⟩ :=
      ⟨⟨front, d, img, hflight⟩, hwaiting, hheld, hrail, hgrace, htrans, hawake⟩
    have hasks := hfetch.asksAgain (op := op) hserve.resetting arrival
    have hbody := bodyOperationTimeout_serving o hflight
    refine ⟨fun hn => ?_, fun hn hopen hab howed => ?_⟩
    · have hb := hbody.trans (hserve.asks (n := s.fe.timeouts + 1) (b := false) o hid
        (fun _ _ => feEndTimeout_ended (by exact htrans) (by exact hn)) hasks)
      exact congrArg _ (live_ends hpow hb (hfetch.flash _).finish)
    · have hfailed := hfetch.flash (failedFe (s.advance d).fe)
      have hb := hbody.trans (hserve.fails o hid hn hasks (hfailed.failed .flashFault hopen hab howed hgrace)
        (by rw [fetchFailed_fe]; rfl) (by rw [fetchFailed_ga]; exact hgrace))
      exact congrArg _ (live_ends hpow hb (hfailed.failed_calm .flashFault).finish)
  · have hb := bodyOperationTimeout_startup o hf hr hn ht hg
    exact congrArg _ (h.live_eq hb h.powered rfl rfl rfl rfl)

end Sys2Proof.Machine
end

section
/-! The reads of a mount (R72, R105): the identity, and a page of the table area that reads as erased; and a mount that ends
with the table Absent, its view written with N = 0 (R107, R117). -/

namespace Sys2Proof.Machine

variable {s t : State} {w : FlashRequest} {op : FlashOp} {r : FlashResult}

/-! ### A completion (R73, R76) -/

/-- A completion that fits the operation in flight ends it (R73). -/
theorem completion_ends {n : Stamp} {o : EndOrder} {fits : FlashOp → Bool} {result : FlashOp → FlashResult}
    {before : State → State} {d : Nat} {img : List Byte} (hf : s.fe.inFlight = some ⟨some w, false, d, img⟩)
    (hw : fits w.op = true) :
    completion n o fits result before s = endOperation o w (result w.op) feEndDone (before (s.advance n.toNat)) := by
  unfold completion
  simp only [advance_fe, hf]
  exact if_pos ⟨hw, rfl⟩

/-- With the flash restored a granted operation is issued at once (R68). -/
theorem grantedFe_restored {f : Fe} (h : f.restored = true) (n : Nat) :
    grantedFe w n f = { f with rail := .busy, inFlight := some ⟨some w, false, n + opDeadline w.op, opImage w.op⟩ } := by
  unfold grantedFe
  rw [if_pos h]

/-- A result that leaves the Flash Engine alone, and with it the end of its operation, whichever of the grant and the result
is taken first (R76). -/
theorem Serving.leaves (h : Serving s w) (o : EndOrder)
    (hres : ∀ f, returnResult w r { s with fe := f } = { t with fe := f }) (hp : t.part = s.part)
    (hg : t.ga.grace = none) :
    endOperation o w r feEndDone s = { t with fe := endedFe 0 s.fe.restored s.fe } := by
  have hdone : feEndDone s = { s with fe := endedFe 0 s.fe.restored s.fe } := feEndDone_ended h.steady
  have hres0 : returnResult w r s = { t with fe := s.fe } := hres s.fe
  unfold endOperation
  split
  · rw [hdone, feUnhold_none _ (by exact h.noHeldBack), grantAndCheck_grants o (by exact h.noGrace),
      feGrant_unasked (by exact h.noWaiting), hres]
  · rw [hres0, feEndDone_ended (by rw [hp]; exact h.steady), feUnhold_none _ (by exact h.noHeldBack),
      answerFailed_not (by nofun), grantAndCheck_grants o (by exact hg), feGrant_unasked (by exact h.noWaiting)]

/-! ### The mount reader (R105) -/

/-- A result of a mount is taken by the Segment Manager, and ends no Format (R105, R111). -/
theorem returnResult_mount (hr : s.resetting = false) (hf : s.sm.format = none)
    (hw : s.cw.writer = .formatting → (smGoOn (smMountResult op r s)).cw.writer = .formatting) (n : Nat) :
    returnResult ⟨.mountReader, op, n⟩ r s = smGoOn (smMountResult op r s) := by
  have hm : mountReaderResult op r s = smMountResult op r s := if_neg (by rw [hf]; decide)
  unfold returnResult
  rw [if_neg (by rw [hr]; exact Bool.false_ne_true)]
  dsimp only
  unfold smResult
  dsimp only
  rw [hm, if_neg fun c => c.2 (hw c.1)]

/-- The reading of the table area waits for its page (R105). -/
theorem smGoOn_tableArea {b p : Nat} {pages : List SnapPage} {ends : List (Nat × Nat)}
    (hm : s.sm.mount = some (.tableArea b p pages ends)) : smGoOn s = s := by
  unfold smGoOn
  split
  · rfl
  · simp only [hm]

/-- The mount reader whose result leads to a page of the table area asks for it (R105). -/
theorem asksAgain_tableArea {b p n : Nat} {pages : List SnapPage} {ends : List (Nat × Nat)} {o : FlashOp}
    (hr : s.resetting = false) (hf : s.sm.format = none)
    (h : ∀ f, smMountResult o r { s with fe := f }
      = flashAsk .mountReader op { s with sm.mount := some (.tableArea b p pages ends), fe := f }) :
    AsksAgain s ⟨.mountReader, o, n⟩ r op { s.sm with mount := some (.tableArea b p pages ends) } := by
  intro f g hask
  have hgo : smGoOn (smMountResult o r { s with fe := f })
      = { s with sm.mount := some (.tableArea b p pages ends), fe := g } := by
    rw [h]
    exact (congrArg smGoOn hask).trans (smGoOn_tableArea rfl)
  rw [returnResult_mount (by exact hr) (by exact hf) (by rw [hgo]; exact id), hgo]

/-- With its identity read, the mount goes on with the first page of the table area (R105). -/
theorem smMountResult_identity (hm : s.sm.mount = some .readId) (o : FlashOp) :
    smMountResult o (.identity true) s
      = flashAsk .mountReader (.readPage 0 0) { s with sm.mount := some (.tableArea 0 0 [] []) } := by
  unfold smMountResult
  rw [hm]
  exact if_pos (by decide)

/-- An erased page ends its block, and the reading goes on with the next (R105). -/
theorem smMountResult_erased {b p : Nat} {pages : List SnapPage} {ends : List (Nat × Nat)} {x : PageResult}
    (hm : s.sm.mount = some (.tableArea b p pages ends)) (hx : x.erased = true) (hb : b + 1 < 16) (o : FlashOp) :
    smMountResult o (.page x) s
      = flashAsk .mountReader (.readPage (b + 1) 0)
          { s with sm.mount := some (.tableArea (b + 1) 0 pages (ends ++ [(b, p)])) } := by
  unfold smMountResult
  rw [hm]
  exact (if_pos hx).trans (if_pos hb)

/-! ### The view with N = 0 (R107) -/

/-- The Buffer RAM once the view of an empty table has been written, if it has a place (R107). -/
def emptiedMem (s : State) : List Host.Cell :=
  match s.sm.view with
  | none => s.mem
  | some a =>
    writeCells (writeCells (writeCells s.mem a (leBytes 4 (s.readField a 4 + 1))) (a + 4)
      (leBytes 4 0 ++ (leBytes 4 0 ++ leBytes 4 s.sm.bps))) a (leBytes 4 (s.readField a 4 + 2))

theorem smEmptyView_empty (h : s.sm.segments = []) : smEmptyView s = { s with mem := emptiedMem s } := by
  have hs : ({ s with sm.segments := [] } : State) = s := by rw [← h]
  unfold smEmptyView smWriteView emptiedMem
  rw [hs]
  cases s.sm.view with
  | none => rfl
  | some a =>
    simp only [store_sm, h, List.length_nil, if_true, List.zipIdx_nil, List.map_nil, List.flatten_nil, List.append_assoc]
    rfl

/-- The view reads N = 0, and nothing but its header has been written (R107). -/
theorem emptiedMem_reads {a : Nat} (hv : s.sm.view = some a) (ha : a + 16 ≤ ramBytes) (hm : memoryWf s.mem = true) :
    readCells (emptiedMem s) (a + 4) 4 = [0, 0, 0, 0]
      ∧ ∀ x, x < a ∨ a + 16 ≤ x → readCell (emptiedMem s) x = readCell s.mem x := by
  have h4 : ∀ v, (leBytes 4 v).length = 4 := leBytes_length 4
  have hlen : (leBytes 4 0 ++ (leBytes 4 0 ++ leBytes 4 s.sm.bps)).length = 12 := by
    simp only [List.length_append, h4]
  unfold emptiedMem
  rw [hv]
  dsimp only
  generalize hk : writeCells s.mem a (leBytes 4 (s.readField a 4 + 1)) = k
  have hkm : memoryWf k = true := hk ▸ writeCells_wf a _ hm
  refine ⟨?_, fun x hx => ?_⟩
  · rw [readCells_writeCells_other _ _ (.inr (by rw [h4])), ← writeCells_append,
      readCells_writeCells_other _ _ (.inl (by rw [h4]))]
    have h := readCells_writeCells (a := a + 4) (bytes := leBytes 4 0) hkm (by rw [h4]; omega)
    rw [h4] at h
    exact h
  · rw [readCell_writeCells_other _ _ _ (by rw [h4]; omega), readCell_writeCells_other _ _ _ (by rw [hlen]; omega), ← hk,
      readCell_writeCells_other _ _ _ (by rw [h4]; omega)]

/-! ### A mount without a table (R72, R105, R116, R117) -/

/-- The state once a mount has ended without a table, which is Absent: the view reads N = 0, and the writer is Faulted
(R105, R107, R117). -/
def mountFailed (s : State) : State :=
  State.raise
    { s with
      mem := emptiedMem s
      sm := { s.sm with table := .absent, mount := none, eraser := none, snapshot := none, change := none }
      cw := faultedCw s.cw } .writerState

theorem mountFailed_part (s : State) : (mountFailed s).part = s.part := raise_part _ _

theorem mountFailed_ga (s : State) : (mountFailed s).ga = s.ga := raise_ga _ _

theorem mountFailed_mu (s : State) : (mountFailed s).mu = s.mu := raise_mu _ _

theorem mountFailed_cw (s : State) : (mountFailed s).cw = faultedCw s.cw := raise_cw _ _

theorem mountFailed_sm (s : State) :
    (mountFailed s).sm
      = { s.sm with table := .absent, mount := none, eraser := none, snapshot := none, change := none } := raise_sm _ _

/-- What the Flash Engine is, stays. -/
theorem mountFailed_flash (s : State) (f : Fe) :
    mountFailed { s with fe := f } = ({ mountFailed s with fe := f } : State) := by
  unfold mountFailed State.raise
  dsimp only
  split <;> rfl

/-- A mount with nothing loaded and no request taken ends so (R105). -/
theorem smMountFails_empty (hs : s.sm.segments = []) (ha : s.sm.abandoned = false) (hw : s.cw.writer ≠ .faulted)
    (ho : noneOwed s) (hg : s.ga.grace = none) (hq : s.cw.queue = []) : smMountFails .absent s = mountFailed s := by
  unfold smMountFails
  rw [smEmptyView_empty (by exact hs)]
  refine cwGoFaulted_empty ?_ ha hw ho hg hq
  unfold openIndex
  dsimp only
  rw [hs]
  rfl

/-- The Read ID of a mount finds another device (R72, R105). -/
theorem Serving.mountFails {n : Nat} (h : Serving s ⟨.mountReader, op, n⟩) (o : EndOrder)
    (hm : s.sm.mount = some .readId) (hf : s.sm.format = none) (hs : s.sm.segments = []) (ha : s.sm.abandoned = false)
    (hw : s.cw.writer = .unmounted) (ho : noneOwed s) (hq : s.cw.queue = []) :
    endOperation o ⟨.mountReader, op, n⟩ (.identity false) feEndDone s
      = { mountFailed s with fe := endedFe 0 s.fe.restored s.fe } := by
  refine h.leaves o (fun f => ?_) (mountFailed_part s) (by rw [mountFailed_ga]; exact h.noGrace)
  have hr : smMountResult op (.identity false) { s with fe := f } = mountFailed { s with fe := f } := by
    unfold smMountResult
    simp only [hm]
    exact smMountFails_empty hs ha (by rw [hw]; decide) ho h.noGrace hq
  rw [returnResult_mount (by exact h.resetting) (by exact hf) (by exact fun c => absurd (hw.symm.trans c) (by decide)), hr, mountFailed_flash]
  refine smGoOn_idle ?_ ?_
  · rw [mountFailed_sm]
  · rw [mountFailed_sm]
    exact hf

/-- Nothing goes on after a mount has ended so. -/
theorem Still.mountFailed_calm (h : Still s) (hf : s.sm.format = none) (f : Fe) :
    Calm { mountFailed s with fe := f } where
  powered := by dsimp only; rw [mountFailed_part]; exact h.powered
  asserted := by dsimp only; rw [mountFailed_ga]; exact h.asserted
  noRequest := by dsimp only; rw [mountFailed_cw]; exact h.noRequest
  noJob := by dsimp only; rw [mountFailed_cw]; rfl
  noReappend := by dsimp only; rw [mountFailed_cw]; rfl
  noResume := by dsimp only; rw [mountFailed_cw]; rfl
  noStopDue := by dsimp only; rw [mountFailed_cw]; rfl
  notFull := by dsimp only; rw [mountFailed_cw]; exact Nat.zero_lt_succ _
  notClosing := by dsimp only; rw [mountFailed_cw]; nofun
  noMarks := by dsimp only; rw [mountFailed_mu]; exact h.noMarks
  noMount := by dsimp only; rw [mountFailed_sm]
  noFormat := by dsimp only; rw [mountFailed_sm]; exact hf

/-- The same state beside a cause already raised, where the writer had no work but its page (R117). -/
theorem Still.mountFailed_eq (h : Still s) (c : Cause) (f : Fe) :
    ({ mountFailed (s.raise c) with fe := f } : State)
      = State.raise (State.raise
          { s with
            mem := emptiedMem s, fe := f
            sm := { s.sm with table := .absent, mount := none, eraser := none, snapshot := none, change := none }
            cw := { s.cw with
              writer := .faulted, assembly := [], programming := false, deadline := none, reloc := none
              inHand := none, pageMark := none } } c) .writerState := by
  have hcw : faultedCw s.cw
      = { s.cw with
          writer := .faulted, assembly := [], programming := false, deadline := none, reloc := none, inHand := none
          pageMark := none } := by
    unfold faultedCw
    rw [← h.noJob, ← h.noReappend, ← h.noResume, ← h.noStopDue]
  rw [← hcw]
  unfold mountFailed State.raise
  dsimp only
  split
  · rfl
  · rfl

/-! ### The reads of a mount -/

theorem Still.raise (h : Still s) (c : Cause) : Still (s.raise c) :=
  h.congr (by rw [raise_part]; exact h.powered) (raise_ga s c) (raise_cw s c) (by rw [raise_mu])

theorem Serving.raise (h : Serving s w) (c : Cause) : Serving (s.raise c) w where
  inFlight := by rw [raise_fe]; exact h.inFlight
  noWaiting := by rw [raise_fe]; exact h.noWaiting
  noHeldBack := by rw [raise_fe]; exact h.noHeldBack
  busy := by rw [raise_fe]; exact h.busy
  noGrace := by rw [raise_ga]; exact h.noGrace
  steady := by rw [raise_part]; exact h.steady
  awake := by rw [raise_part]; exact h.awake

/-- A command of a still state that ends with the reading of the table area waiting for its page ends with its own effect. -/
theorem Still.live_tableArea {f : State → State} {b p : Nat} {pages : List SnapPage} {ends : List (Nat × Nat)}
    (h : Still s) (hf : f s = t) (hp : t.part.state ≠ .off) (hg : t.ga = s.ga) (hc : t.cw = s.cw)
    (hm : t.mu.marks = s.mu.marks) (ht : t.sm.mount = some (.tableArea b p pages ends)) : live f s = t :=
  live_ends h.powered hf ((h.congr hp hg hc hm).finish (smGoOn_tableArea ht))

/-- Settles O27: the identity that matches, the one that does not, and the page that reads as erased. -/
theorem mountReads : Obligations.MountReads := by
  refine ⟨?_, ?_⟩
  · intro u id o arrival d img s h hformat hmount hflight hwaiting hheld hrail hgrace htrans hawake
    have hbody : bodyReadIdDone u id o s
        = endOperation o ⟨.mountReader, .readId, arrival⟩ (.identity (decide (id.toList = flashIdentity))) feEndDone
            (feIdentify id.toList (s.advance u.toNat)) := completion_ends hflight rfl
    refine ⟨fun hid hrest => ?_, fun hid hs hw ho ha => ?_⟩
    · have hbefore : feIdentify id.toList (s.advance u.toNat)
          = { s.advance u.toNat with fe.identity := .isMatch, fe.absent := false } := if_pos hid
      have hserve : Serving { s.advance u.toNat with fe.identity := .isMatch, fe.absent := false }
          ⟨.mountReader, .readId, arrival⟩ := ⟨⟨_, _, _, hflight⟩, hwaiting, hheld, hrail, hgrace, htrans, hawake⟩
      rw [hbefore, decide_eq_true (by exact hid)] at hbody
      have hb := hserve.asks (n := 0) (b := s.fe.restored) o rfl (fun _ _ => feEndDone_ended (by exact htrans))
        (asksAgain_tableArea hserve.resetting hformat fun f => smMountResult_identity (by exact hmount) _)
      rw [grantedFe_restored (by exact hrest)] at hb
      exact congrArg _ (h.live_tableArea (hbody.trans hb) h.powered rfl rfl rfl rfl)
    · have hbefore : feIdentify id.toList (s.advance u.toNat)
          = State.raise { s.advance u.toNat with fe.identity := .mismatch, fe.absent := true } .flashFault := if_neg hid
      have hserve : Serving { s.advance u.toNat with fe.identity := .mismatch, fe.absent := true }
          ⟨.mountReader, .readId, arrival⟩ := ⟨⟨_, _, _, hflight⟩, hwaiting, hheld, hrail, hgrace, htrans, hawake⟩
      have hstill : Still { s.advance u.toNat with fe.identity := .mismatch, fe.absent := true } :=
        h.congr h.powered rfl rfl rfl
      have hb := (hserve.raise .flashFault).mountFails o (by rw [raise_sm]; exact hmount) (by rw [raise_sm]; exact hformat)
        (by rw [raise_sm]; exact hs) (by rw [raise_sm]; exact ha) (by rw [raise_cw]; exact hw)
        (by unfold noneOwed; rw [raise_pu]; exact ho) (by rw [raise_cw]; exact h.noRequest)
      rw [hbefore, decide_eq_false (by exact hid)] at hbody
      have hlive := live_ends h.powered (hbody.trans hb)
        ((hstill.raise .flashFault).mountFailed_calm (by rw [raise_sm]; exact hformat) _).finish
      rw [hstill.mountFailed_eq, raise_fe] at hlive
      refine ⟨emptiedMem s, congrArg _ hlive, fun hv => ?_, fun a hv hfit hm => emptiedMem_reads hv (by omega) hm⟩
      unfold emptiedMem
      rw [hv]
  · intro u page o b p arrival d img pages ends s h hformat hmount hb hflight hwaiting hheld hid hrest hrail hgrace htrans
      hawake hpage
    have hserve : Serving (s.advance u.toNat) ⟨.mountReader, .readPage b p, arrival⟩ :=
      ⟨⟨_, _, _, hflight⟩, hwaiting, hheld, hrail, hgrace, htrans, hawake⟩
    have hbody : bodyReadPageDone u page o s
        = endOperation o ⟨.mountReader, .readPage b p, arrival⟩ (.page (pageResult page)) feEndDone
            (s.advance u.toNat) := completion_ends hflight rfl
    have hx : (pageResult page).erased = true := by rw [pageResult_erased hpage]
    have hnext := hserve.asks (n := 0) (b := s.fe.restored) o hid (fun _ _ => feEndDone_ended (by exact htrans))
      (asksAgain_tableArea hserve.resetting hformat fun f => smMountResult_erased (by exact hmount) hx hb _)
    rw [grantedFe_restored (by exact hrest)] at hnext
    exact congrArg _ (h.live_tableArea (hbody.trans hnext) h.powered rfl rfl rfl rfl)

end Sys2Proof.Machine
end

section
/-! What the writer's and the Segment Manager's operations leave of the flash engine (R67, R75): most leave all of it, and
one that asks it something, in whatever state, makes no rail Ready. -/

namespace Sys2Proof.Machine

variable {s t : State}

/-! ### Operations that leave the flash engine -/

theorem foldl_fe {α : Type} {f : State → α → State} (hf : ∀ s a, (f s a).fe = s.fe) (l : List α) (s : State) :
    (l.foldl f s).fe = s.fe := by
  induction l generalizing s with
  | nil => rfl
  | cons a l ih => rw [List.foldl_cons, ih, hf]

@[simp] theorem puStore_fe (i : Nat) (groups : List (Nat × List Byte)) (s : State) : (puStore i groups s).fe = s.fe := by
  unfold puStore
  split
  · rfl
  · exact foldl_fe (fun s g => store_fe s _ g.2) groups s

@[simp] theorem puScanEntry_fe (i : Nat) (s : State) : (puScanEntry i s).fe = s.fe := by
  unfold puScanEntry
  dsimp only
  split
  · split <;> simp
  · rfl

@[simp] theorem puSetNotNeeded_fe (test : Shadow → Bool) (s : State) : (puSetNotNeeded test s).fe = s.fe :=
  foldl_fe (fun _ _ => by simp) _ _

@[simp] theorem puQuery_fe (m segment : Nat) (s : State) : (puQuery m segment s).2.fe = s.fe := by
  unfold puQuery puStoreLive
  dsimp only
  split
  · split <;> simp
  · rfl

@[simp] theorem trackEntries_fe (segment : Nat) (frames : List Nat) (s : State) :
    (trackEntries segment frames s).2.2.fe = s.fe := by
  induction frames generalizing s with
  | nil => rfl
  | cons m rest ih => exact (ih _).trans (puQuery_fe m segment s)

@[simp] theorem gaCheck_fe (s : State) : (gaCheck s).fe = s.fe := by
  unfold gaCheck
  split <;> rfl

@[simp] theorem publishSlot_fe (e : QueueEntry) (r : RequestResult) (s : State) : (publishSlot e r s).fe = s.fe := by
  unfold publishSlot
  split <;> rfl

@[simp] theorem publishFrom_fe (l : List QueueEntry) (s : State) : (publishFrom l s).fe = s.fe := by
  induction l generalizing s with
  | nil => rfl
  | cons e l ih =>
    unfold publishFrom
    split
    · rfl
    · rw [ih, raise_fe, publishSlot_fe]

@[simp] theorem cwPublish_fe (s : State) : (cwPublish s).fe = s.fe := publishFrom_fe _ s

@[simp] theorem cwFinish_fe (result : QueueEntry → RequestResult) (s : State) : (cwFinish result s).fe = s.fe := by
  unfold cwFinish
  split <;> rfl

@[simp] theorem cwSetWriter_fe (w : WriterState) (s : State) : (cwSetWriter w s).fe = s.fe := by
  unfold cwSetWriter
  split <;> simp

@[simp] theorem cwApplyStop_fe (c : StopCause) (s : State) : (cwApplyStop c s).fe = s.fe := by
  unfold cwApplyStop cwEnterClosing
  split
  · simp
  · split <;> rfl

@[simp] theorem cwStopEvent_fe (c : StopCause) (s : State) : (cwStopEvent c s).fe = s.fe := by
  unfold cwStopEvent
  split <;> simp

@[simp] theorem cwAppend_fe (bytes : List Byte) (s : State) : (cwAppend bytes s).fe = s.fe := by
  unfold cwAppend
  dsimp only
  split
  · rfl
  · split <;> rfl

@[simp] theorem smWriteView_fe (s : State) : (smWriteView s).fe = s.fe := by
  unfold smWriteView
  split <;> rfl

@[simp] theorem smCloseOpen_fe (v : CloseValues) (s : State) : (smCloseOpen v s).fe = s.fe := by
  unfold smCloseOpen
  split <;> simp

@[simp] theorem smRewriteAbandoned_fe (s : State) : (smRewriteAbandoned s).fe = s.fe := by
  unfold smRewriteAbandoned
  split <;> simp

@[simp] theorem cwReportClosed_fe (s : State) : (cwReportClosed s).fe = s.fe := by
  simp [cwReportClosed, puWriterDone]

@[simp] theorem cwEnterStopped_fe (c : StopCause) (s : State) : (cwEnterStopped c s).fe = s.fe := by
  simp [cwEnterStopped]

@[simp] theorem cwGoFaulted_fe (s : State) : (cwGoFaulted s).fe = s.fe := by
  simp [cwGoFaulted, cwFailUnready, cwReady, cwDropWork]

@[simp] theorem cwEnterFaulted_fe (s : State) : (cwEnterFaulted s).fe = s.fe := by
  unfold cwEnterFaulted
  split <;> simp

@[simp] theorem smFormatFails_fe (s : State) : (smFormatFails s).fe = s.fe := by simp [smFormatFails, smEmptyView]

@[simp] theorem smMountFails_fe (t : TableState) (s : State) : (smMountFails t s).fe = s.fe := by
  simp [smMountFails, smEmptyView]

@[simp] theorem smWorkFails_fe (s : State) : (smWorkFails s).fe = s.fe := by
  unfold smWorkFails
  split
  · simp
  · split <;> simp

@[simp] theorem smFlashFailed_fe (r : Requester) (s : State) : (smFlashFailed r s).fe = s.fe := by
  unfold smFlashFailed smRequesterFailed
  rw [smWorkFails_fe]
  split <;> rfl

/-- A failure answered changes the blocks that asked, not the flash engine (R74, R104, R117). -/
@[simp] theorem flashFailed_fe (r : Requester) (s : State) : (flashFailed r s).fe = s.fe := by
  cases r <;> simp [flashFailed]

@[simp] theorem releaseOver_fe (fuel : Nat) (s : State) : (releaseOver fuel s).fe = s.fe := by
  induction fuel generalizing s with
  | zero => rfl
  | succ n ih =>
    unfold releaseOver
    split
    · rfl
    · split
      · rfl
      · rw [ih]
        rfl

@[simp] theorem smOpen_fe (i : Nat) (clip : Word) (part first : Nat) (s : State) :
    (smOpen i clip part first s).fe = s.fe := by
  unfold smOpen smInstallPending enforceLimit
  dsimp only
  rw [smModify_fe]
  dsimp only
  split <;> simp

@[simp] theorem protectTarget_fe (time : Nat) (i : Nat) (s : State) : (protectTarget time i s).fe = s.fe := by
  unfold protectTarget
  split
  · rfl
  · split <;> rfl

@[simp] theorem actOnMark_fe (k : ImpactMark) (s : State) : (actOnMark k s).fe = s.fe := by
  unfold actOnMark enforceLimit
  rw [releaseOver_fe, foldl_fe fun s i => protectTarget_fe _ i s]

@[simp] theorem smProtect_fe (i : Nat) (s : State) : (smProtect i s).2.fe = s.fe := by
  unfold smProtect
  split
  · rfl
  · split
    · rfl
    · split
      · rfl
      · split <;> rfl

@[simp] theorem smUnprotect_fe (i : Nat) (s : State) : (smUnprotect i s).2.fe = s.fe := by
  unfold smUnprotect
  split
  · rfl
  · split
    · rfl
    · split <;> rfl

/-! ### Operations that ask the flash engine -/

/-- A request that joins makes no rail Ready: it waits, or starts the rail from Off (R67, R75). -/
theorem feJoin_unready (w : FlashRequest) (h : s.fe.rail ≠ .ready) : (feJoin w s).fe.rail ≠ .ready := by
  unfold feJoin
  dsimp only
  split
  · exact nofun
  · unfold feGrant
    rw [if_neg fun k => h k.1]
    exact h

/-- Nor does one that is refused at its arrival (R72, R74). -/
@[simp] theorem flashAsk_unready (r : Requester) (op : FlashOp) (h : s.fe.rail ≠ .ready) :
    (flashAsk r op s).fe.rail ≠ .ready := by
  unfold flashAsk feArrive
  split
  · simpa using h
  · dsimp only
    split
    · exact h
    · exact feJoin_unready _ h

@[simp] theorem feReturnAll_rail (bs : List Nat) (s : State) : (feReturnAll bs s).fe.rail = s.fe.rail := by
  unfold feReturnAll
  induction bs generalizing s with
  | nil => rfl
  | cons b bs ih =>
    rw [List.foldl_cons, ih]
    unfold feReturn
    split <;> rfl

@[simp] theorem smNewSnapshot_fe (s : State) : (smNewSnapshot s).2.fe = s.fe := by
  unfold smNewSnapshot smRecordFill
  dsimp only
  split <;> simp

@[simp] theorem smAskPage_unready (h : s.fe.rail ≠ .ready) : (smAskPage s).fe.rail ≠ .ready := by
  unfold smAskPage
  split
  · exact h
  · exact flashAsk_unready _ _ h

@[simp] theorem smMoveBlock_unready (pages : List (List Byte)) (h : s.fe.rail ≠ .ready) :
    (smMoveBlock pages s).fe.rail ≠ .ready := by
  unfold smMoveBlock
  split
  · simpa [smAbandon] using h
  · exact flashAsk_unready _ _ h

@[simp] theorem smFlush_unready (h : s.fe.rail ≠ .ready) : (smFlush s).fe.rail ≠ .ready := by
  have hb : (smBegin s).fe.rail ≠ .ready := by
    unfold smBegin
    dsimp only
    split
    · simpa [smAbandon] using h
    · split
      · exact smAskPage_unready (by simpa using h)
      · exact smMoveBlock_unready _ (by simpa using h)
  unfold smFlush
  split
  · exact h
  · rw [smRewriteAbandoned_fe]
    split
    · exact hb
    · exact h

@[simp] theorem smEraseNext_unready (h : s.fe.rail ≠ .ready) : (smEraseNext s).fe.rail ≠ .ready := by
  unfold smEraseNext smRetireSegment
  split
  · exact h
  · split
    · exact h
    · split
      · split
        · exact h
        · exact flashAsk_unready _ _ h
      · split <;> simpa using h

@[simp] theorem smStartErase_unready (i : Nat) (h : s.fe.rail ≠ .ready) : (smStartErase i s).fe.rail ≠ .ready :=
  smFlush_unready (smEraseNext_unready (smFlush_unready (by simpa using h)))

@[simp] theorem smSettle_unready (h : s.fe.rail ≠ .ready) : (smSettle s).fe.rail ≠ .ready := by
  have hf := smFlush_unready h
  unfold smSettle smEraseAhead
  split
  · split
    · exact hf
    · exact smStartErase_unready _ hf
  · exact hf

@[simp] theorem smIntake_unready (h : s.fe.rail ≠ .ready) : (smIntake s).fe.rail ≠ .ready := by
  unfold smIntake
  generalize s.mu.marks = marks
  induction marks generalizing s with
  | nil => exact h
  | cons k rest ih =>
    unfold smIntakeAll
    split
    · exact ih (smSettle_unready (by simpa using h))
    · exact h

@[simp] theorem smFormatBegin_unready (h : s.fe.rail ≠ .ready) : (smFormatBegin s).fe.rail ≠ .ready := by
  unfold smFormatBegin smSurvey smInstallForFormat
  rw [if_pos (by omega)]
  refine flashAsk_unready _ _ ?_
  split <;> exact h

/-! ### The writer's work -/

@[simp] theorem cwBuildTrack_fe (q : Word) (r : Request) (s : State) : (cwBuildTrack q r s).fe = s.fe :=
  trackEntries_fe ..

@[simp] theorem cwCopyChunk_fe (q : Word) (r : Request) (n : Nat) (s : State) : (cwCopyChunk q r n s).fe = s.fe := by
  unfold cwCopyChunk
  dsimp only
  split <;> simp

@[simp] theorem cwCopyTrack_fe (q : Word) (r : Request) (rest : List Byte) (s : State) :
    (cwCopyTrack q r rest s).fe = s.fe := by
  unfold cwCopyTrack cwPairDone cwModifyEntry
  dsimp only
  split <;> simp

@[simp] theorem cwClose_unready (c : StopCause) (h : s.fe.rail ≠ .ready) : (cwClose c s).fe.rail ≠ .ready := by
  have hf : ∀ u, (cwFinishStop u).fe = u.fe := fun u => by
    unfold cwFinishStop
    split
    · rfl
    · split <;> simp
  unfold cwClose
  dsimp only
  refine smIntake_unready (smSettle_unready ?_)
  rw [cwEnterStopped_fe, hf]
  simpa using h

@[simp] theorem cwSwitchOpen_fe (why : SwitchFor) (v : CloseValues) (i : Nat) (s : State) :
    (cwSwitchOpen why v i s).fe = s.fe := by
  unfold cwSwitchOpen cwSwitched
  cases why
  · dsimp only
    split <;> simp [cwStartPair, cwModifyEntry]
  · simp
  · simp

theorem cwSwitchNoSpace_unready (why : SwitchFor) (h : s.fe.rail ≠ .ready) :
    (cwSwitchNoSpace why s).fe.rail ≠ .ready := by
  have hh : (cwHandNoSpace s).fe = s.fe := cwFinish_fe _ _
  have hr : (cwFreeHand (cwFailResumed (cwFailReappend s))).fe = s.fe := by
    unfold cwFreeHand cwFailResumed
    split <;> split <;> simp [cwFailReappend, cwReady]
  have hu : (cwHandNoSpace s).fe.rail ≠ .ready := hh ▸ h
  unfold cwSwitchNoSpace
  cases why <;> dsimp only
  · unfold cwMediaNoSpace
    split
    · exact hu
    · exact cwClose_unready _ hu
  · exact cwClose_unready _ hu
  · exact cwClose_unready _ (hr ▸ h)

@[simp] theorem cwStartOpen_fe (i : Nat) (s : State) : (cwStartOpen i s).fe = s.fe := by
  simp [cwStartOpen, puClipStart, smTakeClip]

@[simp] theorem smAllocate_unready (h : s.fe.rail ≠ .ready) : (smAllocate s).2.fe.rail ≠ .ready := by
  unfold smAllocate
  split
  · exact h
  · split
    · exact h
    · split
      · exact smStartErase_unready _ h
      · exact h

@[simp] theorem cwOnAlloc_unready (a : AllocAnswer) (h : s.fe.rail ≠ .ready) : (cwOnAlloc a s).fe.rail ≠ .ready := by
  unfold cwOnAlloc
  dsimp only
  split
  · exact smIntake_unready (smSettle_unready (by simpa using h))
  · exact smIntake_unready (by simpa using h)
  · exact smIntake_unready (smSettle_unready (by simpa using h))
  · exact smIntake_unready (cwSwitchNoSpace_unready _ h)
  · exact h

@[simp] theorem cwAllocate_unready (h : s.fe.rail ≠ .ready) : (cwAllocate s).fe.rail ≠ .ready := by
  have ha := smAllocate_unready h
  unfold cwAllocate
  dsimp only
  split
  · exact ha
  · exact cwOnAlloc_unready _ ha

@[simp] theorem cwAskSwitch_unready (why : SwitchFor) (h : s.fe.rail ≠ .ready) :
    (cwAskSwitch why s).fe.rail ≠ .ready := by
  cases why
  · exact cwAllocate_unready h
  · exact smFlush_unready (cwAllocate_unready h)
  · exact cwAllocate_unready h

@[simp] theorem cwProgram_unready (h : s.fe.rail ≠ .ready) : (cwProgram s).fe.rail ≠ .ready := by
  unfold cwProgram
  split
  · exact h
  · split
    · exact h
    · exact flashAsk_unready _ _ h

@[simp] theorem cwPad_fe (s : State) : (cwPad s).fe = s.fe := cwAppend_fe _ s

theorem cwIdleStep_unready (h : s.fe.rail ≠ .ready) (e : cwIdleStep s = some t) : t.fe.rail ≠ .ready := by
  unfold cwIdleStep at e
  split at e
  · exact Option.some.inj e ▸ h
  · exact Option.some.inj e ▸ h
  · split at e
    · obtain rfl := Option.some.inj e
      split
      · exact cwClose_unready _ h
      · simpa using h
    · cases e

/-- A step of the writer makes no rail Ready. -/
theorem cwStep_unready (h : s.fe.rail ≠ .ready) (e : cwStep s = some t) : t.fe.rail ≠ .ready := by
  have hj : cwJobStep s = some t → t.fe.rail ≠ .ready := by
    intro e
    unfold cwJobStep at e
    split at e
    · exact cwIdleStep_unready h e
    · obtain ⟨x, -, rfl⟩ := Option.map_eq_some_iff.1 e
      simpa using h
    · obtain ⟨x, -, rfl⟩ := Option.map_eq_some_iff.1 e
      simpa using h
    · obtain rfl := Option.some.inj e
      split
      · exact cwAskSwitch_unready _ h
      · simpa using h
    · cases e
  unfold cwStep at e
  split at e
  · obtain rfl := Option.some.inj e
    simpa using h
  · split at e
    · cases e
    · split at e
      · obtain rfl := Option.some.inj e
        exact cwProgram_unready h
      · exact hj e

@[simp] theorem cwRun_unready (h : s.fe.rail ≠ .ready) : (cwRun s).fe.rail ≠ .ready := by
  have hs : ∀ n, ∀ s : State, s.fe.rail ≠ .ready → (cwSteps n s).fe.rail ≠ .ready := by
    intro n
    induction n with
    | zero => exact fun s h => h
    | succ n ih =>
      intro s h
      unfold cwSteps
      split
      · exact h
      · exact ih _ (cwStep_unready h ‹_›)
  unfold cwRun
  split
  · exact h
  · rw [cwPublish_fe]
    exact hs _ _ h

/-! ### The requests taken -/

@[simp] theorem cwRefuse_fe (c : ResultCode) (s : State) : (cwRefuse c s).2.fe = s.fe := by simp [cwRefuse]

theorem cwAnswered_unready {a : ResultCode × State} (h : a.2.fe.rail ≠ .ready) : (cwAnswered a).2.fe.rail ≠ .ready :=
  smSettle_unready (by simpa using h)

@[simp] theorem judgeStart_unready (h : s.fe.rail ≠ .ready) : (judgeStart s).2.fe.rail ≠ .ready := by
  unfold judgeStart
  split
  · simpa using h
  · split
    · simpa using h
    · exact cwAllocate_unready h

@[simp] theorem judgeMedia_fe (r : Request) (s : State) : (judgeMedia r s).2.fe = s.fe := by
  unfold judgeMedia
  dsimp only
  split
  · simp
  · split
    · simp
    · split
      · simp
      · split <;> simp [cwStartPair, cwModifyEntry, puSkipBelow]

@[simp] theorem judgeFetch_unready (r : Request) (h : s.fe.rail ≠ .ready) : (judgeFetch r s).2.fe.rail ≠ .ready := by
  unfold judgeFetch
  split
  · simpa using h
  · split
    · simpa using h
    · split
      · simpa using h
      · split
        · simpa using h
        · exact flashAsk_unready _ _ h

@[simp] theorem judgeFormat_unready (h : s.fe.rail ≠ .ready) : (judgeFormat s).2.fe.rail ≠ .ready := by
  unfold judgeFormat
  dsimp only
  split
  · simpa using h
  · split
    · simpa using h
    · exact smFormatBegin_unready (by simpa using h)

@[simp] theorem judgeStopped_unready (k : Kind) (r : Request) (h : s.fe.rail ≠ .ready) :
    (judgeStopped k r s).2.fe.rail ≠ .ready := by
  unfold judgeStopped
  split
  · simpa using h
  · cases k
    · simpa [judgeMediaStopped] using h
    · exact judgeStart_unready h
    · simpa using h
    · simpa using h
    · exact cwAnswered_unready (by simpa using h)
    · exact cwAnswered_unready (by simpa using h)
    · exact judgeFetch_unready r h
    · exact judgeFormat_unready h

@[simp] theorem judgeRecording_unready (k : Kind) (r : Request) (h : s.fe.rail ≠ .ready) :
    (judgeRecording k r s).2.fe.rail ≠ .ready := by
  cases k
  · simpa [judgeRecording] using h
  · simpa [judgeRecording] using h
  · simpa [judgeRecording, judgeStop, cwEnterClosing] using h
  · exact h
  · exact cwAnswered_unready (by simpa using h)
  · exact cwAnswered_unready (by simpa using h)
  · simpa [judgeRecording] using h
  · simpa [judgeRecording] using h

theorem cwJudge_unready (r : Request) (h : s.fe.rail ≠ .ready) : (cwJudge r s).2.fe.rail ≠ .ready := by
  unfold cwJudge
  split
  · simpa using h
  · split
    · exact judgeStopped_unready _ r h
    · exact judgeRecording_unready _ r h
    · simpa using h
    · exact h

theorem cwTakeAll_unready (table fuel : Nat) (h : s.fe.rail ≠ .ready) : (cwTakeAll table fuel s).fe.rail ≠ .ready := by
  induction fuel generalizing s with
  | zero => exact h
  | succ n ih =>
    unfold cwTakeAll
    split
    · split
      · exact h
      · next i _ =>
        have ht : (cwTake table i s).2.fe.rail ≠ .ready := cwJudge_unready _ h
        dsimp only
        split
        · exact ih ht
        · exact ht
    · exact h

theorem cwScanTable_unready (table : Nat) (h : s.fe.rail ≠ .ready) : (cwScanTable table s).fe.rail ≠ .ready := by
  refine cwTakeAll_unready _ _ ?_
  rw [foldl_fe fun u i => ?_]
  · exact h
  · unfold cwFailStale
    split <;> simp

/-! ### The deliveries of a charge tick -/

theorem cwSignal_unready (c : StopCause) (h : s.fe.rail ≠ .ready) : (cwSignal c s).fe.rail ≠ .ready := by
  unfold cwSignal
  split
  · exact h
  · exact cwRun_unready (by simpa using h)

theorem gaFindLevel_unready (h : s.fe.rail ≠ .ready) : (gaFindLevel s).fe.rail ≠ .ready := by
  have hr : (State.raise { s with ga.level := gaLevel s.ga } .gaugeLevel).fe.rail ≠ .ready := by simpa using h
  unfold gaFindLevel gaCutoff
  dsimp only
  split
  · exact h
  · split
    · exact cwSignal_unready _ hr
    · rw [gaCheck_fe]
      exact cwSignal_unready _ hr
    · exact hr

theorem ccArrival_unready (m : Measurement) (h : s.fe.rail ≠ .ready) : (ccArrival m s).fe.rail ≠ .ready := by
  have hk : Carries fun u => u.fe.rail ≠ .ready := ⟨fun _ h => h, fun c h => by simpa using h⟩
  exact hk.arrival h (fun _ _ _ h => gaFindLevel_unready h) fun _ _ _ h => gaFindLevel_unready h

theorem gaArrival_unready (m : Measurement) (h : s.fe.rail ≠ .ready) : (gaArrival m s).fe.rail ≠ .ready := by
  have hi : (gaInstall s).fe.rail ≠ .ready := by
    unfold gaInstall
    split
    · exact h
    · exact gaFindLevel_unready h
  have hc : (gaCount m (gaInstall s)).fe = (gaInstall s).fe := by
    unfold gaCount
    split <;> rfl
  have hg : ∀ u, (gaGraceTick u).fe = u.fe := fun u => by
    unfold gaGraceTick
    split
    · rfl
    · dsimp only
      split <;> simp
  have hf : (gaFindLevel (gaAdvance m (gaCount m (gaInstall s)))).fe.rail ≠ .ready := gaFindLevel_unready (hc ▸ hi)
  unfold gaArrival
  dsimp only
  split
  · rw [hg]
    exact hf
  · exact hf

/-- No delivery of a charge tick makes the rail Ready (R3, R67). -/
theorem tickDelivery_unready (m : Measurement) (d : TickDelivery) (h : s.fe.rail ≠ .ready) :
    (tickDelivery m d s).fe.rail ≠ .ready := by
  cases d <;> unfold tickDelivery <;> dsimp only
  case releaseScan =>
    obtain ⟨l, k, e, -⟩ := puReleaseScan_form s
    rw [e]
    split <;> exact h
  case charger => exact ccArrival_unready m h
  case gauge => exact gaArrival_unready m h
  case scan =>
    unfold cwService
    split
    · split
      · exact h
      · exact cwRun_unready (cwScanTable_unready _ h)
    · exact h
  case commit =>
    unfold cwCommit
    split
    · exact cwRun_unready (by simpa using h)
    · exact h
  case flash =>
    unfold feTick
    rw [if_neg fun k => h k.1]
    exact h
  case status =>
    obtain ⟨k, g, e⟩ := hpTick_form s
    rw [e]
    exact h

end Sys2Proof.Machine
end

section
/-! The charge tick at a writer that rests (R3): its deliveries leave the writer as it is, and of the flash engine the idle
counter alone is moved, by its own delivery (R69). -/

namespace Sys2Proof.Machine

variable {s t : State} {c : Cw} {f : Fe} {m : Measurement}

/-! ### The flash engine's part of a tick -/

/-- The flash engine after its part of a tick, by its own registers and the tail (R69). -/
def tickedFe (c : Cw) (f : Fe) : Fe :=
  if f.rail = .ready ∧ f.waiting = [] then
    if f.idle - 1 ≠ 0 then { f with idle := f.idle - 1 }
    else if c.assembly = [] then { f with rail := .off, restored := false, settleEnd := none, idle := 0 }
    else { f with idle := f.idleLoad }
  else f

theorem feTick_eq (s : State) : feTick s = { s with fe := tickedFe s.cw s.fe } := by
  unfold feTick tickedFe feSwitchOff
  dsimp only
  split
  · split
    · rfl
    · split <;> rfl
  · rfl

/-- The last tick of the idle counter, with no tail (R69). -/
theorem tickedFe_last (hr : f.rail = .ready) (hw : f.waiting = []) (hi : f.idle = 1) (ha : c.assembly = []) :
    tickedFe c f = { f with rail := .off, restored := false, settleEnd := none, idle := 0 } := by
  unfold tickedFe
  rw [if_pos ⟨hr, hw⟩, hi, if_neg (by decide), if_pos ha]

/-- The last tick, with a tail (R69, R127). -/
theorem tickedFe_reloads (hr : f.rail = .ready) (hw : f.waiting = []) (hi : f.idle = 1) (ha : c.assembly ≠ []) :
    tickedFe c f = { f with idle := f.idleLoad } := by
  unfold tickedFe
  rw [if_pos ⟨hr, hw⟩, hi, if_neg (by decide), if_neg ha]

/-- A tick before the last (R69). -/
theorem tickedFe_counts {n : Nat} (hr : f.rail = .ready) (hw : f.waiting = []) (hi : f.idle = n + 2) :
    tickedFe c f = { f with idle := n + 1 } := by
  unfold tickedFe
  rw [if_pos ⟨hr, hw⟩, hi]
  exact if_pos (Nat.succ_ne_zero n)

/-- A rail that is not Ready is left. -/
theorem tickedFe_unready (hr : f.rail ≠ .ready) : tickedFe c f = f := if_neg fun k => hr k.1

/-! ### A writer that no delivery moves -/

/-- A writer that is not at work on a segment (Table 6-1). -/
def Closed (c : Cw) : Prop := c.reloc = none ∧ (c.writer = .stopped ∨ c.writer = .faulted ∨ c.writer = .unmounted)

/-- Such a writer takes no notice of a stop event (R123). -/
theorem cwStopEvent_unheard (hc : Closed s.cw) (h : Resting s) (cause : StopCause) : cwStopEvent cause s = s := by
  obtain ⟨hl, hw⟩ := hc
  unfold cwStopEvent cwApplyStop
  rw [(h.jobless hl).stops, if_neg Bool.false_ne_true]
  rcases hw with hw | hw | hw <;> rw [hw] <;> simp

/-- The writer and the flash engine, at rest: no cutoff can begin, the level's entry to Reserve cannot stop the writer, no
commit is due, and a scan finds nothing (R112, R123, R127, R160). -/
structure Lulled (c : Cw) (f : Fe) (s : State) : Prop where
  resting : Resting s
  noScan : scanIdle s
  spared : Spared s.ga
  unheard : s.ga.present = true ∨ Closed s.cw
  noCommit : commitDue s = false
  cw : s.cw = c
  fe : s.fe = f

/-- The level found with the input Present is not Reserve (R159, R160). -/
theorem gaLevel_present {g : Ga} (h : g.present = true) (hl : g.level ≠ .cutoff) : gaLevel g ≠ .reserve := by
  unfold gaLevel
  rw [if_neg hl, h]
  simp only [Bool.not_true, Bool.false_eq_true, false_and, and_false, if_false]
  split <;> decide

/-- A change of the charger's and the Gauge's registers. -/
theorem Lulled.update (h : Lulled c f s) (cc : Cc) {ga : Ga} (hg : ga.sysen = true) (hs : Spared ga)
    (hp : ga.present = s.ga.present ∨ Closed s.cw) : Lulled c f { s with cc := cc, ga := ga } :=
  ⟨{ h.resting with asserted := hg }, h.noScan, hs, h.unheard.elim (fun k => hp.imp_left fun e => e.trans k) .inr,
    h.noCommit, h.cw, h.fe⟩

theorem commitDue_congr (hc : t.cw = s.cw) (hr : t.rck = s.rck) (hp : t.part = s.part) : commitDue t = commitDue s := by
  unfold commitDue State.now State.resetting
  rw [hc, hr, hp]

/-- A change that is neither the writer's, the Gauge's nor the flash engine's. -/
theorem Lulled.congr (h : Lulled c f s) (hp : t.part = s.part) (hr : t.rck = s.rck) (hc : t.cw = s.cw) (hf : t.fe = s.fe)
    (hm : t.mu = s.mu) (hs : t.sm = s.sm) (hg : t.ga = s.ga) (hscan : scanIdle t) : Lulled c f t where
  resting := h.resting.congr (by rw [hp]; exact h.resting.powered) hg hc (by rw [hm]) hs
  noScan := hscan
  spared := by rw [hg]; exact h.spared
  unheard := by rw [hg, hc]; exact h.unheard
  noCommit := (commitDue_congr hc hr hp).trans h.noCommit
  cw := hc.trans h.cw
  fe := hf.trans h.fe

theorem Lulled.raise (h : Lulled c f s) (x : Cause) : Lulled c f (s.raise x) :=
  h.congr (raise_part s x) (raise_rck s x) (raise_cw s x) (raise_fe s x) (raise_mu s x) (raise_sm s x) (raise_ga s x)
    (scanIdle_congr h.noScan (raise_cw s x) (raise_mem s x) (raise_hp_status s x) (by rw [raise_pu]))

/-- Finding the level (R159, R160). -/
theorem gaFindLevel_lulled (h : Lulled c f s) : Lulled c f (gaFindLevel s) := by
  have hr : Lulled c f (State.raise { s with ga.level := gaLevel s.ga } .gaugeLevel) :=
    (h.update s.cc (ga := { s.ga with level := gaLevel s.ga }) h.resting.asserted
      ⟨h.spared.noGrace, h.spared.level, h.spared.notDue⟩ (.inl rfl)).raise _
  unfold gaFindLevel
  dsimp only
  split
  · exact h
  · split
    · next hl =>
      have hc := h.unheard.resolve_left fun k => gaLevel_present k h.spared.notCutoff hl
      rw [hl] at hr ⊢
      unfold cwSignal
      rw [cwStopEvent_unheard (by rw [raise_cw]; exact hc) hr.resting, hr.resting.writer, ite_self]
      exact hr
    · next hl => exact absurd hl h.spared.level
    · exact hr

/-- The charger's arrival, where the qualification stays or the writer takes no notice (R134, R157). -/
theorem ccArrival_lulled (h : Lulled c f s) (hq : (vinInRange m.vin = s.cc.present ∨ s.cc.qualifyCount < 3) ∨ Closed c) :
    Lulled c f (ccArrival m s) := by
  have hk : Carries (Lulled c f) :=
    ⟨fun cc k => k.update cc k.resting.asserted k.spared (.inl rfl), fun x k => k.raise x⟩
  refine hk.arrival h (fun hn u b k => ?_) fun _ _ u k => ?_
  · have hc : Closed u.cw := k.cw ▸ hq.resolve_left hn
    refine gaFindLevel_lulled (k.update u.cc k.resting.asserted ⟨k.spared.noGrace, k.spared.notCutoff, ?_⟩ (.inr hc))
    have := k.spared.notDue
    dsimp only
    split <;> omega
  · exact gaFindLevel_lulled (k.update u.cc k.resting.asserted
      ⟨k.spared.noGrace, k.spared.notCutoff, k.spared.notDue⟩ (.inl rfl))

/-- The Gauge's arrival, at which no cutoff begins (R153). -/
theorem gaArrival_lulled (h : Lulled c f s) (hc : s.ga.cutoffCount < 3) : Lulled c f (gaArrival m s) := by
  have hi : Lulled c f (gaInstall s) := by
    unfold gaInstall
    split
    · exact h
    · exact gaFindLevel_lulled (h.update s.cc h.resting.asserted
        ⟨h.spared.noGrace, h.spared.notCutoff, h.spared.notDue⟩ (.inl rfl))
  have hn : (gaInstall s).ga.cutoffCount < 3 := by
    rw [gaInstall_ga h.spared.noGrace h.spared.notCutoff h.spared.notDue, gaInstalled_count]
    exact hc
  have hd : Lulled c f (gaAdvance m (gaCount m (gaInstall s))) := by
    obtain ⟨q, b, e⟩ := gaCounted_form m (gaInstall s).ga
    have hs : gaAdvance m (gaCount m (gaInstall s))
        = { gaInstall s with ga := gaHeld m { (gaInstall s).ga with q := q, estimated := b } } := by
      rw [← e]
      unfold gaAdvance gaCount gaHeld gaCounted
      split <;> rfl
    rw [hs]
    refine hi.update _ hi.resting.asserted ⟨hi.spared.noGrace, hi.spared.notCutoff, ?_⟩ (.inl rfl)
    unfold gaHeld
    dsimp only
    split <;> omega
  unfold gaArrival
  dsimp only
  rw [h.spared.noGrace]
  exact gaFindLevel_lulled hd

/-- The flash engine's own delivery (R69). -/
theorem feTick_lulled (h : Lulled c f s) : Lulled c (tickedFe c f) (feTick s) := by
  obtain ⟨hr, hs, hg, hu, hd, rfl, rfl⟩ := h
  rw [feTick_eq]
  exact ⟨hr.congr hr.powered rfl rfl rfl rfl, scanIdle_congr hs rfl rfl rfl rfl, hg, hu, hd, rfl, rfl⟩

/-- Every other delivery leaves the writer and the flash engine (R3). -/
theorem tickDelivery_lulled {d : TickDelivery} (hd : d ≠ .flash) (h : Lulled c f s)
    (hc : d = .gauge → s.ga.cutoffCount < 3)
    (hq : d = .charger → (vinInRange m.vin = s.cc.present ∨ s.cc.qualifyCount < 3) ∨ Closed c) :
    Lulled c f (tickDelivery m d s) := by
  cases d <;> unfold tickDelivery <;> dsimp only
  case charger => exact ccArrival_lulled h (hq rfl)
  case gauge => exact gaArrival_lulled h (hc rfl)
  case releaseScan =>
    obtain ⟨l, k, e, hk⟩ := puReleaseScan_form s
    split
    · rw [e]
      exact h.congr rfl rfl rfl rfl rfl rfl rfl (scanIdle_unread h.noScan rfl rfl rfl fun _ => hk)
    · exact h
  case scan =>
    unfold cwService
    split
    · split
      · exact h
      · next table ht =>
        have hn := (h.noScan.resolve_left fun e => by rw [ht] at e; cases e).1
        rw [cwScanTable_none hn ht, h.resting.writer]
        exact h
    · exact h
  case commit =>
    unfold cwCommit
    rw [h.noCommit]
    exact h
  case flash => exact absurd rfl hd
  case status =>
    by_cases hs : s.hp.status = none
    · rw [hpTick_idle (.inr hs)]
      exact h
    · obtain ⟨k, g, e⟩ := hpTick_form s
      rw [e]
      exact h.congr rfl rfl rfl rfl rfl rfl rfl (scanIdle_unread h.noScan rfl rfl rfl fun n => absurd n hs)

/-- So do several, each made at most once. -/
theorem deliveries_lulled {l : List TickDelivery} (hn : l.Nodup) (h : Lulled c f s)
    (hc : .gauge ∈ l → s.ga.cutoffCount < 3)
    (hq : .charger ∈ l → (vinInRange m.vin = s.cc.present ∨ s.cc.qualifyCount < 3) ∨ Closed c) :
    Lulled c (if .flash ∈ l then tickedFe c f else f) (l.foldl (fun s d => tickDelivery m d s) s) := by
  induction l generalizing s f with
  | nil => exact h
  | cons d l ih =>
    obtain ⟨hd, hl⟩ := List.nodup_cons.1 hn
    have hcl : .gauge ∈ l → (tickDelivery m d s).ga.cutoffCount < 3 := fun hg => by
      have h3 := hc (List.mem_cons_of_mem _ hg)
      by_cases e : d = .charger
      · subst e
        exact lt_of_le_of_lt (ccArrival_fed m h.spared.noGrace h.spared.notCutoff h.spared.notDue).1.count h3
      · rw [tickDelivery_ga m e (fun e => hd (e ▸ hg)) h.spared.noGrace]
        exact h3
    have hql : .charger ∈ l →
        (vinInRange m.vin = (tickDelivery m d s).cc.present ∨ (tickDelivery m d s).cc.qualifyCount < 3) ∨ Closed c :=
      fun hg => by
        rw [tickDelivery_cc m (d := d) fun e => hd (e ▸ hg)]
        exact hq (List.mem_cons_of_mem _ hg)
    rw [List.foldl_cons]
    by_cases e : d = .flash
    · subst e
      have hr := ih hl (feTick_lulled h) hcl hql
      rw [if_neg hd] at hr
      rw [if_pos (List.mem_cons_self ..)]
      exact hr
    · have hk := tickDelivery_lulled (m := m) e h (fun e => hc (by rw [e]; exact List.mem_cons_self ..))
        fun e => hq (by rw [e]; exact List.mem_cons_self ..)
      simp only [List.mem_cons, Ne.symm e, false_or]
      exact ih hl hk hcl hql

end Sys2Proof.Machine
end

section
/-! IDLE_TIMEOUT and COMMIT_DEADLINE (R69, R127): what the tick makes of a rail that is Ready with nothing asked, and of a
tail whose deadline has been reached. -/

namespace Sys2Proof.Machine

variable {s : State} {c : Cw} {f : Fe} {m : Measurement} {o : List TickDelivery}

/-! ### The tick of a writer at rest -/

/-- Such a tick moves the flash engine's counter alone, and is an idle timeout where that switches the rail off (R69). -/
theorem chargeTick_lulled (h : Lulled c f (tickTime s)) (hl : Lasting s)
    (hq : s.cc.qualifyCount < 3 ∨ Closed c) (hr : f.rail = .ready) :
    (∃ u, exec (.chargeTick m o) s = .next u
        ∧ ((tickedFe c f).rail = .off → exec (.idleTimeout m o) s = .next u)
        ∧ u.fe = tickedFe c f ∧ u.cw = c)
      ∧ ((tickedFe c f).rail ≠ .off → exec (.idleTimeout m o) s = .next s) := by
  have hq' : (vinInRange (delivered m).vin = s.cc.present ∨ s.cc.qualifyCount < 3) ∨ Closed c := hq.imp_left .inr
  have hn : (tickOrder o).Nodup := (tickOrder_perm o).nodup_iff.2 (by decide)
  have hfl : TickDelivery.flash ∈ tickOrder o := (tickOrder_perm o).mem_iff.2 (by decide)
  have hb : Lulled c (tickedFe c f) (bodyChargeTick m o s) := by
    have hd := deliveries_lulled (m := delivered m) hn h (fun _ => hl.notDue) fun _ => hq'
    rw [if_pos hfl] at hd
    exact hd
  have hbefore : Lulled c f (beforeFlashTick m o s) := by
    obtain ⟨pre, post, e, hpre, -⟩ := tickOrder_split o .flash
    have hp : (tickOrder o).takeWhile (fun d => decide (d ≠ .flash)) = pre := by
      rw [e, List.takeWhile_append_of_pos fun d hd => decide_eq_true (ne_of_mem_of_not_mem hd hpre),
        List.takeWhile_cons_of_neg (by decide), List.append_nil]
    have hnp : pre.Nodup := by
      rw [e] at hn
      exact (List.nodup_append.1 hn).1
    have hd := deliveries_lulled (m := delivered m) hnp h (fun _ => hl.notDue) fun _ => hq'
    rw [if_neg hpre] at hd
    unfold beforeFlashTick
    rw [hp]
    exact hd
  have hcame : ∀ u, cameIdleTimeout m o s u = decide ((tickedFe c f).rail = .off) := fun u => by
    unfold cameIdleTimeout
    dsimp only
    rw [feTick_eq, hbefore.cw, hbefore.fe, hr]
    simp
  refine ⟨⟨_, exec_chargeTick m o hl.powered, fun ho => ?_, ?_⟩, fun ho => ?_⟩
  · exact congrArg Host.Outcome.next (derived_came hl.powered ((hcame _).trans (decide_eq_true ho)))
  · rw [hb.resting.finish]
    exact ⟨hb.fe, hb.cw⟩
  · exact congrArg Host.Outcome.next (derived_not ((hcame _).trans (decide_eq_false ho)))

/-- A rail that is not Ready is not switched off by the tick (R69). -/
theorem idleTimeout_unready (h : s.fe.rail ≠ .ready) : exec (.idleTimeout m o) s = .next s := by
  have hb : (beforeFlashTick m o s).fe.rail ≠ .ready := by
    unfold beforeFlashTick
    generalize (tickOrder o).takeWhile (fun d => decide (d ≠ .flash)) = l
    have ht : (tickTime s).fe.rail ≠ .ready := h
    generalize tickTime s = u at ht
    induction l generalizing u with
    | nil => exact ht
    | cons d l ih => exact ih _ (tickDelivery_unready _ d ht)
  refine congrArg Host.Outcome.next (derived_not ?_)
  unfold cameIdleTimeout
  dsimp only
  rw [decide_eq_false hb]
  rfl

/-- The clock's way to the tick leaves a writer at rest where no commit is due then (R3, R127). -/
theorem lulled_tickTime (h : Resting s) (hs : scanIdle s) (hl : Lasting s) (hu : s.ga.present = true ∨ Closed s.cw)
    (hd : commitDue (tickTime s) = false) : Lulled s.cw s.fe (tickTime s) :=
  ⟨h.congr h.powered rfl rfl rfl rfl, scanIdle_congr hs rfl rfl rfl rfl, hl.spared, hu, hd, rfl, rfl⟩

theorem commitDue_noTail (h : s.cw.assembly = []) : commitDue s = false := by
  unfold commitDue
  split
  · rfl
  · simp [h]

/-! ### The commit at its deadline -/

/-- A deadline that has been reached with a tail in the buffer, and the writer free to program it, is due (R127). -/
theorem commitDue_reached {d : Nat} (hd : s.cw.deadline = some d) (hx : d ≤ s.now) (hy : s.cw.assembly ≠ [])
    (hp : s.cw.programming = false) (hj : s.cw.job = .idle) (hl : s.cw.reloc = none) (hr : s.resetting = false) :
    commitDue s = true := by
  unfold commitDue
  rw [hd]
  simp [hx, hy, hp, hj, hl, hr]

theorem commitDue_before {d : Nat} (hd : s.cw.deadline = some d) (hx : s.now < d) : commitDue s = false := by
  unfold commitDue
  rw [hd]
  simp [hx]

theorem commitDue_none (hd : s.cw.deadline = none) : commitDue s = false := by
  unfold commitDue
  rw [hd]

/-- A tail whose deadline has been reached is filled and its program asked for (R125, R127). -/
theorem cwCommit_pads {n j : Nat} {e : Segment} (h : Resting s) (hl : s.cw.reloc = none) (hp : s.cw.programming = false)
    (hc : s.sm.change = none) (hy : s.cw.assembly ≠ []) (hn : n = 8192 - s.cw.assembly.length) (h4 : 4 ≤ n)
    (hj : openIndex s.sm = some j) (he : s.sm.segments[j]? = some e) (hf : railAsleep s) (hg : grantAllowed s = true)
    (hd : commitDue s = true) : cwCommit s = paddedPage s n j e := by
  have hstep : cwStep (cwPad s) = some (paddedPage s n j e) := by
    rw [cwPad_tail hy hn h4, cwStep_full, cwProgram_asleep]
    · unfold paddedPage
      rw [List.append_assoc]
      rfl
    · exact hj
    · exact he
    · exact hf
    · exact hg
    · have hw := h.jobless hl
      exact ⟨hw.noJob, hw.noReappend, hw.noResume, hw.noStopDue, hw.noReloc⟩
    · exact hp
    · exact hc
    · simp only [List.length_append, List.length_replicate, leBytes_length]
      omega
  have hwait : cwStep (paddedPage s n j e) = none := cwStep_waiting h.noStopDue (.inr (.inl rfl))
  have hpub : cwPublish (paddedPage s n j e) = paddedPage s n j e := cwPublish_unready h.oldestUnready
  have hr : (cwPad s).resetting = false := by
    rw [cwPad_tail hy hn h4]
    unfold grantAllowed at hg
    unfold State.resetting
    simp_all
  unfold cwCommit cwRun
  rw [if_pos hd, if_neg (by rw [hr]; decide), cwSteps_succ hstep, cwSteps_none _ hwait, hpub]

/-- The writer then waits for the program (R125). -/
theorem paddedPage_lulled (n j : Nat) (e : Segment) (h : Resting s) (hs : scanIdle s) (hg : Spared s.ga)
    (hp : s.ga.present = true) :
    Lulled (paddedPage s n j e).cw (paddedPage s n j e).fe (paddedPage s n j e) where
  resting := ⟨h.powered, h.asserted, h.oldestUnready, h.noJob, h.noReappend, h.noResume, h.noStopDue, .inr rfl, .inr rfl,
    h.noMarks, h.noMount, h.noFormat⟩
  noScan := hs
  spared := hg
  unheard := .inl hp
  noCommit := by
    unfold commitDue paddedPage
    dsimp only
    split <;> simp
  cw := rfl
  fe := rfl

/-- The order named with the commit first takes it first (R3). -/
theorem tickOrder_commit (o : List TickDelivery) :
    ∃ l, tickOrder (.commit :: o) = .commit :: l ∧ l.Nodup := by
  have hn : (tickOrder (.commit :: o)).Nodup := (tickOrder_perm _).nodup_iff.2 (by decide)
  have e : ∃ l, tickOrder (.commit :: o) = .commit :: l := by
    unfold tickOrder completeOrder
    rw [List.eraseDups_cons, List.cons_append]
    exact ⟨_, rfl⟩
  obtain ⟨l, e⟩ := e
  rw [e] at hn
  exact ⟨l, e, (List.nodup_cons.1 hn).2⟩

/-- COMMIT_DEADLINE with the writer at rest and the flash asleep (R127). -/
theorem commitDeadline_pads {n j : Nat} {e : Segment} (hl : Lasting s) (h : Resting s) (hs : scanIdle s)
    (hd : commitDue (tickTime s) = true) (hc : cwCommit (tickTime s) = paddedPage (tickTime s) n j e)
    (hp : s.ga.present = true) (hq : s.cc.qualifyCount < 3) :
    ∃ u, exec (.commitDeadline m o) s = .next u
      ∧ u.cw = (paddedPage (s.advance s.rck.nextChargeTick) n j e).cw
      ∧ u.fe = (paddedPage (s.advance s.rck.nextChargeTick) n j e).fe := by
  have ht : Resting (tickTime s) := h.congr h.powered rfl rfl rfl rfl
  obtain ⟨l, el, hn⟩ := tickOrder_commit o
  have hb : Lulled (paddedPage (tickTime s) n j e).cw (paddedPage (tickTime s) n j e).fe
      (bodyChargeTick m (.commit :: o) s) := by
    have hk := deliveries_lulled (m := delivered m) hn (paddedPage_lulled n j e ht hs hl.spared hp)
      (fun _ => hl.notDue) fun _ => .inl (.inr hq)
    rw [tickedFe_unready (by exact nofun), ite_self] at hk
    unfold bodyChargeTick
    rw [el, List.foldl_cons]
    change Lulled _ _ (l.foldl _ (cwCommit (tickTime s)))
    rw [hc]
    exact hk
  refine ⟨_, congrArg Host.Outcome.next (derived_came hl.powered hd), ?_⟩
  rw [hb.resting.finish]
  exact ⟨hb.cw, hb.fe⟩

/-- Settles O53, by what a tick's deliveries leave of a writer at rest, and by what none of them does to a rail that is not
Ready. -/
theorem flashAtTick : Obligations.FlashAtTick := by
  unfold Obligations.FlashAtTick
  intro m o s hl h hs
  have hnow : s.rck.nextChargeTick ≤ lastClock → s.rck.clock ≤ s.rck.nextChargeTick →
      (tickTime s).now = s.rck.nextChargeTick := fun h1 h2 => by
    change max s.rck.clock (min s.rck.nextChargeTick lastClock) = _
    omega
  refine ⟨fun hr hw hi ha hreloc hwr => ?_, idleTimeout_unready, fun d hr hw hi ha hd hlt h1 h2 hp hcp hq => ?_,
    fun n hr hw hi ha hreloc hwr => ?_, ?_, fun hd => ?_⟩
  · have hc : Closed s.cw := ⟨hreloc, hwr⟩
    obtain ⟨⟨u, e1, e2, hf, hcw⟩, -⟩ := chargeTick_lulled (m := m) (o := o)
      (lulled_tickTime h hs hl (.inr hc) (commitDue_noTail ha)) hl (.inr hc) hr
    rw [tickedFe_last hr hw hi ha] at e2 hf
    exact ⟨u, e2 rfl, e1, hf, hcw⟩
  · have hn : commitDue (tickTime s) = false := commitDue_before hd (by rw [hnow h1 h2]; exact hlt)
    obtain ⟨⟨u, e1, -, hf, hcw⟩, e2⟩ := chargeTick_lulled (m := m) (o := o)
      (lulled_tickTime h hs hl (.inl hp) hn) hl (.inl hq) hr
    rw [tickedFe_reloads hr hw hi ha] at e2 hf
    exact ⟨e2 (by rw [hr]; decide), u, e1, hf, hcw⟩
  · have hc : Closed s.cw := ⟨hreloc, hwr⟩
    obtain ⟨⟨u, e1, -, hf, hcw⟩, e2⟩ := chargeTick_lulled (m := m) (o := o)
      (lulled_tickTime h hs hl (.inr hc) (commitDue_noTail ha)) hl (.inr hc) hr
    rw [tickedFe_counts hr hw hi] at e2 hf
    exact ⟨e2 (by rw [hr]; decide), u, e1, hf, hcw⟩
  · intro d n j e hd hle h1 h2 hreloc hprog hst ht hch hp hcp hq hn hy h16 hj he hf
    have hg : grantAllowed (tickTime s) = true := grantAllowed_of hst ht
    have hdue : commitDue (tickTime s) = true := by
      have hx : d ≤ (tickTime s).now := by rw [hnow h1 h2]; exact hle
      have hr : (tickTime s).resetting = false := decide_eq_false fun k => by
        rcases ht with ht | ht <;> exact absurd (ht.symm.trans k) (by decide)
      exact commitDue_reached hd hx hy hprog h.noJob hreloc hr
    exact commitDeadline_pads hl h hs hdue
      (cwCommit_pads (h.congr h.powered rfl rfl rfl rfl) hreloc hprog hch hy hn (by omega) hj he hf hg hdue) hp hq
  · exact congrArg Host.Outcome.next (derived_not (commitDue_none (s := tickTime s) hd))

end Sys2Proof.Machine
end

section
/-! PROTECT and UNPROTECT (R102, R112, R120): the answers of the Segment Manager, published in the step that takes the request. -/

namespace Sys2Proof.Machine

variable {s t : State} {k i base : Nat} {r : Request} {e : Segment}

/-! ### A change of the table beside a request in hand -/

/-- A state with no work but a request that has just been published is calm. -/
theorem publishedSlot_calm {res : RequestResult} (hp : s.part.state ≠ .off) (hg : s.ga.sysen = true) (hj : Jobless s.cw)
    (hf : s.cw.assembly.length < 8192) (hc : s.cw.writer ≠ .closing) (hk : s.mu.marks = []) (hm : s.sm.mount = none)
    (hn : s.sm.format = none) : Calm (publishedSlot i r res s) := by
  have hcw : (publishedSlot i r res s).cw = { s.cw with queue := [], inHand := none } := raise_cw _ _
  have hsm : (publishedSlot i r res s).sm = s.sm := raise_sm _ _
  exact {
    powered := by rw [publishedSlot, raise_part]; exact hp
    asserted := by rw [publishedSlot, raise_ga]; exact hg
    noRequest := by rw [hcw]
    noJob := by rw [hcw]; exact hj.noJob
    noReappend := by rw [hcw]; exact hj.noReappend
    noResume := by rw [hcw]; exact hj.noResume
    noStopDue := by rw [hcw]; exact hj.noStopDue
    notFull := by rw [hcw]; exact hf
    notClosing := by rw [hcw]; exact hc
    noMarks := by rw [publishedSlot, raise_mu]; exact hk
    noMount := by rw [hsm]; exact hm
    noFormat := by rw [hsm]; exact hn }

/-- While a snapshot is being written and a segment is Free, a change of the table waits (R96, R103). -/
theorem smSettle_free (h : snapshotGoing s) (hf : lowestFree s.sm ≠ none) : smSettle s = s := by
  unfold smSettle
  rw [smFlush_going h, smEraseAhead_free hf]

/-- The Segment Manager's answer to the one request in the queue is published (R115, R120). -/
theorem cwAnswered_taken (c : ResultCode) (hq : s.cw.queue = [takenEntry i r]) (hi : s.cw.inHand = some r.sequence)
    (hg : snapshotGoing s) (hf : lowestFree s.sm ≠ none) :
    (cwAnswered (c, s)).2 = publishedSlot i r ⟨c, r.segment, r.byteOffset, 0⟩ s := by
  have hsm : (publishedSlot i r ⟨c, r.segment, r.byteOffset, 0⟩ s).sm = s.sm := raise_sm _ _
  have hsettle := smSettle_free (s := publishedSlot i r ⟨c, r.segment, r.byteOffset, 0⟩ s)
    (by unfold snapshotGoing; rw [hsm]; exact hg) (by rw [hsm]; exact hf)
  exact (congrArg smSettle (cwPublish_finished _ hq hi)).trans hsettle

/-- A request answered with a change of the table is published in the step that takes it (R120). -/
theorem live_answered {kind : Kind} {n : Stamp} {c : ResultCode} {m : Sm} (hs : Calm s) (h : takesSlot kind i s = true)
    (ht : s.cw.table = some base) (hr : r = slotRequest s base i) (hm : m.mount = none) (hn : m.format = none)
    (hg : m.snapshot ≠ none ∧ m.abandoned = false) (hf : lowestFree m ≠ none)
    (hj : cwJudge r (takenSlot (s.advance n.toNat) base i r)
      = cwAnswered (c, { takenSlot (s.advance n.toNat) base i r with sm := m })) :
    live (bodyTake kind n i) s
      = publishedSlot i r ⟨c, r.segment, r.byteOffset, 0⟩ { takenSlot (s.advance n.toNat) base i r with sm := m } := by
  have hreloc := (takesSlot_taking h ht).noReloc
  have hcalm : Calm (publishedSlot i r ⟨c, r.segment, r.byteOffset, 0⟩
      { takenSlot (s.advance n.toNat) base i r with sm := m }) :=
    publishedSlot_calm hs.powered hs.asserted ⟨hs.noJob, hs.noReappend, hs.noResume, hs.noStopDue, hreloc⟩ hs.notFull
      hs.notClosing hs.noMarks hm hn
  have hanswer := cwAnswered_taken (s := { takenSlot (s.advance n.toNat) base i r with sm := m }) c rfl rfl hg hf
  refine live_taken hs h ht hr ?_ hcalm.resting
  rw [hj, hanswer]
  exact hcalm.writer

/-! ### The Segment Manager's answers (R102) -/

/-- The host's protection is set (R102). -/
theorem smProtect_sets (he : s.sm.segments[k]? = some e) (hd : e.state = .opened ∨ e.state = .closed)
    (hp : protectedBy .host e = false) (hl : s.sm.hostCount + 3 < usableCount s.sm) :
    smProtect k s
      = (.ok, { s with
          sm := { s.sm with
            segments := s.sm.segments.set k { e with protection := some ⟨.host, s.rck.clock⟩ }
            hostCount := s.sm.hostCount + 1
            impactCount := if protectedBy .impact e then s.sm.impactCount - 1 else s.sm.impactCount
            snapshotDue := true } }) := by
  have hk : s.sm.segment k = some e := he
  unfold smProtect
  rw [hk]
  dsimp only
  rw [if_neg (by tauto), hp, if_neg Bool.false_ne_true, if_neg (by omega)]
  unfold setProtection smModify
  dsimp only
  rw [modifyAt_set he]
  rfl

/-- One protection too many (R102). -/
theorem smProtect_exceeds (he : s.sm.segments[k]? = some e) (hd : e.state = .opened ∨ e.state = .closed)
    (hp : protectedBy .host e = false) (hl : usableCount s.sm ≤ s.sm.hostCount + 3) :
    smProtect k s = (.protectLimit, s) := by
  have hk : s.sm.segment k = some e := he
  unfold smProtect
  rw [hk]
  dsimp only
  rw [if_neg (by tauto), hp, if_neg Bool.false_ne_true, if_pos (by omega)]

/-- No such segment to protect (R102). -/
theorem smProtect_refuses (h : ∀ e, s.sm.segments[k]? = some e → e.state ≠ .opened ∧ e.state ≠ .closed) :
    smProtect k s = (.noSuchSegment, s) := by
  unfold smProtect
  split
  · rfl
  · next e he => rw [if_pos (h e he)]

/-- A protection is removed (R102). -/
theorem smUnprotect_removes {p : Protection} (he : s.sm.segments[k]? = some e)
    (hd : e.state = .opened ∨ e.state = .closed) (hp : e.protection = some p) :
    smUnprotect k s
      = (.ok, { s with
          sm := { s.sm with
            segments := s.sm.segments.set k { e with protection := none }
            hostCount := if p.cause = .host then s.sm.hostCount - 1 else s.sm.hostCount
            impactCount := if p.cause = .impact then s.sm.impactCount - 1 else s.sm.impactCount
            snapshotDue := true } }) := by
  have hk : s.sm.segment k = some e := he
  have hb : ∀ c, protectedBy c e = decide (p.cause = c) := fun c => by
    unfold protectedBy
    rw [hp]
    simp
  unfold smUnprotect
  rw [hk]
  dsimp only
  rw [if_neg (by tauto), hp]
  simp only [hb, decide_eq_true_eq, Option.isNone_some, Bool.false_eq_true, if_false]
  unfold setProtection smModify
  dsimp only
  rw [modifyAt_set he]

/-- No such segment to free of its protection (R102). -/
theorem smUnprotect_refuses (h : ∀ e, s.sm.segments[k]? = some e → e.state ≠ .opened ∧ e.state ≠ .closed) :
    smUnprotect k s = (.noSuchSegment, s) := by
  unfold smUnprotect
  split
  · rfl
  · next e he => rw [if_pos (h e he)]

/-! ### A Protect or an Unprotect is judged (R114, R120) -/

/-- The writer hands requests of the table on: it records, or stands Stopped with a table in force (Table 6-3). -/
def AnswersTable (c : Cw) : Prop := c.writer = .recording ∨ (c.writer = .stopped ∧ c.cause ≠ .unformatted)

theorem cwJudge_protect (hk : kindOf r.kind = some .protect) (hw : AnswersTable s.cw) :
    cwJudge r s = cwAnswered (smProtect r.segment s) := by
  unfold cwJudge
  rw [hk]
  rcases hw with hw | ⟨hw, hc⟩
  · rw [hw]
    rfl
  · rw [hw]
    exact if_neg fun c => hc c.1

theorem cwJudge_unprotect (hk : kindOf r.kind = some .unprotect) (hw : AnswersTable s.cw) :
    cwJudge r s = cwAnswered (smUnprotect r.segment s) := by
  unfold cwJudge
  rw [hk]
  rcases hw with hw | ⟨hw, hc⟩
  · rw [hw]
    rfl
  · rw [hw]
    exact if_neg fun c => hc c.1

/-- The Free segments stay Free when another's protection changes. -/
theorem lowestFree_protection {m n : Sm} {p : Option Protection} (he : m.segments[k]? = some e)
    (hn : n.segments = m.segments.set k { e with protection := p }) (hf : lowestFree m ≠ none) : lowestFree n ≠ none := by
  refine lowestFree_congr ?_ hf
  obtain ⟨hlt, hget⟩ := List.getElem?_eq_some_iff.1 he
  rw [hn, List.map_set]
  refine (List.ext_getElem (by simp) fun j hj _ => ?_)
  rw [List.getElem_set]
  split
  · next hjk => subst hjk; simp [hget]
  · rfl

/-- Settles O40: the judgement is the Segment Manager's answer, which is published with its change of the table. -/
theorem protectionSet : Obligations.ProtectionSet := by
  intro n i base k r s a hs htable hr hk hw hfree hgoing ha
  subst hk ha
  have hprotect : takesSlot .protect i s = true → cwJudge r (takenSlot (s.advance n.toNat) base i r)
      = cwAnswered (smProtect r.segment (takenSlot (s.advance n.toNat) base i r)) := fun h =>
    cwJudge_protect (hr ▸ (takesSlot_taking h htable).kind) hw
  have hunprotect : takesSlot .unprotect i s = true → cwJudge r (takenSlot (s.advance n.toNat) base i r)
      = cwAnswered (smUnprotect r.segment (takenSlot (s.advance n.toNat) base i r)) := fun h =>
    cwJudge_unprotect (hr ▸ (takesSlot_taking h htable).kind) hw
  refine ⟨fun e h he hd hp hl => ?_, fun e h he hd hp hl => ?_, fun e p h he hd hp => ?_, fun hno => ⟨fun h => ?_, fun h => ?_⟩⟩
  all_goals refine congrArg Host.Outcome.next ?_
  · exact live_answered hs h htable hr hs.noMount hs.noFormat hgoing (lowestFree_protection he rfl hfree)
      ((hprotect h).trans (congrArg cwAnswered (smProtect_sets he hd hp hl)))
  · exact live_answered (m := s.sm) hs h htable hr hs.noMount hs.noFormat hgoing hfree
      ((hprotect h).trans (congrArg cwAnswered (smProtect_exceeds he hd hp hl)))
  · exact live_answered hs h htable hr hs.noMount hs.noFormat hgoing (lowestFree_protection he rfl hfree)
      ((hunprotect h).trans (congrArg cwAnswered (smUnprotect_removes he hd hp)))
  · exact live_answered (m := s.sm) hs h htable hr hs.noMount hs.noFormat hgoing hfree
      ((hprotect h).trans (congrArg cwAnswered (smProtect_refuses hno)))
  · exact live_answered (m := s.sm) hs h htable hr hs.noMount hs.noFormat hgoing hfree
      ((hunprotect h).trans (congrArg cwAnswered (smUnprotect_refuses hno)))

end Sys2Proof.Machine
end

section
/-! START (R43, R88, R112, R118): a clip that begins in the lowest Free segment. -/

namespace Sys2Proof.Machine

variable {s t : State} {k i base : Nat} {r : Request} {e : Segment}

/-! ### The Open segment (R88) -/

/-- A segment opened where none was Open is the only Open one (R88). -/
theorem opened_alone {m : Sm} {g : Segment} (ho : openIndex m = none) (hk : k < m.segments.length)
    (hg : g.state = .opened) (j : Nat) (x : Segment) (hx : (m.segments.set k g)[j]? = some x) :
    x.state = .opened ↔ j = k := by
  rw [List.getElem?_set] at hx
  split at hx
  · next hkj =>
    obtain rfl := Option.some.inj hx
    exact iff_of_true hg hkj.symm
  · next hkj =>
    refine iff_of_false (fun hs => ?_) (Ne.symm hkj)
    have hpos := List.length_pos_of_mem (indicesWhere_mem (p := fun e => decide (e.state = .opened)) hx (decide_eq_true hs))
    unfold openIndex at ho
    rw [List.getElem?_eq_none_iff] at ho
    omega

/-- An Open segment is found where there is only one (R88). -/
theorem openIndex_of_alone {m : Sm} {g : Segment} (hk : m.segments[k]? = some g) (hg : g.state = .opened)
    (ho : ∀ j x, m.segments[j]? = some x → x.state = .opened → j = k) : openIndex m = some k := by
  have hpos := List.length_pos_of_mem (indicesWhere_mem (p := fun e => decide (e.state = .opened)) hk (decide_eq_true hg))
  have hsome : openIndex m ≠ none := fun h => by
    unfold openIndex at h
    rw [List.getElem?_eq_none_iff] at h
    omega
  obtain ⟨j, hj⟩ := Option.ne_none_iff_exists'.1 hsome
  obtain ⟨x, hx, hs⟩ := openIndex_some hj
  rw [hj, ho j x hx hs]

/-- An open segment with blocks and nothing programmed is not half full, so that no erase begins (R96). -/
theorem smEraseAhead_unfilled (hi : openIndex s.sm = some k) (he : s.sm.segments[k]? = some e) (hb : e.blocks ≠ [])
    (hf : s.sm.openFill = 0) : smEraseAhead s = s := by
  have hpos := List.length_pos_iff.2 hb
  have hh : halfFull s.sm = false := by
    unfold halfFull openSegment Sm.segment
    rw [hi, Option.bind_some, he]
    unfold capacityPages
    exact decide_eq_false (by omega)
  exact if_neg fun c => Bool.false_ne_true (hh.symm.trans c.2.1)

/-! ### A clip begins (R118) -/

/-- The segment `e` opened as part 1 of a new clip (R88). -/
def clipSegment (s : State) (e : Segment) (first : Nat) : Segment :=
  { e with
    state := .opened, sequence := s.sm.sequence, clip := s.sm.clip, part := 1, startTime := s.rck.clock, endTime := 0
    firstFrame := first, frameCount := 0, bytesWritten := 0, protection := none, recovered := false, damaged := false
    weak := false }

/-- The state in which a clip has begun in segment `k`, before its Start is published (R43, R88, R118). -/
def clipBegun (s : State) (k : Nat) (e : Segment) (first : Nat) : State :=
  State.raise
    { s with
      cw := { s.cw with
        writer := .recording, clipFirst := first, streamPos := 0, lastSequence := none, lastTracked := none
        blockEnd := none }
      sm := { s.sm with
        segments := s.sm.segments.set k (clipSegment s e first)
        sequence := nextCounter s.sm.sequence, clip := nextCounter s.sm.clip, openFill := 0, snapshotDue := true }
      pu.shadows := s.pu.shadows.map fun h =>
        if h.state ≠ .free ∧ first ≤ h.frame ∧ h.obligation = .notNeeded then { h with obligation := .needed } else h }
    .writerState

/-- The copy of the one request in the queue is the one in hand (R113). -/
theorem handRequest_taken (hq : s.cw.queue = [takenEntry i r]) (hi : s.cw.inHand = some r.sequence) :
    handRequest s = some r := by
  unfold handRequest
  rw [hi, Option.bind_some, queueEntry_alone hq (by rfl)]
  rfl

/-- A Start whose segment is given begins its clip (R88, R118). -/
theorem cwStartOpen_begins (hq : s.cw.queue = [takenEntry i r]) (hi : s.cw.inHand = some r.sequence)
    (hw : s.cw.writer = .stopped) (hp : s.sm.pending = none) (he : s.sm.segments[k]? = some e) :
    cwStartOpen k s
      = cwFinish (fun _ => ⟨.ok, k, 0, s.sm.clip.toNat⟩) (clipBegun { s with cw.job := .idle } k e r.firstFrame) := by
  have hinstall : ∀ u : State, u.sm.pending = none → smInstallPending u = u := fun u hu => by
    unfold smInstallPending
    rw [hu]
  have hset : ∀ u : State, u.cw.writer = .stopped →
      cwSetWriter .recording u = State.raise { u with cw.writer := .recording } .writerState := fun u hu =>
    if_neg (by rw [hu]; decide)
  unfold cwStartOpen smTakeClip smOpen
  rw [handRequest_taken hq hi]
  dsimp only [Option.map_some, Option.getD_some]
  rw [hinstall _ (by exact hp)]
  unfold smModify
  dsimp only
  rw [modifyAt_set he, hset _ (by exact hw)]
  unfold puClipStart clipBegun State.raise
  dsimp only
  split <;> rfl

/-- With a Free segment at hand an allocation for a Start is answered at once (R94, R118). -/
theorem cwAllocate_starts (hf : lowestFree s.sm = some k) (hj : s.cw.job = .starting) :
    cwAllocate s = smIntake (smSettle (cwStartOpen k { s with sm.change := none })) := by
  have ha : smAllocate s = (some (.segment k), s) := by
    unfold smAllocate
    rw [hf]
  unfold cwAllocate
  rw [ha]
  dsimp only
  unfold cwOnAlloc
  dsimp only
  rw [hj]

/-- A Start in Stopped with energy and an unworn flash asks for a segment (R114, R118). -/
theorem cwJudge_start (hk : kindOf r.kind = some .start) (hw : s.cw.writer = .stopped) (hc : s.cw.cause ≠ .unformatted)
    (hl : lowEnergy s.ga = false) (hn : s.fe.worn = false) :
    cwJudge r s = (false, cwAllocate { s with cw.job := .starting, sm.change := some .start }) := by
  have hs : judgeStopped .start r s = judgeStart s := if_neg fun c => hc c.1
  unfold cwJudge
  rw [hk, hw]
  dsimp only
  rw [hs]
  unfold judgeStart
  rw [hl, hn]
  rfl

/-- Where the writer takes no step, it publishes what is ready. -/
theorem cwRun_publishes (h : cwStep s = none) (hr : s.resetting = false) : cwRun s = cwPublish s := by
  unfold cwRun
  rw [hr, if_neg Bool.false_ne_true, cwSteps_none _ h]

/-- The request in hand gets its result, and the hand is free (R113). -/
theorem cwFinish_hand {q : Word} (f : QueueEntry → RequestResult) (hi : s.cw.inHand = some q) :
    cwFinish f s = { cwReady (entryIs q) f s with cw.inHand := none } := by
  unfold cwFinish
  rw [hi]

/-- A writer with nothing else to do publishes the one request in the queue as it gets its result (R113, R115). -/
theorem cwRun_finished (f : QueueEntry → RequestResult) (hq : s.cw.queue = [takenEntry i r])
    (hi : s.cw.inHand = some r.sequence) (hj : Jobless s.cw) (hf : s.cw.assembly.length < 8192)
    (hc : s.cw.writer ≠ .closing) (hr : s.resetting = false) :
    cwRun (cwFinish f s) = publishedSlot i r (f (takenEntry i r)) s := by
  have hfinish := cwFinish_hand f hi
  have hstep : cwStep (cwFinish f s) = none := by
    rw [hfinish]
    exact cwStep_idle hj.noJob hj.noReappend hj.noResume hj.noStopDue hf hc
  rw [cwRun_publishes hstep (by rw [hfinish]; exact hr), cwPublish_finished f hq hi]

/-- What `clipBegun` leaves for the rest of the step. -/
theorem clipBegun_part (s : State) (k : Nat) (e : Segment) (n : Nat) : (clipBegun s k e n).part = s.part := raise_part _ _

theorem clipBegun_mu (s : State) (k : Nat) (e : Segment) (n : Nat) : (clipBegun s k e n).mu = s.mu := raise_mu _ _

theorem clipBegun_ga (s : State) (k : Nat) (e : Segment) (n : Nat) : (clipBegun s k e n).ga = s.ga := raise_ga _ _

theorem clipBegun_cw (s : State) (k : Nat) (e : Segment) (n : Nat) :
    (clipBegun s k e n).cw
      = { s.cw with
          writer := .recording, clipFirst := n, streamPos := 0, lastSequence := none, lastTracked := none
          blockEnd := none } := raise_cw _ _

theorem clipBegun_sm (s : State) (k : Nat) (e : Segment) (n : Nat) :
    (clipBegun s k e n).sm
      = { s.sm with
          segments := s.sm.segments.set k (clipSegment s e n), sequence := nextCounter s.sm.sequence
          clip := nextCounter s.sm.clip, openFill := 0, snapshotDue := true } := raise_sm _ _

/-- While a snapshot is being written nothing more follows the opening of a clip (R96, R99, R103). -/
theorem clipBegun_settles {n : Nat} {f : QueueEntry → RequestResult} (ho : openIndex s.sm = none)
    (he : s.sm.segments[k]? = some e) (hb : e.blocks ≠ []) (hg : snapshotGoing s) (hm : s.mu.marks = []) :
    smIntake (smSettle (cwFinish f (clipBegun s k e n))) = cwFinish f (clipBegun s k e n) := by
  generalize hu : cwFinish f (clipBegun s k e n) = u
  have hsame : u.sm = (clipBegun s k e n).sm ∧ u.mu = s.mu := by
    rw [← hu, ← clipBegun_mu s k e n]
    unfold cwFinish
    split <;> exact ⟨rfl, rfl⟩
  obtain ⟨hsm, hmu⟩ := hsame
  rw [clipBegun_sm] at hsm
  have hlt := (List.getElem?_eq_some_iff.1 he).1
  have hget : u.sm.segments[k]? = some (clipSegment s e n) := by
    rw [hsm]
    exact List.getElem?_set_self hlt
  have halone := opened_alone ho hlt (g := clipSegment s e n) rfl
  have hopen : openIndex u.sm = some k :=
    openIndex_of_alone hget rfl fun j x hx hs => (halone j x (by rw [hsm] at hx; exact hx)).1 hs
  have hflush : smFlush u = u := smFlush_going (by unfold snapshotGoing; rw [hsm]; exact hg)
  unfold smSettle
  rw [hflush, smEraseAhead_unfilled hopen hget hb (by rw [hsm]), smIntake_none (by rw [hmu]; exact hm)]

/-- A Start in hand, with a Free segment and a snapshot being written, begins its clip at once (R94, R118). -/
theorem cwAllocate_begins (hq : s.cw.queue = [takenEntry i r]) (hi : s.cw.inHand = some r.sequence)
    (hw : s.cw.writer = .stopped) (hj : s.cw.job = .idle) (hc : s.sm.change = none) (hp : s.sm.pending = none)
    (hf : lowestFree s.sm = some k) (he : s.sm.segments[k]? = some e) (hb : e.blocks ≠ []) (ho : openIndex s.sm = none)
    (hg : snapshotGoing s) (hm : s.mu.marks = []) :
    cwAllocate { s with cw.job := .starting, sm.change := some .start }
      = cwFinish (fun _ => ⟨.ok, k, 0, s.sm.clip.toNat⟩) (clipBegun s k e r.firstFrame) := by
  have hidle : ({ s with cw.job := .idle } : State) = s := by rw [← hj]
  have hchange : ({ s with cw.job := .starting, sm.change := none } : State) = { s with cw.job := .starting } := by
    rw [← hc]
  have hopen : cwStartOpen k { s with cw.job := .starting }
      = cwFinish (fun _ => ⟨.ok, k, 0, s.sm.clip.toNat⟩) (clipBegun { s with cw.job := .idle } k e r.firstFrame) :=
    cwStartOpen_begins (s := { s with cw.job := .starting }) hq hi hw hp he
  have halloc := cwAllocate_starts (s := { s with cw.job := .starting, sm.change := some .start }) hf rfl
  rw [halloc]
  dsimp only
  rw [hchange, hopen, hidle, clipBegun_settles ho he hb hg hm]

/-- A Start taken begins its clip and is published in the same step (R112, R115, R118). -/
theorem live_start {n : Stamp} {a : State} (hs : Calm s) (h : takesSlot .start i s = true) (ht : s.cw.table = some base)
    (hr : r = slotRequest s base i) (hw : s.cw.writer = .stopped) (hc : s.cw.cause ≠ .unformatted)
    (hl : lowEnergy s.ga = false) (hn : s.fe.worn = false) (hf : lowestFree s.sm = some k)
    (he : s.sm.segments[k]? = some e) (hb : e.blocks ≠ []) (ho : openIndex s.sm = none) (hp : s.sm.pending = none)
    (hg : snapshotGoing s) (ha : a = takenSlot (s.advance n.toNat) base i r) :
    live (bodyTake .start n i) s
      = publishedSlot i r ⟨.ok, k, 0, s.sm.clip.toNat⟩ (clipBegun a k e r.firstFrame) := by
  subst ha
  have hk := takesSlot_taking h ht
  generalize ha : takenSlot (s.advance n.toNat) base i r = a
  have hpart : a.part = s.part := by subst ha; rfl
  have hcw : a.cw = { s.cw with queue := [takenEntry i r], expected := s.cw.expected + 1, inHand := some r.sequence } := by
    subst ha; rfl
  have hjudge : cwJudge r a
      = (false, cwFinish (fun _ => ⟨.ok, k, 0, s.sm.clip.toNat⟩) (clipBegun a k e r.firstFrame)) := by
    subst ha
    exact (cwJudge_start (s := takenSlot (s.advance n.toNat) base i r) (hr ▸ hk.kind) hw hc hl hn).trans
      (congrArg (Prod.mk false) (cwAllocate_begins (s := takenSlot (s.advance n.toNat) base i r) rfl rfl hw hs.noJob
        hk.noChange hp hf he hb ho hg hs.noMarks))
  have hjobless : Jobless (clipBegun a k e r.firstFrame).cw := by
    rw [clipBegun_cw, hcw]
    exact ⟨hs.noJob, hs.noReappend, hs.noResume, hs.noStopDue, hk.noReloc⟩
  have hfull : (clipBegun a k e r.firstFrame).cw.assembly.length < 8192 := by
    rw [clipBegun_cw, hcw]
    exact hs.notFull
  have hopen : (clipBegun a k e r.firstFrame).cw.writer ≠ .closing := by
    rw [clipBegun_cw]
    exact nofun
  have hcalm : Calm (publishedSlot i r ⟨.ok, k, 0, s.sm.clip.toNat⟩ (clipBegun a k e r.firstFrame)) :=
    publishedSlot_calm (by rw [clipBegun_part, hpart]; exact hs.powered)
      (by rw [clipBegun_ga]; subst ha; exact hs.asserted) hjobless hfull hopen
      (by rw [clipBegun_mu]; subst ha; exact hs.noMarks) (by rw [clipBegun_sm]; subst ha; exact hs.noMount)
      (by rw [clipBegun_sm]; subst ha; exact hs.noFormat)
  refine live_taken hs h ht hr ?_ hcalm.resting
  rw [ha, hjudge]
  refine cwRun_finished _ (by rw [clipBegun_cw, hcw]) (by rw [clipBegun_cw, hcw]) hjobless hfull hopen ?_
  unfold State.resetting
  rw [clipBegun_part, hpart, hk.staying]
  rfl

/-- Settles O37: the judgement opens the segment given, which nothing follows but the publication. -/
theorem startOpensClip : Obligations.StartOpensClip := by
  intro n i base k r e s a hs h ht hr hw hc hl hn hf he hb ho hp hg ha
  have hlive := live_start hs h ht hr hw hc hl hn hf he hb ho hp hg ha
  have hsm : (publishedSlot i r ⟨.ok, k, 0, s.sm.clip.toNat⟩ (clipBegun a k e r.firstFrame)).sm.segments
      = s.sm.segments.set k (clipSegment a e r.firstFrame) := by
    unfold publishedSlot
    rw [raise_sm]
    dsimp only
    rw [clipBegun_sm, ha]
    rfl
  have hcw : (publishedSlot i r ⟨.ok, k, 0, s.sm.clip.toNat⟩ (clipBegun a k e r.firstFrame)).cw.writer = .recording := by
    unfold publishedSlot
    rw [raise_cw]
    dsimp only
    rw [clipBegun_cw]
  have hlt := (List.getElem?_eq_some_iff.1 he).1
  refine ⟨(congrArg Host.Outcome.next hlive).trans ?_, _, congrArg Host.Outcome.next hlive, hcw, fun j g hj => ?_⟩
  · subst ha
    rfl
  · rw [hsm] at hj
    exact opened_alone ho hlt rfl j g hj

end Sys2Proof.Machine
end

section
/-! The snapshot image (R86, R103, R105): what a mount reads back from the image of a table. -/

namespace Sys2Proof.Machine

/-! ### Numbers in bytes (R185) -/

/-- Bytes written of a number spell it again, as far as they hold it (R185). -/
theorem leNat_leBytes (n v : Nat) : leNat (leBytes n v) = v % 256 ^ n := by
  induction n generalizing v with
  | zero => simp [leBytes, leNat, Nat.mod_one]
  | succ n ih =>
    have hlow : (BitVec.ofNat 8 v).toNat = v % 256 := BitVec.toNat_ofNat v 8
    simp only [leBytes, leNat, ih, hlow]
    rw [pow_succ', Nat.mod_mul]

/-- The bytes of numbers, each in its own width. -/
def packed (fields : List (Nat × Nat)) : List Byte := (fields.map fun f => leBytes f.1 f.2).flatten

/-- The width of such a row of numbers. -/
def width (fields : List (Nat × Nat)) : Nat := (fields.map Prod.fst).sum

theorem packed_cons (f : Nat × Nat) (fields : List (Nat × Nat)) : packed (f :: fields) = leBytes f.1 f.2 ++ packed fields :=
  rfl

theorem packed_length (fields : List (Nat × Nat)) : (packed fields).length = width fields := by
  induction fields with
  | nil => rfl
  | cons f fields ih =>
    rw [packed_cons, List.length_append, ih, leBytes_length]
    rfl

/-- A field that stands behind other bytes. -/
theorem fieldOf_append (front rest : List Byte) (o n : Nat) :
    fieldOf (front ++ rest) (front.length + o) n = fieldOf rest o n := by
  unfold fieldOf
  rw [List.drop_append, List.drop_eq_nil_of_le (by omega), List.nil_append, Nat.add_sub_cancel_left]

/-- A field at the front. -/
theorem fieldOf_front (n v : Nat) (rest : List Byte) : fieldOf (leBytes n v ++ rest) 0 n = v % 256 ^ n := by
  unfold fieldOf
  rw [List.drop_zero, List.take_left' (leBytes_length n v), leNat_leBytes]

/-- A number of a row read back from its place, as far as its width holds it. -/
theorem fieldOf_packed (front back : List Byte) (fields : List (Nat × Nat)) {k n v : Nat} (h : fields[k]? = some (n, v)) :
    fieldOf (front ++ (packed fields ++ back)) (front.length + width (fields.take k)) n = v % 256 ^ n := by
  induction fields generalizing front k with
  | nil => cases h
  | cons f fields ih =>
    rw [packed_cons, List.append_assoc]
    cases k with
    | zero =>
      obtain rfl := Option.some.inj h
      rw [fieldOf_append]
      exact fieldOf_front _ _ _
    | succ k =>
      have hr := ih (front ++ leBytes f.1 f.2) h
      rw [List.length_append, leBytes_length, List.append_assoc] at hr
      rw [List.take_succ_cons]
      exact (congrArg (fun o => fieldOf _ o n) (Nat.add_assoc _ _ _).symm).trans hr

/-! ### Block lists (R86) -/

theorem imageBlocks_packed (l : List Nat) : imageBlocks l = packed (l.map fun b => (2, b)) := by
  unfold imageBlocks packed
  rw [List.map_map]
  rfl

theorem width_pairs (l : List Nat) : width (l.map fun b => (2, b)) = 2 * l.length := by
  induction l with
  | nil => rfl
  | cons b l ih =>
    have hcons : width ((b :: l).map fun b => (2, b)) = 2 + width (l.map fun b => (2, b)) := rfl
    rw [hcons, ih, List.length_cons]
    omega

theorem imageBlocks_length (l : List Nat) : (imageBlocks l).length = 2 * l.length := by
  rw [imageBlocks_packed, packed_length, width_pairs]

/-- A block list is read back from its place. -/
theorem blocksAt_image (front back : List Byte) {l : List Nat} (h : ∀ b ∈ l, b < 65536) :
    blocksAt (front ++ (imageBlocks l ++ back)) front.length l.length = l := by
  have hfield : ∀ k (hk : k < l.length), fieldOf (front ++ (imageBlocks l ++ back)) (front.length + 2 * k) 2 = l[k] := by
    intro k hk
    have hf := fieldOf_packed front back (l.map fun b => (2, b)) (k := k) (n := 2) (v := l[k]) (by simp [hk])
    rw [← List.map_take, width_pairs, List.length_take, Nat.min_eq_left (le_of_lt hk), ← imageBlocks_packed] at hf
    exact hf.trans (Nat.mod_eq_of_lt (h _ (List.getElem_mem hk)))
  unfold blocksAt
  refine List.ext_getElem (by simp) fun k _ hk => ?_
  rw [List.getElem_map, List.getElem_range]
  exact hfield k hk

/-! ### The state byte (Table 11-9) -/

theorem segOfCode_segCode (x : SegState) : segOfCode (segCode x) = some x := by cases x <;> rfl

theorem segCode_lt (x : SegState) : segCode x < 8 := by cases x <;> decide

theorem protCode_lt (p : Option Protection) : protCode p < 4 := by
  unfold protCode
  split
  · decide
  · split <;> decide

/-- A protection is told by its code and its time (log 63). -/
theorem protOf_protCode (p : Option Protection) : protOf (protCode p) ((p.map (·.time)).getD 0) = p := by
  cases p with
  | none => rfl
  | some p => obtain ⟨c, n⟩ := p; cases c <;> rfl

/-- The parts of a state byte are found at their bits. -/
theorem stateByte_parts {c p b : Nat} (hc : c < 8) (hp : p < 4) (r d w : Bool)
    (hb : b = c + 8 * p + bit r 5 + bit d 6 + bit w 7) :
    b < 256 ∧ b % 8 = c ∧ b / 8 % 4 = p ∧ b.testBit 5 = r ∧ b.testBit 6 = d ∧ b.testBit 7 = w := by
  subst hb
  simp only [Nat.testBit_eq_decide_div_mod_eq]
  cases r <;> cases d <;> cases w <;> simp [bit] <;> omega

/-! ### An entry of the image (R86, Section 11.7) -/

/-- The fields of a segment fit their places in the image. -/
structure Fits (e : Segment) : Prop where
  part : e.part < 2 ^ 32
  startTime : e.startTime < 2 ^ 64
  endTime : e.endTime < 2 ^ 64
  firstFrame : e.firstFrame < 2 ^ 32
  frameCount : e.frameCount < 2 ^ 32
  bytesWritten : e.bytesWritten < 2 ^ 32
  few : e.blocks.length < 65536
  blocks : ∀ b ∈ e.blocks, b < 65536
  protection : ∀ p, e.protection = some p → p.time < 2 ^ 64

/-- The numbers of an entry before its block list, each with its width (Section 11.7). -/
def entryFields (i : Nat) (e : Segment) : List (Nat × Nat) :=
  [(2, i), (1, segByte e), (1, 0), (2, e.blocks.length), (2, 0), (4, e.sequence.toNat), (4, e.clip.toNat), (4, e.part),
    (4, e.bytesWritten), (8, e.startTime), (8, e.endTime), (8, (e.protection.map (·.time)).getD 0), (4, e.firstFrame),
    (4, e.frameCount), (8, 0)]

theorem imageEntry_packed (i : Nat) (e : Segment) : imageEntry i e = packed (entryFields i e) ++ imageBlocks e.blocks := by
  unfold imageEntry entryFields packed
  simp only [List.map_cons, List.map_nil, List.flatten_cons, List.flatten_nil, List.append_nil, List.append_assoc]

theorem entryFields_width (i : Nat) (e : Segment) : width (entryFields i e) = 64 := by simp [width, entryFields]

theorem imageEntry_length (i : Nat) (e : Segment) : (imageEntry i e).length = 64 + 2 * e.blocks.length := by
  rw [imageEntry_packed, List.length_append, packed_length, imageBlocks_length, entryFields_width]

/-- A number of an entry is read back from its place. -/
theorem fieldOf_entry (front back : List Byte) (i : Nat) (e : Segment) {k n v o : Nat}
    (h : (entryFields i e)[k]? = some (n, v)) (ho : width ((entryFields i e).take k) = o) (hv : v < 256 ^ n) :
    fieldOf (front ++ (imageEntry i e ++ back)) (front.length + o) n = v := by
  subst ho
  rw [imageEntry_packed, List.append_assoc]
  exact (fieldOf_packed front _ _ h).trans (Nat.mod_eq_of_lt hv)

/-- The block list of an entry is read back from its place. -/
theorem blocksAt_entry (front back : List Byte) (i : Nat) {e : Segment} (h : ∀ b ∈ e.blocks, b < 65536) :
    blocksAt (front ++ (imageEntry i e ++ back)) (front.length + 64) e.blocks.length = e.blocks := by
  have hb := blocksAt_image (front ++ packed (entryFields i e)) back h
  rw [List.length_append, packed_length, entryFields_width, List.append_assoc, ← List.append_assoc (packed _),
    ← imageEntry_packed] at hb
  exact hb

/-- An entry is read back from its place (R105). -/
theorem entryAt_image (front back : List Byte) (i : Nat) {e : Segment} (h : Fits e) :
    entryAt (front ++ (imageEntry i e ++ back)) front.length = some e := by
  have hprot : (e.protection.map (·.time)).getD 0 < 2 ^ 64 := by
    cases hp : e.protection with
    | none => decide
    | some p => exact h.protection p hp
  obtain ⟨hbyte, hstate, hcode, hrecovered, hdamaged, hweak⟩ :=
    stateByte_parts (b := segByte e) (segCode_lt e.state) (protCode_lt e.protection) e.recovered e.damaged e.weak rfl
  unfold entryAt
  rw [fieldOf_entry front back i e (k := 1) (o := 2) rfl (by simp [width, entryFields]) hbyte,
    fieldOf_entry front back i e (k := 3) (o := 4) rfl (by simp [width, entryFields]) h.few,
    fieldOf_entry front back i e (k := 5) (o := 8) rfl (by simp [width, entryFields]) e.sequence.isLt,
    fieldOf_entry front back i e (k := 6) (o := 12) rfl (by simp [width, entryFields]) e.clip.isLt,
    fieldOf_entry front back i e (k := 7) (o := 16) rfl (by simp [width, entryFields]) h.part,
    fieldOf_entry front back i e (k := 8) (o := 20) rfl (by simp [width, entryFields]) h.bytesWritten,
    fieldOf_entry front back i e (k := 9) (o := 24) rfl (by simp [width, entryFields]) h.startTime,
    fieldOf_entry front back i e (k := 10) (o := 32) rfl (by simp [width, entryFields]) h.endTime,
    fieldOf_entry front back i e (k := 11) (o := 40) rfl (by simp [width, entryFields]) hprot,
    fieldOf_entry front back i e (k := 12) (o := 48) rfl (by simp [width, entryFields]) h.firstFrame,
    fieldOf_entry front back i e (k := 13) (o := 52) rfl (by simp [width, entryFields]) h.frameCount]
  dsimp only
  rw [hstate, hcode, hrecovered, hdamaged, hweak, segOfCode_segCode, protOf_protCode,
    blocksAt_entry front back i h.blocks, BitVec.ofNat_toNat, BitVec.ofNat_toNat]
  simp

/-- The entries are read back, each behind the one before it (R105). -/
theorem entriesAt_image (front : List Byte) (l : List Segment) (n : Nat) (h : ∀ e ∈ l, Fits e) :
    entriesAt (front ++ ((l.zipIdx n).map fun x => imageEntry x.2 x.1).flatten) l.length front.length = some l := by
  induction l generalizing front n with
  | nil => rfl
  | cons e l ih =>
    have he := entryAt_image front ((l.zipIdx (n + 1)).map fun x => imageEntry x.2 x.1).flatten n (h e (List.mem_cons_self ..))
    have hl := ih (front ++ imageEntry n e) (n + 1) fun x hx => h x (List.mem_cons_of_mem _ hx)
    rw [List.length_append, imageEntry_length, List.append_assoc, ← Nat.add_assoc] at hl
    rw [List.zipIdx_cons, List.map_cons, List.flatten_cons, List.length_cons]
    unfold entriesAt
    rw [he]
    dsimp only
    rw [hl]
    rfl

/-! ### The header and the block records (R103) -/

/-- The numbers of the header, each with its width, before its fill (Section 11.7). -/
def headerFields (s : State) : List (Nat × Nat) :=
  [(4, s.sm.generation.toNat), (2, s.sm.segments.length), (2, s.sm.bps), (4, s.sm.clip.toNat), (4, s.sm.sequence.toNat),
    (2, s.fe.pool.length), (2, s.fe.bad.length), (2, s.fe.tableMap.toNat)]

theorem imageHeader_packed (s : State) : imageHeader s = packed (headerFields s) ++ List.replicate 42 0 := by
  unfold imageHeader headerFields packed
  simp only [List.map_cons, List.map_nil, List.flatten_cons, List.flatten_nil, List.append_nil, List.append_assoc]

theorem imageHeader_length (s : State) : (imageHeader s).length = 64 := by
  rw [imageHeader_packed, List.length_append, packed_length, List.length_replicate]
  simp [width, headerFields]

/-- The entries of the image, one behind the other. -/
def imageEntries (s : State) : List Byte := (s.sm.segments.zipIdx.map fun x => imageEntry x.2 x.1).flatten

theorem tableImage_eq (s : State) :
    tableImage s = imageHeader s ++ (imageBlocks s.fe.bad ++ (imageBlocks s.fe.pool ++ imageEntries s)) := by
  unfold tableImage imageEntries
  rw [List.append_assoc, List.append_assoc]

/-- A number of the header is read back from its place. -/
theorem fieldOf_tableImage {s : State} {k n v o : Nat} (h : (headerFields s)[k]? = some (n, v))
    (ho : width ((headerFields s).take k) = o) (hv : v < 256 ^ n) : fieldOf (tableImage s) o n = v := by
  have hf := fieldOf_packed []
    (List.replicate 42 0 ++ (imageBlocks s.fe.bad ++ (imageBlocks s.fe.pool ++ imageEntries s))) (headerFields s) h
  rw [List.nil_append, List.length_nil, Nat.zero_add, ← List.append_assoc, ← imageHeader_packed, ← tableImage_eq, ho] at hf
  exact hf.trans (Nat.mod_eq_of_lt hv)

/-- The block records are read back from behind the header (R103). -/
theorem blocksAt_bad {s : State} (h : ∀ b ∈ s.fe.bad, b < 65536) :
    blocksAt (tableImage s) 64 s.fe.bad.length = s.fe.bad := by
  have hb := blocksAt_image (imageHeader s) (imageBlocks s.fe.pool ++ imageEntries s) h
  rw [imageHeader_length, ← tableImage_eq] at hb
  exact hb

theorem blocksAt_pool {s : State} (h : ∀ b ∈ s.fe.pool, b < 65536) :
    blocksAt (tableImage s) (64 + 2 * s.fe.bad.length) s.fe.pool.length = s.fe.pool := by
  have hb := blocksAt_image (imageHeader s ++ imageBlocks s.fe.bad) (imageEntries s) h
  rw [List.length_append, imageHeader_length, imageBlocks_length, List.append_assoc, ← tableImage_eq] at hb
  exact hb

/-- The entries are read back from behind the block records (R103, R105). -/
theorem entriesAt_tableImage {s : State} (h : ∀ e ∈ s.sm.segments, Fits e) :
    entriesAt (tableImage s) s.sm.segments.length (64 + 2 * s.fe.bad.length + 2 * s.fe.pool.length)
      = some s.sm.segments := by
  have hb := entriesAt_image (imageHeader s ++ (imageBlocks s.fe.bad ++ imageBlocks s.fe.pool)) s.sm.segments 0 h
  rw [List.length_append, List.length_append, imageHeader_length, imageBlocks_length, imageBlocks_length,
    List.append_assoc, List.append_assoc, ← Nat.add_assoc] at hb
  rw [tableImage_eq]
  exact hb

/-- Settles O55: the numbers of the header, the block records and the entries, each read back from its place. -/
theorem imageHoldsTable : Obligations.ImageHoldsTable := by
  intro s hsegments hbps hbadLen hpoolLen hbad hpool hentries
  have hfits : ∀ e ∈ s.sm.segments, Fits e := fun e he => by
    obtain ⟨hpart, hstart, hend, hfirst, hcount, hbytes, hfew, hblocks, hprot⟩ := hentries e he
    exact ⟨hpart, hstart, hend, hfirst, hcount, hbytes, hfew, hblocks, hprot⟩
  unfold imageContent
  dsimp only
  rw [fieldOf_tableImage (k := 0) (o := 0) rfl (by simp [width, headerFields]) s.sm.generation.isLt,
    fieldOf_tableImage (k := 1) (o := 4) rfl (by simp [width, headerFields]) hsegments,
    fieldOf_tableImage (k := 2) (o := 6) rfl (by simp [width, headerFields]) hbps,
    fieldOf_tableImage (k := 3) (o := 8) rfl (by simp [width, headerFields]) s.sm.clip.isLt,
    fieldOf_tableImage (k := 4) (o := 12) rfl (by simp [width, headerFields]) s.sm.sequence.isLt,
    fieldOf_tableImage (k := 5) (o := 16) rfl (by simp [width, headerFields]) hpoolLen,
    fieldOf_tableImage (k := 6) (o := 18) rfl (by simp [width, headerFields]) hbadLen,
    fieldOf_tableImage (k := 7) (o := 20) rfl (by simp [width, headerFields]) s.fe.tableMap.isLt,
    blocksAt_bad hbad, blocksAt_pool hpool, entriesAt_tableImage hfits]
  simp

end Sys2Proof.Machine
end

section
/-! What becomes of a Stop of the host (R123): whatever the flash answers, the writer stops for the cause HostStop. -/

namespace Sys2Proof.Machine

variable {s t : State}

/-! ### A Stop of the host at work -/

/-- The part of the writer's state that decides over its stops (R123, R128). -/
abbrev stopKey (c : Cw) := (c.writer, c.cause, c.job, c.reappend, c.resume, c.stopDue, c.reloc)

/-- A Stop of the host has been taken, and nothing else is at work that could set another cause (R116, R123). -/
structure Stopping (s : State) : Prop where
  stops : s.cw.writer ≠ .recording
  cause : s.cw.cause = .hostStop
  jobless : Jobless s.cw
  noMarks : s.mu.marks = []
  noMount : s.sm.mount = none
  noFormat : s.sm.format = none

/-- What `Stopping` speaks of. -/
theorem Stopping.congr (h : Stopping s) (hc : stopKey t.cw = stopKey s.cw) (hm : t.mu = s.mu)
    (hs : (t.sm.mount, t.sm.format) = (s.sm.mount, s.sm.format)) : Stopping t := by
  simp only [Prod.mk.injEq] at hc hs
  obtain ⟨hw, hcause, hj, ha, hr, hd, hl⟩ := hc
  exact ⟨hw ▸ h.stops, hcause ▸ h.cause, ⟨hj ▸ h.jobless.noJob, ha ▸ h.jobless.noReappend, hr ▸ h.jobless.noResume,
    hd ▸ h.jobless.noStopDue, hl ▸ h.jobless.noReloc⟩, hm ▸ h.noMarks, hs.1 ▸ h.noMount, hs.2 ▸ h.noFormat⟩

theorem Stopping.raise (h : Stopping s) (c : Cause) : Stopping (s.raise c) :=
  h.congr (by rw [raise_cw]) (raise_mu s c) (by rw [raise_sm])

theorem Stopping.store (h : Stopping s) (a : Nat) (bytes : List Byte) : Stopping (s.store a bytes) := h.congr rfl rfl rfl

/-! ### The writer's operations -/

theorem Stopping.setWriter (h : Stopping s) {w : WriterState} (hw : w ≠ .recording) : Stopping (cwSetWriter w s) := by
  unfold cwSetWriter
  split
  · exact h
  · refine Stopping.raise ?_ _
    exact ⟨hw, h.cause, ⟨h.jobless.noJob, h.jobless.noReappend, h.jobless.noResume, h.jobless.noStopDue,
      h.jobless.noReloc⟩, h.noMarks, h.noMount, h.noFormat⟩

theorem Stopping.publish (h : Stopping s) : Stopping (cwPublish s) := by
  have hp : ∀ (l : List QueueEntry) (u : State), Stopping u → Stopping (publishFrom l u) := by
    intro l
    induction l with
    | nil => exact fun u hu => hu.congr rfl rfl rfl
    | cons e l ih =>
      intro u hu
      unfold publishFrom
      split
      · exact hu.congr rfl rfl rfl
      · refine ih _ (Stopping.raise ?_ _)
        unfold publishSlot
        split
        · exact hu
        · exact (((hu.store _ _).store _ _).store _ _).store _ _
  exact hp _ _ h

theorem Stopping.reportClosed (h : Stopping s) : Stopping (cwReportClosed s) := by
  have hw : PathWork s (puWriterDone s) := by
    unfold puWriterDone puSetNotNeeded
    exact PathWork.foldl (fun hu i => puScanEntry_work (hu.note fun _ => ⟨by exact id, by rfl, by rfl, by rfl⟩) i) _
      (PathWork.refl s)
  have hd : Stopping (puWriterDone s) := h.congr (by rw [hw.cw]) hw.mu (by rw [hw.sm])
  unfold cwReportClosed gaCheck
  split
  · exact hd.congr rfl rfl rfl
  · exact hd

theorem Stopping.closeOpen (h : Stopping s) (v : CloseValues) : Stopping (smCloseOpen v s) := by
  unfold smCloseOpen
  split
  · exact h
  · refine Stopping.raise ?_ _
    exact h.congr rfl rfl rfl

theorem Stopping.rewrite (h : Stopping s) : Stopping (smRewriteAbandoned s) := by
  unfold smRewriteAbandoned smWriteView
  split
  · have hd : Stopping { s with sm.snapshotDue := false } := h.congr rfl rfl rfl
    split
    · exact hd
    · exact (((hd.store _ _).store _ _).store _ _).store _ _
  · exact h

theorem Stopping.ready (h : Stopping s) (test : QueueEntry → Bool) (f : QueueEntry → RequestResult) :
    Stopping (cwReady test f s) := h.congr rfl rfl rfl

/-- The entry to Faulted keeps the cause (R117). -/
theorem Stopping.goFaulted (h : Stopping s) : Stopping (cwGoFaulted s) := by
  have hd : ∀ u, Stopping u → Stopping (cwDropWork u) := fun u hu =>
    ⟨hu.stops, hu.cause, ⟨rfl, rfl, rfl, rfl, rfl⟩, hu.noMarks, hu.noMount, hu.noFormat⟩
  exact (((hd _ (h.closeOpen _).rewrite).ready _ _).setWriter (by decide)).publish.reportClosed

theorem Stopping.enterFaulted (h : Stopping s) : Stopping (cwEnterFaulted s) := by
  unfold cwEnterFaulted
  split
  · exact h
  · exact h.goFaulted

/-! ### The flash's answers -/

/-- A FlashFailed finds no mount and no Format (R93, R105). -/
theorem Stopping.failed (h : Stopping s) (r : Requester) : Stopping (flashFailed r s) := by
  have hs : ∀ q, Stopping (smFlashFailed q (smEndSnapshots s)) := fun q => by
    have hq : Stopping (smRequesterFailed q (smEndSnapshots s)) := by
      cases q <;> exact h.congr rfl rfl rfl
    unfold smFlashFailed smWorkFails
    rw [hq.noMount, hq.noFormat]
    exact hq
  cases r
  case writer => exact Stopping.enterFaulted (h.congr rfl rfl rfl)
  case fetcher => exact Stopping.enterFaulted (h.congr rfl rfl rfl)
  all_goals exact (hs _).enterFaulted

/-- A request that arrives changes the Flash Engine alone (R67, R75). -/
theorem feArrive_frame (r : Requester) (op : FlashOp) (s : State) : ∃ f, (feArrive r op s).2 = { s with fe := f } := by
  unfold feArrive feJoin feGrant feGrantRequest feIssueOp feSwitchOn
  dsimp only
  repeat' split
  all_goals exact ⟨_, rfl⟩

theorem Stopping.ask (h : Stopping s) (r : Requester) (op : FlashOp) : Stopping (flashAsk r op s) := by
  obtain ⟨f, hf⟩ := feArrive_frame r op s
  have ha : Stopping (feArrive r op s).2 := by
    rw [hf]
    exact h.congr rfl rfl rfl
  unfold flashAsk
  dsimp only
  split
  · exact ha.failed r
  · exact ha

/-! ### The Segment Manager's operations -/

/-- Snapshot writing that is Abandoned is a stop event, which finds no writer Recording (R104, R123). -/
theorem Stopping.abandon (h : Stopping s) : Stopping (smAbandon s) := by
  unfold smAbandon cwStopEvent
  have hd : Stopping { s with sm.abandoned := true, sm.snapshot := none, sm.snapshotDue := true } := h.congr rfl rfl rfl
  rw [hd.jobless.stops, if_neg Bool.false_ne_true]
  unfold cwApplyStop
  rw [if_neg hd.stops]
  rw [if_neg (by simp)]
  exact hd

theorem Stopping.newSnapshot (h : Stopping s) : Stopping (smNewSnapshot s).2 := by
  unfold smNewSnapshot smRecordFill
  dsimp only
  split <;> exact h.congr rfl rfl rfl

theorem Stopping.askPage (h : Stopping s) : Stopping (smAskPage s) := by
  unfold smAskPage
  split
  · exact h
  · exact h.ask _ _

theorem Stopping.moveBlock (h : Stopping s) (pages : List (List Byte)) : Stopping (smMoveBlock pages s) := by
  unfold smMoveBlock smAskTableErase
  split
  · exact h.abandon
  · refine Stopping.ask ?_ _ _
    exact h.congr rfl rfl rfl

theorem Stopping.begin (h : Stopping s) : Stopping (smBegin s) := by
  have hn := h.newSnapshot
  unfold smBegin
  dsimp only
  split
  · exact h.abandon
  · split
    · refine Stopping.askPage ?_
      exact hn.congr rfl rfl rfl
    · exact hn.moveBlock _

theorem Stopping.flush (h : Stopping s) : Stopping (smFlush s) := by
  unfold smFlush
  split
  · exact h
  · refine Stopping.rewrite ?_
    split
    · exact h.begin
    · exact h

/-- Returned blocks change the Flash Engine alone (R79). -/
theorem feReturnAll_frame (bs : List Nat) (s : State) : ∃ f, feReturnAll bs s = { s with fe := f } := by
  unfold feReturnAll
  induction bs generalizing s with
  | nil => exact ⟨s.fe, rfl⟩
  | cons b bs ih =>
    obtain ⟨f, hf⟩ := ih (feReturn b s)
    refine ⟨f, hf.trans ?_⟩
    unfold feReturn
    split <;> rfl

theorem Stopping.retire (h : Stopping s) (i : Nat) (kept : List Nat) : Stopping (smRetireSegment i kept s) := by
  unfold smRetireSegment
  dsimp only
  obtain ⟨f, hf⟩ := feReturnAll_frame
    ((((s.sm.segment i).map (·.blocks)).getD []).filter fun b => !kept.contains b) { s with sm.eraser := none }
  rw [hf]
  exact h.congr rfl rfl rfl

theorem Stopping.eraseNext (h : Stopping s) : Stopping (smEraseNext s) := by
  unfold smEraseNext
  split
  · exact h
  · split
    · exact h.congr rfl rfl rfl
    · split
      · split
        · exact h.congr rfl rfl rfl
        · exact h.ask _ _
      · split
        · exact h.retire _ _
        · exact h.congr rfl rfl rfl

theorem Stopping.startErase (h : Stopping s) (i : Nat) : Stopping (smStartErase i s) :=
  (Stopping.flush (s := smDue (smModify i (blankInto .erasing)
    { s with sm.eraser := some ⟨i, 0⟩, sm.lastClosed := lastClosedBut s.sm i })) (h.congr rfl rfl rfl)).eraseNext.flush

theorem Stopping.settle (h : Stopping s) : Stopping (smSettle s) := by
  unfold smSettle smEraseAhead
  split
  · split
    · exact h.flush
    · exact h.flush.startErase _
  · exact h.flush

/-! ### The writer's work -/

theorem Stopping.handOff (h : Stopping s) (f : QueueEntry → RequestResult) : Stopping (cwFinish f s) := by
  unfold cwFinish
  split
  · exact h
  · exact h.congr rfl rfl rfl

/-- A Close for the cause of the Stop keeps it (R89, R123). -/
theorem Stopping.close (h : Stopping s) : Stopping (cwClose s.cw.cause s) := by
  have hc := h.closeOpen (closeValues s)
  have hk : Stopping { smCloseOpen (closeValues s) s with cw.job := .idle, cw.reappend := [], cw.resume := none } :=
    ⟨hc.stops, hc.cause, ⟨rfl, rfl, rfl, hc.jobless.noStopDue, hc.jobless.noReloc⟩, hc.noMarks, hc.noMount, hc.noFormat⟩
  have hf : Stopping (cwFinishStop
      { smCloseOpen (closeValues s) s with cw.job := .idle, cw.reappend := [], cw.resume := none }) := by
    unfold cwFinishStop
    split
    · exact hk
    · split
      · exact hk.handOff _
      · exact hk
  have he : ∀ u, Stopping u → Stopping (cwEnterStopped s.cw.cause u) := fun u hu => by
    have hd : Stopping { u with cw.cause := s.cw.cause, cw.stopDue := none } :=
      ⟨hu.stops, h.cause, ⟨hu.jobless.noJob, hu.jobless.noReappend, hu.jobless.noResume, rfl, hu.jobless.noReloc⟩,
        hu.noMarks, hu.noMount, hu.noFormat⟩
    exact (hd.setWriter (by decide)).publish.reportClosed
  have hs := (he _ hf).settle
  unfold cwClose
  dsimp only
  rw [smIntake_none hs.noMarks]
  exact hs

theorem Stopping.pad (h : Stopping s) : Stopping (cwPad s) := by
  unfold cwPad cwAppend cwSetDeadline
  dsimp only
  split
  · exact h
  · split <;> exact h.congr rfl rfl rfl

theorem Stopping.program (h : Stopping s) : Stopping (cwProgram s) := by
  unfold cwProgram
  split
  · exact h
  · split
    · exact h
    · refine Stopping.ask ?_ _ _
      exact h.congr rfl rfl rfl

/-- A step of the writer is the end of its page, or of its segment (R123, R125). -/
theorem Stopping.step (h : Stopping s) (e : cwStep s = some t) : Stopping t := by
  unfold cwStep at e
  rw [stopReady_none h.jobless.noStopDue] at e
  dsimp only at e
  split at e
  · cases e
  · split at e
    · exact Option.some.inj e ▸ h.program
    · unfold cwJobStep cwIdleStep at e
      rw [h.jobless.noJob, h.jobless.noReappend, h.jobless.noResume] at e
      dsimp only at e
      split at e
      · obtain rfl := Option.some.inj e
        split
        · exact h.close
        · exact h.pad
      · cases e

theorem Stopping.run (h : Stopping s) : Stopping (cwRun s) := by
  have hn : ∀ n (u : State), Stopping u → Stopping (cwSteps n u) := by
    intro n
    induction n with
    | zero => exact fun u hu => hu
    | succ n ih =>
      intro u hu
      unfold cwSteps
      split
      · exact hu
      · next e => exact ih _ (hu.step e)
  unfold cwRun
  split
  · exact h
  · exact (hn _ _ h).publish

/-- A command that ends with a Stop at work ends with its cause, be it in Off, where a part begins with that cause (R116, R162). -/
theorem Stopping.keepsCause (h : Stopping s) : (finish s).cw.cause = .hostStop := by
  have hr := h.run
  unfold finish
  rw [smGoOn_idle h.noMount h.noFormat]
  dsimp only
  rw [smIntake_none hr.noMarks]
  split
  · exact h.cause
  · split
    · exact hr.cause
    · rfl

end Sys2Proof.Machine
end

section
/-! STOP_REQUEST and CONTROL Attention (R89, R111, R112, R115, R116, R123, R125, R170): a Stop of the host by what the writer is
at, and what a service point finds in the request table. -/

namespace Sys2Proof.Machine

variable {s t : State} {k : Kind} {i base : Nat} {r : Request}

/-! ### A slot taken behind others -/

/-- The state once slot `i` has been taken behind the requests that wait (R112). -/
def takenBehind (s : State) (base i : Nat) (r : Request) : State :=
  { takenSlot s base i r with cw.queue := s.cw.queue ++ [takenEntry i r] }

theorem cwTake_behind (s : State) (base i : Nat) :
    cwTake base i s = cwJudge (slotRequest s base i) (takenBehind s base i (slotRequest s base i)) := rfl

/-- The taking of a slot, and what its judgement leaves to do (R112, R114). -/
theorem bodyTake_behind {n : Stamp} (h : takesSlot k i s = true) (ht : s.cw.table = some base)
    (hr : r = slotRequest s base i) :
    bodyTake k n i s = cwRun (cwJudge r (takenBehind (s.advance n.toNat) base i r)).2 := by
  subst hr
  unfold bodyTake
  simp only [advance_cw, ht]
  exact if_pos (by exact h)

/-- Requests that rest stay at rest with one more behind them (R115). -/
theorem Resting.taken (h : Resting s) (n : Nat) : Resting (takenBehind (s.advance n) base i r) where
  powered := h.powered
  asserted := h.asserted
  oldestUnready e he := by
    have hq : (s.cw.queue ++ [takenEntry i r]).head? = some e := he
    cases hs : s.cw.queue with
    | nil =>
      rw [hs] at hq
      obtain rfl := Option.some.inj hq
      rfl
    | cons x rest =>
      rw [hs] at hq
      exact h.oldestUnready e (by rw [hs]; exact hq)
  noJob := h.noJob
  noReappend := h.noReappend
  noResume := h.noResume
  noStopDue := h.noStopDue
  notFull := h.notFull
  notClosing := h.notClosing
  noMarks := h.noMarks
  noMount := h.noMount
  noFormat := h.noFormat

/-! ### A Stop is judged (R116, R123) -/

/-- A Stop in Recording puts the writer in Closing (R116, R123). -/
theorem cwJudge_stop (hk : kindOf r.kind = some .stop) (hw : s.cw.writer = .recording) :
    cwJudge r s = (false, closingFor .hostStop s) := by
  have hset : cwSetWriter .closing { s with cw.cause := .hostStop } = closingFor .hostStop s :=
    if_neg (show s.cw.writer ≠ .closing by rw [hw]; decide)
  unfold cwJudge
  rw [hk, hw]
  exact congrArg (Prod.mk false) hset

/-- A writer that is Closing with a page at its program rests (R123). -/
theorem closingFor_resting {c : StopCause} (h : Resting s) (hp : s.cw.programming = true) : Resting (closingFor c s) :=
  Resting.congr (s := { s with cw.writer := .closing, cw.cause := c })
    { powered := h.powered, asserted := h.asserted, oldestUnready := h.oldestUnready, noJob := h.noJob
      noReappend := h.noReappend, noResume := h.noResume, noStopDue := h.noStopDue, notFull := h.notFull
      notClosing := .inr hp, noMarks := h.noMarks, noMount := h.noMount, noFormat := h.noFormat }
    (by rw [closingFor_part]; exact h.powered) (closingFor_ga c s) (closingFor_cw c s) (by rw [closingFor_mu])
    (closingFor_sm c s)

/-- A page asked for leaves the requests at rest (R125). -/
theorem paddedPage_resting {n j : Nat} {e : Segment} (h : Resting s) : Resting (paddedPage s n j e) where
  powered := h.powered
  asserted := h.asserted
  oldestUnready := h.oldestUnready
  noJob := h.noJob
  noReappend := h.noReappend
  noResume := h.noResume
  noStopDue := h.noStopDue
  notFull := .inr rfl
  notClosing := .inr rfl
  noMarks := h.noMarks
  noMount := h.noMount
  noFormat := h.noFormat

/-- A Stop taken ends in the state in which the writer rests (R116, R123). -/
theorem live_stop {n : Stamp} (hs : Resting s) (h : takesSlot .stop i s = true) (ht : s.cw.table = some base)
    (hr : r = slotRequest s base i) (hw : s.cw.writer = .recording)
    (hrun : cwRun (closingFor .hostStop (takenBehind (s.advance n.toNat) base i r)) = t) (hend : Resting t) :
    live (bodyTake .stop n i) s = t := by
  have hjudge : cwJudge r (takenBehind (s.advance n.toNat) base i r)
      = (false, closingFor .hostStop (takenBehind (s.advance n.toNat) base i r)) :=
    cwJudge_stop (hr ▸ (takesSlot_taking h ht).kind) hw
  refine live_ends hs.powered ?_ hend.finish
  rw [bodyTake_behind h ht hr, hjudge]
  exact hrun

/-- A Stop taken with a tail in the buffer fills the page and asks for its program (R123, R125, R127). -/
theorem live_stop_tail {t : Stamp} {n j : Nat} {d : Segment} (hs : Resting s) (h : takesSlot .stop i s = true)
    (ht : s.cw.table = some base) (hr : r = slotRequest s base i) (hw : s.cw.writer = .recording)
    (hp : s.cw.programming = false) (hy : s.cw.assembly ≠ []) (hn : n = 8192 - s.cw.assembly.length) (h16 : 16 ≤ n)
    (hj : openIndex s.sm = some j) (hd : s.sm.segments[j]? = some d) (hf : railAsleep s) :
    live (bodyTake .stop t i) s
      = closingFor .hostStop (paddedPage (takenBehind (s.advance t.toNat) base i r) n j d) := by
  have hk := takesSlot_taking h ht
  have hrest : Resting (takenBehind (s.advance t.toNat) base i r) := hs.taken _
  have hgrant : grantAllowed s = true := grantAllowed_of (by rw [hk.running]; decide) (.inl hk.staying)
  have hjobless : Jobless (takenBehind (s.advance t.toNat) base i r).cw := hrest.jobless hk.noReloc
  have hrun : cwRun (closingFor .hostStop (takenBehind (s.advance t.toNat) base i r))
      = paddedPage (closingFor .hostStop (takenBehind (s.advance t.toNat) base i r)) n j d :=
    cwRun_pads (by rw [closingFor_cw]) (by rw [closingFor_cw]; exact hrest.oldestUnready) (closingFor_jobless hjobless)
      (by rw [closingFor_cw]; exact hp) (by rw [closingFor_sm]; exact hk.noChange) (by rw [closingFor_cw]; exact hy)
      (by rw [closingFor_cw]; exact hn) (by omega) (by rw [closingFor_sm]; exact hj) (by rw [closingFor_sm]; exact hd)
      (by unfold railAsleep; rw [closingFor_fe]; exact hf) (by unfold grantAllowed; rw [closingFor_part]; exact hgrant)
  refine live_stop hs h ht hr hw ?_ (closingFor_resting (paddedPage_resting hrest) rfl)
  exact hrun.trans (raise_paddedPage _ _ n j d)

/-! ### A Stop with nothing left to write (R89, R115) -/

/-- A result given beside a raised cause. -/
theorem cwFinish_raise (f : QueueEntry → RequestResult) (s : State) (c : Cause) :
    cwFinish f (s.raise c) = (cwFinish f s).raise c := by
  unfold cwFinish
  rw [raise_cw]
  cases s.cw.inHand with
  | none => rfl
  | some q =>
    unfold cwReady State.raise
    dsimp only
    split <;> rfl

/-- The entry to Stopped of a writer whose one request is then published (R115, R116). -/
theorem cwEnterStopped_taken (c : StopCause) (f : QueueEntry → RequestResult) (hq : s.cw.queue = [takenEntry i r])
    (hi : s.cw.inHand = some r.sequence) (hw : s.cw.writer ≠ .stopped) (hd : s.cw.stopDue = none) (ho : noneOwed s)
    (hg : s.ga.grace = none) :
    cwEnterStopped c (cwFinish f s)
      = publishedSlot i r (f (takenEntry i r)) (State.raise { s with cw.writer := .stopped, cw.cause := c } .writerState) := by
  have hset : cwSetWriter .stopped { cwFinish f s with cw.cause := c, cw.stopDue := none }
      = cwFinish f (State.raise { s with cw.writer := .stopped, cw.cause := c } .writerState) := by
    rw [cwFinish_raise, cwFinish_hand f hi, cwFinish_hand f (s := { s with cw.writer := .stopped, cw.cause := c }) hi]
    refine (if_neg hw).trans ?_
    rw [← hd]
    rfl
  have hpub := cwPublish_finished (s := State.raise { s with cw.writer := .stopped, cw.cause := c } .writerState) f
    (i := i) (r := r) (by rw [raise_cw]; exact hq) (by rw [raise_cw]; exact hi)
  unfold cwEnterStopped
  rw [hset, hpub]
  refine cwReportClosed_quiet ?_ ?_
  · unfold noneOwed publishedSlot
    rw [raise_pu, raise_pu]
    exact ho
  · rw [publishedSlot, raise_ga, raise_ga]
    exact hg

/-- A Close with a Stop in hand: the segment is Closed, the writer Stopped, and the Stop published (R89, R115, R123). -/
theorem cwClose_stop {j : Nat} {e : Segment} (h : Jobless s.cw) (hq : s.cw.queue = [takenEntry i r])
    (hi : s.cw.inHand = some r.sequence) (hk : kindOf r.kind = some .stop) (hm : s.mu.marks = [])
    (hw : s.cw.writer ≠ .stopped) (hg : s.ga.grace = none) (hj : openIndex s.sm = some j)
    (he : s.sm.segments[j]? = some e) (ho : ∀ k g, s.sm.segments[k]? = some g → g.state = .opened → k = j)
    (hn : noneOwed s) (hs : snapshotGoing s) :
    cwClose s.cw.cause s
      = publishedSlot i r ⟨.ok, r.segment, r.byteOffset, 0⟩
          (State.raise (State.raise { s with cw.writer := .stopped, sm := closedTable s j e } .segmentClosed)
            .writerState) := by
  have hc : smCloseOpen (closeValues s) s = State.raise { s with sm := closedTable s j e } .segmentClosed := by
    rw [closeValues_idle h.noJob]
    exact smCloseOpen_open hj he _
  have hoi : openIndex (closedTable s j e) = none := openIndex_closed ho (by nofun) rfl
  generalize hu : State.raise { s with sm := closedTable s j e } .segmentClosed = u at hc
  have hucw : u.cw = s.cw := by rw [← hu, raise_cw]
  have husm : u.sm = closedTable s j e := by rw [← hu, raise_sm]
  have hidle : ({ u with cw.job := .idle, cw.reappend := [], cw.resume := none } : State) = u := by
    rw [← h.noJob, ← h.noReappend, ← h.noResume, ← hucw]
  have hfinish : cwFinishStop u = cwFinish (fun e => ⟨.ok, e.request.segment, e.request.byteOffset, 0⟩) u := by
    unfold cwFinishStop
    rw [handRequest_taken (by rw [hucw]; exact hq) (by rw [hucw]; exact hi)]
    exact if_pos hk
  have hstop := cwEnterStopped_taken (s := u) (i := i) (r := r) s.cw.cause
    (fun e => ⟨.ok, e.request.segment, e.request.byteOffset, 0⟩) (by rw [hucw]; exact hq) (by rw [hucw]; exact hi)
    (by rw [hucw]; exact hw) (by rw [hucw]; exact h.noStopDue)
    (by rw [← hu]; unfold noneOwed; rw [raise_pu]; exact hn) (by rw [← hu, raise_ga]; exact hg)
  have hstate : State.raise { u with cw.writer := .stopped, cw.cause := s.cw.cause } .writerState
      = State.raise (State.raise { s with cw.writer := .stopped, sm := closedTable s j e } .segmentClosed) .writerState := by
    rw [← hu]
    unfold State.raise
    split <;> rfl
  rw [hstate] at hstop
  generalize hv : publishedSlot i r ⟨.ok, r.segment, r.byteOffset, 0⟩
    (State.raise (State.raise { s with cw.writer := .stopped, sm := closedTable s j e } .segmentClosed) .writerState) = v
  have hvsm : v.sm = closedTable s j e := by
    rw [← hv, publishedSlot, raise_sm]
    dsimp only
    rw [raise_sm, raise_sm]
  have hvmu : v.mu = s.mu := by
    rw [← hv, publishedSlot, raise_mu]
    dsimp only
    rw [raise_mu, raise_mu]
  have hsettle : smSettle v = v :=
    smSettle_going (by unfold snapshotGoing; rw [hvsm]; exact hs) (by rw [hvsm]; exact hoi)
  unfold cwClose
  dsimp only
  rw [hc, hidle, hfinish, hstop]
  refine (congrArg (fun u => smIntake (smSettle u)) hv).trans ?_
  rw [hsettle, smIntake_none (by rw [hvmu]; exact hm)]

/-- A Stop in hand with nothing left to write closes the segment and is published (R89, R115, R123). -/
theorem cwRun_stops {j : Nat} {e : Segment} (h : Jobless s.cw) (hq : s.cw.queue = [takenEntry i r])
    (hi : s.cw.inHand = some r.sequence) (hk : kindOf r.kind = some .stop) (hm : s.mu.marks = [])
    (hw : s.cw.writer = .closing) (hp : s.cw.programming = false) (hc : s.sm.change = none) (hy : s.cw.assembly = [])
    (hg : s.ga.grace = none) (hj : openIndex s.sm = some j) (he : s.sm.segments[j]? = some e)
    (ho : ∀ k g, s.sm.segments[k]? = some g → g.state = .opened → k = j) (hn : noneOwed s) (hs : snapshotGoing s)
    (hr : s.resetting = false)
    (ht : publishedSlot i r ⟨.ok, r.segment, r.byteOffset, 0⟩
      (State.raise (State.raise { s with cw.writer := .stopped, sm := closedTable s j e } .segmentClosed) .writerState)
        = t) (hcalm : Calm t) : cwRun s = t := by
  have hstep := cwStep_closing hw h hp hc (by rw [hy]; decide)
  rw [if_pos hy, cwClose_stop h hq hi hk hm (by rw [hw]; decide) hg hj he ho hn hs, ht] at hstep
  unfold cwRun
  rw [hr, if_neg Bool.false_ne_true, cwSteps_succ hstep, cwSteps_none _ hcalm.resting.step,
    cwPublish_empty hcalm.noRequest]

/-- A Stop taken with an empty buffer (R89, R115, R123): the segment is Closed, the writer Stopped, the Stop published. -/
theorem live_stop_empty {n : Stamp} {a : State} {j : Nat} {d : Segment} (hs : Resting s)
    (h : takesSlot .stop i s = true) (ht : s.cw.table = some base) (hr : r = slotRequest s base i)
    (hw : s.cw.writer = .recording) (hp : s.cw.programming = false) (hy : s.cw.assembly = []) (hq : s.cw.queue = [])
    (hg : s.ga.grace = none) (hj : openIndex s.sm = some j) (he : s.sm.segments[j]? = some d)
    (ho : ∀ k g, s.sm.segments[k]? = some g → g.state = .opened → k = j) (hn : noneOwed s) (hgo : snapshotGoing s)
    (ha : a = takenBehind (s.advance n.toNat) base i r) :
    live (bodyTake .stop n i) s
      = publishedSlot i r ⟨.ok, r.segment, r.byteOffset, 0⟩ (State.raise (State.raise
          { a with cw.writer := .stopped, cw.cause := .hostStop, sm := closedTable (s.advance n.toNat) j d }
          .segmentClosed) .writerState) := by
  have hk := takesSlot_taking h ht
  subst ha
  generalize hv : State.raise (State.raise
    { takenBehind (s.advance n.toNat) base i r with
      cw.writer := .stopped, cw.cause := .hostStop, sm := closedTable (s.advance n.toNat) j d }
    .segmentClosed) .writerState = v
  generalize hu : closingFor .hostStop (takenBehind (s.advance n.toNat) base i r) = u
  have huv : State.raise (State.raise { u with cw.writer := .stopped, sm := closedTable u j d } .segmentClosed)
      .writerState = v := by
    have hx : ({ u with cw.writer := .stopped, sm := closedTable u j d } : State)
        = State.raise { takenBehind (s.advance n.toNat) base i r with
            cw.writer := .stopped, cw.cause := .hostStop, sm := closedTable (s.advance n.toNat) j d } .writerState := by
      subst hu
      unfold closingFor State.raise
      split <;> rfl
    rw [hx, raise_comm _ .writerState, raise_idem, hv]
  have hcalm : Calm (publishedSlot i r ⟨.ok, r.segment, r.byteOffset, 0⟩ v) := by
    subst hv
    refine publishedSlot_calm ?_ ?_ ?_ ?_ ?_ ?_ ?_ ?_ <;>
      simp only [raise_part, raise_ga, raise_cw, raise_mu, raise_sm]
    · exact hs.powered
    · exact hs.asserted
    · exact ⟨hs.noJob, hs.noReappend, hs.noResume, hs.noStopDue, hk.noReloc⟩
    · exact (congrArg List.length hy).trans_lt (by decide)
    · exact nofun
    · exact hs.noMarks
    · exact hs.noMount
    · exact hs.noFormat
  refine live_stop hs h ht hr hw ?_ hcalm.resting
  rw [hu]
  have hjob : Jobless u.cw := by
    rw [← hu]
    exact closingFor_jobless ⟨hs.noJob, hs.noReappend, hs.noResume, hs.noStopDue, hk.noReloc⟩
  have hcw : u.cw = { (takenBehind (s.advance n.toNat) base i r).cw with writer := .closing, cause := .hostStop } := by
    rw [← hu, closingFor_cw]
  have hsm : u.sm = s.sm := by rw [← hu, closingFor_sm]; rfl
  refine cwRun_stops (j := j) (e := d) hjob ?_ (by rw [hcw]; rfl) (hr ▸ hk.kind) ?_ (by rw [hcw]) (by rw [hcw]; exact hp)
    (by rw [hsm]; exact hk.noChange) (by rw [hcw]; exact hy) ?_ (by rw [hsm]; exact hj) (by rw [hsm]; exact he)
    (by rw [hsm]; exact ho) ?_ (by unfold snapshotGoing; rw [hsm]; exact hgo) ?_
    (congrArg (publishedSlot i r _) huv) hcalm
  · rw [hcw]
    exact (congrArg (· ++ [takenEntry i r]) hq).trans rfl
  · rw [← hu, closingFor_mu]
    exact hs.noMarks
  · rw [← hu, closingFor_ga]
    exact hg
  · rw [← hu]
    unfold noneOwed
    rw [closingFor_pu]
    exact hn
  · rw [← hu]
    unfold State.resetting
    rw [closingFor_part]
    exact decide_eq_false fun c => nomatch hk.staying.symm.trans c

/-! ### CONTROL Attention (R111, R112, R170) -/

/-- CONTROL Attention outside Standby is a service point (R111, R170). -/
theorem bodyRegister_attention {u : Stamp} (hp : s.part.state ≠ .standby) :
    bodyRegister u 0 0x100 .first s = cwService (s.advance u.toNat) := by
  have ha : portAccess u false s = s.advance u.toNat := if_neg fun c => hp c.1
  have h8 : (0x100 : Word).getLsbD 8 = true := rfl
  have h9 : (0x100 : Word).getLsbD 9 = false := rfl
  have hc : controlWrite 0x100 .first (s.advance u.toNat) = cwService (s.advance u.toNat) := by
    have hj : judgeCommand ((0x100 : Word).toNat % 8) .first (s.advance u.toNat) = (false, s.advance u.toNat) := rfl
    unfold controlWrite
    simp only [hj, h8, h9, Bool.false_eq_true, false_and, if_false, if_true]
  unfold bodyRegister
  rw [ha]
  exact hc

theorem live_congr {f g : State → State} (h : f s = g s) : live f s = live g s := by
  unfold live
  rw [h]

/-- With no stale slot a scan takes the slot with the expected sequence, and no other behind a Stop (R112). -/
theorem cwScanTable_stop (h : takesSlot .stop i s = true) (ht : s.cw.table = some base) (hw : s.cw.writer = .recording)
    (hstale : ∀ j, j < s.cw.slotCount → slotState s base j = 1 → 0 ≤ seqDiff (slotSequence s base j) s.cw.expected) :
    cwScanTable base s = (cwTake base i s).2 := by
  have hk := takesSlot_taking h ht
  have hfold : (List.range s.cw.slotCount).foldl (fun s i => cwFailStale base i s) s = s := by
    refine foldl_stays fun j hj => if_neg ?_
    rintro ⟨ho, hd⟩
    unfold slotOffered at ho
    simp only [Bool.and_eq_true, decide_eq_true_eq] at ho
    exact absurd (hstale j (List.mem_range.1 hj) ho.1) (by omega)
  unfold takesSlot at h
  rw [ht] at h
  simp only [Bool.and_eq_true, decide_eq_true_eq] at h
  obtain ⟨⟨-, hfree⟩, hslot, -⟩ := h
  have htakes : (handFree s.cw && writerTakes s.cw.writer) = true := by
    rw [hfree, hw]
    rfl
  have hjudge := cwJudge_stop (s := takenBehind s base i (slotRequest s base i)) hk.kind hw
  have hleft : (cwTake base i s).1 = false := by rw [cwTake_behind, hjudge]
  unfold cwScanTable cwTakeAll
  rw [hfold, if_pos htakes, hslot]
  dsimp only
  rw [hleft]
  exact if_neg Bool.false_ne_true

/-- So Attention takes the Stop as its own row does (R111, R112). -/
theorem cwService_stop {n : Stamp} (h : takesSlot .stop i s = true) (ht : s.cw.table = some base)
    (hw : s.cw.writer = .recording)
    (hstale : ∀ j, j < s.cw.slotCount → slotState s base j = 1 → 0 ≤ seqDiff (slotSequence s base j) s.cw.expected) :
    cwService (s.advance n.toNat) = bodyTake .stop n i s := by
  have hs : servicePoint (s.advance n.toNat) = true := by
    unfold takesSlot at h
    simp only [Bool.and_eq_true] at h
    exact h.1.1
  have hscan : cwScanTable base (s.advance n.toNat) = (cwTake base i (s.advance n.toNat)).2 :=
    cwScanTable_stop (s := s.advance n.toNat) h ht hw hstale
  rw [bodyTake_behind h ht rfl]
  unfold cwService
  rw [if_pos hs, advance_cw, ht]
  exact congrArg cwRun hscan

/-- The Stop taken so is at work with its cause (R116, R123). -/
theorem closingFor_stopping (h : Resting s) (hl : s.cw.reloc = none) : Stopping (closingFor .hostStop s) where
  stops := by rw [closingFor_cw]; exact nofun
  cause := by rw [closingFor_cw]
  jobless := closingFor_jobless (h.jobless hl)
  noMarks := by rw [closingFor_mu]; exact h.noMarks
  noMount := by rw [closingFor_sm]; exact h.noMount
  noFormat := by rw [closingFor_sm]; exact h.noFormat

/-- A Stop taken in Recording ends with its cause, whatever the flash answers (R116, R123). -/
theorem live_stop_cause {n : Stamp} (hs : Resting s) (h : takesSlot .stop i s = true) (ht : s.cw.table = some base)
    (hw : s.cw.writer = .recording) : (live (bodyTake .stop n i) s).cw.cause = .hostStop := by
  have hk := takesSlot_taking h ht
  have hjudge := cwJudge_stop (s := takenBehind (s.advance n.toNat) base i (slotRequest s base i)) hk.kind hw
  unfold live
  rw [if_neg hs.powered, bodyTake_behind h ht rfl, hjudge]
  exact (closingFor_stopping (hs.taken n.toNat) hk.noReloc).run.keepsCause

/-! ### A stale slot (R112) -/

/-- A fold of which one element alone does anything, once. -/
theorem foldl_once {α β : Type} {f : α → β → α} {a : α} {b : β} {l : List β} (hb : b ∈ l) (hn : l.Nodup)
    (hbefore : ∀ c ∈ l, c ≠ b → f a c = a) (hafter : ∀ c ∈ l, c ≠ b → f (f a b) c = f a b) : l.foldl f a = f a b := by
  obtain ⟨x, y, rfl⟩ := List.append_of_mem hb
  have hnot : b ∉ x ∧ b ∉ y := by
    simp only [List.nodup_append, List.nodup_cons] at hn
    exact ⟨fun hx => hn.2.2 b hx b (List.mem_cons_self ..) rfl, hn.2.1.1⟩
  have hx : x.foldl f a = a := foldl_stays fun c hc =>
    hbefore c (by simp [hc]) fun e => hnot.1 (e ▸ hc)
  rw [List.foldl_append, hx, List.foldl_cons]
  exact foldl_stays fun c hc => hafter c (by simp [hc]) fun e => hnot.2 (e ▸ hc)

/-- The state once slot `i` has been failed with BadSequence (R112). -/
def staleFailed (s : State) (base i : Nat) : State :=
  State.raise ((s.store (base + 32 * i + 28) [0, 0, 0, 0]).store (base + 32 * i) [4, 0, 1, 0]) .requestFailed

theorem cwFailStale_stale (ho : slotOffered s base i = true) (hd : seqDiff (slotSequence s base i) s.cw.expected < 0) :
    cwFailStale base i s = staleFailed s base i := if_pos ⟨ho, hd⟩

theorem cwFailStale_unposted (h : slotState s base i ≠ 1) : cwFailStale base i s = s := by
  refine if_neg fun c => h ?_
  have ho := c.1
  unfold slotOffered at ho
  simp only [Bool.and_eq_true, decide_eq_true_eq] at ho
  exact ho.1

/-- The slot failed reads Failed, and every other slot's state is as it was (R112). -/
theorem slotState_staleFailed (hm : memoryWf s.mem = true) (hb : base + 32 * i + 32 ≤ ramBytes) (j : Nat) :
    slotState (staleFailed s base i) base j = if j = i then 4 else slotState s base j := by
  have hmem : (staleFailed s base i).mem
      = writeCells (writeCells s.mem (base + 32 * i + 28) [0, 0, 0, 0]) (base + 32 * i) [4, 0, 1, 0] := raise_mem _ _
  unfold slotState State.readField slotOffset
  rw [hmem]
  split
  · next hj =>
    subst hj
    have hw : readCells (writeCells (writeCells s.mem (base + 32 * j + 28) [0, 0, 0, 0]) (base + 32 * j) [4, 0, 1, 0])
        (base + 32 * j) (2 + 2) = [4, 0] ++ [1, 0] :=
      readCells_writeCells (by exact store_wf s _ [0, 0, 0, 0] hm) (by simp only [List.length_cons, List.length_nil]; omega)
    rw [readCells_append] at hw
    rw [(List.append_inj hw (readCells_length ..)).1]
    rfl
  · next hj =>
    rw [readCells_writeCells_other _ _ (by simp; omega), readCells_writeCells_other _ _ (by simp; omega)]

/-- A scan that finds one Posted slot, a stale one, fails it and takes none (R112). -/
theorem cwScanTable_stale (hq : s.cw.queue = []) (hi : i < s.cw.slotCount) (hm : memoryWf s.mem = true)
    (hb : base + 32 * s.cw.slotCount ≤ ramBytes) (hp : slotState s base i = 1)
    (hd : seqDiff (slotSequence s base i) s.cw.expected < 0)
    (hothers : ∀ j, j < s.cw.slotCount → j ≠ i → slotState s base j ≠ 1) :
    cwScanTable base s = staleFailed s base i := by
  have hoffered : slotOffered s base i = true := by
    unfold slotOffered slotHeld
    rw [hp, hq]
    rfl
  have hstate := slotState_staleFailed (s := s) (base := base) (i := i) hm (by omega)
  have hfold : (List.range s.cw.slotCount).foldl (fun s i => cwFailStale base i s) s = staleFailed s base i := by
    refine (foldl_once (b := i) (List.mem_range.2 hi) List.nodup_range (fun j hj hne => ?_) fun j hj hne => ?_).trans
      (cwFailStale_stale hoffered hd)
    · exact cwFailStale_unposted (hothers j (List.mem_range.1 hj) hne)
    · rw [cwFailStale_stale hoffered hd]
      refine cwFailStale_unposted ?_
      rw [hstate, if_neg hne]
      exact hothers j (List.mem_range.1 hj) hne
  have hcw : (staleFailed s base i).cw = s.cw := raise_cw _ _
  have hnone : expectedSlot (staleFailed s base i) base = none := by
    refine List.find?_eq_none.2 fun j hj ht => ?_
    rw [hcw, List.mem_range] at hj
    simp only [slotOffered, Bool.and_eq_true, decide_eq_true_eq, hstate] at ht
    split at ht
    · exact absurd ht.1.1 (by decide)
    · next hne => exact hothers j hj hne ht.1.1
  unfold cwScanTable cwTakeAll
  rw [hfold, hnone]
  exact ite_self _

theorem staleFailed_calm {n : Nat} (h : Calm s) : Calm (staleFailed (s.advance n) base i) :=
  h.congr (by unfold staleFailed; rw [raise_part]; exact h.powered) (raise_ga _ _) (raise_cw _ _)
    (by unfold staleFailed; rw [raise_mu]; rfl) (raise_sm _ _)

/-- Attention with one Posted slot, a stale one, ends with that slot failed (R111, R112). -/
theorem cwService_stale {n : Nat} (h : Calm s) (hs : servicePoint s = true) (ht : s.cw.table = some base)
    (hi : i < s.cw.slotCount) (hm : memoryWf s.mem = true) (hb : base + 32 * s.cw.slotCount ≤ ramBytes)
    (hp : slotState s base i = 1) (hd : seqDiff (slotSequence s base i) s.cw.expected < 0)
    (hothers : ∀ j, j < s.cw.slotCount → j ≠ i → slotState s base j ≠ 1) :
    cwService (s.advance n) = staleFailed (s.advance n) base i := by
  unfold cwService
  rw [if_pos (by exact hs), advance_cw, ht]
  refine (congrArg cwRun (cwScanTable_stale (s := s.advance n) h.noRequest hi hm hb hp hd hothers)).trans ?_
  exact (staleFailed_calm h).resting.writer

/-! ### The obligation -/

/-- Settles O43: a Stop by what the writer is at, and Attention by what the scan finds. -/
theorem stopAndAttention : Obligations.StopAndAttention := by
  refine ⟨fun n i base r s a hs h ht hr hw ha => ⟨fun hp => ?_, fun j d k hp hy hk h16 hj hd hf => ?_,
      fun j d hp hy hq hg hj hd ho hn hgo => ?_⟩,
    fun n i base s hp => ⟨fun hs h ht hw hstale => ?_, fun hs h ht hi hm hb h1 hd hothers => ?_, fun hs h => ?_⟩⟩
  · subst ha
    exact congrArg _ (live_stop hs h ht hr hw (closingFor_resting (hs.taken n.toNat) hp).writer
      (closingFor_resting (hs.taken n.toNat) hp))
  · subst ha
    exact congrArg _ (live_stop_tail hs h ht hr hw hp hy hk h16 hj hd hf)
  · exact congrArg _ (live_stop_empty hs h ht hr hw hp hy hq hg hj hd ho hn hgo ha)
  · have hsame : exec (.attention n) s = exec (.stopRequest n i) s :=
      congrArg Host.Outcome.next (live_congr ((bodyRegister_attention hp).trans (cwService_stop h ht hw hstale)))
    exact ⟨hsame, _, hsame, live_stop_cause hs.resting h ht hw⟩
  · exact congrArg Host.Outcome.next (live_ends hs.powered ((bodyRegister_attention hp).trans
      (cwService_stale hs h ht hi hm hb h1 hd hothers)) (staleFailed_calm hs).finish)
  · have hservice : cwService (s.advance n.toNat) = s.advance n.toNat :=
      if_neg (show ¬ servicePoint s = true by rw [h]; exact Bool.false_ne_true)
    exact congrArg Host.Outcome.next
      (hs.live_eq ((bodyRegister_attention hp).trans hservice) hs.powered rfl rfl rfl rfl)

end Sys2Proof.Machine
end

section
/-! The publication of a request (R115): what it writes to the slot, byte for byte (Table 11-5), and the order of the queue. -/

namespace Sys2Proof.Machine

variable {s t : State} {e : QueueEntry} {res : RequestResult}

/-! ### The slot (R185, Table 11-5) -/

/-- The word of a slot that a publication writes last: the state Done or Failed, and the result code (R115). -/
def resultWord (c : ResultCode) : List Byte := leBytes 2 (if c = .ok then 3 else 4) ++ leBytes 2 (resultCode c)

/-- The word of a slot that holds the kind and the frame count of the copy taken, and the segment of the result (R185). -/
def kindWord (q : Request) (res : RequestResult) : List Byte :=
  leBytes 1 q.kind ++ leBytes 1 q.frameCount ++ leBytes 2 res.segment

theorem resultWord_length (c : ResultCode) : (resultWord c).length = 4 := by
  simp only [resultWord, List.length_append, leBytes_length]

theorem kindWord_length (q : Request) (res : RequestResult) : (kindWord q res).length = 4 := by
  simp only [kindWord, List.length_append, leBytes_length]

/-- The Buffer RAM once a result has been written to the slot at `a` (R115). -/
def publishedMem (a : Nat) (q : Request) (res : RequestResult) (m : List Host.Cell) : List Host.Cell :=
  writeCells (writeCells (writeCells (writeCells m (a + 8) (kindWord q res)) (a + 24) (leBytes 4 res.byteOffset))
    (a + 28) (leBytes 4 res.detail)) a (resultWord res.code)

/-- A publication writes the Buffer RAM alone (R115). -/
theorem publishSlot_mem (e : QueueEntry) (res : RequestResult) (s : State) :
    publishSlot e res s = { s with mem := (publishSlot e res s).mem } := publishSlot_congr res rfl rfl rfl rfl

theorem publishSlot_slot {base : Nat} (h : s.cw.table = some base) :
    publishSlot e res s = { s with mem := publishedMem (base + 32 * e.slot) e.request res s.mem } := by
  unfold publishSlot publishedMem kindWord resultWord slotOffset
  rw [h]
  dsimp only [State.store]

/-- Bytes written, by their number, are read back. -/
theorem readCells_written {m : List Host.Cell} {a n : Nat} {bytes : List Byte} (hl : bytes.length = n)
    (hm : memoryWf m = true) (ha : a + n ≤ ramBytes) : readCells (writeCells m a bytes) a n = bytes := by
  subst hl
  exact readCells_writeCells hm ha

section
variable {a : Nat} {q : Request} {m : List Host.Cell} (ha : a + 32 ≤ ramBytes) (hm : memoryWf m = true)
include ha hm

theorem publishedMem_result : readCells (publishedMem a q res m) a 4 = resultWord res.code :=
  readCells_written (resultWord_length _) (writeCells_wf _ _ (writeCells_wf _ _ (writeCells_wf _ _ hm))) (by omega)

theorem publishedMem_detail : readCells (publishedMem a q res m) (a + 28) 4 = leBytes 4 res.detail := by
  unfold publishedMem
  rw [readCells_writeCells_other _ _ (.inr (by rw [resultWord_length]; omega))]
  exact readCells_written (leBytes_length _ _) (writeCells_wf _ _ (writeCells_wf _ _ hm)) (by omega)

theorem publishedMem_byteOffset : readCells (publishedMem a q res m) (a + 24) 4 = leBytes 4 res.byteOffset := by
  unfold publishedMem
  rw [readCells_writeCells_other _ _ (.inr (by rw [resultWord_length]; omega)),
    readCells_writeCells_other _ _ (.inl (by omega))]
  exact readCells_written (leBytes_length _ _) (writeCells_wf _ _ hm) (by omega)

theorem publishedMem_kind : readCells (publishedMem a q res m) (a + 8) 4 = kindWord q res := by
  unfold publishedMem
  rw [readCells_writeCells_other _ _ (.inr (by rw [resultWord_length]; omega)),
    readCells_writeCells_other _ _ (.inl (by omega)), readCells_writeCells_other _ _ (.inl (by omega))]
  exact readCells_written (kindWord_length _ _) hm (by omega)

end

/-- Outside the words it writes a publication leaves every byte (R185). -/
theorem publishedMem_other (a : Nat) (q : Request) (res : RequestResult) (m : List Host.Cell) {x : Nat}
    (hx : x < a ∨ (a + 4 ≤ x ∧ x < a + 8) ∨ (a + 12 ≤ x ∧ x < a + 24) ∨ a + 32 ≤ x) :
    readCell (publishedMem a q res m) x = readCell m x := by
  unfold publishedMem
  rw [readCell_writeCells_other _ _ _ (by rw [resultWord_length]; omega),
    readCell_writeCells_other _ _ _ (by rw [leBytes_length]; omega),
    readCell_writeCells_other _ _ _ (by rw [leBytes_length]; omega),
    readCell_writeCells_other _ _ _ (by rw [kindWord_length]; omega)]

/-! ### The queue (R115) -/

/-- A cause raised beside another queue. -/
theorem raise_queue (s : State) (c : Cause) (q : List QueueEntry) :
    State.raise { s with cw.queue := q } c = { s.raise c with cw.queue := q } := by
  unfold State.raise
  dsimp only
  split <;> rfl

/-- A publication does not look at the queue (R115). -/
theorem publishSlot_queue (e : QueueEntry) (res : RequestResult) (s : State) (q : List QueueEntry) :
    publishSlot e res { s with cw.queue := q } = { publishSlot e res s with cw.queue := q } := by
  refine (publishSlot_congr (s := s) (t := { s with cw.queue := q }) (f := e) res rfl rfl rfl rfl).trans ?_
  conv_rhs => rw [publishSlot_mem]

/-- What is published is what the queue given holds, whatever the queue of the state (R115). -/
theorem publishFrom_queue (l q : List QueueEntry) (s : State) :
    publishFrom l { s with cw.queue := q } = publishFrom l s := by
  induction l generalizing s with
  | nil => rfl
  | cons e rest ih =>
    unfold publishFrom
    split
    · rfl
    · rw [publishSlot_queue, raise_queue]
      exact ih _

/-- A ready entry at the front of the queue is published and leaves it, and the next is looked at (R115). -/
theorem cwPublish_ready {rest : List QueueEntry} (hq : s.cw.queue = e :: rest) (he : e.result = some res) :
    cwPublish s
      = cwPublish (State.raise { s with mem := (publishSlot e res s).mem, cw.queue := rest }
          (if res.code = .ok then .requestDone else .requestFailed)) := by
  have hraise := raise_queue (publishSlot e res s) (if res.code = .ok then .requestDone else .requestFailed) rest
  have hslot : ({ s with mem := (publishSlot e res s).mem, cw.queue := rest } : State)
      = { publishSlot e res s with cw.queue := rest } := by
    conv_rhs => rw [publishSlot_mem]
  have hfront : publishFrom (e :: rest) s
      = publishFrom rest ((publishSlot e res s).raise (if res.code = .ok then .requestDone else .requestFailed)) := by
    simp only [publishFrom, he]
  rw [hslot, hraise]
  unfold cwPublish
  rw [hq, hfront]
  exact (publishFrom_queue rest rest _).symm

/-- Settles O44: the slot word by word, and the front of the queue by whether it is ready. -/
theorem slotPublished : Obligations.SlotPublished := by
  refine ⟨fun base e res s a ht ha hfit hm => ?_,
    fun e rest s hq => ⟨cwPublish_waiting hq, fun res he => cwPublish_ready hq he⟩⟩
  subst ha
  have hkind := publishedMem_kind (q := e.request) (res := res) hfit hm
  have hsplit := (readCells_append (publishedMem (base + 32 * e.slot) e.request res s.mem)
    (base + 32 * e.slot + 8) 2 2).symm.trans hkind
  obtain ⟨hfirst, hsecond⟩ := List.append_inj hsplit (by rw [readCells_length]; rfl)
  exact ⟨_, publishSlot_slot ht, publishedMem_result hfit hm, hfirst, hsecond, publishedMem_byteOffset hfit hm,
    publishedMem_detail hfit hm, fun x hx => publishedMem_other _ _ _ _ hx⟩

end Sys2Proof.Machine
end

section
/-! FETCH (R112, R121): the first page is asked of the flash, each page read is copied into the host buffer, and after the last
one the request is published. -/

namespace Sys2Proof.Machine

variable {s t : State} {e : QueueEntry} {w : FlashRequest} {op : FlashOp} {res : RequestResult} {f : Fe} {x : PageResult}
  {r : Request} {g : Segment} {p worst n i base : Nat} {old bad : Option Nat}

/-! ### A Fetch is taken (R112, R121) -/

/-- A writer that waits for a page of a Fetch takes no step (R121). -/
theorem cwRun_fetching (hj : s.cw.job = .fetch p worst old) (hd : s.cw.stopDue = none) (hf : s.cw.assembly.length < 8192)
    (hq : ∀ e, s.cw.queue.head? = some e → e.result = none) : cwRun s = s := by
  refine cwRun_none ?_ (cwPublish_unready hq)
  unfold cwStep
  simp only [stopReady_none hd]
  split
  · rfl
  · have hn : assemblyFull s.cw = false := decide_eq_false (by omega)
    simp [hn, cwJobStep, hj]

/-- A Fetch in Stopped of bytes that a Closed segment holds asks for the page of the first of them (R114, R121). -/
theorem cwJudge_fetch (hk : kindOf r.kind = some .fetch) (hw : s.cw.writer = .stopped) (hc : s.cw.cause ≠ .unformatted)
    (he : s.sm.segments[r.segment]? = some g) (hs : g.state = .closed) (h0 : 0 < r.length) (hl : r.length ≤ 1048576)
    (hb : r.byteOffset + r.length ≤ g.bytesWritten) (hm : r.buffer + r.length ≤ ramBytes) :
    cwJudge r s
      = (false, cwAskFetch g (r.byteOffset / 8192) { s with cw.job := .fetch (r.byteOffset / 8192) 0 none }) := by
  have hg : s.sm.segment r.segment = some g := he
  have hstopped : judgeStopped .fetch r s = judgeFetch r s := if_neg fun c => hc c.1
  unfold cwJudge
  rw [hk, hw]
  dsimp only
  rw [hstopped]
  unfold judgeFetch
  rw [hg]
  dsimp only
  rw [if_neg (by simp [hs]), if_neg (by omega), if_neg (by omega)]

/-- A Fetch taken with the flash asleep starts the rail for its first page (R67, R112, R121). -/
theorem live_fetch {u : Stamp} {a : State} (hs : Calm s) (h : takesSlot .fetch i s = true) (ht : s.cw.table = some base)
    (hr : r = slotRequest s base i) (hw : s.cw.writer = .stopped) (hc : s.cw.cause ≠ .unformatted)
    (he : s.sm.segments[r.segment]? = some g) (hg : g.state = .closed) (h0 : 0 < r.length) (hl : r.length ≤ 1048576)
    (hb : r.byteOffset + r.length ≤ g.bytesWritten) (hm : r.buffer + r.length ≤ ramBytes) (hf : railAsleep s)
    (hp : p = r.byteOffset / 8192) (ha : a = takenSlot (s.advance u.toNat) base i r) :
    live (bodyTake .fetch u i) s
      = { a with
          cw.job := .fetch p 0 none
          fe := awakened s.fe .fetcher (.readPage (g.blocks.getD (p / 256) 0) (p % 256)) (s.advance u.toNat).rck.clock } := by
  subst hp ha
  have hk := takesSlot_taking h ht
  have hgrant : grantAllowed s = true := grantAllowed_of (by rw [hk.running]; decide) (.inl hk.staying)
  have hjudge := cwJudge_fetch (s := takenSlot (s.advance u.toNat) base i r) (hr ▸ hk.kind) hw hc he hg h0 hl hb hm
  have hask := flashAsk_asleep
    (s := { takenSlot (s.advance u.toNat) base i r with cw.job := .fetch (r.byteOffset / 8192) 0 none }) .fetcher
    (.readPage (g.blocks.getD (r.byteOffset / 8192 / 256) 0) (r.byteOffset / 8192 % 256)) hf hgrant
  generalize hv : ({ takenSlot (s.advance u.toNat) base i r with
    cw.job := .fetch (r.byteOffset / 8192) 0 none
    fe := awakened s.fe .fetcher (.readPage (g.blocks.getD (r.byteOffset / 8192 / 256) 0) (r.byteOffset / 8192 % 256))
      (s.advance u.toNat).rck.clock } : State) = v
  have hrun : cwRun v = v := by
    subst hv
    refine cwRun_fetching rfl hs.noStopDue hs.notFull fun e he => ?_
    obtain rfl := Option.some.inj he
    rfl
  refine live_ends hs.powered ?_ (finish_of ?_ (smGoOn_idle ?_ ?_) hrun (smIntake_none ?_))
  · rw [bodyTake_taken h ht hs.noRequest hr, hjudge]
    exact (congrArg cwRun (hask.trans hv)).trans hrun
  · subst hv
    exact hs.asserted
  · subst hv
    exact hs.noMount
  · subst hv
    exact hs.noFormat
  · subst hv
    exact hs.noMarks

/-! ### The end of an operation whose result changes more than the Segment Manager (R75, R76) -/

/-- An operation of the requester `w.requester` is in flight on a known flash device, with none held back, no cutoff sequence
and no transition in progress (R72, R75, R162, R184). -/
structure Ending (s : State) (w : FlashRequest) : Prop where
  inFlight : ∃ d img, s.fe.inFlight = some ⟨some w, false, d, img⟩
  noHeldBack : s.fe.heldBack = []
  notFailed : s.fe.rail ≠ .failed
  known : s.fe.identity = .isMatch
  noGrace : s.ga.grace = none
  steady : s.part.transition = .none
  awake : s.part.state ≠ .standby

theorem Ending.resetting (h : Ending s w) : s.resetting = false := by
  unfold State.resetting
  rw [h.steady]
  rfl

/-- A result that leaves the Flash Engine alone, and with it the end of its operation and the next grant, whichever of the
grant and the result is taken first (R76). -/
theorem Ending.leaves {r : FlashResult} (h : Ending s w) (o : EndOrder)
    (hres : ∀ k, returnResult w r { s with fe := k } = { t with fe := k }) (hp : t.part = s.part) (hc : t.rck = s.rck)
    (hg : t.ga.grace = none)
    (hf : ∀ u : State, u.part = s.part → u.rck = s.rck →
      feGrant { u with fe := endedFe 0 s.fe.restored s.fe } = { u with fe := f }) :
    endOperation o w r feEndDone s = { t with fe := f } := by
  have hdone : feEndDone s = { s with fe := endedFe 0 s.fe.restored s.fe } := feEndDone_ended h.steady
  have hres0 : returnResult w r s = { t with fe := s.fe } := hres s.fe
  unfold endOperation
  split
  · rw [hdone, feUnhold_none _ (by exact h.noHeldBack), grantAndCheck_grants o (by exact h.noGrace), hf s rfl rfl, hres]
  · rw [hres0, feEndDone_ended (by rw [hp]; exact h.steady), feUnhold_none _ (by exact h.noHeldBack),
      answerFailed_not (by nofun), grantAndCheck_grants o (by exact hg), hf t hp hc]

/-- A result at which the requester asks for `op`: it is granted as the operation ends, whichever of the grant and the result
is taken first (R75, R76). -/
theorem Ending.asks {r : FlashResult} (h : Ending s w) (o : EndOrder) (hw : s.fe.waiting = [])
    (hres : ∀ k l, flashAsk w.requester op { t with fe := k } = { t with fe := l } →
      returnResult w r { s with fe := k } = { t with fe := l })
    (hp : t.part = s.part) (hc : t.rck = s.rck) (hg : t.ga.grace = none) :
    endOperation o w r feEndDone s
      = { t with fe := grantedFe ⟨w.requester, op, s.rck.clock⟩ s.rck.clock (endedFe 0 s.fe.restored s.fe) } := by
  have hdone : feEndDone s = { s with fe := endedFe 0 s.fe.restored s.fe } := feEndDone_ended h.steady
  have hallowed : grantAllowed t = true := grantAllowed_of (by rw [hp]; exact h.awake) (.inl (by rw [hp]; exact h.steady))
  have hnow : t.now = s.rck.clock := congrArg Rck.clock hc
  unfold endOperation
  split
  · rw [hdone, feUnhold_none _ (by exact h.noHeldBack), grantAndCheck_grants o (by exact h.noGrace),
      feGrant_unasked (by exact hw)]
    refine hres _ _ ?_
    rw [flashAsk_joins (refusedAtArrival_not (by nofun) (by exact h.known) op)
      (by unfold outstanding endedFe; simp [hw]), ← hnow]
    exact feJoin_only rfl rfl (by exact hallowed) hw
  · have hheld : returnResult w r s = { t with fe := { s.fe with heldBack := [⟨w.requester, op, s.rck.clock⟩] } } := by
      refine hres s.fe _ ?_
      obtain ⟨d, img, hi⟩ := h.inFlight
      rw [flashAsk_held (refusedAtArrival_not (by exact h.notFailed) (by exact h.known) op)
        (by unfold outstanding; simp [hi]), ← hnow]
      dsimp only
      rw [h.noHeldBack]
      rfl
    have hunheld : feUnhold w.requester (feEndDone (returnResult w r s))
        = { t with fe := { endedFe 0 s.fe.restored s.fe with waiting := [⟨w.requester, op, s.rck.clock⟩] } } := by
      rw [hheld, feEndDone_ended (by rw [hp]; exact h.steady)]
      unfold feUnhold endedFe
      simp [hw, h.noHeldBack]
    rw [hunheld, answerFailed_not (by nofun), grantAndCheck_grants o (by exact hg), ← hnow]
    refine (feGrant_only rfl rfl (by exact hallowed) rfl).trans ?_
    exact congrArg (fun l => ({ t with fe := grantedFe ⟨w.requester, op, t.now⟩ t.now l } : State)) (by rw [← hw]; rfl)

end Sys2Proof.Machine
end

section
/-! READ_PAGE_DONE of a page of a Fetch (R121): the copy, the first bad stream offset, the next page, and the publication. -/

namespace Sys2Proof.Machine

variable {s t : State} {e : QueueEntry} {op : FlashOp} {res : RequestResult} {x : PageResult} {r : Request} {g : Segment}
  {p worst n i : Nat} {old bad : Option Nat} {m : Sm}

/-! ### The first bad stream offset (R121) -/

/-- The first codeword of the list gives the offset where it holds a byte of the range (R121). -/
theorem firstBad_cons (r : Request) (p c : Nat) (l : List Nat) :
    firstBad r p (c :: l)
      = if max r.byteOffset (8192 * p + 1024 * c) < min (r.byteOffset + r.length) (8192 * p + 1024 * (c + 1)) then
          some (max r.byteOffset (8192 * p + 1024 * c))
        else firstBad r p l := by
  unfold firstBad
  rw [List.filterMap_cons]
  by_cases h : max r.byteOffset (8192 * p + 1024 * c) < min (r.byteOffset + r.length) (8192 * p + 1024 * (c + 1))
  · simp only [h, if_true]
    rfl
  · simp only [h, if_false]

/-- The first of the uncorrectable codewords, in ascending order, that holds a byte of the range gives the lowest bad offset
(R121). -/
theorem firstBad_lowest {l : List Nat} (hl : l.Pairwise (· < ·)) : LowestBad r p l (firstBad r p l) := by
  induction l with
  | nil =>
    rintro n ⟨-, -, c, hc, -⟩
    cases hc
  | cons c l ih =>
    obtain ⟨hfirst, hrest⟩ := List.pairwise_cons.1 hl
    by_cases hin : max r.byteOffset (8192 * p + 1024 * c) < min (r.byteOffset + r.length) (8192 * p + 1024 * (c + 1))
    · rw [firstBad_cons, if_pos hin]
      refine ⟨⟨by omega, by omega, c, List.mem_cons_self .., by omega, by omega⟩, ?_⟩
      rintro n ⟨hlo, -, d, hd, hdn, -⟩
      rcases List.mem_cons.1 hd with rfl | hd
      · omega
      · have := hfirst d hd
        omega
    · have hsame : ∀ n, badByte r p (c :: l) n ↔ badByte r p l n := by
        refine fun n => and_congr_right fun hlo => and_congr_right fun hhi => ?_
        refine ⟨?_, fun ⟨d, hd, hn⟩ => ⟨d, List.mem_cons_of_mem _ hd, hn⟩⟩
        rintro ⟨d, hd, hdn, hnd⟩
        rcases List.mem_cons.1 hd with rfl | hd
        · omega
        · exact ⟨d, hd, hdn, hnd⟩
      have hih := ih hrest
      rw [firstBad_cons, if_neg hin]
      unfold LowestBad at hih ⊢
      simp only [hsame]
      exact hih

/-- There is one lowest bad offset, or none (R121). -/
theorem lowestBad_unique {l : List Nat} {a b : Option Nat} (ha : LowestBad r p l a) (hb : LowestBad r p l b) : a = b := by
  cases a with
  | none =>
    cases b with
    | none => rfl
    | some k => exact absurd hb.1 (ha k)
  | some j =>
    cases b with
    | none => exact absurd ha.1 (hb j)
    | some k => exact congrArg some (Nat.le_antisymm (ha.2 k hb.1) (hb.2 j ha.1))

/-- The uncorrectable codewords of a page are listed in ascending order (R65). -/
theorem pageResult_bad_pairwise (page : PageRead) : (pageResult page).bad.Pairwise (· < ·) := by
  unfold pageResult
  split
  · exact List.Pairwise.nil
  · exact indicesWhere_pairwise _ _

/-- The first bad stream offset so far, once a page with these uncorrectable codewords has been read (R121). -/
def badSoFar (r : Request) (p : Nat) (l : List Nat) : Option Nat → Option Nat
  | some o => some o
  | none => firstBad r p l

theorem badSoFar_eq {l : List Nat} (hl : l.Pairwise (· < ·)) (hold : ∀ n, old = some n → bad = some n)
    (hnew : old = none → LowestBad r p l bad) : badSoFar r p l old = bad := by
  cases old with
  | some o => exact (hold o rfl).symm
  | none => exact lowestBad_unique (firstBad_lowest hl) (hnew rfl)

/-! ### A page is read (R121) -/

/-- The result of a Fetch that has read its last page (R121). -/
def fetchAnswer (worst : Nat) (bad : Option Nat) (q : Request) : RequestResult :=
  match bad with
  | none => ⟨.ok, q.segment, q.byteOffset, worst⟩
  | some o => ⟨.uncorrectable, q.segment, q.byteOffset, o⟩

/-- A page before the last: the next is asked for (R121). -/
theorem cwFetchPage_next (hl : 8192 * (p + 1) < r.byteOffset + r.length) (hg : s.sm.segments[r.segment]? = some g) :
    cwFetchPage r p worst old x s
      = cwAskFetch g (p + 1)
          { cwCopyFetch r p x.data s with cw.job := .fetch (p + 1) (max worst x.worst) (badSoFar r p x.bad old) } := by
  have hs : (cwCopyFetch r p x.data s).sm.segment r.segment = some g := hg
  unfold cwFetchPage
  dsimp only
  rw [if_pos hl, hs]
  cases old <;> rfl

/-- The last page: the request in hand gets its result, and a worst count of 6 or more sets the Weak flag (R121). -/
theorem cwFetchPage_last (hl : r.byteOffset + r.length ≤ 8192 * (p + 1))
    (hw : (if 6 ≤ max worst x.worst then smSetWeak r.segment (cwCopyFetch r p x.data s) else cwCopyFetch r p x.data s)
      = { cwCopyFetch r p x.data s with sm := m }) :
    cwFetchPage r p worst old x s
      = cwFinish (fun e => fetchAnswer (max worst x.worst) (badSoFar r p x.bad old) e.request)
          { cwCopyFetch r p x.data s with sm := m, cw.job := .idle } := by
  unfold cwFetchPage cwFetchDone
  dsimp only
  rw [if_neg (by omega), hw]
  cases old <;> rfl

/-- A Weak flag that is clear is set, and the snapshot that is due then waits for the one being written (R86, R103). -/
theorem smSetWeak_sets {k : Nat} (he : s.sm.segments[k]? = some g) (hw : g.weak = false) (hg : snapshotGoing s) :
    smSetWeak k s
      = { s with sm.segments := s.sm.segments.set k { g with weak := true }, sm.snapshotDue := true } := by
  have hs : s.sm.segment k = some g := he
  unfold smSetWeak
  rw [hs]
  dsimp only
  rw [hw, if_neg Bool.false_ne_true, smFlush_going (by exact hg)]
  unfold smDue smModify
  rw [modifyAt_set he]

/-! ### The request in hand (R113, R115) -/

/-- A writer with nothing else to do publishes the one request, in hand, as it gets its result (R113, R115). -/
theorem cwRun_answers (f : QueueEntry → RequestResult) (hq : s.cw.queue = [e]) (he : e.result = none)
    (hi : s.cw.inHand = some e.request.sequence) (hj : Jobless s.cw) (hf : s.cw.assembly.length < 8192)
    (hc : s.cw.writer ≠ .closing) (hr : s.resetting = false) :
    cwRun (cwFinish f s) = publishedSlot e.slot e.request (f e) s := by
  have hfinish : cwFinish f s = { s with cw.queue := [{ e with result := some (f e) }], cw.inHand := none } := by
    rw [cwFinish_hand f hi]
    unfold cwReady
    rw [hq]
    simp [entryIs, he]
  have hstep : cwStep (cwFinish f s) = none := by
    rw [hfinish]
    exact cwStep_idle hj.noJob hj.noReappend hj.noResume hj.noStopDue hf hc
  rw [cwRun_publishes hstep (by rw [hfinish]; exact hr), hfinish,
    cwPublish_alone (e := { e with result := some (f e) }) rfl rfl rfl]
  exact publishedSlot_congr rfl

/-- A service point at which no slot is Posted takes nothing (R111, R112). -/
theorem cwService_unoffered (hn : noneOffered s) (hr : cwRun s = s) : cwService s = s := by
  unfold cwService
  split
  · split
    · rfl
    · next table ht => rw [cwScanTable_none hn ht, hr]
  · rfl

/-- A publication leaves the Flash Engine (R115). -/
theorem publishedSlot_fe (i : Nat) (r : Request) (res : RequestResult) (s : State) (f : Fe) :
    publishedSlot i r res { s with fe := f } = { publishedSlot i r res s with fe := f } := by
  have hp := publishSlot_congr (e := takenEntry i r) (f := takenEntry i r) (s := s) (t := { s with fe := f }) res rfl rfl
    rfl rfl
  unfold publishedSlot State.raise
  rw [hp]
  dsimp only
  split <;> rfl

/-! ### A Fetch goes on, or ends (R111, R121) -/

theorem Fetching.notFull (h : Fetching s e) : s.cw.assembly.length < 8192 := by
  rw [h.noAssembly]
  exact Nat.zero_lt_succ _

theorem Fetching.notClosing (h : Fetching s e) : s.cw.writer ≠ .closing := by
  rw [h.writer]
  decide

theorem Fetching.handRequest (h : Fetching s e) : handRequest s = some e.request := by
  unfold Machine.handRequest
  rw [h.inHand, Option.bind_some, queueEntry_alone h.queue rfl]
  rfl

/-- A page read is one of the Fetch in hand (R121). -/
theorem Fetching.page (h : Fetching s e) (hj : s.cw.job = .fetch p worst old) :
    cwFetchResult op (.page x) s = cwFetchPage e.request p worst old x s := by
  unfold cwFetchResult
  rw [hj, h.handRequest]

/-- The fetcher's result goes to the Clip Writer (R76). -/
theorem returnResult_fetcher (hr : s.resetting = false) (k : FlashResult) :
    returnResult ⟨.fetcher, op, n⟩ k s = cwResult k (cwFetchResult op k) s :=
  if_neg (by rw [hr]; exact Bool.false_ne_true)

/-- What `Fetching` says speaks neither of the Flash Engine and the Buffer RAM nor of how far the Fetch is. -/
theorem Fetching.moves (h : Fetching s e) (f : Fe) (k : List Host.Cell) (p worst : Nat) (bad : Option Nat) :
    Fetching { s with fe := f, mem := k, cw.job := .fetch p worst bad } e :=
  ⟨h.powered, h.asserted, h.noMarks, h.noMount, h.noFormat, h.noChange, h.writer, ⟨p, worst, bad, rfl⟩, h.queue, h.unready,
    h.inHand, h.noStopDue, h.noAssembly, h.noReloc, h.notProgramming, h.noReappend, h.noResume⟩

/-- The state of a Fetch that waits for page `p`, the pages before it read (R121). -/
def fetchOn (k : List Host.Cell) (p worst : Nat) (bad : Option Nat) (s : State) : State :=
  { s with mem := k, cw.job := .fetch p worst bad }

/-- A page before the last leads to a request for the next, and ends no step of the writer (R111, R121). -/
theorem Fetching.asksNext (h : Fetching s e) (hr : s.resetting = false) (hj : s.cw.job = .fetch p worst old)
    (hl : 8192 * (p + 1) < e.request.byteOffset + e.request.length) (hg : s.sm.segments[e.request.segment]? = some g)
    (ht : t = fetchOn (cwCopyFetch e.request p x.data s).mem (p + 1) (max worst x.worst)
      (badSoFar e.request p x.bad old) s) (k l : Fe)
    (hask : flashAsk .fetcher (.readPage (g.blocks.getD ((p + 1) / 256) 0) ((p + 1) % 256)) { t with fe := k }
      = { t with fe := l }) :
    returnResult ⟨.fetcher, op, n⟩ (.page x) { s with fe := k } = { t with fe := l } := by
  have hact : cwFetchResult op (.page x) { s with fe := k } = { t with fe := l } := by
    rw [(h.flash k).page hj, cwFetchPage_next hl (by exact hg), ← hask, ht]
    rfl
  have hrun : cwRun ({ t with fe := l } : State) = { t with fe := l } := by
    rw [ht]
    exact (h.moves l _ _ _ _).run
  have hstep : writerStepEnded s.cw t.cw = false := by
    rw [ht]
    exact writerStepEnded_same s.cw
  rw [returnResult_fetcher (by exact hr)]
  unfold cwResult
  rw [hact, hrun]
  dsimp only
  rw [hstep]
  exact if_neg Bool.false_ne_true

/-- The state once a Fetch has been published: its last page is in the Buffer RAM, and the segment table is `m` (R115,
R121). -/
def fetchPublished (e : QueueEntry) (res : RequestResult) (k : List Host.Cell) (m : Sm) (s : State) : State :=
  publishedSlot e.slot e.request res { s with mem := k, sm := m, cw.job := .idle }

theorem fetchPublished_part (e : QueueEntry) (res : RequestResult) (k : List Host.Cell) (m : Sm) (s : State) :
    (fetchPublished e res k m s).part = s.part := raise_part _ _

theorem fetchPublished_rck (e : QueueEntry) (res : RequestResult) (k : List Host.Cell) (m : Sm) (s : State) :
    (fetchPublished e res k m s).rck = s.rck := raise_rck _ _

theorem fetchPublished_ga (e : QueueEntry) (res : RequestResult) (k : List Host.Cell) (m : Sm) (s : State) :
    (fetchPublished e res k m s).ga = s.ga := raise_ga _ _

theorem fetchPublished_cw (e : QueueEntry) (res : RequestResult) (k : List Host.Cell) (m : Sm) (s : State) :
    (fetchPublished e res k m s).cw = { s.cw with job := .idle, queue := [], inHand := none } := raise_cw _ _

theorem fetchPublished_fe (e : QueueEntry) (res : RequestResult) (k : List Host.Cell) (m : Sm) (s : State) (f : Fe) :
    fetchPublished e res k m { s with fe := f } = { fetchPublished e res k m s with fe := f } :=
  publishedSlot_fe e.slot e.request res { s with mem := k, sm := m, cw.job := .idle } f

/-- Nothing goes on once a Fetch has been published. -/
theorem Fetching.published_calm (h : Fetching s e) (k : List Host.Cell) (hm : m.mount = none) (hf : m.format = none) :
    Calm (fetchPublished e res k m s) :=
  publishedSlot_calm h.powered h.asserted ⟨rfl, h.noReappend, h.noResume, h.noStopDue, h.noReloc⟩ h.notFull
    h.notClosing h.noMarks hm hf

/-- The last page leads to the publication of the request, and the service point at the end of that step takes nothing
(R111, R121). -/
theorem Fetching.publishes (h : Fetching s e) (hr : s.resetting = false) (hj : s.cw.job = .fetch p worst old)
    (hl : e.request.byteOffset + e.request.length ≤ 8192 * (p + 1)) (hm : m.mount = none) (hf : m.format = none)
    (hw : ∀ k, (if 6 ≤ max worst x.worst
        then smSetWeak e.request.segment (cwCopyFetch e.request p x.data { s with fe := k })
        else cwCopyFetch e.request p x.data { s with fe := k })
      = { cwCopyFetch e.request p x.data { s with fe := k } with sm := m })
    (ht : t = fetchPublished e (fetchAnswer (max worst x.worst) (badSoFar e.request p x.bad old) e.request)
      (cwCopyFetch e.request p x.data s).mem m s) (hn : noneOffered t) (k : Fe) :
    returnResult ⟨.fetcher, op, n⟩ (.page x) { s with fe := k } = { t with fe := k } := by
  have ht' : ({ t with fe := k } : State)
      = fetchPublished e (fetchAnswer (max worst x.worst) (badSoFar e.request p x.bad old) e.request)
          (cwCopyFetch e.request p x.data s).mem m { s with fe := k } := by
    rw [ht]
    exact (fetchPublished_fe _ _ _ _ s k).symm
  have hcalm : Calm ({ t with fe := k } : State) := by
    rw [ht']
    exact (h.flash k).published_calm _ hm hf
  have hact : cwRun (cwFetchResult op (.page x) { s with fe := k }) = { t with fe := k } := by
    rw [(h.flash k).page hj, cwFetchPage_last hl (hw k), ht']
    exact cwRun_answers _ h.queue h.unready h.inHand ⟨rfl, h.noReappend, h.noResume, h.noStopDue, h.noReloc⟩ h.notFull
      h.notClosing hr
  have hend : writerStepEnded s.cw t.cw = true := by
    rw [ht, fetchPublished_cw]
    unfold writerStepEnded
    rw [h.inHand]
    rfl
  rw [returnResult_fetcher (by exact hr)]
  unfold cwResult
  rw [hact]
  dsimp only
  rw [hend]
  exact (if_pos (by exact rfl)).trans (cwService_unoffered hn hcalm.resting.writer)

end Sys2Proof.Machine
end

section
/-! FETCH and READ_PAGE_DONE (R112, R121): the obligation, by the page read and by what waits for the flash. -/

namespace Sys2Proof.Machine

variable {s t : State} {e : QueueEntry} {op : FlashOp} {g : Segment} {p worst d n : Nat} {old bad : Option Nat} {m : Sm}
  {img : List Byte} {u : Stamp} {page : PageRead} {f : Fe}

/-- A page before the last: the next is asked for as the read ends (R75, R76, R121). -/
theorem Fetching.live_next (h : Fetching (s.advance u.toNat) e) (hs : Ending (s.advance u.toNat) ⟨.fetcher, op, n⟩)
    (hf : s.fe.inFlight = some ⟨some ⟨.fetcher, op, n⟩, false, d, img⟩) (hop : isReadPage op = true) (o : EndOrder)
    (hw : s.fe.waiting = []) (hr : s.fe.restored = true) (hj : s.cw.job = .fetch p worst old)
    (hl : 8192 * (p + 1) < e.request.byteOffset + e.request.length) (hg : s.sm.segments[e.request.segment]? = some g)
    (hb : badSoFar e.request p (pageResult page).bad old = bad) :
    live (bodyReadPageDone u page o) s
      = { fetchOn (cwCopyFetch e.request p (pageResult page).data (s.advance u.toNat)).mem (p + 1)
            (max worst (pageResult page).worst) bad (s.advance u.toNat) with
          fe := { endedFe 0 s.fe.restored s.fe with
            rail := .busy
            inFlight := some ⟨some ⟨.fetcher, .readPage (g.blocks.getD ((p + 1) / 256) 0) ((p + 1) % 256),
              (s.advance u.toNat).rck.clock⟩, false, (s.advance u.toNat).rck.clock + 1000, []⟩ } } := by
  subst hb
  have hbody : bodyReadPageDone u page o s
      = endOperation o ⟨.fetcher, op, n⟩ (.page (pageResult page)) feEndDone (s.advance u.toNat) :=
    completion_ends hf hop
  have hnext := hs.asks o hw (h.asksNext (x := pageResult page) hs.resetting hj hl hg rfl) rfl rfl hs.noGrace
  rw [grantedFe_restored (by exact hr)] at hnext
  exact live_ends h.powered (hbody.trans hnext) (h.moves _ _ _ _ _).finish

/-- The last page: the request is published, and what waits for the flash is granted as the read ends (R76, R115, R121). -/
theorem Fetching.live_last (h : Fetching (s.advance u.toNat) e) (hs : Ending (s.advance u.toNat) ⟨.fetcher, op, n⟩)
    (hf : s.fe.inFlight = some ⟨some ⟨.fetcher, op, n⟩, false, d, img⟩) (hop : isReadPage op = true) (o : EndOrder)
    (hj : s.cw.job = .fetch p worst old) (hl : e.request.byteOffset + e.request.length ≤ 8192 * (p + 1))
    (hb : badSoFar e.request p (pageResult page).bad old = bad) (hm : m.mount = none) (hn : m.format = none)
    (hw : ∀ v : State, v.sm = s.sm →
      (if 6 ≤ max worst (pageResult page).worst then smSetWeak e.request.segment v else v) = { v with sm := m })
    (hgrant : ∀ v : State, v.part = s.part → v.rck = (s.advance u.toNat).rck →
      feGrant { v with fe := endedFe 0 s.fe.restored s.fe } = { v with fe := f })
    (ht : t = fetchPublished e (fetchAnswer (max worst (pageResult page).worst) bad e.request)
      (cwCopyFetch e.request p (pageResult page).data (s.advance u.toNat)).mem m { s.advance u.toNat with fe := f })
    (ho : noneOffered t) : live (bodyReadPageDone u page o) s = t := by
  subst hb
  have hbody : bodyReadPageDone u page o s
      = endOperation o ⟨.fetcher, op, n⟩ (.page (pageResult page)) feEndDone (s.advance u.toNat) :=
    completion_ends hf hop
  have hcalm : Calm t := ht ▸ (h.flash f).published_calm _ hm hn
  rw [fetchPublished_fe] at ht
  have hend := hs.leaves (f := f) o
    (h.publishes (x := pageResult page) hs.resetting hj hl hm hn (fun k => hw _ rfl) rfl (by rw [ht] at ho; exact ho))
    (fetchPublished_part ..) (fetchPublished_rck ..) (by rw [fetchPublished_ga]; exact hs.noGrace) hgrant
  exact live_ends h.powered ((hbody.trans hend).trans ht.symm) hcalm.finish

/-- A program has 5,000 microseconds from its issue (Table 4-4). -/
theorem opDeadline_program (h : isProgramPage op = true) : opDeadline op = 5000 := by
  cases op with
  | programPage => rfl
  | readId | readPage | readMarker | eraseBlock => cases h

/-- Settles O41: the taking of the Fetch, a page before the last, and the last one by its worst count. -/
theorem fetchReads : Obligations.FetchReads := by
  refine ⟨fun u i base p r g s a hs h ht hr hw hc he hg h0 hl hb hm hf hp ha =>
    congrArg _ (live_fetch hs h ht hr hw hc he hg h0 hl hb hm hf hp ha), ?_⟩
  intro u o page p worst d arrival lo hi old bad op img e r x s v hpow hsys hmarks hmount hformat hwriter hjob hqueue hres
    hhand hstop hasm hreloc hprog hreappend hresume hchange hgrace htrans hawake hheld hrest hrail hid hop hflight hr hx _ _
    hlo hhi hold hnew hv
  subst hr hx hlo hhi hv
  have hfetch : Fetching (s.advance u.toNat) e :=
    ⟨hpow, hsys, hmarks, hmount, hformat, hchange, hwriter, ⟨p, worst, old, hjob⟩, hqueue, hres, hhand, hstop, hasm, hreloc,
      hprog, hreappend, hresume⟩
  have hend : Ending (s.advance u.toNat) ⟨.fetcher, op, arrival⟩ :=
    ⟨⟨d, img, hflight⟩, hheld, hrail, hid, hgrace, htrans, hawake⟩
  have hbad : badSoFar e.request p (pageResult page).bad old = bad :=
    badSoFar_eq (pageResult_bad_pairwise page) hold hnew
  refine ⟨fun g hw hl hg => congrArg _ (hfetch.live_next hend hflight hop o hw hrest hjob hl hg hbad), ?_⟩
  intro res g v y hl hres'
  have hanswer : res = fetchAnswer (max worst (pageResult page).worst) bad e.request := by
    rw [hres']
    cases bad <;> rfl
  subst hanswer
  refine ⟨fun hw h6 hy ho => congrArg Host.Outcome.next ?_,
    fun hw hreq hprogram hgo h6 hg hweak hy ho => congrArg Host.Outcome.next ?_⟩
  · refine hfetch.live_last (m := s.sm) (f := endedFe 0 s.fe.restored s.fe) hend hflight hop o hjob hl hbad hmount hformat
      (fun v hv => ?_) (fun v _ _ => feGrant_unasked (by exact hw)) hy ho
    rw [if_neg (by omega), ← hv]
  · refine hfetch.live_last (m := { s.sm with
        segments := s.sm.segments.set e.request.segment { g with weak := true }, snapshotDue := true })
      (f := grantedFe v (s.advance u.toNat).rck.clock { endedFe 0 s.fe.restored s.fe with waiting := [] })
      hend hflight hop o hjob hl hbad hmount hformat (fun v hv => ?_) (fun v hp hc => ?_) ?_ ho
    · rw [if_pos h6, smSetWeak_sets (g := g) (by rw [hv]; exact hg) hweak (by unfold snapshotGoing; rw [hv]; exact hgo), hv]
    · have hallowed : grantAllowed v = true :=
        grantAllowed_of (by rw [hp]; exact hawake) (.inl (by rw [hp]; exact htrans))
      rw [feGrant_only rfl rfl (by exact hallowed) (by exact hw)]
      exact congrArg (fun r : Rck => ({ v with fe := grantedFe _ r.clock _ } : State)) hc
    · rw [hy, grantedFe_restored (by exact hrest)]
      rw [opDeadline_program hprogram]
      rfl

end Sys2Proof.Machine
end

section
/-! CUTOFF and GRACE_TIMER_EXPIRY (R159, R161, R162): what the Gauge's arrival makes of a cutoff that is due, of one that is
over, and what the tick's other deliveries leave of it. -/

namespace Sys2Proof.Machine

variable {r s t u : State} {m : Measurement} {o : List TickDelivery} {n : Nat} {g : Ga} {c : Cw}

/-! ### In the level Cutoff -/

/-- The Gauge in a cutoff sequence with ticks left (R159, R161). -/
structure CutoffAt (n : Nat) (g : Ga) : Prop where
  level : g.level = .cutoff
  grace : g.grace = some n

/-- The level Cutoff stays (R159). -/
theorem gaFindLevel_cutoff (h : s.ga.level = .cutoff) : gaFindLevel s = s := by
  unfold gaFindLevel gaLevel
  rw [if_pos h, h]
  exact if_pos rfl

/-- Of the Gauge the recording blocks change SYSEN alone (R162). -/
theorem CutoffAt.carried (h : CutoffAt n s.ga) (k : Carried s t) : CutoffAt n t.ga :=
  ⟨(congrArg Ga.level k.ga).trans h.level, (congrArg Ga.grace k.ga).trans h.grace⟩

/-- The charger's hand-offs leave the sequence (R157, R158). -/
theorem ccArrival_cutoffAt (h : CutoffAt n s.ga) : CutoffAt n (ccArrival m s).ga := by
  have hk : Carries fun u => CutoffAt n u.ga := ⟨fun _ k => k, fun c k => by rw [raise_ga]; exact k⟩
  refine hk.arrival h (fun _ u b k => ?_) fun _ _ u k => ?_
  · unfold gaQualification
    rw [gaFindLevel_cutoff (by exact k.level)]
    exact ⟨k.level, k.grace⟩
  · unfold gaFull
    rw [gaFindLevel_cutoff (by exact k.level)]
    exact ⟨k.level, k.grace⟩

/-- Only the Gauge's own delivery counts the sequence on (R153). -/
theorem tickDelivery_cutoffAt {d : TickDelivery} (hd : d ≠ .gauge) (h : CutoffAt n s.ga) :
    CutoffAt n (tickDelivery m d s).ga := by
  cases d <;> unfold tickDelivery <;> dsimp only
  case releaseScan =>
    split
    · exact h.carried (puReleaseScan_recording (Recording.refl s)).toCarried
    · exact h
  case charger => exact ccArrival_cutoffAt h
  case gauge => exact absurd rfl hd
  case scan => exact h.carried (cwService_recording (Recording.refl s)).toCarried
  case commit => exact h.carried (cwCommit_recording (Recording.refl s)).toCarried
  case flash => exact h.carried (feTick_recording (Recording.refl s)).toCarried
  case status =>
    obtain ⟨k, g, e⟩ := hpTick_form s
    rw [e]
    exact h

/-- The part is about to be Off: SYSEN is released (R162). -/
def SwitchedOff (n : Nat) (s : State) : Prop := CutoffAt n s.ga ∧ s.ga.sysen = false

theorem tickDelivery_switchedOff {d : TickDelivery} (hd : d ≠ .gauge) (h : SwitchedOff n s) :
    SwitchedOff n (tickDelivery m d s) :=
  ⟨tickDelivery_cutoffAt hd h.1, (tickDelivery_ticked (Ticked.refl s) m d).held h.2⟩

/-- The last tick of the sequence releases SYSEN whatever still goes on (R153, R162). -/
theorem gaArrival_expires (h : CutoffAt 1 s.ga) : SwitchedOff 0 (gaArrival m s) := by
  have hi : CutoffAt 1 (gaInstall s).ga := by
    unfold gaInstall
    split
    · exact h
    · rw [gaFindLevel_cutoff (by exact h.level)]
      exact ⟨h.level, h.grace⟩
  have hc : CutoffAt 1 (gaCount m (gaInstall s)).ga := by
    rw [gaCount_ga]
    obtain ⟨q, b, e⟩ := gaCounted_form m (gaInstall s).ga
    rw [e]
    exact ⟨hi.level, hi.grace⟩
  have ha : CutoffAt 1 (gaAdvance m (gaCount m (gaInstall s))).ga := ⟨hc.level, hc.grace⟩
  unfold gaArrival gaGraceTick
  dsimp only
  rw [h.grace, gaFindLevel_cutoff ha.level, ha.grace]
  exact ⟨⟨ha.level, rfl⟩, rfl⟩

/-- A tick that releases SYSEN ends in Off, with the commands that wait (R162, log 4). -/
theorem chargeTick_off (hp : s.part.state ≠ .off) (h : SwitchedOff n (bodyChargeTick m o s)) :
    finish (bodyChargeTick m o s) = enterOff s := by
  have ht := bodyChargeTick_ticked m o s
  rw [finish_released (by rw [ht.part]; exact hp) h.2]
  unfold enterOff
  rw [ht.pending]
  rfl

/-- A charge tick, and an event that names what it brings about (log 5). -/
theorem chargeTick_named {came : State → State → Bool} (hp : s.part.state ≠ .off)
    (hc : came s (bodyChargeTick m o s) = true) (hf : finish (bodyChargeTick m o s) = t) :
    Host.Outcome.next (derived (bodyChargeTick m o) came s) = (.next t : Answer)
      ∧ exec (.chargeTick m o) s = .next t := by
  subst hf
  exact ⟨congrArg Host.Outcome.next (derived_came hp hc), exec_chargeTick m o hp⟩

/-- The grace timer's last tick (R162). -/
theorem graceTimer_expires (hp : s.part.state ≠ .off) (h : CutoffAt 1 s.ga) :
    exec (.graceTimerExpiry m o) s = .next (enterOff s) ∧ exec (.chargeTick m o) s = .next (enterOff s) := by
  have hb : SwitchedOff 0 (bodyChargeTick m o s) :=
    bodyChargeTick_keeps (P := fun u => CutoffAt 1 u.ga) (Q := SwitchedOff 0) h
      (fun d _ hd u => ⟨tickDelivery_cutoffAt hd, tickDelivery_switchedOff hd⟩)
      (fun u _ => ⟨ccArrival_cutoffAt, tickDelivery_switchedOff (d := .charger) (by decide)⟩)
      fun u k => gaArrival_expires k
  refine chargeTick_named hp ?_ (chargeTick_off hp hb)
  unfold cameGrace
  rw [decide_eq_true h.grace, decide_eq_true hb.1.grace]
  rfl

/-! ### A tick at which no delivery but the Gauge's stirs the writer -/

/-- What such deliveries leave of the state they find: the part, the Gauge, the writer at rest with no tail to commit, the
operation in flight, and the causes set (R112, R127, R134). -/
structure Unstirred (r s : State) : Prop where
  resting : Resting s
  noScan : scanIdle s
  noTail : r.cw.assembly = [] ∨ r.cw.programming = true
  part : s.part = r.part
  ga : s.ga = r.ga
  cw : s.cw = r.cw
  inFlight : s.fe.inFlight = r.fe.inFlight
  causes : ∀ x, r.caused x = true → s.caused x = true

theorem Unstirred.refl (h : Resting s) (hs : scanIdle s) (hn : s.cw.assembly = [] ∨ s.cw.programming = true) :
    Unstirred s s :=
  ⟨h, hs, hn, rfl, rfl, rfl, rfl, fun _ k => k⟩

/-- A change that is neither the writer's nor the Gauge's, nor one of what is in flight. -/
theorem Unstirred.congr (h : Unstirred r s) (hp : t.part = s.part) (hg : t.ga = s.ga) (hc : t.cw = s.cw)
    (hf : t.fe.inFlight = s.fe.inFlight) (hm : t.mu = s.mu) (hs : t.sm = s.sm)
    (hx : ∀ x, s.caused x = true → t.caused x = true) (hscan : scanIdle t) : Unstirred r t where
  resting := h.resting.congr (by rw [hp]; exact h.resting.powered) hg hc (by rw [hm]) hs
  noScan := hscan
  noTail := h.noTail
  part := hp.trans h.part
  ga := hg.trans h.ga
  cw := hc.trans h.cw
  inFlight := hf.trans h.inFlight
  causes x k := hx x (h.causes x k)

theorem Unstirred.raise (h : Unstirred r s) (x : Cause) : Unstirred r (s.raise x) :=
  h.congr (raise_part s x) (raise_ga s x) (raise_cw s x) (by rw [raise_fe]) (raise_mu s x) (raise_sm s x)
    (fun _ => raise_keeps_caused s x _)
    (scanIdle_congr h.noScan (raise_cw s x) (raise_mem s x) (raise_hp_status s x) (by rw [raise_pu]))

/-- No tail is due (R127). -/
theorem Unstirred.commit (h : Unstirred r s) : cwCommit s = s := by
  have hd : commitDue s = false := by
    unfold commitDue
    rw [h.cw]
    split
    · rfl
    · rcases h.noTail with k | k
      · simp [k]
      · simp [k]
  unfold cwCommit
  rw [hd]
  exact if_neg Bool.false_ne_true

/-- The scan of a tick finds nothing (R112). -/
theorem Unstirred.service (h : Unstirred r s) : cwService s = s := by
  unfold cwService
  split
  · split
    · rfl
    · next table ht =>
      have hn := (h.noScan.resolve_left fun e => by rw [ht] at e; cases e).1
      rw [cwScanTable_none hn ht, h.resting.writer]
  · rfl

theorem feTick_inFlight (s : State) : (feTick s).fe.inFlight = s.fe.inFlight := by
  rw [feTick_eq]
  unfold tickedFe
  dsimp only
  split
  · split
    · rfl
    · split <;> rfl
  · rfl

/-- A quiet charger hands nothing over (R134, R157, R158). -/
theorem ccArrival_unstirred (hq : Quiet m s.cc) (h : Unstirred r s) : Unstirred r (ccArrival m s) := by
  have hx := (ccArrival_ticked (Ticked.refl s) m).causes
  obtain ⟨c, e, ha⟩ := ccArrival_quiet hq
  rw [ha] at hx ⊢
  exact h.congr rfl rfl rfl rfl rfl rfl hx (scanIdle_congr h.noScan rfl rfl rfl rfl)

/-- Every other delivery leaves the writer at rest (R3). -/
theorem tickDelivery_unstirred {d : TickDelivery} (h1 : d ≠ .charger) (h2 : d ≠ .gauge) (h : Unstirred r s) :
    Unstirred r (tickDelivery m d s) := by
  cases d <;> unfold tickDelivery <;> dsimp only
  case charger => exact absurd rfl h1
  case gauge => exact absurd rfl h2
  case releaseScan =>
    obtain ⟨l, k, e, hk⟩ := puReleaseScan_form s
    split
    · rw [e]
      exact h.congr rfl rfl rfl rfl rfl rfl (fun _ k => k) (scanIdle_unread h.noScan rfl rfl rfl fun _ => hk)
    · exact h
  case scan =>
    rw [h.service]
    exact h
  case commit =>
    rw [h.commit]
    exact h
  case flash =>
    have hf := feTick_inFlight s
    rw [feTick_eq] at hf ⊢
    exact h.congr rfl rfl rfl hf rfl rfl (fun _ k => k) (scanIdle_congr h.noScan rfl rfl rfl rfl)
  case status =>
    by_cases hs : s.hp.status = none
    · rw [hpTick_idle (.inr hs)]
      exact h
    · obtain ⟨k, g, e⟩ := hpTick_form s
      rw [e]
      exact h.congr rfl rfl rfl rfl rfl rfl (fun _ k => k)
        (scanIdle_unread h.noScan rfl rfl rfl fun n => absurd n hs)

/-! ### The sequence begins -/

/-- A Gauge that the reading finds at Cutoff: the fourth in a row at or below the cutoff voltage, with the input Absent and
the start-up hold over (R159, R161). -/
structure CutoffDue (m : Measurement) (g : Ga) : Prop where
  noGrace : g.grace = none
  above : g.level ≠ .cutoff
  counted : g.cutoffCount = 3
  settled : 3 ≤ g.hold
  noValues : g.pending = none
  absent : g.present = false
  low : m.vbat ≤ g.params.cutoff

/-- The Gauge as the level becomes Cutoff (R161). -/
def cutGauge (m : Measurement) (g : Ga) : Ga := { gaHeld m (gaCounted m g) with level := .cutoff, q := 0 }

/-- The state in which the writer hears of the Cutoff (R159, R161). -/
def atCutoff (m : Measurement) (s : State) : State := State.raise { s with ga := cutGauge m s.ga } .gaugeLevel

/-- The fourth reading counts, and none before it (R161). -/
theorem gaLevel_due (h : CutoffDue m g) : gaLevel (gaHeld m (gaCounted m g)) = .cutoff := by
  obtain ⟨q, b, e⟩ := gaCounted_form m g
  have hh : min 4 (g.hold + 1) = 4 := by have := h.settled; omega
  rw [e]
  unfold gaLevel gaHeld holdEnded
  simp [h.above, hh, h.absent, h.low, h.counted]

/-- The writer hears of the Cutoff, and the check follows (R161, R162, log 65). -/
theorem gaArrival_due (h : CutoffDue m s.ga) :
    gaArrival m s = gaCheck { cwSignal .cutoff (atCutoff m s) with ga.grace := some 200 } := by
  have hl := gaLevel_due h
  have hlevel : (gaHeld m (gaCounted m s.ga)).level = s.ga.level := by
    obtain ⟨q, b, e⟩ := gaCounted_form m s.ga
    rw [e]
    rfl
  have hq : ∀ k : Ga, { State.raise { s with ga := k } .gaugeLevel with ga.q := 0 }
      = State.raise { s with ga := { k with q := 0 } } .gaugeLevel := by
    intro k
    unfold State.raise
    dsimp only
    split <;> rfl
  rw [gaArrival_finds h.noValues h.noGrace]
  unfold gaFindLevel gaCutoff
  dsimp only
  rw [hl, if_neg (by rw [hlevel]; exact Ne.symm h.above)]
  dsimp only
  rw [hq]
  rfl

theorem cutGauge_sysen (m : Measurement) (g : Ga) : (cutGauge m g).sysen = g.sysen := by
  obtain ⟨q, b, e⟩ := gaCounted_form m g
  unfold cutGauge
  rw [e]
  rfl

/-- A cause raised in a state with the causes of another (R175). -/
theorem raise_causes_of (hp : t.part = s.part) (h : ∀ x, s.caused x = true → t.caused x = true) (c x : Cause)
    (hx : (s.raise c).caused x = true) : (t.raise c).caused x = true := by
  by_cases hl : s.part.resetnLow = true
  · unfold State.raise at hx ⊢
    rw [if_pos hl] at hx
    rw [hp, if_pos hl]
    exact h x hx
  · rw [Bool.not_eq_true] at hl
    rw [raise_caused _ _ _ hl, Bool.or_eq_true] at hx
    rw [raise_caused _ _ _ (by rw [hp]; exact hl), Bool.or_eq_true]
    exact hx.imp_left (h x)

/-- The writer hears of the Cutoff at rest. -/
theorem Unstirred.cut (h : Unstirred r s) : Unstirred (atCutoff m r) (atCutoff m s) where
  resting := Resting.congr (s := { s with ga := cutGauge m s.ga })
    { h.resting with asserted := (cutGauge_sysen m s.ga).trans h.resting.asserted }
    (by unfold atCutoff; rw [raise_part]; exact h.resting.powered) (raise_ga _ _) (raise_cw _ _)
    (by unfold atCutoff; rw [raise_mu]) (raise_sm _ _)
  noScan := scanIdle_congr h.noScan (raise_cw _ _) (raise_mem _ _) (raise_hp_status _ _)
    (by unfold atCutoff; rw [raise_pu])
  noTail := by unfold atCutoff; rw [raise_cw]; exact h.noTail
  part := by unfold atCutoff; rw [raise_part, raise_part]; exact h.part
  ga := by unfold atCutoff; rw [raise_ga, raise_ga, h.ga]
  cw := by unfold atCutoff; rw [raise_cw, raise_cw]; exact h.cw
  inFlight := by unfold atCutoff; rw [raise_fe, raise_fe]; exact h.inFlight
  causes x := raise_causes_of (s := { r with ga := cutGauge m r.ga }) (t := { s with ga := cutGauge m s.ga }) h.part
    h.causes .gaugeLevel x

/-- A closed writer takes no notice of the Cutoff (R123). -/
theorem cwSignal_unheard {cause : StopCause} (h : Resting s) (hc : Closed s.cw) : cwSignal cause s = s := by
  unfold cwSignal
  rw [cwStopEvent_unheard hc h, h.writer, ite_self]

/-- The writer as a Cutoff leaves it where it is at work on a segment (R116, R123). -/
def cutWriter (c : Cw) : Cw := { c with writer := .closing, cause := .cutoff }

/-- A writer that is Closing with a page at its program rests (R123, R125). -/
theorem Unstirred.closes (h : Unstirred r s) (hp : r.cw.programming = true) :
    Unstirred { r with cw := cutWriter r.cw } { s with cw := cutWriter s.cw } where
  resting := { h.resting with notClosing := .inr (by rw [← h.cw] at hp; exact hp) }
  noScan := h.noScan
  noTail := .inr hp
  part := h.part
  ga := h.ga
  cw := congrArg cutWriter h.cw
  inFlight := h.inFlight
  causes := h.causes

/-- A writer that is Recording enters Closing by the Cutoff, and one that is Closing takes it as its cause (R116, R123). -/
theorem cwSignal_closes (h : Unstirred r s) (hp : r.cw.programming = true) (hl : r.cw.reloc = none)
    (ht : r.part.transition ≠ .reset) (hw : r.cw.writer = .recording ∨ r.cw.writer = .closing) :
    Unstirred { r with cw := cutWriter r.cw } (cwSignal .cutoff s) := by
  have hr : s.resetting = false := by
    unfold State.resetting
    rw [h.part]
    exact decide_eq_false ht
  have hj : Jobless s.cw := h.resting.jobless (by rw [h.cw]; exact hl)
  have hk : Unstirred { r with cw := cutWriter r.cw } (cwStopEvent .cutoff s) := by
    rcases hw with hw | hw
    · rw [cwStopEvent_records (by rw [h.cw]; exact hw) hj]
      exact (h.closes hp).raise _
    · have he : cwStopEvent .cutoff s = { s with cw := cutWriter s.cw } := by
        have hs : s.cw.writer = .closing := by rw [h.cw]; exact hw
        unfold cwStopEvent cwApplyStop cutWriter
        rw [hj.stops, if_neg Bool.false_ne_true, if_neg (by rw [hs]; decide), if_pos ⟨hs, rfl⟩, ← hs]
      rw [he]
      exact h.closes hp
  unfold cwSignal
  rw [hr, if_neg Bool.false_ne_true, hk.resting.writer]
  exact hk

/-- The part as the sequence begins with the writer `c` (R161). -/
def cutoffBegun (m : Measurement) (c : Cw) (s : State) : State :=
  { atCutoff m s with ga := { cutGauge m s.ga with grace := some 200 }, cw := c }

/-- The sequence begins where the writer is not closed yet or an operation is in flight (R161, R162). -/
theorem gaArrival_begins (h : Unstirred r s) (hd : CutoffDue m r.ga)
    (hs : Unstirred { atCutoff m r with cw := c } (cwSignal .cutoff (atCutoff m s)))
    (hb : writerClosed c = false ∨ r.fe.inFlight ≠ none) : Unstirred (cutoffBegun m c r) (gaArrival m s) := by
  rw [gaArrival_due (by rw [h.ga]; exact hd)]
  generalize cwSignal .cutoff (atCutoff m s) = w at hs
  have hga : w.ga = cutGauge m r.ga := hs.ga.trans (raise_ga _ _)
  have hfl : w.fe.inFlight = r.fe.inFlight := hs.inFlight.trans (by unfold atCutoff; rw [raise_fe])
  have hcheck : gaCheck { w with ga.grace := some 200 } = { w with ga.grace := some 200 } := by
    refine if_neg fun k => ?_
    simp only [Bool.and_eq_true] at k
    rcases hb with hb | hb
    · exact absurd (k.1.2.symm.trans ((congrArg writerClosed hs.cw).trans hb)) (by decide)
    · exact hb (hfl.symm.trans (Option.isNone_iff_eq_none.1 k.2))
  rw [hcheck]
  exact
    { resting := { hs.resting with }
      noScan := hs.noScan
      noTail := hs.noTail
      part := hs.part
      ga := by rw [hga]; rfl
      cw := hs.cw
      inFlight := hs.inFlight
      causes := hs.causes }

/-- With a closed writer and nothing in flight SYSEN is released at once (R162). -/
theorem gaArrival_releases (h : Unstirred r s) (hd : CutoffDue m r.ga) (hc : Closed r.cw) (hf : r.fe.inFlight = none) :
    SwitchedOff 200 (gaArrival m s) := by
  have hcw : (atCutoff m s).cw = r.cw := (raise_cw _ _).trans h.cw
  have hlevel : (atCutoff m s).ga.level = .cutoff := by unfold atCutoff; rw [raise_ga]; rfl
  have hfl : (atCutoff m s).fe.inFlight = none := by unfold atCutoff; rw [raise_fe]; exact h.inFlight.trans hf
  have hclosed : writerClosed r.cw = true := by
    unfold writerClosed
    rcases hc.2 with k | k | k <;> rw [k] <;> rfl
  rw [gaArrival_due (by rw [h.ga]; exact hd), cwSignal_unheard h.cut.resting (by rw [hcw]; exact hc)]
  unfold gaCheck
  rw [if_pos (by simp [hcw, hclosed, hfl])]
  exact ⟨⟨hlevel, rfl⟩, rfl⟩

/-! ### The tick -/

/-- A tick whose reading finds the Cutoff due, with a charger that hands nothing over and a writer at rest with nothing to scan
and no tail to commit (R112, R127, R134, R161). -/
structure CutoffTick (m : Measurement) (s : State) : Prop where
  due : CutoffDue (delivered m) s.ga
  quiet : Quiet (delivered m) s.cc
  rests : Resting s
  noScan : scanIdle s
  noTail : s.cw.assembly = [] ∨ s.cw.programming = true

/-- The clock's way to the tick (R3). -/
theorem CutoffTick.reached (h : CutoffTick m s) : Unstirred (tickTime s) (tickTime s) :=
  .refl (h.rests.congr h.rests.powered rfl rfl rfl rfl) (scanIdle_congr h.noScan rfl rfl rfl rfl) h.noTail

/-- CUTOFF with a closed writer and nothing in flight ends in Off (R161, R162). -/
theorem CutoffTick.off (h : CutoffTick m s) (hc : Closed s.cw) (hf : s.fe.inFlight = none) :
    exec (.cutoff m o) s = .next (enterOff s) ∧ exec (.chargeTick m o) s = .next (enterOff s) := by
  have hb : SwitchedOff 200 (bodyChargeTick m o s) :=
    bodyChargeTick_keeps (P := Unstirred (tickTime s)) (Q := SwitchedOff 200) h.reached
      (fun d h1 h2 u => ⟨tickDelivery_unstirred h1 h2, tickDelivery_switchedOff h2⟩)
      (fun u hu => ⟨ccArrival_unstirred (by rw [hu]; exact h.quiet), tickDelivery_switchedOff (d := .charger) (by decide)⟩)
      fun u k => gaArrival_releases k h.due hc hf
  refine chargeTick_named h.rests.powered ?_ (chargeTick_off h.rests.powered hb)
  unfold cameCutoff
  rw [decide_eq_true h.due.above, decide_eq_true hb.1.level]
  rfl

/-- CUTOFF with work to end: the sequence begins, and the tick's other deliveries leave it as it began (R161, R162). -/
theorem CutoffTick.begins (h : CutoffTick m s)
    (hs : ∀ u, Unstirred (tickTime s) u →
      Unstirred { atCutoff (delivered m) (tickTime s) with cw := c } (cwSignal .cutoff (atCutoff (delivered m) u)))
    (hb : writerClosed c = false ∨ s.fe.inFlight ≠ none) :
    ∃ u, exec (.cutoff m o) s = .next u ∧ exec (.chargeTick m o) s = .next u
      ∧ u.part = s.part ∧ u.cw = c ∧ u.ga.level = .cutoff ∧ u.ga.q = 0 ∧ u.ga.grace = some 200 ∧ u.ga.sysen = true
      ∧ (s.part.resetnLow = false → u.caused .gaugeLevel = true) := by
  have ht : Unstirred (cutoffBegun (delivered m) c (tickTime s)) (bodyChargeTick m o s) :=
    bodyChargeTick_keeps (P := Unstirred (tickTime s)) h.reached
      (fun d h1 h2 u => ⟨tickDelivery_unstirred h1 h2, tickDelivery_unstirred h1 h2⟩)
      (fun u hu => ⟨ccArrival_unstirred (by rw [hu]; exact h.quiet), ccArrival_unstirred (by rw [hu]; exact h.quiet)⟩)
      fun u k => gaArrival_begins k h.due (hs u k) hb
  have hlevel : (bodyChargeTick m o s).ga.level = .cutoff := congrArg Ga.level ht.ga
  obtain ⟨hcut, htick⟩ := chargeTick_named (came := cameCutoff) h.rests.powered (by
    unfold cameCutoff
    rw [decide_eq_true h.due.above, decide_eq_true hlevel]
    rfl) ht.resting.finish
  exact ⟨_, hcut, htick, ht.part.trans (raise_part _ _), ht.cw, hlevel, congrArg Ga.q ht.ga, congrArg Ga.grace ht.ga,
    ht.resting.asserted, fun hl => ht.causes _ (raise_sets hl)⟩

/-- Settles O52: the Cutoff by what the writer and the flash have in hand, the last tick of the sequence, and any other. -/
theorem cutoffEndsInOff : Obligations.CutoffEndsInOff := by
  intro m o s off hp ho
  subst ho
  refine ⟨fun hgrace hlevel hcount hhold hpending habsent hinput hcharge hvin hvbat hreloc => ?_,
    fun hl hg => graceTimer_expires hp ⟨hl, hg⟩,
    fun hg => congrArg Host.Outcome.next (derived_not (by unfold cameGrace; rw [decide_eq_false hg]; rfl))⟩
  have hdue : CutoffDue (delivered m) s.ga := by
    refine ⟨hgrace, hlevel, hcount, hhold, hpending, habsent, ?_⟩
    unfold delivered clampInt
    dsimp only
    omega
  have hquiet : Quiet (delivered m) s.cc := by
    refine ⟨.inl ?_, fun k => by rw [hcharge] at k; cases k⟩
    rw [vinInRange_delivered, hinput, vinInRange_false]
    exact .inl hvin
  have htick : ∀ (_ : Calm s) (_ : s.cw.table = none) (_ : s.cw.assembly = []), CutoffTick m s :=
    fun hc ht ha => ⟨hdue, hquiet, hc.resting, .inl ht, .inl ha⟩
  refine ⟨fun hc ht ha hf hw => (htick hc ht ha).off ⟨hreloc, hw⟩ hf, fun hc ht ha hf _ hw => ?_,
    fun hr hscan hprogram htrans hw => ?_⟩
  · refine (htick hc ht ha).begins (fun u k => ?_) (.inr hf)
    have hclosed : Closed (atCutoff (delivered m) u).cw := by
      rw [show (atCutoff (delivered m) u).cw = s.cw from (raise_cw _ _).trans k.cw]
      exact ⟨hreloc, hw⟩
    rw [cwSignal_unheard k.cut.resting hclosed]
    have hcut := k.cut (m := delivered m)
    exact { hcut with cw := (raise_cw _ _).trans k.cw, noTail := .inl ha }
  · have h : CutoffTick m s := ⟨hdue, hquiet, hr, hscan, .inr hprogram⟩
    refine h.begins (c := cutWriter s.cw) (fun u k => ?_) (.inl rfl)
    have hcw : (atCutoff (delivered m) (tickTime s)).cw = s.cw := raise_cw _ _
    have hpart : (atCutoff (delivered m) (tickTime s)).part = s.part := raise_part _ _
    have hcl := cwSignal_closes (k.cut (m := delivered m)) (by rw [hcw]; exact hprogram) (by rw [hcw]; exact hreloc)
      (by rw [hpart]; exact htrans) (by rw [hcw]; exact hw)
    rw [hcw] at hcl
    exact hcl

end Sys2Proof.Machine
end

section
/-! The Charge Controller's registers as an arrival comes to its transition (R134, steps 3 to 6), what the transition makes of
them, and the events that name what a charge tick brings about (log 5). -/

namespace Sys2Proof.Machine

variable {s t : State} {m : Measurement} {o : List TickDelivery} {c e a : Cc} {on clear : Bool}

/-! ### Before the transition -/

/-- The registers `e` that steps 3 to 6 of an arrival, and the overvoltage count, make of those that its qualification leaves,
but for what is measured (R134, R147, R148). -/
structure Readied (m : Measurement) (c e : Cc) : Prop where
  charge : e.charge = c.charge
  present : e.present = c.present
  setpoint : e.setpoint = c.setpoint
  params : e.params = c.params
  cause : e.cause = c.cause
  taper : e.taper = c.taper
  terminationCount : e.terminationCount = c.terminationCount
  rechargeCount : e.rechargeCount = c.rechargeCount
  precharge : e.prechargeTimer
    = if c.charge = .precharge ∧ c.setpoint ≠ 0 then min prechargeLimit (c.prechargeTimer + 1) else c.prechargeTimer
  fast : e.fastTimer
    = if (c.charge = .fast ∨ c.charge = .taper) ∧ c.setpoint ≠ 0 then min fastLimit (c.fastTimer + 1) else c.fastTimer
  overvoltage : e.overvoltageCount
    = if c.present && judgesOvervoltage c.charge && decide ((c.params.target : Int) + 150 < m.vbat) then
        min 4 (c.overvoltageCount + 1)
      else 0

/-- The safety timers count where charge current was commanded (R147). -/
theorem ccTimed_timers (c : Cc) :
    (ccTimed c).prechargeTimer
        = (if c.charge = .precharge ∧ c.setpoint ≠ 0 then min prechargeLimit (c.prechargeTimer + 1) else c.prechargeTimer)
      ∧ (ccTimed c).fastTimer
        = (if (c.charge = .fast ∨ c.charge = .taper) ∧ c.setpoint ≠ 0 then min fastLimit (c.fastTimer + 1)
           else c.fastTimer) := by
  unfold ccTimed
  by_cases h : c.setpoint = 0
  · simp [h]
  · rw [if_neg h]
    cases c.charge <;> simp [h]

theorem ccStaged_readied (m : Measurement) (on : Bool) (c : Cc) : Readied m c (ccStaged m on c) := by
  obtain ⟨th, z, hz⟩ := ccZoned_form m c
  obtain ⟨l, hl⟩ := ccDrooped_form m { c with noThermistor := th, zone := z }
  unfold ccStaged
  rw [hz, hl]
  generalize hb : ccBudgeted m on { c with noThermistor := th, zone := z, inputLimit := l } = b
  obtain ⟨p, f, ht⟩ := ccTimed_form b
  obtain ⟨hp, hf⟩ := ccTimed_timers b
  rw [ht] at hp hf ⊢
  subst hb
  exact ⟨rfl, rfl, rfl, rfl, rfl, rfl, rfl, rfl, hp, hf, rfl⟩

/-- An arrival by its transition: from `c`, the registers after its qualification, through `e` to `a` (R134). -/
structure Comes (m : Measurement) (clear : Bool) (c e a : Cc) : Prop where
  readied : Readied m c e
  after : a = { ccMoved clear m e with setpoint := setpointOf (ccMoved clear m e) }

theorem ccAfter_comes (m : Measurement) (on : Bool) (c : Cc) :
    ∃ e, Comes m (ccBegun m c).1 (ccJudged m (ccBegun m c).2) e (ccAfter m on c) :=
  ⟨_, ccStaged_readied m on _, rfl⟩

/-- An arrival that leaves the qualification, with no values pending (R135, R151). -/
theorem ccAfter_comes_stays (on : Bool) (hp : c.pending = none) (h : vinInRange m.vin = c.present ∨ c.qualifyCount < 3) :
    ∃ e, Comes m false c e (ccAfter m on c) := by
  obtain ⟨e, k⟩ := ccAfter_comes m on c
  rw [ccBegun_none m hp] at k
  obtain ⟨n, hn⟩ := ccJudged_stays (c := { c with latest := some m, overvoltage := c.overvoltage || overInput m }) m h
  rw [hn] at k
  exact ⟨e, { k.readied with }, k.after⟩

/-- An arrival that leaves the qualification and installs the values `p` (R135, R151). -/
theorem ccAfter_comes_installs {p : CcParams} (on : Bool) (hp : c.pending = some p)
    (h : vinInRange m.vin = c.present ∨ c.qualifyCount < 3) :
    ∃ e, Comes m p.faultClear { c with params := p, pending := none } e (ccAfter m on c) := by
  obtain ⟨e, k⟩ := ccAfter_comes m on c
  unfold ccBegun at k
  rw [hp] at k
  dsimp only at k
  obtain ⟨n, hn⟩ := ccJudged_stays (c := { c with
    latest := some m, params := p, pending := none, inputLimit := min c.inputLimit p.inputMax
    overvoltage := c.overvoltage || overInput m }) m h
  rw [hn] at k
  exact ⟨e, { k.readied with }, k.after⟩

/-! ### What is measured -/

/-- The transition leaves what is measured and the values installed (R142). -/
structure SameReading (e a : Cc) : Prop where
  noThermistor : a.noThermistor = e.noThermistor
  zone : a.zone = e.zone
  budget : a.budget = e.budget
  params : a.params = e.params

theorem Comes.reading (h : Comes m clear c e a) : SameReading e a := by
  obtain ⟨ch, ca, p, f, v, ta, tc, rc, hm⟩ := ccMoved_transited clear m e
  rw [h.after, hm]
  exact ⟨rfl, rfl, rfl, rfl⟩

theorem SameReading.thermalStop (h : SameReading e a) : thermalStop a = thermalStop e := by
  unfold Machine.thermalStop
  rw [h.noThermistor, h.zone]

theorem SameReading.effectiveTarget (h : SameReading e a) : effectiveTarget a = effectiveTarget e := by
  unfold Machine.effectiveTarget
  rw [h.zone, h.params]

theorem SameReading.zoneFast (h : SameReading e a) : zoneFast a = zoneFast e := by
  unfold Machine.zoneFast
  rw [h.zone, h.params]

theorem Comes.params (h : Comes m clear c e a) : a.params = c.params := h.reading.params.trans h.readied.params

/-- The taper level of an arrival (R145). -/
theorem Comes.taperAfter (h : Comes m clear c e a) :
    taperAfter e m
      = (if effectiveTarget a < m.vbat then c.taper - 25
         else if m.vbat < effectiveTarget a - 10 then min (c.taper + 25) (zoneFast a) else c.taper) := by
  rw [h.reading.effectiveTarget, h.reading.zoneFast, ← h.readied.taper]
  rfl

/-- The termination count of an arrival (R146). -/
theorem Comes.terminationAfter (h : Comes m clear c e a) (level : Nat) :
    terminationAfter e m level
      = (if (c.params.termination : Int) < m.ibat then 0
         else if level ≤ a.budget then c.terminationCount + 1 else c.terminationCount) := by
  rw [h.reading.budget, ← h.readied.params, ← h.readied.terminationCount]
  rfl

/-- The setpoint is the smallest of the budget, the state limit and the zone limit (R149). -/
theorem ccAfter_setpoint (m : Measurement) (on : Bool) (c : Cc) :
    (ccAfter m on c).setpoint = setpointOf (ccAfter m on c) := rfl

/-- No charge current flows in a state that does not charge (Table 7-2, R149). -/
theorem setpointOf_idle (h : isCharging c.charge = false) : setpointOf c = 0 := by
  have hl : stateLimit c = 0 := by
    unfold stateLimit
    unfold isCharging at h
    cases hc : c.charge <;> simp_all
  unfold setpointOf
  rw [hl, Nat.zero_min, Nat.min_zero]

/-! ### The transition (R142) -/

/-- A state that obeys no enable has no exit of its own (R142, step 9). -/
theorem ccLeft_idle (h : obeysEnable c.charge = false) : ccLeft m c = c := by
  unfold ccLeft
  split <;> simp_all [obeysEnable]

/-- A state that charges obeys the enable (R142). -/
theorem isCharging_idle {ch : ChargeState} (h : obeysEnable ch = false) : isCharging ch = false := by
  cases ch <;> simp_all [isCharging, obeysEnable]

/-- NoInput without an input, and Inhibited with the enable 0, stay while no timer is at its limit (R142, log 71). -/
theorem ccMoved_waits (hp : c.present = true ↔ c.charge ≠ .noInput) (hc : obeysEnable c.charge = false)
    (hf : c.charge ≠ .fault) (he : c.charge = .inhibited → c.params.enable = false) (ho : c.overvoltageCount ≠ 4)
    (h1 : c.prechargeTimer ≠ prechargeLimit) (h2 : c.fastTimer ≠ fastLimit) : ccMoved clear m c = c := by
  unfold ccMoved
  rw [if_neg fun k => absurd (hp.2 k.2) (by simpa using k.1), if_neg fun k => hp.1 k.1 k.2, if_neg hf,
    if_neg (by simp [hc]), if_neg fun k => absurd k.2 (by simp [he k.1]), if_neg ho, if_neg h1, if_neg h2,
    if_neg (by simp [isCharging_idle hc]), ccLeft_idle hc]

/-- Without an input the state is NoInput (R142, step 1). -/
theorem ccMoved_absent (hp : c.present = false) (ho : c.overvoltageCount ≠ 4) (h1 : c.prechargeTimer ≠ prechargeLimit)
    (h2 : c.fastTimer ≠ fastLimit) : ccMoved clear m c = { c with charge := .noInput } := by
  by_cases hc : c.charge = .noInput
  · rw [ccMoved_waits (by simp [hp, hc]) (by simp [hc, obeysEnable]) (by simp [hc]) (by simp [hc]) ho h1 h2, ← hc]
  · unfold ccMoved
    rw [if_pos ⟨by rw [hp]; rfl, hc⟩]

/-- An input leaves NoInput by the charge enable (R142, step 2). -/
theorem ccMoved_noInput (hp : c.present = true) (hc : c.charge = .noInput) :
    ccMoved clear m c = { c with charge := if c.params.enable then .qualify else .inhibited } := by
  unfold ccMoved
  rw [if_neg (by simp [hp]), if_pos ⟨hp, hc⟩]

/-- Fault is left by a fault clear alone (R142, step 3). -/
theorem ccMoved_fault (hp : c.present = true) (hc : c.charge = .fault) :
    ccMoved clear m c
      = if clear then
          { c with
            cause := .none, prechargeTimer := 0, fastTimer := 0, overvoltageCount := 0
            charge := if c.params.enable then .qualify else .inhibited }
        else c := by
  unfold ccMoved
  rw [if_neg (by simp [hp]), if_neg (by simp [hc]), if_pos hc]

/-- The states that obey no enable (R142, step 4). -/
theorem obeysEnable_state {ch : ChargeState} (h : obeysEnable ch = true) :
    ch ≠ .noInput ∧ ch ≠ .fault ∧ ch ≠ .inhibited := by
  cases ch <;> simp_all [obeysEnable]

/-- An enable of 0 makes a state that obeys it Inhibited (R142, step 4). -/
theorem ccMoved_disabled (hp : c.present = true) (hc : obeysEnable c.charge = true) (he : c.params.enable = false) :
    ccMoved clear m c = { c with charge := .inhibited } := by
  obtain ⟨h1, h2, -⟩ := obeysEnable_state hc
  unfold ccMoved
  rw [if_neg (by simp [hp]), if_neg (by simp [h1]), if_neg h2, if_pos ⟨hc, by simp [he]⟩]

/-- An enable of 1 takes Inhibited to Qualify (R142, step 5). -/
theorem ccMoved_enabled (hp : c.present = true) (hc : c.charge = .inhibited) (he : c.params.enable = true) :
    ccMoved clear m c = { c with charge := .qualify } := by
  unfold ccMoved
  simp [hp, hc, he, obeysEnable]

/-- Whatever an arrival in Inhibited makes of the state, it leaves the timers (R142, R147). -/
theorem ccMoved_inhibited (hp : c.present = true) (hc : c.charge = .inhibited) :
    ∃ ch ca, ccMoved clear m c = { c with charge := ch, cause := ca } := by
  unfold ccMoved
  rw [if_neg (by simp [hp]), if_neg (by simp [hc]), if_neg (by simp [hc]), if_neg (by simp [hc, obeysEnable])]
  split
  · exact ⟨_, c.cause, rfl⟩
  split
  · exact ⟨_, _, rfl⟩
  split
  · exact ⟨_, _, rfl⟩
  split
  · exact ⟨_, _, rfl⟩
  · rw [if_neg (by simp [hc, isCharging]), ccLeft_idle (by simp [hc, obeysEnable])]
    exact ⟨c.charge, c.cause, rfl⟩

/-- The state obeys an enable that is 1, with the input believed: what is left is a fault or the state's own exit (R142). -/
structure Runs (c : Cc) : Prop where
  present : c.present = true
  enable : c.params.enable = true
  obeys : obeysEnable c.charge = true

/-- Such a state goes to Fault for what is due, to Suspended, or by its own exit (R142, steps 6 to 9). -/
theorem ccMoved_runs (h : Runs c) :
    ccMoved clear m c
      = if c.overvoltageCount = 4 then { c with cause := .batteryOvervoltage, charge := .fault }
        else if c.prechargeTimer = prechargeLimit then { c with cause := .prechargeTimer, charge := .fault }
        else if c.fastTimer = fastLimit then { c with cause := .fastTimer, charge := .fault }
        else if isCharging c.charge ∧ thermalStop c then { c with charge := .suspended }
        else ccLeft m c := by
  obtain ⟨h1, h2, h3⟩ := obeysEnable_state h.obeys
  unfold ccMoved
  rw [if_neg (by simp [h.present]), if_neg (by simp [h1]), if_neg h2, if_neg (by simp [h.enable]), if_neg (by simp [h3])]

/-- The same, with no fault due (R147, R148). -/
structure Free (c : Cc) : Prop extends Runs c where
  noOvervoltage : c.overvoltageCount ≠ 4
  precharges : c.prechargeTimer ≠ prechargeLimit
  charges : c.fastTimer ≠ fastLimit

theorem ccMoved_free (h : Free c) :
    ccMoved clear m c = if isCharging c.charge ∧ thermalStop c then { c with charge := .suspended } else ccLeft m c := by
  rw [ccMoved_runs h.toRuns, if_neg h.noOvervoltage, if_neg h.precharges, if_neg h.charges]

section
variable (h : Free c)
include h

/-- The exits of Qualify (R143). -/
theorem Free.qualify (hc : c.charge = .qualify) :
    ccMoved clear m c
      = { c with charge := if thermalStop c then .suspended else if m.vbat < 3000 then .precharge else .fast } := by
  rw [ccMoved_free h, hc, if_neg (by simp [isCharging])]
  unfold ccLeft
  rw [hc]
  dsimp only
  split
  · rfl
  · split <;> rfl

/-- The exits of Precharge (R143, R144). -/
theorem Free.precharge (hc : c.charge = .precharge) :
    ccMoved clear m c
      = { c with charge := if thermalStop c then .suspended else if 3000 ≤ m.vbat then .fast else .precharge } := by
  rw [ccMoved_free h, hc]
  by_cases hs : thermalStop c = true
  · rw [if_pos ⟨rfl, hs⟩, if_pos hs]
  · rw [if_neg (by simp [hs]), if_neg hs, ← hc]
    unfold ccLeft
    rw [hc]
    dsimp only
    split
    · rfl
    · rw [← hc]

/-- The exits of Fast (R144, R146). -/
theorem Free.fast (hc : c.charge = .fast) :
    ccMoved clear m c
      = if thermalStop c then { c with charge := .suspended }
        else if effectiveTarget c ≤ m.vbat then
          { c with charge := .taper, taper := c.setpoint, terminationCount := 0, rechargeCount := 0 }
        else c := by
  rw [ccMoved_free h, hc]
  by_cases hs : thermalStop c = true
  · rw [if_pos ⟨rfl, hs⟩, if_pos hs]
  · rw [if_neg (by simp [hs]), if_neg hs]
    unfold ccLeft
    rw [hc]

/-- The exits of Taper (R145, R146). -/
theorem Free.taper (hc : c.charge = .taper) :
    ccMoved clear m c
      = if thermalStop c then { c with charge := .suspended }
        else if 16 ≤ terminationAfter c m (taperAfter c m) then
          { c with
            charge := .done, prechargeTimer := 0, fastTimer := 0, terminationCount := 0, rechargeCount := 0, taper := 0 }
        else { c with taper := taperAfter c m, terminationCount := terminationAfter c m (taperAfter c m) } := by
  rw [ccMoved_free h, hc]
  by_cases hs : thermalStop c = true
  · rw [if_pos ⟨rfl, hs⟩, if_pos hs]
  · rw [if_neg (by simp [hs]), if_neg hs]
    unfold ccLeft
    rw [hc]

/-- The exit of Done (R146). -/
theorem Free.done (hc : c.charge = .done) :
    ccMoved clear m c
      = if m.vbat < effectiveTarget c - 100 then
          if 4 ≤ c.rechargeCount + 1 then
            { c with rechargeCount := 0, charge := if thermalStop c then .suspended else .fast }
          else { c with rechargeCount := c.rechargeCount + 1 }
        else { c with rechargeCount := 0 } := by
  rw [ccMoved_free h, hc, if_neg (by simp [isCharging])]
  unfold ccLeft
  rw [hc]

/-- The exit of Suspended (R143). -/
theorem Free.suspended (hc : c.charge = .suspended) :
    ccMoved clear m c = { c with charge := if thermalStop c then .suspended else .qualify } := by
  rw [ccMoved_free h, hc, if_neg (by simp [isCharging])]
  unfold ccLeft
  rw [hc]
  dsimp only
  split
  · rw [← hc]
  · rfl

end

/-! ### The causes of an arrival -/

/-- The state of charge is what it was, or ChargerState is raised (R142). -/
def Tells (ch : ChargeState) (s : State) : Prop := s.cc.charge = ch ∨ s.caused .chargerState = true

theorem ccEnter_tells (ch st : ChargeState) (h : s.part.resetnLow = false) : Tells ch (ccEnter st s) :=
  .inr (raise_sets (s := { s with cc.charge := st }) h)

theorem Tells.raise {ch : ChargeState} (h : Tells ch s) (c : Cause) : Tells ch (s.raise c) :=
  h.imp (congrArg Cc.charge (raise_cc s c)).trans (raise_keeps_caused s c _)

theorem ccFault_tells (ch : ChargeState) (cause : FaultCause) (h : s.part.resetnLow = false) :
    Tells ch (ccFault cause s) :=
  Tells.raise (ccEnter_tells ch _ (s := { s with cc.cause := cause }) h) _

theorem ccTaper_tells (h : s.part.resetnLow = false) : Tells s.cc.charge (ccTaper m s) := by
  unfold ccTaper
  dsimp only
  split
  · refine .inr ((gaFull_ticked (Ticked.refl _)).causes _ ?_)
    exact raise_sets h
  · exact .inl rfl

theorem ccDone_tells (h : s.part.resetnLow = false) : Tells s.cc.charge (ccDone m s) := by
  unfold ccDone
  split
  · split
    · exact ccEnter_tells _ _ (s := { s with cc.rechargeCount := 0 }) h
    · exact .inl rfl
  · exact .inl rfl

theorem ccExit_tells (h : s.part.resetnLow = false) : Tells s.cc.charge (ccExit m s) := by
  unfold ccExit
  split
  · split
    · exact ccEnter_tells _ _ h
    · split <;> exact ccEnter_tells _ _ h
  · split
    · exact ccEnter_tells _ _ h
    · exact .inl rfl
  · split
    · exact ccEnter_tells _ _ (s := { s with
        cc.taper := s.cc.setpoint, cc.terminationCount := 0, cc.rechargeCount := 0 }) h
    · exact .inl rfl
  · exact ccTaper_tells h
  · exact ccDone_tells h
  · split
    · exact .inl rfl
    · exact ccEnter_tells _ _ h
  · exact .inl rfl

/-- Each change of the charge state raises ChargerState (R142). -/
theorem ccTransition_tells (h : s.part.resetnLow = false) : Tells s.cc.charge (ccTransition clear m s) := by
  unfold ccTransition
  split
  · exact ccEnter_tells _ _ h
  split
  · exact ccEnter_tells _ _ h
  split
  · split
    · exact ccEnter_tells _ _ (s := { s with
        cc.cause := .none, cc.prechargeTimer := 0, cc.fastTimer := 0, cc.overvoltageCount := 0 }) h
    · exact .inl rfl
  split
  · exact ccEnter_tells _ _ h
  split
  · exact ccEnter_tells _ _ h
  split
  · exact ccFault_tells _ _ h
  split
  · exact ccFault_tells _ _ h
  split
  · exact ccFault_tells _ _ h
  split
  · exact ccEnter_tells _ _ h
  · exact ccExit_tells h

/-- An arrival at its qualification, and from there to its end (R134): `a` is the state to be qualified, and `d` the one in
which the transition is taken. -/
theorem ccArrival_stages (m : Measurement) (s : State) :
    ∃ a d clear, Ticked s a ∧ a.cc = (ccBegun m s.cc).2 ∧ Ticked (ccQualify m a) d ∧ d.cc.charge = s.cc.charge
      ∧ ccArrival m s = ccSetpoint (ccTransition clear m d) := by
  obtain ⟨c₀, e₀⟩ := ccInstall_ticked { s with cc.latest := some m }
  obtain ⟨-, hb⟩ := ccInstall_cc m s
  have ha : Ticked s (ccOvervoltageFlag m (ccInstall { s with cc.latest := some m }).2) := by
    rw [e₀]
    exact ccOvervoltageFlag_ticked (Ticked.update (ga := s.ga) (Ticked.refl s) id) m
  refine ⟨_, _, _, ha, hb, ?_, ?_, rfl⟩
  · obtain ⟨c, e⟩ := ccMiddle m (ccQualify m (ccOvervoltageFlag m (ccInstall { s with cc.latest := some m }).2))
    rw [e]
    exact Ticked.update (ga := (ccQualify m _).ga) (Ticked.refl _) id
  · rw [show ∀ s, (ccOvervoltageCount m s).cc = ccCounted m s.cc from fun _ => rfl, ccTimers_cc, ccBudget_cc, ccDroop_cc,
      ccZone_cc, ccQualify_cc, hb]
    exact (ccStaged_charge m _ _).trans ((ccJudged_charge _ _).trans (ccBegun_charge _ _))

/-- An arrival that changes the charge state raises ChargerState (R142). -/
theorem ccArrival_chargerState (h : s.part.resetnLow = false) (hc : (ccArrival m s).cc.charge ≠ s.cc.charge) :
    (ccArrival m s).caused .chargerState = true := by
  obtain ⟨a, d, clear, ha, -, hd, hch, e⟩ := ccArrival_stages m s
  have hp : d.part = s.part := hd.part.trans ((ccQualify_ticked ha m).part)
  rw [e] at hc ⊢
  have ht := ccTransition_tells (s := d) (clear := clear) (m := m) (by rw [hp]; exact h)
  rw [hch] at ht
  exact ht.resolve_left hc

/-- The fourth reading in a row that disagrees raises InputChange (R135, R137). -/
theorem ccArrival_inputChange (h : s.part.resetnLow = false) (hv : vinInRange m.vin ≠ s.cc.present)
    (hn : s.cc.qualifyCount = 3) : (ccArrival m s).caused .inputChange = true := by
  obtain ⟨a, d, clear, ha, hb, hd, -, e⟩ := ccArrival_stages m s
  have hk : a.cc.present = s.cc.present ∧ a.cc.qualifyCount = s.cc.qualifyCount := by
    rw [hb]
    unfold ccBegun
    split <;> exact ⟨rfl, rfl⟩
  have hlow : a.part.resetnLow = false := by rw [ha.part]; exact h
  have hq : (ccQualify m a).caused .inputChange = true := by
    unfold ccQualify
    rw [if_neg (by rw [hk.1]; exact hv), if_neg (by rw [hk.2, hn]; decide)]
    split
    · refine (gaQualification_ticked (Ticked.refl _) _).causes _ ?_
      exact raise_sets hlow
    · refine (gaQualification_ticked (Ticked.refl _) _).causes _ ?_
      exact raise_sets hlow
  rw [e]
  exact (ccTransition_ticked (Ticked.refl d) clear m).causes _ (hd.causes _ hq)

/-- What the charger raises at its delivery is raised at the end of the tick (R3, R175). -/
theorem bodyChargeTick_raises {x : Cause}
    (h : ∀ u : State, u.cc = s.cc → u.part = s.part → (ccArrival (delivered m) u).cc = (bodyChargeTick m o s).cc →
      (ccArrival (delivered m) u).caused x = true) : (bodyChargeTick m o s).caused x = true := by
  obtain ⟨pre, post, e, hpre, hpost⟩ := tickOrder_split o .charger
  unfold bodyChargeTick at h ⊢
  rw [e, List.foldl_append, List.foldl_cons] at h ⊢
  rw [deliveries_cc _ hpost] at h
  refine (deliveries_ticked (Ticked.refl _) _ _).causes _ (h _ (deliveries_cc _ hpre _) ?_ rfl)
  exact (deliveries_ticked (Ticked.refl (tickTime s)) (delivered m) pre).part

/-! ### Events named by the Charge Controller's registers (log 5) -/

/-- A charge tick by the Charge Controller's registers after it, and the causes it raises (R3, R134). -/
theorem chargeTick_ends (m : Measurement) (o : List TickDelivery) (h : Lasting s) :
    ∃ on u, exec (.chargeTick m o) s = .next u ∧ u.cc = ccAfter (delivered m) on s.cc
      ∧ (bodyChargeTick m o s).cc = ccAfter (delivered m) on s.cc ∧ u = finish (bodyChargeTick m o s)
      ∧ (s.part.resetnLow = false → u.cc.charge ≠ s.cc.charge → u.caused .chargerState = true)
      ∧ (s.part.resetnLow = false → vinInRange m.vin ≠ s.cc.present → s.cc.qualifyCount = 3 →
          u.caused .inputChange = true) := by
  obtain ⟨on, hb, hf⟩ := chargeTick_cc m o h
  have hc := (chargeTick_finish m o h).1.causes
  refine ⟨on, _, exec_chargeTick m o h.powered, hf, hb, rfl, fun hl hn => hc _ ?_, fun hl hv hn => hc _ ?_⟩
  · refine bodyChargeTick_raises fun u hu hp ha => ccArrival_chargerState (by rw [hp]; exact hl) ?_
    rw [ha, hu, hb, ← hf]
    exact hn
  · refine bodyChargeTick_raises fun u hu hp _ => ccArrival_inputChange (by rw [hp]; exact hl) ?_ (by rw [hu]; exact hn)
    rw [vinInRange_delivered, hu]
    exact hv

/-- An event that the registers after the tick show is the tick (log 5). -/
theorem chargeTick_shows {came : State → State → Bool} (h : Lasting s)
    (hc : ∀ on t, t.cc = ccAfter (delivered m) on s.cc → came s t = true) :
    ∃ on u, (.next (derived (bodyChargeTick m o) came s) : Answer) = .next u ∧ exec (.chargeTick m o) s = .next u
      ∧ u.cc = ccAfter (delivered m) on s.cc
      ∧ (s.part.resetnLow = false → vinInRange m.vin ≠ s.cc.present → s.cc.qualifyCount = 3 →
          u.caused .inputChange = true) := by
  obtain ⟨on, u, he, hu, hb, rfl, -, hx⟩ := chargeTick_ends m o h
  exact ⟨on, _, congrArg Host.Outcome.next (derived_came h.powered (hc on _ hb)), he, hu, hx⟩

/-- The same, for what holds of the registers whatever the budget counts (log 5). -/
theorem chargeTick_row {came : State → State → Bool} (Q : Cc → Prop) (h : Lasting s)
    (hQ : ∀ on, Q (ccAfter (delivered m) on s.cc)) (hc : ∀ t, Q t.cc → came s t = true) :
    ∃ u, (.next (derived (bodyChargeTick m o) came s) : Answer) = .next u ∧ exec (.chargeTick m o) s = .next u
      ∧ Q u.cc := by
  obtain ⟨on, u, hrow, htick, hu, -⟩ := chargeTick_shows (m := m) (o := o) (came := came) h
    fun on t ht => hc t (ht ▸ hQ on)
  exact ⟨u, hrow, htick, hu ▸ hQ on⟩

/-- One that they do not show changes nothing (log 5). -/
theorem chargeTick_hides {came : State → State → Bool} (h : Lasting s)
    (hc : ∀ on t, t.cc = ccAfter (delivered m) on s.cc → came s t = false) :
    (.next (derived (bodyChargeTick m o) came s) : Answer) = .next s := by
  obtain ⟨on, hb, -⟩ := chargeTick_cc m o h
  exact congrArg Host.Outcome.next (derived_not (hc on _ hb))

end Sys2Proof.Machine
end

section
/-! INPUT_QUALIFICATION (R135 to R138, R142, R147), SAFETY_TIMER_EXPIRY and BATTERY_OVERVOLTAGE (R147, R148): what the fourth
reading that disagrees makes of the Charge Controller, and its entry to Fault. -/

namespace Sys2Proof.Machine

variable {s : State} {m : Measurement} {o : List TickDelivery} {c e a : Cc} {on clear : Bool}

/-! ### The qualification (R135, R137) -/

/-- A reading in range, as the statements say it. -/
theorem vinInRange_true (v : Int) : vinInRange v = true ↔ 4200 ≤ v ∧ v ≤ 6500 := by
  unfold vinInRange
  rw [Bool.and_eq_true, decide_eq_true_iff, decide_eq_true_iff]

/-- The registers as the input becomes Present (R137, R138). -/
theorem ccJudged_qualifies (hp : c.pending = none) (ha : c.present = false) (hn : c.qualifyCount = 3)
    (hv : vinInRange m.vin = true) :
    ccJudged m (ccBegun m c).2
      = { c with
          latest := some m, present := true, qualifyCount := 0, overvoltage := false
          inputLimit := c.params.inputMax } := by
  rw [ccBegun_none m hp]
  unfold ccJudged
  simp [ha, hn, hv]

/-- The registers as the input becomes Absent (R137). -/
theorem ccJudged_loses (hp : c.pending = none) (ha : c.present = true) (hn : c.qualifyCount = 3)
    (hv : vinInRange m.vin = false) :
    ccJudged m (ccBegun m c).2
      = { c with
          latest := some m, overvoltage := c.overvoltage || overInput m, present := false, qualifyCount := 0
          inputLimit := c.params.inputMax, prechargeTimer := 0, fastTimer := 0, terminationCount := 0, rechargeCount := 0
          overvoltageCount := 0, cause := .none, taper := 0 } := by
  rw [ccBegun_none m hp]
  unfold ccJudged
  simp [ha, hn, hv]

/-- From Absent the input becomes Present, and the limit starts from the input maximum (R136 to R138, R142). -/
theorem ccAfter_qualifies (on : Bool) (hp : c.pending = none) (ha : c.present = false) (hn : c.qualifyCount = 3)
    (hc : c.charge = .noInput) (hv : vinInRange m.vin = true) :
    (ccAfter m on c).present = true ∧ (ccAfter m on c).qualifyCount = 0 ∧ (ccAfter m on c).overvoltage = false
      ∧ (ccAfter m on c).setpoint = 0
      ∧ (ccAfter m on c).charge = (if c.params.enable then .qualify else .inhibited)
      ∧ (ccAfter m on c).inputLimit
        = (if m.vin < c.params.floor then max 100 (c.params.inputMax - 50) else c.params.inputMax) := by
  have hj := ccJudged_qualifies hp ha hn hv
  obtain ⟨e, hr, he⟩ := ccAfter_comes m on c
  obtain ⟨hpres, hcount, hover, -, -, -⟩ := ccAfter_kept m on c
  obtain ⟨-, -, hlimit, -⟩ := ccAfter_measured m on c
  rw [hj] at hr hpres hcount hover hlimit
  have hcharge : (ccAfter m on c).charge = (if c.params.enable then .qualify else .inhibited) := by
    rw [he, ccMoved_noInput hr.present (hr.charge.trans hc), hr.params]
  refine ⟨hpres, hcount, hover, ?_, hcharge, ?_⟩
  · rw [ccAfter_setpoint]
    refine setpointOf_idle ?_
    rw [hcharge]
    split <;> rfl
  · obtain ⟨th, z, hz⟩ := ccZoned_form m
      { c with latest := some m, present := true, qualifyCount := 0, overvoltage := false, inputLimit := c.params.inputMax }
    rw [hlimit, hz, ccDrooped_inputLimit]
    dsimp only
    rw [if_pos rfl]
    refine if_congr Iff.rfl rfl ?_
    split
    · omega
    · rfl

/-- From Present it becomes Absent; a timer cleared with it counts the interval that ends (R137, R142, R147, log 19). -/
theorem ccAfter_loses (on : Bool) (hp : c.pending = none) (ha : c.present = true) (hn : c.qualifyCount = 3)
    (hv : vinInRange m.vin = false) :
    (ccAfter m on c).present = false ∧ (ccAfter m on c).qualifyCount = 0 ∧ (ccAfter m on c).charge = .noInput
      ∧ (ccAfter m on c).setpoint = 0 ∧ (ccAfter m on c).inputLimit = c.params.inputMax
      ∧ (ccAfter m on c).budget = 0 ∧ (ccAfter m on c).taper = 0 ∧ (ccAfter m on c).cause = .none
      ∧ (ccAfter m on c).terminationCount = 0 ∧ (ccAfter m on c).rechargeCount = 0
      ∧ (ccAfter m on c).overvoltageCount = 0
      ∧ (ccAfter m on c).prechargeTimer = (if c.charge = .precharge ∧ c.setpoint ≠ 0 then 1 else 0)
      ∧ (ccAfter m on c).fastTimer = (if (c.charge = .fast ∨ c.charge = .taper) ∧ c.setpoint ≠ 0 then 1 else 0) := by
  have hj := ccJudged_loses hp ha hn hv
  obtain ⟨e, hr, he⟩ := ccAfter_comes m on c
  obtain ⟨hpres, hcount, -, -, -, -⟩ := ccAfter_kept m on c
  obtain ⟨-, -, hlimit, hbudget⟩ := ccAfter_measured m on c
  rw [hj] at hr hpres hcount hlimit hbudget
  obtain ⟨th, z, hz⟩ := ccZoned_form m { c with
    latest := some m, overvoltage := c.overvoltage || overInput m, present := false, qualifyCount := 0
    inputLimit := c.params.inputMax, prechargeTimer := 0, fastTimer := 0, terminationCount := 0, rechargeCount := 0
    overvoltageCount := 0, cause := .none, taper := 0 }
  rw [hz, ccDrooped_inputLimit] at hlimit
  rw [hz, ccDrooped_budget] at hbudget
  have hpre : e.prechargeTimer = (if c.charge = .precharge ∧ c.setpoint ≠ 0 then 1 else 0) := hr.precharge
  have hfast : e.fastTimer = (if (c.charge = .fast ∨ c.charge = .taper) ∧ c.setpoint ≠ 0 then 1 else 0) := hr.fast
  have hmoved : ccMoved (ccBegun m c).1 m e = { e with charge := .noInput } := by
    refine ccMoved_absent hr.present (by rw [hr.overvoltage]; simp) ?_ ?_
    · rw [hpre]
      split <;> decide
    · rw [hfast]
      split <;> decide
  rw [hmoved] at he
  refine ⟨hpres, hcount, congrArg Cc.charge he, ?_, hlimit, hbudget, ?_⟩
  · rw [ccAfter_setpoint]
    exact setpointOf_idle (by rw [he]; rfl)
  · rw [he]
    exact ⟨hr.taper, hr.cause, hr.terminationCount, hr.rechargeCount, hr.overvoltage, hpre, hfast⟩

/-- Settles O49: a run too short changes nothing, and the fourth reading makes the input Present or Absent. -/
theorem qualificationChanges : Obligations.QualificationChanges := by
  intro m o s hl hp
  refine ⟨fun hn => ?_, fun hn ha hc h1 h2 => ?_, fun hn ha hv => ?_⟩
  · refine chargeTick_hides (came := cameQualification) hl fun on t ht => ?_
    obtain ⟨hpres, -, -⟩ := ccAfter_stays (m := delivered m) on hp (.inr hn)
    unfold cameQualification
    rw [ht, hpres]
    simp
  · have hv : vinInRange (delivered m).vin = true := (vinInRange_delivered m).trans ((vinInRange_true _).2 ⟨h1, h2⟩)
    have hvin : (delivered m).vin = m.vin := by
      unfold delivered clampInt
      dsimp only
      omega
    have hq := fun on => ccAfter_qualifies on hp ha hn hc hv
    obtain ⟨on, u, hrow, htick, hu, hx⟩ := chargeTick_shows (m := m) (o := o) (came := cameQualification) hl
      fun on t ht => by
        unfold cameQualification
        rw [ht, (hq on).1, ha]
        rfl
    obtain ⟨q1, q2, q3, q4, q5, q6⟩ := hq on
    rw [hvin] at q6
    refine ⟨u, hrow, htick, ?_⟩
    rw [hu]
    refine ⟨q1, q2, q3, q4, q5, q6, fun hr => hx hr ?_ hn⟩
    rw [← vinInRange_delivered, hv, ha]
    decide
  · have hv' : vinInRange (delivered m).vin = false := (vinInRange_delivered m).trans ((vinInRange_false _).2 hv)
    have hq := fun on => ccAfter_loses on hp ha hn hv'
    obtain ⟨on, u, hrow, htick, hu, hx⟩ := chargeTick_shows (m := m) (o := o) (came := cameQualification) hl
      fun on t ht => by
        unfold cameQualification
        rw [ht, (hq on).1, ha]
        rfl
    obtain ⟨q1, q2, q3, q4, q5, q6, q7, q8, q9, q10, q11, q12, q13⟩ := hq on
    refine ⟨u, hrow, htick, ?_⟩
    rw [hu]
    refine ⟨q1, q2, q3, q4, q5, q6, q7, q8, q9, q10, q11, q12, q13, fun hr => hx hr ?_ hn⟩
    rw [← vinInRange_delivered, hv', ha]
    decide

/-! ### Entry to Fault (R147, R148) -/

/-- An arrival that leaves an input believed, with no values pending and the enable 1 (R135, R142). -/
structure Believed (c : Cc) : Prop where
  noValues : c.pending = none
  present : c.present = true
  short : c.qualifyCount < 3
  enable : c.params.enable = true

theorem Believed.comes (h : Believed c) (m : Measurement) (on : Bool) : ∃ e, Comes m false c e (ccAfter m on c) :=
  ccAfter_comes_stays on h.noValues (.inr h.short)

theorem Comes.runs (h : Comes m clear c e a) (hb : Believed c) (hc : obeysEnable c.charge = true) : Runs e where
  present := h.readied.present.trans hb.present
  enable := by rw [h.readied.params]; exact hb.enable
  obeys := by rw [h.readied.charge]; exact hc

/-- The overvoltage count falls short of its limit where the reading is not above the target by more than 150 mV, or the run is
too short (R148). -/
theorem Comes.noOvervoltage (h : Comes m clear c e a)
    (hv : c.overvoltageCount < 3 ∨ m.vbat ≤ c.params.target + 150) : e.overvoltageCount ≠ 4 := by
  rw [h.readied.overvoltage]
  split
  · next hk =>
    have hd : (c.params.target : Int) + 150 < m.vbat := by simp only [Bool.and_eq_true, decide_eq_true_eq] at hk; exact hk.2
    have := hv.resolve_right (by omega)
    omega
  · decide

/-- The arrival enters Fault (R142, R148). -/
theorem Comes.faults (h : Comes m clear c e a) {ca : FaultCause}
    (hm : ccMoved clear m e = { e with cause := ca, charge := .fault }) :
    a.charge = .fault ∧ a.cause = ca ∧ a.prechargeTimer = e.prechargeTimer ∧ a.fastTimer = e.fastTimer
      ∧ a.overvoltageCount = e.overvoltageCount ∧ a.setpoint = 0 := by
  rw [h.after, hm]
  exact ⟨rfl, rfl, rfl, rfl, rfl, setpointOf_idle rfl⟩

/-- The precharge timer reaches its limit (R147). -/
theorem ccAfter_prechargeExpires (on : Bool) (h : Believed c) (hc : c.charge = .precharge) (hs : c.setpoint ≠ 0)
    (ht : c.prechargeTimer = 179999) (hv : m.vbat ≤ c.params.target + 150) :
    (ccAfter m on c).charge = .fault ∧ (ccAfter m on c).cause = .prechargeTimer
      ∧ (ccAfter m on c).prechargeTimer = 180000 ∧ (ccAfter m on c).setpoint = 0 := by
  obtain ⟨e, k⟩ := h.comes m on
  have hp : e.prechargeTimer = prechargeLimit := by
    rw [k.readied.precharge, if_pos ⟨hc, hs⟩, ht]
    rfl
  obtain ⟨h1, h2, h3, -, -, h6⟩ := k.faults (ca := .prechargeTimer) (by
    rw [ccMoved_runs (k.runs h (by rw [hc]; rfl)), if_neg (k.noOvervoltage (.inr hv)), if_pos hp])
  exact ⟨h1, h2, h3.trans hp, h6⟩

/-- The fast timer reaches its limit (R147). -/
theorem ccAfter_fastExpires (on : Bool) (h : Believed c) (hc : c.charge = .fast ∨ c.charge = .taper) (hs : c.setpoint ≠ 0)
    (ht : c.fastTimer = 1799999) (hp : c.prechargeTimer < 180000) (hv : m.vbat ≤ c.params.target + 150) :
    (ccAfter m on c).charge = .fault ∧ (ccAfter m on c).cause = .fastTimer
      ∧ (ccAfter m on c).fastTimer = 1800000 ∧ (ccAfter m on c).setpoint = 0 := by
  obtain ⟨e, k⟩ := h.comes m on
  have hne : c.charge ≠ .precharge := by rcases hc with hc | hc <;> rw [hc] <;> decide
  have hpre : e.prechargeTimer ≠ prechargeLimit := by
    rw [k.readied.precharge, if_neg fun x => hne x.1]
    exact ne_of_lt hp
  have hfast : e.fastTimer = fastLimit := by
    rw [k.readied.fast, if_pos ⟨hc, hs⟩, ht]
    rfl
  obtain ⟨h1, h2, -, h4, -, h6⟩ := k.faults (ca := .fastTimer) (by
    rw [ccMoved_runs (k.runs h (by rcases hc with hc | hc <;> rw [hc] <;> rfl)), if_neg (k.noOvervoltage (.inr hv)),
      if_neg hpre, if_pos hfast])
  exact ⟨h1, h2, h4.trans hfast, h6⟩

/-- Overvoltage is judged in the states that obey the enable (R142, R148). -/
theorem judgesOvervoltage_eq (ch : ChargeState) : judgesOvervoltage ch = obeysEnable ch := by
  cases ch <;> rfl

/-- The fourth reading in a row above the target by more than 150 mV (R148). -/
theorem ccAfter_overvoltage (on : Bool) (h : Believed c) (hc : obeysEnable c.charge = true) (hn : c.overvoltageCount = 3)
    (hv : (c.params.target : Int) + 150 < m.vbat) :
    (ccAfter m on c).charge = .fault ∧ (ccAfter m on c).cause = .batteryOvervoltage
      ∧ (ccAfter m on c).overvoltageCount = 4 ∧ (ccAfter m on c).setpoint = 0 := by
  obtain ⟨e, k⟩ := h.comes m on
  have hover : e.overvoltageCount = 4 := by
    rw [k.readied.overvoltage, judgesOvervoltage_eq, h.present, hc, decide_eq_true hv, hn]
    rfl
  obtain ⟨h1, h2, -, -, h5, h6⟩ := k.faults (ca := .batteryOvervoltage) (by
    rw [ccMoved_runs (k.runs h hc), if_pos hover])
  exact ⟨h1, h2, h5.trans hover, h6⟩

/-- The row of a fault is the tick that enters it (R147, R148, log 5). -/
theorem chargeTick_faults {test : FaultCause → Bool} {ca : FaultCause} (Q : Cc → Prop) (hl : Lasting s)
    (hs : s.cc.charge ≠ .fault) (hca : test ca = true)
    (hf : ∀ on, (ccAfter (delivered m) on s.cc).charge = .fault ∧ (ccAfter (delivered m) on s.cc).cause = ca
      ∧ Q (ccAfter (delivered m) on s.cc)) :
    ∃ u, (.next (derived (bodyChargeTick m o) (cameFault test) s) : Answer) = .next u
      ∧ exec (.chargeTick m o) s = .next u ∧ u.cc.charge = .fault ∧ u.cc.cause = ca ∧ Q u.cc := by
  refine chargeTick_row (fun c => c.charge = .fault ∧ c.cause = ca ∧ Q c) hl hf fun t ht => ?_
  obtain ⟨h1, h2, -⟩ := ht
  unfold cameFault
  rw [h1, h2, hca, decide_eq_true hs]
  rfl

/-- A battery voltage at or below a bound that is not negative is delivered so (R133). -/
theorem delivered_vbat_le {b : Nat} (h : m.vbat ≤ b) : (delivered m).vbat ≤ b := by
  unfold delivered clampInt
  dsimp only
  omega

/-- Settles O50: the two safety timers and the overvoltage of the battery. -/
theorem chargeFaults : Obligations.ChargeFaults := by
  intro m o s hl hp ha hq he
  have hb : Believed s.cc := ⟨hp, ha, hq, he⟩
  refine ⟨fun hc hs ht hv => ?_, fun hc hs ht hpre hv => ?_, fun hc hn hv htarget => ?_⟩
  · exact chargeTick_faults (fun c => c.prechargeTimer = 180000 ∧ c.setpoint = 0) hl (by rw [hc]; decide) rfl
      fun on => ccAfter_prechargeExpires on hb hc hs ht (delivered_vbat_le hv)
  · exact chargeTick_faults (fun c => c.fastTimer = 1800000 ∧ c.setpoint = 0) hl
      (by rcases hc with hc | hc <;> rw [hc] <;> decide) rfl
      fun on => ccAfter_fastExpires on hb hc hs ht hpre (delivered_vbat_le hv)
  · have hobeys : obeysEnable s.cc.charge = true := by
      rcases hc with hc | hc | hc | hc | hc | hc <;> rw [hc] <;> rfl
    have hdel : (s.cc.params.target : Int) + 150 < (delivered m).vbat := by
      unfold delivered clampInt
      dsimp only
      omega
    exact chargeTick_faults (fun c => c.overvoltageCount = 4 ∧ c.setpoint = 0) hl (obeysEnable_state hobeys).2.1 rfl
      fun on => ccAfter_overvoltage on hb hobeys hn hdel

end Sys2Proof.Machine
end

section
/-! The charge states (R140 to R149): what an arrival makes of each state, and TERMINATION and RECHARGE, the end of a charge and
its return. -/

namespace Sys2Proof.Machine

variable {s : State} {m : Measurement} {o : List TickDelivery} {c e a : Cc} {on clear : Bool}

/-! ### Timers and faults -/

/-- The precharge timer counts in Precharge (R147). -/
theorem Readied.timers_precharge (h : Readied m c e) (hc : c.charge = .precharge) (hp : c.prechargeTimer < 180000) :
    e.prechargeTimer = c.prechargeTimer + (if c.setpoint = 0 then 0 else 1) ∧ e.fastTimer = c.fastTimer := by
  rw [h.precharge, h.fast, hc]
  by_cases hs : c.setpoint = 0
  · simp [hs]
  · simp only [hs, ne_eq, not_false_eq_true, and_self, if_true, if_false]
    unfold prechargeLimit
    simp
    omega

/-- The fast timer counts in Fast and Taper (R147). -/
theorem Readied.timers_fast (h : Readied m c e) (hc : c.charge = .fast ∨ c.charge = .taper) (hf : c.fastTimer < 1800000) :
    e.prechargeTimer = c.prechargeTimer ∧ e.fastTimer = c.fastTimer + (if c.setpoint = 0 then 0 else 1) := by
  have hn : c.charge ≠ .precharge := by rcases hc with hc | hc <;> rw [hc] <;> decide
  rw [h.precharge, h.fast, if_neg fun k => hn k.1]
  refine ⟨rfl, ?_⟩
  by_cases hs : c.setpoint = 0
  · simp [hs]
  · rw [if_pos ⟨hc, hs⟩, if_neg hs]
    exact Nat.min_eq_right hf

/-- No timer counts in the other states (R147). -/
theorem Readied.timers_idle (h : Readied m c e) (hc : isCharging c.charge = false) :
    e.prechargeTimer = c.prechargeTimer ∧ e.fastTimer = c.fastTimer := by
  rw [h.precharge, h.fast]
  unfold isCharging at hc
  cases hk : c.charge <;> simp_all

/-- The reading is above the target by no more than 150 mV or its run too short, and no timer reaches its limit with it (R147,
R148). -/
structure Sound (m : Measurement) (c : Cc) : Prop extends Believed c where
  noOvervoltage : c.overvoltageCount < 3 ∨ m.vbat ≤ c.params.target + 150
  precharged : c.prechargeTimer < 180000
  precharges : c.charge = .precharge → c.prechargeTimer < 179999
  charges : c.fastTimer < 1799999

/-- Outside Precharge the precharge timer does not count (R147). -/
theorem Sound.of_state (h : Believed c) (hn : c.charge ≠ .precharge) (ho : m.vbat ≤ c.params.target + 150)
    (hp : c.prechargeTimer < 180000) (hf : c.fastTimer < 1799999) : Sound m c :=
  ⟨h, .inr ho, hp, fun k => absurd k hn, hf⟩

theorem Comes.free (h : Comes m clear c e a) (hs : Sound m c) (hc : obeysEnable c.charge = true) : Free e where
  toRuns := h.runs hs.toBelieved hc
  noOvervoltage := h.noOvervoltage hs.noOvervoltage
  precharges := by
    rw [h.readied.precharge]
    have h1 := hs.precharged
    unfold prechargeLimit
    split
    · next hk =>
      have := hs.precharges hk.1
      omega
    · omega
  charges := by
    rw [h.readied.fast]
    have h1 := hs.charges
    unfold fastLimit
    split <;> omega

/-! ### The state after an arrival, by the state before -/

/-- Fault is left by a fault clear, by the enable installed with it, and by nothing else (R142, R148). -/
theorem Comes.fault (h : Comes m clear c e a) (hp : c.present = true) (hc : c.charge = .fault) :
    (clear = true → a.charge = (if c.params.enable then .qualify else .inhibited) ∧ a.cause = .none
        ∧ a.prechargeTimer = 0 ∧ a.fastTimer = 0 ∧ a.overvoltageCount = 0)
      ∧ (clear = false → a.charge = .fault ∧ a.cause = c.cause
        ∧ a.prechargeTimer = c.prechargeTimer ∧ a.fastTimer = c.fastTimer) := by
  have hr := h.readied
  obtain ⟨h1, h2⟩ := hr.timers_idle (by rw [hc]; rfl)
  rw [h.after, ccMoved_fault (hr.present.trans hp) (hr.charge.trans hc), hr.params]
  refine ⟨fun hk => ?_, fun hk => ?_⟩
  · rw [if_pos hk]
    exact ⟨rfl, rfl, rfl, rfl, rfl⟩
  · rw [if_neg (by simp [hk])]
    exact ⟨hr.charge.trans hc, hr.cause, h1, h2⟩

/-- An enable of 0 makes every state that charges or may charge Inhibited (R142). -/
theorem Comes.disabled (h : Comes m clear c e a) (hp : c.present = true) (he : c.params.enable = false)
    (hc : obeysEnable c.charge = true) : a.charge = .inhibited := by
  have hr := h.readied
  rw [h.after, ccMoved_disabled (hr.present.trans hp) (by rw [hr.charge]; exact hc) (by rw [hr.params]; exact he)]

/-- Inhibited goes to Qualify with an enable of 1, and stays with one of 0 and no timer at its limit (R142, log 71). -/
theorem Comes.inhibited (h : Comes m clear c e a) (hp : c.present = true) (hc : c.charge = .inhibited) :
    a.prechargeTimer = c.prechargeTimer ∧ a.fastTimer = c.fastTimer
      ∧ (c.params.enable = true → a.charge = .qualify)
      ∧ (c.params.enable = false → c.prechargeTimer < 180000 → c.fastTimer < 1800000 → a.charge = .inhibited) := by
  have hr := h.readied
  have hp' := hr.present.trans hp
  have hc' := hr.charge.trans hc
  obtain ⟨h1, h2⟩ := hr.timers_idle (by rw [hc]; rfl)
  obtain ⟨ch, ca, hm⟩ := ccMoved_inhibited (clear := clear) (m := m) hp' hc'
  refine ⟨?_, ?_, fun he => ?_, fun he hp1 hp2 => ?_⟩
  · rw [h.after, hm]
    exact h1
  · rw [h.after, hm]
    exact h2
  · rw [h.after, ccMoved_enabled hp' hc' (by rw [hr.params]; exact he)]
  · rw [h.after, ccMoved_waits (by simp [hp', hc']) (by rw [hc']; rfl) (by rw [hc']; decide)
      (fun _ => by rw [hr.params]; exact he) (by rw [hr.overvoltage, hc]; simp [judgesOvervoltage])
      (by rw [h1]; exact ne_of_lt hp1) (by rw [h2]; exact ne_of_lt hp2)]
    exact hc'

section
variable (h : Comes m clear c e a) (hs : Sound m c)
include h hs

/-- The exits of Qualify (R143). -/
theorem Comes.qualify (hc : c.charge = .qualify) :
    a.charge = (if thermalStop a then .suspended else if m.vbat < 3000 then .precharge else .fast) := by
  rw [h.reading.thermalStop, h.after, (h.free hs (by rw [hc]; rfl)).qualify (h.readied.charge.trans hc)]

/-- The exits of Precharge (R143, R144). -/
theorem Comes.precharge (hc : c.charge = .precharge) :
    a.charge = (if thermalStop a then .suspended else if 3000 ≤ m.vbat then .fast else .precharge)
      ∧ a.prechargeTimer = c.prechargeTimer + (if c.setpoint = 0 then 0 else 1) ∧ a.fastTimer = c.fastTimer := by
  rw [h.reading.thermalStop, h.after, (h.free hs (by rw [hc]; rfl)).precharge (h.readied.charge.trans hc)]
  exact ⟨rfl, h.readied.timers_precharge hc hs.precharged⟩

/-- The exits of Fast (R144, R146). -/
theorem Comes.fast (hc : c.charge = .fast) :
    a.charge = (if thermalStop a then .suspended else if effectiveTarget a ≤ m.vbat then .taper else .fast)
      ∧ (a.charge = .taper → a.taper = c.setpoint ∧ a.terminationCount = 0 ∧ a.rechargeCount = 0)
      ∧ a.prechargeTimer = c.prechargeTimer ∧ a.fastTimer = c.fastTimer + (if c.setpoint = 0 then 0 else 1) := by
  have ht := h.readied.timers_fast (.inl hc) (by have := hs.charges; omega)
  have hc' := h.readied.charge.trans hc
  rw [h.reading.thermalStop, h.reading.effectiveTarget, h.after, (h.free hs (by rw [hc]; rfl)).fast hc']
  split
  · exact ⟨rfl, fun k => (by cases k), ht⟩
  · split
    · exact ⟨rfl, fun _ => ⟨h.readied.setpoint, rfl, rfl⟩, ht⟩
    · exact ⟨hc', fun k => absurd (hc'.symm.trans k) (by decide), ht⟩

/-- The exits of Taper: the level and the termination count of the arrival, or Done (R145, R146). -/
theorem Comes.taper (hc : c.charge = .taper) {level n : Nat} (hlevel : level = Machine.taperAfter e m)
    (hn : n = Machine.terminationAfter e m level) :
    a.charge = (if thermalStop a then .suspended else if 16 ≤ n then .done else .taper)
      ∧ (a.charge = .taper → a.taper = level ∧ a.terminationCount = n)
      ∧ (a.charge = .done → a.taper = 0 ∧ a.prechargeTimer = 0 ∧ a.fastTimer = 0
        ∧ a.terminationCount = 0 ∧ a.rechargeCount = 0)
      ∧ (a.charge ≠ .done → a.prechargeTimer = c.prechargeTimer
        ∧ a.fastTimer = c.fastTimer + (if c.setpoint = 0 then 0 else 1)) := by
  have ht := h.readied.timers_fast (.inr hc) (by have := hs.charges; omega)
  have hc' := h.readied.charge.trans hc
  subst hlevel hn
  rw [h.reading.thermalStop, h.after, (h.free hs (by rw [hc]; rfl)).taper hc']
  split
  · exact ⟨rfl, fun k => (by cases k), fun k => (by cases k), fun _ => ht⟩
  · split
    · exact ⟨rfl, fun k => (by cases k), fun _ => ⟨rfl, rfl, rfl, rfl, rfl⟩, fun k => absurd rfl k⟩
    · exact ⟨hc', fun _ => ⟨rfl, rfl⟩, fun k => absurd (hc'.symm.trans k) (by decide), fun _ => ht⟩

/-- Done counts its readings (R146). -/
theorem Comes.counts (hc : c.charge = .done) (hn : c.rechargeCount < 3) :
    a.charge = .done
      ∧ a.rechargeCount = (if m.vbat < Machine.effectiveTarget a - 100 then c.rechargeCount + 1 else 0) := by
  have hc' := h.readied.charge.trans hc
  rw [h.reading.effectiveTarget, h.after, (h.free hs (by rw [hc]; rfl)).done hc']
  split
  · rw [if_neg (by rw [h.readied.rechargeCount]; omega)]
    exact ⟨hc', congrArg (· + 1) h.readied.rechargeCount⟩
  · exact ⟨hc', rfl⟩

/-- The fourth low reading in a row returns from Done (R146). -/
theorem Comes.recharges (hc : c.charge = .done) (hn : c.rechargeCount = 3)
    (hv : m.vbat < Machine.effectiveTarget a - 100) :
    a.charge = (if Machine.thermalStop a then .suspended else .fast) ∧ a.rechargeCount = 0 := by
  rw [h.reading.effectiveTarget] at hv
  rw [h.reading.thermalStop, h.after, (h.free hs (by rw [hc]; rfl)).done (h.readied.charge.trans hc), if_pos hv,
    if_pos (by rw [h.readied.rechargeCount, hn])]
  exact ⟨rfl, rfl⟩

/-- The exit of Suspended (R143). -/
theorem Comes.suspended (hc : c.charge = .suspended) :
    a.charge = (if Machine.thermalStop a then .suspended else .qualify) ∧ a.prechargeTimer = c.prechargeTimer
      ∧ a.fastTimer = c.fastTimer := by
  rw [h.reading.thermalStop, h.after, (h.free hs (by rw [hc]; rfl)).suspended (h.readied.charge.trans hc)]
  exact ⟨rfl, h.readied.timers_idle (by rw [hc]; rfl)⟩

end

/-! ### The reading -/

/-- The effective target, as the statements say it (R141). -/
theorem effectiveTarget_eq (c : Cc) :
    effectiveTarget c = (c.params.target : Int) - (if c.zone = .warm then 150 else 0) := by
  unfold effectiveTarget
  split <;> omega

/-- Between 20 and 86 the zone is Normal, but for a Cool one held below 24 (R140). -/
theorem zoneAfter_normal {z : Zone} {t : Int} (h1 : 20 ≤ t) (h2 : t ≤ 86) (hz : z = .normal ∨ 24 ≤ t) :
    zoneAfter z t = .normal := by
  have hcool : ¬((z = .cool ∨ z = .cold) ∧ t < 24) := by
    rintro ⟨hk, ht⟩
    have := hz.resolve_right (by omega)
    subst this
    simp at hk
  unfold zoneAfter
  rw [if_neg (by omega), if_neg (by omega), if_neg (by omega), if_neg (not_or.2 ⟨by omega, hcool⟩)]

/-- Beyond 110 or below 0, and held on the way back, the zone is Hot or Cold (R140). -/
theorem zoneAfter_stops {z : Zone} {t : Int}
    (h : t < 0 ∨ 110 < t ∨ (z = .hot ∧ 106 < t) ∨ (z = .cold ∧ t < 4)) : zoneAfter z t = .cold ∨ zoneAfter z t = .hot := by
  unfold zoneAfter
  by_cases hhot : t > 110 ∨ (z = .hot ∧ t > 106)
  · rw [if_pos hhot]
    exact .inr rfl
  · obtain ⟨h1, h2⟩ := not_or.1 hhot
    have hcold : t < 0 ∨ (z = .cold ∧ t < 4) := by
      rcases h with h | h | h | h
      · exact .inl h
      · exact absurd h h1
      · exact absurd h h2
      · exact .inr h
    rw [if_neg hhot, if_neg (by omega), if_pos hcold]
    exact .inl rfl

/-- In the zone Normal a reading of the thermistor holds nothing off, and the target is in force as it is (R140 to R142). -/
theorem ccAfter_normal (on : Bool) (hp : c.pending = none) (h1 : 20 ≤ m.tcell) (h2 : m.tcell ≤ 86)
    (hz : c.zone = .normal ∨ 24 ≤ m.tcell) (hq : c.qualifyCount < 3) :
    thermalStop (ccAfter m on c) = false ∧ effectiveTarget (ccAfter m on c) = c.params.target := by
  obtain ⟨e, k⟩ := ccAfter_comes_stays (m := m) on hp (.inr hq)
  obtain ⟨ht, hzone⟩ := (ccAfter_zone m on c).2 (by omega) (by omega)
  rw [zoneAfter_normal h1 h2 hz] at hzone
  unfold thermalStop effectiveTarget
  rw [ht, hzone, k.params]
  exact ⟨rfl, rfl⟩

/-- A reading that is Hot or Cold, or of a thermistor open or shorted, holds charging off, and lowers the target only where the
zone stays Warm (R140 to R142). -/
theorem ccAfter_stops (on : Bool) (hp : c.pending = none) (hq : c.qualifyCount < 3)
    (h : m.tcell < 0 ∨ 110 < m.tcell ∨ (c.zone = .hot ∧ 106 < m.tcell) ∨ (c.zone = .cold ∧ m.tcell < 4)) :
    thermalStop (ccAfter m on c) = true
      ∧ effectiveTarget (ccAfter m on c)
        = (c.params.target : Int) - (if c.zone = .warm ∧ (m.tcell < -80 ∨ 200 < m.tcell) then 150 else 0) := by
  obtain ⟨e, k⟩ := ccAfter_comes_stays (m := m) on hp (.inr hq)
  obtain ⟨hout, hin⟩ := ccAfter_zone m on c
  rw [effectiveTarget_eq, k.params]
  unfold thermalStop
  by_cases hx : m.tcell < -80 ∨ 200 < m.tcell
  · obtain ⟨ht, hz⟩ := hout hx
    rw [ht, hz]
    exact ⟨rfl, by simp [hx]⟩
  · obtain ⟨-, hz⟩ := hin (by omega) (by omega)
    have hs := zoneAfter_stops h
    rw [← hz] at hs
    rw [if_neg (c := c.zone = .warm ∧ _) fun hk => hx hk.2]
    rcases hs with hs | hs <;> rw [hs] <;> exact ⟨by simp, rfl⟩

/-- The budget with the flash rail off is at least the one with it on (R139). -/
theorem budget_with_flash_le (on : Bool) (pin camera flash vbat : Nat) :
    (pin - (camera + flash)) * 1000 / vbat ≤ (pin - (camera + if on then flash else 0)) * 1000 / vbat := by
  refine Nat.div_le_div_right (Nat.mul_le_mul_right _ (Nat.sub_le_sub_left ?_ _))
  split <;> omega

/-! ### TERMINATION and RECHARGE (R146) -/

/-- The sixteenth reading in a row at or below the termination current, with the limits held, ends the charge (R146). -/
theorem ccAfter_terminates (on : Bool) (hs : Sound m c) (hc : c.charge = .taper) (hn : c.terminationCount = 15)
    (hv : m.vbat = c.params.target) (h1 : 20 ≤ m.tcell) (h2 : m.tcell ≤ 86) (hz : c.zone = .normal ∨ 24 ≤ m.tcell)
    (hi : m.ibat ≤ c.params.termination) (hf1 : c.params.floor ≤ m.vin) (hf2 : m.vin < c.params.floor + 100)
    (hx : m.vin ≤ 6500)
    (hb : c.taper ≤ (m.vin.toNat * c.inputLimit / 1000 * 9 / 10 - (c.params.cameraLoad + c.params.flashLoad)) * 1000
      / max c.params.target 2500) :
    (ccAfter m on c).charge = .done ∧ (ccAfter m on c).taper = 0 ∧ (ccAfter m on c).prechargeTimer = 0
      ∧ (ccAfter m on c).fastTimer = 0 ∧ (ccAfter m on c).terminationCount = 0 ∧ (ccAfter m on c).rechargeCount = 0
      ∧ (ccAfter m on c).setpoint = 0 := by
  obtain ⟨e, k⟩ := hs.toBelieved.comes m on
  obtain ⟨hstop, htarget⟩ := ccAfter_normal (m := m) on hs.noValues h1 h2 hz hs.short
  obtain ⟨-, hlimit, hbudget⟩ := ccAfter_present (m := m) on hs.noValues hs.present (.inr hs.short)
  rw [if_neg (by omega), if_neg (by omega)] at hlimit
  rw [if_neg (by omega), hlimit, hv, Int.toNat_natCast] at hbudget
  have hlevel : taperAfter e m = c.taper := by
    rw [k.taperAfter, htarget, hv, if_neg (by omega), if_neg (by omega)]
  have hcount : terminationAfter e m c.taper = 16 := by
    rw [k.terminationAfter, if_neg (by omega), hbudget, if_pos (hb.trans (budget_with_flash_le on _ _ _ _)), hn]
  obtain ⟨hcharge, -, hdone, -⟩ := k.taper hs hc hlevel.symm hcount.symm
  rw [hstop, if_neg Bool.false_ne_true, if_pos le_rfl] at hcharge
  obtain ⟨d1, d2, d3, d4, d5⟩ := hdone hcharge
  refine ⟨hcharge, d1, d2, d3, d4, d5, ?_⟩
  rw [ccAfter_setpoint]
  exact setpointOf_idle (by rw [hcharge]; rfl)

/-- In the zone Normal the fourth reading in a row more than 100 mV below the target returns to Fast (R146). -/
theorem ccAfter_recharges (on : Bool) (hs : Sound m c) (hc : c.charge = .done) (hn : c.rechargeCount = 3)
    (h1 : 20 ≤ m.tcell) (h2 : m.tcell ≤ 86) (hz : c.zone = .normal ∨ 24 ≤ m.tcell)
    (hv : m.vbat < (c.params.target : Int) - 100) :
    (ccAfter m on c).charge = .fast ∧ (ccAfter m on c).rechargeCount = 0 := by
  obtain ⟨e, k⟩ := hs.toBelieved.comes m on
  obtain ⟨hstop, htarget⟩ := ccAfter_normal (m := m) on hs.noValues h1 h2 hz hs.short
  have hr := k.recharges hs hc hn (by rw [htarget]; exact hv)
  rw [hstop] at hr
  exact hr

/-- Where temperature holds charging off it returns to Suspended (R142, R143, R146). -/
theorem ccAfter_rechargesHeld (on : Bool) (hs : Sound m c) (hc : c.charge = .done) (hn : c.rechargeCount = 3)
    (hz : m.tcell < 0 ∨ 110 < m.tcell ∨ (c.zone = .hot ∧ 106 < m.tcell) ∨ (c.zone = .cold ∧ m.tcell < 4))
    (hv : m.vbat < (c.params.target : Int) - (if c.zone = .warm ∧ (m.tcell < -80 ∨ 200 < m.tcell) then 150 else 0) - 100) :
    (ccAfter m on c).charge = .suspended ∧ (ccAfter m on c).rechargeCount = 0 ∧ (ccAfter m on c).setpoint = 0 := by
  obtain ⟨e, k⟩ := hs.toBelieved.comes m on
  obtain ⟨hstop, htarget⟩ := ccAfter_stops on hs.noValues hs.short hz
  obtain ⟨hcharge, hcount⟩ := k.recharges hs hc hn (by rw [htarget]; exact hv)
  rw [hstop, if_pos rfl] at hcharge
  refine ⟨hcharge, hcount, ?_⟩
  rw [ccAfter_setpoint]
  exact setpointOf_idle (by rw [hcharge]; rfl)

/-- An earlier low reading in Done is no recharge, whatever else the arrival finds (R146, R148). -/
theorem ccAfter_unrecharged (on : Bool) (hb : Believed c) (hc : c.charge = .done) (hn : c.rechargeCount < 3) :
    (ccAfter m on c).charge = .done ∨ (ccAfter m on c).charge = .fault := by
  obtain ⟨e, k⟩ := hb.comes m on
  have hc' := k.readied.charge.trans hc
  rw [k.after, ccMoved_runs (k.runs hb (by rw [hc]; rfl))]
  split
  · exact .inr rfl
  split
  · exact .inr rfl
  split
  · exact .inr rfl
  rw [if_neg (by simp [hc', isCharging])]
  unfold ccLeft
  rw [hc']
  dsimp only
  rw [if_neg (c := 4 ≤ _) (by rw [k.readied.rechargeCount]; omega)]
  refine .inl ?_
  split <;> rfl

/-- A temperature within the converter's range is delivered as it is (R133). -/
theorem delivered_tcell (h1 : -128 ≤ m.tcell) (h2 : m.tcell ≤ 255) : (delivered m).tcell = m.tcell := by
  unfold delivered clampInt
  dsimp only
  omega

/-- Against a bound within the range the temperature delivered compares as the reading does (R133). -/
theorem delivered_tcell_lt {b : Int} (h1 : -128 < b) (h2 : b ≤ 255) : (delivered m).tcell < b ↔ m.tcell < b := by
  unfold delivered clampInt
  dsimp only
  omega

theorem lt_delivered_tcell {b : Int} (h1 : -128 ≤ b) (h2 : b < 255) : b < (delivered m).tcell ↔ b < m.tcell := by
  unfold delivered clampInt
  dsimp only
  omega

/-- A charge current at or below a bound that is not negative is delivered so (R133). -/
theorem delivered_ibat_le {b : Nat} (h : m.ibat ≤ b) : (delivered m).ibat ≤ b := by
  unfold delivered clampInt
  dsimp only
  omega

/-- A battery voltage below a positive bound is delivered below it (R133). -/
theorem delivered_vbat_lt {b : Int} (h : m.vbat < b) (hb : 0 < b) : (delivered m).vbat < b := by
  unfold delivered clampInt
  dsimp only
  omega

/-- TERMINATION is the tick that ends a charge (R146, log 5). -/
theorem cameTermination_done {t : State} (hs : s.cc.charge = .taper) (ht : t.cc.charge = .done) :
    cameTermination s t = true := by
  unfold cameTermination
  rw [hs, ht]
  rfl

/-- RECHARGE is the tick that returns from Done (R146, log 5). -/
theorem cameRecharge_left {t : State} (hs : s.cc.charge = .done) :
    cameRecharge s t = true ↔ t.cc.charge = .fast ∨ t.cc.charge = .suspended := by
  unfold cameRecharge
  rw [hs]
  simp

/-! ### The obligation -/

/-- Settles O51: the state after any charge tick by the state before, and the two events that end a charge and return to it. -/
theorem chargeEndsAndReturns : Obligations.ChargeEndsAndReturns := by
  refine ⟨fun m o s hl => ?_, fun m o s hl hp ha hq he htarget hpre hfast => ⟨fun hc hn hv h1 h2 hz hi hf1 hf2 hx hb => ?_,
    fun hc hn h1 h2 hz hv hlow => ?_, fun hc hn hlow hv hz => ?_, fun hc hn => ?_⟩⟩
  · obtain ⟨on, u, htick, hu, -, -, htells, -⟩ := chargeTick_ends m o hl
    refine ⟨u, htick, fun hold v i target fast hhold hv hi htarget hfast => ?_⟩
    have hhold : hold = thermalStop u.cc := hhold
    have hv : v = (delivered m).vbat := hv
    have hi : i = (delivered m).ibat := hi
    have htarget : target = effectiveTarget u.cc := htarget.trans (effectiveTarget_eq _).symm
    have hfast : fast = zoneFast u.cc := hfast
    subst hhold hv hi htarget hfast
    refine ⟨?_, fun hn hr => htells hr hn, fun ha hq => ⟨fun p hp hc => ?_, fun hp => ?_⟩⟩
    · rw [hu]
      exact ccAfter_setpoint _ _ _
    · obtain ⟨e, k⟩ := ccAfter_comes_installs (m := delivered m) on hp (.inr hq)
      rw [← hu] at k
      exact ⟨k.params, k.fault ha hc⟩
    · obtain ⟨e, k⟩ := ccAfter_comes_stays (m := delivered m) on hp (.inr hq)
      rw [← hu] at k
      refine ⟨k.params, fun hc => ?_, fun hen hc => ?_, k.inhibited ha, fun hen hover hpre hfast => ?_⟩
      · obtain ⟨f1, f2, -, -⟩ := (k.fault ha hc).2 rfl
        exact ⟨f1, f2⟩
      · refine k.disabled ha hen ?_
        rcases hc with hc | hc | hc | hc | hc | hc <;> rw [hc] <;> rfl
      · have hs : Sound (delivered m) s.cc := ⟨⟨hp, ha, hq, hen⟩, hover, by omega, fun _ => hpre, hfast⟩
        refine ⟨k.qualify hs, k.precharge hs, k.fast hs, fun hc level n hlevel hn => ?_, k.counts hs, k.suspended hs⟩
        exact k.taper hs hc (hlevel.trans k.taperAfter.symm) (hn.trans (k.terminationAfter level).symm)
  · obtain ⟨hvin, hvbat⟩ : (delivered m).vin = m.vin ∧ (delivered m).vbat = m.vbat :=
      delivered_inRange (by omega) (by omega) (by omega) (by omega)
    have hs : Sound (delivered m) s.cc :=
      .of_state ⟨hp, ha, hq, he⟩ (by rw [hc]; decide) (delivered_vbat_le (by omega)) hpre hfast
    have ht : (delivered m).tcell = m.tcell := delivered_tcell (by omega) (by omega)
    rw [← ht] at h1 h2 hz
    rw [← hvin] at hf1 hf2 hx hb
    exact chargeTick_row (fun c => c.charge = .done ∧ c.taper = 0 ∧ c.prechargeTimer = 0 ∧ c.fastTimer = 0
        ∧ c.terminationCount = 0 ∧ c.rechargeCount = 0 ∧ c.setpoint = 0) hl
      (fun on => ccAfter_terminates on hs hc hn (hvbat.trans hv) h1 h2 hz (delivered_ibat_le hi) hf1 hf2 hx hb)
      fun t ht => cameTermination_done hc ht.1
  · have hs : Sound (delivered m) s.cc :=
      .of_state ⟨hp, ha, hq, he⟩ (by rw [hc]; decide) (delivered_vbat_le (by omega)) hpre hfast
    have ht : (delivered m).tcell = m.tcell := delivered_tcell (by omega) (by omega)
    rw [← ht] at h1 h2 hz
    exact chargeTick_row (fun c => c.charge = .fast ∧ c.rechargeCount = 0) hl
      (fun on => ccAfter_recharges on hs hc hn h1 h2 hz (delivered_vbat_lt hv (by omega)))
      fun t ht => (cameRecharge_left hc).2 (.inl ht.1)
  · have hs : Sound (delivered m) s.cc :=
      .of_state ⟨hp, ha, hq, he⟩ (by rw [hc]; decide) (delivered_vbat_le (by split at hv <;> omega)) hpre hfast
    refine chargeTick_row (fun c => c.charge = .suspended ∧ c.rechargeCount = 0 ∧ c.setpoint = 0) hl
      (fun on => ccAfter_rechargesHeld on hs hc hn ?_ ?_) fun t ht => (cameRecharge_left hc).2 (.inr ht.1)
    · simpa (disch := decide) only [delivered_tcell_lt, lt_delivered_tcell] using hz
    · simp (disch := decide) only [delivered_tcell_lt, lt_delivered_tcell]
      refine delivered_vbat_lt hv ?_
      split <;> omega
  · refine chargeTick_hides (came := cameRecharge) hl fun on t ht => ?_
    rw [← Bool.not_eq_true, cameRecharge_left hc, ht]
    rcases ccAfter_unrecharged (m := delivered m) on ⟨hp, ha, hq, he⟩ hc hn with hk | hk <;> simp [hk]

end Sys2Proof.Machine
end

section
/-! The gauge count (R154): the clamp at integration, and its range through every command. The commands that are no
regular change are the resets and the writes that can clear a cause (`clears`): of these a power-on reset empties the
count, and the others leave the Gauge alone, with a regular change before or after. -/

namespace Sys2Proof.Machine

variable {s t : State}

/-! ### The clamp at integration -/

/-- The sum of the count and a reading, held to 0..Qcap (R154). -/
theorem chargeAfter_clamps (cap q : Nat) (ibat : Int) :
    (chargeAfter cap q ibat : Int)
      = if (q : Int) + ibat < 0 then 0
        else if (cap : Int) < (q : Int) + ibat then (cap : Int) else (q : Int) + ibat := by
  unfold chargeAfter clampInt
  split
  · omega
  · split <;> omega

/-- Within 0..Qcap the clamp only shortens the way: the count moves by no more than the reading (R154). -/
theorem chargeAfter_moves {cap q : Nat} {ibat : Int} (hq : q ≤ cap) :
    ((chargeAfter cap q ibat : Int) - q).natAbs ≤ ibat.natAbs := by
  unfold chargeAfter clampInt
  omega

/-- Once estimated, the count integrates the reading (R153, R154). -/
theorem gaCount_integrates (m : Measurement) (he : s.ga.estimated = true) :
    (gaCount m s).ga.q = chargeAfter (gaQcap s.ga.params) s.ga.q m.ibat := by
  rw [gaCount_ga]
  unfold gaCounted
  rw [if_pos he]

/-! ### The range through what is no regular change -/

/-- The range speaks of the Gauge alone. -/
theorem GaugeInRange.congr (h : GaugeInRange s) (hg : t.ga = s.ga) : GaugeInRange t := by
  unfold GaugeInRange
  rw [hg]
  exact h

/-- The range does not speak of the queue. -/
theorem GaugeInRange.queue (h : GaugeInRange s) (q : List Instr) : GaugeInRange { s with pending := q } := h

/-- In Off the count is empty (R162). -/
theorem enterOff_gauge (s : State) : GaugeInRange (enterOff s) := Nat.zero_le _

/-- A power-on reset empties the count (R179). -/
theorem powerOn_gauge (s : State) : GaugeInRange (powerOn s) := Nat.zero_le _

theorem finish_gauge (h : GaugeInRange s) : GaugeInRange (finish s) := by
  have hr := smIntake_regular (cwRun_regular (smGoOn_regular (Regular.refl s)))
  unfold finish
  split
  · exact h
  · dsimp only
    split
    · exact hr.gauge h
    · exact enterOff_gauge _

theorem live_gauge {f : State → State} (h : GaugeInRange s) (hf : GaugeInRange (f s)) : GaugeInRange (live f s) := by
  unfold live
  split
  · exact h
  · exact finish_gauge hf

theorem powered_gauge {f : State → State} (h : GaugeInRange s) (hf : GaugeInRange (f s)) :
    GaugeInRange (powered f s) := by
  unfold powered
  split
  · exact h
  · exact hf

theorem addressed_gauge {inside acts : Bool} {f : State → State} (h : GaugeInRange s) (hf : GaugeInRange (f s))
    (ht : addressed inside acts f s = .next t) : GaugeInRange t := by
  unfold addressed at ht
  split at ht
  · cases ht
    split
    · exact live_gauge h hf
    · exact powered_gauge h hf
  · cases ht

theorem wakeReading_gauge (h : GaugeInRange s) (vin : Int) : GaugeInRange (wakeReading vin s) := by
  unfold wakeReading
  split
  · split
    · exact powerOn_gauge s
    · exact h.congr rfl
  · exact h

/-- The Gauge is always on: a reset of the blocks leaves it as it is (R184). -/
theorem resetBlocks_ga (b : Bool) (s : State) : (resetBlocks b s).ga = s.ga := by
  rw [resetBlocks_eq]

theorem endReset_gauge (h : GaugeInRange s) : GaugeInRange (endReset s) := by
  rw [endReset_of rfl]
  have hb : GaugeInRange { resetBlocks s.part.byResetn s with part.byResetn := false } := h.congr (resetBlocks_ga _ s)
  have hc := (gaCheck_regular (Regular.refl _)).gauge hb
  split
  · exact hc.congr (raise_ga _ _)
  · exact hc.congr rfl

theorem bodyResetTransitionEnd_gauge (h : GaugeInRange s) (u : Stamp) :
    GaugeInRange (bodyResetTransitionEnd u s) := by
  have ha : GaugeInRange (s.advance u.toNat) := h.congr (advance_ga s _)
  unfold bodyResetTransitionEnd
  dsimp only
  split
  · split
    · exact endReset_gauge (ha.congr rfl)
    · exact ha
  · exact ha.congr rfl

/-- A falling edge of RESETn clears registers, and begins a reset transition where none is under way (R184). -/
theorem bodyResetn_gauge (h : GaugeInRange s) (u : Stamp) (heldLow : Bool) :
    GaugeInRange (bodyResetn u heldLow s) := by
  unfold bodyResetn
  dsimp only
  split
  · exact h.congr rfl
  · exact h.congr rfl
  · split
    · exact h.congr rfl
    · exact (beginReset_regular (Regular.refl _)).gauge (h.congr rfl)

theorem registerWrite_gauge (h : GaugeInRange s) (i : Nat) (v : Word) (course : ReadCourse) :
    GaugeInRange (registerWrite i v course s) := by
  unfold registerWrite
  split
  · exact (controlWrite_regular (Regular.refl s) v course).gauge h
  · exact (directoryWrite_regular (Regular.refl s) v).gauge h
  · exact h.congr rfl
  · exact (eventMaskWrite_regular (Regular.refl s) v).gauge h
  · exact h

theorem portWrite_gauge (h : GaugeInRange s) (registers : Bool) (word : Nat) (v : Word) (course : ReadCourse) :
    GaugeInRange (portWrite registers word v course s) := by
  unfold portWrite
  split
  · exact registerWrite_gauge h word v course
  · split
    · exact h.congr (store_ga s _ _)
    · exact h

theorem portAccess_gauge (h : GaugeInRange s) (u : Stamp) (stateRead : Bool) :
    GaugeInRange (portAccess u stateRead s) :=
  (portAccess_regular (Regular.refl s) u stateRead).gauge h

theorem bodyHalfWriteLow_gauge (h : GaugeInRange s) (u : Stamp) (registers : Bool) (word : Nat) (value : Half)
    (course : ReadCourse) : GaugeInRange (bodyHalfWriteLow u registers word value course s) :=
  portWrite_gauge (portAccess_gauge h u false) registers word _ course

theorem bodyRegisterHalf_gauge (h : GaugeInRange s) (u : Stamp) (i : Nat) (value : Half) :
    GaugeInRange (bodyRegisterHalf u i value s) := by
  unfold bodyRegisterHalf
  split
  · exact bodyHalfWriteLow_gauge h u true (i / 2) value .first
  · exact (bodyHalfWriteHigh_regular (Regular.refl s) u value).gauge h

/-! ### The range through every command -/

/-- The commands that can clear a cause keep the range. -/
theorem exec_gauge_of_clears {c : Instr} (hc : clears c = true) (h : GaugeInRange s) (ht : exec c s = .next t) :
    GaugeInRange t := by
  cases c with
  | powerOnReset =>
    cases ht
    exact powerOn_gauge s
  | wake v =>
    cases ht
    split
    · exact powerOn_gauge s
    · exact h
  | resetn u l =>
    cases ht
    exact live_gauge h (bodyResetn_gauge h u l)
  | resetTransitionEnd u =>
    cases ht
    exact live_gauge h (bodyResetTransitionEnd_gauge h u)
  | eventsClear u v =>
    cases ht
    exact powered_gauge h (registerWrite_gauge (portAccess_gauge h u false) 3 v .first)
  | registerWrite u a v => exact addressed_gauge h (bodyRegisterHalf_gauge h u a v) ht
  | halfWriteLow u r w v k => exact addressed_gauge h (bodyHalfWriteLow_gauge h u r w v k) ht
  | wakeDetectorReading v =>
    cases ht
    exact wakeReading_gauge h v
  | _ => cases hc

/-- So does a regular change, with what waits going on after it. -/
theorem Course.gauge (hc : Course s t) (h : GaugeInRange s) : GaugeInRange t := by
  obtain ⟨u, hu, rfl | rfl⟩ := hc
  · exact hu.gauge h
  · exact finish_gauge (hu.gauge h)

theorem exec_gauge {c : Instr} (h : GaugeInRange s) (ht : exec c s = .next t) : GaugeInRange t := by
  cases hc : clears c with
  | true => exact exec_gauge_of_clears hc h ht
  | false => exact (exec_courses hc t ht).gauge h

/-- Settles O58: the clamp, with the reading's own bound on the way, and the range through an idle step and through each
command. -/
theorem gaugeCountLaw : Obligations.GaugeCountLaw := by
  refine ⟨fun m s he => ?_, fun s t h ht => ?_⟩
  · rw [gaCount_integrates m he]
    refine ⟨chargeAfter_clamps _ _ _, fun hq hlo hhi => ?_⟩
    have hm := chargeAfter_moves (ibat := m.ibat) hq
    exact hm.trans (by omega)
  · unfold step at ht
    split at ht
    · cases ht
      exact h
    · exact exec_gauge (h.queue _) ht

end Sys2Proof.Machine
end

section
/-! The part in Off (R163): the wake detector counts readings of the input voltage, and nothing else runs. -/

namespace Sys2Proof.Machine

variable {s t : State} {vin : Int}

/-! ### The wake detector -/

theorem wakeCountAfter_outside (n : Nat) (h : ¬(4200 ≤ vin ∧ vin ≤ 6500)) : wakeCountAfter n vin = 0 := by
  unfold wakeCountAfter
  rw [(vinInRange_false vin).2 (by omega)]
  rfl

theorem wakeCountAfter_inside (n : Nat) (hlo : 4200 ≤ vin) (hhi : vin ≤ 6500) : wakeCountAfter n vin = n + 1 := by
  have hv : vinInRange vin = true := by
    rw [← Bool.not_eq_false, vinInRange_false]
    omega
  unfold wakeCountAfter
  rw [hv]
  rfl

/-- Outside Off the detector does not run (R163). -/
theorem wakeDetector_outside (h : s.part.state ≠ .off) :
    exec (.wakeDetectorReading vin) s = .next s ∧ exec (.wake vin) s = .next s :=
  ⟨congrArg _ (if_neg h), congrArg _ (if_neg fun k => h k.1)⟩

/-- Below four the detector takes the count, and it is no wake (R163, log 5). -/
theorem wakeDetector_counts (h : s.part.state = .off) {n : Nat} (hn : wakeCountAfter s.part.wakeCount vin = n)
    (hlow : n < 4) :
    exec (.wakeDetectorReading vin) s = .next { s with part.wakeCount := n } ∧ exec (.wake vin) s = .next s := by
  subst hn
  exact ⟨congrArg _ ((if_pos h).trans (if_neg (by omega))), congrArg _ (if_neg (by omega))⟩

/-- At four it makes a power-on reset (R163). -/
theorem wakeDetector_wakes (h : s.part.state = .off) (hn : 4 ≤ wakeCountAfter s.part.wakeCount vin) :
    exec (.wakeDetectorReading vin) s = .next (powerOn s) ∧ exec (.wake vin) s = .next (powerOn s) :=
  ⟨congrArg _ ((if_pos h).trans (if_pos hn)), congrArg _ (if_pos ⟨h, hn⟩)⟩

/-- Settles O3: outside Off, and in Off by the count that the reading leads to. -/
theorem wakeDetector : Obligations.WakeDetector := by
  refine fun vin s => ⟨wakeDetector_outside, fun h hout => ?_, fun h hlo hhi hn => ?_, fun h hlo hhi hn => ?_⟩
  · exact wakeDetector_counts h (wakeCountAfter_outside _ hout) (by decide)
  · exact wakeDetector_counts h (wakeCountAfter_inside _ hlo hhi) hn
  · rw [← wakeCountAfter_inside (vin := vin) _ hlo hhi] at hn
    obtain ⟨hreading, hwake⟩ := wakeDetector_wakes h hn
    exact ⟨powerOn s, hreading, hwake, rfl⟩

/-! ### Every other command -/

/-- Every next state of this answer is the state itself. -/
def Stays (s : State) (a : Answer) : Prop := ∀ t, a = .next t → t = s

theorem Stays.of_eq (h : t = s) : Stays s (.next t) := by
  rintro u ⟨⟩
  exact h

theorem live_stays (f : State → State) (h : s.part.state = .off) : Stays s (.next (live f s)) := .of_eq (if_pos h)

theorem powered_stays (f : State → State) (h : s.part.state = .off) : Stays s (.next (powered f s)) :=
  .of_eq (if_pos h)

theorem derived_stays (body : State → State) (came : State → State → Bool) (h : s.part.state = .off) :
    Stays s (.next (derived body came s)) :=
  .of_eq (if_pos h)

theorem addressed_stays (inside acts : Bool) (f : State → State) (h : s.part.state = .off) :
    Stays s (addressed inside acts f s) := by
  unfold addressed
  split
  · split
    · exact live_stays f h
    · exact powered_stays f h
  · rintro t ⟨⟩

/-- The commands that Off does not ignore: the power-on reset and the readings of the wake detector (R163). -/
def runsInOff : Instr → Bool
  | .powerOnReset => true
  | .wake _ => true
  | .wakeDetectorReading _ => true
  | _ => false

theorem exec_stays_in_off {c : Instr} (hc : runsInOff c = false) (h : s.part.state = .off) : Stays s (exec c s) := by
  cases c with
  | powerOnReset | wake | wakeDetectorReading => cases hc
  | selfTestEnd | clockLoss | resetn | resetTransitionEnd | mountWorkEnd | writerClosed | standbyEntry =>
    exact live_stays _ h
  | chargeTick | sampleTick | frameStart | silenceExpiry | frameStartLineChange => exact live_stays _ h
  | identityReadDone | rateWriteDone | sampleBurstDone | imuResponseTimeout => exact live_stays _ h
  | settleEnd | resetDone | readIdDone | readPageDone | readMarkerDone | programPageDone | eraseBlockDone
  | operationTimeout => exact live_stays _ h
  | media | start | stopRequest | split | protect | unprotect | fetch | format => exact live_stays _ h
  | run | controlStop | standby | reset | attention | reload | heldReload => exact live_stays _ h
  | attemptsExhausted | goodRunComplete | missingRunComplete | stillRunComplete | impactDeclared =>
    exact derived_stays _ _ h
  | idleTimeout | commitDeadline | inputQualification | safetyTimerExpiry | batteryOvervoltage | termination | recharge
  | cutoff | graceTimerExpiry => exact derived_stays _ _ h
  | directoryWrite | eventsClear | eventMaskWrite => exact powered_stays _ h
  | registerWrite | halfReadLow | halfReadHigh | halfWriteHigh | halfWriteLow => exact addressed_stays _ _ _ h

/-- Settles O4: the three commands named, and every other one by what its answer does in Off. -/
theorem offIgnoresTheRest : Obligations.OffIgnoresTheRest := by
  intro c s t h ht
  cases hc : runsInOff c with
  | false => exact .inr (.inr (.inr (exec_stays_in_off hc h t ht)))
  | true =>
    cases c with
    | powerOnReset => exact .inl rfl
    | wake v => exact .inr (.inl ⟨v, rfl⟩)
    | wakeDetectorReading v => exact .inr (.inr (.inl ⟨v, rfl⟩))
    | _ => cases hc

end Sys2Proof.Machine
end

section
/-! The Host Port's accesses (R166 to R168): what the start of an access does, and which accesses do not exist. The self-test
(R179). -/

namespace Sys2Proof.Machine

variable {s t : State}

/-! ### What follows a command -/

/-- In a powered part a live command is followed by what goes on. -/
theorem live_powered {f : State → State} (hp : s.part.state ≠ .off) : live f s = finish (f s) := if_neg hp

/-- The end of a command leaves EVENT_MASK, or clears it with the part's power (R162, R176). -/
theorem finish_mask (s : State) : (finish s).hp.mask = s.hp.mask ∨ (finish s).hp.mask = 0 := by
  have hwork : Recording s (smIntake (cwRun (smGoOn s))) :=
    smIntake_recording (cwRun_recording (smGoOn_recording (Recording.refl s)))
  unfold finish
  split
  · exact .inl rfl
  · dsimp only
    split
    · have hmask := congrArg Hp.mask hwork.hp
      exact .inl hmask
    · exact .inr rfl

/-! ### The start of an access (R168) -/

/-- The wake from Standby changes the part state and the flash rail alone (R84, R183). -/
theorem wakeStandby_eq (s : State) : ∃ f, wakeStandby s = { s with part.state := .idle, fe := f } := by
  unfold wakeStandby
  dsimp only
  split
  · exact ⟨_, rfl⟩
  · exact ⟨_, rfl⟩

/-- The start of an access, by whether it wakes the part (R168). -/
theorem portAccess_eq (u : Stamp) (b : Bool) (s : State) :
    portAccess u b s
      = if s.part.state = .standby ∧ b = false then wakeStandby (s.advance u.toNat) else s.advance u.toNat := by
  unfold portAccess
  cases b <;> simp

/-- Every access but a read of STATE wakes the part (R168). -/
theorem portAccess_wakes (u : Stamp) (s : State) :
    portAccess u false s = if s.part.state = .standby then wakeStandby (s.advance u.toNat) else s.advance u.toNat := by
  simp [portAccess_eq]

/-- Outside Standby an access moves the clock (R168). -/
theorem portAccess_awake {u : Stamp} {b : Bool} (hp : s.part.state ≠ .standby) : portAccess u b s = s.advance u.toNat :=
  if_neg fun c => hp c.1

/-- All that the start of an access can do. -/
theorem portAccess_form (u : Stamp) (b : Bool) (s : State) :
    ∃ p f, portAccess u b s = { s.advance u.toNat with part.state := p, fe := f } := by
  rw [portAccess_eq]
  split
  · obtain ⟨f, hf⟩ := wakeStandby_eq (s.advance u.toNat)
    exact ⟨_, f, hf⟩
  · exact ⟨s.part.state, s.fe, rfl⟩

@[simp] theorem portAccess_hp (u : Stamp) (b : Bool) (s : State) : (portAccess u b s).hp = s.hp := by
  obtain ⟨p, f, h⟩ := portAccess_form u b s
  rw [h]
  rfl

@[simp] theorem portAccess_mem (u : Stamp) (b : Bool) (s : State) : (portAccess u b s).mem = s.mem := by
  obtain ⟨p, f, h⟩ := portAccess_form u b s
  rw [h]
  rfl

@[simp] theorem portAccess_ga (u : Stamp) (b : Bool) (s : State) : (portAccess u b s).ga = s.ga := by
  obtain ⟨p, f, h⟩ := portAccess_form u b s
  rw [h]
  rfl

@[simp] theorem portAccess_resetnLow (u : Stamp) (b : Bool) (s : State) :
    (portAccess u b s).part.resetnLow = s.part.resetnLow := by
  obtain ⟨p, f, h⟩ := portAccess_form u b s
  rw [h]
  rfl

/-! ### Addresses (R166, log 34) -/

/-- An access that HA0..HA22 cannot address (R166). -/
theorem addressed_outside (acts : Bool) (f : State → State) (s : State) : addressed false acts f s = .fault .noSuchAddress :=
  rfl

/-- An access that they can address has a next state (R166). -/
theorem addressed_inside {inside : Bool} (acts : Bool) (f : State → State) (s : State) (h : inside = true) :
    ∃ t, addressed inside acts f s = .next t :=
  ⟨_, if_pos h⟩

/-- An access other than a write of CONTROL has its own effect alone (R166). -/
theorem addressed_quiet {inside acts : Bool} {f : State → State} (hi : inside = true) (ha : acts = false)
    (hp : s.part.state ≠ .off) : addressed inside acts f s = .next (f s) := by
  subst hi ha
  exact congrArg _ (powered_on hp)

/-- A write of CONTROL sets the part going (R166). -/
theorem addressed_acting {inside acts : Bool} {f : State → State} (hi : inside = true) (ha : acts = true)
    (hp : s.part.state ≠ .off) : addressed inside acts f s = .next (finish (f s)) := by
  subst hi ha
  exact congrArg _ (live_powered hp)

theorem wordExists_iff (word : Nat) : wordExists word = true ↔ word < 4194304 := decide_eq_true_iff

theorem halfExists_iff (half : Nat) : halfExists half = true ↔ half < 8388608 := decide_eq_true_iff

/-- Settles O11: the words out of reach, and every other command by the form of its answer. -/
theorem onlyAddressesFault : Obligations.OnlyAddressesFault := by
  refine ⟨fun u registers word v course s h => ?_, fun u half v s h => ?_, fun c s h => ?_⟩
  · have hw : wordExists word = false := by
      rw [← Bool.not_eq_true, wordExists_iff]
      omega
    simp only [exec, execHalfReadLow, execHalfReadHigh, execHalfWriteHigh, execHalfWriteLow, hw, addressed_outside,
      and_self]
  · have hh : halfExists half = false := by
      rw [← Bool.not_eq_true, halfExists_iff]
      omega
    simp only [exec, execRegisterWrite, hh, addressed_outside]
  · cases c with
    | registerWrite | halfReadLow | halfReadHigh | halfWriteHigh | halfWriteLow => exact addressed_inside _ _ s h
    | _ => exact ⟨_, rfl⟩

/-! ### The self-test (R171, R179) -/

/-- What the result of a test makes of a part in Starting (R179, R180). -/
def selfTested (r : SelfTest) (s : State) : State :=
  match r with
  | .bufferPassed => { s with part.memoryReady := true }
  | .passed => { s with part.state := .idle, part.memoryReady := true }
  | .bufferFailed => enterHalted .bufferMemory s
  | .internalFailed => enterHalted .internalMemory { s with part.memoryReady := true }

theorem bodySelfTestEnd_starting (u : Stamp) (r : SelfTest) (hp : s.part.state = .starting) :
    bodySelfTestEnd u r s = selfTested r (s.advance u.toNat) :=
  if_pos hp

theorem Calm.halted (h : Calm s) (c : HaltedCause) : Calm (enterHalted c s) := by
  unfold enterHalted
  refine h.congr ?_ (raise_ga _ _) (raise_cw _ _) (congrArg Mu.marks (raise_mu _ _)) (raise_sm _ _)
  rw [raise_part]
  exact nofun

/-- Nothing goes on after a test of Starting. -/
theorem Calm.selfTested (h : Calm s) (r : SelfTest) : Calm (selfTested r s) := by
  cases r with
  | bufferPassed => exact h.congr h.powered rfl rfl rfl rfl
  | passed => exact h.congr nofun rfl rfl rfl rfl
  | bufferFailed => exact h.halted _
  | internalFailed => exact Calm.halted (s := { s with part.memoryReady := true }) (h.congr h.powered rfl rfl rfl rfl) _

/-- SELF_TEST_END in Starting (R179). -/
theorem exec_selfTestEnd_starting (u : Stamp) (r : SelfTest) (h : Calm s) (hp : s.part.state = .starting) :
    exec (.selfTestEnd u r) s = .next (selfTested r (s.advance u.toNat)) := by
  have ha : Calm (s.advance u.toNat) := h.congr h.powered rfl rfl rfl rfl
  exact congrArg _ (live_ends h.powered (bodySelfTestEnd_starting u r hp) (ha.selfTested r).finish)

/-- Settles O5, by the part state and the result. -/
theorem selfTestEnds : Obligations.SelfTestEnds := by
  intro u r s h
  refine ⟨fun hp => ?_, fun hp => ⟨exec_selfTestEnd_starting u .bufferPassed h hp, exec_selfTestEnd_starting u .passed h hp,
    exec_selfTestEnd_starting u .bufferFailed h hp, exec_selfTestEnd_starting u .internalFailed h hp⟩⟩
  have hb : bodySelfTestEnd u r s = s.advance u.toNat := if_neg hp
  exact congrArg _ (h.live_rck hb)

/-! ### The interrupt line (R176) -/

/-- Each bit of EVENTS is the flag of a cause (Table 11-2). -/
theorem exists_causeBit {i : Nat} (h : i < 16) : ∃ c, causeBit c = i := by
  have hall : [Cause.requestDone, .requestFailed, .writerState, .segmentClosed, .impact, .frameOverrun, .imuState,
      .chargerState, .chargerFault, .gaugeLevel, .flashFault, .parameterClamped, .commandRefused, .mountDone, .halted,
      .inputChange].map causeBit = List.range 16 := rfl
  obtain ⟨c, -, hc⟩ := List.mem_map.1 (hall ▸ List.mem_range.2 h)
  exact ⟨c, hc⟩

theorem exists_getLsbD {n : Nat} {x : BitVec n} (h : x ≠ 0) : ∃ i, i < n ∧ x.getLsbD i = true := by
  by_contra hno
  refine h (BitVec.eq_of_getLsbD_eq fun i hi => ?_)
  rw [BitVec.ofNat_eq_ofNat, BitVec.getLsbD_zero, ← Bool.not_eq_true]
  exact fun hb => hno ⟨i, hi, hb⟩

/-- INTn is asserted while an enabled cause is set (R176). -/
theorem interrupt_iff (s : State) :
    s.interrupt = true ↔ ∃ c : Cause, s.caused c = true ∧ s.hp.mask.getLsbD (causeBit c) = true := by
  unfold State.interrupt State.caused
  rw [bne_iff_ne]
  constructor
  · intro h
    obtain ⟨i, hi, hb⟩ := exists_getLsbD h
    obtain ⟨c, rfl⟩ := exists_causeBit hi
    rw [BitVec.getLsbD_and, Bool.and_eq_true] at hb
    exact ⟨c, hb⟩
  · rintro ⟨c, he, hm⟩ h0
    have hb : (s.hp.events &&& s.hp.mask).getLsbD (causeBit c) = true := by rw [BitVec.getLsbD_and, he, hm]; rfl
    rw [h0, BitVec.ofNat_eq_ofNat, BitVec.getLsbD_zero] at hb
    cases hb

/-- With no cause enabled the line is high (R176). -/
theorem interrupt_masked (h : s.hp.mask = 0) : s.interrupt = false := by
  unfold State.interrupt
  rw [h]
  simp

/-- RESETn clears EVENT_MASK (R178, R184). -/
theorem bodyResetn_mask (u : Stamp) (low : Bool) (s : State) : (bodyResetn u low s).hp.mask = 0 := by
  by_cases hp : s.part.state = .starting ∨ s.part.state = .halted
  · rw [bodyResetn_hostOnly u low hp]
    rfl
  · rw [not_or] at hp
    rw [bodyResetn_transition u low hp.1 hp.2]
    split
    · rfl
    · rw [beginReset_eq]
      rfl

/-- EVENT_MASK_WRITE stores the enables (R176). -/
theorem exec_eventMaskWrite {u : Stamp} {v : Word} (hp : s.part.state ≠ .off) :
    exec (.eventMaskWrite u v) s = .next (eventMaskWrite v (portAccess u false s)) :=
  congrArg _ (powered_on hp)

/-- Settles O13: the line by its bits, the write, and the two resets. -/
theorem interruptLine : Obligations.InterruptLine := by
  refine ⟨interrupt_iff, fun u v s hp hr => ?_, fun s => ⟨powerOn s, rfl, rfl, interrupt_masked rfl⟩, fun u low s hp _ => ?_⟩
  · have hw : eventMaskWrite v (portAccess u false s) = { portAccess u false s with hp.mask := v.truncate 16 } := by
      unfold eventMaskWrite
      rw [portAccess_resetnLow, hr]
      rfl
    refine ⟨_, exec_eventMaskWrite hp, ?_, ?_⟩
    · rw [hw]
      exact BitVec.setWidth_eq_extractLsb' (x := v) (by decide : 16 ≤ 32)
    · rw [hw, ← portAccess_hp u false s]
  · have hmask : (finish (bodyResetn u low s)).hp.mask = 0 :=
      (finish_mask _).elim (fun h => h.trans (bodyResetn_mask u low s)) id
    exact ⟨finish (bodyResetn u low s), congrArg Host.Outcome.next (live_powered hp), hmask, interrupt_masked hmask⟩

end Sys2Proof.Machine
end

section
/-! The half accesses (R166 to R168): the word that a read drives, and the one that a write stores. -/

namespace Sys2Proof.Machine

variable {s t : State}

/-! ### Words in halves and bytes (R185) -/

theorem toNat_halves (hi lo : Half) : (hi ++ lo).toNat = hi.toNat * 65536 + lo.toNat := by
  rw [BitVec.toNat_append, ← Nat.shiftLeft_add_eq_or_of_lt lo.isLt, Nat.shiftLeft_eq]

/-- Four bytes, low byte first, spell the word of their order (R185). -/
theorem ofNat_leNat_bytes (b0 b1 b2 b3 : Byte) : BitVec.ofNat 32 (leNat [b0, b1, b2, b3]) = b3 ++ b2 ++ b1 ++ b0 := by
  apply BitVec.eq_of_toNat_eq
  simp only [BitVec.toNat_append, BitVec.toNat_ofNat, leNat]
  rw [← Nat.shiftLeft_add_eq_or_of_lt b0.isLt, ← Nat.shiftLeft_add_eq_or_of_lt b1.isLt,
    ← Nat.shiftLeft_add_eq_or_of_lt b2.isLt]
  simp only [Nat.shiftLeft_eq]
  have h0 := b0.isLt
  have h1 := b1.isLt
  have h2 := b2.isLt
  have h3 := b3.isLt
  omega

/-- A byte of a half. -/
theorem ofNat_div_byte (x : Half) {n k v : Nat} (h : v / 2 ^ k % 256 = x.toNat / 2 ^ n % 256) :
    BitVec.ofNat 8 (v / 2 ^ k) = x.extractLsb' n 8 := by
  apply BitVec.eq_of_toNat_eq
  rw [BitVec.toNat_ofNat, BitVec.extractLsb'_toNat, Nat.shiftRight_eq_div_pow]
  exact h

/-- The bytes of a word written in halves, low byte first (R167, R185). -/
theorem leBytes_halves (hi lo : Half) :
    leBytes 4 (hi ++ lo).toNat
      = [lo.extractLsb' 0 8, lo.extractLsb' 8 8, hi.extractLsb' 0 8, hi.extractLsb' 8 8] := by
  have hw := toNat_halves hi lo
  have hl := lo.isLt
  have hb : leBytes 4 (hi ++ lo).toNat
      = [BitVec.ofNat 8 ((hi ++ lo).toNat / 2 ^ 0), BitVec.ofNat 8 ((hi ++ lo).toNat / 2 ^ 8),
          BitVec.ofNat 8 ((hi ++ lo).toNat / 2 ^ 16), BitVec.ofNat 8 ((hi ++ lo).toNat / 2 ^ 24)] := by
    simp [leBytes, Nat.div_div_eq_div_mul]
  rw [hb, ofNat_div_byte lo (n := 0) (by omega), ofNat_div_byte lo (n := 8) (by omega),
    ofNat_div_byte hi (n := 0) (by omega), ofNat_div_byte hi (n := 8) (by omega)]

/-! ### Reads (R166 to R168) -/

/-- The part states in which the Buffer RAM is served (R168). -/
theorem ramServed_iff (p : Part) :
    ramServed p = true
      ↔ p.state = .idle ∨ p.state = .mounting ∨ p.state = .running ∨ (p.state = .halted ∧ p.memoryReady = true) := by
  unfold ramServed
  cases p.state <;> simp

theorem isStateRead_iff (registers : Bool) (word : Nat) :
    isStateRead registers word = true ↔ registers = true ∧ word = 1 := by
  simp [isStateRead]

/-- The start of a read: a read of STATE does not wake the part (R168). -/
theorem portAccess_read (u : Stamp) (registers : Bool) (word : Nat) (s : State) :
    portAccess u (isStateRead registers word) s
      = if s.part.state = .standby ∧ ¬(registers = true ∧ word = 1) then wakeStandby (s.advance u.toNat)
        else s.advance u.toNat := by
  rw [portAccess_eq]
  simp only [← isStateRead_iff, Bool.not_eq_true]

/-- The register window, word by word (Table 11-1). -/
theorem portWord_registers (s : State) (word : Nat) :
    portWord s true word
      = if word = 1 then stateWord s.part else if word = 2 then s.hp.directory
        else if word = 3 then s.hp.events.zeroExtend 32 else if word = 4 then s.hp.mask.zeroExtend 32 else 0 := by
  show registerRead s word = _
  unfold registerRead
  split
  · rfl
  · rfl
  · rfl
  · rfl
  · next h1 h2 h3 h4 => rw [if_neg h1, if_neg h2, if_neg h3, if_neg h4]

/-- A word of the Buffer RAM, where it is served (R168, R185). -/
theorem portWord_ram (s : State) (word : Nat) :
    portWord s false word
      = if ramServed s.part = true then
          readCell s.mem (4 * word + 3) ++ readCell s.mem (4 * word + 2) ++ readCell s.mem (4 * word + 1)
            ++ readCell s.mem (4 * word)
        else 0 := by
  rw [← ofNat_leNat_bytes]
  rfl

/-- A read of a low half drives it and loads the latch with the high half (R167). -/
theorem exec_halfReadLow {u : Stamp} {registers : Bool} {word : Nat} (hw : word < 4194304) (hp : s.part.state ≠ .off)
    (ht : portAccess u (isStateRead registers word) s = t) :
    exec (.halfReadLow u registers word) s
      = .next { t with
          hp.data := (portWord t registers word).extractLsb' 0 16
          hp.latch := (portWord t registers word).extractLsb' 16 16 } := by
  refine (addressed_quiet ((wordExists_iff word).2 hw) rfl hp).trans (congrArg _ ?_)
  unfold bodyHalfReadLow
  rw [ht, ← BitVec.setWidth_eq_extractLsb' (by decide), ← BitVec.setWidth_ushiftRight_eq_extractLsb]

/-- A read of a high half drives the latch (R167). -/
theorem exec_halfReadHigh {u : Stamp} {registers : Bool} {word : Nat} (hw : word < 4194304) (hp : s.part.state ≠ .off)
    (ht : portAccess u (isStateRead registers word) s = t) :
    exec (.halfReadHigh u registers word) s = .next { t with hp.data := t.hp.latch } := by
  subst ht
  exact addressed_quiet ((wordExists_iff word).2 hw) rfl hp

/-- Settles O9: the word by where it lies, and the two reads of it. -/
theorem halfReads : Obligations.HalfReads := by
  intro u registers word s hw hp
  have ht := portAccess_read u registers word s
  refine ⟨_, portWord (portAccess u (isStateRead registers word) s) registers word, ht, ?_, ?_,
    exec_halfReadLow hw hp rfl, exec_halfReadHigh hw hp rfl⟩
  · rintro rfl
    exact portWord_registers _ word
  · rintro rfl
    rw [portWord_ram]
    simp only [ramServed_iff]

/-! ### Writes (R167, R168) -/

/-- A write of a high half loads the latch (R167). -/
theorem exec_halfWriteHigh {u : Stamp} {registers : Bool} {word : Nat} {value : Half} (hw : word < 4194304)
    (hp : s.part.state ≠ .off) :
    exec (.halfWriteHigh u registers word value) s = .next { portAccess u false s with hp.latch := value } :=
  addressed_quiet ((wordExists_iff word).2 hw) rfl hp

/-- A write of a low half, but of CONTROL's, has its own effect alone (R166, R167). -/
theorem exec_halfWriteLow {u : Stamp} {registers : Bool} {word : Nat} {value : Half} {course : ReadCourse}
    (hw : word < 4194304) (hc : registers = true → word ≠ 0) (hp : s.part.state ≠ .off) :
    exec (.halfWriteLow u registers word value course) s
      = .next (portWrite registers word (s.hp.latch ++ value) course (portAccess u false s)) := by
  have hquiet : (registers && decide (word = 0)) = false := by simpa using hc
  rw [← portAccess_hp u false s]
  exact addressed_quiet ((wordExists_iff word).2 hw) hquiet hp

/-- A write to the Buffer RAM is dropped where it is not served (R168). -/
theorem portWrite_dropped {word : Nat} {v : Word} {course : ReadCourse} (h : ¬ramServed s.part = true) :
    portWrite false word v course s = s :=
  if_neg h

/-- A write to the Buffer RAM where it is served stores the word's four bytes (R168, R185). -/
theorem portWrite_stores {word : Nat} {hi lo : Half} {course : ReadCourse} (h : ramServed s.part = true) :
    portWrite false word (hi ++ lo) course s
      = s.store (4 * word) [lo.extractLsb' 0 8, lo.extractLsb' 8 8, hi.extractLsb' 0 8, hi.extractLsb' 8 8] := by
  rw [← leBytes_halves]
  exact if_pos h

/-- Four bytes written read back (R185). -/
theorem readCell_four {m : List Host.Cell} {a : Nat} (b0 b1 b2 b3 : Byte) (h : memoryWf m = true) (ha : a + 3 < ramBytes) :
    readCell (writeCells m a [b0, b1, b2, b3]) a = b0 ∧ readCell (writeCells m a [b0, b1, b2, b3]) (a + 1) = b1
      ∧ readCell (writeCells m a [b0, b1, b2, b3]) (a + 2) = b2
      ∧ readCell (writeCells m a [b0, b1, b2, b3]) (a + 3) = b3 := by
  have hread := fun i hi hr => readCell_writeCells_same a [b0, b1, b2, b3] i h hi hr
  exact ⟨hread 0 (Nat.zero_lt_succ _) (by omega), hread 1 (by simp) (by omega),
    hread 2 (by simp) (by omega), hread 3 (by simp) (by omega)⟩

/-- Settles O10: the latch, a write that is dropped, and one that is stored, byte by byte. -/
theorem halfWrites : Obligations.HalfWrites := by
  intro u word value s hw hp
  have hexec : ∀ course, exec (.halfWriteLow u false word value course) s
      = .next (portWrite false word (s.hp.latch ++ value) course (portAccess u false s)) :=
    fun course => exec_halfWriteLow hw (fun h => nomatch h) hp
  refine ⟨portAccess u false s, portAccess_wakes u s, fun registers => exec_halfWriteHigh hw hp, fun hserved course => ?_,
    fun hwf hserved => ?_⟩
  · rw [hexec, portWrite_dropped ((ramServed_iff _).not.2 hserved)]
  · have hm : memoryWf (portAccess u false s).mem = true := by rw [portAccess_mem, hwf]
    have hr : 4 * word + 3 < ramBytes := by
      unfold ramBytes
      omega
    obtain ⟨h0, h1, h2, h3⟩ := readCell_four (value.extractLsb' 0 8) (value.extractLsb' 8 8) (s.hp.latch.extractLsb' 0 8)
      (s.hp.latch.extractLsb' 8 8) hm hr
    refine ⟨_, fun course => ?_, h0, h1, ?_, ?_, fun b hb => readCell_writeCells_other _ _ _ hb⟩
    · rw [hexec, portWrite_stores ((ramServed_iff _).2 hserved)]
      rfl
    · rw [h2, portAccess_hp]
    · rw [h3, portAccess_hp]

end Sys2Proof.Machine
end

section
/-! CONTROL (R169, R170): what a write of it does by its code and its bits, and what is refused. The registers (R172, R175,
R176). -/

namespace Sys2Proof.Machine

variable {s t : State} {u : Stamp} {v w : Word} {course : ReadCourse}

/-! ### The code and the bits -/

/-- A bit of the low half of a word written in halves (R166). -/
theorem getLsbD_halves (hi lo : Half) {i : Nat} (h : i < 16) : (hi ++ lo).getLsbD i = lo.getLsbD i := by
  rw [BitVec.getLsbD_append, if_pos h]

/-- The code of a word written in halves is the low half's (R169). -/
theorem code_halves (hi lo : Half) : (hi ++ lo).toNat % 8 = lo.toNat % 8 := by
  rw [toNat_halves]
  omega

/-- A write of CONTROL with neither bit is its command (R169). -/
theorem controlWrite_command (h8 : v.getLsbD 8 = false) (h9 : v.getLsbD 9 = false) :
    controlWrite v course s = (judgeCommand (v.toNat % 8) course s).2 := by
  simp only [controlWrite, h8, h9, Bool.false_eq_true, false_and, if_false]

/-- The Reload bit behind a command that is no Run taken (R170). -/
theorem controlWrite_reload (h8 : v.getLsbD 8 = false) (h9 : v.getLsbD 9 = true)
    (hj : judgeCommand (v.toNat % 8) course s = (false, t)) : controlWrite v course s = judgeReload course t := by
  simp only [controlWrite, h8, h9, hj, Bool.false_eq_true, Bool.not_false, and_self, if_true, if_false]

/-- A Run that is taken serves the Reload bit too (R170). -/
theorem controlWrite_run (h8 : v.getLsbD 8 = false) (hj : judgeCommand (v.toNat % 8) course s = (true, t)) :
    controlWrite v course s = t := by
  simp only [controlWrite, h8, hj, Bool.false_eq_true, Bool.not_true, and_false, if_false]

/-- The Attention bit behind a command (R170). -/
theorem controlWrite_attention (h8 : v.getLsbD 8 = true) (h9 : v.getLsbD 9 = false) :
    controlWrite v course s = cwService (judgeCommand (v.toNat % 8) course s).2 := by
  simp only [controlWrite, h8, h9, Bool.false_eq_true, false_and, if_true, if_false]

/-- Only a Run asks how long its profile read goes on (log 25). -/
theorem judgeCommand_course {code : Nat} (c : ReadCourse) (h : code ≠ 1) :
    judgeCommand code course s = judgeCommand code c s := by
  unfold judgeCommand
  split
  · rfl
  · exact absurd rfl h
  · rfl
  · rfl
  · rfl
  · rfl

/-- A Reload whose read ends within the command, whatever the Run's order was (log 25). -/
theorem judgeReload_course (h : course ≠ .lasting) : judgeReload course s = judgeReload .first s := by
  cases course with
  | first => rfl
  | after => rfl
  | lasting => exact absurd rfl h

/-! ### What is refused (Table 9-3) -/

/-- Run and Standby are taken in Idle alone (R169). -/
theorem judgeCommand_idle_refused {code : Nat} (hc : code = 1 ∨ code = 3)
    (h : ¬(s.part.state = .idle ∧ s.part.transition = .none)) : judgeCommand code course s = (false, refuse s) := by
  rcases hc with rfl | rfl
  · exact if_neg h
  · exact congrArg (Prod.mk false) (if_neg h)

/-- Stop is taken in Running and Mounting alone (R169). -/
theorem judgeCommand_stop_refused
    (h : ¬((s.part.state = .running ∨ s.part.state = .mounting) ∧ s.part.transition = .none)) :
    judgeCommand 2 course s = (false, refuse s) :=
  congrArg (Prod.mk false) (if_neg h)

/-- Reset is refused in Starting and Halted, and in a reset transition (R169). -/
theorem judgeCommand_reset_refused (h : s.part.state = .starting ∨ s.part.state = .halted ∨ s.part.transition = .reset) :
    judgeCommand 4 course s = (false, refuse s) := by
  refine congrArg (Prod.mk false) (if_neg ?_)
  rintro ⟨hp, hr⟩
  rcases h with h | h | h
  · simp [h] at hp
  · simp [h] at hp
  · simp [State.resetting, h] at hr

/-- Reset is taken in Idle, Mounting and Running (R169). -/
theorem judgeCommand_reset (hp : s.part.state = .idle ∨ s.part.state = .mounting ∨ s.part.state = .running)
    (ht : s.part.transition ≠ .reset) : judgeCommand 4 course s = (false, beginReset s) :=
  congrArg (Prod.mk false) (if_pos ⟨hp, by simp [State.resetting, ht]⟩)

/-- Codes 5 to 7 name no command (R169). -/
theorem judgeCommand_unnamed {code : Nat} (h : 5 ≤ code) : judgeCommand code course s = (false, refuse s) := by
  obtain ⟨n, rfl⟩ := Nat.exists_eq_add_of_le' h
  rfl

/-- In a reset transition a Reload is refused (R170). -/
theorem judgeReload_resetting (h : s.part.transition = .reset) : judgeReload course s = refuse s :=
  if_pos (decide_eq_true h)

/-- A Reload is refused in Starting and Halted too (R170). -/
theorem judgeReload_refused (h : s.part.state = .starting ∨ s.part.state = .halted ∨ s.part.transition = .reset) :
    judgeReload course s = refuse s := by
  rcases h with h | h | h
  · unfold judgeReload
    rw [h, ite_self]
  · unfold judgeReload
    rw [h, ite_self]
  · exact judgeReload_resetting h

/-- In Mounting a Reload is held (R170). -/
theorem judgeReload_mounting (hp : s.part.state = .mounting) (ht : s.part.transition ≠ .reset) :
    judgeReload course s = { s with hp.reloadHeld := true } := by
  unfold judgeReload
  rw [if_neg (by simp [State.resetting, ht]), hp]

/-- In Idle and Running a Reload begins its read (R170). -/
theorem judgeReload_begins (hp : s.part.state = .idle ∨ s.part.state = .running) (ht : s.part.transition ≠ .reset) :
    judgeReload course s = beginReload course s := by
  unfold judgeReload
  rw [if_neg (by simp [State.resetting, ht])]
  rcases hp with hp | hp <;> rw [hp]

theorem Calm.raised (h : Calm s) (c : Cause) : Calm (s.raise c) :=
  h.congr (by rw [raise_part]; exact h.powered) (raise_ga _ _) (raise_cw _ _) (congrArg Mu.marks (raise_mu _ _))
    (raise_sm _ _)

/-- A command that is refused raises CommandRefused, and nothing follows (R169). -/
theorem Calm.live_refuses {f : State → State} (h : Calm s) (hf : f s = refuse (s.advance u.toNat)) :
    live f s = (s.advance u.toNat).raise .commandRefused :=
  live_ends h.powered hf (Calm.raised (s := s.advance u.toNat) (h.congr h.powered rfl rfl rfl rfl) _).finish

/-- A command written to CONTROL outside Standby, with neither bit, that is refused (R169). -/
theorem bodyRegister_refuses (hp : s.part.state ≠ .standby) (h8 : v.getLsbD 8 = false) (h9 : v.getLsbD 9 = false)
    (hj : judgeCommand (v.toNat % 8) course (s.advance u.toNat) = (false, refuse (s.advance u.toNat))) :
    bodyRegister u 0 v course s = refuse (s.advance u.toNat) := by
  rw [bodyRegister_command hp h8 h9, hj]

/-- A Reload written to CONTROL outside Standby (R170). -/
theorem bodyRegister_reload (hp : s.part.state ≠ .standby) :
    bodyRegister u 0 0x200 .first s = judgeReload .first (s.advance u.toNat) := by
  have hc : controlWrite 0x200 .first (s.advance u.toNat) = judgeReload .first (s.advance u.toNat) :=
    controlWrite_reload rfl rfl rfl
  rw [← hc, ← portAccess_awake hp]
  rfl

/-- A half written to CONTROL acts with the latch as the high half (R167). -/
theorem bodyRegisterHalf_control (u : Stamp) (half : Half) (s : State) :
    bodyRegisterHalf u 0 half s = bodyRegister u 0 (s.hp.latch ++ half) .first s := by
  rw [← portAccess_hp u false s]
  rfl

/-- Settles O14: each command by the states that take it, the Reload, and the codes that name no command. -/
theorem commandsRefused : Obligations.CommandsRefused := by
  rintro u course s _ h hs rfl
  refine ⟨fun hp => ⟨?_, ?_⟩, fun hp => ?_, fun hp => ⟨?_, ?_⟩, fun half hc h8 h9 => ?_⟩
  · exact congrArg _ (h.live_refuses (bodyRegister_refuses (v := 1) hs rfl rfl (judgeCommand_idle_refused (.inl rfl) hp)))
  · exact congrArg _ (h.live_refuses (bodyRegister_refuses (v := 3) hs rfl rfl (judgeCommand_idle_refused (.inr rfl) hp)))
  · exact congrArg _ (h.live_refuses (bodyRegister_refuses (v := 2) hs rfl rfl (judgeCommand_stop_refused hp)))
  · exact congrArg _ (h.live_refuses (bodyRegister_refuses (v := 4) hs rfl rfl (judgeCommand_reset_refused hp)))
  · exact congrArg _ (h.live_refuses ((bodyRegister_reload hs).trans (judgeReload_refused hp)))
  · refine congrArg _ (h.live_refuses ((bodyRegisterHalf_control u half s).trans (bodyRegister_refuses hs ?_ ?_ ?_)))
    · rw [getLsbD_halves _ _ (by decide), h8]
    · rw [getLsbD_halves _ _ (by decide), h9]
    · rw [code_halves]
      exact judgeCommand_unnamed hc

end Sys2Proof.Machine
end

section
/-! The register writes (R166 to R172, R175, R176): each register, and CONTROL by its code and its bits. -/

namespace Sys2Proof.Machine

variable {s a : State} {u : Stamp} {v : Word} {value : Half} {course : ReadCourse}

/-! ### The registers (R172, R175, R176) -/

/-- DIRECTORY_WRITE (R172, R184). -/
theorem exec_directoryWrite (hp : s.part.state ≠ .off) (ha : portAccess u false s = a) :
    exec (.directoryWrite u v) s
      = .next (if s.part.resetnLow then a else { a with hp.directory := v &&& 0x00FFFF00 }) := by
  subst ha
  rw [← portAccess_resetnLow u false s]
  exact congrArg _ (powered_on hp)

/-- EVENTS_CLEAR (R175). -/
theorem exec_eventsClear (hp : s.part.state ≠ .off) (ha : portAccess u false s = a) :
    exec (.eventsClear u v) s = .next { a with hp.events := s.hp.events &&& ~~~(v.extractLsb' 0 16) } := by
  subst ha
  rw [← BitVec.setWidth_eq_extractLsb' (by decide), ← portAccess_hp u false s]
  exact congrArg _ (powered_on hp)

/-- EVENT_MASK_WRITE (R176, R184). -/
theorem exec_eventMaskWrite_eq (hp : s.part.state ≠ .off) (ha : portAccess u false s = a) :
    exec (.eventMaskWrite u v) s
      = .next (if s.part.resetnLow then a else { a with hp.mask := v.extractLsb' 0 16 }) := by
  subst ha
  rw [← BitVec.setWidth_eq_extractLsb' (by decide), ← portAccess_resetnLow u false s]
  exact exec_eventMaskWrite hp

/-- A write of a register's low half acts with the latch as the high half, as the register's own row does (R167). -/
theorem exec_halfWriteLow_register (hp : s.part.state ≠ .off) (hv : v = s.hp.latch ++ value) :
    exec (.halfWriteLow u true 2 value course) s = exec (.directoryWrite u v) s
    ∧ exec (.halfWriteLow u true 3 value course) s = exec (.eventsClear u v) s
    ∧ exec (.halfWriteLow u true 4 value course) s = exec (.eventMaskWrite u v) s := by
  subst hv
  have hrow : ∀ i, powered (bodyRegister u i (s.hp.latch ++ value) .first) s
      = registerWrite i (s.hp.latch ++ value) .first (portAccess u false s) := fun _ => powered_on hp
  refine ⟨?_, ?_, ?_⟩
  · rw [exec_halfWriteLow (by decide) (fun _ => by decide) hp]
    exact (congrArg Host.Outcome.next (hrow 2)).symm
  · rw [exec_halfWriteLow (by decide) (fun _ => by decide) hp]
    exact (congrArg Host.Outcome.next (hrow 3)).symm
  · rw [exec_halfWriteLow (by decide) (fun _ => by decide) hp]
    exact (congrArg Host.Outcome.next (hrow 4)).symm

/-- STATE and the words from 5 on ignore writes (R166, R171). -/
theorem registerWrite_ignored {word : Nat} (h : word = 1 ∨ 5 ≤ word) : registerWrite word v course s = s := by
  unfold registerWrite
  split
  case h_5 => rfl
  all_goals omega

/-- An even half of the register window is the low half of its word (R166). -/
theorem exec_registerWrite_even (u : Stamp) (word : Nat) (value : Half) (s : State) :
    exec (.registerWrite u (2 * word) value) s = exec (.halfWriteLow u true word value .first) s := by
  have hinside : halfExists (2 * word) = wordExists word := by
    rw [Bool.eq_iff_iff, halfExists_iff, wordExists_iff]
    omega
  have hacts : decide (2 * word = 0) = (true && decide (word = 0)) := by simp
  have hbody : bodyRegisterHalf u (2 * word) value = bodyHalfWriteLow u true word value .first := by
    funext s
    unfold bodyRegisterHalf
    rw [if_pos (Nat.mul_mod_right 2 word), Nat.mul_div_cancel_left word (by decide)]
  show addressed _ _ _ s = addressed _ _ _ s
  rw [hinside, hacts, hbody]

/-- An odd half is a high half, and loads the latch (R166, R167). -/
theorem exec_registerWrite_odd {half : Nat} (hh : half < 8388608) (hodd : half % 2 = 1) (hp : s.part.state ≠ .off) :
    exec (.registerWrite u half value) s = .next { portAccess u false s with hp.latch := value } := by
  have hacts : decide (half = 0) = false := decide_eq_false (by omega)
  refine (addressed_quiet ((halfExists_iff half).2 hh) hacts hp).trans (congrArg _ ?_)
  exact if_neg (by omega)

/-! ### CONTROL (R169, R170) -/

/-- The command is a write of CONTROL's low half (R166, R167). -/
def WritesControl (u : Stamp) (value : Half) (course : ReadCourse) (c : Instr) : Prop :=
  c = .halfWriteLow u true 0 value course ∨ (c = .registerWrite u 0 value ∧ course = .first)

/-- What a write of CONTROL's low half answers (R167). -/
theorem exec_control {c : Instr} (hp : s.part.state ≠ .off) (ha : portAccess u false s = a)
    (hc : WritesControl u value course c) :
    exec c s = .next (finish (controlWrite (s.hp.latch ++ value) course a)) := by
  have hlow : exec (.halfWriteLow u true 0 value course) s
      = .next (finish (controlWrite (s.hp.latch ++ value) course a)) := by
    subst ha
    rw [← portAccess_hp u false s]
    exact addressed_acting rfl rfl hp
  rcases hc with rfl | ⟨rfl, rfl⟩
  · exact hlow
  · exact (exec_registerWrite_even u 0 value s).trans hlow

/-- What the rows of CONTROL's commands and bits answer: each is a write of its code or bit (R169, R170). -/
theorem exec_controlRows (hp : s.part.state ≠ .off) (ha : portAccess u false s = a) :
    exec (.run u course) s = .next (finish (judgeCommand 1 course a).2)
    ∧ exec (.controlStop u) s = .next (finish (judgeCommand 2 .first a).2)
    ∧ exec (.standby u) s = .next (finish (judgeCommand 3 .first a).2)
    ∧ exec (.reset u) s = .next (finish (judgeCommand 4 .first a).2)
    ∧ exec (.attention u) s = .next (finish (cwService a))
    ∧ exec (.reload u) s = .next (finish (judgeReload .first a)) := by
  subst ha
  have hrow : ∀ (v : Word) (course : ReadCourse) (t : State), controlWrite v course (portAccess u false s) = t →
      Host.Outcome.next (live (bodyRegister u 0 v course) s) = (.next (finish t) : Answer) := by
    rintro v course t rfl
    exact congrArg _ (live_powered hp)
  exact ⟨hrow 1 _ _ (controlWrite_command rfl rfl), hrow 2 _ _ (controlWrite_command rfl rfl),
    hrow 3 _ _ (controlWrite_command rfl rfl), hrow 4 _ _ (controlWrite_command rfl rfl),
    hrow 0x100 _ _ (controlWrite_attention rfl rfl), hrow 0x200 _ _ (controlWrite_reload rfl rfl rfl)⟩

/-- A Stop in Mounting goes on alone: no service point is there for an Attention (R111, R182). -/
theorem cwService_outside_running (h : s.part.state ≠ .running) : cwService s = s := by
  unfold cwService servicePoint
  rw [decide_eq_false h]
  rfl

/-- A Reload behind a Run that Mounting refuses is held (R169, R170). -/
theorem judgeReload_refused_run (hp : s.part.state = .mounting) (ht : s.part.transition ≠ .reset) :
    judgeReload course (refuse s) = State.raise { s with hp.reloadHeld := true } .commandRefused := by
  unfold refuse
  rw [judgeReload_mounting (by rw [raise_part, hp]) (by rw [raise_part]; exact ht)]
  unfold State.raise
  split <;> rfl

/-- In a reset transition that a Reset begins nothing follows (R184). -/
theorem finish_beginReset (hg : s.ga.sysen = true) : finish (beginReset s) = beginReset s := by
  rw [beginReset_eq]
  exact finish_resetting rfl hg

/-- Nor does anything follow the refusal of a Reload in it (R170). -/
theorem finish_refuse_beginReset (hg : s.ga.sysen = true) : finish (refuse (beginReset s)) = refuse (beginReset s) := by
  rw [beginReset_eq]
  unfold refuse
  exact finish_resetting (by rw [raise_part]) (by rw [raise_ga]; exact hg)

/-- CONTROL's command with neither bit is its own row, and with no code it is nothing (R169). -/
theorem exec_control_command {c : Instr} (hp : s.part.state ≠ .off) (ha : portAccess u false s = a)
    (hc : WritesControl u value course c)
    (h8 : value.getLsbD 8 = false) (h9 : value.getLsbD 9 = false) :
    exec c s = .next (finish (judgeCommand (value.toNat % 8) course a).2) := by
  rw [exec_control hp ha hc, controlWrite_command (by rw [getLsbD_halves _ _ (by decide), h8])
    (by rw [getLsbD_halves _ _ (by decide), h9]), code_halves]

/-- CONTROL's Reload bit behind a command that is no Run taken (R170). -/
theorem exec_control_reload {c : Instr} {b : State} (hp : s.part.state ≠ .off) (ha : portAccess u false s = a)
    (hc : WritesControl u value course c)
    (h8 : value.getLsbD 8 = false) (h9 : value.getLsbD 9 = true)
    (hj : judgeCommand (value.toNat % 8) course a = (false, b)) :
    exec c s = .next (finish (judgeReload course b)) := by
  rw [exec_control hp ha hc, controlWrite_reload (by rw [getLsbD_halves _ _ (by decide), h8])
    (by rw [getLsbD_halves _ _ (by decide), h9]) (by rw [code_halves, hj])]

/-- CONTROL's Attention bit behind a command (R170). -/
theorem exec_control_attention {c : Instr} (hp : s.part.state ≠ .off) (ha : portAccess u false s = a)
    (hc : WritesControl u value course c)
    (h8 : value.getLsbD 8 = true) (h9 : value.getLsbD 9 = false) :
    exec c s = .next (finish (cwService (judgeCommand (value.toNat % 8) course a).2)) := by
  rw [exec_control hp ha hc, controlWrite_attention (by rw [getLsbD_halves _ _ (by decide), h8])
    (by rw [getLsbD_halves _ _ (by decide), h9]), code_halves]

/-- A Run that is taken serves the Reload bit of its write too (R170). -/
theorem exec_control_run {c : Instr} (hp : s.part.state ≠ .off) (ha : portAccess u false s = a)
    (hc : WritesControl u value course c)
    (hcode : value.toNat % 8 = 1) (h8 : value.getLsbD 8 = false) (hi : a.part.state = .idle)
    (ht : a.part.transition = .none) : exec c s = exec (.run u course) s := by
  have hj : judgeCommand 1 course a = (true, takeRun course a) := if_pos ⟨hi, ht⟩
  rw [exec_control hp ha hc, controlWrite_run (by rw [getLsbD_halves _ _ (by decide), h8])
    (by rw [code_halves, hcode, hj]), (exec_controlRows hp ha).1, hj]

/-- After a Run that Mounting refuses the Reload is held (R169, R170). -/
theorem exec_control_held {c : Instr} (hp : s.part.state ≠ .off) (ha : portAccess u false s = a)
    (hc : WritesControl u value course c) (hcode : value.toNat % 8 = 1) (h8 : value.getLsbD 8 = false)
    (h9 : value.getLsbD 9 = true) (hm : a.part.state = .mounting) (ht : a.part.transition = .none) (hcalm : Calm a) :
    exec c s = .next (State.raise { a with hp.reloadHeld := true } .commandRefused) := by
  have hrefused : judgeCommand (value.toNat % 8) course a = (false, refuse a) := by
    rw [hcode]
    exact judgeCommand_idle_refused (.inl rfl) (by rw [hm]; nofun)
  have hheld : Calm ({ a with hp.reloadHeld := true } : State) := hcalm.congr hcalm.powered rfl rfl rfl rfl
  rw [exec_control_reload hp ha hc h8 h9 hrefused, judgeReload_refused_run hm (by rw [ht]; nofun), (hheld.raised _).finish]

/-- A Reload with a Reset that is taken is refused (R170, R184). -/
theorem exec_control_reset_reload {c : Instr} (hp : s.part.state ≠ .off) (ha : portAccess u false s = a)
    (hc : WritesControl u value course c) (hcode : value.toNat % 8 = 4) (h8 : value.getLsbD 8 = false)
    (h9 : value.getLsbD 9 = true) (hg : a.ga.sysen = true)
    (hst : a.part.state = .idle ∨ a.part.state = .mounting ∨ a.part.state = .running) (ht : a.part.transition ≠ .reset) :
    ∃ t, exec (.reset u) s = .next t ∧ exec c s = .next (t.raise .commandRefused) := by
  have hj : ∀ course, judgeCommand 4 course a = (false, beginReset a) := fun _ => judgeCommand_reset hst ht
  obtain ⟨-, -, -, hreset, -, -⟩ := exec_controlRows (course := .first) hp ha
  refine ⟨beginReset a, by rw [hreset, hj, finish_beginReset hg], ?_⟩
  rw [exec_control_reload hp ha hc h8 h9 (by rw [hcode, hj]), judgeReload_resetting (by rw [beginReset_eq]),
    finish_refuse_beginReset hg]
  rfl

/-- An Attention with a Stop in Mounting comes to nothing (R111, R170, R182). -/
theorem exec_control_stop_attention {c : Instr} (ha : portAccess u false s = a) (hc : WritesControl u value course c)
    (hcode : value.toNat % 8 = 2) (h8 : value.getLsbD 8 = true) (h9 : value.getLsbD 9 = false)
    (hm : s.part.state = .mounting) (ht : s.part.transition = .none) (hcalm : Calm s) :
    exec c s = .next { a with part.transition := .stop } := by
  obtain rfl : s.advance u.toNat = a := (portAccess_awake (by rw [hm]; nofun)).symm.trans ha
  have hj : judgeCommand 2 course (s.advance u.toNat) = (false, takeStop (s.advance u.toNat)) :=
    congrArg (Prod.mk false) (if_pos ⟨.inr hm, ht⟩)
  have hs : takeStop (s.advance u.toNat) = inStop u s := if_neg (by rw [advance_part, hm]; nofun)
  have hrun : (inStop u s).part.state ≠ .running := fun e => nomatch hm.symm.trans e
  rw [exec_control_attention hcalm.powered ha hc h8 h9, hcode, hj, hs, cwService_outside_running hrun,
    (hcalm.inStop u).finish]
  rfl

/-- Settles O12: the registers, the halves that name none, and CONTROL by its code and bits. -/
theorem registerWrites : Obligations.RegisterWrites := by
  intro u v s a hp ha
  rw [← portAccess_wakes] at ha
  have ha := ha.symm
  obtain ⟨-, hstop, hstandby, hreset, hattention, hreload⟩ := exec_controlRows (course := .first) hp ha
  refine ⟨exec_directoryWrite hp ha, exec_eventsClear hp ha, exec_eventMaskWrite_eq hp ha, fun value course hv => ?_,
    fun half value hh hodd => ?_, fun word value course hw hi => ?_, fun value course c hc => ⟨fun h8 h9 =>
      ⟨fun hcode => ?_, fun hcode => ?_, fun hcode => ?_, fun hcode => ?_, fun hcode hcalm => ?_⟩,
      fun hcode h8 h9 => ?_, fun hcode h8 h9 hl => ?_, fun hcode h8 h9 => ⟨fun hi ht => ?_, fun hm ht hcalm => ?_⟩,
      fun hcode h8 h9 hg hst ht => ?_, fun hcode h8 h9 hm ht hcalm => ?_⟩⟩
  · obtain ⟨hdirectory, hevents, hmask⟩ := exec_halfWriteLow_register (u := u) (course := course) hp hv
    obtain ⟨hdirectory', hevents', hmask'⟩ := exec_halfWriteLow_register (u := u) (course := .first) hp hv
    exact ⟨hdirectory, hevents, hmask, (exec_registerWrite_even u 2 value s).trans hdirectory',
      (exec_registerWrite_even u 3 value s).trans hevents', (exec_registerWrite_even u 4 value s).trans hmask'⟩
  · rw [exec_registerWrite_odd hh hodd hp, ha]
  · have hlow : ∀ course, exec (.halfWriteLow u true word value course) s = .next a := fun course => by
      rw [exec_halfWriteLow hw (fun _ => by omega) hp, ha]
      exact congrArg _ (registerWrite_ignored hi)
    exact ⟨hlow course, (exec_registerWrite_even u word value s).trans (hlow .first)⟩
  · rw [exec_control_command hp ha hc h8 h9, (exec_controlRows hp ha).1, hcode]
  · rw [exec_control_command hp ha hc h8 h9, hstop, hcode, judgeCommand_course .first (by decide)]
  · rw [exec_control_command hp ha hc h8 h9, hstandby, hcode, judgeCommand_course .first (by decide)]
  · rw [exec_control_command hp ha hc h8 h9, hreset, hcode, judgeCommand_course .first (by decide)]
  · rw [exec_control_command hp ha hc h8 h9, hcode]
    exact congrArg _ hcalm.finish
  · rw [exec_control_attention hp ha hc h8 h9, hattention, hcode]
    rfl
  · rw [exec_control_reload hp ha hc h8 h9 (by rw [hcode]; rfl), hreload, judgeReload_course hl]
  · exact exec_control_run hp ha hc hcode h8 hi ht
  · exact exec_control_held hp ha hc hcode h8 h9 hm ht hcalm
  · have hg : a.ga.sysen = true := by rw [← ha, portAccess_ga, hg]
    exact exec_control_reset_reload hp ha hc hcode h8 h9 hg hst ht
  · exact exec_control_stop_attention ha hc hcode h8 h9 hm ht hcalm

end Sys2Proof.Machine
end

section
/-! A profile read (R173, R174): each field held to its range (Table 9-5) at its place (Table 11-4), and the defaults where a
profile has no place. -/

namespace Sys2Proof.Machine

variable {s : State} {a : Nat}

/-! ### Fields (R174) -/

/-- A number of `n` bytes (R185). -/
theorem leNat_lt (l : List Byte) : leNat l < 256 ^ l.length := by
  induction l with
  | nil => exact Nat.zero_lt_one
  | cons b rest ih =>
    have hb := b.isLt
    rw [leNat, List.length_cons, pow_succ]
    omega

/-- A field of two bytes is a number of 16 bits (R185). -/
theorem readField_two_lt (s : State) (a : Nat) : s.readField a 2 < 65536 := by
  have h := leNat_lt (readCells s.mem a 2)
  rw [readCells_length] at h
  exact h

theorem signedOf_bounds {v : Nat} (h : v < 65536) : -32768 ≤ signedOf 16 v ∧ signedOf 16 v ≤ 32767 := by
  unfold signedOf
  split <;> omega

/-- A value is clamped where it lies outside its range (R174). -/
theorem clampInt_eq_iff {lo hi v : Int} (h : lo ≤ hi) : clampInt lo hi v = v ↔ lo ≤ v ∧ v ≤ hi := by
  unfold clampInt
  omega

theorem clampInt_toNat {lo hi : Int} (h : 0 ≤ lo) (k : lo ≤ hi) (v : Nat) :
    (clampInt lo hi v).toNat = max lo.toNat (min hi.toNat v) := by
  unfold clampInt
  omega

/-- No clamp was reported (R174). -/
theorem ranged_false_iff {lo hi v : Int} (h : lo ≤ hi) : (ranged lo hi v).2 = false ↔ lo ≤ v ∧ v ≤ hi := by
  rw [← clampInt_eq_iff h, ranged, decide_eq_false_iff_not, not_not]

theorem fieldU_value {lo hi : Int} (h : 0 ≤ lo) (k : lo ≤ hi) (s : State) (a : Nat) :
    (fieldU s a lo hi).1 = max lo.toNat (min hi.toNat (s.readField a 2)) :=
  clampInt_toNat h k _

theorem fieldU_unclamped {lo hi : Int} (k : lo ≤ hi) (s : State) (a : Nat) :
    (fieldU s a lo hi).2 = false ↔ lo ≤ s.readField a 2 ∧ (s.readField a 2 : Int) ≤ hi :=
  ranged_false_iff k

theorem fieldW_value {lo hi : Int} (h : 0 ≤ lo) (k : lo ≤ hi) (s : State) (a : Nat) :
    (fieldW s a lo hi).1 = max lo.toNat (min hi.toNat (s.readField a 4)) :=
  clampInt_toNat h k _

theorem fieldW_unclamped {lo hi : Int} (k : lo ≤ hi) (s : State) (a : Nat) :
    (fieldW s a lo hi).2 = false ↔ lo ≤ s.readField a 4 ∧ (s.readField a 4 : Int) ≤ hi :=
  ranged_false_iff k

theorem fieldS_value (lo hi : Int) (s : State) (a : Nat) :
    (fieldS s a lo hi).1 = max lo (min hi (signedOf 16 (s.readField a 2))) := rfl

theorem fieldS_unclamped {lo hi : Int} (k : lo ≤ hi) (s : State) (a : Nat) :
    (fieldS s a lo hi).2 = false ↔ lo ≤ signedOf 16 (s.readField a 2) ∧ signedOf 16 (s.readField a 2) ≤ hi :=
  ranged_false_iff k

/-- A signed field of full range is as it was read (Table 9-5). -/
theorem fieldS_full (s : State) (a : Nat) : fieldS s a (-32768) 32767 = (signedOf 16 (s.readField a 2), false) := by
  have hv := (clampInt_eq_iff (by decide)).2 (signedOf_bounds (readField_two_lt s a))
  unfold fieldS ranged
  rw [hv, decide_eq_false (by simp)]

theorem fieldThreshold_value (s : State) (a : Nat) :
    (fieldThreshold s a).1
      = if s.readField a 2 = 0xFFFF then 0xFFFF else max 16 (min 255 (s.readField a 2)) := by
  unfold fieldThreshold noThreshold
  split
  · rfl
  · exact fieldU_value (by decide) (by decide) s a

theorem fieldThreshold_unclamped (s : State) (a : Nat) :
    (fieldThreshold s a).2 = false
      ↔ s.readField a 2 = 0xFFFF ∨ (16 ≤ s.readField a 2 ∧ s.readField a 2 ≤ 255) := by
  unfold fieldThreshold noThreshold
  split
  · next h => simp [h]
  · next h =>
    rw [fieldU_unclamped (by decide)]
    omega

/-- The sample period of a code held to 0..2 (R6). -/
theorem periodOf_clamped (c : Nat) : periodOf (min 2 c) = if c = 0 then 500 else if c = 1 then 1000 else 2000 := by
  unfold periodOf
  have h0 : min 2 c = 0 ↔ c = 0 := by omega
  have h1 : min 2 c = 1 ↔ c = 1 := by omega
  simp only [h0, h1]

/-! ### The three profiles (Table 11-4) -/

theorem readMotion_values (s : State) (a : Nat) (f : Nat → Nat) (hf : f = fun k => s.readField (a + k) 2) :
    (readMotion s a).1
      = ⟨if f 0 = 0 then 500 else if f 0 = 1 then 1000 else 2000, min 8 (f 2),
          max 4000 (min 100000 (s.readField (a + 4) 4)),
          ⟨decide (f 8 ≠ 0), max 1 (min 255 (f 10)), max 256 (min 8192 (f 18)),
            if f 20 = 0xFFFF then 0xFFFF else max 16 (min 255 (f 20)), max 1 (min 8 (f 22)), min 10000 (f 24)⟩,
          ⟨max (-320) (min 320 (signedOf 16 (f 12))), max (-320) (min 320 (signedOf 16 (f 14))),
            max (-320) (min 320 (signedOf 16 (f 16)))⟩,
          ⟨min 15 (f 26), signedOf 16 (f 28), max 256 (min 32767 (f 30)), min 1023 (f 32), min 1023 (f 34),
            min 1500 (f 36)⟩⟩ := by
  subst hf
  simp [readMotion, fieldU_value, fieldW_value, fieldS_value, fieldS_full, fieldThreshold_value, fieldF, periodOf_clamped]

theorem readMotion_unclamped (s : State) (a : Nat) (f : Nat → Nat) (hf : f = fun k => s.readField (a + k) 2) :
    (readMotion s a).2 = false ↔
      f 0 ≤ 2 ∧ f 2 ≤ 8 ∧ (4000 ≤ s.readField (a + 4) 4 ∧ s.readField (a + 4) 4 ≤ 100000)
        ∧ (1 ≤ f 10 ∧ f 10 ≤ 255) ∧ (signedOf 16 (f 12)).natAbs ≤ 320 ∧ (signedOf 16 (f 14)).natAbs ≤ 320
        ∧ (signedOf 16 (f 16)).natAbs ≤ 320 ∧ (256 ≤ f 18 ∧ f 18 ≤ 8192)
        ∧ (f 20 = 0xFFFF ∨ (16 ≤ f 20 ∧ f 20 ≤ 255)) ∧ (1 ≤ f 22 ∧ f 22 ≤ 8) ∧ f 24 ≤ 10000 ∧ f 26 ≤ 15
        ∧ (256 ≤ f 30 ∧ f 30 ≤ 32767) ∧ f 32 ≤ 1023 ∧ f 34 ≤ 1023 ∧ f 36 ≤ 1500 := by
  subst hf
  simp (disch := decide) only [readMotion, Bool.or_eq_false_iff, fieldU_unclamped, fieldW_unclamped, fieldS_full,
    fieldS_unclamped, fieldThreshold_unclamped, Nat.add_zero, and_true]
  omega

theorem readStorage_values (s : State) (a : Nat) (f : Nat → Nat) (hf : f = fun k => s.readField (a + k) 2) :
    (readStorage s a).1
      = ⟨⟨max 16 (min 256 (f 0)), min 60 (f 2), max 1 (min 64 (f 4))⟩, max 250 (min 5000 (f 6)),
          max 1 (min 50 (f 8)), min 255 (f 10)⟩ := by
  subst hf
  simp [readStorage, fieldU_value]

theorem readStorage_unclamped (s : State) (a : Nat) (f : Nat → Nat) (hf : f = fun k => s.readField (a + k) 2) :
    (readStorage s a).2 = false ↔
      (16 ≤ f 0 ∧ f 0 ≤ 256) ∧ f 2 ≤ 60 ∧ (1 ≤ f 4 ∧ f 4 ≤ 64) ∧ (250 ≤ f 6 ∧ f 6 ≤ 5000) ∧ (1 ≤ f 8 ∧ f 8 ≤ 50)
        ∧ f 10 ≤ 255 := by
  subst hf
  simp (disch := decide) only [readStorage, Bool.or_eq_false_iff, fieldU_unclamped, Nat.add_zero]
  omega

theorem readPower_values (s : State) (a : Nat) (f : Nat → Nat) (hf : f = fun k => s.readField (a + k) 2) :
    (readPower s a).1
      = ⟨⟨decide (f 0 ≠ 0), decide (f 2 ≠ 0), max 500 (min 3000 (f 4)), max 4300 (min 5500 (f 6)),
            max 100 (min 2000 (f 8)), max 4000 (min 4400 (f 10)), max 10 (min 200 (f 12)), min 10000 (f 14),
            min 2000 (f 16)⟩, ⟨max 500 (min 5000 (f 18)), min 200 (f 20), max 3000 (min 3500 (f 22))⟩⟩ := by
  subst hf
  simp [readPower, fieldU_value, fieldF]

theorem readPower_unclamped (s : State) (a : Nat) (f : Nat → Nat) (hf : f = fun k => s.readField (a + k) 2) :
    (readPower s a).2 = false ↔
      (500 ≤ f 4 ∧ f 4 ≤ 3000) ∧ (4300 ≤ f 6 ∧ f 6 ≤ 5500) ∧ (100 ≤ f 8 ∧ f 8 ≤ 2000)
        ∧ (4000 ≤ f 10 ∧ f 10 ≤ 4400) ∧ (10 ≤ f 12 ∧ f 12 ≤ 200) ∧ f 14 ≤ 10000 ∧ f 16 ≤ 2000
        ∧ (500 ≤ f 18 ∧ f 18 ≤ 5000) ∧ f 20 ≤ 200 ∧ (3000 ≤ f 22 ∧ f 22 ≤ 3500) := by
  subst hf
  simp (disch := decide) only [readPower, Bool.or_eq_false_iff, fieldU_unclamped]
  omega

/-! ### Profiles with and without a place (R173) -/

/-- A profile without a place has the defaults, and its flag where it would pass the end of the Buffer RAM (R173). -/
theorem readProfile_absent {α : Type} {offset size : Nat} (dflt : α) (read : State → Nat → α × Bool)
    (ha : a = offset / 16 * 16) (h : a = 0 ∨ ramBytes < a + size) : readProfile s offset size dflt read = (dflt, decide (a ≠ 0)) := by
  subst ha
  have hflag : misplaced offset size = decide (offset / 16 * 16 ≠ 0) := by
    unfold misplaced alignedOffset
    rw [← Bool.decide_and, decide_eq_decide]
    omega
  unfold readProfile placed alignedOffset
  rw [if_pos h, ← hflag]

/-- A profile with a place is read there (R173). -/
theorem readProfile_placed {α : Type} {offset size : Nat} (dflt : α) (read : State → Nat → α × Bool)
    (ha : a = offset / 16 * 16) (h0 : a ≠ 0) (h : a + size ≤ ramBytes) :
    readProfile s offset size dflt read = read s a := by
  subst ha
  unfold readProfile placed alignedOffset
  rw [if_neg (by omega)]

end Sys2Proof.Machine
end

section
/-! RELOAD and HELD_RELOAD (R170, R174, Table 9-6): a reload is held, its read begins, and its values are handed. -/

namespace Sys2Proof.Machine

variable {s t : State} {u : Stamp} {v : Profiles}

/-! ### A cause raised under conditions -/

theorem raiseIf_raiseIf (s : State) (b d : Bool) (c : Cause) : (s.raiseIf b c).raiseIf d c = s.raiseIf (b || d) c := by
  cases b with
  | false => rfl
  | true =>
    cases d with
    | false => rfl
    | true => exact raise_idem s c

theorem Calm.raisedIf (h : Calm s) (b : Bool) (c : Cause) : Calm (s.raiseIf b c) := by
  unfold State.raiseIf
  split
  · exact h.raised c
  · exact h

/-- A record update beside a raised cause, where it leaves the causes and RESETn alone (R175). -/
theorem raiseIf_update (f : State → State) (b : Bool) (c : Cause) (h : ∀ s, f (s.raise c) = (f s).raise c) (s : State) :
    f (s.raiseIf b c) = (f s).raiseIf b c := by
  cases b with
  | false => rfl
  | true => exact h s

/-! ### The values of a reload (Table 9-6) -/

/-- The capacity of the frame table clamps the look-ahead (R59). -/
def lookAheadClamped (v : Profiles) (s : State) : Bool := decide (s.pu.shadows.length / 4 < v.motion.pu.lookAhead)

/-- The values of a reload wait for their application points, but FE's, and the clamp of the look-ahead is recorded (R59,
R174, Table 9-6). -/
def reloaded (v : Profiles) (s : State) : State :=
  { s with
    hp.clamped.motion := s.hp.clamped.motion || lookAheadClamped v s
    rck.pendingPeriod := some v.motion.period, rck.pendingFilterLength := some v.motion.filterLength
    rck.pendingMinInterval := some v.motion.minInterval, mu.pending := some v.motion.mu
    pu.pending := some { v.motion.pu with lookAhead := min v.motion.pu.lookAhead (s.pu.shadows.length / 4) }
    sm.pending := some v.storage.sm
    cw.pendingCommitMs := some v.storage.commitMs, fe.settleMs := v.storage.settleMs
    fe.idleLoad := v.storage.idleLoad, cc.pending := some v.power.cc, ga.pending := some v.power.ga }

theorem reloaded_raise (v : Profiles) (c : Cause) (s : State) : reloaded v (s.raise c) = (reloaded v s).raise c := by
  unfold State.raise
  split
  · exact (if_pos ‹_›).symm
  · exact (if_neg ‹_›).symm

/-- What handing the values of a reload does (R59, Table 9-6). -/
theorem handReload_eq (v : Profiles) (s : State) :
    handReload v s = (reloaded v s).raiseIf (lookAheadClamped v s) .parameterClamped := by
  by_cases h : s.pu.shadows.length / 4 < v.motion.pu.lookAhead
  · have hl : lookAheadClamped v s = true := decide_eq_true h
    have hr : puReportClamp v.motion.pu s = State.raise { s with hp.clamped.motion := true } .parameterClamped := if_pos h
    unfold handReload reloaded
    rw [hr, hl, Bool.or_true]
    unfold State.raiseIf State.raise
    dsimp only
    split <;> rfl
  · have hl : lookAheadClamped v s = false := decide_eq_false h
    have hr : puReportClamp v.motion.pu s = s := if_neg h
    unfold handReload reloaded
    rw [hr, hl, Bool.or_false]
    rfl

theorem Calm.reloaded (h : Calm s) (v : Profiles) : Calm (reloaded v s) where
  powered := h.powered
  asserted := h.asserted
  noRequest := h.noRequest
  noJob := h.noJob
  noReappend := h.noReappend
  noResume := h.noResume
  noStopDue := h.noStopDue
  notFull := h.notFull
  notClosing := h.notClosing
  noMarks := h.noMarks
  noMount := h.noMount
  noFormat := h.noFormat

/-! ### The read of a reload (R170, R174) -/

/-- The profiles are read from the Buffer RAM alone. -/
theorem readProfiles_congr (h : t.mem = s.mem) (o : ProfileOffsets) : readProfiles t o = readProfiles s o := by
  have hf : t.readField = s.readField := by
    funext a n
    unfold State.readField
    rw [h]
  have hm : readMotion t = readMotion s := by
    funext a
    simp only [readMotion, fieldU, fieldS, fieldW, fieldF, fieldThreshold, hf]
  have hst : readStorage t = readStorage s := by
    funext a
    simp only [readStorage, fieldU, hf]
  have hp : readPower t = readPower s := by
    funext a
    simp only [readPower, fieldU, fieldF, hf]
  simp only [readProfiles, readProfile, hm, hst, hp]

/-- The profiles that a reload reads (R172, R174). -/
def reloadProfiles (s : State) : Profiles := readProfiles s (profileOffsets s (s.hp.inForce.getD s.hp.directory.toNat))

theorem reloadProfiles_congr (h : t.mem = s.mem) (hf : t.hp.inForce = s.hp.inForce)
    (hd : t.hp.directory = s.hp.directory) : reloadProfiles t = reloadProfiles s := by
  have ho : ∀ d, profileOffsets t d = profileOffsets s d := fun d => by
    simp only [profileOffsets, dirField, State.readField, h]
  unfold reloadProfiles
  rw [readProfiles_congr h, ho, hf, hd]

/-- A flag of a profile is set (R174). -/
def anyClamped (c : ClampRecord) : Bool := c.motion || c.storage || c.power

/-- The state with the clamp record of a reload, no longer held, and its read where it is to be (R170, R174). -/
def readFor (v : Profiles) (r : Option ProfileRead) (s : State) : State :=
  { s with hp.reloadHeld := false, hp.clamped := v.clamped, hp.reading := r }

theorem reading_raise (r : Option ProfileRead) (c : Cause) (s : State) :
    { (s.raise c) with hp.reading := r } = State.raise { s with hp.reading := r } c := by
  unfold State.raise
  dsimp only
  split <;> rfl

/-- A reload whose read goes on hands nothing yet (log 25). -/
theorem hpReload_lasting (hv : v = reloadProfiles s) :
    hpReload .lasting s = (readFor v (some ⟨v, false⟩) s).raiseIf (anyClamped v.clamped) .parameterClamped := by
  have hr : reloadProfiles { s with hp.reloadHeld := false } = v := (reloadProfiles_congr rfl rfl rfl).trans hv.symm
  subst hr
  rfl

/-- A reload whose read ends at once hands its values (R174, log 25). -/
theorem hpReload_first (hv : v = reloadProfiles s) :
    hpReload .first s
      = (reloaded v (readFor v none s)).raiseIf (anyClamped v.clamped || lookAheadClamped v s) .parameterClamped := by
  have hbegin : hpReload .first s = hpEndRead (hpReload .lasting s) := rfl
  have hread : (hpReload .lasting s).hp.reading = some ⟨v, false⟩ := by
    rw [hpReload_lasting hv]
    unfold State.raiseIf
    split
    · exact raise_hp_reading _ _
    · rfl
  have hhand : hpEndRead (hpReload .lasting s)
      = handReload v ((readFor v none s).raiseIf (anyClamped v.clamped) .parameterClamped) := by
    rw [hpEndRead_reading hread, hpReload_lasting hv]
    exact congrArg (handReload v)
      (raiseIf_update (fun s => { s with hp.reading := none }) _ _ (reading_raise none _) _)
  have hlook : ∀ b, lookAheadClamped v ((readFor v none s).raiseIf b .parameterClamped) = lookAheadClamped v s := by
    intro b
    unfold lookAheadClamped State.raiseIf
    split
    · rw [raise_pu]
      rfl
    · rfl
  rw [hbegin, hhand, handReload_eq, hlook, raiseIf_update (reloaded v) _ _ (reloaded_raise v _), raiseIf_raiseIf]

theorem Calm.readFor (h : Calm s) (v : Profiles) (r : Option ProfileRead) : Calm (readFor v r s) :=
  h.congr h.powered rfl rfl rfl rfl

/-! ### HELD_RELOAD (R170) -/

/-- A held reload falls due in Idle and Running (R170). -/
theorem bodyHeldReload_due (hr : s.hp.reading = none) (hh : s.hp.reloadHeld = true)
    (hp : s.part.state = .idle ∨ s.part.state = .running) (ht : s.part.transition ≠ .reset) :
    bodyHeldReload u s = hpReload .first (s.advance u.toNat) := by
  unfold bodyHeldReload
  rw [hpEndRead_idle (by exact hr)]
  exact if_pos ⟨hh, by simp [State.resetting, ht], hp⟩

/-- With no reload held nothing follows the end of a read (R170). -/
theorem bodyHeldReload_unheld (ht : hpEndRead (s.advance u.toNat) = t) (hh : t.hp.reloadHeld = false) :
    bodyHeldReload u s = t := by
  unfold bodyHeldReload
  rw [ht]
  exact if_neg fun c => Bool.false_ne_true (hh.symm.trans c.1)

/-- CONTROL Reload outside Standby (R170). -/
theorem exec_reload_awake (hp : s.part.state ≠ .off) (hs : s.part.state ≠ .standby) :
    exec (.reload u) s = .next (finish (judgeReload .first (s.advance u.toNat))) := by
  obtain ⟨-, -, -, -, -, hreload⟩ := exec_controlRows (u := u) (course := .first) hp (portAccess_awake hs)
  exact hreload

/-! ### The obligation -/

/-- The state in which a reload has handed its values, in the words of the clamp record (R59, R174). -/
theorem reloaded_readFor (v : Profiles) (hr : s.hp.reading = none) :
    reloaded v (readFor v none s)
      = { s with
          hp.reloadHeld := false
          hp.clamped := { v.clamped with motion := v.clamped.motion || lookAheadClamped v s }
          rck.pendingPeriod := some v.motion.period, rck.pendingFilterLength := some v.motion.filterLength
          rck.pendingMinInterval := some v.motion.minInterval, mu.pending := some v.motion.mu
          pu.pending := some { v.motion.pu with lookAhead := min v.motion.pu.lookAhead (s.pu.shadows.length / 4) }
          sm.pending := some v.storage.sm
          cw.pendingCommitMs := some v.storage.commitMs, fe.settleMs := v.storage.settleMs
          fe.idleLoad := v.storage.idleLoad, cc.pending := some v.power.cc, ga.pending := some v.power.ga } := by
  unfold reloaded readFor
  rw [← hr]
  rfl

/-- ParameterClamped is raised if a flag of the clamp record is set (R174). -/
theorem raiseIf_any (s : State) (c : Cause) (x y z : Bool) :
    s.raiseIf (x || y || z) c = if x = true ∨ y = true ∨ z = true then s.raise c else s := by
  unfold State.raiseIf
  simp only [Bool.or_eq_true, or_assoc]

theorem raiseIf_decide (s : State) (c : Cause) (p : Prop) [Decidable p] :
    s.raiseIf (decide p) c = if p then s.raise c else s := by
  unfold State.raiseIf
  simp only [decide_eq_true_iff]

/-- RELOAD and HELD_RELOAD by the part state, the read in progress, and what is held (R170, R174). -/
theorem reload_commands (u : Stamp) (h : Calm s) :
    (s.part.state = .mounting → s.part.transition ≠ .reset →
      exec (.reload u) s = .next { s.advance u.toNat with hp.reloadHeld := true })
    ∧ ((s.part.state = .idle ∨ s.part.state = .running) → s.part.transition ≠ .reset → s.hp.reading ≠ none →
      exec (.reload u) s = .next { s.advance u.toNat with hp.reloadHeld := true })
    ∧ (s.hp.reloadHeld = false → s.hp.reading = none → exec (.heldReload u) s = .next (s.advance u.toNat)) := by
  have hheld : Calm ({ s.advance u.toNat with hp.reloadHeld := true } : State) := h.congr h.powered rfl rfl rfl rfl
  refine ⟨fun hp ht => ?_, fun hp ht hr => ?_, fun hh hr => ?_⟩
  · rw [exec_reload_awake h.powered (by rw [hp]; decide), judgeReload_mounting (by exact hp) (by exact ht), hheld.finish]
  · have hs : s.part.state ≠ .standby := by rcases hp with hp | hp <;> rw [hp] <;> decide
    have hb : beginReload .first (s.advance u.toNat) = { s.advance u.toNat with hp.reloadHeld := true } := if_neg hr
    rw [exec_reload_awake h.powered hs, judgeReload_begins (by exact hp) (by exact ht), hb, hheld.finish]
  · have hb : bodyHeldReload u s = s.advance u.toNat := bodyHeldReload_unheld (hpEndRead_idle hr) hh
    exact congrArg _ (h.live_rck hb)

/-- The read of a reload that ends within its command, by RELOAD and by HELD_RELOAD (R170, R174). -/
theorem reload_reads (h : Calm s) (hp : s.part.state = .idle ∨ s.part.state = .running)
    (ht : s.part.transition ≠ .reset) (hr : s.hp.reading = none) (hv : v = reloadProfiles s) :
    exec (.reload u) s = .next (hpReload .first (s.advance u.toNat))
    ∧ (s.hp.reloadHeld = true → exec (.heldReload u) s = .next (hpReload .first (s.advance u.toNat))) := by
  have hs : s.part.state ≠ .standby := by rcases hp with hp | hp <;> rw [hp] <;> decide
  have ha : Calm (s.advance u.toNat) := h.congr h.powered rfl rfl rfl rfl
  have hcalm : Calm (hpReload .first (s.advance u.toNat)) := by
    rw [hpReload_first (s := s.advance u.toNat) (hv.trans (reloadProfiles_congr rfl rfl rfl))]
    exact ((ha.readFor v none).reloaded v).raisedIf _ _
  have hb : beginReload .first (s.advance u.toNat) = hpReload .first (s.advance u.toNat) := if_pos hr
  refine ⟨?_, fun hh => congrArg _ (live_ends h.powered (bodyHeldReload_due hr hh hp ht) hcalm.finish)⟩
  rw [exec_reload_awake h.powered hs, judgeReload_begins (by exact hp) (by exact ht), hb, hcalm.finish]

/-- The read of a reload that goes on past the write of CONTROL's Reload bit (log 25). -/
theorem reload_lasts {value : Half} (h : Calm s) (hp : s.part.state = .idle ∨ s.part.state = .running)
    (ht : s.part.transition ≠ .reset) (hr : s.hp.reading = none) (hv : v = reloadProfiles s)
    (hcode : value.toNat % 8 = 0) (h8 : value.getLsbD 8 = false) (h9 : value.getLsbD 9 = true) :
    exec (.halfWriteLow u true 0 value .lasting) s
      = .next ((readFor v (some ⟨v, false⟩) (s.advance u.toNat)).raiseIf (anyClamped v.clamped) .parameterClamped) := by
  have hs : s.part.state ≠ .standby := by rcases hp with hp | hp <;> rw [hp] <;> decide
  have ha : Calm (s.advance u.toNat) := h.congr h.powered rfl rfl rfl rfl
  have hb : beginReload .lasting (s.advance u.toNat) = hpReload .lasting (s.advance u.toNat) := if_pos hr
  rw [exec_control_reload h.powered (portAccess_awake hs) (.inl rfl) h8 h9 (by rw [hcode]; rfl),
    judgeReload_begins (by exact hp) (by exact ht), hb,
    hpReload_lasting (s := s.advance u.toNat) (hv.trans (reloadProfiles_congr rfl rfl rfl)),
    ((ha.readFor v _).raisedIf _ _).finish]

/-- The end of a reload's read hands its values (R174, log 25). -/
theorem heldReload_hands (h : Calm s) (hr : s.hp.reading = some ⟨v, false⟩) (hh : s.hp.reloadHeld = false) :
    exec (.heldReload u) s
      = .next ((reloaded v { s.advance u.toNat with hp.reading := none }).raiseIf (lookAheadClamped v s)
          .parameterClamped) := by
  have ha : Calm ({ s.advance u.toNat with hp.reading := none } : State) := h.congr h.powered rfl rfl rfl rfl
  have hend : hpEndRead (s.advance u.toNat)
      = (reloaded v { s.advance u.toNat with hp.reading := none }).raiseIf (lookAheadClamped v s) .parameterClamped := by
    rw [hpEndRead_reading (by exact hr)]
    exact handReload_eq v _
  refine congrArg _ (live_ends h.powered (bodyHeldReload_unheld hend ?_) ((ha.reloaded v).raisedIf _ _).finish)
  unfold State.raiseIf
  split
  · rw [raise_hp_reloadHeld]
    exact hh
  · exact hh

/-- Settles O47: the commands by what is held and read, and each profile with a place and without. -/
theorem reloadTaken : Obligations.ReloadTaken := by
  refine ⟨?_, ?_⟩
  · rintro u v s _ h rfl
    obtain ⟨hmounting, hreading, hidle⟩ := reload_commands u h
    refine ⟨hmounting, hreading, hidle, fun hp ht hr hv => ⟨?_, fun value hcode h8 h9 => ⟨_, rfl, ?_⟩⟩, fun hr hh => ?_⟩
    · obtain ⟨hreload, hheld⟩ := reload_reads (u := u) h hp ht hr hv
      have hfirst : hpReload .first (s.advance u.toNat)
          = (reloaded v (readFor v none (s.advance u.toNat))).raiseIf (anyClamped v.clamped || lookAheadClamped v s)
              .parameterClamped :=
        hpReload_first (s := s.advance u.toNat) (hv.trans (reloadProfiles_congr rfl rfl rfl))
      have hflags : (anyClamped v.clamped || lookAheadClamped v s)
          = (v.clamped.motion || lookAheadClamped v s || v.clamped.storage || v.clamped.power) := by
        unfold anyClamped
        ac_rfl
      rw [hflags, raiseIf_any, reloaded_readFor (s := s.advance u.toNat) v hr] at hfirst
      exact ⟨_, _, _, rfl, rfl, hfirst, hreload, hheld⟩
    · rw [reload_lasts h hp ht hr hv hcode h8 h9]
      exact congrArg _ (raiseIf_any _ _ _ _ _)
    · refine ⟨_, rfl, (heldReload_hands h hr hh).trans (congrArg _ (raiseIf_decide _ _ _))⟩
  · rintro o _ s rfl
    refine ⟨fun a f ha hf => ⟨fun h => ?_, fun h0 h => ?_⟩, fun a f ha hf => ⟨fun h => ?_, fun h0 h => ?_⟩,
      fun a f ha hf => ⟨fun h => ?_, fun h0 h => ?_⟩⟩
    · have hm := readProfile_absent (s := s) MotionProfile.default readMotion ha h
      exact ⟨congrArg Prod.fst hm, congrArg Prod.snd hm⟩
    · have hm := readProfile_placed (s := s) MotionProfile.default readMotion ha h0 h
      have hx := (congrArg Prod.fst hm).trans (readMotion_values s a f hf)
      refine ⟨congrArg MotionProfile.period hx, congrArg MotionProfile.filterLength hx,
        congrArg MotionProfile.minInterval hx, congrArg MotionProfile.mu hx, congrArg MotionProfile.bias hx,
        congrArg MotionProfile.pu hx, ?_⟩
      rw [← readMotion_unclamped s a f hf, ← hm]
      rfl
    · have hm := readProfile_absent (s := s) StorageProfile.default readStorage ha h
      exact ⟨congrArg Prod.fst hm, congrArg Prod.snd hm⟩
    · have hm := readProfile_placed (s := s) StorageProfile.default readStorage ha h0 h
      refine ⟨(congrArg Prod.fst hm).trans (readStorage_values s a f hf), ?_⟩
      rw [← readStorage_unclamped s a f hf, ← hm]
      rfl
    · have hm := readProfile_absent (s := s) PowerProfile.default readPower ha h
      exact ⟨congrArg Prod.fst hm, congrArg Prod.snd hm⟩
    · have hm := readProfile_placed (s := s) PowerProfile.default readPower ha h0 h
      refine ⟨(congrArg Prod.fst hm).trans (readPower_values s a f hf), ?_⟩
      rw [← readPower_unclamped s a f hf, ← hm]
      rfl

end Sys2Proof.Machine
end

section
/-! POWER_ON_RESET (R179) and CLOCK_LOSS (R180): what the loss of the reference leads to, by the part state. -/

namespace Sys2Proof.Machine

variable {s : State} {u : Stamp} {passed : Bool}

/-! ### Power-on reset (R179) -/

/-- Settles O2: the state is the reset state but for the FSTART pin and the queue, so each value listed is that one's. -/
theorem powerOnReset : Obligations.PowerOnReset := by
  intro s
  refine ⟨powerOn s, rfl, rfl, ?_⟩
  and_intros <;> rfl

/-! ### The loss of the reference (R180) -/

/-- The state that a loss leaves before the part state is looked at: the clock goes on from the backup oscillator. -/
def backedUp (u : Stamp) (s : State) : State := { s.advance u.toNat with part.onBackup := true }

/-- A loss already judged is judged no more (log 6). -/
theorem bodyClockLoss_judged (hb : s.part.onBackup = true) : bodyClockLoss u passed s = s.advance u.toNat :=
  if_pos hb

/-- What a loss not yet judged makes of a part in the state `p` (R180, R184). -/
def lossTaken (passed : Bool) (p : PartState) (s : State) : State :=
  match p with
  | .starting => enterHalted .clockLoss { s with part.memoryReady := s.part.memoryReady || passed }
  | .standby => enterHalted .clockLoss (resetBlocks false s)
  | .halted | .off => s
  | .idle | .mounting | .running =>
    if s.resetting then { s with part.haltAfter := true } else beginReset { s with part.haltAfter := true }

theorem bodyClockLoss_unjudged {p : PartState} (hb : s.part.onBackup = false) (hp : s.part.state = p) :
    bodyClockLoss u passed s = lossTaken passed p (backedUp u s) := by
  have hn : (s.advance u.toNat).part.onBackup ≠ true := ne_true_of_eq_false hb
  subst hp
  refine (if_neg hn).trans ?_
  show (match s.part.state with | .starting => _ | .standby => _ | .halted => _ | .off => _ | _ => _)
    = lossTaken passed s.part.state _
  cases s.part.state <;> rfl

/-- With no reset transition in progress, a loss in Idle, Mounting or Running begins one (R184). -/
theorem lossTaken_transition {p : PartState} (hp : p = .idle ∨ p = .mounting ∨ p = .running)
    (ht : s.part.transition ≠ .reset) :
    lossTaken passed p s = beginReset { s with part.haltAfter := true } := by
  have hr : ¬s.resetting = true := ne_true_of_eq_false (decide_eq_false ht)
  rcases hp with rfl | rfl | rfl <;> exact if_neg hr

/-- In Standby the blocks are reset and the part is halted (R180, R183). -/
theorem lossTaken_standby (s : State) :
    lossTaken passed .standby s
      = enterHalted .clockLoss
          { s with
            mu := resetMotion s.mu, pu := Pu.reset, sm := Sm.reset, cw := Cw.reset, fe := resetFlash s.fe
            hp := resetHost false s.hp } :=
  congrArg (enterHalted .clockLoss) (resetBlocks_eq false s)

/-- Nothing follows an entry to Halted with the Segment Manager and the Clip Writer reset. -/
theorem finish_halted_reset {c : HaltedCause} (hs : s.sm = Sm.reset) (hc : s.cw = Cw.reset) (hg : s.ga.sysen = true) :
    finish (enterHalted c s) = enterHalted c s :=
  finish_reset ((raise_sm _ _).trans hs) ((raise_cw _ _).trans hc) ((congrArg Ga.sysen (raise_ga _ _)).trans hg)

/-- Settles O6, by the mark of the loss and the part state. -/
theorem clockLossHalts : Obligations.ClockLossHalts := by
  intro u passed s
  refine ⟨fun h hb => ?judged, fun h hb hp => ?halted, fun h hb hp => ?starting, fun hg hb hp => ?standby,
    fun hg hb hp ht => ?transition⟩
  case judged => exact congrArg _ (h.live_rck (bodyClockLoss_judged hb))
  case halted => exact congrArg _ (h.live_eq (bodyClockLoss_unjudged hb hp) h.powered rfl rfl rfl rfl)
  case starting =>
    have hcalm : Calm { backedUp u s with part.memoryReady := s.part.memoryReady || passed } :=
      h.congr h.powered rfl rfl rfl rfl
    exact congrArg _ (live_ends h.powered (bodyClockLoss_unjudged hb hp) (hcalm.halted _).finish)
  case standby =>
    have hon : s.part.state ≠ .off := by
      rw [hp]
      exact nofun
    have hbody := (bodyClockLoss_unjudged (u := u) hb hp).trans (lossTaken_standby (passed := passed) _)
    exact congrArg _ (live_ends hon hbody (finish_halted_reset rfl rfl hg))
  case transition =>
    have hon : s.part.state ≠ .off := by
      rcases hp with hp | hp | hp <;> rw [hp] <;> exact nofun
    have hbody := (bodyClockLoss_unjudged (u := u) hb rfl).trans (lossTaken_transition (passed := passed) hp ht)
    exact congrArg _ (live_resetting hon (hbody.trans (beginReset_eq _)) rfl hg)

end Sys2Proof.Machine
end

section
/-! The step: the front of the queue is taken, and an empty queue leaves the state as it is (log 4). -/

namespace Sys2Proof.Machine

variable {s : State}

/-- A step takes the front of the queue, and its command sees the rest. -/
theorem step_of_pending_cons {c : Instr} {rest : List Instr} (h : s.pending = c :: rest) :
    step s = exec c { s with pending := rest } := by
  unfold step
  rw [h]

/-- An empty queue is an idle step. -/
theorem step_of_pending_nil (h : s.pending = []) : step s = .next s := by
  unfold step
  rw [h]

/-- Settles O1, by what the queue holds: a command in front, or none. -/
theorem stepTakesFront : Obligations.StepTakesFront :=
  ⟨fun _ _ _ => step_of_pending_cons, fun _ => step_of_pending_nil⟩

end Sys2Proof.Machine
end
